-- ==== Sys2Proof/Word.lean ====
section
/-! DEFINITION. The word types, and the two small fixed-size containers of the machine: four lanes of a slice, eight
slices of a group (R4). -/

namespace Sys2Proof

/-- A byte of memory. -/
abbrev Byte := BitVec 8
/-- A lane word. -/
abbrev Word32 := BitVec 32
/-- A uniform register. -/
abbrev Word64 := BitVec 64

/-- One thing per lane of a slice (R4: a slice has 4 lanes). -/
structure Quad (α : Type) where
  l0 : α
  l1 : α
  l2 : α
  l3 : α
deriving DecidableEq, Repr

namespace Quad

/-- The thing of lane `i`; an index above 3 names lane 3. -/
def get {α : Type} (q : Quad α) (i : Nat) : α :=
  match i with
  | 0 => q.l0
  | 1 => q.l1
  | 2 => q.l2
  | _ => q.l3

/-- `q` with the thing of lane `i` replaced. -/
def set {α : Type} (q : Quad α) (i : Nat) (x : α) : Quad α :=
  match i with
  | 0 => { q with l0 := x }
  | 1 => { q with l1 := x }
  | 2 => { q with l2 := x }
  | _ => { q with l3 := x }

/-- The same thing on every lane. -/
def all {α : Type} (x : α) : Quad α := ⟨x, x, x, x⟩

/-- The four things `f 0` to `f 3`. -/
def make {α : Type} (f : Nat → α) : Quad α := ⟨f 0, f 1, f 2, f 3⟩

/-- Lane by lane. -/
def map {α β : Type} (f : α → β) (q : Quad α) : Quad β := ⟨f q.l0, f q.l1, f q.l2, f q.l3⟩

end Quad

/-- One thing per slice of a group (R4: a group has 8 slices). -/
structure Oct (α : Type) where
  s0 : α
  s1 : α
  s2 : α
  s3 : α
  s4 : α
  s5 : α
  s6 : α
  s7 : α
deriving DecidableEq, Repr

namespace Oct

/-- The thing of slice `i`; an index above 7 names slice 7. -/
def get {α : Type} (q : Oct α) (i : Nat) : α :=
  match i with
  | 0 => q.s0
  | 1 => q.s1
  | 2 => q.s2
  | 3 => q.s3
  | 4 => q.s4
  | 5 => q.s5
  | 6 => q.s6
  | _ => q.s7

/-- `q` with the thing of slice `i` replaced. -/
def set {α : Type} (q : Oct α) (i : Nat) (x : α) : Oct α :=
  match i with
  | 0 => { q with s0 := x }
  | 1 => { q with s1 := x }
  | 2 => { q with s2 := x }
  | 3 => { q with s3 := x }
  | 4 => { q with s4 := x }
  | 5 => { q with s5 := x }
  | 6 => { q with s6 := x }
  | _ => { q with s7 := x }

/-- The same thing in every slice. -/
def all {α : Type} (x : α) : Oct α := ⟨x, x, x, x, x, x, x, x⟩

/-- The eight things `f 0` to `f 7`. -/
def make {α : Type} (f : Nat → α) : Oct α := ⟨f 0, f 1, f 2, f 3, f 4, f 5, f 6, f 7⟩

end Oct

end Sys2Proof
end

