-- ==== Sys2Proof/Syntax.lean ====
section
/-! DEFINITION. The instructions and events of spec/opcode_table.json, one constructor per row, with the operands of each.
The fields an instruction's encoding fixes to zero are not part of it: the decoder checks them (Decode.lean). -/

namespace Sys2Proof

/-- The type codes of R71 and their extensions (R72). -/
inductive Ty where
  | b32 | s32 | n32 | f32 | b64 | s64 | n64 | f16 | bf16 | s16 | n16 | s8 | n8 | e4m3 | e5m2
  | m6a | m6b | m4 | i4 | x8 | t96
deriving DecidableEq, Repr

/-- The predicate of a lane instruction and its negate bit (R70). -/
structure Pred where
  q : BitVec 4
  neg : Bool
deriving DecidableEq, Repr

/-- A source name with its trap bit (R15, R70). -/
structure Src where
  name : BitVec 9
  trap : Bool
deriving DecidableEq, Repr

/-- A destination name with its use field (R35, R70). -/
structure Dst where
  name : BitVec 9
  uses : BitVec 3
deriving DecidableEq, Repr

/-- The operand the selector of R89 chooses in place of source B (of source A for `mov`). -/
inductive OpB where
  | name (s : Src)
  | imm (v : BitVec 24)
  | ureg (g : BitVec 6)
deriving DecidableEq, Repr

/-- The conditions of `cmp` (R94). -/
inductive Cond where
  | eq | ne | lt | le | gt | ge
deriving DecidableEq, Repr

/-- The conditions of `fcmp` (R99). -/
inductive FCond where
  | eq | ne | lt | le | gt | ge | un | ord
deriving DecidableEq, Repr

/-- The operators of `red` and `scan` (R125). -/
inductive RedOp where
  | add | min | max | and | or | xor
deriving DecidableEq, Repr

/-- The operations of `atom` and `gatom` (R170, R190). -/
inductive AtomOp where
  | add | min | max | and | or | xor | xchg | cas | binc | bdec
deriving DecidableEq, Repr

/-- The ordering field of `atom` (R190). -/
inductive Order where
  | relaxed | acq | rel | ar
deriving DecidableEq, Repr

/-- The scopes of R5. -/
inductive Scope where
  | core | clu | die | pkg | sys
deriving DecidableEq, Repr

/-- The address spaces of the memory shape (R73). -/
inductive Space where
  | core | clu | die | win | gl
deriving DecidableEq, Repr

/-- The memory shape of R73 without its modifier bits; `idx` is the index name when the index bit is 1. -/
structure Mem where
  base : BitVec 6
  space : Space
  win : BitVec 4
  idx : Option Src
  off : BitVec 12
deriving DecidableEq, Repr

/-- One half of a lane pair (R76). -/
structure Half where
  op : BitVec 7
  q : BitVec 2
  dst : BitVec 9
  uses : BitVec 2
  a : BitVec 9
  b : BitVec 9
  c : BitVec 9
deriving DecidableEq, Repr

/-- The second operand of a uniform arithmetic instruction in format U2 (R81). -/
inductive UOp where
  | reg (g : BitVec 6)
  | imm (v : BitVec 32)
deriving DecidableEq, Repr

/-- The conditions of `gcmp` (R81), codes 0 to 9. -/
inductive UCond where
  | eq | ne | lts | les | gts | ges | ltn | len | gtn | gen
deriving DecidableEq, Repr

/-- The conditions of `gbr` (R123). -/
inductive GCond where
  | always | nz | z
deriving DecidableEq, Repr

/-- The anchor source of `mzero` (R209). -/
inductive EaSrc where
  | imm (v : BitVec 16)
  | ureg (g : BitVec 6)
deriving DecidableEq, Repr

/-- The header of a host command as the device sees it (R348 to R350): the fields of the message, whether its tag verifies, whether
the reserved fields of its body hold 0 and its length fits the body, and the partition the body names, where it names one. The message that
opens a session is the first of its direction and names its target there, none for the package; no session has its number yet (R349). -/
structure CmdHdr where
  session : Nat
  seq : Nat
  tagOk : Bool
  opcode : Nat
  version : Nat := 1
  length : Nat := 0
  status : Nat := 0
  reserved : Nat := 0
  bodyOk : Bool := true
  part : Option Nat := none
deriving DecidableEq, Repr

/-- One peer aperture (R358): a 2 MiB-aligned virtual range mapped to a peer's remote base. -/
structure Aperture where
  base : Nat
  size : Nat
  peer : Nat
  remote : Nat
deriving DecidableEq, Repr

/-- The body of partition configure (R351), with the rule's defaults. -/
structure PartitionCfg where
  create : Bool
  part : Nat
  dies : List Nat
  handler : Nat
  handlerSize : Nat
  trapOff : Nat
  saveOff : Nat
  restoreOff : Nat
  quantum : Nat := 2000000
  watchdog : Nat := 1000000000
  faultTimeout : Nat := 10000000000
  idle : Nat := 1000000
  vsLimit : Nat := 3072
  root : Nat
  poolBase : Nat
  poolSize : Nat
  overBase : Nat
  overSize : Nat
  apertures : List Aperture
  peers : List Nat
  keyDigest : List Byte
deriving DecidableEq, Repr

/-- The attributes of a kernel as an image records them (R24). -/
structure KernelAttrs where
  floor : Nat
  groups : Nat
  teamBytes : Nat
  rows : Nat := 1
  cols : Nat := 1
  sramBytes : Nat := 0
  panels : Nat := 1
  dieBytes : Nat := 0
  minDies : Nat := 1
  maxDies : Nat := 12
  prio : Nat := 0
  determ : Bool := false
deriving DecidableEq, Repr

/-- An image in a partition's memory (R19, R22): its sections by address and length, and its entry table: each kernel's entry and
attributes. -/
structure Image where
  code : Nat
  codeSize : Nat
  param : Nat := 0
  paramSize : Nat := 0
  const : Nat := 0
  constSize : Nat := 0
  core : Nat := 0
  coreSize : Nat := 0
  kernels : List (Nat × KernelAttrs)
deriving DecidableEq, Repr

/-- What a launch puts in the place of a kernel's attributes (R352). -/
structure Overrides where
  floor : Option Nat := none
  groups : Option Nat := none
  teamBytes : Option Nat := none
  rows : Option Nat := none
  cols : Option Nat := none
  sramBytes : Option Nat := none
  panels : Option Nat := none
  dieBytes : Option Nat := none
  minDies : Option Nat := none
  maxDies : Option Nat := none
  prio : Option Nat := none
  determ : Option Bool := none
deriving DecidableEq, Repr

/-- The body of the launch command (R352): the image, a kernel of its entry table, what it overrides, parameter bytes where it replaces
them, bound words and the shape word. -/
structure LaunchBody where
  image : Image
  kernel : Nat := 0
  changes : Overrides := {}
  param : Option (List Byte) := none
  bounds : List (Nat × BitVec 64) := []
  shape : Option (BitVec 64) := none
deriving DecidableEq, Repr

/-- A launch as the device takes it (R24, R352): where the code stands in the partition's memory, the sections' bytes, the kernel's
attributes after overrides, the bound words and the shape word. -/
structure LaunchCmd where
  image : Nat
  codeSize : Nat
  entry : Nat
  param : List Byte
  const : List Byte
  coreImage : List Byte
  floor : Nat
  groups : Nat
  teamBytes : Nat
  rows : Nat
  cols : Nat
  sramBytes : Nat
  panels : Nat
  dieBytes : Nat
  minDies : Nat
  maxDies : Nat
  prio : Nat
  determ : Bool
  bounds : List (Nat × BitVec 64)
  shape : Option (BitVec 64)
deriving DecidableEq, Repr

/-- One entry of the launch table as the update command gives it (R354). -/
structure TableEntryCfg where
  first : Nat
  period : Nat
  template : Nat
  overrun : Nat
  enable : Bool
deriving DecidableEq, Repr

/-- The teams a debug command names (R366). -/
structure DebugTarget where
  grid : Nat
  panel : Nat
  team : Nat
  whole : Bool
deriving DecidableEq, Repr

/-- The items a readback names (R364). -/
inductive ReadItem where
  | memory (addr len : Nat)
  | register (group sel slice lane : Nat)
  | boundWord (cluster j : Nat)
  | phase (team : Nat)
  | panelPhase (panel : Nat)
  | vsLimit (core : Nat)
  | tokens (core : Nat)
  | vector (die k : Nat)
  | drops
  | queueLength (core : Nat)
  | window (team w : Nat)
  | fixups (core : Nat)
  | overruns (part entry : Nat)
  | rowErrors (row : Nat)
  | trace (base idx : Nat)
  | cell (group slice name : Nat)
  | uniform (group reg : Nat)
  | reservations (core : Nat)
  | teamState (team : Nat)
  | panelState (panel : Nat)
  | dieQueue (die : Nat)
  | tableEntry (part entry : Nat)
  | remaps
  | portDrops (port : Nat)
  | slice (group slice : Nat)
  | groupState (group : Nat)
  | threads (core : Nat)
  | engineSlot (core slot : Nat)
  | accumulator (core : Nat)
  | element (core row col : Nat)
  | template (part t : Nat)
  | traceDrops (base : Nat)
  | translations (die : Nat)
  | pendingFaults (die : Nat)
  | inbox (die : Nat)
  | matrixQueue (core : Nat)
  | latch (group : Nat)
  | config (part : Nat)
  | grid (part number : Nat)
  | bounds (cluster : Nat)
  | flights (core : Nat)
  | diodes
  | timeBase
  | rates
  | rowWindows
  | flash
  | requests (die : Nat)
  | responses (die : Nat)
  | walks (die : Nat)
  | dieState (die : Nat)
  | gathers (core : Nat)
  | coreState (core : Nat)
  | clusterState (cluster : Nat)
  | boundQueue (cluster : Nat)
  | peerTraffic (part : Nat)
  | commands (part : Nat)
  | context (group : Nat)
  | teamKept (team addr len : Nat)
  | panelKept (panel addr len : Nat)
  | panelThreads (panel : Nat)
  | session (n : Nat)
  | records
  | boot
deriving DecidableEq, Repr

/-- The diodes of R304: one per cluster, four per HBM base die. -/
inductive Diode where
  | cluster (c : Nat)
  | region (stack r : Nat)
deriving DecidableEq, Repr

/-- What a power manager setting changes (R297, R335). -/
inductive PowerSetting where
  | injection (cluster rate : Nat)
  | window (stack ns : Nat)
deriving DecidableEq, Repr

/-- A segment that is written back, and whether it meets an uncorrectable error (R179). -/
structure SegmentWrite where
  index : Nat
  bad : Bool
deriving DecidableEq, Repr

/-- What a synchronisation message says: the domain of its grandmaster and the grandmaster's time in ns (R347). -/
structure Grandmaster where
  domain : Nat
  time : Nat
deriving DecidableEq, Repr

/-- What an inbound peer access does (R358). -/
inductive PeerAccess where
  | read (len : Nat)
  | write (data : List Byte)
  | update (op : AtomOp) (t : Ty) (operand new : BitVec 64)
deriving DecidableEq, Repr

/-- The instructions and events of spec/opcode_table.json. -/
inductive Instr where
  -- integer and address (R91 to R95)
  | add (p : Pred) (d : Dst) (a : Src) (b : OpB) (t : Ty) (sat : Bool)
  | sub (p : Pred) (d : Dst) (a : Src) (b : OpB) (t : Ty) (sat : Bool)
  | mul (p : Pred) (d : Dst) (a : Src) (b : OpB) (t : Ty)
  | mulhi (p : Pred) (d : Dst) (a : Src) (b : OpB) (t : Ty)
  | mad (p : Pred) (d : Dst) (a : Src) (b : OpB) (c : Src) (t : Ty)
  | madhi (p : Pred) (d : Dst) (a : Src) (b : OpB) (c : Src) (t : Ty)
  | div (p : Pred) (d : Dst) (a : Src) (b : OpB) (t : Ty)
  | rem (p : Pred) (d : Dst) (a : Src) (b : OpB) (t : Ty)
  | neg (p : Pred) (d : Dst) (a : Src) (t : Ty)
  | abs (p : Pred) (d : Dst) (a : Src) (t : Ty)
  | min (p : Pred) (d : Dst) (a : Src) (b : OpB) (t : Ty)
  | max (p : Pred) (d : Dst) (a : Src) (b : OpB) (t : Ty)
  | shl (p : Pred) (d : Dst) (a : Src) (b : OpB) (t : Ty)
  | shr (p : Pred) (d : Dst) (a : Src) (b : OpB) (t : Ty)
  | sar (p : Pred) (d : Dst) (a : Src) (b : OpB) (t : Ty)
  | rot (p : Pred) (d : Dst) (a : Src) (b : OpB) (t : Ty)
  | and (p : Pred) (d : Dst) (a : Src) (b : OpB) (t : Ty)
  | or (p : Pred) (d : Dst) (a : Src) (b : OpB) (t : Ty)
  | xor (p : Pred) (d : Dst) (a : Src) (b : OpB) (t : Ty)
  | andn (p : Pred) (d : Dst) (a : Src) (b : OpB) (t : Ty)
  | not (p : Pred) (d : Dst) (a : Src) (t : Ty)
  | bfe (p : Pred) (d : Dst) (a : Src) (b : OpB) (t : Ty)
  | bfi (p : Pred) (d : Dst) (a : Src) (b : OpB) (c : Src) (t : Ty)
  | pop (p : Pred) (d : Dst) (a : Src) (t : Ty)
  | clz (p : Pred) (d : Dst) (a : Src) (t : Ty)
  | ctz (p : Pred) (d : Dst) (a : Src) (t : Ty)
  | brev (p : Pred) (d : Dst) (a : Src) (t : Ty)
  | lea (p : Pred) (d : Dst) (a : Src) (b : OpB) (t : Ty) (scale : BitVec 3)
  | mov (p : Pred) (d : Dst) (a : OpB) (t : Ty)
  | movi (p : Pred) (d : Dst) (t : Ty) (imm : BitVec 32)
  | sel (p : Pred) (d : Dst) (a : Src) (b : OpB) (c : Src) (t : Ty)
  | cmp (p : Pred) (qd : BitVec 4) (a : Src) (b : OpB) (t : Ty) (cond : Cond)
  -- floating point (R96 to R100)
  | fadd (p : Pred) (d : Dst) (a : Src) (b : OpB) (t : Ty)
  | fsub (p : Pred) (d : Dst) (a : Src) (b : OpB) (t : Ty)
  | fmul (p : Pred) (d : Dst) (a : Src) (b : OpB) (t : Ty)
  | fma (p : Pred) (d : Dst) (a : Src) (b : OpB) (c : Src) (t : Ty)
  | fmin (p : Pred) (d : Dst) (a : Src) (b : OpB) (t : Ty)
  | fmax (p : Pred) (d : Dst) (a : Src) (b : OpB) (t : Ty)
  | fabs (p : Pred) (d : Dst) (a : Src) (t : Ty)
  | fneg (p : Pred) (d : Dst) (a : Src) (t : Ty)
  | fcmp (p : Pred) (qd : BitVec 4) (a : Src) (b : OpB) (t : Ty) (cond : FCond)
  | fclass (p : Pred) (d : Dst) (a : Src) (t : Ty)
  | hadd2 (p : Pred) (d : Dst) (a : Src) (b : OpB) (t : Ty)
  | hmul2 (p : Pred) (d : Dst) (a : Src) (b : OpB) (t : Ty)
  | hfma2 (p : Pred) (d : Dst) (a : Src) (b : OpB) (c : Src) (t : Ty)
  -- transcendentals (R101)
  | frcp (p : Pred) (d : Dst) (a : Src) (t : Ty)
  | frsq (p : Pred) (d : Dst) (a : Src) (t : Ty)
  | fsqrt (p : Pred) (d : Dst) (a : Src) (t : Ty)
  | fexp2 (p : Pred) (d : Dst) (a : Src) (t : Ty)
  | flog2 (p : Pred) (d : Dst) (a : Src) (t : Ty)
  | fsinpi (p : Pred) (d : Dst) (a : Src) (t : Ty)
  | fcospi (p : Pred) (d : Dst) (a : Src) (t : Ty)
  | ftanh (p : Pred) (d : Dst) (a : Src) (t : Ty)
  -- conversion and packing (R104 to R109)
  | cvt (p : Pred) (d : Dst) (a : Src) (dt st : Ty) (rint : Bool)
  | pack (p : Pred) (d : Dst) (a b c : Src) (t st : Ty) (k : BitVec 2)
  | unpack (p : Pred) (d : Dst) (a : Src) (t : Ty) (k : BitVec 3)
  | mxq (p : Pred) (d : Dst) (a : Src) (t st : Ty)
  | mxdq (p : Pred) (d : Dst) (a : Src) (t : Ty)
  | sp24 (p : Pred) (d : Dst) (a : Src) (t : Ty)
  -- cross-lane (R125)
  | voteAny (p : Pred) (qd qs : BitVec 4) (m : BitVec 6)
  | voteAll (p : Pred) (qd qs : BitVec 4) (m : BitVec 6)
  | voteBal (p : Pred) (d : Dst) (qs : BitVec 4) (m : BitVec 6)
  | shflIdx (p : Pred) (d : Dst) (a : Src) (b : OpB) (t : Ty) (m : BitVec 6)
  | shflUp (p : Pred) (d : Dst) (a : Src) (b : OpB) (t : Ty) (m : BitVec 6)
  | shflDn (p : Pred) (d : Dst) (a : Src) (b : OpB) (t : Ty) (m : BitVec 6)
  | shflXor (p : Pred) (d : Dst) (a : Src) (b : OpB) (t : Ty) (m : BitVec 6)
  | red (p : Pred) (d : Dst) (a : Src) (op : RedOp) (t : Ty) (m : BitVec 6)
  | scan (p : Pred) (d : Dst) (a : Src) (op : RedOp) (excl : Bool) (t : Ty) (m : BitVec 6)
  | topk (p : Pred) (d : Dst) (a b : Src) (k : BitVec 5) (t : Ty) (m : BitVec 6)
  | matchLanes (p : Pred) (d : Dst) (a : Src) (t : Ty) (m : BitVec 6)
  -- control and patterns (R111)
  | br (p : Pred) (u : Bool) (join : BitVec 20) (disp : BitVec 32)
  | call (p : Pred) (u : Bool) (d : Dst) (disp : BitVec 32)
  | calli (p : Pred) (u : Bool) (d : Dst) (a : Src)
  | ret (u : Bool) (a : Src)
  | jmpi (p : Pred) (u : Bool) (n : BitVec 12) (a : Src) (join : BitVec 20) (disp : BitVec 32)
  | regang (tag : BitVec 8)
  | exit (p : Pred)
  | nop (p : Pred)
  | drop (p : Pred) (a : Src) (n : BitVec 3)
  | free (p : Pred) (a : BitVec 9)
  | patld (pat : BitVec 26)
  | weave (p : Pred) (d : Dst) (a b c : Src) (n : BitVec 2) (pat : BitVec 26)
  | lanePair (x y : Half)
  -- lane memory (R156, R190, R192)
  | ld (p : Pred) (d : Dst) (m : Mem) (n : BitVec 2) (t : Ty)
  | st (p : Pred) (m : Mem) (b : Src) (n : BitVec 2) (t : Ty)
  | atom (p : Pred) (d : Dst) (m : Mem) (b c : Src) (op : AtomOp) (ord : Order) (t : Ty)
  | fence (scope : Scope)
  -- engines (R166)
  | tmove (p : Pred) (m : Mem)
  | tgath (p : Pred) (m : Mem)
  | tscat (p : Pred) (m : Mem)
  | gatom (p : Pred) (m : Mem) (res : Option (Dst × Bool))
  | wopen (p : Pred) (m : Mem) (w : BitVec 4) (fill ro : Bool)
  | wflush (p : Pred) (m : Mem) (w : BitVec 4)
  | wclose (p : Pred) (m : Mem) (w : BitVec 4)
  -- synchronisation (R184, R254)
  | bobj (p : Pred) (m : Mem) (b : Src) (wide ext : Bool)
  | arrive (p : Pred) (m : Mem) (one : Bool) (n : BitVec 4)
  | wait (p : Pred) (m : Mem) (d : Option Dst)
  | yieldon (p : Pred) (m : Mem) (cont : BitVec 20)
  | bar
  | pbar
  -- matrix (R209 to R215)
  | mzero (p : Pred) (ea : EaSrc)
  | mzeroRel (p : Pred)
  | mpair (p : Pred) (reuse : Bool) (a s : Src) (base : BitVec 6) (off : BitVec 12)
  | mdrainNames (p : Pred) (d : Dst) (m : Mem)
  | mdrainMemory (p : Pred) (m : Mem)
  | mstadd (p : Pred) (m : Mem)
  -- spawn, edges, cluster (R267, R269, R285, R258)
  | spawn (p : Pred) (qd : BitVec 4) (a : Src) (entry : BitVec 20) (base : BitVec 6) (n k : BitVec 3)
      (lane nj : Bool) (off : BitVec 16)
  | jinit (p : Pred) (m : Mem) (lane : Bool)
  | jwait (p : Pred) (m : Mem) (lane : Bool) (d : Option Dst)
  | edgeseed (p : Pred) (m : Mem)
  | edgechk (p : Pred) (m : Mem)
  | edgewait (p : Pred) (m : Mem)
  | edgeflip (p : Pred) (m : Mem)
  | edgepass (p : Pred) (m : Mem)
  | bcastMin (p : Pred) (a : Src) (sgn : Bool) (j : BitVec 3)
  | bcastMax (p : Pred) (a : Src) (sgn : Bool) (j : BitVec 3)
  -- system (R231, R237, R239)
  | trap (p : Pred) (n : BitVec 16)
  | rte
  | vsdump (m : Bool)
  | vsload (m : Bool)
  | stepmark
  | halt
  | sleep (p : Pred) (mask : BitVec 8)
  | extwait (p : Pred) (m : Mem) (d : Option Dst)
  -- uniform (R81, R123, R142, R143, R158, R232, R234, R241)
  | gaddReg (d a b : BitVec 6)
  | gaddImm (d a : BitVec 6) (i : BitVec 10)
  | gaddU2 (d a : BitVec 6) (b : UOp)
  | gsubReg (d a b : BitVec 6)
  | gsubImm (d a : BitVec 6) (i : BitVec 10)
  | gsubU2 (d a : BitVec 6) (b : UOp)
  | gmulReg (d a b : BitVec 6)
  | gmulImm (d a : BitVec 6) (i : BitVec 10)
  | gmulU2 (d a : BitVec 6) (b : UOp)
  | gshlReg (d a b : BitVec 6)
  | gshlImm (d a : BitVec 6) (i : BitVec 10)
  | gshlU2 (d a : BitVec 6) (b : UOp)
  | gshrReg (d a b : BitVec 6)
  | gshrImm (d a : BitVec 6) (i : BitVec 10)
  | gshrU2 (d a : BitVec 6) (b : UOp)
  | gandReg (d a b : BitVec 6)
  | gandImm (d a : BitVec 6) (i : BitVec 10)
  | gandU2 (d a : BitVec 6) (b : UOp)
  | gorReg (d a b : BitVec 6)
  | gorImm (d a : BitVec 6) (i : BitVec 10)
  | gorU2 (d a : BitVec 6) (b : UOp)
  | gxorReg (d a b : BitVec 6)
  | gxorImm (d a : BitVec 6) (i : BitVec 10)
  | gxorU2 (d a : BitVec 6) (b : UOp)
  | gcmp (d a : BitVec 6) (b : UOp) (cond : UCond)
  | gmov (d a : BitVec 6)
  | gli (d : BitVec 6) (i : BitVec 10)
  | gliU2 (d : BitVec 6) (i : BitVec 32)
  | gliHi (d : BitVec 6) (i : BitVec 32)
  | gbr (a : BitVec 6) (cond : GCond) (disp : BitVec 32)
  | gld (d base : BitVec 6) (sx : Bool) (space size : BitVec 2) (win : BitVec 4) (off : BitVec 28)
  | gst (base b : BitVec 6) (space size : BitVec 2) (win : BitVec 4) (off : BitVec 28)
  | setfmt (a : BitVec 6)
  | setfmtImm (i : BitVec 32)
  | setfmtM (a : BitVec 6) (mask : BitVec 32)
  | setprio (a : BitVec 6) (i : BitVec 10)
  | setprioW (a : BitVec 6) (i : BitVec 32)
  | sread (d : BitVec 6) (sel : BitVec 10)
  | sreadU2 (d : BitVec 6) (sel : BitVec 10)
  | sreadLane (d : Dst) (sel : BitVec 10)
  | swrite (a : BitVec 6) (sel : BitVec 10)
  | capq (d : BitVec 6) (n : BitVec 10)
  | capqReg (d a : BitVec 6)
  | capqW (d : BitVec 6) (n : BitVec 32)
  -- events: what the part does on its own, or the outside world makes it do
  | trapEntry (group cause sub slice : Nat) (arg : BitVec 64)
  | quantumExpiry (panel : Nat)
  | teamSaveLeave (team : Nat)
  | distributorAdmit (die : Nat)
  | gridStart (grid : Nat)
  | teamRetire (team : Nat)
  | spillWriteComplete (group slice name : Nat)
  | cellRefill (group slice name : Nat)
  | floorRaiseGrant (group slice : Nat)
  | reReservation (core : Nat)
  | memoryAccessPerform (flight : Nat)
  | loadDataArrival (flight : Nat)
  | windowFillComplete (team win seg : Nat) (bad : Bool)
  | windowWriteback (team win : Nat) (seg : SegmentWrite)
  | windowCloseComplete (team win : Nat)
  | engineOpStart (core slot : Nat)
  | engineUnitTransfer (core slot idx : Nat) (bad : Bool)
  | mpairStep (core : Nat)
  | drainPerform (core : Nat) (bad : List Nat)
  | addOnStorePerform (core : Nat) (bad : List Nat)
  | ownershipEnd (core : Nat)
  | translationWalkComplete (die page : Nat)
  | faultTimeout (die page : Nat)
  | crossDieAccept (die origin : Nat)
  | crossDieReadServe (die idx : Nat)
  | crossDieReadDeliver (die idx : Nat)
  | spawnOverflowReturn (core : Nat)
  | gatherTimeout (core cls : Nat)
  | groupFormation (core cls : Nat)
  | threadSteal (core : Nat)
  | payloadArrival (group : Nat)
  | teamPark (core cls : Nat)
  | parkedTeamReturn (team : Nat)
  | boundUnitUpdate (cluster : Nat)
  | boundMirrorUpdate (core : Nat)
  | deadlockWatchdog (grid : Nat)
  | tokenCycle (cluster : Nat) (now : BitVec 64)
  | thermalPoll (d : Diode) (reading : Int)
  | gateRequest (cluster : Nat)
  | gtimeResync (cluster : Nat)
  | ptpSyncMessage (master : Grandmaster)
  | holdover
  | correctedError (row : Nat)
  | powerGoodAssert (stages : List (List Byte)) (backup : List (List Byte))
  | powerGoodRemove
  | sessionOpen (h : CmdHdr) (chain : List Byte)
  | sessionClose (h : CmdHdr)
  | partitionConfigure (h : CmdHdr) (cfg : PartitionCfg)
  | launch (h : CmdHdr) (cmd : LaunchBody)
  | signalArrive (h : CmdHdr) (grid die addr n : Nat)
  | signalPreempt (h : CmdHdr) (grid : Nat)
  | signalDieTarget (h : CmdHdr) (grid target : Nat)
  | endLaunch (h : CmdHdr) (grid : Nat)
  | pageMigrateToDevice (h : CmdHdr) (page size : Nat) (bytes : List Byte)
  | pageMigrateToHost (h : CmdHdr) (page size : Nat)
  | tableUpdate (h : CmdHdr) (entries : List (Nat × BitVec 64)) (pages : List Nat)
  | faultAnswerResolve (h : CmdHdr) (die page : Nat)
  | faultAnswerReject (h : CmdHdr) (die page : Nat)
  | readback (h : CmdHdr) (items : List ReadItem)
  | launchTableUpdate (h : CmdHdr) (templates : List (Nat × LaunchBody)) (entries : List (Nat × TableEntryCfg))
  | launchTableSlot (part entry : Nat)
  | debugStop (h : CmdHdr) (t : DebugTarget)
  | debugStep (h : CmdHdr) (t : DebugTarget)
  | debugResume (h : CmdHdr) (t : DebugTarget)
  | debugTrace (h : CmdHdr) (t : DebugTarget) (base len mask : Nat)
  | debugTimeLoss (h : CmdHdr) (t : DebugTarget) (base len n : Nat)
  | attestationQuote (nonce : List Byte)
  | peerInboundAccess (part peer addr : Nat) (acc : PeerAccess)
  | peerAcknowledge (idx : Nat) (data : List Byte) (refused : Bool)
  | peerNoAcknowledgeTimeout (idx : Nat)
  | powerManagerSetting (p : PowerSetting)
  | spareRowCopyComplete (row : Nat)
  | unreliablePacketReceived (port : Nat)
deriving DecidableEq, Repr

end Sys2Proof
end

