-- ==== Sys2Proof/WellFormed.lean ====
section
/-! DEFINITION. Which instructions have an encoding the device accepts: check 5 of R87 (types, operand shapes, the entries'
own rules), with the assignment and pairing checks of a lane pair (R77). Events are not encoded and are well formed. -/

namespace Sys2Proof

/-- The 64-bit types occupy a name pair (R38, R53). -/
def Ty.wide : Ty → Bool
  | .b64 | .s64 | .n64 => true
  | _ => false

/-- The width of a lane operand of the type (R90). -/
def Ty.width (t : Ty) : Nat := if t.wide then 64 else 32

/-- The signed integer types of lane words and pairs. -/
def Ty.signed : Ty → Bool
  | .s32 | .s64 | .s16 | .s8 | .i4 => true
  | _ => false

/-- An even name: the low name of a pair (R38). -/
def evenName (n : BitVec 9) : Bool := n.getLsbD 0 == false

/-- A name in a position of type `t`: even when the type is 64 bits wide (R70). -/
def nameOk (t : Ty) (n : BitVec 9) : Bool := !t.wide || evenName n

/-- The second operand of the integer shape (R89): any selector; a name of the type's width must suit it. -/
def OpB.okInt (t : Ty) : OpB → Bool
  | .name s => nameOk t s.name
  | _ => true

/-- The second operand of the floating shape (R89): a name or a uniform register. -/
def OpB.okFloat : OpB → Bool
  | .imm _ => false
  | _ => true

/-- The types of the arithmetic rows of R91. -/
def Ty.arith : Ty → Bool
  | .s32 | .n32 | .s64 | .n64 => true
  | _ => false

/-- The raw-bit types of R91. -/
def Ty.bits : Ty → Bool
  | .b32 | .b64 => true
  | _ => false

/-- The IEEE types of the lanes (R96). -/
def Ty.ieee : Ty → Bool
  | .f32 | .f16 | .bf16 => true
  | _ => false

/-- The packed half types (R96). -/
def Ty.half : Ty → Bool
  | .f16 | .bf16 => true
  | _ => false

/-- The types `cvt` converts between (R104). -/
def Ty.convertible : Ty → Bool
  | .b32 | .b64 | .x8 | .t96 => false
  | _ => true

/-- The types an `mxq` or `mxdq` element may have (R107). -/
def Ty.mxElement : Ty → Bool
  | .e4m3 | .e5m2 | .m6a | .m6b | .m4 => true
  | _ => false

/-- The types of `ld` and `st` (R156). -/
def Ty.loadable : Ty → Bool
  | .s8 | .n8 | .s16 | .n16 | .f16 | .bf16 | .b32 | .s32 | .n32 | .f32 | .b64 | .s64 | .n64 => true
  | _ => false

/-- The size in memory of a loadable type (R157). -/
def Ty.bytes : Ty → Nat
  | .s8 | .n8 | .e4m3 | .e5m2 | .x8 => 1
  | .s16 | .n16 | .f16 | .bf16 => 2
  | .b64 | .s64 | .n64 => 8
  | .t96 => 16
  | _ => 4

/-- The types allowed for an atomic operation (R175, R190). -/
def AtomOp.allows (op : AtomOp) (t : Ty) : Bool :=
  match op with
  | .add | .min | .max => match t with
    | .s32 | .n32 | .s64 | .n64 | .f32 => true
    | _ => false
  | .and | .or | .xor | .xchg | .cas => t.bits
  | .binc | .bdec => match t with
    | .n32 | .n64 => true
    | _ => false

/-- The types allowed for an operator of `red` and `scan` (R125). -/
def RedOp.allows (op : RedOp) (t : Ty) : Bool :=
  match op with
  | .add | .min | .max => t.arith || t.ieee
  | .and | .or | .xor => t.bits

/-- `pack`: the valid source types and the number of places for a target type (R105). -/
def packOk (t st : Ty) (k : BitVec 2) : Bool :=
  match t with
  | .f16 | .bf16 => st == .f32 && k.toNat == 0
  | .e4m3 | .e5m2 => st == .f32 && decide (k.toNat ≤ 1)
  | .m4 => st == .f32
  | .s16 | .n16 => (st == .s32 || st == .n32) && k.toNat == 0
  | .s8 | .n8 => (st == .s32 || st == .n32) && decide (k.toNat ≤ 1)
  | .i4 => st == .s32 || st == .n32
  | _ => false

/-- How many elements of a packed type a lane word holds for `unpack` (R106); 0 for a type that is not packed. -/
def unpackCount : Ty → Nat
  | .f16 | .bf16 | .s16 | .n16 => 2
  | .s8 | .n8 | .e4m3 | .e5m2 => 4
  | .m4 | .i4 => 8
  | .m6a | .m6b => 1
  | _ => 0

/-- The memory shape (R73): a window number only in `win` space. -/
def Mem.ok (m : Mem) : Bool := m.space == .win || m.win.toNat == 0

/-- A shape in `core`, `clu` or `die` space (R166, R184). -/
def Mem.scratch (m : Mem) : Bool :=
  m.ok && (match m.space with | .core | .clu | .die => true | _ => false)

/-- A shape of a lane access: any scratchpad space or a window (R156, R190). -/
def Mem.lane (m : Mem) : Bool :=
  m.ok && (match m.space with | .gl => false | _ => true)

/-- A shape in `clu` space (R269, R285). -/
def Mem.cluster (m : Mem) : Bool := m.ok && m.space == .clu

/-- Sources unused by an instruction hold name 0 with trap bit 0 (R70). -/
def Src.unused (s : Src) : Bool := s.name.toNat == 0 && !s.trap

/-- The names `ld` and `st` touch stay below 512, and several elements need a 32- or 64-bit type (R156). -/
def accessOk (first : BitVec 9) (n : BitVec 2) (t : Ty) : Bool :=
  t.loadable && decide (n.toNat ≤ 2) && (n.toNat == 0 || decide (4 ≤ t.bytes)) && nameOk t first &&
    decide (first.toNat + (if t.wide then 2 else 1) * 2 ^ n.toNat ≤ 512)

/-- The operation of a pair opcode (R79): the mnemonic's place, its type, and how many sources it reads. -/
def pairArity (op : BitVec 7) : Option Nat :=
  match op.toNat with
  | 0x00 | 0x01 | 0x02 | 0x04 | 0x05 | 0x06 | 0x08 | 0x09 | 0x0A => some 2
  | 0x0C | 0x0D | 0x10 | 0x11 => some 2
  | 0x03 | 0x07 | 0x0B | 0x0E | 0x12 | 0x14 | 0x15 => some 3
  | 0x40 | 0x41 | 0x42 | 0x43 | 0x44 | 0x45 | 0x46 | 0x47 | 0x48 | 0x49 | 0x4A | 0x4B => some 2
  | 0x4C => some 1
  | 0x4D | 0x4E | 0x4F | 0x50 => some 2
  | 0x51 => some 3
  | 0x52 | 0x53 | 0x54 => some 1
  | _ => none

/-- The names a half reads (R76, R79). -/
def Half.reads (h : Half) : List (BitVec 9) :=
  match pairArity h.op with
  | some 1 => [h.a]
  | some 2 => [h.a, h.b]
  | some _ => [h.a, h.b, h.c]
  | none => []

/-- A half holds zero in the source fields its operation does not read (R77). -/
def Half.unusedZero (h : Half) : Bool :=
  match pairArity h.op with
  | some 1 => h.b.toNat == 0 && h.c.toNat == 0
  | some 2 => h.c.toNat == 0
  | _ => true

/-- Both halves have an assigned opcode (R77, step 1). -/
def pairAssigned (x y : Half) : Bool := (pairArity x.op).isSome && (pairArity y.op).isSome

/-- The pairing restrictions of R77, step 2. -/
def pairAllowed (x y : Half) : Bool :=
  let rx := x.reads
  let ry := y.reads
  let all := (rx ++ ry).eraseDups
  decide (x.op.toNat < 0x40) && decide (0x40 ≤ y.op.toNat) &&
    x.dst.toNat % 4 != y.dst.toNat % 4 &&
    (List.range 4).all (fun k => decide ((all.filter (fun n => n.toNat % 4 == k)).length ≤ 2)) &&
    decide (all.length ≤ 5) &&
    decide ((all.filter (fun n => rx.contains n && ry.contains n)).length ≤ 1) &&
    x.unusedZero && y.unusedZero

/-- The selectors of R233. -/
def selectorAssigned (sel : BitVec 10) : Bool :=
  decide (sel.toNat ≤ 0x1B) || (decide (0x40 ≤ sel.toNat) && decide (sel.toNat ≤ 0x4D))

/-- The privileged selectors of R233. -/
def selectorPrivileged (sel : BitVec 10) : Bool := decide (0x40 ≤ sel.toNat) && decide (sel.toNat ≤ 0x4D)

/-- The selectors of 64-bit registers (R44, R233). -/
def selectorWide (sel : BitVec 10) : Bool :=
  let n := sel.toNat
  n == 0x0E || n == 0x0F || n == 0x10 || (decide (0x13 ≤ n) && decide (n ≤ 0x1B)) || n == 0x41 ||
    (decide (0x42 ≤ n) && decide (n ≤ 0x49)) || n == 0x4B

/-- The registers R44 marks RW. -/
def selectorRW (sel : BitVec 10) : Bool := sel.toNat == 0x0B || sel.toNat == 0x0C

/-- The selectors `swrite` accepts in privileged state (R234). -/
def selectorWritable (sel : BitVec 10) : Bool :=
  selectorRW sel || (decide (0x42 ≤ sel.toNat) && decide (sel.toNat ≤ 0x4A)) || sel.toNat == 0x4C

/-- A displacement whose bits 1:0 are zero (R74). -/
def aligned4 (d : BitVec 32) : Bool := d.toNat % 4 == 0

/-- A uniform memory access (R158): a window number only in `win` space. -/
def uniformMemOk (space : BitVec 2) (win : BitVec 4) : Bool := space.toNat == 3 || win.toNat == 0

/-- The entries' own encoding rules, for each instruction. -/
def wellFormed : Instr → Bool
  | .add _ d a b t _ | .sub _ d a b t _ => t.arith && nameOk t d.name && nameOk t a.name && b.okInt t
  | .mul _ d a b t | .mulhi _ d a b t | .div _ d a b t | .rem _ d a b t | .min _ d a b t | .max _ d a b t =>
    t.arith && nameOk t d.name && nameOk t a.name && b.okInt t
  | .mad _ d a b c t | .madhi _ d a b c t =>
    t.arith && nameOk t d.name && nameOk t a.name && b.okInt t && nameOk t c.name
  | .neg _ d a t | .abs _ d a t => (t == .s32 || t == .s64) && nameOk t d.name && nameOk t a.name
  | .shl _ d a _ t | .shr _ d a _ t | .sar _ d a _ t | .rot _ d a _ t => t.bits && nameOk t d.name && nameOk t a.name
  | .and _ d a b t | .or _ d a b t | .xor _ d a b t | .andn _ d a b t =>
    t.bits && nameOk t d.name && nameOk t a.name && b.okInt t
  | .not _ d a t | .brev _ d a t => t.bits && nameOk t d.name && nameOk t a.name
  | .bfe _ d a _ t => t.arith && nameOk t d.name && nameOk t a.name
  | .bfi _ d a _ c t => t.bits && nameOk t d.name && nameOk t a.name && nameOk t c.name
  | .pop _ _ a t | .clz _ _ a t | .ctz _ _ a t => t.bits && nameOk t a.name
  | .lea _ d a b t _ => (t == .n32 || t == .n64) && nameOk t d.name && nameOk t a.name && b.okInt t
  | .mov _ d a t => t.bits && nameOk t d.name && a.okInt t && a.okFloat
  | .movi _ d t _ => (t.bits || t.arith || t == .f32) && nameOk t d.name
  | .sel _ d a b _ t => t.bits && nameOk t d.name && nameOk t a.name && b.okInt t
  | .cmp _ _ a b t cond =>
    (t.arith || (t.bits && (cond == .eq || cond == .ne))) && nameOk t a.name && b.okInt t
  | .fadd _ _ _ b t | .fsub _ _ _ b t | .fmul _ _ _ b t | .fma _ _ _ b _ t | .fmin _ _ _ b t | .fmax _ _ _ b t
  | .fcmp _ _ _ b t _ => t.ieee && b.okFloat
  | .fabs _ _ _ t | .fneg _ _ _ t | .fclass _ _ _ t => t.ieee
  | .hadd2 _ _ _ b t | .hmul2 _ _ _ b t | .hfma2 _ _ _ b _ t => t.half && b.okFloat
  | .frcp _ _ _ t | .frsq _ _ _ t | .fsqrt _ _ _ t | .fexp2 _ _ _ t | .flog2 _ _ _ t | .fsinpi _ _ _ t
  | .fcospi _ _ _ t | .ftanh _ _ _ t => t.ieee
  | .cvt _ d a dt st rint =>
    dt.convertible && st.convertible && nameOk dt d.name && nameOk st a.name &&
      (if rint then dt == st && dt.ieee else dt != st)
  | .pack _ _ _ _ c t st k =>
    packOk t st k && (match t with | .f16 | .bf16 | .s16 | .n16 => c.unused | _ => true)
  | .unpack _ _ _ t k => decide (k.toNat < unpackCount t)
  | .mxq _ _ _ t st => t.mxElement && st.ieee
  | .mxdq _ _ _ t => t.mxElement
  | .sp24 _ _ _ t => match t with | .e4m3 | .e5m2 | .s8 | .n8 | .m4 | .i4 => true | _ => false
  | .voteAny _ _ _ _ | .voteAll _ _ _ _ => true
  | .voteBal _ d _ _ => evenName d.name
  | .shflIdx _ d a _ t _ | .shflUp _ d a _ t _ | .shflDn _ d a _ t _ | .shflXor _ d a _ t _ =>
    t.bits && nameOk t d.name && nameOk t a.name
  | .red _ d a op t _ | .scan _ d a op _ t _ => op.allows t && nameOk t d.name && nameOk t a.name
  | .topk _ d _ _ _ t _ => (t == .s32 || t == .n32 || t.ieee) && evenName d.name
  | .matchLanes _ _ a t _ => t.bits && nameOk t a.name
  | .br _ u join disp => (!u || join.toNat == 0) && aligned4 disp
  | .call _ _ _ disp => aligned4 disp
  | .calli _ _ _ _ | .ret _ _ | .jmpi _ _ _ _ _ _ | .regang _ | .exit _ | .nop _ | .free _ _ | .patld _ => true
  | .drop _ _ n => n.toNat != 0
  | .weave _ _ _ b c n _ =>
    n.toNat != 0 && (decide (2 ≤ n.toNat) || b.unused) && (decide (3 ≤ n.toNat) || c.unused)
  | .lanePair x y => pairAssigned x y && pairAllowed x y
  | .ld _ d m n t => m.lane && accessOk d.name n t
  | .st _ m b n t => m.lane && accessOk b.name n t
  | .atom _ d m b c op _ t =>
    m.lane && op.allows t && nameOk t d.name && nameOk t b.name &&
      (if op == .cas then nameOk t c.name else c.unused)
  | .fence _ => true
  | .tmove _ m | .tgath _ m | .tscat _ m => m.scratch
  | .gatom _ m res => m.scratch && (match res with | some (d, wide) => !wide || evenName d.name | none => true)
  | .wopen _ m _ _ _ | .wflush _ m _ | .wclose _ m _ => m.scratch && m.idx.isNone
  | .bobj _ m b wide _ => m.scratch && (!wide || evenName b.name)
  | .arrive _ m _ _ | .wait _ m _ | .extwait _ m _ | .yieldon _ m _ => m.scratch
  | .bar | .pbar => true
  | .mzero _ _ | .mzeroRel _ | .mpair _ _ _ _ _ _ => true
  | .mdrainNames _ _ m | .mdrainMemory _ m | .mstadd _ m => m.scratch && m.idx.isNone
  | .spawn _ _ a _ base n _ lane nj off =>
    decide (n.toNat ≤ 4) && (n.toNat != 0 || a.unused) && decide (a.name.toNat + n.toNat ≤ 512) &&
      off.toNat % 8 == 0 && (!nj || (base.toNat == 0 && !lane && off.toNat == 0))
  | .jinit _ m _ | .jwait _ m _ _ => m.cluster
  | .edgeseed _ m | .edgechk _ m | .edgewait _ m | .edgeflip _ m | .edgepass _ m => m.cluster
  | .bcastMin _ a _ _ | .bcastMax _ a _ _ => evenName a.name
  | .trap _ _ | .rte | .vsdump _ | .vsload _ | .stepmark | .halt | .sleep _ _ => true
  | .gaddReg _ _ _ | .gaddImm _ _ _ | .gaddU2 _ _ _ | .gsubReg _ _ _ | .gsubImm _ _ _ | .gsubU2 _ _ _ => true
  | .gmulReg _ _ _ | .gmulImm _ _ _ | .gmulU2 _ _ _ | .gshlReg _ _ _ | .gshlImm _ _ _ | .gshlU2 _ _ _ => true
  | .gshrReg _ _ _ | .gshrImm _ _ _ | .gshrU2 _ _ _ | .gandReg _ _ _ | .gandImm _ _ _ | .gandU2 _ _ _ => true
  | .gorReg _ _ _ | .gorImm _ _ _ | .gorU2 _ _ _ | .gxorReg _ _ _ | .gxorImm _ _ _ | .gxorU2 _ _ _ => true
  | .gcmp _ _ _ _ | .gmov _ _ | .gli _ _ | .gliU2 _ _ | .gliHi _ _ => true
  | .gbr a cond disp => aligned4 disp && (cond != .always || a.toNat == 0)
  | .gld _ _ sx space size win _ => uniformMemOk space win && !(sx && size.toNat == 3)
  | .gst _ _ space _ win _ => uniformMemOk space win
  | .setfmt _ | .setfmtImm _ | .setfmtM _ _ | .setprio _ _ | .setprioW _ _ => true
  | .sread _ sel | .sreadU2 _ sel => selectorAssigned sel
  | .sreadLane d sel => selectorAssigned sel && (!selectorWide sel || evenName d.name)
  | .swrite _ sel => selectorWritable sel
  | .capq _ _ | .capqReg _ _ | .capqW _ _ => true
  | _ => true

end Sys2Proof
end

