-- ==== Sys2Proof/Machine/Flags.lean ====
section
/-! DEFINITION. The number formats of chapter 03, exact values, the one rounding every floating result takes, and every flag
computation: which of the five flags of R42 a rounding, a conversion or a NaN raises (R59 to R63). -/

namespace Sys2Proof.Machine

/-! ### Flags and the format register -/

/-- A set of the flags of R42: bit 4 invalid, 3 divide-by-zero, 2 overflow, 1 underflow, 0 inexact. -/
abbrev FlagSet := BitVec 5

/-- invalid (R42). -/
def flagInvalid : FlagSet := 16
/-- divide-by-zero (R42). -/
def flagDivZero : FlagSet := 8
/-- overflow (R42). -/
def flagOverflow : FlagSet := 4
/-- underflow (R42). -/
def flagUnderflow : FlagSet := 2
/-- inexact (R42). -/
def flagInexact : FlagSet := 1

/-- A flag set as it stands in `%fflags`. -/
def FlagSet.word (f : FlagSet) : Word32 := f.setWidth 32

/-- `b` as the flag set `f` or the empty one. -/
def flagIf (b : Bool) (f : FlagSet) : FlagSet := if b then f else 0

/-- The rounding modes of R59. -/
inductive RMode where
  | rne | rtz | rup | rdn | rna
deriving DecidableEq, Repr

/-- The mode of a code of `%fmt.round` (R41); the reserved codes 5 to 7 are never held. -/
def RMode.ofCode (n : Nat) : RMode :=
  match n with
  | 1 => .rtz
  | 2 => .rup
  | 3 => .rdn
  | 4 => .rna
  | _ => .rne

/-- The arithmetic fields of `%fmt` (R41). -/
structure Arith where
  mode : RMode
  fin : Bool
  fout : Bool
  sat : Bool
  nan : Bool
deriving DecidableEq, Repr

/-- The arithmetic fields of a `%fmt` value. -/
def Arith.of (w : Word32) : Arith where
  mode := RMode.ofCode (w.extractLsb' 0 3).toNat
  fin := w.getLsbD 4
  fout := w.getLsbD 5
  sat := w.getLsbD 22
  nan := w.getLsbD 23

/-- `sat` as lane arithmetic sees it: ignored (R60). -/
def Arith.unsat (a : Arith) : Arith := { a with sat := false }

/-- A `%fmt` value with no reserved bit and no reserved code (R41). -/
def fmtLegal (w : Word32) : Bool :=
  (w.extractLsb' 24 8).toNat == 0 && (w.extractLsb' 3 1).toNat == 0 &&
    decide ((w.extractLsb' 0 3).toNat ≤ 4) && decide ((w.extractLsb' 6 4).toNat ≤ 8) &&
    decide ((w.extractLsb' 10 4).toNat ≤ 8) && decide ((w.extractLsb' 14 4).toNat ≤ 1) &&
    decide ((w.extractLsb' 18 4).toNat ≤ 6)

/-! ### Formats -/

/-- What the top exponent of a format holds: infinities and NaNs, one NaN code (`.e4m3`), or numbers only. -/
inductive FKind where
  | ieee | nanOnly | finite
deriving DecidableEq, Repr

/-- A binary floating format (R47, R49, R50). -/
structure FloatFmt where
  ebits : Nat
  fbits : Nat
  bias : Int
  kind : FKind
deriving DecidableEq, Repr

/-- The floating format of a type (R47, R49, R50); integer types have none. -/
def tyFmt : Ty → Option FloatFmt
  | .f32 => some ⟨8, 23, 127, .ieee⟩
  | .f16 => some ⟨5, 10, 15, .ieee⟩
  | .bf16 => some ⟨8, 7, 127, .ieee⟩
  | .e5m2 => some ⟨5, 2, 15, .ieee⟩
  | .e4m3 => some ⟨4, 3, 7, .nanOnly⟩
  | .m6a => some ⟨2, 3, 1, .finite⟩
  | .m6b => some ⟨3, 2, 3, .finite⟩
  | .m4 => some ⟨2, 1, 1, .finite⟩
  | _ => none

/-- The format of `.f32`. -/
def fmt32 : FloatFmt := ⟨8, 23, 127, .ieee⟩

/-- The format of a type the entry has checked to be floating; `.f32` for any other. -/
def tyFloat (t : Ty) : FloatFmt := (tyFmt t).getD fmt32

/-- Bits of a code of the format. -/
def FloatFmt.width (f : FloatFmt) : Nat := 1 + f.ebits + f.fbits

/-- The exponent of the smallest normal. -/
def FloatFmt.emin (f : FloatFmt) : Int := 1 - f.bias

/-- The exponent of the largest finite number. -/
def FloatFmt.emax (f : FloatFmt) : Int :=
  match f.kind with
  | .ieee => (2 ^ f.ebits : Nat) - 2 - f.bias
  | _ => (2 ^ f.ebits : Nat) - 1 - f.bias

/-- The significand of the largest finite number, as an integer of `fbits + 1` bits. -/
def FloatFmt.maxSig (f : FloatFmt) : Nat :=
  match f.kind with
  | .nanOnly => 2 ^ (f.fbits + 1) - 2
  | _ => 2 ^ (f.fbits + 1) - 1

/-- The sign as the top bit of a code. -/
def FloatFmt.signBit (f : FloatFmt) (neg : Bool) : Nat := if neg then 2 ^ (f.ebits + f.fbits) else 0

/-- The code of the largest finite number of the sign. -/
def FloatFmt.largest (f : FloatFmt) (neg : Bool) : Nat :=
  f.signBit neg + (f.emax + f.bias).toNat * 2 ^ f.fbits + (f.maxSig - 2 ^ f.fbits)

/-- The code of infinity of the sign (formats that have one). -/
def FloatFmt.infinity (f : FloatFmt) (neg : Bool) : Nat := f.signBit neg + (2 ^ f.ebits - 1) * 2 ^ f.fbits

/-- The canonical NaN (R48, R49); 0 for a format without NaN (R62). -/
def FloatFmt.canonicalNaN (f : FloatFmt) : Nat :=
  match f.kind with
  | .ieee => (2 ^ f.ebits - 1) * 2 ^ f.fbits + 2 ^ (f.fbits - 1)
  | .nanOnly => 2 ^ (f.ebits + f.fbits) - 1
  | .finite => 0

/-! ### Values -/

/-- What a code stands for (R47 to R50): a NaN with sign, fraction, fraction width and whether it is signalling; an infinity;
or the number `(-1)^neg × m × 2^e`. -/
inductive FVal where
  | nan (neg : Bool) (frac fb : Nat) (snan : Bool)
  | inf (neg : Bool)
  | num (neg : Bool) (m : Nat) (e : Int)
deriving DecidableEq, Repr

/-- The value of a code (R47, R49, R50). -/
def FloatFmt.decode (f : FloatFmt) (x : Nat) : FVal :=
  let neg := x / 2 ^ (f.ebits + f.fbits) % 2 == 1
  let e := x / 2 ^ f.fbits % 2 ^ f.ebits
  let fr := x % 2 ^ f.fbits
  if e = 0 then .num neg fr (f.emin - f.fbits)
  else if e + 1 = 2 ^ f.ebits then
    match f.kind with
    | .ieee => if fr = 0 then .inf neg else .nan neg fr f.fbits (decide (fr < 2 ^ (f.fbits - 1)))
    | .nanOnly =>
      if fr + 1 = 2 ^ f.fbits then .nan neg 0 f.fbits false
      else .num neg (2 ^ f.fbits + fr) (e - f.bias - f.fbits)
    | .finite => .num neg (2 ^ f.fbits + fr) (e - f.bias - f.fbits)
  else .num neg (2 ^ f.fbits + fr) (e - f.bias - f.fbits)

/-- A code with exponent field 0 and a fraction (R47). -/
def FloatFmt.isDenormal (f : FloatFmt) (x : Nat) : Bool :=
  x / 2 ^ f.fbits % 2 ^ f.ebits == 0 && x % 2 ^ f.fbits != 0

/-- The value of an operand, with fin applied (R61). -/
def FloatFmt.operand (f : FloatFmt) (a : Arith) (x : Nat) : FVal :=
  if a.fin && f.isDenormal x then .num (x / 2 ^ (f.ebits + f.fbits) % 2 == 1) 0 0 else f.decode x

/-- A NaN. -/
def FVal.isNaN : FVal → Bool
  | .nan .. => true
  | _ => false

/-- A signalling NaN (R48). -/
def FVal.isSNaN : FVal → Bool
  | .nan _ _ _ s => s
  | _ => false

/-- The sign. -/
def FVal.neg : FVal → Bool
  | .nan n _ _ _ => n
  | .inf n => n
  | .num n _ _ => n

/-- The value with its sign inverted. -/
def FVal.negate : FVal → FVal
  | .nan n f b s => .nan n f b s
  | .inf n => .inf (!n)
  | .num n m e => .num (!n) m e

/-- The NaN `v` as a code of the format under `%fmt.nan` (R62); a format without NaN gets code 0. -/
def FloatFmt.nanCode (f : FloatFmt) (keep : Bool) (v : FVal) : Nat :=
  match v, keep with
  | .nan neg fr fb _, true =>
    match f.kind with
    | .ieee =>
      let top := if f.fbits ≤ fb then fr / 2 ^ (fb - f.fbits) else fr * 2 ^ (f.fbits - fb)
      let q := 2 ^ (f.fbits - 1)
      f.signBit neg + (2 ^ f.ebits - 1) * 2 ^ f.fbits + (q + top % q)
    | .nanOnly => f.signBit neg + (2 ^ (f.ebits + f.fbits) - 1)
    | .finite => 0
  | _, _ => f.canonicalNaN

/-- The first NaN of a list of operands (R62). -/
def firstNaN : List FVal → Option FVal
  | [] => none
  | v :: vs => if v.isNaN then some v else firstNaN vs

/-! ### Rounding -/

/-- The integer next to the positive rational `n / d` that the mode chooses, and whether it differs (R59). -/
def roundQuotient (mode : RMode) (neg : Bool) (n d : Nat) : Nat × Bool :=
  let q := n / d
  let r := n % d
  let up := match mode with
    | .rne => decide (d < 2 * r) || (decide (2 * r = d) && q % 2 == 1)
    | .rna => decide (d ≤ 2 * r)
    | .rtz => false
    | .rup => !neg && r != 0
    | .rdn => neg && r != 0
  (if up then q + 1 else q, r != 0)

/-- The rational `n / d × 2^k` as numerator and denominator. -/
def scaleRat (n d : Nat) (k : Int) : Nat × Nat :=
  match k with
  | .ofNat k => (n * 2 ^ k, d)
  | .negSucc k => (n, d * 2 ^ (k + 1))

/-- The exponent E with 2^E ≤ n / d < 2^(E+1), for positive n and d. -/
def ratLog (n d : Nat) : Int :=
  let k : Int := (Nat.log2 n : Int) - Nat.log2 d
  let (a, b) := scaleRat n d (-k)
  if b ≤ a then k else k - 1

/-- The overflow result of R60. -/
def FloatFmt.overflow (f : FloatFmt) (a : Arith) (neg : Bool) : Nat :=
  let beyond := match f.kind with
    | .ieee => f.infinity neg
    | _ => f.signBit neg + (2 ^ (f.ebits + f.fbits) - 1)
  if f.kind = .finite || a.sat then f.largest neg
  else match a.mode with
    | .rne | .rna => beyond
    | .rtz => f.largest neg
    | .rup => if neg then f.largest neg else beyond
    | .rdn => if neg then beyond else f.largest neg

/-- The code of the exact value `(-1)^neg × n / d × 2^e` and the flags raised (R59 to R61); a zero keeps its sign. -/
def FloatFmt.round (f : FloatFmt) (a : Arith) (neg : Bool) (n d : Nat) (e : Int) : Nat × FlagSet :=
  if n = 0 then (f.signBit neg, 0)
  else
    let top : Int := ratLog n d + e
    -- an exponent far below the denormal grid rounds as any value below a quarter of its step
    let e := if top < f.emin - f.fbits - 4 then e + (f.emin - f.fbits - 4 - top) else e
    let top := if top < f.emin - f.fbits - 4 then f.emin - f.fbits - 4 else top
    let (x, y) := scaleRat n d (e - (top - f.fbits))
    let (r, inx) := roundQuotient a.mode neg x y
    let (r, top) := if r = 2 ^ (f.fbits + 1) then (2 ^ f.fbits, top + 1) else (r, top)
    if f.emax < top || (decide (top = f.emax) && decide (f.maxSig < r)) then
      (f.overflow a neg, flagOverflow ||| flagInexact)
    else if top < f.emin then
      if a.fout then (f.signBit neg, flagUnderflow ||| flagInexact)
      else
        let (x, y) := scaleRat n d (e - (f.emin - f.fbits))
        let (r, inx) := roundQuotient a.mode neg x y
        (f.signBit neg + r, flagIf inx (flagUnderflow ||| flagInexact))
    else (f.signBit neg + (top + f.bias).toNat * 2 ^ f.fbits + (r - 2 ^ f.fbits), flagIf inx flagInexact)

/-- The NaN result of an operation with these operands: the NaN that R62 selects, invalid when one is signalling (R48). -/
def FloatFmt.nanResult (f : FloatFmt) (a : Arith) (vs : List FVal) : Nat × FlagSet :=
  (f.nanCode a.nan ((firstNaN vs).getD (.inf false)), flagIf (vs.any FVal.isSNaN) flagInvalid)

/-- The result of an invalid operation (R62); a NaN operand among `vs` still selects the NaN. -/
def FloatFmt.invalidResult (f : FloatFmt) (a : Arith) (vs : List FVal) : Nat × FlagSet :=
  match firstNaN vs with
  | some v => (f.nanCode a.nan v, flagInvalid)
  | none => (f.canonicalNaN, flagInvalid)

/-- A sum of two exact numbers, sign and magnitude at a common exponent; an exact zero has the sign of R66. -/
def addExact (mode : RMode) (n1 : Bool) (m1 : Nat) (e1 : Int) (n2 : Bool) (m2 : Nat) (e2 : Int) : Bool × Nat × Int :=
  let e := min e1 e2
  let a := m1 * 2 ^ (e1 - e).toNat
  let b := m2 * 2 ^ (e2 - e).toNat
  if n1 = n2 then (n1, a + b, e)
  else if a = b then (decide (mode = .rdn), 0, e)
  else if b < a then (n1, a - b, e) else (n2, b - a, e)

/-- Addition of two operands (R97). -/
def FloatFmt.addV (f : FloatFmt) (a : Arith) (x y : FVal) : Nat × FlagSet :=
  match x, y with
  | .num n1 m1 e1, .num n2 m2 e2 =>
    let (n, m, e) := addExact a.mode n1 m1 e1 n2 m2 e2
    f.round a n m 1 e
  | .inf n1, .inf n2 => if n1 = n2 then (f.infinity n1, 0) else f.invalidResult a [x, y]
  | .inf n1, .num .. => (f.infinity n1, 0)
  | .num .., .inf n2 => (f.infinity n2, 0)
  | _, _ => f.nanResult a [x, y]

/-- Multiplication of two operands (R97). -/
def FloatFmt.mulV (f : FloatFmt) (a : Arith) (x y : FVal) : Nat × FlagSet :=
  match x, y with
  | .num n1 m1 e1, .num n2 m2 e2 => f.round a (n1 != n2) (m1 * m2) 1 (e1 + e2)
  | .inf n1, .inf n2 => (f.infinity (n1 != n2), 0)
  | .inf n1, .num n2 m _ => if m = 0 then f.invalidResult a [x, y] else (f.infinity (n1 != n2), 0)
  | .num n1 m _, .inf n2 => if m = 0 then f.invalidResult a [x, y] else (f.infinity (n1 != n2), 0)
  | _, _ => f.nanResult a [x, y]

/-- The product of two operands of `fma` as an unrounded value; none when it is 0 × ∞. -/
def mulExact (x y : FVal) : Option FVal :=
  match x, y with
  | .num n1 m1 e1, .num n2 m2 e2 => some (.num (n1 != n2) (m1 * m2) (e1 + e2))
  | .inf n1, .inf n2 => some (.inf (n1 != n2))
  | .inf n1, .num n2 m _ => if m = 0 then none else some (.inf (n1 != n2))
  | .num n1 m _, .inf n2 => if m = 0 then none else some (.inf (n1 != n2))
  | v, _ => some v

/-- Fused multiply-add, rounded once (R97): 0 × ∞ raises invalid even with a quiet NaN addend. -/
def FloatFmt.fmaV (f : FloatFmt) (a : Arith) (x y z : FVal) : Nat × FlagSet :=
  match mulExact x y with
  | none => f.invalidResult a [x, y, z]
  | some p =>
    if x.isNaN || y.isNaN || z.isNaN then f.nanResult a [x, y, z]
    else match p, z with
      | .inf n1, .inf n2 => if n1 = n2 then (f.infinity n1, 0) else f.invalidResult a []
      | .num n1 m1 e1, .num n2 m2 e2 =>
        let (n, m, e) := addExact a.mode n1 m1 e1 n2 m2 e2
        f.round a n m 1 e
      | .inf n1, _ => (f.infinity n1, 0)
      | _, _ => (f.infinity z.neg, 0)

/-! ### Order -/

/-- Comparison of two exact magnitudes `m1 × 2^e1` and `m2 × 2^e2`. -/
def cmpMag (m1 : Nat) (e1 : Int) (m2 : Nat) (e2 : Int) : Ordering :=
  let e := min e1 e2
  compare (m1 * 2 ^ (e1 - e).toNat) (m2 * 2 ^ (e2 - e).toNat)

/-- Numeric order of two values that are no NaN, with −0 equal to +0 (R99). -/
def FVal.cmp (x y : FVal) : Ordering :=
  match x, y with
  | .inf a, .inf b => if a = b then .eq else if a then .lt else .gt
  | .inf a, _ => if a then .lt else .gt
  | _, .inf b => if b then .gt else .lt
  | .num a m1 e1, .num b m2 e2 =>
    if m1 = 0 && m2 = 0 then .eq
    else if m1 = 0 then (if b then .gt else .lt)
    else if m2 = 0 then (if a then .lt else .gt)
    else if a != b then (if a then .lt else .gt)
    else if a then (cmpMag m1 e1 m2 e2).swap else cmpMag m1 e1 m2 e2
  | _, _ => .eq

/-- The order of R67: as `FVal.cmp`, with −0 below +0. -/
def FVal.order (x y : FVal) : Ordering :=
  match x.cmp y with
  | .eq => if x.neg = y.neg then .eq else if x.neg then .lt else .gt
  | o => o

/-- Minimum or maximum of two codes (R98, R67): the code chosen unchanged; a NaN gives the canonical NaN, invalid when signalling. -/
def FloatFmt.minMax (f : FloatFmt) (a : Arith) (wantMax : Bool) (x y : Nat) : Nat × FlagSet :=
  let vx := f.operand a x
  let vy := f.operand a y
  if vx.isNaN || vy.isNaN then (f.canonicalNaN, flagIf (vx.isSNaN || vy.isSNaN) flagInvalid)
  else
    let code (c : Nat) : Nat := if a.fin && f.isDenormal c then f.signBit (f.decode c).neg else c
    match vx.order vy with
    | .gt => if wantMax then (code x, 0) else (code y, 0)
    | _ => if wantMax then (code y, 0) else (code x, 0)

/-- An operand that a reduction reads and may pass through its nodes unchanged (R66, R129): fin flushes it (R61, R131), and a NaN is read
as R48 reads it, quieted, invalid when signalling; for a minimum or maximum it is the canonical NaN of R67 (log 73). -/
def FloatFmt.leafIn (f : FloatFmt) (a : Arith) (pick : Bool) (x : Nat) : Nat × FlagSet :=
  match f.operand a x with
  | .nan _ _ _ s =>
    (if pick then f.canonicalNaN else if s then x + 2 ^ (f.fbits - 1) else x, flagIf s flagInvalid)
  | v => (if a.fin && f.isDenormal x then f.signBit v.neg else x, 0)

/-! ### Integers of a type -/

/-- The bits a narrow integer type occupies (R53, R104). -/
def tyIntBits : Ty → Nat
  | .i4 => 4
  | .s8 | .n8 => 8
  | .s16 | .n16 => 16
  | .b64 | .s64 | .n64 => 64
  | _ => 32

/-- `n` bits read as signed or natural. -/
def readInt (sgn : Bool) (bits : Nat) (x : Nat) : Int :=
  let v := x % 2 ^ bits
  if sgn && decide (2 ^ (bits - 1) ≤ v) then (v : Int) - (2 ^ bits : Nat) else v

/-- An integer modulo 2^bits. -/
def wrapInt (bits : Nat) (v : Int) : Nat := (v % (2 ^ bits : Nat)).toNat

/-- The least and greatest value of an integer of the width. -/
def intRange (sgn : Bool) (bits : Nat) : Int × Int :=
  if sgn then (-(2 ^ (bits - 1) : Nat), (2 ^ (bits - 1) : Nat) - 1) else (0, (2 ^ bits : Nat) - 1)

/-- `v` clamped to the range of an integer of the width. -/
def clampInt (sgn : Bool) (bits : Nat) (v : Int) : Int :=
  let (lo, hi) := intRange sgn bits
  if v < lo then lo else if hi < v then hi else v

/-! ### Conversion (R63) -/

/-- A floating value as an integer of the type (R63): rounded by mode, clamped when out of range; NaN gives 0. -/
def toIntV (a : Arith) (sgn : Bool) (bits : Nat) (v : FVal) : Int × FlagSet :=
  let (lo, hi) := intRange sgn bits
  match v with
  | .nan .. => (0, flagInvalid)
  | .inf neg => (if neg then lo else hi, flagInvalid)
  | .num neg m e =>
    let (x, y) := scaleRat m 1 e
    let (r, inx) := roundQuotient a.mode neg x y
    let i : Int := if neg then -(r : Int) else r
    if i < lo then (lo, flagInvalid) else if hi < i then (hi, flagInvalid) else (i, flagIf inx flagInexact)

/-- A floating value as a code of a floating format (R60 to R63). -/
def FloatFmt.convert (f : FloatFmt) (a : Arith) (v : FVal) : Nat × FlagSet :=
  match v with
  | .nan .. =>
    match f.kind with
    | .finite => (0, flagInvalid)
    | _ => (f.nanCode a.nan v, flagIf v.isSNaN flagInvalid)
  | .inf neg =>
    match f.kind with
    | .ieee => (f.infinity neg, 0)
    | .nanOnly =>
      if a.sat then (f.largest neg, flagInexact) else (f.signBit neg + (2 ^ (f.ebits + f.fbits) - 1), flagInvalid)
    | .finite => (f.largest neg, flagInexact)
  | .num neg m e => f.round a neg m 1 e

/-- An integer as a code of a floating format (R63). -/
def FloatFmt.ofInt (f : FloatFmt) (a : Arith) (v : Int) : Nat × FlagSet :=
  f.round a (decide (v < 0)) v.natAbs 1 0

/-- The low bits a value of the type occupies in a lane word (R104). -/
def tyCodeBits (t : Ty) : Nat :=
  match tyFmt t with
  | some f => f.width
  | none => (tyIntBits t)

/-- Sign-extension to 32 bits of a narrow signed code, zero padding of the others (R104); 64-bit codes stand as they are. -/
def tyLayout (t : Ty) (x : Nat) : Nat :=
  match t with
  | .s8 | .s16 | .i4 => wrapInt 32 (readInt true (tyIntBits t) x)
  | _ => x

/-- Every number of format `s` is a number of format `d`: the conversion is exact, and nothing is rounded or flushed (R61, R63). `.e5m2`
lacks a fraction bit that `.m6a` has, though R63 calls every conversion of an MX element exact: that pair rounds by R59 (log 13). -/
def FloatFmt.within (s d : FloatFmt) : Bool :=
  decide (s.fbits ≤ d.fbits) && decide (d.emin - d.fbits ≤ s.emin - s.fbits) && decide (s.emax ≤ d.emax)

/-- A value of format `s` as a code of format `d` (R63): exact where `d` holds every number of `s`, rounded by R59 to R62 where it does not,
`.m6a` to `.e5m2` among these (log 13). -/
def FloatFmt.convertFrom (d s : FloatFmt) (a : Arith) (v : FVal) : Nat × FlagSet :=
  d.convert (if s.within d then { a with fout := false } else a) v

/-- Conversion of one value of type `st`, given as the raw bits of its source, to type `dt`, as a code without its padding (R63);
fin applies to a floating source (R61). -/
def convertCode (a : Arith) (dt st : Ty) (x : Nat) : Nat × FlagSet :=
  match tyFmt st, tyFmt dt with
  | some fs, some fd => fd.convertFrom fs a (fs.operand a (x % 2 ^ fs.width))
  | some fs, none =>
    let (i, fl) := toIntV a dt.signed (tyIntBits dt) (fs.operand a (x % 2 ^ fs.width))
    (wrapInt (tyIntBits dt) i, fl)
  | none, some fd => fd.ofInt a (readInt st.signed (tyIntBits st) x)
  | none, none =>
    let v := readInt st.signed (tyIntBits st) x
    if (tyIntBits dt) < (tyIntBits st) || ((tyIntBits dt) == (tyIntBits st) && dt.signed != st.signed) then
      (wrapInt (tyIntBits dt) (if a.sat then clampInt dt.signed (tyIntBits dt) v else v), 0)
    else (wrapInt (tyIntBits dt) v, 0)

/-- `cvt.rint`: the operand rounded to an integral value in the mode; a zero result keeps the sign (R104). -/
def FloatFmt.rint (f : FloatFmt) (a : Arith) (v : FVal) : Nat × FlagSet :=
  match v with
  | .nan .. => f.nanResult a [v]
  | .inf neg => (f.infinity neg, 0)
  | .num neg m e =>
    let (x, y) := scaleRat m 1 e
    let (r, inx) := roundQuotient a.mode neg x y
    ((f.round a neg r 1 0).1, flagIf inx flagInexact)

end Sys2Proof.Machine
end

