-- ==== Sys2Proof/Machine/Compute.lean ====
section
/-! DEFINITION. The results of the lane arithmetic instructions as functions of their operands' raw bits: integer (R92 to R95),
floating point (R97 to R100), conversion and packing (R104 to R109). Nothing here reads or writes the state. -/

namespace Sys2Proof.Machine

/-! ### Integer results (R92, R93) -/

/-- An operand read by type (R92): signed for `.s`, natural for `.n` and `.b`. -/
def rdInt (t : Ty) (x : Nat) : Int := readInt t.signed (tyIntBits t) x

/-- W(v) of R92, with the clamp of `.sat`. -/
def wrapSat (t : Ty) (sat : Bool) (v : Int) : Nat :=
  wrapInt (tyIntBits t) (if sat then clampInt t.signed (tyIntBits t) v else v)

/-- `add`. -/
def resAdd (t : Ty) (sat : Bool) (a b : Nat) : Nat := wrapSat t sat (rdInt t a + rdInt t b)
/-- `sub`. -/
def resSub (t : Ty) (sat : Bool) (a b : Nat) : Nat := wrapSat t sat (rdInt t a - rdInt t b)
/-- `mul`. -/
def resMul (t : Ty) (a b : Nat) : Nat := wrapSat t false (rdInt t a * rdInt t b)
/-- `mulhi`. -/
def resMulhi (t : Ty) (a b : Nat) : Nat :=
  wrapSat t false (Int.fdiv (rdInt t a * rdInt t b) ((2 ^ tyIntBits t : Nat) : Int))
/-- `mad`. -/
def resMad (t : Ty) (a b c : Nat) : Nat := wrapSat t false (rdInt t a * rdInt t b + rdInt t c)
/-- `madhi`. -/
def resMadhi (t : Ty) (a b c : Nat) : Nat :=
  wrapSat t false (Int.fdiv (rdInt t a * rdInt t b + rdInt t c) ((2 ^ tyIntBits t : Nat) : Int))
/-- `div`: truncated toward zero; 0 when the divisor is 0 (R53, R92). -/
def resDiv (t : Ty) (a b : Nat) : Nat := wrapSat t false (Int.tdiv (rdInt t a) (rdInt t b))
/-- `rem`: the dividend when the divisor is 0 (R53, R92). -/
def resRem (t : Ty) (a b : Nat) : Nat := wrapSat t false (Int.tmod (rdInt t a) (rdInt t b))
/-- `neg`. -/
def resNeg (t : Ty) (a : Nat) : Nat := wrapSat t false (-rdInt t a)
/-- `abs`. -/
def resAbs (t : Ty) (a : Nat) : Nat := wrapSat t false ((rdInt t a).natAbs : Int)
/-- `min`. -/
def resMin (t : Ty) (a b : Nat) : Nat := if rdInt t a ≤ rdInt t b then a else b
/-- `max`. -/
def resMax (t : Ty) (a b : Nat) : Nat := if rdInt t a ≤ rdInt t b then b else a
/-- `shl`: 0 when the count is the width or more. -/
def resShl (t : Ty) (a b : Nat) : Nat := if tyIntBits t ≤ b then 0 else a * 2 ^ b % 2 ^ tyIntBits t
/-- `shr`. -/
def resShr (t : Ty) (a b : Nat) : Nat := if tyIntBits t ≤ b then 0 else a / 2 ^ b
/-- `sar`. -/
def resSar (t : Ty) (a b : Nat) : Nat :=
  let w := tyIntBits t
  wrapInt w (Int.fdiv (readInt true w a) ((2 ^ Nat.min b (w - 1) : Nat) : Int))
/-- `rot`: left by the count modulo the width. -/
def resRot (t : Ty) (a b : Nat) : Nat :=
  let w := tyIntBits t
  let k := b % w
  (a * 2 ^ k + a / 2 ^ (w - k)) % 2 ^ w
/-- The complement of a within the width. -/
def resNot (t : Ty) (a : Nat) : Nat := 2 ^ tyIntBits t - 1 - a % 2 ^ tyIntBits t
/-- `and`. -/
def resAnd (a b : Nat) : Nat := a &&& b
/-- `or`. -/
def resOr (a b : Nat) : Nat := a ||| b
/-- `xor`. -/
def resXor (a b : Nat) : Nat := a ^^^ b
/-- `andn`. -/
def resAndn (t : Ty) (a b : Nat) : Nat := a &&& resNot t b
/-- `bfe` (R93). -/
def resBfe (t : Ty) (a b : Nat) : Nat :=
  let w := tyIntBits t
  let pos := b % 256
  let len := Nat.min (b / 256 % 256) w
  let field := a / 2 ^ pos % 2 ^ len
  if len = 0 then 0 else if t.signed then wrapInt w (readInt true len field) else field
/-- `bfi` (R93): a's low bits over c; bits of the range at the width and above are dropped. -/
def resBfi (t : Ty) (a b c : Nat) : Nat :=
  let w := tyIntBits t
  let pos := b % 256
  let len := Nat.min (b / 256 % 256) w
  let low := c % 2 ^ pos
  let high := c / 2 ^ (pos + len) * 2 ^ (pos + len)
  (low + (a % 2 ^ len) * 2 ^ pos + high) % 2 ^ w
/-- The 1 bits among the low `n` bits. -/
def countOnes : Nat → Nat → Nat
  | 0, _ => 0
  | n + 1, x => x % 2 + countOnes n (x / 2)
/-- `pop`. -/
def resPop (t : Ty) (a : Nat) : Nat := countOnes (tyIntBits t) a
/-- `clz`. -/
def resClz (t : Ty) (a : Nat) : Nat := if a = 0 then tyIntBits t else tyIntBits t - 1 - Nat.log2 a
/-- The 0 bits below the lowest 1 bit among the low `n` bits. -/
def countZeros : Nat → Nat → Nat
  | 0, _ => 0
  | n + 1, x => if x % 2 = 1 then 0 else 1 + countZeros n (x / 2)
/-- `ctz`. -/
def resCtz (t : Ty) (a : Nat) : Nat := countZeros (tyIntBits t) a
/-- The low `n` bits in the opposite order, above `acc`. -/
def reverseBits : Nat → Nat → Nat → Nat
  | 0, _, acc => acc
  | n + 1, x, acc => reverseBits n (x / 2) (2 * acc + x % 2)
/-- `brev`. -/
def resBrev (t : Ty) (a : Nat) : Nat := reverseBits (tyIntBits t) a 0
/-- `lea`. -/
def resLea (t : Ty) (scale : Nat) (a b : Nat) : Nat := wrapSat t false (rdInt t a + rdInt t b * ((2 ^ scale : Nat) : Int))
/-- `sel`: a when the 32-bit c is nonzero (R95). -/
def resSel (a b c : Nat) : Nat := if c = 0 then b else a
/-- `movi` (R95): `.s64` and `.b64` sign-extend, the others hold the 32 bits. -/
def resMovi (t : Ty) (imm : BitVec 32) : Nat :=
  match t with
  | .s64 | .b64 => (imm.signExtend 64).toNat
  | _ => imm.toNat
/-- `cmp` (R94). -/
def resCmp (t : Ty) (c : Cond) (a b : Nat) : Bool :=
  let x := rdInt t a
  let y := rdInt t b
  match c with
  | .eq => decide (x = y)
  | .ne => decide (x ≠ y)
  | .lt => decide (x < y)
  | .le => decide (x ≤ y)
  | .gt => decide (y < x)
  | .ge => decide (y ≤ x)

/-! ### Floating results (R97 to R100) -/

/-- A floating operand of the type with fin applied: the value of its low bits (R96). -/
def rdFloat (t : Ty) (f : Arith) (x : Nat) : FVal := (tyFloat t).operand f (x % 2 ^ (tyFloat t).width)

/-- `fadd`. -/
def resFadd (t : Ty) (f : Arith) (a b : Nat) : Nat × FlagSet :=
  (tyFloat t).addV f.unsat (rdFloat t f a) (rdFloat t f b)
/-- `fsub`: the addition of the negated second operand; a NaN operand keeps its sign. -/
def resFsub (t : Ty) (f : Arith) (a b : Nat) : Nat × FlagSet :=
  (tyFloat t).addV f.unsat (rdFloat t f a) (rdFloat t f b).negate
/-- `fmul`. -/
def resFmul (t : Ty) (f : Arith) (a b : Nat) : Nat × FlagSet :=
  (tyFloat t).mulV f.unsat (rdFloat t f a) (rdFloat t f b)
/-- `fma`. -/
def resFma (t : Ty) (f : Arith) (a b c : Nat) : Nat × FlagSet :=
  (tyFloat t).fmaV f.unsat (rdFloat t f a) (rdFloat t f b) (rdFloat t f c)
/-- `fmin`. -/
def resFmin (t : Ty) (f : Arith) (a b : Nat) : Nat × FlagSet :=
  (tyFloat t).minMax f false (a % 2 ^ (tyFloat t).width) (b % 2 ^ (tyFloat t).width)
/-- `fmax`. -/
def resFmax (t : Ty) (f : Arith) (a b : Nat) : Nat × FlagSet :=
  (tyFloat t).minMax f true (a % 2 ^ (tyFloat t).width) (b % 2 ^ (tyFloat t).width)
/-- `fabs`: the sign bit cleared (R98). -/
def resFabs (t : Ty) (a : Nat) : Nat := a % 2 ^ ((tyFloat t).width - 1)
/-- `fneg`: the sign bit inverted (R98). -/
def resFneg (t : Ty) (a : Nat) : Nat := (a % 2 ^ (tyFloat t).width) ^^^ 2 ^ ((tyFloat t).width - 1)
/-- `fclass` (R98): one bit, from the raw code. -/
def resFclass (t : Ty) (x : Nat) : Nat :=
  let f := tyFloat t
  let x := x % 2 ^ f.width
  2 ^ match f.decode x with
    | .nan _ _ _ s => if s then 8 else 9
    | .inf neg => if neg then 0 else 7
    | .num neg m _ =>
      if m = 0 then (if neg then 3 else 4)
      else if f.isDenormal x then (if neg then 2 else 5)
      else if neg then 1 else 6
/-- `fcmp` (R99): the truth of the condition, and invalid as its column says. -/
def resFcmp (t : Ty) (f : Arith) (c : FCond) (a b : Nat) : Bool × FlagSet :=
  let x := rdFloat t f a
  let y := rdFloat t f b
  let un := x.isNaN || y.isNaN
  let o := x.cmp y
  let sig := flagIf (x.isSNaN || y.isSNaN) flagInvalid
  let any := flagIf un flagInvalid
  match c with
  | .eq => (!un && o == .eq, sig)
  | .ne => (un || o != .eq, sig)
  | .lt => (!un && o == .lt, any)
  | .le => (!un && o != .gt, any)
  | .gt => (!un && o == .gt, any)
  | .ge => (!un && o != .lt, any)
  | .un => (un, sig)
  | .ord => (!un, sig)

/-- The two halves of a packed word, each rounded once and raising its own flags (R100). -/
def packed2 (r : Nat → Nat × FlagSet) : Nat × FlagSet :=
  let (x0, f0) := r 0
  let (x1, f1) := r 1
  (x0 + 65536 * x1, f0 ||| f1)

/-- Half `i` of a packed word (R52). -/
def half (x i : Nat) : Nat := x / 65536 ^ i % 65536

/-- `hadd2`. -/
def resHadd2 (t : Ty) (f : Arith) (a b : Nat) : Nat × FlagSet := packed2 fun i => resFadd t f (half a i) (half b i)
/-- `hmul2`. -/
def resHmul2 (t : Ty) (f : Arith) (a b : Nat) : Nat × FlagSet := packed2 fun i => resFmul t f (half a i) (half b i)
/-- `hfma2`. -/
def resHfma2 (t : Ty) (f : Arith) (a b c : Nat) : Nat × FlagSet :=
  packed2 fun i => resFma t f (half a i) (half b i) (half c i)

/-! ### Conversion and packing (R104 to R109) -/

/-- `cvt` (R104): a floating result code is padded with zero bits, a narrow signed integer sign-extended. -/
def resCvt (f : Arith) (dt st : Ty) (rint : Bool) (a : Nat) : Nat × FlagSet :=
  if rint then (tyFloat dt).rint f (rdFloat dt f a)
  else
    let (c, fl) := convertCode f dt st a
    (tyLayout dt c, fl)

/-- `pack` (R105): the converted a and b as elements 2k and 2k+1 of the word c. -/
def resPack (f : Arith) (t st : Ty) (k : Nat) (a b c : Nat) : Nat × FlagSet :=
  let n := tyCodeBits t
  let (x, f0) := convertCode f t st a
  let (y, f1) := convertCode f t st b
  let low := c % 2 ^ (2 * k * n)
  let high := c / 2 ^ ((2 * k + 2) * n) * 2 ^ ((2 * k + 2) * n)
  ((low + x * 2 ^ (2 * k * n) + y * 2 ^ ((2 * k + 1) * n) + high) % 2 ^ 32, f0 ||| f1)

/-- `unpack` (R106): element k, exactly; a NaN gives the NaN of R62. -/
def resUnpack (f : Arith) (t : Ty) (k : Nat) (a : Nat) : Nat × FlagSet :=
  let n := tyCodeBits t
  let x := a / 2 ^ (k * n) % 2 ^ n
  match tyFmt t with
  | some ff => fmt32.convertFrom ff f (ff.operand f x)
  | none => (wrapInt 32 (readInt t.signed n x), 0)

/-- `mxdq` (R108): element × 2^(scale − 127) as `.f32`, rounded once with sat applied; scale 0xFF gives the canonical NaN. -/
def resMxdq (f : Arith) (t : Ty) (a : Nat) : Nat × FlagSet :=
  let ff := tyFloat t
  let s := a / 256 % 256
  if s = 255 then (fmt32.canonicalNaN, 0)
  else match ff.operand f (a % 2 ^ ff.width) with
    | .num neg m e => fmt32.round f neg m 1 (e + s - 127)
    | v => fmt32.convert f v

/-- The magnitude of an element for `sp24` (R109): a NaN above every number. -/
inductive Mag where
  | num (m : Nat) (e : Int)
  | inf
  | nan
deriving DecidableEq, Repr

/-- `x` strictly above `y`. -/
def Mag.above (x y : Mag) : Bool :=
  match x, y with
  | .nan, .nan => false
  | .nan, _ => true
  | _, .nan => false
  | .inf, .inf => false
  | .inf, _ => true
  | _, .inf => false
  | .num a e, .num b g => cmpMag a e b g == .gt

/-- The magnitude of a code of the type, denormals by their value whatever fin holds: `sp24` ranks and keeps codes (R109; log 80). -/
def magOf (t : Ty) (x : Nat) : Mag :=
  match tyFmt t with
  | some f => match f.decode x with
    | .nan .. => .nan
    | .inf _ => .inf
    | .num _ m e => .num m e
  | none => .num (readInt t.signed (tyIntBits t) x).natAbs 0

/-- How many of the four elements rank before element `i`: those of greater magnitude, and equal ones at a lower index. -/
def rankOf (t : Ty) (el : Nat → Nat) (i : Nat) : Nat :=
  ((List.range 4).filter fun j =>
    (magOf t (el j)).above (magOf t (el i)) ||
      (!(magOf t (el i)).above (magOf t (el j)) && decide (j < i))).length

/-- The kept positions of a group of four, ascending (R109). -/
def keptOf (t : Ty) (el : Nat → Nat) : Nat × Nat :=
  match (List.range 4).filter fun i => decide (rankOf t el i < 2) with
  | i :: j :: _ => (i, j)
  | _ => (0, 1)

/-- `sp24` (R109). -/
def resSp24 (t : Ty) (a : Nat) : Nat :=
  let n := tyCodeBits t
  let el (g i : Nat) : Nat := a / 2 ^ ((4 * g + i) * n) % 2 ^ n
  if n = 8 then
    let (i, j) := keptOf t (el 0)
    el 0 i + 2 ^ 8 * el 0 j + 2 ^ 16 * (i + 4 * j)
  else
    let (i, j) := keptOf t (el 0)
    let (k, l) := keptOf t (el 1)
    el 0 i + 2 ^ 4 * el 0 j + 2 ^ 8 * el 1 k + 2 ^ 12 * el 1 l + 2 ^ 16 * (i + 4 * j) + 2 ^ 20 * (k + 4 * l)

/-- floor(log2) of a positive exact magnitude. -/
def floorLog2 (m : Nat) (e : Int) : Int := (Nat.log2 m : Int) + e

/-- The greatest power of two of an MX element format (R107). -/
def mxEmax : Ty → Int
  | .m4 | .m6a => 2
  | .m6b => 4
  | .e4m3 => 8
  | _ => 15

/-- The scale code of an MX block of these values and whether it holds a NaN or an infinity (R107). -/
def mxScale (t : Ty) (xs : List FVal) : Nat × Bool :=
  if xs.any (fun v => match v with | .num .. => false | _ => true) then (255, true)
  else
    let logs := xs.filterMap fun v => match v with
      | .num _ m e => if m = 0 then none else some (floorLog2 m e)
      | _ => none
    match logs with
    | [] => (127, false)
    | l :: ls =>
      let e := ls.foldl max l - mxEmax t
      let e := if e < -127 then -127 else if 127 < e then 127 else e
      ((e + 127).toNat, false)

/-- One element of `mxq`: its code under the block's scale (R107). -/
def mxCode (t : Ty) (f : Arith) (scale : Nat) (v : FVal) : Nat × FlagSet :=
  match v with
  | .num neg m e => (tyFloat t).round f neg m 1 (e - ((scale : Int) - 127))
  | _ => (0, 0)

end Sys2Proof.Machine
end

