-- ==== Sys2Proof/Decode.lean ====
section
/-! DEFINITION. The encodings: the four formats to the bit (R68, R70, R76, R80), the reading of a word as an instruction, the
writing of an instruction as a word, and the checks of R87 in their order. A word is accepted when it reads as a well-formed
instruction whose own encoding is that word, so no reserved bit is ever ignored (R86). -/

namespace Sys2Proof

/-! ### The formats -/

/-- The fields of format L (R70) below the format bits. -/
structure LWord where
  op : BitVec 10
  q : BitVec 4
  neg : BitVec 1
  f : BitVec 1
  dst : BitVec 9
  uses : BitVec 3
  a : BitVec 9
  ta : BitVec 1
  b : BitVec 9
  tb : BitVec 1
  c : BitVec 9
  tc : BitVec 1
  ty : BitVec 4
  imm : BitVec 32
deriving DecidableEq, Repr

/-- The fields of format U (R80). -/
structure UWord where
  op : BitVec 8
  d : BitVec 6
  a : BitVec 6
  imm : BitVec 10
deriving DecidableEq, Repr

/-- The fields of format U2 (R80). -/
structure U2Word where
  op : BitVec 8
  d : BitVec 6
  a : BitVec 6
  b : BitVec 6
  mods : BitVec 4
  imm : BitVec 32
deriving DecidableEq, Repr

/-- A fetched instruction, split into the fields of its format. -/
inductive Raw where
  | u (w : UWord)
  | u2 (w : U2Word)
  | l (w : LWord)
  | lp (x y : Half)
deriving DecidableEq, Repr

/-- Format L as 96 bits. -/
def LWord.bits (w : LWord) : BitVec 96 :=
  2#2 ++ w.op ++ w.q ++ w.neg ++ w.f ++ w.dst ++ w.uses ++ w.a ++ w.ta ++ w.b ++ w.tb ++ w.c ++ w.tc ++ w.ty ++ w.imm

/-- The fields of 96 bits of format L. -/
def LWord.ofBits (x : BitVec 96) : LWord where
  op := x.extractLsb' 84 10
  q := x.extractLsb' 80 4
  neg := x.extractLsb' 79 1
  f := x.extractLsb' 78 1
  dst := x.extractLsb' 69 9
  uses := x.extractLsb' 66 3
  a := x.extractLsb' 57 9
  ta := x.extractLsb' 56 1
  b := x.extractLsb' 47 9
  tb := x.extractLsb' 46 1
  c := x.extractLsb' 37 9
  tc := x.extractLsb' 36 1
  ty := x.extractLsb' 32 4
  imm := x.extractLsb' 0 32

/-- One half of a lane pair as its 47 bits (R76). -/
def Half.bits (h : Half) : BitVec 47 := h.op ++ h.q ++ h.dst ++ h.uses ++ h.a ++ h.b ++ h.c

/-- The fields of the 47 bits of a half. -/
def Half.ofBits (x : BitVec 47) : Half where
  op := x.extractLsb' 40 7
  q := x.extractLsb' 38 2
  dst := x.extractLsb' 29 9
  uses := x.extractLsb' 27 2
  a := x.extractLsb' 18 9
  b := x.extractLsb' 9 9
  c := x.extractLsb' 0 9

/-- Format U as 32 bits. -/
def UWord.bits (w : UWord) : BitVec 32 := 0#2 ++ w.op ++ w.d ++ w.a ++ w.imm

/-- The fields of 32 bits of format U. -/
def UWord.ofBits (x : BitVec 32) : UWord where
  op := x.extractLsb' 22 8
  d := x.extractLsb' 16 6
  a := x.extractLsb' 10 6
  imm := x.extractLsb' 0 10

/-- Format U2 as 64 bits. -/
def U2Word.bits (w : U2Word) : BitVec 64 := 1#2 ++ w.op ++ w.d ++ w.a ++ w.b ++ w.mods ++ w.imm

/-- The fields of 64 bits of format U2. -/
def U2Word.ofBits (x : BitVec 64) : U2Word where
  op := x.extractLsb' 54 8
  d := x.extractLsb' 48 6
  a := x.extractLsb' 42 6
  b := x.extractLsb' 36 6
  mods := x.extractLsb' 32 4
  imm := x.extractLsb' 0 32

/-- The parcels of an instruction, the first first (R68). -/
def Raw.parcels : Raw → List Word32
  | .u w => [w.bits]
  | .u2 w => [w.bits.extractLsb' 32 32, w.bits.extractLsb' 0 32]
  | .l w => [w.bits.extractLsb' 64 32, w.bits.extractLsb' 32 32, w.bits.extractLsb' 0 32]
  | .lp x y =>
    let w : BitVec 96 := 3#2 ++ x.bits ++ y.bits
    [w.extractLsb' 64 32, w.extractLsb' 32 32, w.extractLsb' 0 32]

/-- The number of parcels the first parcel announces (R68). -/
def parcelCount (first : Word32) : Nat :=
  match (first.extractLsb' 30 2).toNat with
  | 0 => 1
  | 1 => 2
  | _ => 3

/-- The instruction whose parcels these are; none when there are too few. -/
def Raw.ofParcels : List Word32 → Option Raw
  | [] => none
  | p :: rest =>
    match (p.extractLsb' 30 2).toNat, rest with
    | 0, _ => some (.u (.ofBits p))
    | 1, p2 :: _ => some (.u2 (.ofBits (p ++ p2)))
    | 2, p2 :: p3 :: _ => some (.l (.ofBits (p ++ p2 ++ p3)))
    | 3, p2 :: p3 :: _ =>
      let w : BitVec 96 := p ++ p2 ++ p3
      some (.lp (.ofBits (w.extractLsb' 47 47)) (.ofBits (w.extractLsb' 0 47)))
    | _, _ => none

/-! ### Fields of the immediate -/

/-- The type code of R71. -/
def Ty.code : Ty → BitVec 4
  | .b32 => 0
  | .s32 => 1
  | .n32 => 2
  | .f32 => 3
  | .b64 => 4
  | .s64 => 5
  | .n64 => 6
  | .f16 => 7
  | .bf16 => 8
  | .s16 => 9
  | .n16 => 10
  | .s8 => 11
  | .n8 => 12
  | .e4m3 => 13
  | .e5m2 => 14
  | .m6a | .m6b | .m4 | .i4 | .x8 | .t96 => 15

/-- The extension of R72. -/
def Ty.ext : Ty → BitVec 4
  | .m6b => 1
  | .m4 => 2
  | .i4 => 3
  | .x8 => 4
  | .t96 => 5
  | _ => 0

/-- The type of a code and an extension (R71, R72); a code other than 0xF ignores the extension here. -/
def Ty.ofCode (code ext : BitVec 4) : Option Ty :=
  match code.toNat with
  | 0 => some .b32
  | 1 => some .s32
  | 2 => some .n32
  | 3 => some .f32
  | 4 => some .b64
  | 5 => some .s64
  | 6 => some .n64
  | 7 => some .f16
  | 8 => some .bf16
  | 9 => some .s16
  | 10 => some .n16
  | 11 => some .s8
  | 12 => some .n8
  | 13 => some .e4m3
  | 14 => some .e5m2
  | _ =>
    match ext.toNat with
    | 0 => some .m6a
    | 1 => some .m6b
    | 2 => some .m4
    | 3 => some .i4
    | 4 => some .x8
    | 5 => some .t96
    | _ => none

/-- The unused source field: name 0, trap bit 0 (R70). -/
def Src.zero : Src := ⟨0, false⟩
/-- The unused destination: name 0, uses 0 (R70). -/
def Dst.zero : Dst := ⟨0, 0⟩
/-- The predicate of an unpredicated instruction (R70). -/
def Pred.always : Pred := ⟨0, false⟩

/-- A bit as a field. -/
def bit1 (b : Bool) : BitVec 1 := BitVec.ofBool b

/-- The source field the operand of R89 leaves: its name, or the unused source. -/
def OpB.src : OpB → Src
  | .name s => s
  | _ => .zero

/-- The immediate of the integer and floating shapes (R89). -/
def OpB.immediate (b : OpB) (mods : BitVec 6) : BitVec 32 :=
  match b with
  | .name _ => 0#2 ++ mods ++ 0#24
  | .imm v => 1#2 ++ mods ++ v
  | .ureg g => 2#2 ++ mods ++ 0#18 ++ g

/-- The operand of R89 from selector, source and low bits. -/
def OpB.of (sel : BitVec 2) (s : Src) (low : BitVec 24) : Option OpB :=
  match sel.toNat with
  | 0 => some (.name s)
  | 1 => some (.imm low)
  | 2 => some (.ureg (low.extractLsb' 0 6))
  | _ => none

/-- The codes of the address spaces (R73). -/
def Space.code : Space → BitVec 3
  | .core => 0
  | .clu => 1
  | .die => 2
  | .win => 3
  | .gl => 4

/-- The space of a code; 5 to 7 are reserved. -/
def Space.ofCode (c : BitVec 3) : Option Space :=
  match c.toNat with
  | 0 => some .core
  | 1 => some .clu
  | 2 => some .die
  | 3 => some .win
  | 4 => some .gl
  | _ => none

/-- The memory shape with its modifiers (R73). -/
def Mem.immediate (m : Mem) (mods : BitVec 6) : BitVec 32 :=
  m.base ++ m.space.code ++ m.win ++ bit1 m.idx.isSome ++ mods ++ m.off

/-- The index source of a memory shape. -/
def Mem.src (m : Mem) : Src := m.idx.getD .zero

/-- The cross-lane immediate without operands (R125). -/
def crossImm (m : BitVec 6) (low : BitVec 24) : BitVec 32 := m ++ 0#2 ++ low

/-- The `shfl` immediate (R125). -/
def OpB.cross (b : OpB) (m : BitVec 6) : BitVec 32 :=
  match b with
  | .name _ => m ++ 0#2 ++ 0#24
  | .imm v => m ++ 1#2 ++ v
  | .ureg g => m ++ 2#2 ++ 0#18 ++ g

/-- Codes of the operators of `red` and `scan` (R125). -/
def RedOp.code : RedOp → BitVec 4
  | .add => 0
  | .min => 1
  | .max => 2
  | .and => 3
  | .or => 4
  | .xor => 5

/-- The operator of a code; 6 to 15 are reserved. -/
def RedOp.ofCode (c : BitVec 4) : Option RedOp :=
  match c.toNat with
  | 0 => some .add
  | 1 => some .min
  | 2 => some .max
  | 3 => some .and
  | 4 => some .or
  | 5 => some .xor
  | _ => none

/-- Codes of the atomic operations (R190). -/
def AtomOp.code : AtomOp → BitVec 4
  | .add => 0
  | .min => 1
  | .max => 2
  | .and => 3
  | .or => 4
  | .xor => 5
  | .xchg => 6
  | .cas => 7
  | .binc => 8
  | .bdec => 9

/-- The atomic operation of a code; 10 to 15 are reserved. -/
def AtomOp.ofCode (c : BitVec 4) : Option AtomOp :=
  match c.toNat with
  | 0 => some .add
  | 1 => some .min
  | 2 => some .max
  | 3 => some .and
  | 4 => some .or
  | 5 => some .xor
  | 6 => some .xchg
  | 7 => some .cas
  | 8 => some .binc
  | 9 => some .bdec
  | _ => none

/-- Codes of the ordering field (R190). -/
def Order.code : Order → BitVec 2
  | .relaxed => 0
  | .acq => 1
  | .rel => 2
  | .ar => 3

/-- The ordering of a code. -/
def Order.ofCode (c : BitVec 2) : Order :=
  match c.toNat with
  | 0 => .relaxed
  | 1 => .acq
  | 2 => .rel
  | _ => .ar

/-- Codes of the scopes (R192). -/
def Scope.code : Scope → BitVec 3
  | .core => 0
  | .clu => 1
  | .die => 2
  | .pkg => 3
  | .sys => 4

/-- The scope of a code; 5 to 7 are reserved. -/
def Scope.ofCode (c : BitVec 3) : Option Scope :=
  match c.toNat with
  | 0 => some .core
  | 1 => some .clu
  | 2 => some .die
  | 3 => some .pkg
  | 4 => some .sys
  | _ => none

/-- Codes of the conditions of `cmp` (R94). -/
def Cond.code : Cond → BitVec 6
  | .eq => 0
  | .ne => 1
  | .lt => 2
  | .le => 3
  | .gt => 4
  | .ge => 5

/-- The condition of a code; 6 to 63 are reserved. -/
def Cond.ofCode (c : BitVec 6) : Option Cond :=
  match c.toNat with
  | 0 => some .eq
  | 1 => some .ne
  | 2 => some .lt
  | 3 => some .le
  | 4 => some .gt
  | 5 => some .ge
  | _ => none

/-- Codes of the conditions of `fcmp` (R99). -/
def FCond.code : FCond → BitVec 6
  | .eq => 0
  | .ne => 1
  | .lt => 2
  | .le => 3
  | .gt => 4
  | .ge => 5
  | .un => 6
  | .ord => 7

/-- The condition of a code; 8 to 63 are reserved. -/
def FCond.ofCode (c : BitVec 6) : Option FCond :=
  match c.toNat with
  | 0 => some .eq
  | 1 => some .ne
  | 2 => some .lt
  | 3 => some .le
  | 4 => some .gt
  | 5 => some .ge
  | 6 => some .un
  | 7 => some .ord
  | _ => none

/-- Codes of the conditions of `gcmp` (R81). -/
def UCond.code : UCond → BitVec 4
  | .eq => 0
  | .ne => 1
  | .lts => 2
  | .les => 3
  | .gts => 4
  | .ges => 5
  | .ltn => 6
  | .len => 7
  | .gtn => 8
  | .gen => 9

/-- The condition of a code; 10 to 15 are reserved. -/
def UCond.ofCode (c : BitVec 4) : Option UCond :=
  match c.toNat with
  | 0 => some .eq
  | 1 => some .ne
  | 2 => some .lts
  | 3 => some .les
  | 4 => some .gts
  | 5 => some .ges
  | 6 => some .ltn
  | 7 => some .len
  | 8 => some .gtn
  | 9 => some .gen
  | _ => none

/-- Codes of the conditions of `gbr` (R123). -/
def GCond.code : GCond → BitVec 4
  | .always => 0
  | .nz => 1
  | .z => 2

/-- The condition of a code; 3 to 15 are reserved. -/
def GCond.ofCode (c : BitVec 4) : Option GCond :=
  match c.toNat with
  | 0 => some .always
  | 1 => some .nz
  | 2 => some .z
  | _ => none

/-! ### The opcode maps -/

/-- The assigned lane opcodes (R82). -/
def laneAssigned (op : BitVec 10) : Bool :=
  let n := op.toNat
  decide (n ≤ 0x1F) || (decide (0x40 ≤ n) && decide (n ≤ 0x4C)) || (decide (0x80 ≤ n) && decide (n ≤ 0x87)) ||
    (decide (0xC0 ≤ n) && decide (n ≤ 0xC5)) || (decide (0x100 ≤ n) && decide (n ≤ 0x10A)) ||
    (decide (0x140 ≤ n) && decide (n ≤ 0x14B)) || (decide (0x180 ≤ n) && decide (n ≤ 0x183)) ||
    (decide (0x1C0 ≤ n) && decide (n ≤ 0x1CC)) || (decide (0x200 ≤ n) && decide (n ≤ 0x203)) ||
    (decide (0x240 ≤ n) && decide (n ≤ 0x249)) || (decide (0x280 ≤ n) && decide (n ≤ 0x287))

/-- The assigned uniform opcodes (R84). -/
def uniformAssigned (op : BitVec 8) : Bool :=
  let n := op.toNat
  (decide (0x02 ≤ n) && decide (n ≤ 0x15)) || n == 0x20 || n == 0x24 || n == 0x25 ||
    (decide (0x28 ≤ n) && decide (n ≤ 0x2C))

/-- The class-restricted cells of R83. -/
def Raw.restricted : Raw → Bool
  | .l w => w.op == 0x281 || w.op == 0x282 || w.op == 0x283 || w.op == 0x285
  | .u w => (w.op == 0x2A && selectorPrivileged w.imm) || (w.op == 0x2B && !selectorRW w.imm)
  | .u2 w =>
    w.op == 0x2A &&
      ((w.mods == 0 && selectorPrivileged (w.imm.extractLsb' 0 10)) ||
        (w.mods == 1 && selectorPrivileged (w.imm.extractLsb' 12 10)))
  | .lp _ _ => false

/-! ### Writing -/

/-- A word of format L with predicate, destination, sources, type code and immediate; F is 0. -/
def laneWord (op : BitVec 10) (p : Pred) (d : Dst) (a b c : Src) (ty : BitVec 4) (imm : BitVec 32) : Option Raw :=
  some (.l { op := op, q := p.q, neg := bit1 p.neg, f := 0, dst := d.name, uses := d.uses, a := a.name,
             ta := bit1 a.trap, b := b.name, tb := bit1 b.trap, c := c.name, tc := bit1 c.trap, ty := ty, imm := imm })

/-- A lane word whose bits 55:36 are the join or entry field of R111. -/
def joinWord (op : BitVec 10) (p : Pred) (u : Bool) (d : Dst) (a : Src) (join : BitVec 20) (imm : BitVec 32) : Option Raw :=
  some (.l { op := op, q := p.q, neg := bit1 p.neg, f := bit1 u, dst := d.name, uses := d.uses, a := a.name,
             ta := bit1 a.trap, b := join.extractLsb' 11 9, tb := join.extractLsb' 10 1, c := join.extractLsb' 1 9,
             tc := join.extractLsb' 0 1, ty := 0, imm := imm })

/-- The predicate destination in bits 72:69 (R70). -/
def predDst (q : BitVec 4) : Dst := ⟨0#5 ++ q, 0⟩

/-- The integer and floating shapes with sources A, B and C (R89). -/
def shapeWord (op : BitVec 10) (p : Pred) (d : Dst) (a : Src) (b : OpB) (c : Src) (t : Ty) (mods : BitVec 6 := 0) :
    Option Raw := laneWord op p d a b.src c t.code (b.immediate mods)

/-- A word reading source A only, with immediate 0. -/
def unaryWord (op : BitVec 10) (p : Pred) (d : Dst) (a : Src) (t : Ty) : Option Raw :=
  laneWord op p d a .zero .zero t.code 0

/-- A word of the memory shape (R73). -/
def memWord (op : BitVec 10) (p : Pred) (d : Dst) (m : Mem) (b c : Src) (ty : BitVec 4) (mods : BitVec 6) : Option Raw :=
  laneWord op p d m.src b c ty (m.immediate mods)

/-- A cross-lane word reading predicate S in bits 60:57 (R125). -/
def voteWord (op : BitVec 10) (p : Pred) (d : Dst) (qs : BitVec 4) (t : Ty) (m : BitVec 6) : Option Raw :=
  laneWord op p d ⟨0#5 ++ qs, false⟩ .zero .zero t.code (crossImm m 0)

/-- A uniform word of format U with a signed immediate (R80). -/
def uniImm (op : BitVec 8) (d a : BitVec 6) (i : BitVec 10) : Option Raw := some (.u ⟨op, d, a, i⟩)

/-- A uniform word of format U with source B in bits 5:0 (R80). -/
def uniReg (op : BitVec 8) (d a b : BitVec 6) : Option Raw := some (.u ⟨op, d, a, 0#4 ++ b⟩)

/-- A uniform word of format U2 (R80). -/
def uniWide (op : BitVec 8) (d a b : BitVec 6) (mods : BitVec 4) (imm : BitVec 32) : Option Raw :=
  some (.u2 ⟨op, d, a, b, mods, imm⟩)

/-- A uniform arithmetic word of format U2: the even opcode reads G(B), the odd one the immediate (R81). -/
def uniArith (op : BitVec 8) (d a : BitVec 6) (b : UOp) (mods : BitVec 4 := 0) : Option Raw :=
  match b with
  | .reg g => uniWide op d a g mods 0
  | .imm v => uniWide (op + 1) d a 0 mods v

/-- A wait-like word: type `.n32` with a destination, code 0 without (R184, R269). -/
def waitWord (op : BitVec 10) (p : Pred) (m : Mem) (d : Option Dst) (mods : BitVec 6) : Option Raw :=
  match d with
  | some d => memWord op p d m .zero .zero Ty.n32.code mods
  | none => memWord op p .zero m .zero .zero 0 mods

/-- The encoding of an instruction; none for an event. -/
def encodeRaw : Instr → Option Raw
  | .add p d a b t s => shapeWord 0x000 p d a b .zero t (0#5 ++ bit1 s)
  | .sub p d a b t s => shapeWord 0x001 p d a b .zero t (0#5 ++ bit1 s)
  | .mul p d a b t => shapeWord 0x002 p d a b .zero t
  | .mulhi p d a b t => shapeWord 0x003 p d a b .zero t
  | .mad p d a b c t => shapeWord 0x004 p d a b c t
  | .madhi p d a b c t => shapeWord 0x005 p d a b c t
  | .div p d a b t => shapeWord 0x006 p d a b .zero t
  | .rem p d a b t => shapeWord 0x007 p d a b .zero t
  | .neg p d a t => unaryWord 0x008 p d a t
  | .abs p d a t => unaryWord 0x009 p d a t
  | .min p d a b t => shapeWord 0x00A p d a b .zero t
  | .max p d a b t => shapeWord 0x00B p d a b .zero t
  | .shl p d a b t => shapeWord 0x00C p d a b .zero t
  | .shr p d a b t => shapeWord 0x00D p d a b .zero t
  | .sar p d a b t => shapeWord 0x00E p d a b .zero t
  | .rot p d a b t => shapeWord 0x00F p d a b .zero t
  | .and p d a b t => shapeWord 0x010 p d a b .zero t
  | .or p d a b t => shapeWord 0x011 p d a b .zero t
  | .xor p d a b t => shapeWord 0x012 p d a b .zero t
  | .andn p d a b t => shapeWord 0x013 p d a b .zero t
  | .not p d a t => unaryWord 0x014 p d a t
  | .bfe p d a b t => shapeWord 0x015 p d a b .zero t
  | .bfi p d a b c t => shapeWord 0x016 p d a b c t
  | .pop p d a t => unaryWord 0x017 p d a t
  | .clz p d a t => unaryWord 0x018 p d a t
  | .ctz p d a t => unaryWord 0x019 p d a t
  | .brev p d a t => unaryWord 0x01A p d a t
  | .lea p d a b t s => shapeWord 0x01B p d a b .zero t (0#3 ++ s)
  | .mov p d a t => laneWord 0x01C p d a.src .zero .zero t.code (a.immediate 0)
  | .movi p d t i => laneWord 0x01D p d .zero .zero .zero t.code i
  | .sel p d a b c t => shapeWord 0x01E p d a b c t
  | .cmp p q a b t cond => shapeWord 0x01F p (predDst q) a b .zero t cond.code
  | .fadd p d a b t => shapeWord 0x040 p d a b .zero t
  | .fsub p d a b t => shapeWord 0x041 p d a b .zero t
  | .fmul p d a b t => shapeWord 0x042 p d a b .zero t
  | .fma p d a b c t => shapeWord 0x043 p d a b c t
  | .fmin p d a b t => shapeWord 0x044 p d a b .zero t
  | .fmax p d a b t => shapeWord 0x045 p d a b .zero t
  | .fabs p d a t => unaryWord 0x046 p d a t
  | .fneg p d a t => unaryWord 0x047 p d a t
  | .fcmp p q a b t cond => shapeWord 0x048 p (predDst q) a b .zero t cond.code
  | .fclass p d a t => unaryWord 0x049 p d a t
  | .hadd2 p d a b t => shapeWord 0x04A p d a b .zero t
  | .hmul2 p d a b t => shapeWord 0x04B p d a b .zero t
  | .hfma2 p d a b c t => shapeWord 0x04C p d a b c t
  | .frcp p d a t => unaryWord 0x080 p d a t
  | .frsq p d a t => unaryWord 0x081 p d a t
  | .fsqrt p d a t => unaryWord 0x082 p d a t
  | .fexp2 p d a t => unaryWord 0x083 p d a t
  | .flog2 p d a t => unaryWord 0x084 p d a t
  | .fsinpi p d a t => unaryWord 0x085 p d a t
  | .fcospi p d a t => unaryWord 0x086 p d a t
  | .ftanh p d a t => unaryWord 0x087 p d a t
  | .cvt p d a dt st rint =>
    laneWord 0x0C0 p d a .zero .zero dt.code (dt.ext ++ st.code ++ st.ext ++ bit1 rint ++ 0#19)
  | .pack p d a b c t st k => laneWord 0x0C1 p d a b c t.code (t.ext ++ st.code ++ k ++ 0#22)
  | .unpack p d a t k => laneWord 0x0C2 p d a .zero .zero t.code (t.ext ++ 0#4 ++ k ++ 0#21)
  | .mxq p d a t st => laneWord 0x0C3 p d a .zero .zero t.code (t.ext ++ st.code ++ 0#24)
  | .mxdq p d a t => laneWord 0x0C4 p d a .zero .zero t.code (t.ext ++ 0#28)
  | .sp24 p d a t => laneWord 0x0C5 p d a .zero .zero t.code (t.ext ++ 0#28)
  | .voteAny p q s m => voteWord 0x100 p (predDst q) s .b32 m
  | .voteAll p q s m => voteWord 0x101 p (predDst q) s .b32 m
  | .voteBal p d s m => voteWord 0x102 p d s .b64 m
  | .shflIdx p d a b t m => laneWord 0x103 p d a b.src .zero t.code (b.cross m)
  | .shflUp p d a b t m => laneWord 0x104 p d a b.src .zero t.code (b.cross m)
  | .shflDn p d a b t m => laneWord 0x105 p d a b.src .zero t.code (b.cross m)
  | .shflXor p d a b t m => laneWord 0x106 p d a b.src .zero t.code (b.cross m)
  | .red p d a op t m => laneWord 0x107 p d a .zero .zero t.code (crossImm m (op.code ++ 0#20))
  | .scan p d a op e t m => laneWord 0x108 p d a .zero .zero t.code (crossImm m (op.code ++ bit1 e ++ 0#19))
  | .topk p d a b k t m => laneWord 0x109 p d a b .zero t.code (crossImm m (0#19 ++ k))
  | .matchLanes p d a t m => laneWord 0x10A p d a .zero .zero t.code (crossImm m 0)
  | .br p u j i => joinWord 0x140 p u .zero .zero j i
  | .call p u d i => joinWord 0x141 p u d .zero 0 i
  | .calli p u d a => joinWord 0x142 p u d a 0 0
  | .ret u a => joinWord 0x143 .always u .zero a 0 0
  | .jmpi p u n a j i => joinWord 0x144 p u ⟨n.extractLsb' 3 9, n.extractLsb' 0 3⟩ a j i
  | .regang tag => laneWord 0x145 .always .zero .zero .zero .zero 0 (0#24 ++ tag)
  | .exit p => laneWord 0x146 p .zero .zero .zero .zero 0 0
  | .nop p => laneWord 0x147 p .zero .zero .zero .zero 0 0
  | .drop p a n => laneWord 0x148 p .zero a .zero .zero 0 (0#29 ++ n)
  | .free p a => laneWord 0x149 p .zero ⟨a, false⟩ .zero .zero 0 0
  | .patld pat => laneWord 0x14A .always .zero .zero .zero .zero 0 (pat ++ 0#6)
  | .weave p d a b c n pat => laneWord 0x14B p d a b c 0 (pat ++ n ++ 0#4)
  | .lanePair x y => some (.lp x y)
  | .ld p d m n t => memWord 0x180 p d m .zero .zero t.code (0#4 ++ n)
  | .st p m b n t => memWord 0x181 p .zero m b .zero t.code (0#4 ++ n)
  | .atom p d m b c op ord t => memWord 0x182 p d m b c t.code (op.code ++ ord.code)
  | .fence sc => laneWord 0x183 .always .zero .zero .zero .zero 0 (0#29 ++ sc.code)
  | .tmove p m => memWord 0x1C0 p .zero m .zero .zero 0 0
  | .tgath p m => memWord 0x1C1 p .zero m .zero .zero 0 0
  | .tscat p m => memWord 0x1C2 p .zero m .zero .zero 0 0
  | .gatom p m res =>
    match res with
    | some (d, wide) => memWord 0x1C3 p d m .zero .zero (if wide then Ty.b64.code else Ty.b32.code) 1
    | none => memWord 0x1C3 p .zero m .zero .zero 0 0
  | .wopen p m w fill ro => memWord 0x1C4 p .zero m .zero .zero 0 (w ++ bit1 fill ++ bit1 ro)
  | .wflush p m w => memWord 0x1C5 p .zero m .zero .zero 0 (w ++ 0#2)
  | .wclose p m w => memWord 0x1C6 p .zero m .zero .zero 0 (w ++ 0#2)
  | .bobj p m b wide ext =>
    memWord 0x1C7 p .zero m b .zero (if wide then Ty.n64.code else Ty.n32.code) (0#5 ++ bit1 ext)
  | .arrive p m one n => memWord 0x1C8 p .zero m .zero .zero 0 (0#1 ++ bit1 one ++ n)
  | .wait p m d => waitWord 0x1C9 p m d 0
  | .yieldon p m cont => joinWord 0x1CA p false .zero m.src cont (m.immediate 0)
  | .bar => laneWord 0x1CB .always .zero .zero .zero .zero 0 0
  | .pbar => laneWord 0x1CC .always .zero .zero .zero .zero 0 0
  | .mzero p ea =>
    laneWord 0x200 p .zero .zero .zero .zero 0
      (match ea with | .imm v => 0#16 ++ v | .ureg g => 0#1 ++ 1#2 ++ 0#23 ++ g)
  | .mzeroRel p => laneWord 0x200 p .zero .zero .zero .zero 0 (1#1 ++ 0#31)
  | .mpair p r a s base off =>
    some (.l { op := 0x201, q := p.q, neg := bit1 p.neg, f := bit1 r, dst := 0, uses := 0, a := a.name,
               ta := bit1 a.trap, b := s.name, tb := bit1 s.trap, c := 0, tc := 0, ty := 0,
               imm := base ++ 0#14 ++ off })
  | .mdrainNames p d m => memWord 0x202 p d m .zero .zero 0 1
  | .mdrainMemory p m => memWord 0x202 p .zero m .zero .zero 0 0
  | .mstadd p m => memWord 0x203 p .zero m .zero .zero 0 0
  | .spawn p q a entry base n k lane nj off =>
    joinWord 0x240 p false (predDst q) a entry (base ++ n ++ k ++ bit1 lane ++ bit1 nj ++ 0#2 ++ off)
  | .jinit p m lane => memWord 0x241 p .zero m .zero .zero 0 (0#5 ++ bit1 lane)
  | .jwait p m lane d => waitWord 0x242 p m d (0#5 ++ bit1 lane)
  | .edgeseed p m => memWord 0x243 p .zero m .zero .zero 0 0
  | .edgechk p m => memWord 0x244 p .zero m .zero .zero 0 0
  | .edgewait p m => memWord 0x245 p .zero m .zero .zero 0 0
  | .edgeflip p m => memWord 0x246 p .zero m .zero .zero 0 0
  | .edgepass p m => memWord 0x247 p .zero m .zero .zero 0 0
  | .bcastMin p a sgn j =>
    laneWord 0x248 p .zero a .zero .zero (if sgn then Ty.s64.code else Ty.n64.code) (0#29 ++ j)
  | .bcastMax p a sgn j =>
    laneWord 0x249 p .zero a .zero .zero (if sgn then Ty.s64.code else Ty.n64.code) (0#29 ++ j)
  | .trap p n => laneWord 0x280 p .zero .zero .zero .zero 0 (0#16 ++ n)
  | .rte => laneWord 0x281 .always .zero .zero .zero .zero 0 0
  | .vsdump m => laneWord 0x282 .always .zero .zero .zero .zero 0 (0#31 ++ bit1 m)
  | .vsload m => laneWord 0x283 .always .zero .zero .zero .zero 0 (0#31 ++ bit1 m)
  | .stepmark => laneWord 0x284 .always .zero .zero .zero .zero 0 0
  | .halt => laneWord 0x285 .always .zero .zero .zero .zero 0 0
  | .sleep p mask => laneWord 0x286 p .zero .zero .zero .zero 0 (0#24 ++ mask)
  | .extwait p m d => waitWord 0x287 p m d 0
  | .gaddReg d a b => uniReg 0x02 d a b
  | .gaddImm d a i => uniImm 0x03 d a i
  | .gaddU2 d a b => uniArith 0x02 d a b
  | .gsubReg d a b => uniReg 0x04 d a b
  | .gsubImm d a i => uniImm 0x05 d a i
  | .gsubU2 d a b => uniArith 0x04 d a b
  | .gmulReg d a b => uniReg 0x06 d a b
  | .gmulImm d a i => uniImm 0x07 d a i
  | .gmulU2 d a b => uniArith 0x06 d a b
  | .gshlReg d a b => uniReg 0x08 d a b
  | .gshlImm d a i => uniImm 0x09 d a i
  | .gshlU2 d a b => uniArith 0x08 d a b
  | .gshrReg d a b => uniReg 0x0A d a b
  | .gshrImm d a i => uniImm 0x0B d a i
  | .gshrU2 d a b => uniArith 0x0A d a b
  | .gandReg d a b => uniReg 0x0C d a b
  | .gandImm d a i => uniImm 0x0D d a i
  | .gandU2 d a b => uniArith 0x0C d a b
  | .gorReg d a b => uniReg 0x0E d a b
  | .gorImm d a i => uniImm 0x0F d a i
  | .gorU2 d a b => uniArith 0x0E d a b
  | .gxorReg d a b => uniReg 0x10 d a b
  | .gxorImm d a i => uniImm 0x11 d a i
  | .gxorU2 d a b => uniArith 0x10 d a b
  | .gcmp d a b cond => uniArith 0x14 d a b cond.code
  | .gmov d a => uniImm 0x12 d a 0
  | .gli d i => uniImm 0x13 d 0 i
  | .gliU2 d i => uniWide 0x13 d 0 0 0 i
  | .gliHi d i => uniWide 0x13 d 0 0 1 i
  | .gbr a cond disp => uniWide 0x20 0 a 0 cond.code disp
  | .gld d base sx space size win off => uniWide 0x24 d base (0#5 ++ bit1 sx) (space ++ size) (win ++ off)
  | .gst base b space size win off => uniWide 0x25 0 base b (space ++ size) (win ++ off)
  | .setfmt a => uniImm 0x28 0 a 0
  | .setfmtImm i => uniWide 0x28 0 0 0 0 i
  | .setfmtM a mask => uniWide 0x28 0 a 0 1 mask
  | .setprio a i => uniImm 0x29 0 a i
  | .setprioW a i => uniWide 0x29 0 a 0 0 i
  | .sread d sel => uniImm 0x2A d 0 sel
  | .sreadU2 d sel => uniWide 0x2A d 0 0 0 (0#22 ++ sel)
  | .sreadLane d sel => uniWide 0x2A 0 0 0 1 (0#10 ++ sel ++ d.uses ++ d.name)
  | .swrite a sel => uniImm 0x2B 0 a sel
  | .capq d n => uniImm 0x2C d 0 n
  | .capqReg d a => uniWide 0x2C d a 0 1 0
  | .capqW d n => uniWide 0x2C d 0 0 0 n
  | _ => none

/-- The parcels of an instruction; an event has none. -/
def encode (i : Instr) : List Word32 :=
  match encodeRaw i with
  | some r => r.parcels
  | none => []

/-! ### Reading -/

namespace LWord

/-- The predicate field. -/
def pred (w : LWord) : Pred := ⟨w.q, w.neg == 1⟩
/-- The destination field. -/
def dest (w : LWord) : Dst := ⟨w.dst, w.uses⟩
/-- Source A. -/
def srcA (w : LWord) : Src := ⟨w.a, w.ta == 1⟩
/-- Source B. -/
def srcB (w : LWord) : Src := ⟨w.b, w.tb == 1⟩
/-- Source C. -/
def srcC (w : LWord) : Src := ⟨w.c, w.tc == 1⟩
/-- The predicate destination (R70). -/
def predDest (w : LWord) : BitVec 4 := w.dst.extractLsb' 0 4
/-- Bits 55:36 (R111). -/
def join (w : LWord) : BitVec 20 := w.b ++ w.tb ++ w.c ++ w.tc
/-- The modifier bits of R89. -/
def mods (w : LWord) : BitVec 6 := w.imm.extractLsb' 24 6
/-- The modifier bits of the memory shape (R73). -/
def memMods (w : LWord) : BitVec 6 := w.imm.extractLsb' 12 6
/-- The mask register of a cross-lane word (R125). -/
def mask (w : LWord) : BitVec 6 := w.imm.extractLsb' 26 6

/-- A type of the table of R71. -/
def type (w : LWord) : Option Ty := if w.ty = 15 then none else Ty.ofCode w.ty 0

/-- A type with its extension in bits 31:28 (R72). -/
def typeExt (w : LWord) : Option Ty := Ty.ofCode w.ty (w.imm.extractLsb' 28 4)

/-- A second type in bits 27:24, with its extension in bits 23:20 (R104). -/
def srcType (w : LWord) : Option Ty := Ty.ofCode (w.imm.extractLsb' 24 4) (w.imm.extractLsb' 20 4)

/-- A second type in bits 27:24 that has no extension (R105, R107). -/
def srcTypePlain (w : LWord) : Option Ty :=
  if w.imm.extractLsb' 24 4 = 15 then none else Ty.ofCode (w.imm.extractLsb' 24 4) 0

/-- The operand of R89 replacing source B. -/
def opB (w : LWord) : Option OpB := OpB.of (w.imm.extractLsb' 30 2) w.srcB (w.imm.extractLsb' 0 24)

/-- The operand of R89 replacing source A (`mov`). -/
def opA (w : LWord) : Option OpB := OpB.of (w.imm.extractLsb' 30 2) w.srcA (w.imm.extractLsb' 0 24)

/-- The operand of `shfl` (R125). -/
def crossB (w : LWord) : Option OpB := OpB.of (w.imm.extractLsb' 24 2) w.srcB (w.imm.extractLsb' 0 24)

/-- The memory shape (R73). -/
def mem (w : LWord) : Option Mem :=
  match Space.ofCode (w.imm.extractLsb' 23 3) with
  | some sp =>
    some { base := w.imm.extractLsb' 26 6, space := sp, win := w.imm.extractLsb' 19 4,
           idx := if w.imm.extractLsb' 18 1 = 1 then some w.srcA else none, off := w.imm.extractLsb' 0 12 }
  | none => none

/-- A two-operand word of the integer or floating shape. -/
def two (w : LWord) (k : Pred → Dst → Src → OpB → Ty → Instr) : Option Instr :=
  match w.opB, w.type with
  | some b, some t => some (k w.pred w.dest w.srcA b t)
  | _, _ => none

/-- A three-operand word of the integer or floating shape. -/
def three (w : LWord) (k : Pred → Dst → Src → OpB → Src → Ty → Instr) : Option Instr :=
  match w.opB, w.type with
  | some b, some t => some (k w.pred w.dest w.srcA b w.srcC t)
  | _, _ => none

/-- A one-operand word. -/
def one (w : LWord) (k : Pred → Dst → Src → Ty → Instr) : Option Instr :=
  match w.type with
  | some t => some (k w.pred w.dest w.srcA t)
  | none => none

/-- A word of the memory shape. -/
def onMem (w : LWord) (k : Mem → Instr) : Option Instr :=
  match w.mem with
  | some m => some (k m)
  | none => none

/-- A wait-like word: the type says whether there is a destination. -/
def optDest (w : LWord) : Option Dst := if w.ty = Ty.n32.code then some w.dest else none

/-- The instruction of a format-L word, read by its opcode; the checks come after. -/
def parse (w : LWord) : Option Instr :=
  match w.op.toNat with
  | 0x000 => w.two fun p d a b t => .add p d a b t (w.imm.getLsbD 24)
  | 0x001 => w.two fun p d a b t => .sub p d a b t (w.imm.getLsbD 24)
  | 0x002 => w.two .mul
  | 0x003 => w.two .mulhi
  | 0x004 => w.three .mad
  | 0x005 => w.three .madhi
  | 0x006 => w.two .div
  | 0x007 => w.two .rem
  | 0x008 => w.one .neg
  | 0x009 => w.one .abs
  | 0x00A => w.two .min
  | 0x00B => w.two .max
  | 0x00C => w.two .shl
  | 0x00D => w.two .shr
  | 0x00E => w.two .sar
  | 0x00F => w.two .rot
  | 0x010 => w.two .and
  | 0x011 => w.two .or
  | 0x012 => w.two .xor
  | 0x013 => w.two .andn
  | 0x014 => w.one .not
  | 0x015 => w.two .bfe
  | 0x016 => w.three .bfi
  | 0x017 => w.one .pop
  | 0x018 => w.one .clz
  | 0x019 => w.one .ctz
  | 0x01A => w.one .brev
  | 0x01B => w.two fun p d a b t => .lea p d a b t (w.imm.extractLsb' 24 3)
  | 0x01C => match w.opA, w.type with
    | some a, some t => some (.mov w.pred w.dest a t)
    | _, _ => none
  | 0x01D => match w.type with
    | some t => some (.movi w.pred w.dest t w.imm)
    | none => none
  | 0x01E => w.three .sel
  | 0x01F => match Cond.ofCode w.mods with
    | some c => w.two fun p _ a b t => .cmp p w.predDest a b t c
    | none => none
  | 0x040 => w.two .fadd
  | 0x041 => w.two .fsub
  | 0x042 => w.two .fmul
  | 0x043 => w.three .fma
  | 0x044 => w.two .fmin
  | 0x045 => w.two .fmax
  | 0x046 => w.one .fabs
  | 0x047 => w.one .fneg
  | 0x048 => match FCond.ofCode w.mods with
    | some c => w.two fun p _ a b t => .fcmp p w.predDest a b t c
    | none => none
  | 0x049 => w.one .fclass
  | 0x04A => w.two .hadd2
  | 0x04B => w.two .hmul2
  | 0x04C => w.three .hfma2
  | 0x080 => w.one .frcp
  | 0x081 => w.one .frsq
  | 0x082 => w.one .fsqrt
  | 0x083 => w.one .fexp2
  | 0x084 => w.one .flog2
  | 0x085 => w.one .fsinpi
  | 0x086 => w.one .fcospi
  | 0x087 => w.one .ftanh
  | 0x0C0 => match w.typeExt, w.srcType with
    | some dt, some st => some (.cvt w.pred w.dest w.srcA dt st (w.imm.getLsbD 19))
    | _, _ => none
  | 0x0C1 => match w.typeExt, w.srcTypePlain with
    | some t, some st => some (.pack w.pred w.dest w.srcA w.srcB w.srcC t st (w.imm.extractLsb' 22 2))
    | _, _ => none
  | 0x0C2 => match w.typeExt with
    | some t => some (.unpack w.pred w.dest w.srcA t (w.imm.extractLsb' 21 3))
    | none => none
  | 0x0C3 => match w.typeExt, w.srcTypePlain with
    | some t, some st => some (.mxq w.pred w.dest w.srcA t st)
    | _, _ => none
  | 0x0C4 => match w.typeExt with
    | some t => some (.mxdq w.pred w.dest w.srcA t)
    | none => none
  | 0x0C5 => match w.typeExt with
    | some t => some (.sp24 w.pred w.dest w.srcA t)
    | none => none
  | 0x100 => some (.voteAny w.pred w.predDest (w.a.extractLsb' 0 4) w.mask)
  | 0x101 => some (.voteAll w.pred w.predDest (w.a.extractLsb' 0 4) w.mask)
  | 0x102 => some (.voteBal w.pred w.dest (w.a.extractLsb' 0 4) w.mask)
  | 0x103 => match w.crossB, w.type with
    | some b, some t => some (.shflIdx w.pred w.dest w.srcA b t w.mask)
    | _, _ => none
  | 0x104 => match w.crossB, w.type with
    | some b, some t => some (.shflUp w.pred w.dest w.srcA b t w.mask)
    | _, _ => none
  | 0x105 => match w.crossB, w.type with
    | some b, some t => some (.shflDn w.pred w.dest w.srcA b t w.mask)
    | _, _ => none
  | 0x106 => match w.crossB, w.type with
    | some b, some t => some (.shflXor w.pred w.dest w.srcA b t w.mask)
    | _, _ => none
  | 0x107 => match RedOp.ofCode (w.imm.extractLsb' 20 4), w.type with
    | some op, some t => some (.red w.pred w.dest w.srcA op t w.mask)
    | _, _ => none
  | 0x108 => match RedOp.ofCode (w.imm.extractLsb' 20 4), w.type with
    | some op, some t => some (.scan w.pred w.dest w.srcA op (w.imm.getLsbD 19) t w.mask)
    | _, _ => none
  | 0x109 => match w.type with
    | some t => some (.topk w.pred w.dest w.srcA w.srcB (w.imm.extractLsb' 0 5) t w.mask)
    | none => none
  | 0x10A => match w.type with
    | some t => some (.matchLanes w.pred w.dest w.srcA t w.mask)
    | none => none
  | 0x140 => some (.br w.pred (w.f == 1) w.join w.imm)
  | 0x141 => some (.call w.pred (w.f == 1) w.dest w.imm)
  | 0x142 => some (.calli w.pred (w.f == 1) w.dest w.srcA)
  | 0x143 => some (.ret (w.f == 1) w.srcA)
  | 0x144 => some (.jmpi w.pred (w.f == 1) (w.dst ++ w.uses) w.srcA w.join w.imm)
  | 0x145 => some (.regang (w.imm.extractLsb' 0 8))
  | 0x146 => some (.exit w.pred)
  | 0x147 => some (.nop w.pred)
  | 0x148 => some (.drop w.pred w.srcA (w.imm.extractLsb' 0 3))
  | 0x149 => some (.free w.pred w.a)
  | 0x14A => some (.patld (w.imm.extractLsb' 6 26))
  | 0x14B => some (.weave w.pred w.dest w.srcA w.srcB w.srcC (w.imm.extractLsb' 4 2) (w.imm.extractLsb' 6 26))
  | 0x180 => match w.mem, w.type with
    | some m, some t => some (.ld w.pred w.dest m (w.imm.extractLsb' 12 2) t)
    | _, _ => none
  | 0x181 => match w.mem, w.type with
    | some m, some t => some (.st w.pred m w.srcB (w.imm.extractLsb' 12 2) t)
    | _, _ => none
  | 0x182 => match w.mem, w.type, AtomOp.ofCode (w.imm.extractLsb' 14 4) with
    | some m, some t, some op =>
      some (.atom w.pred w.dest m w.srcB w.srcC op (Order.ofCode (w.imm.extractLsb' 12 2)) t)
    | _, _, _ => none
  | 0x183 => match Scope.ofCode (w.imm.extractLsb' 0 3) with
    | some sc => some (.fence sc)
    | none => none
  | 0x1C0 => w.onMem (.tmove w.pred)
  | 0x1C1 => w.onMem (.tgath w.pred)
  | 0x1C2 => w.onMem (.tscat w.pred)
  | 0x1C3 => w.onMem fun m =>
      .gatom w.pred m (if w.imm.getLsbD 12 then some (w.dest, w.ty == Ty.b64.code) else none)
  | 0x1C4 => w.onMem fun m =>
      .wopen w.pred m (w.imm.extractLsb' 14 4) (w.imm.getLsbD 13) (w.imm.getLsbD 12)
  | 0x1C5 => w.onMem fun m => .wflush w.pred m (w.imm.extractLsb' 14 4)
  | 0x1C6 => w.onMem fun m => .wclose w.pred m (w.imm.extractLsb' 14 4)
  | 0x1C7 => w.onMem fun m => .bobj w.pred m w.srcB (w.ty == Ty.n64.code) (w.imm.getLsbD 12)
  | 0x1C8 => w.onMem fun m => .arrive w.pred m (w.imm.getLsbD 16) (w.imm.extractLsb' 12 4)
  | 0x1C9 => w.onMem fun m => .wait w.pred m w.optDest
  | 0x1CA => w.onMem fun m => .yieldon w.pred m w.join
  | 0x1CB => some .bar
  | 0x1CC => some .pbar
  | 0x200 =>
    if w.imm.getLsbD 31 then some (.mzeroRel w.pred)
    else match (w.imm.extractLsb' 29 2).toNat with
      | 0 => some (.mzero w.pred (.imm (w.imm.extractLsb' 0 16)))
      | 1 => some (.mzero w.pred (.ureg (w.imm.extractLsb' 0 6)))
      | _ => none
  | 0x201 => some (.mpair w.pred (w.f == 1) w.srcA w.srcB (w.imm.extractLsb' 26 6) (w.imm.extractLsb' 0 12))
  | 0x202 => w.onMem fun m => if w.imm.getLsbD 12 then .mdrainNames w.pred w.dest m else .mdrainMemory w.pred m
  | 0x203 => w.onMem (.mstadd w.pred)
  | 0x240 =>
    some (.spawn w.pred w.predDest w.srcA w.join (w.imm.extractLsb' 26 6) (w.imm.extractLsb' 23 3)
      (w.imm.extractLsb' 20 3) (w.imm.getLsbD 19) (w.imm.getLsbD 18) (w.imm.extractLsb' 0 16))
  | 0x241 => w.onMem fun m => .jinit w.pred m (w.imm.getLsbD 12)
  | 0x242 => w.onMem fun m => .jwait w.pred m (w.imm.getLsbD 12) w.optDest
  | 0x243 => w.onMem (.edgeseed w.pred)
  | 0x244 => w.onMem (.edgechk w.pred)
  | 0x245 => w.onMem (.edgewait w.pred)
  | 0x246 => w.onMem (.edgeflip w.pred)
  | 0x247 => w.onMem (.edgepass w.pred)
  | 0x248 => some (.bcastMin w.pred w.srcA (w.ty == Ty.s64.code) (w.imm.extractLsb' 0 3))
  | 0x249 => some (.bcastMax w.pred w.srcA (w.ty == Ty.s64.code) (w.imm.extractLsb' 0 3))
  | 0x280 => some (.trap w.pred (w.imm.extractLsb' 0 16))
  | 0x281 => some .rte
  | 0x282 => some (.vsdump (w.imm.getLsbD 0))
  | 0x283 => some (.vsload (w.imm.getLsbD 0))
  | 0x284 => some .stepmark
  | 0x285 => some .halt
  | 0x286 => some (.sleep w.pred (w.imm.extractLsb' 0 8))
  | 0x287 => w.onMem fun m => .extwait w.pred m w.optDest
  | _ => none

end LWord

/-- Source B of the register form of format U. -/
def UWord.regB (w : UWord) : BitVec 6 := w.imm.extractLsb' 0 6

/-- The instruction of a format-U word (R80, R85). -/
def UWord.parse (w : UWord) : Option Instr :=
  match w.op.toNat with
  | 0x02 => some (.gaddReg w.d w.a w.regB)
  | 0x03 => some (.gaddImm w.d w.a w.imm)
  | 0x04 => some (.gsubReg w.d w.a w.regB)
  | 0x05 => some (.gsubImm w.d w.a w.imm)
  | 0x06 => some (.gmulReg w.d w.a w.regB)
  | 0x07 => some (.gmulImm w.d w.a w.imm)
  | 0x08 => some (.gshlReg w.d w.a w.regB)
  | 0x09 => some (.gshlImm w.d w.a w.imm)
  | 0x0A => some (.gshrReg w.d w.a w.regB)
  | 0x0B => some (.gshrImm w.d w.a w.imm)
  | 0x0C => some (.gandReg w.d w.a w.regB)
  | 0x0D => some (.gandImm w.d w.a w.imm)
  | 0x0E => some (.gorReg w.d w.a w.regB)
  | 0x0F => some (.gorImm w.d w.a w.imm)
  | 0x10 => some (.gxorReg w.d w.a w.regB)
  | 0x11 => some (.gxorImm w.d w.a w.imm)
  | 0x12 => some (.gmov w.d w.a)
  | 0x13 => some (.gli w.d w.imm)
  | 0x28 => some (.setfmt w.a)
  | 0x29 => some (.setprio w.a w.imm)
  | 0x2A => some (.sread w.d w.imm)
  | 0x2B => some (.swrite w.a w.imm)
  | 0x2C => some (.capq w.d w.imm)
  | _ => none

/-- The instruction of a format-U2 word (R80, R85). -/
def U2Word.parse (w : U2Word) : Option Instr :=
  match w.op.toNat with
  | 0x02 => some (.gaddU2 w.d w.a (.reg w.b))
  | 0x03 => some (.gaddU2 w.d w.a (.imm w.imm))
  | 0x04 => some (.gsubU2 w.d w.a (.reg w.b))
  | 0x05 => some (.gsubU2 w.d w.a (.imm w.imm))
  | 0x06 => some (.gmulU2 w.d w.a (.reg w.b))
  | 0x07 => some (.gmulU2 w.d w.a (.imm w.imm))
  | 0x08 => some (.gshlU2 w.d w.a (.reg w.b))
  | 0x09 => some (.gshlU2 w.d w.a (.imm w.imm))
  | 0x0A => some (.gshrU2 w.d w.a (.reg w.b))
  | 0x0B => some (.gshrU2 w.d w.a (.imm w.imm))
  | 0x0C => some (.gandU2 w.d w.a (.reg w.b))
  | 0x0D => some (.gandU2 w.d w.a (.imm w.imm))
  | 0x0E => some (.gorU2 w.d w.a (.reg w.b))
  | 0x0F => some (.gorU2 w.d w.a (.imm w.imm))
  | 0x10 => some (.gxorU2 w.d w.a (.reg w.b))
  | 0x11 => some (.gxorU2 w.d w.a (.imm w.imm))
  | 0x13 => if w.mods = 1 then some (.gliHi w.d w.imm) else some (.gliU2 w.d w.imm)
  | 0x14 => match UCond.ofCode w.mods with
    | some c => some (.gcmp w.d w.a (.reg w.b) c)
    | none => none
  | 0x15 => match UCond.ofCode w.mods with
    | some c => some (.gcmp w.d w.a (.imm w.imm) c)
    | none => none
  | 0x20 => match GCond.ofCode w.mods with
    | some c => some (.gbr w.a c w.imm)
    | none => none
  | 0x24 =>
    some (.gld w.d w.a (w.b.getLsbD 0) (w.mods.extractLsb' 2 2) (w.mods.extractLsb' 0 2) (w.imm.extractLsb' 28 4)
      (w.imm.extractLsb' 0 28))
  | 0x25 =>
    some (.gst w.a w.b (w.mods.extractLsb' 2 2) (w.mods.extractLsb' 0 2) (w.imm.extractLsb' 28 4)
      (w.imm.extractLsb' 0 28))
  | 0x28 => if w.mods = 1 then some (.setfmtM w.a w.imm) else some (.setfmtImm w.imm)
  | 0x29 => some (.setprioW w.a w.imm)
  | 0x2A =>
    if w.mods = 1 then
      some (.sreadLane ⟨w.imm.extractLsb' 0 9, w.imm.extractLsb' 9 3⟩ (w.imm.extractLsb' 12 10))
    else some (.sreadU2 w.d (w.imm.extractLsb' 0 10))
  | 0x2C => if w.mods = 1 then some (.capqReg w.d w.a) else some (.capqW w.d w.imm)
  | _ => none

/-- The instruction of a fetched word, before the checks. -/
def parseRaw : Raw → Option Instr
  | .u w => w.parse
  | .u2 w => w.parse
  | .l w => w.parse
  | .lp x y => some (.lanePair x y)

/-! ### The checks of R87 -/

/-- The check of R87 that an encoding fails. -/
inductive Reject where
  /-- Check 1: the instruction does not fit the code section. -/
  | length
  /-- Check 2: a reserved opcode, or an unassigned half of a pair. -/
  | opcode
  /-- Check 3: the pairing restrictions. -/
  | pair
  /-- Check 4: a class-restricted cell outside privileged state. -/
  | privilege
  /-- Check 5: fields, types, operand shapes, the entry's own rules. -/
  | fields
deriving DecidableEq, Repr

/-- Check 2. -/
def Raw.assigned : Raw → Bool
  | .u w => uniformAssigned w.op
  | .u2 w => uniformAssigned w.op
  | .l w => laneAssigned w.op
  | .lp x y => pairAssigned x y

/-- Check 3. -/
def Raw.paired : Raw → Bool
  | .lp x y => pairAllowed x y
  | _ => true

/-- Checks 2 to 5 of R87, in their order. -/
def decodeRaw (priv : Bool) (r : Raw) : Except Reject Instr :=
  if r.assigned = false then .error .opcode
  else if r.paired = false then .error .pair
  else if r.restricted && !priv then .error .privilege
  else match parseRaw r with
    | some i => if wellFormed i && decide (encodeRaw i = some r) then .ok i else .error .fields
    | none => .error .fields

/-- A fetched instruction: the four checks on the parcels, and its length in bytes. Too few parcels fail check 1. -/
def decodeParcels (priv : Bool) (ps : List Word32) : Except Reject (Instr × Nat) :=
  match ps with
  | [] => .error .length
  | p :: _ =>
    match Raw.ofParcels ps with
    | none => .error .length
    | some r =>
      match decodeRaw priv r with
      | .ok i => .ok (i, 4 * parcelCount p)
      | .error e => .error e

/-- The little-endian parcels of a byte string; a last incomplete parcel is dropped. -/
def parcelsOf : List Byte → List Word32
  | a :: b :: c :: d :: rest => (d ++ c ++ b ++ a) :: parcelsOf rest
  | _ => []

/-- Decoding of any bytes. -/
def decode (priv : Bool) (bytes : List Byte) : Except Reject (Instr × Nat) := decodeParcels priv (parcelsOf bytes)

/-- The bytes of a parcel, lowest address first (R68). -/
def parcelBytes (p : Word32) : List Byte :=
  [p.extractLsb' 0 8, p.extractLsb' 8 8, p.extractLsb' 16 8, p.extractLsb' 24 8]

/-- The bytes of an instruction in memory. -/
def encodeBytes (i : Instr) : List Byte := (encode i).flatMap parcelBytes

/-- The `k`-th 32-bit word of a table word. -/
def tableWord (w k : Nat) : Word32 := BitVec.ofNat 32 (w / 2 ^ (32 * k))

/-- The table word as the three parcels the fetch would find: bits 31:0 are the first word, and the bits above `nbits` are 0. -/
def tableParcels (nbits w : Nat) : List Word32 :=
  let v := w % 2 ^ nbits
  [tableWord v 0, tableWord v 1, tableWord v 2]

/-- The instruction of a word of the opcode table, as the decoder reads it in privileged state. -/
def decodeTableWord (nbits w : Nat) : Option Instr :=
  match decodeParcels true (tableParcels nbits w) with
  | .ok (i, _) => some i
  | .error _ => none

end Sys2Proof
end

