-- ==== Sys2Proof/Config.lean ====
section
/-! DEFINITION. What the spec fixes by number for the part, and the free values: constants with no body, so that nothing
can be proved of the values the spec leaves open. -/

namespace Sys2Proof.Config

/-- A value the spec leaves open (log 4): applied to the counter `State.freeCount`, a fresh one each time. -/
opaque freeValue : Nat → BitVec 64

/-- What a diode reads when it is polled and nothing else says it (R304), in °C: applied to the tick of the poll. -/
opaque freeReading : Nat → Int

/-- Whether a certificate chain and both of its signatures (Ed25519 and ML-DSA-65) verify against the SHA3-384 key digest
it must end in (R349, R360). The algorithms are standards the spec names and does not give (log 5). -/
opaque chainVerifies : List Byte → List Byte → Bool

/-- Whether a firmware stage, signed record or statement verifies under both root keys (R360; log 5). -/
opaque rootVerifies : List Byte → Bool

/-- The version a firmware image carries (R361 does not say where; log 5). -/
opaque imageVersion : List Byte → Nat

/-- SHA3-384 of a byte string (R360; log 5). -/
opaque sha3 : List Byte → List Byte

/-- The bytes of the record in which the device keeps the spare-row map (R342, R361; log 78). -/
opaque spareRecord : List Nat → List Byte

/-- The two signatures of the device's identity keys, derived from its SRAM PUF with the helper data given, over a byte string (R361, R362;
log 5). -/
opaque identitySign : List Byte → List Byte → List Byte

/-- Cells of one value-store section (R137). -/
def sectionCells : Nat := 3072
/-- Group slots of a core (R137). -/
def groupSlots : Nat := 48
/-- Bytes of a core scratchpad (R153). -/
def coreBytes : Nat := 2 ^ 19
/-- Bytes of the cluster SRAM (R3, R154). -/
def sramBytes : Nat := 2 ^ 25
/-- Bytes of the die scratchpad (R314). -/
def dieBytes : Nat := 2 ^ 27
/-- Bytes of one HBM stack (R319). -/
def stackBytes : Nat := 2 ^ 36
/-- Cores of a cluster (R3). -/
def coresPerCluster : Nat := 96
/-- Slots of the copy-engine queue (R167). -/
def engineSlots : Nat := 64
/-- Entries of a fix-up list (R324). -/
def fixupEntries : Nat := 512
/-- Entries of the translation cache (R322). -/
def tlbEntries : Nat := 4096
/-- The launch default quantum in nanoseconds (R148). -/
def defaultQuantum : Nat := 2000000
/-- Bytes of a group's save area (R235). -/
def saveAreaBytes : Nat := 2 ^ 20
/-- Cluster cycles of the gathering timeout (R273). -/
def gatherCycles : Nat := 256

end Sys2Proof.Config
end

