-- ==== Sys2Proof/Machine/State.lean ====
section
/-! DEFINITION. Everything the spec gives the machine, as plain data: lanes, slices and groups (chapter 02), the value store and
the scheduler (07), memories and the copy engine (08), waits (09), the matrix pair (10), trap contexts (11), panels and bounds
(14), spawn queues (15), power, clocks and temperature (17), the die and the package (21, 22), sessions and debug (23, 24). -/

namespace Sys2Proof.Machine

/-- Why the machine could stop. Nothing in the spec stops the machine: every trap is a next state (R227), every engine failure an
error code (R176). The one constructor exists because the interface asks for a type. -/
inductive Fault where
  /-- Raised by nobody; safe. -/
  | never
deriving DecidableEq, Repr

/-- Why an instruction could be turned away. -/
inductive Refusal where
  /-- Raised by an arm of `exec` whose instruction has no meaning yet, and by nothing else; safe: the run stops there. -/
  | notModelled (mnemonic : String)
deriving DecidableEq, Repr

/-- A table of records by number: the first entry of a key counts. -/
abbrev Table (α : Type) := List (Nat × α)

/-- A memory image: bytes by address, addresses rising, no entry 0 (log 3). -/
abbrev Memory := List Host.Cell

/-! ### Slices -/

/-- Why a cell's producer failed (R35): the sub-cause of R242 and the window offset it reports. -/
structure Failure where
  sub : Nat
  offset : Nat
deriving DecidableEq, Repr

/-- A value-store cell bound to a name of a slice (R34). -/
structure Cell where
  data : Quad Word32 := .all 0
  count : Quad (BitVec 3) := .all 0
  pin : Quad Bool := .all false
  full : Bool := true
  failed : Option Failure := none
  /-- written out to the spill area (R144) -/
  spilled : Bool := false
  /-- its write to the spill area is under way (R145), for this group and slice (none: VS_LIMIT was lowered, R138) -/
  spilling : Bool := false
  spillFor : Option (Nat × Nat) := none
  /-- when it was allocated or refilled (R145) -/
  stamp : Nat := 0
  /-- the instruction that will fill it: a lane load, an atomic, a drain or an engine result (R37); 0 for none -/
  producer : Nat := 0
deriving DecidableEq, Repr

/-- An entry of a reconvergence stack (R43). -/
structure StackEntry where
  addr : Word32
  mask : BitVec 4
  fmt : BitVec 24
deriving DecidableEq, Repr

/-- A spawned lane's nesting depth and join counter (R264). -/
structure Spawned where
  depth : Nat := 0
  join : Option Nat := none
deriving DecidableEq, Repr

/-- A slice (R29). -/
structure Slice where
  pc : Word32 := 0
  mask : BitVec 4 := 0xF
  exited : BitVec 4 := 0
  gang : BitVec 3 := 0
  fmt : Word32 := 0
  fflags : Word32 := 0
  /-- top first (R43) -/
  stack : List StackEntry := []
  /-- entries below the mark set at trap entry (R229) -/
  mark : Nat := 0
  /-- raises granted, top first; the last is the base entry (R147) -/
  floors : List Nat := [0]
  names : Table Cell := []
  preds : Quad (BitVec 16) := .all 1
  /-- names whose refilled data the operand collector holds (R144) -/
  latched : List Nat := []
  /-- arrivals that still count toward a phase: `bar`, `pbar`, `stepmark` (R189, R231, R240, R255) -/
  atBar : Bool := false
  atPbar : Bool := false
  atStep : Bool := false
  spawned : Quad Spawned := .all {}
deriving DecidableEq, Repr

/-! ### Waits (R124) -/

/-- An object or counter that a gang waits on (R183, R271): where the program named it, the lanes naming it (one bit per
`%lane`), whether it has released the gang, and what it delivers. -/
structure WaitItem where
  space : Space
  addr : Nat
  lanes : Word32
  released : Bool := false
  value : Nat := 0
deriving DecidableEq, Repr

/-- An edge of a waiting task list (R289): its `clu` address, the list's task and header address, and whether it was seen. -/
structure EdgeItem where
  addr : Nat
  task : Nat
  list : Nat
  seen : Bool := false
deriving DecidableEq, Repr

/-- What slices wait for. -/
inductive WaitKind where
  | regang (tag : BitVec 8)
  /-- not issued: the gang has reached a cross-lane instruction whose other slices have not; its member mask as it was read then, and
  whether an exit has since left nobody to wait for (R126) -/
  | rendezvous (members : Word32) (go : Bool)
  | bar
  | pbar
  | stepmark
  /-- `wait`, `extwait`, `yieldon` (without destination) and `jwait` (R187, R188, R271) -/
  | objects (items : List WaitItem) (dst : Option Dst) (join ext : Bool)
  /-- `edgewait` and `edgepass` (R289) -/
  | edges (items : List EdgeItem) (pass : Bool)
  | sleep (codes : BitVec 8)
  /-- a floor raise that does not fit yet (R147) -/
  | floorRaise (amount : Nat)
  /-- a wait laid aside by a trap whose release has come: it ends as soon as it is resumed (R231, R246), and the slices of a barrier
  so released regroup by PC (R115, R189, R255) -/
  | over (again : Bool)
deriving DecidableEq, Repr

/-- A wait of some slices of a group: the instruction they wait at (for `yieldon` its continuation), where they continue at the
release, whether a handler issued it, and, for an `edgepass`, its index cells as they stood before its issue, by slice and name: a trap at
its release changes no state before it (R291; log 102). -/
structure GangWait where
  slices : BitVec 8
  pc : Word32
  next : Word32
  kind : WaitKind
  priv : Bool := false
  undo : List (Nat × Nat × Cell) := []
deriving DecidableEq, Repr

/-! ### Groups -/

/-- What the context record's device part keeps of a slice (R236): its stacks, `%fmt` and `%fflags` as they stood at trap entry. -/
structure SliceDevice where
  stack : List StackEntry := []
  floors : List Nat := [0]
  fmt : Word32 := 0
  fflags : Word32 := 0
deriving DecidableEq, Repr

/-- The device part of the context record (R236, R245), in the model's own layout (log 33): the slices' parts, `%prio`, `%retired`, whether
the group held the issue of its deterministic launch, and what the registers of the record still await. Pending waits stay in the group,
where releases still reach them. -/
structure Device where
  slices : Oct SliceDevice := .all {}
  prio : BitVec 4 := 0
  retired : Word64 := 0
  holder : Bool := false
  /-- of `g60` to `g63`: those that await a load, and those whose window fill failed (R159, R242, R243) -/
  gpend : List Nat := []
  gfail : Table Failure := []
  /-- slices that waited in a rendezvous, which the trap ended (R369) -/
  met : BitVec 8 := 0
deriving DecidableEq, Repr

/-- The trap context (R229, R236). -/
structure Ctx where
  spc : Oct Word64 := .all 0
  gmap : Word32 := 0
  cause : Word32 := 0
  targ : Word64 := 0
  g60 : Quad Word64 := .all 0
  dev : Device := {}
deriving DecidableEq, Repr

/-- The latch of a group (R212): the `ma` and `mscale` in force, the A words by name and lane, the scale words. -/
structure Latch where
  ma : Nat
  mscale : Nat
  words : List (List Word32)
  scales : List Word32
deriving DecidableEq, Repr

/-- Where a group stands. -/
inductive GroupStatus where
  /-- admitted, not yet eligible to issue (R139), or waiting for its payload (R265) -/
  | starting
  | live
  /-- its save routine has ended with `halt` (R238) -/
  | saved
  /-- stopped by a double trap or a `halt` outside a save routine (R229, R239) -/
  | stopped
  /-- every slice is dead; its team still holds its slot and reservation (R139) -/
  | retired
  /-- it has left its core with its saved or parked team (R238, R278) -/
  | away
  /-- its team has retired, or its launch was ended -/
  | gone
deriving DecidableEq, Repr

/-- A group (R29). -/
structure Group where
  part : Nat := 0
  grid : Nat := 0
  panel : Nat := 0
  team : Nat := 0
  /-- the core it resides on, or last resided on -/
  core : Nat := 0
  index : Nat := 0
  slot : Nat := 0
  admission : Nat := 0
  status : GroupStatus := .live
  slices : Oct Slice := .all {}
  /-- g0 to g63 (R39) -/
  gregs : List Word64 := List.replicate 64 0
  prio : BitVec 4 := 0
  retired : Word64 := 0
  priv : Bool := false
  /-- it runs its save routine (R229, R238) -/
  saving : Bool := false
  ctx : Ctx := {}
  /-- byte address of the save area (R235) -/
  area : Nat := 0
  /-- chunks of the die's pool its deep stacks took (R43, R235) -/
  chunks : Nat := 0
  latch : Option Latch := none
  waits : List GangWait := []
  /-- pending requests (R228): the watchdog's machine check, debug stop, pre-emption -/
  wantCheck : Bool := false
  wantDebug : Bool := false
  wantPreempt : Bool := false
  /-- the sub-cause of the pre-emption request (R278, R337) -/
  preemptSub : Nat := 0
  /-- the PC a pre-emption at a step mark resumes at (R337): 12 bytes on -/
  stepDone : Bool := false
  /-- uniform registers waiting for a load (R159) -/
  gpend : List Nat := []
  /-- uniform registers whose window fill failed (R165, R242) -/
  gfail : Table Failure := []
  spawned : Bool := false
  /-- gangs held by a condition decided at issue, by gang number (R140) -/
  held : BitVec 8 := 0
  /-- those so held that are still to be tried in this cycle, or since the last event of a gated core (R150) -/
  heldLast : BitVec 8 := 0
  /-- the spilled source a held gang waits for: slice and name (R144) -/
  wants : List (Nat × Nat) := []
  /-- when each slice's instruction that wants them was chosen (R145) -/
  wantStamps : Table Nat := []
  /-- it released its reservation in `jwait` and has not got it back (R276, R277) -/
  unreserved : Bool := false
  /-- stamps of the latest lane and uniform issue (R141) -/
  laneStamp : Option Nat := none
  uniStamp : Option Nat := none
  /-- it holds the issue of its deterministic launch on its core (R151, R245) -/
  holdsIssue : Bool := false
  /-- issued in this cycle (R33) -/
  issued : Bool := false
  /-- gangs refused for want of tokens in this cycle, by gang number (R299) -/
  refused : BitVec 8 := 0
  /-- it has asked to re-reserve, at this place in its core's order of requests (R277) -/
  rereserve : Option Nat := none
  /-- its payload has not been written in every slice yet (R265) -/
  payload : Bool := false
  /-- its place among the spawned groups formed on its core (R282) -/
  formed : Nat := 0
  /-- by cluster, the place in the bound log up to which it has seen the unit's updates, its own `bcast`s among them (R260) -/
  boundSeen : Table Nat := []
deriving DecidableEq, Repr

/-! ### Windows, teams, panels -/

/-- A 4 KiB segment of a window (R161). -/
structure Segment where
  present : Bool := false
  dirty : Bool := false
  failed : Bool := false
  /-- a fill or a write-back of it is under way -/
  filling : Bool := false
  writing : Bool := false
  /-- the group whose access began the fill, and the number its accesses had reached (R193) -/
  fillFor : Option (Nat × Nat) := none
  /-- its fill or write-back waits on a fix-up entry, a cross-die read or a peer (R324, R330, R358) -/
  asleep : Bool := false
deriving DecidableEq, Repr

/-- A window of a team (R160). -/
structure Window where
  isOpen : Bool := false
  closing : Bool := false
  global : Nat := 0
  local_ : Nat := 0
  length : Nat := 0
  readOnly : Bool := false
  segments : List Segment := []
deriving DecidableEq, Repr

/-- Where a team or panel stands. -/
inductive Place where
  | waiting | resident | saving | saved | parked | retired
deriving DecidableEq, Repr

/-- A team (R137 to R139). -/
structure Team where
  part : Nat := 0
  grid : Nat := 0
  panel : Nat := 0
  index : Nat := 0
  core : Nat := 0
  base : Nat := 0
  size : Nat := 0
  status : Place := .waiting
  /-- `bar` phase count (R189) -/
  phase : Word32 := 0
  windows : List Window := List.replicate 16 {}
  /-- scratchpad bytes kept with a saved team (R139, R247) -/
  kept : Memory := []
  /-- end of the current quantum's start on `%gtime` (R148) -/
  quantum : Nat := 0
  spawned : Bool := false
  groups : List Nat := []
  /-- its scratchpad allocation is held (R139, R252) -/
  holds : Bool := false
  /-- it is being parked (R278) -/
  parking : Bool := false
  /-- the group whose save area holds the accumulator image (R225) -/
  image : Option Nat := none
  /-- a debug stop is armed at its next barrier phase (R368) -/
  armed : Bool := false
deriving DecidableEq, Repr

/-- A spawned thread (R264). -/
structure Thread where
  grid : Nat
  panel : Nat
  entry : Word32
  prio : BitVec 4
  depth : Nat
  join : Option Nat
  payload : List Word32
  uses : BitVec 3
deriving DecidableEq, Repr

/-- A panel (R250 to R255). -/
structure Panel where
  part : Nat := 0
  grid : Nat := 0
  index : Nat := 0
  /-- `%die`: the die's index in the grid, logical in deterministic mode (R44, R339) -/
  logical : Nat := 0
  die : Nat := 0
  cluster : Nat := 0
  row : Nat := 0
  col : Nat := 0
  base : Nat := 0
  size : Nat := 0
  status : Place := .waiting
  /-- `pbar` phase count (R255) -/
  phase : Word32 := 0
  teams : List Nat := []
  kept : Memory := []
  /-- admissions of later entries that have passed it over (R317) -/
  passed : Nat := 0
  /-- it has been admitted at least once (R337) -/
  started : Bool := false
  /-- `%gtime` when its quantum started (R253) -/
  quantum : Nat := 0
  /-- threads kept with a saved panel, by the team whose core held them (R281) -/
  threads : List (Nat × Thread) := []
deriving DecidableEq, Repr

/-! ### Grids and partitions -/

/-- A grid: a launch that has been accepted (R336, R352). -/
structure Grid where
  part : Nat := 0
  /-- `%grid` -/
  number : Nat := 0
  cmd : LaunchCmd
  /-- the code section, as it stood at the launch (log 12) -/
  code : Memory := []
  codeSize : Nat := 0
  /-- the partition's dies it runs on now, by logical die number (R336, R339) -/
  dies : List Nat := []
  /-- where the die allocation of each logical die stands, once it is reserved (R315, R339) -/
  dieBases : List (Option Nat) := []
  status : Place := .waiting
  /-- die target of the host (R337, R353) -/
  target : Option Nat := none
  /-- its panels, by `%panel` -/
  panels : List Nat := []
  ended : Bool := false
  /-- since when its context has only waited internally (R196) -/
  stuck : Option Nat := none
  /-- the dies it will have when the change of its die set is complete (R337) -/
  newDies : Option (List Nat) := none
  /-- the launch-table entry that started it (R355) -/
  entry : Option Nat := none
deriving DecidableEq, Repr

/-- A launch-table entry (R354, R355). -/
structure TableEntry where
  first : Nat := 0
  period : Nat := 0
  template : Nat := 0
  overrun : Nat := 0
  enable : Bool := false
  count : Nat := 0
  /-- the grid of the latest launch it has started -/
  previous : Option Nat := none
  /-- the launch it holds (R355) -/
  held : Option LaunchBody := none
  /-- the next slot's number -/
  slot : Nat := 0
deriving DecidableEq, Repr

/-- A partition (R351). -/
structure Partition where
  cfg : PartitionCfg
  handler : Memory := []
  handlerSize : Nat := 0
  nextGrid : Nat := 1
  templates : Table LaunchBody := []
  table : Table TableEntry := []
deriving DecidableEq, Repr

/-! ### Cores, clusters, dies -/

/-- A power reservation of a gang (R299): how often it was refused, and what it has gathered. -/
structure Reservation where
  group : Nat
  gang : Nat
  refused : Nat := 0
  isOpen : Bool := false
  gathered : Nat := 0
  need : Nat := 0
deriving DecidableEq, Repr

/-- What a lane or uniform access does at its bank. -/
inductive FlightOp where
  | load (dst n : Nat) (t : Ty)
  | store (data : Nat)
  /-- with `%fmt` as it stood at issue (R41, R191) -/
  | atom (op : AtomOp) (t : Ty) (b c dst : Nat) (fmt : Word32)
  | gload (d : Nat) (sx : Bool)
  | fence
deriving DecidableEq, Repr

/-- An access that has issued and is not finished (R157, R159, R191, R192): one lane's part of its instruction. -/
structure Flight where
  group : Nat
  slice : Nat := 0
  lane : Nat := 0
  pc : Word32 := 0
  /-- the instruction it belongs to -/
  instr : Nat
  addr : Nat := 0
  size : Nat := 0
  op : FlightOp
  acq : Bool := false
  rel : Bool := false
  /-- the window and offset it goes through (R161) -/
  win : Option (Nat × Nat) := none
  /-- space code and address as the instruction named them -/
  space : Nat := 0
  named : Nat := 0
  /-- a handler issued it -/
  priv : Bool := false
  /-- `%gtime` at its issue (R371) -/
  since : Nat := 0
  performed : Bool := false
  data : Nat := 0
  failed : Option Failure := none
deriving DecidableEq, Repr

/-! ### The copy engine (R166 to R181, R324) -/

/-- The operations of the copy engine's queue. -/
inductive EngineKind where
  | move | gath | scat | gatom | wflush | wclose
deriving DecidableEq, Repr

/-- Where a piece of an operation stands. -/
inductive PieceState where
  | todo
  /-- on the fix-up list (R324) -/
  | skipped
  /-- on its way to or from another die or a peer (R330, R358) -/
  | away
  /-- lost to an uncorrectable error (code 5) or an unresolvable page (code 6) -/
  | lost
  | done
deriving DecidableEq, Repr

/-- A range an operation reads or writes: a global virtual range, or a scratchpad range by its place in memory. -/
structure Piece where
  isGlobal : Bool
  addr : Nat
  len : Nat
  st : PieceState := .todo
  got : List Byte := []
deriving DecidableEq, Repr

/-- A part of an operation that moves as one: a segment of a row, an expanded row, or an element (R324). -/
structure EngineUnit where
  row : Nat
  src : List Piece
  dst : Piece
  /-- what it counts (R171) -/
  count : Nat
deriving DecidableEq, Repr

/-- An operation in a slot of the queue (R167). -/
structure EngineOp where
  kind : EngineKind
  group : Nat
  team : Nat
  slice : Nat := 0
  pc : Word32 := 0
  /-- flights of the group before this number precede it (R195) -/
  mark : Nat := 0
  desc : List Nat := []
  fmt : Word32 := 0
  /-- object: its space and address as named (R168) -/
  objSpace : Space := .core
  objAddr : Nat := 0
  /-- the destination of `gatom` and the lanes that receive it -/
  dst : Option (Dst × Bool) := none
  lanes : Word32 := 0
  instr : Nat := 0
  /-- `%gtime` at its issue (R371) -/
  since : Nat := 0
  win : Nat := 0
  segs : List Nat := []
  started : Bool := false
  units : List EngineUnit := []
  left : Nat := 0
  error : Nat := 0
  /-- a segment of it waits for room on the fix-up list (R324) -/
  stalled : Bool := false
deriving DecidableEq, Repr

/-- An entry of a fix-up list (R324): the queue slot, 64 for what takes no slot (a fill, or a write-back of no `wflush` or `wclose`; R167,
log 94), the virtual page, the row or element index, the byte offset and length in the page. The model's own: `unit` and `piece`, the part
of the operation that waits and which of its sources; `window`, that a segment of a window waits, and whose it is. -/
structure Fixup where
  slot : Nat
  page : Nat
  part : Nat
  unit : Nat := 0
  piece : Nat := 0
  off : Nat
  len : Nat
  /-- 0 read, 1 write, 2 update -/
  access : Nat
  /-- 0 miss, 1 to 5 the fault causes -/
  reason : Nat
  window : Bool := false
  team : Nat := 0
  win : Nat := 0
deriving DecidableEq, Repr

/-! ### The matrix pair (R197 to R226) -/

/-- An accumulator element (R197, R208): residues in the channels c, p, q; class 0 finite, 1 +∞, 2 −∞, 3 NaN. -/
structure Elem where
  c : Nat := 0
  p : Nat := 0
  q : Nat := 0
  cls : Nat := 0
  overflow : Bool := false
  maxs : Int := 0
  count : Nat := 0
deriving DecidableEq, Repr

/-- A queued matrix instruction (R213, R222), in pair order: `mzero`, `mzero.rel` of a team, the steps an `mpair` still has to run
(with its B halves' places and the follower's team, R199), a drain or an add-on-store. `mark`: flights of the group before this number
precede it (R223). -/
inductive MatOp where
  | zero (ea : Int)
  | release (team : Nat)
  | pair (group slice mark : Nat) (fmt : Word32) (words : List (List Word32)) (scales : List Word32) (lead follow team steps : Nat)
  | drain (group slice mark : Nat) (fmt : Word32) (desc : List Nat) (names : Option (Nat × Nat)) (objSpace : Space) (objAddr : Nat)
  | add (group slice mark : Nat) (fmt : Word32) (desc : List Nat) (objSpace : Space) (objAddr : Nat)
deriving DecidableEq, Repr

/-- A gather class of a core (R273): when its latest thread arrived, on `%cycles`, and whether that is 256 cycles past. -/
structure Gather where
  grid : Nat
  panel : Nat
  entry : Word32
  prio : BitVec 4
  last : Nat := 0
  expired : Bool := false
deriving DecidableEq, Repr

/-- A core (R29, R137, R150, R257, R297). -/
structure Core where
  vsLimit : Nat := 3072
  wake : Word32 := 0
  gated : Bool := false
  /-- the lowest code of the events that reached it, gated or just woken, in this cycle; 0 for none (R150) -/
  event : Nat := 0
  /-- the codes of the events that have reached it while its die's clocks stand still (R305) -/
  wakes : BitVec 16 := 0
  tokens : Nat := 0
  reservations : List Reservation := []
  admissions : Nat := 0
  /-- cells granted to a group and slice by a completed spill (R145) -/
  grants : List (Nat × Nat) := []
  /-- keys of the pricking, most recently used first (R135) -/
  pricking : List Nat := []
  /-- stamp counter of allocations and issues -/
  stamp : Nat := 0
  /-- ports that have made their lane and their uniform issue of this cycle (R141) -/
  portLane : BitVec 2 := 0
  portUni : BitVec 2 := 0
  /-- the mirrored bound words, and how far the mirror has followed the cluster's update log (R257, R260) -/
  mirror : List Word64 := List.replicate 8 0x7FFFFFFFFFFFFFFF
  mirrorPos : Nat := 0
  /-- the copy engine: operations by slot, and the fix-up list -/
  engine : Table EngineOp := []
  fixups : List Fixup := []
  /-- the accumulator of the pair this core leads (R197, R198): owner team, anchor, elements by row × 128 + column, queue -/
  owner : Option Nat := none
  anchor : Int := 0
  elems : Table Elem := []
  matrix : List MatOp := []
  /-- the spawn queue, oldest first, how many of it lie in the overflow region, and the gather classes (R272, R273) -/
  threads : List Thread := []
  overflow : Nat := 0
  gathers : List Gather := []
  formations : Nat := 0
  /-- re-reservation requests made so far (R277) -/
  requests : Nat := 0
  /-- lane issues counted for instruction samples (R370) -/
  samples : Nat := 0
deriving DecidableEq, Repr

/-- An update on its way to the bound unit (R259). -/
structure BoundUpdate where
  core : Nat
  group : Nat
  word : Nat
  isMax : Bool
  sgn : Bool
  value : Word64
deriving DecidableEq, Repr

/-- A cluster (R29, R257, R297, R302, R306). -/
structure Cluster where
  cycles : Word64 := 0
  /-- the local copy of `%gtime` (R303) -/
  localTime : Word64 := 0
  gated : Bool := false
  /-- the bound unit: words, updates not yet applied, changes applied in order (R257 to R260) -/
  bounds : List Word64 := List.replicate 8 0x7FFFFFFFFFFFFFFF
  boundQueue : List BoundUpdate := []
  boundLog : List (Nat × Word64) := []
  /-- injection rate in tokens per microsecond, tokens owed in thousandths, entry point of the ring (R297; log 2) -/
  rate : Nat := 518400
  owed : Nat := 0
  entry : Nat := 0
  /-- since when it has been idle (R306) -/
  idle : Option Nat := none
deriving DecidableEq, Repr

/-- An entry of the translation cache (R322): first virtual page, pages covered, first frame, writable. -/
structure TlbEntry where
  page : Nat
  span : Nat
  frame : Nat
  writable : Bool
deriving DecidableEq, Repr

/-- A fault that waits for the host (R326). -/
structure PageFault where
  page : Nat
  access : Nat
  cause : Nat
  since : Nat
deriving DecidableEq, Repr

/-- What an update at a global element does, and who awaits its old value (R175, R329). -/
structure AtomReq where
  op : AtomOp
  t : Ty
  b : Nat
  c : Nat
  fmt : Word32
  core : Nat
  slot : Nat
  part : Nat
  /-- it counts on its object only when it is performed, since its flags must show by then (R65), unless its old value is still to be kept
  -/
  late : Bool := false
deriving DecidableEq, Repr

/-- A cross-die write, or its stamp alone at a die that is not the home (R329); `page`: the virtual page it was translated from. -/
structure Message where
  origin : Nat
  home : Nat
  stamp : List Nat
  addr : Nat := 0
  page : Nat := 0
  bytes : List (Option Byte) := []
  atom : Option AtomReq := none
deriving DecidableEq, Repr

/-- Who awaits remote data: a piece of a unit of an operation, a window segment, or the old value of an element. -/
inductive ReadFor where
  | piece (core slot part src : Nat)
  | fill (team win seg : Nat)
  | old (core slot part : Nat)
  | wrote (core slot part : Nat)
  | wback (team win seg : Nat)
  /-- the entries of a translation table, for a walk (R321) -/
  | walk (die page : Nat)
deriving DecidableEq, Repr

/-- A cross-die read (R330): at its home until it is served, then at its reader with the response's vector. -/
structure CrossRead where
  reader : Nat
  home : Nat
  clock : List Nat
  addr : Nat
  len : Nat
  /-- the virtual page it was translated from -/
  page : Nat := 0
  data : List Byte := []
  owner : ReadFor
  /-- what an element's update does on its core besides the old value, where that core's clock stood still when the home made it: the flags
  it raises, and whether it still counts (R65, R305; log 72) -/
  flags : BitVec 5 := 0
  counts : Bool := false
deriving DecidableEq, Repr

/-- A walk under way (R320, R322): its page, the level and table it has come to, and whether it waits for entries from another die. -/
structure PageWalk where
  page : Nat
  level : Nat := 3
  table : Nat
  asleep : Bool := false
deriving DecidableEq, Repr

/-- A die (R314 to R332). -/
structure Die where
  /-- its clocks are stopped by a thermal trip, and its stacks refresh themselves: an HBM region's diode has tripped (R305) -/
  stopped : Bool := false
  selfRefresh : Bool := false
  /-- launch queue: panels in order of entry within equal `prio` (R316) -/
  queue : List Nat := []
  tlb : List TlbEntry := []
  walks : List PageWalk := []
  faults : List PageFault := []
  clock : List Nat := List.replicate 12 0
  /-- inbound queue in order of arrival (R329) -/
  inbox : List Message := []
  requests : List CrossRead := []
  responses : List CrossRead := []
deriving DecidableEq, Repr

/-- Traffic to a peer that it has not acknowledged (R358). -/
structure PeerRequest where
  part : Nat
  peer : Nat
  remote : Nat
  acc : PeerAccess
  owner : ReadFor
  since : Nat
  /-- the peer's acknowledgement, with its bytes and whether it refuses, while the owner's clock stands still (R305; log 72) -/
  reply : Option (List Byte × Bool) := none
deriving DecidableEq, Repr

/-- An answer to a peer's inbound access (R358). -/
structure PeerReply where
  part : Nat
  peer : Nat
  ok : Bool
  data : List Byte := []
deriving DecidableEq, Repr

/-! ### Package and host -/

/-- A message the device sends (R348): session, sequence number of its own direction, opcode (0x100 for an event), status, body, version 1
and the body's length, which counts the values the model gives a body (log 53). -/
structure Response where
  session : Nat
  seq : Nat
  opcode : Nat
  status : Nat
  body : List Nat := []
  version : Nat := 1
  length : Nat := body.length
  reserved : Nat := 0
deriving DecidableEq, Repr

/-- A session (R349): its target (none: the package), the sequence numbers of the last message taken and sent, the answers that wait for
an earlier command to complete, the sequence numbers of commands taken and not yet executed, and whether it closes with its next answer. -/
structure Session where
  isOpen : Bool := true
  target : Option Nat := none
  seq : Nat := 0
  sent : Nat := 0
  queued : List Response := []
  waiting : List Nat := []
  closing : Bool := false
deriving DecidableEq, Repr

/-- What a command that is not complete waits for: stopped teams (R367, R368), or the segments already translated to a page that
goes to the host (R357; its bytes stand at `addr`) or to pages that were invalidated (R322), named by partition and virtual pages. -/
inductive Awaits where
  | teams (grid panel : Nat) (teams : List Nat)
  | page (part page pages addr len : Nat)
  | segments (part : Nat) (pages : List Nat)
deriving DecidableEq, Repr

/-- A command that is not complete. -/
structure Pending where
  session : Nat
  opcode : Nat
  what : Awaits
deriving DecidableEq, Repr

/-- A command that has arrived at a partition's command unit behind one that is not complete (R349). -/
structure HeldCommand where
  part : Nat
  session : Nat
  seq : Nat
  cmd : Instr
deriving DecidableEq, Repr

/-- A record raised on a core in its present cycle, by a group of port `port` (R370): its fields as offset, bytes and value. -/
structure RaisedRecord where
  core : Nat
  port : Nat
  fields : List (Nat × Nat × Nat)
deriving DecidableEq, Repr

/-- A recording of trace or time-loss records (R370, R371). -/
structure Recording where
  target : DebugTarget
  part : Nat
  base : Nat
  len : Nat
  /-- kinds recorded, one bit each -/
  mask : Nat
  /-- one request in 2^n is sampled, for kind 5 -/
  every : Nat := 0
  /-- requests seen, by core -/
  seen : Table Nat := []
  /-- stretches of 2^16 lane issues of a core that have given their instruction sample, by core (R370) -/
  sampled : Table Nat := []
  /-- the records of the present cycle, written in port order when it ends (R370) -/
  raised : List RaisedRecord := []
  next : Nat := 0
  unread : List Nat := []
  drops : Nat := 0
deriving DecidableEq, Repr

/-- What boot left (R360, R361): the measurement log, whether a failed verification stopped it, and which of the signed records of
package flash, in their order there, were accepted. -/
structure Boot where
  log : List (List Byte) := []
  failed : Bool := false
  version : Nat := 0
  accepted : List Bool := []
deriving DecidableEq, Repr

/-- Corrected errors of a row within the window, oldest first (R341). -/
structure RowErrors where
  times : List Nat := []
  /-- its copy to a spare is under way (R342) -/
  copying : Bool := false
deriving DecidableEq, Repr

/-- Thresholds of a diode class (R304). -/
structure Thresholds where
  warn : Int
  throttle : Int
  trip : Int
  hyst : Int := 5
deriving DecidableEq, Repr

/-- A supply rail's limits (R345, R361), in millivolts and amperes. -/
structure Rail where
  low : Nat
  high : Nat
  amps : Nat
deriving DecidableEq, Repr

/-- The board design record (R345, R361): the allowance it provides in watts, each die's rail limits, and the populated ports. -/
structure Board where
  watts : Nat := 7200
  rails : List (List Rail) := []
  ports : List Nat := List.range 24
deriving DecidableEq, Repr

/-- What the signed records of package flash say, and what the device writes there (R304, R342, R344, R345, R347, R349, R361). They
outlive a reset. -/
structure Flash where
  /-- record 0: thermal thresholds -/
  clusterLimits : Thresholds := ⟨95, 105, 115, 5⟩
  regionLimits : Thresholds := ⟨85, 95, 105, 5⟩
  /-- record 1: the package allowance, in watts -/
  allowance : Nat := 7200
  /-- record 2, of the package: digest of the host key that a package session must prove, and the PTP domain -/
  packageKey : List Byte := []
  domain : Nat := 0
  /-- record 3: the board -/
  board : Board := {}
  /-- the signed records' bytes, in this order, the spare-row map's after them as record 4, and any others; at reset five stand there
  whose bytes the model leaves empty (log 78) -/
  records : List (List Byte) := List.replicate 5 []
  /-- the highest accepted firmware version; none: unprovisioned -/
  sealed_ : Option Nat := none
  /-- record 4, which the device writes: rows redirected to spares -/
  spared : List Nat := []
  /-- helper data of the SRAM PUF, from which the identity keys are derived -/
  helper : List Byte := []
deriving DecidableEq, Repr

/-- Which gang issues: the group and its gang number (the model's own, log 1). -/
structure Issuer where
  group : Nat := 0
  gang : BitVec 3 := 0
deriving DecidableEq, Repr

/-- The machine. -/
structure State where
  powered : Bool := false
  gtime : Word64 := 0
  parts : Table Partition := []
  grids : List Grid := []
  panels : List Panel := []
  teams : List Team := []
  groups : List Group := []
  cores : Table Core := []
  clusters : Table Cluster := []
  dies : Table Die := []
  /-- all of memory: HBM, and above it the core, cluster and die scratchpads (log 6) -/
  mem : Memory := []
  /-- accesses that have issued and are not finished, by number, and the next number (R193) -/
  flights : Table Flight := []
  nextFlight : Nat := 1
  peerTraffic : List PeerRequest := []
  peerReplies : List PeerReply := []
  sessions : List Session := []
  /-- messages dropped by R349, and unreliable packets dropped by R346, by port -/
  drops : Nat := 0
  portDrops : Table Nat := []
  /-- responses and events sent, oldest first (R348) -/
  responses : List Response := []
  /-- host events raised (R365), oldest first -/
  hostEvents : List (List Nat) := []
  pending : List Pending := []
  commands : List HeldCommand := []
  recordings : List Recording := []
  boot : Boot := {}
  /-- thermal states by diode, 0 normal to 3 trip, and the diodes whose latest reading is not below their trip threshold minus the
  hysteresis (R305) -/
  diodes : Table Nat := []
  hot : List Nat := []
  /-- when each diode's next poll is due on `%gtime`; the first comes at 100 µs (R304) -/
  polls : Table Nat := []
  /-- row-activation windows by stack, in ns, as the power manager sets them (R335) -/
  windows : Table Nat := []
  rows : Table RowErrors := []
  /-- the rows that are redirected to spares now: the map of package flash as boot took it, and what has been remapped since (R342) -/
  spared : List Nat := []
  flash : Flash := {}
  /-- `%gtime` of the last synchronisation message, holdover, and whether the time base still slews back from one (R347) -/
  lastSync : Nat := 0
  inHoldover : Bool := false
  relocking : Bool := false
  /-- correction of the time base still to be slewed, the slewing it has earned, in millionths of a nanosecond, and what corrections have
  added to the oscillator's count so far (R303) -/
  correction : Int := 0
  slewCredit : Nat := 0
  offset : Int := 0
  /-- quotes given (R362), oldest first -/
  quotes : List (List Byte) := []
  /-- events still to happen, the next first (log 1) -/
  agenda : List Instr := []
  cur : Issuer := {}
  tick : Nat := 0
  /-- how many free values have been used (log 4) -/
  freeCount : Nat := 0
deriving DecidableEq, Repr

/-- The machine right after reset: power-good is not asserted, nothing exists (R345). -/
def State.reset : State := {}

end Sys2Proof.Machine
end

