-- ==== Sys2Proof/Machine/Ops.lean ====
section
/-! DEFINITION. The named operations over memory, registers and groups that every meaning uses: tables, memory in canonical form,
gangs, the reconvergence stack (R113), taking a trap (R229) and returning from one (R231), payment (R298) and the end of an
issue (R75, R115). -/

namespace Sys2Proof.Machine

/-! ### Tables -/

/-- The record of a key. -/
def tabGet? {α : Type} (t : Table α) (k : Nat) : Option α :=
  match t with
  | [] => none
  | (j, v) :: r => if j = k then some v else tabGet? r k

/-- The record of a key, or the default of an absent one. -/
def tabGet {α : Type} (t : Table α) (d : α) (k : Nat) : α := (tabGet? t k).getD d

/-- The table with the record of a key replaced or added. -/
def tabSet {α : Type} (t : Table α) (k : Nat) (v : α) : Table α :=
  match t with
  | [] => [(k, v)]
  | (j, w) :: r => if j = k then (k, v) :: r else (j, w) :: tabSet r k v

/-- The table without a key. -/
def tabErase {α : Type} (t : Table α) (k : Nat) : Table α := t.filter fun e => e.1 != k

/-! ### Memory (R153, R154, R314, R319) -/

/-- The byte an unlisted address reads as (log 3). -/
def unlistedByte : Byte := 0

/-- One byte of memory. -/
def memRead (m : Memory) (a : Nat) : Byte :=
  match m with
  | [] => unlistedByte
  | (k, v) :: r => if k = a then v else memRead r a

/-- Memory with one byte written, in canonical form again. -/
def memWrite (m : Memory) (a : Nat) (b : Byte) : Memory :=
  match m with
  | [] => if b = unlistedByte then [] else [(a, b)]
  | (k, v) :: r =>
    if a < k then (if b = unlistedByte then (k, v) :: r else (a, b) :: (k, v) :: r)
    else if a = k then (if b = unlistedByte then r else (a, b) :: r)
    else (k, v) :: memWrite r a b

/-- The canonical form: addresses strictly rising from `lo`, no entry equal to an unlisted byte. -/
def wfFrom (lo : Nat) (m : Memory) : Bool :=
  match m with
  | [] => true
  | (k, v) :: r => decide (lo ≤ k) && v != unlistedByte && wfFrom (k + 1) r

/-- The canonical form of memory. -/
def Memory.wf (m : Memory) : Bool := wfFrom 0 m

/-- `n` bytes as a little-endian number (R52). -/
def memReadN (m : Memory) (a n : Nat) : Nat :=
  match n with
  | 0 => 0
  | n + 1 => (memRead m a).toNat + 256 * memReadN m (a + 1) n

/-- The low `n` bytes of a number written little-endian (R52). -/
def memWriteN (m : Memory) (a n v : Nat) : Memory :=
  match n with
  | 0 => m
  | n + 1 => memWriteN (memWrite m a (BitVec.ofNat 8 v)) (a + 1) n (v / 256)

/-- `n` bytes. -/
def memBytes (m : Memory) (a n : Nat) : List Byte :=
  match n with
  | 0 => []
  | n + 1 => memRead m a :: memBytes m (a + 1) n

/-- A byte string written. -/
def memWriteBytes (m : Memory) (a : Nat) (bs : List Byte) : Memory :=
  match bs with
  | [] => m
  | b :: r => memWriteBytes (memWrite m a b) (a + 1) r

/-- The entries of a range, with addresses counted from its start. -/
def memCut (m : Memory) (a n : Nat) : Memory :=
  (m.filter fun e => decide (a ≤ e.1) && decide (e.1 < a + n)).map fun e => (e.1 - a, e.2)

/-- Memory with a range read as 0. -/
def memClear (m : Memory) (a n : Nat) : Memory := m.filter fun e => !(decide (a ≤ e.1) && decide (e.1 < a + n))

/-- Memory with an image written over a cleared range at `a`. -/
def memPaste (m : Memory) (a n : Nat) (img : Memory) : Memory :=
  img.foldl (fun m e => if e.1 < n then memWrite m (a + e.1) e.2 else m) (memClear m a n)

/-! ### Where the memories lie in the one address space (log 6) -/

/-- The base of a core's scratchpad; `core` counts the cores of the package (log 7). -/
def coreMem (core : Nat) : Nat := 2 ^ 44 + core * Config.coreBytes
/-- The base of a cluster's SRAM. -/
def cluMem (cluster : Nat) : Nat := 2 ^ 45 + cluster * Config.sramBytes
/-- The base of a die's scratchpad. -/
def dieMem (die : Nat) : Nat := 2 ^ 46 + die * Config.dieBytes

/-- The cluster of a core of the package. -/
def clusterOfCore (core : Nat) : Nat := core / Config.coresPerCluster
/-- The die of a cluster of the package. -/
def dieOfCluster (cluster : Nat) : Nat := cluster / 2
/-- The die of a core of the package. -/
def dieOfCore (core : Nat) : Nat := dieOfCluster (clusterOfCore core)

/-! ### Records -/

/-- The record of a core. -/
def State.core (s : State) (k : Nat) : Core := tabGet s.cores {} k
/-- The state with a core's record replaced. -/
def State.setCore (s : State) (k : Nat) (c : Core) : State := { s with cores := tabSet s.cores k c }
/-- The record of a cluster. -/
def State.cluster (s : State) (k : Nat) : Cluster := tabGet s.clusters {} k
/-- The state with a cluster's record replaced. -/
def State.setCluster (s : State) (k : Nat) (c : Cluster) : State := { s with clusters := tabSet s.clusters k c }
/-- The record of a die. -/
def State.die (s : State) (k : Nat) : Die := tabGet s.dies {} k
/-- The state with a die's record replaced. -/
def State.setDie (s : State) (k : Nat) (d : Die) : State := { s with dies := tabSet s.dies k d }
/-- A group. -/
def State.group (s : State) (g : Nat) : Option Group := s.groups[g]?
/-- The state with a group changed. -/
def State.modGroup (s : State) (g : Nat) (f : Group → Group) : State := { s with groups := s.groups.modify g f }
/-- A team. -/
def State.team (s : State) (t : Nat) : Team := s.teams[t]?.getD {}
/-- The state with a team changed. -/
def State.modTeam (s : State) (t : Nat) (f : Team → Team) : State := { s with teams := s.teams.modify t f }
/-- A panel. -/
def State.panel (s : State) (p : Nat) : Panel := s.panels[p]?.getD {}
/-- The state with a panel changed. -/
def State.modPanel (s : State) (p : Nat) (f : Panel → Panel) : State := { s with panels := s.panels.modify p f }
/-- The state with a grid changed. -/
def State.modGrid (s : State) (g : Nat) (f : Grid → Grid) : State := { s with grids := s.grids.modify g f }
/-- The state with a core changed. -/
def State.modCore (s : State) (k : Nat) (f : Core → Core) : State := s.setCore k (f (s.core k))
/-- The state with a cluster changed. -/
def State.modCluster (s : State) (k : Nat) (f : Cluster → Cluster) : State := s.setCluster k (f (s.cluster k))
/-- The state with a die changed. -/
def State.modDie (s : State) (k : Nat) (f : Die → Die) : State := s.setDie k (f (s.die k))
/-- The state with its memory replaced. -/
def State.setMem (s : State) (m : Memory) : State := { s with mem := m }
/-- A message of the device to a session, numbered in its own direction (R349). -/
def State.send (s : State) (session opcode status : Nat) (body : List Nat) : State :=
  match s.sessions[session]? with
  | none => s
  | some x =>
    if x.isOpen then
      { s with
        responses := s.responses ++ [{ session := session, seq := x.sent + 1, opcode := opcode, status := status, body := body }]
        sessions := s.sessions.set session { x with sent := x.sent + 1 } }
    else s
/-- A host event raised: it goes to every session bound to the partition concerned; none stands for the package (R365). -/
def State.event (s : State) (part : Option Nat) (e : List Nat) : State :=
  (List.range s.sessions.length).foldl (fun s i =>
    if (s.sessions.getD i {}).target = part then s.send i 0x100 0 e else s) { s with hostEvents := s.hostEvents ++ [e] }
/-- A signed record stood in package flash at boot and was accepted (R360; log 78). -/
def State.recordOk (s : State) (n : Nat) : Bool := s.boot.accepted.getD n false
/-- A free value (log 4) and the state that has used it. -/
def State.free (s : State) : BitVec 64 × State := (Config.freeValue s.freeCount, { s with freeCount := s.freeCount + 1 })

/-! ### Code (R68, R69, R230) -/

/-- The code a group executes: the launch's code section, or the handler image in privileged state (R230). -/
def State.codeOf (s : State) (g : Group) : Memory × Nat :=
  if g.priv then
    match tabGet? s.parts g.part with
    | some p => (p.handler, p.handlerSize)
    | none => ([], 0)
  else
    match s.grids[g.grid]? with
    | some d => (d.code, d.codeSize)
    | none => ([], 0)

/-- A word of a code section. -/
def codeWord (code : Memory) (off : Nat) : Word32 := BitVec.ofNat 32 (memReadN code off 4)

/-- A transfer address that R112 allows: inside the code section, bits 1:0 zero. -/
def targetOk (size : Nat) (a : Word32) : Bool := a.toNat % 4 == 0 && decide (a.toNat + 4 ≤ size)

/-- The instruction at an offset, by the checks of R87. -/
def fetchAt (code : Memory) (size : Nat) (priv : Bool) (pc : Word32) : Except Reject (Instr × Nat) :=
  if targetOk size pc then
    let p := codeWord code pc.toNat
    if pc.toNat + 4 * parcelCount p ≤ size then
      decodeParcels priv [p, codeWord code (pc.toNat + 4), codeWord code (pc.toNat + 8)]
    else .error .length
  else .error .length

/-! ### Slices and gangs (R31, R32) -/

/-- A slice is dead when its four lanes have exited (R32). -/
def Slice.live (sl : Slice) : Bool := sl.exited != 0xF

/-- The live slices of a group. -/
def Group.liveSlices (g : Group) : List Nat := (List.range 8).filter fun i => (g.slices.get i).live

/-- The slices of a gang that issue: live, of that gang number, with an active lane (R31, R229). -/
def Group.gangSlices (g : Group) (gang : BitVec 3) : List Nat :=
  (List.range 8).filter fun i =>
    let sl := g.slices.get i
    sl.live && sl.gang == gang && sl.mask != 0

/-- The group with one slice changed. -/
def Group.modSlice (g : Group) (i : Nat) (f : Slice → Slice) : Group := { g with slices := g.slices.set i (f (g.slices.get i)) }

/-- The group with some slices changed. -/
def Group.modSlices (g : Group) (is : List Nat) (f : Nat → Slice → Slice) : Group :=
  is.foldl (fun g i => g.modSlice i (f i)) g

/-- A set of slices as bits. -/
def sliceBits (is : List Nat) : BitVec 8 := is.foldl (fun b i => b ||| BitVec.ofNat 8 (2 ^ i)) 0

/-- The lanes of a slice on which the predicate holds (R70, R40). -/
def Slice.predMask (sl : Slice) (p : Pred) : BitVec 4 :=
  let b (l : Nat) : Nat := if ((sl.preds.get l).getLsbD p.q.toNat) != p.neg then 2 ^ l else 0
  BitVec.ofNat 4 (b 0 + b 1 + b 2 + b 3)

/-- Active(s, l) of R88 as a mask. -/
def Slice.active (sl : Slice) (p : Pred) : BitVec 4 := sl.mask &&& sl.predMask p

/-- Q(l, n) (R40). -/
def Slice.q (sl : Slice) (l : Nat) (n : BitVec 4) : Bool := n == 0 || (sl.preds.get l).getLsbD n.toNat

/-- SetQ on one lane (R40): q0 ignores writes. -/
def Slice.setQ (sl : Slice) (l : Nat) (n : BitVec 4) (b : Bool) : Slice :=
  if n = 0 then sl
  else
    let w := sl.preds.get l
    let bit : BitVec 16 := BitVec.ofNat 16 (2 ^ n.toNat)
    { sl with preds := sl.preds.set l (if b then w ||| bit else w &&& ~~~bit) }

/-- Raise(s, set) (R42, R64). -/
def Slice.raise (sl : Slice) (f : FlagSet) : Slice := { sl with fflags := sl.fflags ||| f.word }

/-- Flags raised after the issue that caused them: in the slice, and in the record that a save has laid aside, which the slice's state comes
back from (R42, R236, R243). -/
def Group.raiseLate (g : Group) (i : Nat) (f : FlagSet) : Group :=
  let d := g.ctx.dev.slices.get i
  { g.modSlice i fun sl => sl.raise f with
    ctx := { g.ctx with dev := { g.ctx.dev with slices := g.ctx.dev.slices.set i { d with fflags := d.fflags ||| f.word } } } }

/-- G(n) (R39). -/
def Group.g (g : Group) (n : BitVec 6) : Word64 := if n = 0 then 0 else g.gregs.getD n.toNat 0

/-- A list with place `n` replaced; places it lacks read 0. -/
def setReg (l : List Word64) (n : Nat) (x : Word64) : List Word64 :=
  match n with
  | 0 => x :: l.tail
  | n + 1 => l.headD 0 :: setReg l.tail n x

/-- SetG(n, x) (R39); a register that kept no loaded value now holds one. -/
def Group.setG (g : Group) (n : BitVec 6) (x : Word64) : Group :=
  if n = 0 then g else { g with gregs := setReg g.gregs n.toNat x, gfail := tabErase g.gfail n.toNat }

/-! ### Divergence and reconvergence (R113) -/

/-- Diverge of R113. -/
def Slice.diverge (sl : Slice) (run : BitVec 4) (runPC : Word32) (held : BitVec 4) (heldPC j : Word32) : Slice :=
  if held = 0 then { sl with pc := runPC }
  else if run = 0 then { sl with pc := heldPC }
  else
    let fmt := sl.fmt.extractLsb' 0 24
    { sl with stack := ⟨j, 0, fmt⟩ :: ⟨heldPC, held, fmt⟩ :: sl.stack, mask := run, pc := runPC }

/-- `%fmt<23:0>` restored (R43). -/
def Slice.setFmt24 (sl : Slice) (f : BitVec 24) : Slice := { sl with fmt := sl.fmt.extractLsb' 24 8 ++ f }

/-- The loop of Settle (R113), at most `n` turns; only entries above the mark count (R229). -/
def Slice.settleLoop : Nat → Slice → Slice
  | 0, sl => sl
  | n + 1, sl =>
    if sl.stack.length ≤ sl.mark then sl
    else match sl.stack with
      | [] => sl
      | e :: rest =>
        if sl.mask != 0 && sl.pc != e.addr then sl
        else if e.mask != 0 then
          Slice.settleLoop n ({ sl with stack := rest, mask := sl.mask ||| e.mask, pc := e.addr }.setFmt24 e.fmt)
        else match rest with
          | [] => { sl with stack := [] }
          | p :: rest =>
            let stack := if sl.mask != 0 then ⟨e.addr, sl.mask, e.fmt⟩ :: rest else rest
            Slice.settleLoop n ({ sl with stack := stack, mask := p.mask, pc := p.addr }.setFmt24 p.fmt)

/-- Settle of R113. -/
def Slice.settle (sl : Slice) : Slice := Slice.settleLoop (sl.stack.length + 1) sl

/-- The slices of a gang regrouped by PC (R115): each part takes its lowest slice as its number. A slice that waits for a floor
raise parts from one that does not (R147); a wait laid aside by a handler parts nothing in it. -/
def Group.regroup (g : Group) (is : List Nat) : Group :=
  let key (i : Nat) : Word32 × Bool :=
    ((g.slices.get i).pc,
      g.waits.any fun w => w.slices.getLsbD i && w.priv == g.priv && (match w.kind with | .floorRaise _ => true | _ => false))
  let live := is.filter fun i => (g.slices.get i).live
  g.modSlices live fun i sl => { sl with gang := BitVec.ofNat 3 ((live.find? fun j => key j == key i).getD i) }

/-- Every gang parted by PC after its slices have moved; slices of different gangs never rejoin here (R31, R115). -/
def Group.splitGangs (g : Group) : Group :=
  (List.range 8).foldl (fun g' n =>
    g'.regroup ((List.range 8).filter fun i => (g.slices.get i).gang == BitVec.ofNat 3 n)) g

/-! ### The issuing gang -/

/-- What a meaning knows of its issue: the group, its gang and that gang's slices. -/
structure Issue where
  gid : Nat
  g : Group
  gang : BitVec 3
  sls : List Nat
  pc : Word32

/-- A rendezvous that an exit has left with nobody to wait for: its gang issues (R126). -/
def WaitKind.goes : WaitKind → Bool
  | .rendezvous _ go => go
  | _ => false

/-- A gang whose slices wait (R140), other than for a debug or trap stop. -/
def Group.waiting (g : Group) (is : List Nat) : Bool :=
  g.waits.any fun w => !w.kind.goes && is.any fun i => w.slices.getLsbD i && w.priv == g.priv

/-- A group that may issue: live, with no re-reservation asked for (R277), and outside a handler with no request pending (R228). -/
def Group.ready (g : Group) : Bool :=
  g.status == .live && g.rereserve.isNone && (g.priv || !(g.wantCheck || g.wantDebug || g.wantPreempt))

/-- The gang that issues now: that of `cur`, when its group is live and not stopped and the gang does not wait. -/
def issueOf (s : State) : Option Issue :=
  match s.group s.cur.group with
  | none => none
  | some g =>
    let is := g.gangSlices s.cur.gang
    match is with
    | [] => none
    | i :: _ =>
      if g.ready && !g.waiting is then
        some ⟨s.cur.group, g, s.cur.gang, is, (g.slices.get i).pc⟩
      else none

/-- The lowest active lane of the gang, as its slice and its lane in the slice. -/
def Issue.lowest (c : Issue) : Nat × Nat :=
  match c.sls with
  | [] => (0, 0)
  | i :: _ =>
    let m := (c.g.slices.get i).mask
    (i, ((List.range 4).find? fun l => m.getLsbD l).getD 0)

/-! ### Payment (R298, R299) -/

/-- The core's record after the gang pays a lane instruction: what it has set aside and the pool together lose the price; its
reservation and its refusal count end. -/
def Core.pay (c : Core) (gid : Nat) (gang : Nat) (price : Nat) : Core :=
  let mine (r : Reservation) : Bool := r.group == gid && r.gang == gang
  let rest := c.reservations.filter fun r => !mine r
  match c.reservations.find? mine with
  | some r =>
    { c with tokens := c.tokens + r.gathered - price, reservations := rest }
  | none => { c with tokens := c.tokens - price }

/-- Tokens a core holds: its pool and what is set aside (R297). -/
def Core.holding (k : Core) : Nat := k.tokens + (k.reservations.map fun r => r.gathered).sum

/-- An instruction that traps after its issue has paid nothing (R298): its price returns, within the 256 tokens a core may hold. -/
def Core.refund (c : Core) (price : Nat) : Core := { c with tokens := c.tokens + min price (256 - c.holding) }

/-- A trap or a pre-emption closes the group's reservations (R299). -/
def Core.closeReservations (c : Core) (gid : Nat) : Core :=
  { c with
    tokens := c.tokens + ((c.reservations.filter fun r => r.group == gid).map fun r => r.gathered).sum
    reservations := c.reservations.map fun r => if r.group = gid then { r with isOpen := false, gathered := 0, need := 0 } else r }

/-! ### Trace and time-loss records (R370, R371) -/

/-- Whether a recording covers a group (R366). -/
def Recording.covers (r : Recording) (s : State) (g : Group) : Bool :=
  r.part == g.part && (match s.grids[g.grid]? with | some d => d.number == r.target.grid | none => false) &&
    (s.panel g.panel).index == r.target.panel && (r.target.whole || (s.team g.team).index == r.target.team)

/-- The fields every record holds (R370), as offset, bytes and value. -/
def recordFields (s : State) (g : Group) (kind slice : Nat) (pc : Word32) : List (Nat × Nat × Nat) :=
  [(0, 1, kind), (1, 1, (s.panel g.panel).logical), (2, 1, clusterOfCore g.core % 2), (3, 1, g.core % Config.coresPerCluster),
   (4, 4, match s.grids[g.grid]? with | some d => d.number | none => 0), (8, 4, (s.panel g.panel).index),
   (12, 4, (s.team g.team).index), (16, 1, g.index), (17, 1, slice), (20, 4, (s.team g.team).phase.toNat),
   (24, 4, (s.panel g.panel).phase.toNat), (28, 4, pc.toNat),
   (32, 8, (s.cluster (clusterOfCore g.core)).localTime.toNat)]

/-- One record written to a recording's buffer, or dropped when its place holds one not yet read (R370). -/
def Recording.put (r : Recording) (m : Memory) (fields : List (Nat × Nat × Nat)) : Recording × Memory :=
  let slots := r.len / 64
  if slots = 0 then (r, m)
  else
    let i := r.next % slots
    if r.unread.contains i then ({ r with drops := r.drops + 1 }, m)
    else
      let a := r.base + 64 * i
      ({ r with next := i + 1, unread := r.unread ++ [i] },
        fields.foldl (fun m f => memWriteN m (a + f.1) f.2.1 f.2.2) (memClear m a 64))

/-- A record of a group raised in its core's present cycle. -/
def Recording.raise (r : Recording) (g : Group) (fields : List (Nat × Nat × Nat)) : Recording :=
  { r with raised := r.raised ++ [⟨g.core, g.slot % 2, fields⟩] }

/-- The records raised on some cores in the cycle that ends are written, those of port 0 first (R370). -/
def Recording.write (r : Recording) (m : Memory) (mine : Nat → Bool) : Recording × Memory :=
  let now := r.raised.filter fun x => mine x.core
  ((now.filter fun x => x.port == 0) ++ now.filter fun x => x.port != 0).foldl (fun x y => x.1.put x.2 y.fields)
    ({ r with raised := r.raised.filter fun x => !mine x.core }, m)

/-- Every recording's records of some cores written. -/
def State.writeRecords (s : State) (mine : Nat → Bool) : State :=
  let x := s.recordings.foldl (fun (x : List Recording × Memory) r =>
    let y := r.write x.2 mine
    (x.1 ++ [y.1], y.2)) ([], s.mem)
  { s with recordings := x.1, mem := x.2 }

/-- A record raised in the recordings chosen that cover the group and record its kind (R370). -/
def State.recordTo (s : State) (sel : Recording → Bool) (gid kind slice : Nat) (pc : Word32) (extra : List (Nat × Nat × Nat)) : State :=
  match s.group gid with
  | none => s
  | some g =>
    { s with recordings := s.recordings.map fun r =>
        if r.covers s g && r.mask.testBit kind && sel r then r.raise g (recordFields s g kind slice pc ++ extra) else r }

/-- A record raised in every recording that covers the group and records its kind (R370). -/
def State.record (s : State) (gid kind slice : Nat) (pc : Word32) (extra : List (Nat × Nat × Nat)) : State :=
  s.recordTo (fun _ => true) gid kind slice pc extra

/-! ### The slices of a wait (R124) -/

/-- The slices of a wait. -/
def GangWait.list (w : GangWait) : List Nat := (List.range 8).filter fun i => w.slices.getLsbD i

/-- A slice with no active and no held lane is dead (R113). -/
def Slice.bury (sl : Slice) : Slice :=
  if sl.mask == 0 && sl.stack.isEmpty then { sl with exited := 0xF, names := [] } else sl

/-- The slices of a wait continue (R124): at `next`, settled, which in a handler ends none (R113, R229). -/
def Group.release (g : Group) (w : GangWait) : Group :=
  g.modSlices w.list fun _ sl =>
    let sl := ({ sl with pc := w.next, latched := [] } : Slice).settle
    if g.priv then sl else sl.bury

/-- The waits of a group that a release reaches: those of its present state of privilege end at once, those laid aside by a trap end
when they are resumed (R124, R229, R246). -/
def Group.endWaits (g : Group) (sel : WaitKind → Bool) (again : Bool) : Group :=
  let here (w : GangWait) : Bool := sel w.kind && w.priv == g.priv && g.status == .live
  let out := g.waits.filter here
  let rest := (g.waits.filter fun w => !here w).map fun w => if sel w.kind then { w with kind := .over again } else w
  (out.foldl Group.release { g with waits := rest }).splitGangs

/-! ### Wakes (R150) -/

/-- A group that resides on a core. -/
def Group.onCore (g : Group) (core : Nat) : Bool :=
  g.core == core && (match g.status with | .starting | .live | .stopped | .saved => true | .retired | .away | .gone => false)

/-- A `sleep` that selects a code (R239). -/
def WaitKind.wakesOn (k : WaitKind) (code : Nat) : Bool :=
  match k with
  | .sleep codes => codes == 0 || codes.getLsbD (code - 1)
  | _ => false

/-- Every gang of a group waits, as far as its waits and its latest tries show: those of this cycle, and, where a gang has not been tried in
it, those before; one that cannot pay does not wait (R140, R150). -/
def Group.idle (g : Group) : Bool :=
  g.rereserve.isSome || (List.range 8).all fun n =>
    let is := g.gangSlices (BitVec.ofNat 3 n)
    is.isEmpty || g.waiting is || g.held.getLsbD n || (g.heldLast.getLsbD n && !g.issued && !g.refused.getLsbD n)

/-- What held the gangs of a group may have ended: they are tried again in the same cycle. On a gated core they count as waiting until
then (R140, R150). -/
def Group.retried (g : Group) (gated : Bool) : Group := { g with heldLast := if gated then g.heldLast ||| g.held else 0, held := 0 }

/-- A gang of a core can go on (R150). -/
def coreBusy (s : State) (core : Nat) : Bool := s.groups.any fun g => g.onCore core && g.status == .live && !g.idle

/-- The lowest code of two, 0 standing for none. -/
def lowerCode (a b : Nat) : Nat := if a = 0 then b else if b = 0 then a else min a b

/-- A core's clock is stopped with its die's (R305). -/
def coreStopped (s : State) (core : Nat) : Bool := (s.die (dieOfCore core)).stopped

/-- An event of the code reaches a core that runs, after what it releases: sleeping gangs that select the code go on (R239), and held ones
are tried again; a gated core wakes if a gang can go on, recording the lowest code of the cycle's events (R150). -/
def wakeRunning (s : State) (core code : Nat) : State :=
  let c := s.core core
  let awake (g : Group) : Group :=
    if g.onCore core then
      (if g.waits.any fun w => w.kind.wakesOn code then g.endWaits (fun k => k.wakesOn code) false else g).retried c.gated
    else g
  let s := { s with groups := s.groups.map awake }
  if !c.gated && c.event == 0 then s
  else
    let e := lowerCode c.event code
    if c.gated && !coreBusy s core then s.setCore core { c with event := e }
    else s.setCore core { c with gated := false, event := e, wake := BitVec.ofNat 32 e }

/-- An event of the code reaches a core (R150); one whose clock is stopped holds all its state, and hears of it when the stop ends
(R305; DEDUCED, log 72). -/
def wakeCore (s : State) (core code : Nat) : State :=
  if coreStopped s core then s.modCore core fun k => { k with wakes := k.wakes ||| BitVec.twoPow 16 code } else wakeRunning s core code

/-- An edge update that a waiting gang sees reaches its core: a gated core wakes, whether or not the gang can go on (R289). -/
def wakeOnEdge (s : State) (core : Nat) : State :=
  let s := wakeCore s core 4
  let c := s.core core
  if c.gated && !coreStopped s core then s.setCore core { c with gated := false, wake := BitVec.ofNat 32 c.event } else s

/-- The events that reached a core during its die's stop, heard at the stop's end in the order of their codes (R305; log 72). -/
def hearWakes (s : State) (core : Nat) : State :=
  let codes := (List.range 16).filter (s.core core).wakes.getLsbD
  codes.foldl (fun s n => if n = 4 then wakeOnEdge s core else wakeCore s core n) (s.modCore core fun k => { k with wakes := 0 })

/-- A core wakes for a gang that is tried on it, for the events of this cycle (R150). -/
def Core.rouse (k : Core) : Core :=
  if k.gated then { k with gated := false, wake := if k.event = 0 then k.wake else BitVec.ofNat 32 k.event } else k

/-- A core at the start of a cycle: gated when none of its gangs can go on; otherwise awake, for the events it has had (R150). -/
def Core.gate (k : Core) (busy : Bool) : Core := { (if busy then k.rouse else { k with gated := true }) with event := 0 }

/-! ### Taking a trap (R227 to R231) -/

/-- A trap: cause, sub-cause and `%targ` (R233). -/
structure Trap where
  cause : Nat
  sub : Nat := 0
  arg : Word64 := 0
deriving DecidableEq, Repr

/-- The trap of a failed check of R87. -/
def Reject.trap : Reject → Trap
  | .pair => { cause := 2 }
  | .privilege => { cause := 9 }
  | .length | .opcode | .fields => { cause := 1 }

/-- `%cause` (R233): cause, sub-cause and the lowest slice of the trapping gang. -/
def causeWord (t : Trap) (slice : Nat) : Word32 :=
  BitVec.ofNat 32 (t.cause % 256 + 256 * (t.sub % 256) + 65536 * (slice % 8))

/-- `%spcN` (R233). -/
def spcWord (sl : Slice) (pc : Word32) : Word64 := 0#27 ++ BitVec.ofBool sl.live ++ sl.mask ++ pc

/-- `%gmap` (R233). -/
def Group.gangMap (g : Group) : Word32 :=
  BitVec.ofNat 32 (((List.range 8).map fun i => (g.slices.get i).gang.toNat * 8 ^ i).sum)

/-- The context record written to the save area at offset 0x030000 (R236). -/
def Ctx.store (x : Ctx) (area : Nat) (m : Memory) : Memory :=
  let b := area + 0x30000
  let m := (List.range 8).foldl (fun m i => memWriteN m (b + 8 * i) 8 (x.spc.get i).toNat) m
  let m := memWriteN m (b + 0x40) 8 x.gmap.toNat
  let m := memWriteN m (b + 0x48) 8 x.cause.toNat
  let m := memWriteN m (b + 0x50) 8 x.targ.toNat
  (List.range 4).foldl (fun m i => memWriteN m (b + 0x80 + 8 * i) 8 (x.g60.get i).toNat) m

/-- The slice waits at a step mark. -/
def Group.atMark (g : Group) (i : Nat) : Bool := g.waits.any fun w => w.kind == .stepmark && w.slices.getLsbD i

/-- The resume PC of a slice (R227): after the instruction for a software trap, else where the slice stands or waits; after the
step mark it waits at when the mark's release changes the die set (R337). -/
def resumePC (t : Trap) (trapping : List Nat) (i : Nat) (sl : Slice) (stepDone : Bool) : Word32 :=
  if (t.cause = 14 && trapping.contains i) || (t.cause = 12 && stepDone) then sl.pc + 12 else sl.pc

/-- The handler's entry for a cause (R230). -/
def handlerEntry (s : State) (g : Group) (cause : Nat) : Word32 :=
  match tabGet? s.parts g.part with
  | some p => BitVec.ofNat 32 (if cause = 12 then p.cfg.saveOff else p.cfg.trapOff)
  | none => 0

/-- A double trap (R229): the group stops, the host receives the event; its reservations close (R299). -/
def doubleTrap (s : State) (gid : Nat) (t : Trap) : State :=
  let s := match s.group gid with
    | some g => s.setCore g.core ((s.core g.core).closeReservations gid)
    | none => s
  (s.modGroup gid fun g => { g with status := .stopped }).event ((s.group gid).map fun g => g.part) [1, gid, t.cause, t.sub, t.arg.toNat]

/-- The device part of a group's context record (R236). -/
def Group.device (g : Group) : Device :=
  { slices := .make fun i =>
      let sl := g.slices.get i
      { stack := sl.stack, floors := sl.floors, fmt := sl.fmt, fflags := sl.fflags }
    prio := g.prio
    retired := g.retired
    holder := g.holdsIssue
    gpend := g.gpend.filter fun n => decide (60 ≤ n)
    gfail := g.gfail.filter fun e => decide (60 ≤ e.1)
    met := (g.waits.filterMap fun w => match w.kind with | .rendezvous .. => some w.slices | _ => none).foldl (· ||| ·) 0 }

/-- The group after TrapEntry (R229), its context saved and every live slice in gang 0 at the handler's entry. -/
def Group.enter (g : Group) (t : Trap) (trapping : List Nat) (entry : Word32) : Group :=
  let ctx : Ctx :=
    { spc := .make fun i => spcWord (g.slices.get i) (resumePC t trapping i (g.slices.get i) (g.stepDone && g.atMark i))
      gmap := g.gangMap
      cause := causeWord t (trapping.headD 0)
      targ := t.arg
      dev := g.device
      g60 := ⟨g.g 60, g.g 61, g.g 62, g.g 63⟩ }
  let g := (((g.setG 60 0).setG 61 0).setG 62 0).setG 63 (BitVec.ofNat 64 g.area)
  let g := g.modSlices (List.range 8) fun _ sl =>
    if sl.live then { sl with mark := sl.stack.length, gang := 0, pc := entry, latched := [] }
    else { sl with mark := sl.stack.length, latched := [] }
  { g with ctx := ctx, priv := true, saving := decide (t.cause = 12), held := 0, heldLast := 0, refused := 0, wants := [],
           gpend := g.gpend.filter fun n => decide (n < 60),
           waits := g.waits.filter fun w => match w.kind with | .rendezvous .. => false | _ => true }

/-- Taking a trap (R229): one operation for every cause. A trap inside a handler is a double trap. -/
def trapEntry (s : State) (gid : Nat) (t : Trap) (trapping : List Nat) : State :=
  match s.group gid with
  | none => s
  | some g =>
    if g.priv then doubleTrap s gid t
    else
      let g' := g.enter t trapping (handlerEntry s g t.cause)
      let s := s.setCore g.core ((s.core g.core).closeReservations gid)
      ((s.modGroup gid fun _ => g').setMem (g'.ctx.store g.area s.mem)).record gid 2 (trapping.headD 0)
        (g.slices.get (trapping.headD 0)).pc [(40, 4, (causeWord t (trapping.headD 0)).toNat)]

/-- A synchronous trap of the issuing gang (R228). -/
def Issue.trap (c : Issue) (s : State) (t : Trap) : State := trapEntry s c.gid t c.sls

/-- Mask and PC of `%spcN`. -/
def spcMask (w : Word64) : BitVec 4 := w.extractLsb' 32 4
/-- The PC of `%spcN`. -/
def spcPC (w : Word64) : Word32 := w.extractLsb' 0 32
/-- The entry of a slice in `%gmap`. -/
def gmapEntry (w : Word32) (i : Nat) : BitVec 3 := w.extractLsb' (3 * i) 3

/-- The checks of `rte` (R231) over the live slices. -/
def rteOk (g : Group) (size : Nat) : Bool :=
  let live := g.liveSlices.filter fun i => (g.ctx.spc.get i).getLsbD 36
  live.all fun i =>
    targetOk size (spcPC (g.ctx.spc.get i)) &&
      (match live.find? fun j => gmapEntry g.ctx.gmap j == gmapEntry g.ctx.gmap i with
        | some j => gmapEntry g.ctx.gmap i == BitVec.ofNat 3 j
        | none => true) &&
      live.all fun j =>
        gmapEntry g.ctx.gmap i != gmapEntry g.ctx.gmap j || spcPC (g.ctx.spc.get i) == spcPC (g.ctx.spc.get j)

/-- `yieldon` leaves its slices at the continuation, where they settle only at the release (R188). -/
def GangWait.yields (w : GangWait) : Bool :=
  w.next == w.pc && (match w.kind with | .objects .. => true | _ => false)

/-- The waits of a group narrowed to the slices that still stand at them (R231). -/
def Group.standing (g : Group) (ws : List GangWait) : List GangWait :=
  (ws.map fun w => { w with slices := sliceBits (w.list.filter fun i => (g.slices.get i).live && (g.slices.get i).pc == w.pc) }).filter
    fun w => w.slices != 0

/-- Resumed waits whose release has already come end; the slices a barrier so released regroup by PC (R115, R246). -/
def Group.endOver (g : Group) : Group :=
  let isOver (w : GangWait) : Bool := w.priv == g.priv && (match w.kind with | .over _ => true | _ => false)
  let out := g.waits.filter isOver
  let g := (out.foldl Group.release { g with waits := g.waits.filter fun w => !isOver w }).splitGangs
  g.regroup ((out.filter fun w => w.kind == .over true).flatMap GangWait.list)

/-- The group after `rte` (R231): contexts installed, handler entries discarded, waits kept only where the PC still names them. A live slice
whose live bit a handler has cleared is dead, with no join counter of its lanes counted down: the spec counts at the exit of a lane (R266;
log 19). -/
def Group.leave (g : Group) : Group :=
  let c := g.ctx
  let g := (((g.setG 60 c.g60.l0).setG 61 c.g60.l1).setG 62 c.g60.l2).setG 63 c.g60.l3
  let g := g.modSlices (List.range 8) fun i sl =>
    let sl := { sl with stack := sl.stack.drop (sl.stack.length - sl.mark), mark := 0, gang := gmapEntry c.gmap i, latched := [] }
    if sl.live && (c.spc.get i).getLsbD 36 then
      { sl with pc := spcPC (c.spc.get i), mask := spcMask (c.spc.get i) &&& ~~~sl.exited }
    else { sl with mask := 0, exited := 0xF, names := [], stack := [] }
  let g := { g with priv := false, saving := false, held := 0, heldLast := 0, wants := [], gpend := g.gpend ++ c.dev.gpend,
                    gfail := g.gfail ++ c.dev.gfail, holdsIssue := g.holdsIssue || c.dev.holder
                    ctx := { c with dev := { c.dev with holder := false } }, waits := g.standing (g.waits.filter fun w => !w.priv) }
  let g := g.modSlices (List.range 8) fun i sl =>
    (if g.waits.any fun w => w.yields && w.slices.getLsbD i then sl else sl.settle).bury
  ({ g with waits := g.standing g.waits } : Group).splitGangs.endOver

/-- The checks of `rte` for a group, in its launch's code section. -/
def State.rteOk (s : State) (g : Group) : Bool :=
  Machine.rteOk g (match s.grids[g.grid]? with | some d => d.codeSize | none => 0)

/-- The return from a trap (R231); a failing check is a double trap. In a deterministic launch the issue returns to the holder that the
context records (R245). -/
def returnFromTrap (s : State) (gid : Nat) : State :=
  match s.group gid with
  | none => s
  | some g =>
    if s.rteOk g then
      let s := if g.ctx.dev.holder then { s with groups := s.groups.map fun h =>
        if h.grid = g.grid && h.core == g.core then { h with holdsIssue := false } else h } else s
      s.modGroup gid Group.leave
    else doubleTrap s gid { cause := 1 }

/-! ### The end of an issue (R75, R115) -/

/-- What an instruction costs and which port choice it takes (R141, R298): its tokens, and whether it is a uniform instruction. -/
structure Price where
  tokens : Nat
  uniform : Bool
deriving DecidableEq, Repr

/-- A lane word (R298). -/
def priceLane : Price := ⟨2, false⟩
/-- A lane pair. -/
def pricePair : Price := ⟨3, false⟩
/-- A transcendental. -/
def priceTrans : Price := ⟨3, false⟩
/-- An engine start. -/
def priceEngine : Price := ⟨4, false⟩
/-- A uniform instruction: no tokens. -/
def priceUniform : Price := ⟨0, true⟩

/-- The core's record after an issue of the group: payment, the port's mark, the stamp counter, the slices' cell grants spent. -/
def Core.afterIssue (k : Core) (c : Issue) (p : Price) : Core :=
  let port := c.g.slot % 2
  let k := if p.uniform then k else k.pay c.gid c.gang.toNat p.tokens
  { k with
    stamp := k.stamp + 1
    portLane := if p.uniform then k.portLane else k.portLane ||| BitVec.ofNat 2 (2 ^ port)
    portUni := if p.uniform then k.portUni ||| BitVec.ofNat 2 (2 ^ port) else k.portUni
    grants := k.grants.filter fun e => !(e.1 == c.gid && c.sls.contains e.2) }

/-- The group's record of its issue: `%retired` outside privileged state (R44, R229), the stamps of R141. -/
def Group.afterIssue (g : Group) (c : Issue) (stamp : Nat) (p : Price) : Group :=
  { g with
    retired := if c.g.priv then g.retired else g.retired + 1
    issued := true
    held := g.held &&& ~~~BitVec.ofNat 8 (2 ^ c.gang.toNat)
    wants := g.wants.filter fun e => !c.sls.contains e.1
    laneStamp := if p.uniform then g.laneStamp else some stamp
    uniStamp := if p.uniform then some stamp else g.uniStamp }

/-- A recording still takes the instruction sample of the present stretch of 2^16 lane issues of the issuing group's core (R370). -/
def Issue.takes (c : Issue) (s : State) (r : Recording) : Bool :=
  r.mask.testBit 4 && r.covers s c.g && decide (tabGet r.sampled 0 c.g.core ≤ (s.core c.g.core).samples / 65536)

/-- The sample of the present stretch raised in the recordings that take it. -/
def Issue.recordSample (c : Issue) (s : State) (n : Nat) : State :=
  let t := s.recordTo (c.takes s) c.gid 4 (c.sls.headD 0) c.pc [(40, 8, (if c.g.priv then c.g.retired else c.g.retired + 1).toNat)]
  { t with recordings := t.recordings.map fun r =>
      if c.takes s r then { r with sampled := tabSet r.sampled c.g.core (n / 65536 + 1) } else r }

/-- An instruction sample (R370): of every 2^16 lane issues of a core, the first of the named teams', with `%retired` after it, which no
handler's instruction moves (R229). Which of them is taken is the model's choice (log 101). -/
def Issue.tally (c : Issue) (s : State) (p : Price) : State :=
  if p.uniform || !(s.recordings.any fun r => r.mask.testBit 4) then s
  else
    let n := (s.core c.g.core).samples
    (if s.recordings.any (c.takes s) then c.recordSample s n else s).modCore c.g.core fun k => { k with samples := n + 1 }

/-- The end of an issue that set the slices' PCs itself: Settle, regrouping by PC, the issue's accounts. -/
def Issue.done (c : Issue) (s : State) (p : Price) : State :=
  let k := s.core c.g.core
  let s := s.modGroup c.gid fun g =>
    let g := g.modSlices c.sls fun _ sl => { sl with latched := [] }.settle
    (g.regroup c.sls).afterIssue c s.tick p
  c.tally (s.setCore c.g.core (k.afterIssue c p)) p

/-- The end of an issue that transfers no control: the PC advances by the instruction's length (R68). -/
def Issue.advance (c : Issue) (s : State) (len : Nat) (p : Price) : State :=
  c.done (s.modGroup c.gid fun g => g.modSlices c.sls fun _ sl => { sl with pc := sl.pc + BitVec.ofNat 32 len }) p

/-- When the instruction of each slice that wants a refill was chosen: now, for a slice that wanted none (R145). -/
def Group.stampWants (g : Group) (now : Nat) (wants : List (Nat × Nat)) : Table Nat :=
  wants.foldl (fun t w => if g.wants.any fun v => v.1 == w.1 then t else tabSet t w.1 now) g.wantStamps

/-- The gang is held unissued (R140), wanting these spilled names refilled (R144). -/
def Issue.hold (c : Issue) (s : State) (wants : List (Nat × Nat)) : State :=
  s.modGroup c.gid fun g =>
    { g with held := g.held ||| BitVec.ofNat 8 (2 ^ c.gang.toNat), wants := (g.wants ++ wants).eraseDups
             wantStamps := g.stampWants s.tick wants }

/-- The gang's slices begin a wait at this instruction, which has issued (R124): its PC stays, its accounts are made. -/
def Issue.await (c : Issue) (s : State) (kind : WaitKind) (p : Price) (undo : List (Nat × Nat × Cell) := []) : State :=
  let k := s.core c.g.core
  let w : GangWait := { slices := sliceBits c.sls, pc := c.pc, next := c.pc + 12, kind := kind, priv := c.g.priv, undo := undo }
  let s := s.modGroup c.gid fun g =>
    (({ g with waits := g.waits ++ [w] } : Group).modSlices c.sls fun _ sl => { sl with latched := [] }).afterIssue c s.tick p
  c.tally (s.setCore c.g.core (k.afterIssue c p)) p

end Sys2Proof.Machine
end

