-- ==== Sys2Proof/Machine/Operands.lean ====
section
/-! DEFINITION. The operand forms: reads of value names with their use counts (R36 to R38), writes of names and predicates (R35,
R40), allocation and eviction (R144, R145), uniform registers and immediates (R90), and the frame of a lane instruction (R75). -/

namespace Sys2Proof.Machine

/-! ### Names (R34 to R38) -/

/-- One appearance of a source name in an instruction, under the predicate of its half. -/
structure NameRead where
  p : Pred
  src : Src
deriving DecidableEq, Repr

/-- The appearances of a source of a type: a 64-bit source is the pair of names (R38). -/
def readsOf (p : Pred) (wide : Bool) (s : Src) : List NameRead :=
  if wide then [⟨p, s⟩, ⟨p, { s with name := s.name + 1 }⟩] else [⟨p, s⟩]

/-- The names a destination of a type writes (R38). -/
def destNames (wide : Bool) (d : Dst) : List Nat :=
  if wide then [d.name.toNat, d.name.toNat + 1] else [d.name.toNat]

/-- The cell of a name; none when it is unbound. -/
def Slice.cell (sl : Slice) (n : Nat) : Option Cell := tabGet? sl.names n

/-- The datum of a name on a lane. -/
def Slice.datum (sl : Slice) (l n : Nat) : Word32 :=
  match sl.cell n with
  | some c => c.data.get l
  | none => 0

/-- The value of a source on a lane: one name or a pair, the low name first (R38). -/
def Slice.value (sl : Slice) (wide : Bool) (l : Nat) (n : BitVec 9) : Nat :=
  if wide then (sl.datum l n.toNat).toNat + 2 ^ 32 * (sl.datum l (n.toNat + 1)).toNat else (sl.datum l n.toNat).toNat

/-- Whether an appearance reads on a lane. -/
def Slice.reads (sl : Slice) (l : Nat) (r : NameRead) : Bool := (sl.active r.p).getLsbD l

/-- How many appearances of a name read on a lane (R36). -/
def Slice.appearances (sl : Slice) (rs : List NameRead) (l : Nat) (n : BitVec 9) : Nat :=
  (rs.filter fun r => r.src.name == n && sl.reads l r).length

/-- The exhausted-name condition of R36 in a slice. -/
def Slice.exhausted (sl : Slice) (rs : List NameRead) : Bool :=
  (List.range 4).any fun l => rs.any fun r =>
    sl.reads l r &&
      match sl.cell r.src.name.toNat with
      | none => true
      | some c => !c.pin.get l && decide ((c.count.get l).toNat < sl.appearances rs l r.src.name)

/-- The appearances that read in a slice at all. -/
def Slice.reading (sl : Slice) (rs : List NameRead) : List NameRead :=
  rs.filter fun r => sl.active r.p != 0

/-- The empty-read condition of R37 in a slice: an empty cell read with its trap bit set. -/
def Slice.emptyRead (sl : Slice) (rs : List NameRead) : Bool :=
  (sl.reading rs).any fun r => r.src.trap &&
    match sl.cell r.src.name.toNat with
    | some c => !c.full
    | none => false

/-- The first failed cell among names (R35, R242). -/
def Slice.failure (sl : Slice) (ns : List Nat) : Option Failure :=
  ns.findSome? fun n => match sl.cell n with
    | some c => if c.full then none else c.failed
    | none => none

/-- The names a slice's destinations write, where a lane is active (R35). -/
def Slice.writing (sl : Slice) (ds : List (Pred × Nat)) : List Nat :=
  (ds.filter fun d => sl.active d.1 != 0).map fun d => d.2

/-- The trap of a failed producer (R242). -/
def Failure.trap (f : Failure) : Trap := { cause := 11, sub := f.sub, arg := BitVec.ofNat 64 f.offset }

/-- The traps of R75 that reading and writing names can take, in its order: exhausted name, empty read, failed producer. -/
def nameTrap (c : Issue) (rs : List NameRead) (ds : List (Pred × Nat)) : Option Trap :=
  let sl (i : Nat) : Slice := c.g.slices.get i
  if c.sls.any fun i => (sl i).exhausted rs then some { cause := 4 }
  else if c.sls.any fun i => (sl i).emptyRead rs then some { cause := 5 }
  else (c.sls.findSome? fun i =>
    (sl i).failure (((sl i).reading rs).map (fun r => r.src.name.toNat) ++ (sl i).writing ds)).map Failure.trap

/-- A name that must wait: empty, or spilled and not latched (R37, R144). A destination's latch does not count. -/
def Slice.blocked (sl : Slice) (latchable : Bool) (n : Nat) : Bool :=
  match sl.cell n with
  | some c => !c.full || (c.spilled && !(latchable && sl.latched.contains n))
  | none => false

/-- Whether the gang waits before issue for an empty cell or a refill (R37, R144). -/
def mustWait (c : Issue) (rs : List NameRead) (ds : List (Pred × Nat)) : Bool :=
  c.sls.any fun i =>
    let sl := c.g.slices.get i
    ((sl.reading rs).any fun r => sl.blocked true r.src.name.toNat) || ((sl.writing ds).any fun n => sl.blocked false n)

/-- The refills a waiting gang wants: in each slice the first spilled name, sources in A, B, C order, then destinations (R144). -/
def wantsOf (c : Issue) (rs : List NameRead) (ds : List (Pred × Nat)) : List (Nat × Nat) :=
  c.sls.filterMap fun i =>
    let sl := c.g.slices.get i
    let spilled (latchable : Bool) (n : Nat) : Bool := sl.blocked latchable n && match sl.cell n with
      | some k => k.spilled && k.full
      | none => false
    match ((sl.reading rs).map fun r => r.src.name.toNat).find? (spilled true) with
    | some n => some (i, n)
    | none => ((sl.writing ds).find? (spilled false)).map fun n => (i, n)

/-- A cell all of whose counts and pins are 0 (AllZero of R35). -/
def Cell.allZero (c : Cell) : Bool :=
  (List.range 4).all fun l => c.count.get l == 0 && !c.pin.get l

/-- The slice with a name's cell replaced, or freed when all its counts and pins are 0 (R34). -/
def Slice.putCell (sl : Slice) (n : Nat) (c : Cell) : Slice :=
  if c.allZero then { sl with names := tabErase sl.names n } else { sl with names := tabSet sl.names n c }

/-- One use of a name consumed on the lanes of a mask (R36); a spilled cell's image follows (R144). -/
def Slice.consume (sl : Slice) (n : Nat) (mask : BitVec 4) : Slice :=
  match sl.cell n with
  | none => sl
  | some c =>
    let count := Quad.make fun l =>
      if mask.getLsbD l && !c.pin.get l then c.count.get l - 1 else c.count.get l
    { sl with names := tabSet sl.names n { c with count := count, spilling := c.spilling || c.spilled } }

/-- Every read's use consumed, then every cell those reads emptied freed (R36, R75). -/
def Slice.consumeAll (sl : Slice) (rs : List NameRead) : Slice :=
  let sl' := rs.foldl (fun x r => x.consume r.src.name.toNat (sl.active r.p)) sl
  { sl' with names := sl'.names.filter fun e => !e.2.allZero || !(rs.any fun r => r.src.name.toNat == e.1) }

/-- A write of one name: use field, active lanes by slice, data by slice and lane, and whether it leaves the cell full (R35). -/
structure NameWrite where
  name : Nat
  uses : BitVec 3
  mask : Nat → BitVec 4
  data : Nat → Nat → Word32
  full : Bool := true

/-- The slice step of R35 on the lanes of a mask; `stamp` marks a fresh cell. -/
def Slice.writeName (sl : Slice) (n : Nat) (k : BitVec 3) (mask : BitVec 4) (data : Nat → Word32) (full : Bool)
    (stamp : Nat) : Slice :=
  if mask = 0 then sl
  else
    let c : Cell := (sl.cell n).getD { stamp := stamp }
    sl.putCell n
      { c with
        data := Quad.make fun l => if mask.getLsbD l then data l else c.data.get l
        pin := Quad.make fun l => if mask.getLsbD l then k == 0 else c.pin.get l
        count := Quad.make fun l => if mask.getLsbD l then k else c.count.get l
        full := full
        failed := none }

/-! ### Allocation and eviction (R137, R145) -/

/-- Groups whose cells a core's sections hold. -/
def Group.resident (g : Group) (core : Nat) : Bool :=
  g.core == core && (match g.status with | .starting | .live | .stopped | .saved | .retired => true | .away | .gone => false)

/-- The cells of a slice that lie in its section. -/
def Slice.residentCells (sl : Slice) : Table Cell := sl.names.filter fun e => !e.2.spilled

/-- The cells resident in section `i` of a core. -/
def residentIn (s : State) (core i : Nat) : Nat :=
  ((s.groups.filter fun g => g.resident core).map fun g => (g.slices.get i).residentCells.length).sum

/-- A group that still waits on a core for a cell granted to it: a grant to one that has left, stopped or retired is void. -/
def grantHolds (s : State) (core gid : Nat) : Bool :=
  match s.group gid with
  | some g => g.core == core && (g.status == .live || g.status == .starting)
  | none => false

/-- The cells of section `i` of a core granted to other groups and not yet taken (R145). -/
def grantedAway (s : State) (core gid i : Nat) : Nat :=
  ((s.core core).grants.filter fun e => e.2 == i && e.1 != gid && grantHolds s core e.1).length

/-- The cells of section `i` of a core that slice `i` of group `gid` may take once it has freed some of its own: those free then and those
granted to it. In a section above its limit the freed ones only bring it down (R138). -/
def cellsAfter (s : State) (core gid i freed : Nat) : Nat :=
  (s.core core).vsLimit + freed - (residentIn s core i + grantedAway s core gid i)

/-- The cells of section `i` of a core that slice `i` of group `gid` may take at once. -/
def cellsFor (s : State) (core gid i : Nat) : Nat := cellsAfter s core gid i 0

/-- A slice's reservation (R139, R147, R276). -/
def reservationOf (s : State) (g : Group) (i : Nat) : Nat :=
  if g.unreserved then 0
  else
    let floor := match s.grids[g.grid]? with | some d => d.cmd.floor | none => 0
    floor + ((g.slices.get i).floors).sum

/-- A candidate victim: its group, the cell's name, its priority, admission number and stamp. -/
structure Victim where
  group : Nat
  name : Nat
  prio : Nat
  admission : Nat
  stamp : Nat
deriving DecidableEq, Repr

/-- `a` is chosen before `b`: lower priority, then younger group, then the cell allocated or refilled most recently (R145). -/
def Victim.before (a b : Victim) : Bool :=
  if a.prio != b.prio then decide (a.prio < b.prio)
  else if a.admission != b.admission then decide (b.admission < a.admission)
  else decide (b.stamp < a.stamp)

/-- The victim of R145 in section `i` for a request of group `req` (none: a request of no slice, R138). -/
def chooseVictim (s : State) (core i : Nat) (req : Option Nat) : Option Victim :=
  let cands := (s.groups.zipIdx.filter fun e => e.1.resident core).flatMap fun e =>
    let sl := e.1.slices.get i
    let full := sl.residentCells.filter fun x => x.2.full && !x.2.spilling
    let r := full.length + (if req = some e.2 then 1 else 0)
    if reservationOf s e.1 i < r then
      full.map fun x => ⟨e.2, x.1, e.1.prio.toNat, e.1.admission, x.2.stamp⟩
    else []
  match cands with
  | [] => none
  | v :: vs => some (vs.foldl (fun a b => if b.before a then b else a) v)

/-- The spill of a victim begins: its write is under way for the requesting group and slice (R145). -/
def startSpill (s : State) (i : Nat) (v : Victim) (req : Option Nat) : State :=
  s.modGroup v.group fun g => g.modSlice i fun sl =>
    match sl.cell v.name with
    | some c => { sl with names := tabSet sl.names v.name { c with spilling := true, spillFor := req.map fun r => (r, i) } }
    | none => sl

/-- How many spills are already under way for a requester. -/
def spillsFor (s : State) (gid i : Nat) : Nat :=
  (s.groups.map fun g => ((g.slices.get i).names.filter fun e => e.2.spilling && e.2.spillFor == some (gid, i)).length).sum

/-- At most `n` spills begun in section `i` for the requester. -/
def startSpills (s : State) (core : Nat) (req : Option Nat) (i : Nat) : Nat → State
  | 0 => s
  | n + 1 =>
    match chooseVictim s core i req with
    | some v => startSpills (startSpill s i v req) core req i n
    | none => s

/-- The cells of section `i` of a core beyond its limit, other than those already on their way out (R138). -/
def overLimit (s : State) (core i : Nat) : Nat :=
  ((s.groups.filter fun g => g.resident core).map fun g =>
    ((g.slices.get i).residentCells.filter fun e => !e.2.spilling).length).sum - (s.core core).vsLimit

/-- Sections that hold more than the core's limit evict cells for no slice, as far as R145 finds victims now (R138). -/
def shrinkSections (s : State) (core : Nat) : State :=
  (List.range 8).foldl (fun s i => startSpills s core none i (overLimit s core i)) s

/-- Section `i` of a core holds more cells than its limit: it is brought down before it serves its next allocation (R138). -/
def overFull (s : State) (core i : Nat) : Bool := decide ((s.core core).vsLimit < residentIn s core i)

/-- Slice `i` of a group seeks `n` cells: the writes of as many victims begin, those under way for it counted; in a section above its
limit the shrink's victims go first, which are nobody's (R138, R145). -/
def seekCells (s : State) (core gid i n : Nat) : State :=
  if overFull s core i then startSpills s core none i (overLimit s core i)
  else startSpills s core (some gid) i (n - spillsFor s gid i)

/-- The store can serve a request of slice `i` of a group: a cell is free or granted, or a victim's write can begin (R138, R145). -/
def cellServed (s : State) (core gid i : Nat) : Bool :=
  cellsFor s core gid i != 0 ||
    (if overFull s core i then overLimit s core i != 0 && (chooseVictim s core i none).isSome
     else spillsFor s gid i == 0 && (chooseVictim s core i (some gid)).isSome)

/-- A gang that lacks cells is held, its victims' writes begun (R140, R145). -/
def Issue.holdForCells (c : Issue) (s : State) (needs : List (Nat × Nat)) : State :=
  c.hold (needs.foldl (fun s n => seekCells s c.g.core c.gid n.1 n.2) s) []

/-- What a meaning does once its checks have passed: a next state, or the cells it still needs by slice. -/
abbrev Commit := Except (List (Nat × Nat)) State

/-- The cells a slice still needs for these writes, after its reads (`use`) have freed theirs. -/
def cellsNeeded (s : State) (c : Issue) (use : Nat → Slice → Slice) (ws : List NameWrite) (i : Nat) : Nat :=
  let sl := c.g.slices.get i
  let sl' := use i sl
  let need := ((ws.filter fun w => w.mask i != 0 && (sl'.cell w.name).isNone).map fun w => w.name).eraseDups.length
  need - cellsAfter s c.g.core c.gid i (sl.residentCells.length - sl'.residentCells.length)

/-- The group after its reads, writes and flags (R75, steps 2 and 3). Among the cells one instruction allocates, the one of the higher
name modulo 16 counts as the later (R145; log 74: the spec gives them no order). -/
def Issue.apply (c : Issue) (g : Group) (stamp : Nat) (use : Nat → Slice → Slice) (ws : List NameWrite)
    (fl : Nat → FlagSet) : Group :=
  g.modSlices c.sls fun i sl =>
    let sl := ws.foldl (fun x w => x.writeName w.name w.uses (w.mask i) (w.data i) w.full (stamp + w.name % 16)) (use i sl)
    sl.raise (fl i)

/-- Reads consumed by `use`, results written, flags raised, in every slice of the gang; short of cells, what is still needed. -/
def Issue.commitWith (c : Issue) (s : State) (use : Nat → Slice → Slice) (ws : List NameWrite) (fl : Nat → FlagSet) : Commit :=
  let needs := (c.sls.map fun i => (i, cellsNeeded s c use ws i)).filter fun n => n.2 != 0
  if needs.isEmpty then
    let k := s.core c.g.core
    .ok ((s.modGroup c.gid fun g => c.apply g (16 * k.stamp) use ws fl).setCore c.g.core { k with stamp := k.stamp + 1 })
  else .error needs

/-- `commitWith` where every appearance consumes its use on the lanes its predicate leaves active (R36). -/
def Issue.commit (c : Issue) (s : State) (rs : List NameRead) (ws : List NameWrite) (fl : Nat → FlagSet) : Commit :=
  c.commitWith s (fun _ sl => sl.consumeAll rs) ws fl

/-- One use of a name consumed on the lanes of a mask, the cell freed when that empties it. -/
def Slice.consumeOn (sl : Slice) (n : Nat) (mask : BitVec 4) : Slice :=
  let sl := sl.consume n mask
  match sl.cell n with
  | some c => if c.allZero then { sl with names := tabErase sl.names n } else sl
  | none => sl

/-- What follows a commit: the next state, or the cells still needed. -/
def Commit.map (x : Commit) (f : State → State) : Commit :=
  match x with
  | .ok s => .ok (f s)
  | .error n => .error n

/-- A uniform register that awaits a load (R159). -/
def Issue.pending (c : Issue) (regs : List (BitVec 6)) : Bool := regs.any fun r => r != 0 && c.g.gpend.contains r.toNat

/-- The machine check of a uniform register whose window fill failed (R165, R242). -/
def Issue.failedReg (c : Issue) (regs : List (BitVec 6)) : Option Trap :=
  (regs.findSome? fun r => tabGet? c.g.gfail r.toNat).map Failure.trap

/-- The frame of a lane instruction (R75): the name traps, the waits for its sources, the traps of its entry, the waits for its
destinations, then its effect. An entry's traps are decided on the sources' values, so the waits for those come first. -/
def laneStep (s : State) (c : Issue) (rs : List NameRead) (ds : List (Pred × Nat)) (entry : Option Trap)
    (act : Unit → Commit) (regs : List (BitVec 6) := []) : State :=
  match nameTrap c rs ds, c.failedReg regs with
  | some t, _ => c.trap s t
  | none, some t => c.trap s t
  | none, none =>
    if c.pending regs || mustWait c rs [] then c.hold s (wantsOf c rs [])
    else match entry with
      | some t => c.trap s t
      | none =>
        if mustWait c [] ds then c.hold s (wantsOf c [] ds)
        else match act () with
          | .ok s' => s'
          | .error needs => c.holdForCells s needs

/-! ### Lane arithmetic over the frame -/

/-- A word or a pair written to a destination: one write per name. -/
def destWrites (wide : Bool) (d : Dst) (mask : Nat → BitVec 4) (val : Nat → Nat → Nat) (full : Bool := true) :
    List NameWrite :=
  { name := d.name.toNat, uses := d.uses, mask := mask, data := fun i l => BitVec.ofNat 32 (val i l), full := full } ::
    (if wide then
      [{ name := d.name.toNat + 1, uses := d.uses, mask := mask,
         data := fun i l => BitVec.ofNat 32 (val i l / 2 ^ 32), full := full }]
    else [])

/-- OperandB of R90 on a lane: a name of the width, an immediate, or a uniform register, truncated to the width. -/
def opbValue (b : OpB) (g : Group) (sl : Slice) (wide : Bool) (l : Nat) : Nat :=
  match b with
  | .name s => sl.value wide l s.name
  | .imm v => wrapInt (if wide then 64 else 32) v.toInt
  | .ureg n => (g.g n).toNat % 2 ^ (if wide then 64 else 32)

/-- The name appearances of an operand of R89. -/
def opbReads (b : OpB) (p : Pred) (wide : Bool) : List NameRead :=
  match b with
  | .name s => readsOf p wide s
  | _ => []

/-- The uniform register of an operand of R89. -/
def opbRegs : OpB → List (BitVec 6)
  | .ureg n => [n]
  | _ => []

/-- The OR of a flag set over the lanes of a mask (R64). -/
def flagsOn (mask : BitVec 4) (f : Nat → FlagSet) : FlagSet :=
  (List.range 4).foldl (fun x l => if mask.getLsbD l then x ||| f l else x) 0

/-- The meaning shared by every lane instruction that computes one result per lane: `rs` are the names it reads, `f` the result and
the flags of a slice's lane from the group and the slice as they stand before any read is consumed. -/
def aluStep (s : State) (p : Pred) (d : Dst) (wide : Bool) (rs : List NameRead) (price : Price)
    (f : Group → Slice → Nat → Nat × FlagSet) (regs : List (BitVec 6) := []) : Host.Outcome State Fault Refusal :=
  match issueOf s with
  | none => .next s
  | some c => .next <|
    let mask (i : Nat) : BitVec 4 := (c.g.slices.get i).active p
    let res (i l : Nat) : Nat × FlagSet := f c.g (c.g.slices.get i) l
    laneStep s c rs ((destNames wide d).map fun n => (p, n)) none (fun _ =>
      match c.commit s rs (destWrites wide d mask fun i l => (res i l).1) (fun i => flagsOn (mask i) fun l => (res i l).2) with
      | .ok s' => .ok (c.advance s' 12 price)
      | .error n => .error n) regs

/-- SetQ on the lanes of a mask (R40). -/
def Slice.setPreds (sl : Slice) (mask : BitVec 4) (n : BitVec 4) (b : Nat → Bool) : Slice :=
  (List.range 4).foldl (fun x l => if mask.getLsbD l then x.setQ l n (b l) else x) sl

/-- The meaning shared by the instructions that write a predicate per lane (R94, R99). -/
def predStep (s : State) (p : Pred) (qd : BitVec 4) (rs : List NameRead) (f : Group → Slice → Nat → Bool × FlagSet)
    (regs : List (BitVec 6) := []) : Host.Outcome State Fault Refusal :=
  match issueOf s with
  | none => .next s
  | some c => .next <|
    let mask (i : Nat) : BitVec 4 := (c.g.slices.get i).active p
    let res (i l : Nat) : Bool × FlagSet := f c.g (c.g.slices.get i) l
    laneStep s c rs [] none (fun _ =>
      match c.commit s rs [] (fun i => flagsOn (mask i) fun l => (res i l).2) with
      | .ok s' =>
        .ok (c.advance (s'.modGroup c.gid fun g => g.modSlices c.sls fun i sl => sl.setPreds (mask i) qd fun l => (res i l).1)
          12 priceLane)
      | .error n => .error n) regs

/-- An integer or bit instruction of one or two operands and no flags: the sources' widths and the result from their values. -/
def binStep (s : State) (p : Pred) (d : Dst) (a : Src) (b : OpB) (wideD wideA wideB : Bool) (f : Nat → Nat → Nat) :
    Host.Outcome State Fault Refusal :=
  aluStep s p d wideD (readsOf p wideA a ++ opbReads b p wideB) priceLane
    (fun g sl l => (f (sl.value wideA l a.name) (opbValue b g sl wideB l), 0)) (opbRegs b)

/-- An integer or bit instruction of three operands. -/
def triStep (s : State) (p : Pred) (d : Dst) (a : Src) (b : OpB) (c : Src) (wide wideB wideC : Bool) (f : Nat → Nat → Nat → Nat) :
    Host.Outcome State Fault Refusal :=
  aluStep s p d wide (readsOf p wide a ++ opbReads b p wideB ++ readsOf p wideC c) priceLane
    (fun g sl l => (f (sl.value wide l a.name) (opbValue b g sl wideB l) (sl.value wideC l c.name), 0)) (opbRegs b)

/-- An instruction of one operand and no flags. -/
def unStep (s : State) (p : Pred) (d : Dst) (a : Src) (wideD wideA : Bool) (f : Nat → Nat) :
    Host.Outcome State Fault Refusal :=
  aluStep s p d wideD (readsOf p wideA a) priceLane fun _ sl l => (f (sl.value wideA l a.name), 0)

/-- A floating instruction of one, two or three 32-bit operands, under the slice's `%fmt`. -/
def floatStep1 (s : State) (p : Pred) (d : Dst) (a : Src) (price : Price) (f : Arith → Nat → Nat × FlagSet) :
    Host.Outcome State Fault Refusal :=
  aluStep s p d false (readsOf p false a) price fun _ sl l => f (Arith.of sl.fmt) (sl.value false l a.name)

/-- A floating instruction of two operands. -/
def floatStep2 (s : State) (p : Pred) (d : Dst) (a : Src) (b : OpB) (f : Arith → Nat → Nat → Nat × FlagSet) :
    Host.Outcome State Fault Refusal :=
  aluStep s p d false (readsOf p false a ++ opbReads b p false) priceLane
    (fun g sl l => f (Arith.of sl.fmt) (sl.value false l a.name) (opbValue b g sl false l)) (opbRegs b)

/-- A floating instruction of three operands. -/
def floatStep3 (s : State) (p : Pred) (d : Dst) (a : Src) (b : OpB) (c : Src) (f : Arith → Nat → Nat → Nat → Nat × FlagSet) :
    Host.Outcome State Fault Refusal :=
  aluStep s p d false (readsOf p false a ++ opbReads b p false ++ readsOf p false c) priceLane
    (fun g sl l => f (Arith.of sl.fmt) (sl.value false l a.name) (opbValue b g sl false l) (sl.value false l c.name))
    (opbRegs b)

end Sys2Proof.Machine
end

