-- ==== Sys2Proof/Machine/Integer.lean ====
section
/-! DEFINITION. Integer and address instructions (R91 to R95), one meaning each. -/

namespace Sys2Proof.Machine

/-- The outcome of a meaning. -/
abbrev Result := Host.Outcome State Fault Refusal

/-- `add` (R92): W(a + b), clamped with `.sat`. -/
def execAdd (p : Pred) (d : Dst) (a : Src) (b : OpB) (t : Ty) (sat : Bool) (s : State) : Result :=
  binStep s p d a b t.wide t.wide t.wide (resAdd t sat)

/-- `sub` (R92): W(a − b), clamped with `.sat`. -/
def execSub (p : Pred) (d : Dst) (a : Src) (b : OpB) (t : Ty) (sat : Bool) (s : State) : Result :=
  binStep s p d a b t.wide t.wide t.wide (resSub t sat)

/-- `mul` (R92). -/
def execMul (p : Pred) (d : Dst) (a : Src) (b : OpB) (t : Ty) (s : State) : Result :=
  binStep s p d a b t.wide t.wide t.wide (resMul t)

/-- `mulhi` (R92). -/
def execMulhi (p : Pred) (d : Dst) (a : Src) (b : OpB) (t : Ty) (s : State) : Result :=
  binStep s p d a b t.wide t.wide t.wide (resMulhi t)

/-- `div` (R92). -/
def execDiv (p : Pred) (d : Dst) (a : Src) (b : OpB) (t : Ty) (s : State) : Result :=
  binStep s p d a b t.wide t.wide t.wide (resDiv t)

/-- `rem` (R92). -/
def execRem (p : Pred) (d : Dst) (a : Src) (b : OpB) (t : Ty) (s : State) : Result :=
  binStep s p d a b t.wide t.wide t.wide (resRem t)

/-- `min` (R92). -/
def execMin (p : Pred) (d : Dst) (a : Src) (b : OpB) (t : Ty) (s : State) : Result :=
  binStep s p d a b t.wide t.wide t.wide (resMin t)

/-- `max` (R92). -/
def execMax (p : Pred) (d : Dst) (a : Src) (b : OpB) (t : Ty) (s : State) : Result :=
  binStep s p d a b t.wide t.wide t.wide (resMax t)

/-- `mad` (R92). -/
def execMad (p : Pred) (d : Dst) (a : Src) (b : OpB) (c : Src) (t : Ty) (s : State) : Result :=
  triStep s p d a b c t.wide t.wide t.wide (resMad t)

/-- `madhi` (R92). -/
def execMadhi (p : Pred) (d : Dst) (a : Src) (b : OpB) (c : Src) (t : Ty) (s : State) : Result :=
  triStep s p d a b c t.wide t.wide t.wide (resMadhi t)

/-- `neg` (R92). -/
def execNeg (p : Pred) (d : Dst) (a : Src) (t : Ty) (s : State) : Result :=
  unStep s p d a t.wide t.wide (resNeg t)

/-- `abs` (R92). -/
def execAbs (p : Pred) (d : Dst) (a : Src) (t : Ty) (s : State) : Result :=
  unStep s p d a t.wide t.wide (resAbs t)

/-- `shl` (R92); the count is the 32-bit B operand. -/
def execShl (p : Pred) (d : Dst) (a : Src) (b : OpB) (t : Ty) (s : State) : Result :=
  binStep s p d a b t.wide t.wide false (resShl t)

/-- `shr` (R92); the count is the 32-bit B operand. -/
def execShr (p : Pred) (d : Dst) (a : Src) (b : OpB) (t : Ty) (s : State) : Result :=
  binStep s p d a b t.wide t.wide false (resShr t)

/-- `sar` (R92); the count is the 32-bit B operand. -/
def execSar (p : Pred) (d : Dst) (a : Src) (b : OpB) (t : Ty) (s : State) : Result :=
  binStep s p d a b t.wide t.wide false (resSar t)

/-- `rot` (R92); the count is the 32-bit B operand. -/
def execRot (p : Pred) (d : Dst) (a : Src) (b : OpB) (t : Ty) (s : State) : Result :=
  binStep s p d a b t.wide t.wide false (resRot t)

/-- `and` (R92). -/
def execAnd (p : Pred) (d : Dst) (a : Src) (b : OpB) (t : Ty) (s : State) : Result :=
  binStep s p d a b t.wide t.wide t.wide resAnd

/-- `or` (R92). -/
def execOr (p : Pred) (d : Dst) (a : Src) (b : OpB) (t : Ty) (s : State) : Result :=
  binStep s p d a b t.wide t.wide t.wide resOr

/-- `xor` (R92). -/
def execXor (p : Pred) (d : Dst) (a : Src) (b : OpB) (t : Ty) (s : State) : Result :=
  binStep s p d a b t.wide t.wide t.wide resXor

/-- `andn` (R92): a and not b. -/
def execAndn (p : Pred) (d : Dst) (a : Src) (b : OpB) (t : Ty) (s : State) : Result :=
  binStep s p d a b t.wide t.wide t.wide (resAndn t)

/-- `not` (R92). -/
def execNot (p : Pred) (d : Dst) (a : Src) (t : Ty) (s : State) : Result :=
  unStep s p d a t.wide t.wide (resNot t)

/-- `bfe` (R93). -/
def execBfe (p : Pred) (d : Dst) (a : Src) (b : OpB) (t : Ty) (s : State) : Result :=
  binStep s p d a b t.wide t.wide false (resBfe t)

/-- `bfi` (R93). -/
def execBfi (p : Pred) (d : Dst) (a : Src) (b : OpB) (c : Src) (t : Ty) (s : State) : Result :=
  triStep s p d a b c t.wide false t.wide (resBfi t)

/-- `pop` (R92): one 32-bit name. -/
def execPop (p : Pred) (d : Dst) (a : Src) (t : Ty) (s : State) : Result :=
  unStep s p d a false t.wide (resPop t)

/-- `clz` (R92): one 32-bit name. -/
def execClz (p : Pred) (d : Dst) (a : Src) (t : Ty) (s : State) : Result :=
  unStep s p d a false t.wide (resClz t)

/-- `ctz` (R92): one 32-bit name. -/
def execCtz (p : Pred) (d : Dst) (a : Src) (t : Ty) (s : State) : Result :=
  unStep s p d a false t.wide (resCtz t)

/-- `brev` (R92). -/
def execBrev (p : Pred) (d : Dst) (a : Src) (t : Ty) (s : State) : Result :=
  unStep s p d a t.wide t.wide (resBrev t)

/-- `lea` (R92): W(a + b × 2^scale). -/
def execLea (p : Pred) (d : Dst) (a : Src) (b : OpB) (t : Ty) (scale : BitVec 3) (s : State) : Result :=
  binStep s p d a b t.wide t.wide t.wide (resLea t scale.toNat)

/-- `mov` (R95): a name or a uniform register. -/
def execMov (p : Pred) (d : Dst) (a : OpB) (t : Ty) (s : State) : Result :=
  aluStep s p d t.wide (opbReads a p t.wide) priceLane (fun g sl l => (opbValue a g sl t.wide l, 0)) (opbRegs a)

/-- `movi` (R95): no source. -/
def execMovi (p : Pred) (d : Dst) (t : Ty) (imm : BitVec 32) (s : State) : Result :=
  aluStep s p d t.wide [] priceLane fun _ _ _ => (resMovi t imm, 0)

/-- `sel` (R95): every source is read, whichever is chosen. -/
def execSel (p : Pred) (d : Dst) (a : Src) (b : OpB) (c : Src) (t : Ty) (s : State) : Result :=
  triStep s p d a b c t.wide t.wide false resSel

/-- `cmp` (R94). -/
def execCmp (p : Pred) (qd : BitVec 4) (a : Src) (b : OpB) (t : Ty) (cond : Cond) (s : State) : Result :=
  predStep s p qd (readsOf p t.wide a ++ opbReads b p t.wide)
    (fun g sl l => (resCmp t cond (sl.value t.wide l a.name) (opbValue b g sl t.wide l), 0)) (opbRegs b)

end Sys2Proof.Machine
end

