-- ==== Sys2Proof/Machine/Transcend.lean ====
section
/-! DEFINITION. The frozen transcendentals (R101 to R103): the kernel points computed exactly or in fixed point far beyond the
30 bits they are rounded to, the 128-segment quadratic, the reductions and the special operands. -/

namespace Sys2Proof.Machine

/-- floor(√n), by bits from `b` down. -/
def sqrtBits : Nat → Nat → Nat → Nat
  | 0, _, acc => acc
  | b + 1, n, acc => let x := acc + 2 ^ b; sqrtBits b n (if x * x ≤ n then x else acc)

/-- floor(√n). -/
def isqrt (n : Nat) : Nat := sqrtBits (Nat.log2 n / 2 + 1) n 0

/-- The integer nearest to √(n/d). -/
def nearestSqrt (n d : Nat) : Nat := (isqrt (4 * n / d) + 1) / 2

/-- floor of the 256th root of n, by bits from `b` down. -/
def root256 : Nat → Nat → Nat → Nat
  | 0, _, acc => acc
  | b + 1, n, acc => let x := acc + 2 ^ b; root256 b n (if x ^ 256 ≤ n then x else acc)

/-- RNE of n/d as an integer. -/
def nearest (n d : Nat) : Nat := (roundQuotient .rne false n d).1

/-- Bits of the fixed point that the series use. -/
def fxBits : Nat := 160

/-- `k` bits of log2 of y / 2^fxBits in [1, 2), by repeated squaring, above `acc`. -/
def log2Bits : Nat → Nat → Nat → Nat
  | 0, _, acc => acc
  | k + 1, y, acc =>
    let z := y * y / 2 ^ fxBits
    if 2 ^ (fxBits + 1) ≤ z then log2Bits k (z / 2) (2 * acc + 1) else log2Bits k z (2 * acc)

/-- Σ of a power series in fixed point: each term is the one before times `x2` over (i+1)(i+2), with alternating sign. -/
def altSeries : Nat → Nat → Int → Nat → Nat → Int
  | 0, _, _, _, _ => 0
  | k + 1, term, sgn, x2, i =>
    sgn * term + altSeries k (term * x2 / 2 ^ fxBits / ((i + 1) * (i + 2))) (-sgn) x2 (i + 2)

/-- Σ x^i / i! in fixed point. -/
def expSeries : Nat → Nat → Nat → Nat → Nat
  | 0, _, _, _ => 0
  | k + 1, term, x, i => term + expSeries k (term * x / 2 ^ fxBits / (i + 1)) x (i + 1)

/-- floor(π × 2^160). -/
def piFx : Nat := 4591442807048218921384805199743311128454155024418

/-- The kernel functions of R102. -/
inductive Kern where
  | rcp | rsqEven | rsqOdd | sqrtEven | sqrtOdd | exp2 | log2 | sin | cos | tanh
deriving DecidableEq, Repr

/-- RNE(F(i/256) × 2^30) (R101), with the limits of R102 at 0. -/
def kernPoint (k : Kern) (i : Nat) : Nat :=
  let x := i * 2 ^ fxBits / 256
  match k with
  | .rcp => nearest (2 ^ 38) (256 + i)
  | .rsqEven => nearestSqrt (2 ^ 68) (256 + i)
  | .rsqOdd => nearestSqrt (2 ^ 67) (256 + i)
  | .sqrtEven => nearestSqrt (2 ^ 52 * (256 + i)) 1
  | .sqrtOdd => nearestSqrt (2 ^ 53 * (256 + i)) 1
  | .exp2 => (root256 33 (2 ^ (31 * 256 + i)) 0 + 1) / 2
  | .log2 =>
    if i = 0 then 1549082005
    else if i = 256 then 2 ^ 30
    else nearest (log2Bits 80 ((256 + i) * 2 ^ fxBits / 256) 0 * 256) (i * 2 ^ 50)
  | .sin =>
    let h := piFx * i / 512
    if i = 0 then nearest piFx (2 ^ (fxBits - 29))
    else nearest ((altSeries 24 h 1 (h * h / 2 ^ fxBits) 1).toNat * 256) (i * 2 ^ (fxBits - 30))
  | .cos =>
    let h := piFx * i / 512
    if i = 256 then 0
    else nearest (altSeries 24 (2 ^ fxBits) 1 (h * h / 2 ^ fxBits) 0).toNat (2 ^ (fxBits - 30))
  | .tanh =>
    if i = 0 then 2 ^ 30
    else
      let e := expSeries 40 (2 ^ fxBits) x 0
      nearest ((e - 2 ^ fxBits) * 2 ^ 31 * 256) ((e + 2 ^ fxBits) * i)

/-- Kernel(F, u) × 2^62 of R101, for u = m / 2^k in [0, 1). -/
def kernel (f : Kern) (m k : Nat) : Int :=
  let u : Nat := m * 2 ^ 23 / 2 ^ k
  let j : Nat := u / 65536
  let h : Int := ((u % 65536 : Nat) : Int)
  let y0 : Int := kernPoint f (2 * j)
  let y1 : Int := kernPoint f (2 * j + 1)
  let y2 : Int := kernPoint f (2 * j + 2)
  y0 * 2 ^ 32 + (4 * y1 - 3 * y0 - y2) * h * 65536 + (2 * y0 - 4 * y1 + 2 * y2) * h * h

/-- An exact rational value `num / den × 2^exp` (R102). -/
structure ExactZ where
  num : Int
  den : Nat
  exp : Int
deriving DecidableEq, Repr

/-- (1 + u) × 2^e of a nonzero magnitude m × 2^g: u = r / 2^k, and e (R102). -/
def normalise (m : Nat) (g : Int) : Nat × Nat × Int :=
  let k := Nat.log2 m
  (m - 2 ^ k, k, g + k)

/-- floor and fraction (r / 2^k) of the exact number (-1)^neg × m × 2^e. -/
def floorFrac (neg : Bool) (m : Nat) (e : Int) : Int × Nat × Nat :=
  match e with
  | .ofNat e => let v : Int := m * 2 ^ e; (if neg then -v else v, 0, 0)
  | .negSucc e =>
    let d := 2 ^ (e + 1)
    let v : Int := if neg then -(m : Int) else m
    (Int.fdiv v d, (v - Int.fdiv v d * d).toNat, e + 1)

/-- z of `fexp2` for a finite operand (R102): p × 2^n. -/
def zExp2 (neg : Bool) (m : Nat) (e : Int) : ExactZ :=
  let (n, r, k) := floorFrac neg m e
  ⟨kernel .exp2 r k, 1, n - 62⟩

/-- The quadrant table of R102 at a quarter turn: q, and v = r / 2^k. -/
def quadrant (isCos : Bool) (q r k : Nat) : ExactZ :=
  let s : ExactZ := ⟨kernel .sin r k * r, 1, -62 - (k : Int)⟩
  let c : ExactZ := ⟨kernel .cos r k, 1, -62⟩
  let flip (z : ExactZ) : ExactZ := { z with num := -z.num }
  match (if isCos then q + 1 else q) % 4 with
  | 0 => s
  | 1 => c
  | 2 => flip s
  | _ => flip c

/-- y = x − 2 floor(x/2) in quarter turns: q = floor(2y) and v = 2y − q (R102). -/
def zSinCos (isCos : Bool) (neg : Bool) (m : Nat) (e : Int) : ExactZ :=
  -- 2x modulo 4
  let (n, r, k) := floorFrac neg m (e + 1)
  quadrant isCos ((n % 4).toNat) r k

/-- z of `ftanh` for a finite nonzero operand (R102); a value at 9 or more is ±1, inexact. -/
def zTanh (neg : Bool) (m : Nat) (e : Int) : ExactZ × Bool :=
  let sgn : Int := if neg then -1 else 1
  if cmpMag m e 1 (-1) == .lt then
    let (_, r, k) := floorFrac false m (e + 1)
    (⟨sgn * kernel .tanh r k * m, 1, e - 62⟩, false)
  else if cmpMag m e 9 0 == .lt then
    let (kc, _) := fmt32.round ⟨.rne, false, false, false, false⟩ false (m * 0xB8AA3B) 1 (e - 22)
    match fmt32.decode kc with
    | .num _ km ke =>
      let z := zExp2 true km ke
      let (a, b) := scaleRat z.num.toNat 1 z.exp
      (⟨sgn * ((b : Int) - a), b + a, 0⟩, false)
    | _ => (⟨sgn, 1, 0⟩, true)
  else (⟨sgn, 1, 0⟩, true)

/-- The transcendental instructions. -/
inductive Trans where
  | rcp | rsq | sqrt | exp2 | log2 | sinpi | cospi | tanh
deriving DecidableEq, Repr

/-- z of R102 for a finite nonzero operand in the domain of the function, and whether it is inexact beyond its rounding. -/
def transZ (f : Trans) (neg : Bool) (m : Nat) (g : Int) : ExactZ × Bool :=
  let (r, k, e) := normalise m g
  let sgn : Int := if neg then -1 else 1
  let even := e % 2 == 0
  match f with
  | .rcp => (⟨sgn * kernel .rcp r k, 1, -62 - e⟩, false)
  | .rsq => (⟨kernel (if even then .rsqEven else .rsqOdd) r k, 1, -62 - Int.fdiv e 2⟩, false)
  | .sqrt => (⟨kernel (if even then .sqrtEven else .sqrtOdd) r k, 1, -62 + Int.fdiv e 2⟩, false)
  | .exp2 => (zExp2 neg m g, false)
  | .log2 => (⟨e * 2 ^ (62 + k) + r * kernel .log2 r k, 1, -62 - (k : Int)⟩, false)
  | .sinpi => (zSinCos false neg m g, false)
  | .cospi => (zSinCos true neg m g, false)
  | .tanh => zTanh neg m g

/-- The result of a transcendental (R101 to R103): RNE whatever the mode, sat 0, fin, fout and the NaN choice of `%fmt`. -/
def resTrans (f : Trans) (t : Ty) (a : Arith) (x : Nat) : Nat × FlagSet :=
  let ff := tyFloat t
  let a' : Arith := { a with mode := .rne, sat := false }
  let one (neg : Bool) : Nat := (ff.round a' neg 1 1 0).1
  let bad : Nat × FlagSet := (ff.canonicalNaN, flagInvalid)
  let v := ff.operand a (x % 2 ^ ff.width)
  match v with
  | .nan .. => ff.nanResult a [v]
  | .inf neg =>
    match f with
    | .rcp => (ff.signBit neg, 0)
    | .rsq => if neg then bad else (0, 0)
    | .sqrt | .log2 => if neg then bad else (ff.infinity false, 0)
    | .exp2 => if neg then (0, 0) else (ff.infinity false, 0)
    | .sinpi | .cospi => bad
    | .tanh => (one neg, 0)
  | .num neg m e =>
    if m = 0 then
      match f with
      | .rcp | .rsq => (ff.infinity neg, flagDivZero)
      | .sqrt | .sinpi | .tanh => (ff.signBit neg, 0)
      | .exp2 | .cospi => (one false, 0)
      | .log2 => (ff.infinity true, flagDivZero)
    else if neg && (f == .rsq || f == .sqrt || f == .log2) then bad
    else
      let (z, inx) := transZ f neg m e
      let (c, fl) := ff.round a' (decide (z.num < 0)) z.num.natAbs z.den z.exp
      (c, fl ||| flagIf inx flagInexact)

end Sys2Proof.Machine
end

