-- ==== Sys2Proof/Machine/Float.lean ====
section
/-! DEFINITION. Floating-point (R96 to R100), transcendental (R101 to R103), conversion and packing instructions (R104 to R109). -/

namespace Sys2Proof.Machine

/-- `fadd` (R97). -/
def execFadd (p : Pred) (d : Dst) (a : Src) (b : OpB) (t : Ty) (s : State) : Result :=
  floatStep2 s p d a b (resFadd t)

/-- `fsub` (R97). -/
def execFsub (p : Pred) (d : Dst) (a : Src) (b : OpB) (t : Ty) (s : State) : Result :=
  floatStep2 s p d a b (resFsub t)

/-- `fmul` (R97). -/
def execFmul (p : Pred) (d : Dst) (a : Src) (b : OpB) (t : Ty) (s : State) : Result :=
  floatStep2 s p d a b (resFmul t)

/-- `fmin` (R98). -/
def execFmin (p : Pred) (d : Dst) (a : Src) (b : OpB) (t : Ty) (s : State) : Result :=
  floatStep2 s p d a b (resFmin t)

/-- `fmax` (R98). -/
def execFmax (p : Pred) (d : Dst) (a : Src) (b : OpB) (t : Ty) (s : State) : Result :=
  floatStep2 s p d a b (resFmax t)

/-- `fma` (R97): one rounding. -/
def execFma (p : Pred) (d : Dst) (a : Src) (b : OpB) (c : Src) (t : Ty) (s : State) : Result :=
  floatStep3 s p d a b c (resFma t)

/-- `fabs` (R98). -/
def execFabs (p : Pred) (d : Dst) (a : Src) (t : Ty) (s : State) : Result :=
  unStep s p d a false false (resFabs t)

/-- `fneg` (R98). -/
def execFneg (p : Pred) (d : Dst) (a : Src) (t : Ty) (s : State) : Result :=
  unStep s p d a false false (resFneg t)

/-- `fcmp` (R99). -/
def execFcmp (p : Pred) (qd : BitVec 4) (a : Src) (b : OpB) (t : Ty) (cond : FCond) (s : State) : Result :=
  predStep s p qd (readsOf p false a ++ opbReads b p false)
    (fun g sl l => resFcmp t (Arith.of sl.fmt) cond (sl.value false l a.name) (opbValue b g sl false l)) (opbRegs b)

/-- `fclass` (R98). -/
def execFclass (p : Pred) (d : Dst) (a : Src) (t : Ty) (s : State) : Result :=
  unStep s p d a false false (resFclass t)

/-- `hadd2` (R100). -/
def execHadd2 (p : Pred) (d : Dst) (a : Src) (b : OpB) (t : Ty) (s : State) : Result :=
  floatStep2 s p d a b (resHadd2 t)

/-- `hmul2` (R100). -/
def execHmul2 (p : Pred) (d : Dst) (a : Src) (b : OpB) (t : Ty) (s : State) : Result :=
  floatStep2 s p d a b (resHmul2 t)

/-- `hfma2` (R100). -/
def execHfma2 (p : Pred) (d : Dst) (a : Src) (b : OpB) (c : Src) (t : Ty) (s : State) : Result :=
  floatStep3 s p d a b c (resHfma2 t)

/-- `frcp` (R101 to R103). -/
def execFrcp (p : Pred) (d : Dst) (a : Src) (t : Ty) (s : State) : Result :=
  floatStep1 s p d a priceTrans (resTrans .rcp t)

/-- `frsq` (R101 to R103). -/
def execFrsq (p : Pred) (d : Dst) (a : Src) (t : Ty) (s : State) : Result :=
  floatStep1 s p d a priceTrans (resTrans .rsq t)

/-- `fsqrt` (R101 to R103). -/
def execFsqrt (p : Pred) (d : Dst) (a : Src) (t : Ty) (s : State) : Result :=
  floatStep1 s p d a priceTrans (resTrans .sqrt t)

/-- `fexp2` (R101 to R103). -/
def execFexp2 (p : Pred) (d : Dst) (a : Src) (t : Ty) (s : State) : Result :=
  floatStep1 s p d a priceTrans (resTrans .exp2 t)

/-- `flog2` (R101 to R103). -/
def execFlog2 (p : Pred) (d : Dst) (a : Src) (t : Ty) (s : State) : Result :=
  floatStep1 s p d a priceTrans (resTrans .log2 t)

/-- `fsinpi` (R101 to R103). -/
def execFsinpi (p : Pred) (d : Dst) (a : Src) (t : Ty) (s : State) : Result :=
  floatStep1 s p d a priceTrans (resTrans .sinpi t)

/-- `fcospi` (R101 to R103). -/
def execFcospi (p : Pred) (d : Dst) (a : Src) (t : Ty) (s : State) : Result :=
  floatStep1 s p d a priceTrans (resTrans .cospi t)

/-- `ftanh` (R101 to R103). -/
def execFtanh (p : Pred) (d : Dst) (a : Src) (t : Ty) (s : State) : Result :=
  floatStep1 s p d a priceTrans (resTrans .tanh t)

/-- `cvt` (R104). -/
def execCvt (p : Pred) (d : Dst) (a : Src) (dt st : Ty) (rint : Bool) (s : State) : Result :=
  aluStep s p d dt.wide (readsOf p st.wide a) priceLane fun _ sl l =>
    resCvt (Arith.of sl.fmt) dt st rint (sl.value st.wide l a.name)

/-- `pack` (R105): C is not read for a 16-bit target. -/
def execPack (p : Pred) (d : Dst) (a b c : Src) (t st : Ty) (k : BitVec 2) (s : State) : Result :=
  let readsC : Bool := tyCodeBits t != 16
  aluStep s p d false (readsOf p false a ++ readsOf p false b ++ (if readsC then readsOf p false c else [])) priceLane
    fun _ sl l =>
      resPack (Arith.of sl.fmt) t st k.toNat (sl.value false l a.name) (sl.value false l b.name)
        (if readsC then sl.value false l c.name else 0)

/-- `unpack` (R106). -/
def execUnpack (p : Pred) (d : Dst) (a : Src) (t : Ty) (k : BitVec 3) (s : State) : Result :=
  floatStep1 s p d a priceLane fun f x => resUnpack f t k.toNat x

/-- The `mxq` block of the gang: the values of its participating lanes, fin applied (R107). -/
def mxBlock (c : Issue) (p : Pred) (a : Src) (st : Ty) : List FVal :=
  c.sls.flatMap fun i =>
    let sl := c.g.slices.get i
    ((List.range 4).filter fun l => (sl.active p).getLsbD l).map fun l =>
      rdFloat st (Arith.of sl.fmt) (sl.value false l a.name)

/-- `mxq` (R107): one block over the active lanes of the gang; a NaN or an infinity makes the scale 0xFF and every code 0, and
raises invalid in each slice that holds one. -/
def execMxq (p : Pred) (d : Dst) (a : Src) (t st : Ty) (s : State) : Result :=
  match issueOf s with
  | none => .next s
  | some c =>
    let (scale, bad) := mxScale t (mxBlock c p a st)
    aluStep s p d false (readsOf p false a) priceLane fun _ sl l =>
      let f := Arith.of sl.fmt
      let v := rdFloat st f (sl.value false l a.name)
      if bad then (255 * 256, match v with | .num .. => 0 | _ => flagInvalid)
      else
        let (x, fl) := mxCode t f scale v
        (scale * 256 + x, fl)

/-- `mxdq` (R108). -/
def execMxdq (p : Pred) (d : Dst) (a : Src) (t : Ty) (s : State) : Result :=
  floatStep1 s p d a priceLane fun f x => resMxdq f t x

/-- `sp24` (R109). -/
def execSp24 (p : Pred) (d : Dst) (a : Src) (t : Ty) (s : State) : Result :=
  unStep s p d a false false (resSp24 t)

end Sys2Proof.Machine
end

