-- ==== Sys2Proof/Machine/Pair.lean ====
section
/-! DEFINITION. Lane pairs (R76 to R79): two operations that read before either writes. -/

namespace Sys2Proof.Machine

/-- What a half computes from its three source words (R78, R79): the format-L operation of the same mnemonic and type. -/
def pairResult (f : Arith) (op : BitVec 7) (a b c : Nat) : Nat × FlagSet :=
  match op.toNat with
  | 0x00 => resFadd .f32 f a b
  | 0x01 => resFsub .f32 f a b
  | 0x02 => resFmul .f32 f a b
  | 0x03 => resFma .f32 f a b c
  | 0x04 => resFadd .f16 f a b
  | 0x05 => resFsub .f16 f a b
  | 0x06 => resFmul .f16 f a b
  | 0x07 => resFma .f16 f a b c
  | 0x08 => resFadd .bf16 f a b
  | 0x09 => resFsub .bf16 f a b
  | 0x0A => resFmul .bf16 f a b
  | 0x0B => resFma .bf16 f a b c
  | 0x0C => resHadd2 .f16 f a b
  | 0x0D => resHmul2 .f16 f a b
  | 0x0E => resHfma2 .f16 f a b c
  | 0x10 => resHadd2 .bf16 f a b
  | 0x11 => resHmul2 .bf16 f a b
  | 0x12 => resHfma2 .bf16 f a b c
  | 0x14 => (resMad .s32 a b c, 0)
  | 0x15 => (resMad .n32 a b c, 0)
  | 0x40 => (resAdd .s32 false a b, 0)
  | 0x41 => (resAdd .n32 false a b, 0)
  | 0x42 => (resSub .s32 false a b, 0)
  | 0x43 => (resSub .n32 false a b, 0)
  | 0x44 => (resMin .s32 a b, 0)
  | 0x45 => (resMin .n32 a b, 0)
  | 0x46 => (resMax .s32 a b, 0)
  | 0x47 => (resMax .n32 a b, 0)
  | 0x48 => (resAnd a b, 0)
  | 0x49 => (resOr a b, 0)
  | 0x4A => (resXor a b, 0)
  | 0x4B => (resAndn .b32 a b, 0)
  | 0x4C => (resNot .b32 a, 0)
  | 0x4D => (resShl .b32 a b, 0)
  | 0x4E => (resShr .b32 a b, 0)
  | 0x4F => (resSar .b32 a b, 0)
  | 0x50 => (resRot .b32 a b, 0)
  | 0x51 => (resSel a b c, 0)
  | 0x52 => (a, 0)
  | 0x53 => (resNeg .s32 a, 0)
  | 0x54 => (resAbs .s32 a, 0)
  | _ => (0, 0)

/-- A half's predicate (R76): q0 to q3, never negated. -/
def halfPred (h : Half) : Pred := ⟨h.q.setWidth 4, false⟩

/-- The appearances of a half's sources, trap bits 0 (R76). -/
def halfReads (h : Half) : List NameRead := h.reads.map fun n => ⟨halfPred h, ⟨n, false⟩⟩

/-- A half's result on a lane. -/
def halfResult (h : Half) (sl : Slice) (l : Nat) : Nat × FlagSet :=
  pairResult (Arith.of sl.fmt) h.op (sl.value false l h.a) (sl.value false l h.b) (sl.value false l h.c)

/-- A half's destination. -/
def halfDest (h : Half) : Dst := ⟨h.dst, h.uses.setWidth 3⟩

/-- A lane pair (R78). -/
def execLanePair (x y : Half) (s : State) : Result :=
  match issueOf s with
  | none => .next s
  | some c => .next <|
    let sl (i : Nat) : Slice := c.g.slices.get i
    let writes (h : Half) : List NameWrite :=
      destWrites false (halfDest h) (fun i => (sl i).active (halfPred h)) fun i l => (halfResult h (sl i) l).1
    let flags (h : Half) (i : Nat) : FlagSet := flagsOn ((sl i).active (halfPred h)) fun l => (halfResult h (sl i) l).2
    let rs := halfReads x ++ halfReads y
    laneStep s c rs [(halfPred x, x.dst.toNat), (halfPred y, y.dst.toNat)] none fun _ =>
      (c.commit s rs (writes x ++ writes y) fun i => flags x i ||| flags y i).map fun s => c.advance s 12 pricePair

end Sys2Proof.Machine
end

