-- ==== Sys2Proof/Machine/Control.lean ====
section
/-! DEFINITION. Control transfer (R111 to R118), `regang` (R119, R120), `drop` and `free` (R122), patterns (R134 to R136) and the
floor stack that calls and jump tables move (R147). `exit` stands in Lifecycle.lean. -/

namespace Sys2Proof.Machine

/-! ### Floors (R147) -/

/-- The extra floor of a procedure: bits 8:0 of a header word at target − 4, 0 without one (R23, R117). -/
def extraFloor (code : Memory) (size : Nat) (target : Word32) : Nat :=
  if target.toNat < 4 || size < target.toNat then 0
  else
    let w := codeWord code (target.toNat - 4)
    if (w.extractLsb' 9 23).toNat = 0xFF * 2 ^ 13 then (w.extractLsb' 0 9).toNat else 0

/-- The reservation total of section `i` of a core, over the groups the predicate selects (R139). -/
def reservedIn (s : State) (core i : Nat) (sel : Group → Bool) : Nat :=
  ((s.groups.filter fun g => g.resident core && sel g).map fun g => reservationOf s g i).sum

/-- The slice with the record of its top floor entry replaced. -/
def Slice.setFloor (sl : Slice) (n : Nat) : Slice :=
  match sl.floors with
  | [] => { sl with floors := [n] }
  | _ :: r => { sl with floors := n :: r }

/-- What a raise asks for as the core stands: the amount, cut to what could fit with every other team's reservations gone (R147). -/
def raiseCut (s : State) (g : Group) (i amount : Nat) : Nat :=
  let limit := (s.core g.core).vsLimit
  let own := reservedIn s g.core i fun h => h.team == g.team
  if limit < own + amount then limit - own else amount

/-- Whether a raise fits in section `i` of a group's core (R147). -/
def raiseFits (s : State) (g : Group) (i amount : Nat) : Bool :=
  decide (reservedIn s g.core i (fun _ => true) + raiseCut s g i amount ≤ (s.core g.core).vsLimit)

/-- A raise asked for by slice `i`, whose top floor entry records 0 for now: granted at once when it fits, as cut, and waited for
otherwise; the wait keeps the amount asked, which is cut anew at each look (R147). -/
def askFloor (s : State) (gid i amount : Nat) : State :=
  match s.group gid with
  | none => s
  | some g =>
    if raiseFits s g i amount then
      s.modGroup gid fun g' => g'.modSlice i fun sl => sl.setFloor (raiseCut s g i amount)
    else
      s.modGroup gid fun g =>
        let pc := (g.slices.get i).pc
        { g with waits := g.waits ++ [{ slices := sliceBits [i], pc := pc, next := pc, kind := .floorRaise amount, priv := g.priv }] }

/-- A waiting raise granted: the slice's top entry records it, and its wait is over; slices of the gang that still wait part from it
(R115, R147). -/
def Group.grantFloor (g : Group) (w : GangWait) (i amount : Nat) : Group :=
  ({ g.modSlice i fun sl => sl.setFloor amount with waits := g.waits.filter fun v => v != w } : Group).splitGangs

/-- Entry by call: each moved slice pushes an entry and asks for its target's extra floor (R147). -/
def pushFloors (s : State) (gid : Nat) (moved : List (Nat × Word32)) (code : Memory) (size : Nat) : State :=
  moved.foldl (fun s m =>
    askFloor (s.modGroup gid fun g => g.modSlice m.1 fun sl => { sl with floors := 0 :: sl.floors }) gid m.1
      (extraFloor code size m.2)) s

/-- Entry by jump table: each moved slice releases its top entry's amount and asks for its target's in its place (R147). -/
def replaceFloors (s : State) (gid : Nat) (moved : List (Nat × Word32)) (code : Memory) (size : Nat) : State :=
  moved.foldl (fun s m =>
    askFloor (s.modGroup gid fun g => g.modSlice m.1 fun sl => sl.setFloor 0) gid m.1 (extraFloor code size m.2)) s

/-- `ret` pops the top entry unless it is the base entry (R147). -/
def Slice.popFloor (sl : Slice) : Slice :=
  match sl.floors with
  | _ :: f :: r => { sl with floors := f :: r }
  | _ => sl

/-! ### Room for deep stacks (R43, R147) -/

/-- Entries of a group's reconvergence and floor stacks below the 8 the core holds, once each slice has pushed so many more of
each. -/
def Group.spilledAfter (g : Group) (more : Nat → Nat × Nat) : Nat :=
  ((List.range 8).map fun i =>
    ((g.slices.get i).stack.length + (more i).1 - 8) + ((g.slices.get i).floors.length + (more i).2 - 8)).sum

/-- Those entries as the group stands. -/
def Group.spilledEntries (g : Group) : Nat := g.spilledAfter fun _ => (0, 0)

/-- 64 KiB chunks of the die's pool in use: the save areas' stack areas lie outside this count. -/
def chunksUsed (s : State) (part die : Nat) : Nat :=
  ((s.groups.filter fun g => g.part == part && dieOfCore g.core == die && g.status != .gone).map fun g => g.chunks).sum

/-- A die's share of its partition's save-area pool (R235; log 8): where it begins, and its bytes. -/
def poolShare (s : State) (part die : Nat) : Nat × Nat :=
  match tabGet? s.parts part with
  | some p => (p.cfg.poolBase + p.cfg.dies.idxOf die * (p.cfg.poolSize / p.cfg.dies.length), p.cfg.poolSize / p.cfg.dies.length)
  | none => (0, 0)

/-- 1 MiB save areas in use in a die's share. -/
def areasUsed (s : State) (part die : Nat) : Nat :=
  let (base, size) := poolShare s part die
  (s.groups.filter fun g => g.part == part && g.status != .gone && decide (base ≤ g.area) && decide (g.area < base + size)).length

/-- The chunks the save-area pool of a die can still give (R235): what its save areas leave (log 8). -/
def chunksFree (s : State) (part die : Nat) : Nat :=
  ((poolShare s part die).2 - areasUsed s part die * Config.saveAreaBytes) / 65536 - chunksUsed s part die

/-- The save areas it can still give. -/
def areasFree (s : State) (part die : Nat) : Nat :=
  ((poolShare s part die).2 - chunksUsed s part die * 65536) / Config.saveAreaBytes - areasUsed s part die

/-- Chunks a group needs for a number of spilled entries: its own stack area holds 8,192 of 8 bytes. -/
def chunksFor (entries : Nat) : Nat := (entries - 8192 + 8191) / 8192

/-- Pushes of the gang's slices, as reconvergence and floor entries, that find the pool exhausted (R43, R147): machine check,
sub-cause 5. -/
def stackTrap (s : State) (c : Issue) (more : Nat → Nat × Nat) : Option Trap :=
  let need := chunksFor (c.g.spilledAfter fun i => if c.sls.contains i then more i else (0, 0))
  if need ≤ c.g.chunks + chunksFree s c.g.part (dieOfCore c.g.core) then none else some { cause := 11, sub := 5 }

/-- The chunks taken after a push (R43, R235). The spec gives a spilled entry no place in them: the entries stay in the slice and the stack
part of the save area holds nothing (log 33). -/
def growChunks (s : State) (gid : Nat) : State :=
  s.modGroup gid fun g => { g with chunks := max g.chunks (chunksFor g.spilledEntries) }

/-! ### Transfers (R112 to R118) -/

/-- The join address (R111). -/
def joinAddr (pc : Word32) (join : BitVec 20) : Word32 := pc + (join.signExtend 32) * 4

/-- A trap when a condition holds. -/
def trapIf (b : Bool) (cause : Nat) : Option Trap := if b then some { cause := cause } else none

/-- The first trap of a list. -/
def firstTrap : List (Option Trap) → Option Trap
  | [] => none
  | some t :: _ => some t
  | none :: r => firstTrap r

/-- A mask that is neither empty nor the whole of another. -/
def divides (t m : BitVec 4) : Bool := t != 0 && t != m

/-- `br` (R114): the fall-through lanes run first, the taken lanes are held. -/
def execBr (p : Pred) (u : Bool) (join : BitVec 20) (disp : BitVec 32) (s : State) : Result :=
  match issueOf s with
  | none => .next s
  | some c => .next <|
    let (_, size) := s.codeOf c.g
    let sl (i : Nat) : Slice := c.g.slices.get i
    let taken (i : Nat) : BitVec 4 := (sl i).active p
    let target := c.pc + disp
    let j := joinAddr c.pc join
    let any := c.sls.any fun i => taken i != 0
    let splits := c.sls.any fun i => divides (taken i) (sl i).mask
    let entry := firstTrap
      [trapIf (u && any && c.sls.any fun i => taken i != (sl i).mask) 3,
       trapIf (!u && join == 0 && splits) 3,
       trapIf (any && !targetOk size target) 1,
       trapIf (splits && !targetOk size j) 1,
       stackTrap s c fun i => (if divides (taken i) (sl i).mask then 2 else 0, 0)]
    laneStep s c [] [] entry fun _ => .ok <|
      let s := s.modGroup c.gid fun g => g.modSlices c.sls fun i sl =>
        sl.diverge (sl.mask &&& ~~~taken i) (c.pc + 12) (taken i) target j
      growChunks (c.done s priceLane) c.gid

/-- The uniformity check of `call`, `calli` and `jmpi` (R116): predicates and targets of the gang's active lanes agree. -/
def unequal (c : Issue) (p : Pred) (target : Nat → Nat → Word32) : Bool :=
  let lanes := c.sls.flatMap fun i =>
    ((List.range 4).filter fun l => (c.g.slices.get i).mask.getLsbD l).map fun l => (i, l)
  let isOn (x : Nat × Nat) : Bool := ((c.g.slices.get x.1).active p).getLsbD x.2
  let on := lanes.filter isOn
  match on with
  | [] => false
  | x :: _ => on.length != lanes.length || on.any fun y => target y.1 y.2 != target x.1 x.2

/-- `call` (R117): the link is pc + 12 on the lanes it transfers. -/
def execCall (p : Pred) (u : Bool) (d : Dst) (disp : BitVec 32) (s : State) : Result :=
  match issueOf s with
  | none => .next s
  | some c => .next <|
    let (code, size) := s.codeOf c.g
    let sl (i : Nat) : Slice := c.g.slices.get i
    let on (i : Nat) : BitVec 4 := (sl i).active p
    let target := c.pc + disp
    let any := c.sls.any fun i => on i != 0
    let entry := firstTrap
      [trapIf (u && unequal c p fun _ _ => target) 3, trapIf (any && !targetOk size target) 1,
       stackTrap s c fun i => (if divides (on i) (sl i).mask then 2 else 0, if on i = 0 then 0 else 1)]
    laneStep s c [] ((destNames false d).map fun n => (p, n)) entry fun _ =>
      (c.commit s [] (destWrites false d on fun _ _ => (c.pc + 12).toNat) fun _ => 0).map fun s =>
        let s := s.modGroup c.gid fun g => g.modSlices c.sls fun i sl =>
          sl.diverge (on i) target (sl.mask &&& ~~~on i) (c.pc + 12) (c.pc + 12)
        let moved := (c.sls.filter fun i => on i != 0).map fun i => (i, target)
        growChunks (c.done (pushFloors s c.gid moved code size) priceLane) c.gid

/-- The grouping of `calli` and `jmpi` in a slice: the target of the lowest lane of T, and the lanes of T that share it (R117). -/
def firstTarget (on : BitVec 4) (target : Nat → Word32) : Option (Word32 × BitVec 4) :=
  match (List.range 4).find? fun l => on.getLsbD l with
  | none => none
  | some l0 =>
    some (target l0, BitVec.ofNat 4
      (((List.range 4).filter fun l => on.getLsbD l && target l == target l0).map fun l => 2 ^ l).sum)

/-- `calli` (R117): the lanes of the lowest lane's target go first, the others re-execute it. -/
def execCalli (p : Pred) (u : Bool) (d : Dst) (a : Src) (s : State) : Result :=
  match issueOf s with
  | none => .next s
  | some c => .next <|
    let (code, size) := s.codeOf c.g
    let sl (i : Nat) : Slice := c.g.slices.get i
    let target (i l : Nat) : Word32 := (sl i).datum l a.name.toNat
    let first (i : Nat) : Option (Word32 × BitVec 4) := firstTarget ((sl i).active p) (target i)
    let go (i : Nat) : BitVec 4 := match first i with | some f => f.2 | none => 0
    let addr (i : Nat) : Word32 := match first i with | some f => f.1 | none => c.pc + 12
    let entry := firstTrap
      [trapIf (u && unequal c p target) 3, trapIf (c.sls.any fun i => go i != 0 && !targetOk size (addr i)) 1,
       stackTrap s c fun i => (if divides (go i) (sl i).mask then 2 else 0, if go i = 0 then 0 else 1)]
    laneStep s c (readsOf p false a) ((destNames false d).map fun n => (p, n)) entry fun _ =>
      (c.commitWith s (fun i sl => sl.consumeOn a.name.toNat (go i)) (destWrites false d go fun _ _ => (c.pc + 12).toNat)
        fun _ => 0).map fun s =>
        let s := s.modGroup c.gid fun g => g.modSlices c.sls fun i sl =>
          if go i = 0 then { sl with pc := c.pc + 12 }
          else sl.diverge (go i) (addr i) (sl.mask &&& ~~~go i) c.pc (c.pc + 12)
        let moved := (c.sls.filter fun i => go i != 0).map fun i => (i, addr i)
        growChunks (c.done (pushFloors s c.gid moved code size) priceLane) c.gid

/-- `ret` (R117): every active lane of a slice holds one return address. -/
def execRet (u : Bool) (a : Src) (s : State) : Result :=
  match issueOf s with
  | none => .next s
  | some c => .next <|
    let (_, size) := s.codeOf c.g
    let sl (i : Nat) : Slice := c.g.slices.get i
    let first (i : Nat) : Option (Word32 × BitVec 4) := firstTarget (sl i).mask fun l => (sl i).datum l a.name.toNat
    let addr (i : Nat) : Word32 := match first i with | some f => f.1 | none => (sl i).pc
    let entry := firstTrap
      [trapIf (u && unequal c .always fun i l => (sl i).datum l a.name.toNat) 3,
       trapIf (c.sls.any fun i => match first i with | some f => f.2 != (sl i).mask | none => false) 3,
       trapIf (c.sls.any fun i => !targetOk size (addr i)) 1]
    let rs := readsOf .always false a
    laneStep s c rs [] entry fun _ =>
      (c.commit s rs [] fun _ => 0).map fun s =>
        c.done (s.modGroup c.gid fun g => g.modSlices c.sls fun i sl => { sl with pc := addr i }.popFloor) priceLane

/-- `jmpi` (R118): an index beyond the table takes its last entry. A table word outside the code section traps before the targets are
compared (log 14). -/
def execJmpi (p : Pred) (u : Bool) (n : BitVec 12) (a : Src) (join : BitVec 20) (disp : BitVec 32) (s : State) : Result :=
  match issueOf s with
  | none => .next s
  | some c => .next <|
    let (code, size) := s.codeOf c.g
    let sl (i : Nat) : Slice := c.g.slices.get i
    let table := c.pc + disp
    let place (i l : Nat) : Nat := table.toNat + 4 * min ((sl i).datum l a.name.toNat).toNat n.toNat
    let target (i l : Nat) : Word32 := table + codeWord code (place i l)
    let first (i : Nat) : Option (Word32 × BitVec 4) := firstTarget ((sl i).active p) (target i)
    let go (i : Nat) : BitVec 4 := match first i with | some f => f.2 | none => 0
    let addr (i : Nat) : Word32 := match first i with | some f => f.1 | none => c.pc + 12
    let j := joinAddr c.pc join
    let splits := c.sls.any fun i => divides (go i) (sl i).mask
    let outside := c.sls.any fun i =>
      (List.range 4).any fun l => ((sl i).active p).getLsbD l && decide (size < place i l + 4)
    let entry := firstTrap
      [trapIf outside 1, trapIf (u && unequal c p target) 3, trapIf (!u && join == 0 && splits) 3,
       trapIf (c.sls.any fun i => go i != 0 && !targetOk size (addr i)) 1, trapIf (splits && !targetOk size j) 1,
       stackTrap s c fun i => (if divides (go i) (sl i).mask then 2 else 0, 0)]
    laneStep s c (readsOf p false a) [] entry fun _ =>
      (c.commitWith s (fun i sl => sl.consumeOn a.name.toNat (go i)) [] fun _ => 0).map fun s =>
        let s := s.modGroup c.gid fun g => g.modSlices c.sls fun i sl =>
          if go i = 0 then { sl with pc := c.pc + 12 } else sl.diverge (go i) (addr i) (sl.mask &&& ~~~go i) c.pc j
        let moved := (c.sls.filter fun i => go i != 0).map fun i => (i, addr i)
        growChunks (c.done (replaceFloors s c.gid moved code size) priceLane) c.gid

/-! ### Waits of a group on itself (R119, R120, R126) -/

/-- The wait a slice is in, among those of the group's present state of privilege. -/
def Group.waitOf (g : Group) (i : Nat) : Option GangWait := g.waits.find? fun w => w.slices.getLsbD i && w.priv == g.priv

/-- The tag all live slices wait for in `regang`, if they all do. -/
def Group.regangTag (g : Group) : Option (BitVec 8) :=
  let tagOf (i : Nat) : Option (BitVec 8) := match g.waitOf i with
    | some w => match w.kind with | .regang t => some t | _ => none
    | none => none
  match g.liveSlices with
  | [] => none
  | i :: is =>
    match tagOf i with
    | some t => if is.all fun j => tagOf j == some t then some t else none
    | none => none

/-- The release of `regang` (R119): every waiting slice continues after its own instruction, and slices with equal PCs form one gang. -/
def Group.releaseRegang (g : Group) : Group :=
  let (out, keep) := g.waits.partition fun w => w.priv == g.priv && (match w.kind with | .regang _ => true | _ => false)
  let g := out.foldl Group.release { g with waits := keep }
  g.regroup g.liveSlices

/-- The slices that hold a live member lane of a mask (R126). -/
def Group.needed (g : Group) (members : Word32) : List Nat :=
  (List.range 8).filter fun i =>
    let m : BitVec 4 := members.extractLsb' (4 * i) 4
    (m &&& ~~~(g.slices.get i).exited) != 0

/-- Two lists of slices that share one. -/
def meets (a b : List Nat) : Bool := a.any fun i => b.contains i

/-- Whether a rendezvous wait can be released: every slice it needs waits at the same instruction (R120), or it needs none of its own
(R126). -/
def Group.rendezvousReady (g : Group) (w : GangWait) : Bool :=
  match w.kind with
  | .rendezvous m _ =>
    !meets (g.needed m) w.list || (g.needed m).all fun i => match g.waitOf i with
      | some v => v.pc == w.pc && (match v.kind with | .rendezvous .. => true | _ => false)
      | none => false
  | _ => false

/-- The rendezvous waits that the exit of lanes and the death of slices have left with nobody to wait for: their gangs issue, with the masks
they have read (R126). -/
def Group.reexamine (g : Group) : Group :=
  { g with waits := g.waits.map fun w =>
      if w.priv == g.priv && g.rendezvousReady w then
        { w with kind := match w.kind with | .rendezvous m _ => .rendezvous m true | k => k }
      else w }

/-- The trap of a group that waits on itself (R120): every live slice waits in `regang` or a rendezvous, none can be released. -/
def Group.selfWait (g : Group) : Option (Trap × Nat) :=
  let inside (i : Nat) : Bool := match g.waitOf i with
    | some w => match w.kind with | .regang _ | .rendezvous .. => true | _ => false
    | none => false
  let live := g.liveSlices
  if live.isEmpty || !live.all inside || g.regangTag.isSome || g.waits.any g.rendezvousReady then none
  else
    match live with
    | [] => none
    | i :: _ => match g.waitOf i with
      | some w => match w.kind with
        | .rendezvous .. => some ({ cause := 6 }, i)
        | _ => some ({ cause := 3 }, i)
      | none => none

/-- What follows a new wait or a slice's end: the release of `regang`, or the trap of R120. -/
def settleGroup (s : State) (gid : Nat) : State :=
  match s.group gid with
  | none => s
  | some g =>
    if g.regangTag.isSome then s.modGroup gid Group.releaseRegang
    else match g.selfWait with
      | some (t, i) => trapEntry s gid t [i]
      | none => s

/-- `regang` (R119). -/
def execRegang (tag : BitVec 8) (s : State) : Result :=
  match issueOf s with
  | none => .next s
  | some c => .next (laneStep s c [] [] none fun _ => .ok (settleGroup (c.await s (.regang tag) priceLane) c.gid))

/-- `nop` (R121). -/
def execNop (_ : Pred) (s : State) : Result :=
  match issueOf s with
  | none => .next s
  | some c => .next (c.advance s 12 priceLane)

/-! ### `drop` and `free` (R122) -/

/-- A name's counts changed on the lanes of a mask, the cell freed when that empties it. -/
def Slice.changeCount (sl : Slice) (n : Nat) (mask : BitVec 4) (f : BitVec 3 → BitVec 3) (unpin : Bool) : Slice :=
  match sl.cell n with
  | none => sl
  | some c =>
    if mask = 0 then sl
    else sl.putCell n
      { c with
        count := Quad.make fun l => if mask.getLsbD l && (unpin || !c.pin.get l) then f (c.count.get l) else c.count.get l
        pin := Quad.make fun l => if mask.getLsbD l && unpin then false else c.pin.get l }

/-- The exhausted-name condition of `drop` in a slice (R122). -/
def Slice.dropExhausted (sl : Slice) (p : Pred) (n : Nat) (k : BitVec 3) : Bool :=
  sl.active p != 0 &&
    match sl.cell n with
    | none => true
    | some c => (List.range 4).any fun l =>
      (sl.active p).getLsbD l && !c.pin.get l && decide ((c.count.get l).toNat < k.toNat)

/-- `drop` (R122). -/
def execDrop (p : Pred) (a : Src) (n : BitVec 3) (s : State) : Result :=
  match issueOf s with
  | none => .next s
  | some c => .next <|
    let sl (i : Nat) : Slice := c.g.slices.get i
    if c.sls.any fun i => (sl i).dropExhausted p a.name.toNat n then c.trap s { cause := 4 }
    else if c.sls.any fun i => (sl i).emptyRead [⟨p, a⟩] then c.trap s { cause := 5 }
    else laneStep s c [] [(p, a.name.toNat)] none fun _ => .ok <|
      c.advance (s.modGroup c.gid fun g => g.modSlices c.sls fun i x =>
        x.changeCount a.name.toNat ((sl i).active p) (fun k => k - n) false) 12 priceLane

/-- `free` (R122). -/
def execFree (p : Pred) (a : BitVec 9) (s : State) : Result :=
  match issueOf s with
  | none => .next s
  | some c => .next <|
    laneStep s c [] [(p, a.toNat)] none fun _ => .ok <|
      c.advance (s.modGroup c.gid fun g => g.modSlices c.sls fun i x =>
        x.changeCount a.toNat ((c.g.slices.get i).active p) (fun _ => 0) true) 12 priceLane

/-! ### Patterns (R134 to R136) -/

/-- The address of a pattern (R135). -/
def patAddr (pc : Word32) (pat : BitVec 26) : Word32 := pc.extractLsb' 6 26 ++ 0#6 + (pat ++ 0#6 : BitVec 32)

/-- Where the code a group executes stands in its partition's memory (R230, R352). -/
def State.codeBase (s : State) (g : Group) : Nat :=
  if g.priv then (match tabGet? s.parts g.part with | some p => p.cfg.handler | none => 0)
  else match s.grids[g.grid]? with | some d => d.cmd.image | none => 0

/-- The pricking's key of a pattern: its absolute code address, in its partition's address space (R135). -/
def patKey (s : State) (g : Group) (a : Word32) : Nat := g.part * 2 ^ 64 + (s.codeBase g + a.toNat) % 2 ^ 64

/-- A pattern copied into the pricking, in the least recently used slot of 16 (R135). -/
def Core.prick (k : Core) (key : Nat) : Core :=
  { k with pricking := (key :: k.pricking.filter fun x => x != key).take 16 }

/-- `patld` (R135): a hint; a block outside the code section loads nothing. -/
def execPatld (pat : BitVec 26) (s : State) : Result :=
  match issueOf s with
  | none => .next s
  | some c => .next <|
    let (_, size) := s.codeOf c.g
    let a := patAddr c.pc pat
    let s := if a.toNat + 64 ≤ size then s.setCore c.g.core ((s.core c.g.core).prick (patKey s c.g a)) else s
    c.advance s 12 priceLane

/-- The words of a pattern. -/
def patWords (code : Memory) (a : Nat) : List Word32 := (List.range 16).map fun i => codeWord code (a + 4 * i)

/-- A pattern word that is an operation (R134). -/
def patWordOk (w : Word32) : Bool :=
  let op := (w.extractLsb' 26 6).toNat
  if op = 0x11 then (w.extractLsb' 16 7).toNat == 0
  else decide (1 ≤ op) && decide (op ≤ 0x12) && (w.extractLsb' 0 14).toNat == 0

/-- The checks of R136 over a pattern: operations up to the first end word, end words after it. -/
def patOk : List Word32 → Bool
  | [] => true
  | w :: r => if w = 0 then r.all fun x => x == 0 else patWordOk w && patOk r

/-- The temporaries of a slice's four lanes, t0 to t7. -/
abbrev Temps := Quad (List Nat)

/-- Temporary `i` of a lane. -/
def temp (t : Temps) (l i : Nat) : Nat := (t.get l).getD i 0

/-- The slice's sum of a temporary over the active lanes, by the tree (0,1), (2,3), root (R134): none where nothing takes part. -/
def sliceSum (f : Arith) (mask : BitVec 4) (x : Nat → Nat) : Option Nat × FlagSet :=
  let leaf (l : Nat) : Option Nat × FlagSet :=
    if mask.getLsbD l then let v := fmt32.leafIn f false (x l); (some v.1, v.2) else (none, 0)
  let node (a b : Option Nat × FlagSet) : Option Nat × FlagSet :=
    match a.1, b.1 with
    | some u, some v => let (r, fl) := resFadd .f32 f u v; (some r, a.2 ||| b.2 ||| fl)
    | some u, none => (some u, a.2 ||| b.2)
    | none, v => (v, a.2 ||| b.2)
  node (node (leaf 0) (leaf 1)) (node (leaf 2) (leaf 3))

/-- The result of a pattern operation other than `red.add` on one lane (R134). -/
def patResult (f : Arith) (w : Word32) (a b c : Nat) : Nat × FlagSet :=
  match (w.extractLsb' 26 6).toNat with
  | 0x01 => resFadd .f32 f a b
  | 0x02 => resFsub .f32 f a b
  | 0x03 => resFmul .f32 f a b
  | 0x04 => resFma .f32 f a b c
  | 0x05 => resFmin .f32 f a b
  | 0x06 => resFmax .f32 f a b
  | 0x07 => (resAdd .s32 false a b, 0)
  | 0x08 => (resSub .s32 false a b, 0)
  | 0x09 => (resMul .s32 a b, 0)
  | 0x0A => (resAnd a b, 0)
  | 0x0B => (resOr a b, 0)
  | 0x0C => (resXor a b, 0)
  | 0x0D => (resShl .b32 a b, 0)
  | 0x0E => (resShr .b32 a b, 0)
  | 0x0F => (resSel a b c, 0)
  | 0x10 => (a, 0)
  | _ => (((w.extractLsb' 0 16).signExtend 32).toNat, 0)

/-- One pattern operation on the active lanes of a slice (R136). -/
def patStep (f : Arith) (mask : BitVec 4) (w : Word32) (x : Temps × FlagSet) : Temps × FlagSet :=
  let (t, fl) := x
  let d := (w.extractLsb' 23 3).toNat
  let a := (w.extractLsb' 20 3).toNat
  let b := (w.extractLsb' 17 3).toNat
  let c := (w.extractLsb' 14 3).toNat
  if (w.extractLsb' 26 6).toNat = 0x12 then
    let (r, g) := sliceSum f mask fun l => temp t l a
    (Quad.make fun l => if mask.getLsbD l then (t.get l).set d (r.getD 0) else t.get l, fl ||| g)
  else
    let res (l : Nat) : Nat × FlagSet := patResult f w (temp t l a) (temp t l b) (temp t l c)
    (Quad.make fun l => if mask.getLsbD l then (t.get l).set d (res l).1 else t.get l, fl ||| flagsOn mask fun l => (res l).2)

/-- A whole pattern on a slice, up to the end word. -/
def patRun (f : Arith) (mask : BitVec 4) : List Word32 → Temps × FlagSet → Temps × FlagSet
  | [], x => x
  | w :: r, x => if w = 0 then x else patRun f mask r (patStep f mask w x)

/-- `weave` (R136). -/
def execWeave (p : Pred) (d : Dst) (a b c : Src) (n : BitVec 2) (pat : BitVec 26) (s : State) : Result :=
  match issueOf s with
  | none => .next s
  | some i => .next <|
    let (code, size) := s.codeOf i.g
    let addr := patAddr i.pc pat
    let ws := patWords code addr.toNat
    let entry := trapIf (decide (size < addr.toNat + 64) || !patOk ws) 1
    let rs := readsOf p false a ++ (if 2 ≤ n.toNat then readsOf p false b else []) ++
      (if n.toNat = 3 then readsOf p false c else [])
    let sl (k : Nat) : Slice := i.g.slices.get k
    let run (k : Nat) : Temps × FlagSet :=
      patRun (Arith.of (sl k).fmt) ((sl k).active p) ws
        (Quad.make fun l =>
          [(sl k).value false l a.name, if 2 ≤ n.toNat then (sl k).value false l b.name else 0,
           if n.toNat = 3 then (sl k).value false l c.name else 0, 0, 0, 0, 0, 0], 0)
    laneStep s i rs ((destNames false d).map fun x => (p, x)) entry fun _ =>
      (i.commit s rs (destWrites false d (fun k => (sl k).active p) fun k l => temp (run k).1 l 0) fun k => (run k).2).map
        fun s =>
          i.advance (s.setCore i.g.core ((s.core i.g.core).prick (patKey s i.g addr))) 12 priceLane

end Sys2Proof.Machine
end

