-- ==== Sys2Proof/Machine/Crosslane.lean ====
section
/-! DEFINITION. Cross-lane instructions (R125 to R133): the rendezvous of the needed slices, votes, shuffles, the fixed tree of `red`
and `scan`, `topk` and `match`. -/

namespace Sys2Proof.Machine

/-! ### The rendezvous (R126) -/

/-- The member mask: G(M)<31:0>, all 32 lanes when M = 0 (R125). -/
def memberMask (g : Group) (m : BitVec 6) : Word32 := if m = 0 then 0xFFFFFFFF else (g.g m).extractLsb' 0 32

/-- The members among a slice's lanes. -/
def membersOf (members : Word32) (i : Nat) : BitVec 4 := members.extractLsb' (4 * i) 4

/-- What the rendezvous of an issue comes to. -/
inductive Meeting where
  /-- it executes, over these gangs (their numbers and slices) -/
  | execute (gangs : List (BitVec 3 × List Nat))
  /-- a needed slice has not arrived -/
  | wait
  /-- member masks differ at the release -/
  | mismatch
deriving DecidableEq, Repr

/-- The gangs in a rendezvous at this instruction, with their masks. -/
def Issue.arrived (c : Issue) : List (BitVec 3 × List Nat × Word32) :=
  c.g.waits.filterMap fun w =>
    match w.kind with
    | .rendezvous m _ =>
      if w.pc = c.pc && w.priv == c.g.priv then
        match w.list with
        | [] => none
        | i :: _ => some ((c.g.slices.get i).gang, w.list, m)
      else none
    | _ => none

/-- Those of them that wait for the issuing gang: the others. -/
def Issue.waiters (c : Issue) : List (BitVec 3 × List Nat × Word32) := c.arrived.filter fun w => w.1 != c.gang

/-- The member mask of the issue: as the gang read it when it came to the rendezvous, else as G(M) stands (R126). -/
def Issue.members (c : Issue) (m : BitVec 6) : Word32 :=
  match c.arrived.find? fun w => w.1 == c.gang with
  | some w => w.2.2
  | none => memberMask c.g m

/-- The rendezvous of the issuing gang with member mask `members` (R126): masks that differ where the arrival completes a waiting
gang's rendezvous, or its own, trap. -/
def Issue.meeting (c : Issue) (members : Word32) : Meeting :=
  let need := c.g.needed members
  let all := c.waiters
  let everyone := c.sls ++ all.flatMap fun w => w.2.1
  let parts := all.filter fun w => meets w.2.1 need
  let present := c.sls ++ parts.flatMap fun w => w.2.1
  if all.any fun w => meets (c.g.needed w.2.2) c.sls && (c.g.needed w.2.2).all everyone.contains && w.2.2 != members then
    .mismatch
  else if !meets need c.sls then .execute [(c.gang, c.sls)]
  else if need.all present.contains then
    if parts.all fun w => w.2.2 == members then .execute ((c.gang, c.sls) :: parts.map fun w => (w.1, w.2.1))
    else .mismatch
  else .wait

/-- The slices of gangs, ascending. -/
def gangList (gangs : List (BitVec 3 × List Nat)) : List Nat :=
  (List.range 8).filter fun i => gangs.any fun g => g.2.contains i

/-- A member lane that is live but held or predicate-false in an executing slice (R126). -/
def memberFault (g : Group) (sls : List Nat) (members : Word32) (on : Slice → BitVec 4) : Bool :=
  sls.any fun i =>
    let sl := g.slices.get i
    (membersOf members i &&& ~~~sl.exited &&& ~~~on sl) != 0

/-- The group without the waits of the slices that execute. -/
def Group.endMeeting (g : Group) (pc : Word32) (sls : List Nat) : Group :=
  { g with waits := g.waits.filter fun w => !(w.pc == pc && w.priv == g.priv && meets w.list sls &&
      (match w.kind with | .rendezvous .. => true | _ => false)) }

/-- What a gang of a rendezvous pays: the instruction executes once, at the issuing gang's issue, and is paid once (R126, R298). -/
def Issue.share (c : Issue) (gang : BitVec 3) : Price := if gang = c.gang then priceLane else { priceLane with tokens := 0 }

/-- Every gang of the rendezvous ends its issue (R44, R126): the slices move on together, each gang makes its own accounts. -/
def advanceAll (s : State) (c : Issue) (gangs : List (BitVec 3 × List Nat)) : State :=
  let gang (x : BitVec 3 × List Nat) : Issue := { c with gang := x.1, sls := x.2 }
  let k := s.core c.g.core
  let s := s.modGroup c.gid fun g =>
    let g := (g.endMeeting c.pc (gangList gangs)).modSlices (gangList gangs) fun _ sl =>
      ({ sl with pc := sl.pc + 12, latched := [] } : Slice).settle
    gangs.foldl (fun g x => (g.regroup x.2).afterIssue (gang x) s.tick priceLane) g
  let s := s.setCore c.g.core (gangs.foldl (fun k x => k.afterIssue (gang x) (c.share x.1)) k)
  gangs.foldl (fun s x => (gang x).tally s priceLane) s

/-- The participants in a slice (R126): active member lanes on which the predicate holds. -/
def Issue.takers (c : Issue) (p : Pred) (m : BitVec 6) (i : Nat) : BitVec 4 :=
  (c.g.slices.get i).active p &&& membersOf (c.members m) i

/-- The executing slices as one gang, only their participants active. -/
def Issue.gathered (c : Issue) (p : Pred) (m : BitVec 6) (gangs : List (BitVec 3 × List Nat)) : Issue :=
  { c with g := c.g.modSlices (gangList gangs) fun i sl => { sl with mask := c.takers p m i }, sls := gangList gangs }

/-- The frame of a cross-lane instruction: `rs` and `ds` are the names read and written by the participants, `act` the commit over
the executing slices restricted to them. -/
def crossStep (s : State) (p : Pred) (m : BitVec 6) (rs : List NameRead) (ds : List Nat)
    (act : Issue → (Nat → BitVec 4) → Commit) (regs : List (BitVec 6) := []) : Host.Outcome State Fault Refusal :=
  match issueOf s with
  | none => .next s
  | some c => .next <|
    let regs := if m = 0 then regs else m :: regs
    if c.pending regs then c.hold s []
    else
    let members := c.members m
    match c.meeting members with
    | .mismatch =>
      c.trap s (((nameTrap (c.gathered p m [(c.gang, c.sls)]) rs (ds.map fun n => (p, n))).or (c.failedReg regs)).getD { cause := 6 })
    | .wait =>
      match c.failedReg [m] with
      | some t => c.trap s t
      | none =>
        settleGroup (s.modGroup c.gid fun g =>
          { g.endMeeting c.pc c.sls with waits := (g.endMeeting c.pc c.sls).waits ++
              [{ slices := sliceBits c.sls, pc := c.pc, next := c.pc, kind := .rendezvous members false, priv := g.priv }] }) c.gid
    | .execute gangs =>
      laneStep s (c.gathered p m gangs) rs (ds.map fun n => (p, n))
        (trapIf (memberFault c.g (gangList gangs) members fun sl => sl.active p) 6) (fun _ =>
        (act (c.gathered p m gangs) (c.takers p m)).map fun s => advanceAll s c gangs) regs

/-- The participants' uses of the names read consumed (R36, R126). -/
def consumeMasked (rs : List NameRead) (part : Nat → BitVec 4) (i : Nat) (sl : Slice) : Slice :=
  let sl' := rs.foldl (fun x r => x.consume r.src.name.toNat (part i)) sl
  { sl' with names := sl'.names.filter fun e => !e.2.allZero || !(rs.any fun r => r.src.name.toNat == e.1) }

/-- The value of a source on `%lane` number `n` of the group. -/
def laneValue (c : Issue) (wide : Bool) (name : BitVec 9) (n : Nat) : Nat := (c.g.slices.get (n / 4)).value wide (n % 4) name

/-- Whether `%lane` number `n` takes part. -/
def takesPart (part : Nat → BitVec 4) (sls : List Nat) (n : Nat) : Bool := sls.contains (n / 4) && (part (n / 4)).getLsbD (n % 4)

/-- The numbers of the participating lanes, ascending. -/
def participants (part : Nat → BitVec 4) (sls : List Nat) : List Nat := (List.range 32).filter fun n => takesPart part sls n

/-- A cross-lane instruction that writes names and raises flags. -/
def crossNames (s : State) (p : Pred) (m : BitVec 6) (d : Dst) (wide : Bool) (rs : List NameRead)
    (val : Issue → (Nat → BitVec 4) → (Nat → Nat) × FlagSet) (regs : List (BitVec 6) := []) : Host.Outcome State Fault Refusal :=
  crossStep s p m rs (destNames wide d) (fun c part =>
    let v := val c part
    c.commitWith s (consumeMasked rs part) (destWrites wide d part fun i l => v.1 (4 * i + l))
      fun i => if part i != 0 then v.2 else 0) regs

/-! ### Votes (R127) -/

/-- A vote that writes predicate `qd` in every participating lane. -/
def voteStep (s : State) (p : Pred) (qd : BitVec 4) (m : BitVec 6) (f : Issue → List Nat → Bool) :
    Host.Outcome State Fault Refusal :=
  crossStep s p m [] [] fun c part =>
    let b := f c (participants part c.sls)
    .ok (s.modGroup c.gid fun g => g.modSlices c.sls fun i sl => sl.setPreds (part i) qd fun _ => b)

/-- Predicate S of a lane by its `%lane`. -/
def laneQ (c : Issue) (q : BitVec 4) (n : Nat) : Bool := (c.g.slices.get (n / 4)).q (n % 4) q

/-- `vote.any` (R127); exited members contribute 0. -/
def execVoteAny (p : Pred) (qd qs : BitVec 4) (m : BitVec 6) (s : State) : Result :=
  voteStep s p qd m fun c ns => ns.any (laneQ c qs)

/-- `vote.all` (R127); exited members contribute 1. -/
def execVoteAll (p : Pred) (qd qs : BitVec 4) (m : BitVec 6) (s : State) : Result :=
  voteStep s p qd m fun c ns => ns.all (laneQ c qs)

/-- The member lanes that have exited. -/
def exitedMembers (g : Group) (members : Word32) : Nat :=
  ((List.range 32).map fun n =>
    if members.getLsbD n && (g.slices.get (n / 4)).exited.getLsbD (n % 4) then 2 ^ n else 0).sum

/-- `vote.bal` (R127): the ballot in vD, the exited members in vD+1. -/
def execVoteBal (p : Pred) (d : Dst) (qs : BitVec 4) (m : BitVec 6) (s : State) : Result :=
  crossNames s p m d true [] fun c part =>
    let ballot := ((participants part c.sls).map fun n => if laneQ c qs n then 2 ^ n else 0).sum
    (fun _ => ballot + 2 ^ 32 * exitedMembers c.g (c.members m), 0)

/-! ### Shuffles (R128) -/

/-- A shuffle: lane l receives lane j's value when j takes part, its own otherwise. -/
def shflStep (s : State) (p : Pred) (d : Dst) (a : Src) (b : OpB) (t : Ty) (m : BitVec 6) (j : Nat → Nat → Int) :
    Host.Outcome State Fault Refusal :=
  crossNames s p m d t.wide (readsOf p t.wide a ++ opbReads b p false) (fun c part =>
    (fun l =>
      let from_ := j l (opbValue b c.g (c.g.slices.get (l / 4)) false (l % 4))
      if 0 ≤ from_ ∧ from_ < 32 ∧ takesPart part c.sls from_.toNat then laneValue c t.wide a.name from_.toNat
      else laneValue c t.wide a.name l, 0)) (opbRegs b)

/-- `shfl.idx` (R128). -/
def execShflIdx (p : Pred) (d : Dst) (a : Src) (b : OpB) (t : Ty) (m : BitVec 6) (s : State) : Result :=
  shflStep s p d a b t m fun _ x => x

/-- `shfl.up` (R128). -/
def execShflUp (p : Pred) (d : Dst) (a : Src) (b : OpB) (t : Ty) (m : BitVec 6) (s : State) : Result :=
  shflStep s p d a b t m fun l x => (l : Int) - x

/-- `shfl.dn` (R128). -/
def execShflDn (p : Pred) (d : Dst) (a : Src) (b : OpB) (t : Ty) (m : BitVec 6) (s : State) : Result :=
  shflStep s p d a b t m fun l x => (l : Int) + x

/-- `shfl.xor` (R128). -/
def execShflXor (p : Pred) (d : Dst) (a : Src) (b : OpB) (t : Ty) (m : BitVec 6) (s : State) : Result :=
  shflStep s p d a b t m fun l x => ((l ^^^ x : Nat) : Int)

/-! ### The tree (R129, R130) -/

/-- A node's value: none is padding; with the flags raised below it. -/
abbrev Node := Option Nat × FlagSet

/-- The operator on two values of a type, under a slice's format (R129, R66, R67); fin applies to the inputs of every node (R131;
log 73). -/
def redApply (op : RedOp) (t : Ty) (f : Arith) (x y : Nat) : Nat × FlagSet :=
  match op with
  | .add => if t.ieee then resFadd t f x y else (resAdd t false x y, 0)
  | .min => if t.ieee then resFmin t f x y else (resMin t x y, 0)
  | .max => if t.ieee then resFmax t f x y else (resMax t x y, 0)
  | .and => (resAnd x y, 0)
  | .or => (resOr x y, 0)
  | .xor => (resXor x y, 0)

/-- A node of the tree: padding passes its partner through (R129). -/
def redNode (op : RedOp) (t : Ty) (f : Arith) (a b : Node) : Node :=
  match a.1, b.1 with
  | some x, some y => let (r, fl) := redApply op t f x y; (some r, a.2 ||| b.2 ||| fl)
  | some x, none => (some x, a.2 ||| b.2)
  | none, y => (y, a.2 ||| b.2)

/-- The aligned tree over the 2^k leaves from `lo`. -/
def redTree (op : RedOp) (t : Ty) (f : Arith) (leaf : Nat → Node) : Nat → Nat → Node
  | 0, lo => leaf lo
  | k + 1, lo => redNode op t f (redTree op t f leaf k lo) (redTree op t f leaf k (lo + 2 ^ k))

/-- The combination of leaves 0 to n − 1, by the binary digits of n from 2^k down, combined left to right (R130). -/
def redPrefix (op : RedOp) (t : Ty) (f : Arith) (leaf : Nat → Node) : Nat → Nat → Nat → Node → Node
  | 0, lo, n, acc => if n % 2 = 1 then redNode op t f acc (redTree op t f leaf 0 lo) else acc
  | k + 1, lo, n, acc =>
    if 2 ^ (k + 1) ≤ n then
      redPrefix op t f leaf k (lo + 2 ^ (k + 1)) (n - 2 ^ (k + 1)) (redNode op t f acc (redTree op t f leaf (k + 1) lo))
    else redPrefix op t f leaf k lo n acc

/-- The identity of an operator for a type (R129, R67). -/
def redIdentity (op : RedOp) (t : Ty) : Nat :=
  match op with
  | .add | .or | .xor => 0
  | .and => 2 ^ tyIntBits t - 1
  | .min => if t.ieee then (tyFloat t).infinity false else wrapInt (tyIntBits t) (intRange t.signed (tyIntBits t)).2
  | .max => if t.ieee then (tyFloat t).infinity true else wrapInt (tyIntBits t) (intRange t.signed (tyIntBits t)).1

/-- The format of the lowest slice that holds a participant (R131). -/
def redFormat (c : Issue) (part : Nat → BitVec 4) : Arith :=
  match c.sls.find? fun i => part i != 0 with
  | some i => Arith.of (c.g.slices.get i).fmt
  | none => Arith.of 0

/-- The leaves of a reduction: the participants' values in the type's low bits, floating ones as the operation reads them (R61, R131). -/
def redLeaf (c : Issue) (part : Nat → BitVec 4) (op : RedOp) (t : Ty) (f : Arith) (a : Src) (n : Nat) : Node :=
  if takesPart part c.sls n then
    let v := laneValue c t.wide a.name n
    let v := if t.half then v % 65536 else v
    if t.ieee then
      let x := (tyFloat t).leafIn f (op != .add) v
      (some x.1, x.2)
    else (some v, 0)
  else (none, 0)

/-- `red` (R129): the root's value to every participating lane. -/
def execRed (p : Pred) (d : Dst) (a : Src) (op : RedOp) (t : Ty) (m : BitVec 6) (s : State) : Result :=
  crossNames s p m d t.wide (readsOf p t.wide a) fun c part =>
    let f := redFormat c part
    let root := redTree op t f (redLeaf c part op t f a) 5 0
    (fun _ => root.1.getD (redIdentity op t), root.2)

/-- `scan` (R130): leaves 0 to l, or to l − 1 with the exclusive bit; flags of every node evaluated for a participant (R131). -/
def execScan (p : Pred) (d : Dst) (a : Src) (op : RedOp) (excl : Bool) (t : Ty) (m : BitVec 6) (s : State) : Result :=
  crossNames s p m d t.wide (readsOf p t.wide a) fun c part =>
    let f := redFormat c part
    let at_ (l : Nat) : Node := redPrefix op t f (redLeaf c part op t f a) 5 0 (if excl then l else l + 1) (none, 0)
    (fun l => (at_ l).1.getD (redIdentity op t),
      (participants part c.sls).foldl (fun fl l => fl ||| (at_ l).2) 0)

/-! ### `topk` and `match` (R132, R133) -/

/-- An element of `topk`: value code, index, lane. -/
structure Ranked where
  code : Nat
  index : Nat
  lane : Nat
deriving DecidableEq, Repr

/-- `x` ranks before `y` (R132): value descending with −0 below +0 and NaNs last, then index, then lane. -/
def Ranked.before (t : Ty) (f : Arith) (x y : Ranked) : Bool :=
  let o : Ordering :=
    if t.ieee then
      let v := rdFloat t f x.code
      let w := rdFloat t f y.code
      if v.isNaN && w.isNaN then .eq
      else if v.isNaN then .lt
      else if w.isNaN then .gt
      else v.order w
    else compare (rdInt t x.code) (rdInt t y.code)
  match o with
  | .gt => true
  | .lt => false
  | .eq => if x.index != y.index then decide (x.index < y.index) else decide (x.lane < y.lane)

/-- The element of rank `r`: the one that exactly `r` others rank before. -/
def rankedAt (t : Ty) (f : Arith) (xs : List Ranked) (r : Nat) : Option Ranked :=
  xs.find? fun x => (xs.filter fun y => y.before t f x).length == r

/-- `topk` (R132): the i-th participating lane receives the element of rank i while i < k. -/
def execTopk (p : Pred) (d : Dst) (a b : Src) (k : BitVec 5) (t : Ty) (m : BitVec 6) (s : State) : Result :=
  crossNames s p m d true (readsOf p false a ++ readsOf p false b) fun c part =>
    let ns := participants part c.sls
    let plain : Arith := ⟨.rne, false, false, false, false⟩
    let cut (x : Nat) : Nat := if t.half then x % 65536 else x
    let xs := ns.map fun n => (⟨cut (laneValue c false a.name n), laneValue c false b.name n, n⟩ : Ranked)
    let none_ := (if t.ieee then (tyFloat t).canonicalNaN else 0) + 2 ^ 32 * 0xFFFFFFFF
    (fun l =>
      let i := (ns.filter fun n => decide (n < l)).length
      if i ≤ k.toNat then
        match rankedAt t plain xs i with
        | some x => x.code + 2 ^ 32 * x.index
        | none => none_
      else none_, 0)

/-- `match` (R133): the participating lanes whose value is bitwise equal. -/
def execMatchLanes (p : Pred) (d : Dst) (a : Src) (t : Ty) (m : BitVec 6) (s : State) : Result :=
  crossNames s p m d false (readsOf p t.wide a) fun c part =>
    (fun l => ((participants part c.sls).map fun n =>
      if laneValue c t.wide a.name n = laneValue c t.wide a.name l then 2 ^ n else 0).sum, 0)

end Sys2Proof.Machine
end

