-- ==== Sys2Proof/Machine/Uniform.lean ====
section
/-! DEFINITION. Uniform arithmetic and moves (R81), `gbr` (R123), `setfmt` and `setprio` (R142, R143): executed once for the group. -/

namespace Sys2Proof.Machine

/-- The frame of a uniform instruction that writes and reads these registers: it waits while one of them awaits a load (R159), takes
machine check when that load's window fill failed (R165, R242), takes the trap of its entry, or has its effect. -/
def uniFrame (s : State) (dst regs : List (BitVec 6)) (entry : Issue → Option Trap) (act : Issue → State) :
    Host.Outcome State Fault Refusal :=
  match issueOf s with
  | none => .next s
  | some c => .next <|
    match c.failedReg regs with
    | some t => c.trap s t
    | none =>
      if c.pending (dst ++ regs) then c.hold s []
      else match entry c with
        | some t => c.trap s t
        | none => act c

/-- A uniform instruction of `len` bytes that writes one register with a function of the group. -/
def uniStep (s : State) (len : Nat) (d : BitVec 6) (regs : List (BitVec 6)) (f : Group → Word64) :
    Host.Outcome State Fault Refusal :=
  uniFrame s [d] regs (fun _ => none) fun c =>
    c.advance (s.modGroup c.gid fun g => g.setG d (f g)) len priceUniform

/-- The value of the second operand in format U2 (R81). -/
def uopValue (g : Group) : UOp → Word64
  | .reg r => g.g r
  | .imm v => v.signExtend 64

/-- The registers the second operand reads. -/
def uopRegs : UOp → List (BitVec 6)
  | .reg r => [r]
  | .imm _ => []

/-- Format U with two registers (R81). -/
def uniRR (s : State) (d a b : BitVec 6) (f : Word64 → Word64 → Word64) : Host.Outcome State Fault Refusal :=
  uniStep s 4 d [a, b] fun g => f (g.g a) (g.g b)

/-- Format U with the sign-extended immediate (R81). -/
def uniRI (s : State) (d a : BitVec 6) (i : BitVec 10) (f : Word64 → Word64 → Word64) : Host.Outcome State Fault Refusal :=
  uniStep s 4 d [a] fun g => f (g.g a) (i.signExtend 64)

/-- Format U2 (R81). -/
def uniWideOp (s : State) (d a : BitVec 6) (b : UOp) (f : Word64 → Word64 → Word64) : Host.Outcome State Fault Refusal :=
  uniStep s 8 d (a :: uopRegs b) fun g => f (g.g a) (uopValue g b)

/-- The result of `gshl`: the count is b<5:0> (R81). -/
def resGshl (a b : Word64) : Word64 := a <<< (b.toNat % 64)
/-- The result of `gshr`, a read as natural (R81). -/
def resGshr (a b : Word64) : Word64 := a >>> (b.toNat % 64)
/-- The truth of a `gcmp` condition (R81). -/
def resGcmp (c : UCond) (a b : Word64) : Bool :=
  match c with
  | .eq => a == b
  | .ne => a != b
  | .lts => decide (a.toInt < b.toInt)
  | .les => decide (a.toInt ≤ b.toInt)
  | .gts => decide (b.toInt < a.toInt)
  | .ges => decide (b.toInt ≤ a.toInt)
  | .ltn => decide (a.toNat < b.toNat)
  | .len => decide (a.toNat ≤ b.toNat)
  | .gtn => decide (b.toNat < a.toNat)
  | .gen => decide (b.toNat ≤ a.toNat)

/-- `gadd` of two registers, format U (R81). -/
def execGaddReg (d a b : BitVec 6) (s : State) : Result := uniRR s d a b (· + ·)
/-- `gadd` of a 10-bit immediate, format U (R81). -/
def execGaddImm (d a : BitVec 6) (i : BitVec 10) (s : State) : Result := uniRI s d a i (· + ·)
/-- `gadd`, format U2 (R81). -/
def execGaddU2 (d a : BitVec 6) (b : UOp) (s : State) : Result := uniWideOp s d a b (· + ·)
/-- `gsub` of two registers, format U (R81). -/
def execGsubReg (d a b : BitVec 6) (s : State) : Result := uniRR s d a b (· - ·)
/-- `gsub` of a 10-bit immediate, format U (R81). -/
def execGsubImm (d a : BitVec 6) (i : BitVec 10) (s : State) : Result := uniRI s d a i (· - ·)
/-- `gsub`, format U2 (R81). -/
def execGsubU2 (d a : BitVec 6) (b : UOp) (s : State) : Result := uniWideOp s d a b (· - ·)
/-- `gmul` of two registers, format U (R81). -/
def execGmulReg (d a b : BitVec 6) (s : State) : Result := uniRR s d a b (· * ·)
/-- `gmul` of a 10-bit immediate, format U (R81). -/
def execGmulImm (d a : BitVec 6) (i : BitVec 10) (s : State) : Result := uniRI s d a i (· * ·)
/-- `gmul`, format U2 (R81). -/
def execGmulU2 (d a : BitVec 6) (b : UOp) (s : State) : Result := uniWideOp s d a b (· * ·)
/-- `gshl` of two registers, format U (R81). -/
def execGshlReg (d a b : BitVec 6) (s : State) : Result := uniRR s d a b resGshl
/-- `gshl` of a 10-bit immediate, format U (R81). -/
def execGshlImm (d a : BitVec 6) (i : BitVec 10) (s : State) : Result := uniRI s d a i resGshl
/-- `gshl`, format U2 (R81). -/
def execGshlU2 (d a : BitVec 6) (b : UOp) (s : State) : Result := uniWideOp s d a b resGshl
/-- `gshr` of two registers, format U (R81). -/
def execGshrReg (d a b : BitVec 6) (s : State) : Result := uniRR s d a b resGshr
/-- `gshr` of a 10-bit immediate, format U (R81). -/
def execGshrImm (d a : BitVec 6) (i : BitVec 10) (s : State) : Result := uniRI s d a i resGshr
/-- `gshr`, format U2 (R81). -/
def execGshrU2 (d a : BitVec 6) (b : UOp) (s : State) : Result := uniWideOp s d a b resGshr
/-- `gand` of two registers, format U (R81). -/
def execGandReg (d a b : BitVec 6) (s : State) : Result := uniRR s d a b (· &&& ·)
/-- `gand` of a 10-bit immediate, format U (R81). -/
def execGandImm (d a : BitVec 6) (i : BitVec 10) (s : State) : Result := uniRI s d a i (· &&& ·)
/-- `gand`, format U2 (R81). -/
def execGandU2 (d a : BitVec 6) (b : UOp) (s : State) : Result := uniWideOp s d a b (· &&& ·)
/-- `gor` of two registers, format U (R81). -/
def execGorReg (d a b : BitVec 6) (s : State) : Result := uniRR s d a b (· ||| ·)
/-- `gor` of a 10-bit immediate, format U (R81). -/
def execGorImm (d a : BitVec 6) (i : BitVec 10) (s : State) : Result := uniRI s d a i (· ||| ·)
/-- `gor`, format U2 (R81). -/
def execGorU2 (d a : BitVec 6) (b : UOp) (s : State) : Result := uniWideOp s d a b (· ||| ·)
/-- `gxor` of two registers, format U (R81). -/
def execGxorReg (d a b : BitVec 6) (s : State) : Result := uniRR s d a b (· ^^^ ·)
/-- `gxor` of a 10-bit immediate, format U (R81). -/
def execGxorImm (d a : BitVec 6) (i : BitVec 10) (s : State) : Result := uniRI s d a i (· ^^^ ·)
/-- `gxor`, format U2 (R81). -/
def execGxorU2 (d a : BitVec 6) (b : UOp) (s : State) : Result := uniWideOp s d a b (· ^^^ ·)

/-- `gcmp` (R81): 1 when the condition holds, else 0. -/
def execGcmp (d a : BitVec 6) (b : UOp) (cond : UCond) (s : State) : Result :=
  uniWideOp s d a b fun x y => if resGcmp cond x y then 1 else 0

/-- `gmov` (R81). -/
def execGmov (d a : BitVec 6) (s : State) : Result := uniStep s 4 d [a] fun g => g.g a

/-- `gli`, format U (R81). -/
def execGli (d : BitVec 6) (i : BitVec 10) (s : State) : Result := uniStep s 4 d [] fun _ => i.signExtend 64

/-- `gli`, format U2 (R81). -/
def execGliU2 (d : BitVec 6) (i : BitVec 32) (s : State) : Result := uniStep s 8 d [] fun _ => i.signExtend 64

/-- `gli.hi` (R81): the upper half written, the lower unchanged. -/
def execGliHi (d : BitVec 6) (i : BitVec 32) (s : State) : Result :=
  uniStep s 8 d [] fun g => i ++ (g.g d).extractLsb' 0 32

/-- The truth of a `gbr` condition (R123). -/
def gbrTaken (cond : GCond) (x : Word64) : Bool :=
  match cond with
  | .always => true
  | .nz => x != 0
  | .z => x == 0

/-- `gbr` (R123): every slice of the gang moves to the target when the condition holds, to pc + 8 otherwise; a taken target outside
the code section is an illegal instruction (R69). -/
def execGbr (a : BitVec 6) (cond : GCond) (disp : BitVec 32) (s : State) : Result :=
  uniFrame s [] [a]
    (fun c => trapIf (!c.g.gpend.contains a.toNat && gbrTaken cond (c.g.g a) && !targetOk (s.codeOf c.g).2 (c.pc + disp)) 1)
    fun c =>
      let next := if gbrTaken cond (c.g.g a) then c.pc + disp else c.pc + 8
      c.done (s.modGroup c.gid fun g => g.modSlices c.sls fun _ sl => { sl with pc := next }) priceUniform

/-- A write of `%fmt` in every slice of the gang (R143): illegal in any slice traps, and no slice changes. -/
def fmtStep (s : State) (len : Nat) (regs : List (BitVec 6)) (f : Group → Word32 → Word32) :
    Host.Outcome State Fault Refusal :=
  uniFrame s [] regs
    (fun c => trapIf (!(regs.any fun r => c.g.gpend.contains r.toNat) &&
      c.sls.any fun i => !fmtLegal (f c.g (c.g.slices.get i).fmt)) 1)
    fun c =>
      c.advance (s.modGroup c.gid fun g => g.modSlices c.sls fun _ sl => { sl with fmt := f c.g sl.fmt }) len priceUniform

/-- `setfmt gA` (R143). -/
def execSetfmt (a : BitVec 6) (s : State) : Result := fmtStep s 4 [a] fun g _ => (g.g a).extractLsb' 0 32

/-- `setfmt imm` (R143). -/
def execSetfmtImm (i : BitVec 32) (s : State) : Result := fmtStep s 8 [] fun _ _ => i

/-- `setfmt.m` (R143): only the masked bits change. -/
def execSetfmtM (a : BitVec 6) (mask : BitVec 32) (s : State) : Result :=
  fmtStep s 8 [a] fun g f => (f &&& ~~~mask) ||| ((g.g a).extractLsb' 0 32 &&& mask)

/-- The priority of G(A) + imm, saturated to 0 to 15 (R142). -/
def prioOf (a : Word64) (i : Int) : BitVec 4 :=
  let p := a.toInt + i
  if p < 0 then 0 else if 15 < p then 15 else BitVec.ofNat 4 p.toNat

/-- `setprio` (R142). -/
def prioStep (s : State) (len : Nat) (a : BitVec 6) (i : Int) : Host.Outcome State Fault Refusal :=
  uniFrame s [] [a] (fun _ => none) fun c =>
    c.advance (s.modGroup c.gid fun g => { g with prio := prioOf (g.g a) i }) len priceUniform

/-- `setprio`, format U (R142). -/
def execSetprio (a : BitVec 6) (i : BitVec 10) (s : State) : Result := prioStep s 4 a i.toInt

/-- `setprio`, format U2 (R142). -/
def execSetprioW (a : BitVec 6) (i : BitVec 32) (s : State) : Result := prioStep s 8 a i.toInt

end Sys2Proof.Machine
end

