-- ==== Sys2Proof/Machine/System.lean ====
section
/-! DEFINITION. Special registers (R44, R45, R232 to R234), capability queries (R241), the save area (R235 to R237) and the system
instructions `trap`, `vsdump`, `vsload`, `sleep` (R237, R239). -/

namespace Sys2Proof.Machine

/-! ### Reading special registers (R44, R233) -/

/-- The shape word of a deterministic grid (R338). -/
def shapeOf (s : State) (g : Group) : Option (BitVec 64) :=
  match s.grids[g.grid]? with
  | some d => if d.cmd.determ then d.cmd.shape else none
  | none => none

/-- Whether a group's grid is deterministic (R151). -/
def isDeterm (s : State) (g : Group) : Bool :=
  match s.grids[g.grid]? with
  | some d => d.cmd.determ
  | none => false

/-- The dies of a group's partition. -/
def partDies (s : State) (g : Group) : Nat :=
  match tabGet? s.parts g.part with
  | some p => p.cfg.dies.length
  | none => 0

/-- `%dies` (R44): the dies the grid runs on, or the shape's logical dies. -/
def gridDies (s : State) (g : Group) : Nat :=
  match shapeOf s g with
  | some w => (w.extractLsb' 44 4).toNat
  | none => match s.grids[g.grid]? with
    | some d => d.dies.length
    | none => 0

/-- `%caps` (R45). -/
def capsWord (s : State) (g : Group) : Word64 :=
  let dies := match shapeOf s g with
    | some w => (w.extractLsb' 44 4).toNat
    | none => partDies s g
  BitVec.ofNat 64 (2 ^ 24 + dies * 2 ^ 16 + 0x3F)

/-- A capability index (R241); bit 63 of the answer marks an index of the table. -/
def capability (s : State) (g : Group) (n : Nat) : Word64 :=
  let shape (lo w : Nat) (d : Nat) : Nat := match shapeOf s g with
    | some x => (x.extractLsb' lo w).toNat
    | none => d
  let v : Option Nat := match n with
    | 0 => some (capsWord s g).toNat
    | 1 => some (shape 16 12 3072)
    | 2 => some (shape 28 6 48)
    | 3 => some 524288
    | 4 => some 33554432
    | 5 => some 134217728
    | 6 => some (shape 38 4 8 * 256 + shape 34 4 12 % 256)
    | 7 => some (shape 42 2 2 * 256 + shape 44 4 (partDies s g))
    | 8 => some (2048 * 65536 + 8)
    | 9 => some 0x1FF
    | 10 => some 2700000
    | 11 => some (16 * 256 + 16)
    | 12 => some 16
    | 13 => some 1
    | _ => none
  match v with
  | some v => BitVec.ofNat 64 (2 ^ 63 + v)
  | none => 0

/-- The value of a special register on a lane (R44, R233). -/
def specialReg (s : State) (g : Group) (sel : BitVec 10) (slice lane : Nat) : Word64 :=
  let sl := g.slices.get slice
  let k := s.core g.core
  let n := sel.toNat
  let w32 (x : Word32) : Word64 := x.setWidth 64
  if 0x13 ≤ n ∧ n ≤ 0x1A then k.mirror.getD (n - 0x13) 0
  else if 0x42 ≤ n ∧ n ≤ 0x49 then g.ctx.spc.get (n - 0x42)
  else match n with
    | 0x00 => BitVec.ofNat 64 (4 * slice + lane)
    | 0x01 => BitVec.ofNat 64 slice
    | 0x02 => sl.gang.setWidth 64
    | 0x03 => BitVec.ofNat 64 g.index
    | 0x04 => BitVec.ofNat 64 (s.team g.team).index
    | 0x05 => BitVec.ofNat 64 (s.panel g.panel).index
    | 0x06 => BitVec.ofNat 64 (match s.grids[g.grid]? with | some d => d.number | none => 0)
    | 0x07 => BitVec.ofNat 64 (g.core % Config.coresPerCluster)
    | 0x08 => BitVec.ofNat 64 (clusterOfCore g.core % 2)
    | 0x09 => BitVec.ofNat 64 (s.panel g.panel).logical
    | 0x0A => BitVec.ofNat 64 (gridDies s g)
    | 0x0B => w32 sl.fmt
    | 0x0C => w32 sl.fflags
    | 0x0D => g.prio.setWidth 64
    | 0x0E => if isDeterm s g then g.retired else (s.cluster (clusterOfCore g.core)).cycles
    | 0x0F => g.retired
    | 0x10 => (s.cluster (clusterOfCore g.core)).localTime
    | 0x11 => w32 k.wake
    | 0x12 => BitVec.ofNat 64 k.tokens
    | 0x1B => capsWord s g
    | 0x40 => w32 g.ctx.cause
    | 0x41 => g.ctx.targ
    | 0x4A => w32 g.ctx.gmap
    | 0x4B => BitVec.ofNat 64 g.area
    | 0x4C => BitVec.ofNat 64 k.vsLimit
    | 0x4D => w32 (s.team g.team).phase
    | _ => 0

/-! ### The order of a group's accesses (R193) -/

/-- The kinds of R193, for a later access. -/
inductive AccessKind where
  | load | store | atomic | acq | rel | fence
deriving DecidableEq, Repr

/-- Whether an access that has issued must be performed before a later one (R193): of that kind, touching these ranges. A later
access can depend on an earlier load only through data that has arrived, so the cells marked D come down to common bytes. -/
def Flight.precedes (f : Flight) (k : AccessKind) (ranges : List (Nat × Nat)) : Bool :=
  f.op == .fence || f.acq ||
    (match k with
      | .rel | .fence => true
      | .acq => f.rel
      | _ => false) ||
    ranges.any fun r => decide (f.addr < r.1 + r.2) && decide (r.1 < f.addr + f.size)

/-- Two groups of one deterministic launch on one core: their accesses are performed in the order of issue, so that what a program
reads depends on the switch points alone (R151, R152; log 11). -/
def sameTurn (s : State) (a b : Nat) : Bool :=
  match s.group a, s.group b with
  | some g, some h => g.grid == h.grid && g.core == h.core && isDeterm s g
  | _, _ => false

/-- Whether the bound unit has still to apply an update of a group: a release that is not performed yet (R259, R262). -/
def boundPending (s : State) (gid : Nat) : Bool := s.clusters.any fun k => k.2.boundQueue.any fun u => u.group == gid

/-- Whether an earlier access, numbered below `bound`, still has to be performed before one of a group; a release, an acquire or a fence
comes after the group's updates at the bound unit too (R262). -/
def mustFollow (s : State) (gid bound : Nat) (ks : List AccessKind) (ranges : List (Nat × Nat)) : Bool :=
  (s.flights.any fun e =>
    decide (e.1 < bound) && !e.2.performed &&
      ((e.2.group == gid && ks.any fun k => e.2.precedes k ranges) || sameTurn s gid e.2.group)) ||
    ((ks.any fun k => k == .acq || k == .rel || k == .fence) && boundPending s gid)

/-- Whether an instruction that acts in its own step must wait for earlier accesses. -/
def Issue.mustFollow (c : Issue) (s : State) (k : AccessKind) (ranges : List (Nat × Nat)) : Bool :=
  Machine.mustFollow s c.gid s.nextFlight [k] ranges

/-! ### `sread` and `capq` (R232, R241) -/

/-- A bound register (R44). -/
def boundSelector (sel : BitVec 10) : Bool := decide (0x13 ≤ sel.toNat) && decide (sel.toNat ≤ 0x1A)

/-- Whether an `sread` of a bound register must wait: an acquire, it comes after the group's earlier releases, acquires and fences, its own
`bcast`s among them (R262), and it shows what the group has seen happen at the unit (R195, R260). -/
def boundWait (s : State) (c : Issue) (sel : BitVec 10) : Bool :=
  boundSelector sel &&
    (c.mustFollow s .acq [] || decide ((s.core c.g.core).mirrorPos < tabGet c.g.boundSeen 0 (clusterOfCore c.g.core)))

/-- A group acquires: its later reads of bound words show every update that the unit of its cluster has applied (R195, R260). -/
def State.seeBounds (s : State) (gid : Nat) : State :=
  s.modGroup gid fun g =>
    { g with boundSeen := tabSet g.boundSeen (clusterOfCore g.core) (s.cluster (clusterOfCore g.core)).boundLog.length }

/-- The group after a read of a register: what a bound register shows of the unit's order, no later read goes back on, on another core of
the cluster either (R260, R263). -/
def Issue.shown (c : Issue) (s : State) (sel : BitVec 10) (g : Group) : Group :=
  if boundSelector sel then { g with boundSeen := tabSet g.boundSeen (clusterOfCore c.g.core) (s.core c.g.core).mirrorPos } else g

/-- `sread gD` (R232): a per-lane or per-slice register is that of the gang's lowest active lane. -/
def sreadStep (s : State) (len : Nat) (d : BitVec 6) (sel : BitVec 10) : Host.Outcome State Fault Refusal :=
  uniFrame s [d] [] (fun c => trapIf (selectorPrivileged sel && !c.g.priv) 9) fun c =>
    let (i, l) := c.lowest
    if boundWait s c sel then c.hold s []
    else c.advance (s.modGroup c.gid fun g => (c.shown s sel g).setG d (specialReg s c.g sel i l)) len priceUniform

/-- `sread gD, %reg`, format U (R232). -/
def execSread (d : BitVec 6) (sel : BitVec 10) (s : State) : Result := sreadStep s 4 d sel

/-- `sread gD, %reg`, format U2 (R232). -/
def execSreadU2 (d : BitVec 6) (sel : BitVec 10) (s : State) : Result := sreadStep s 8 d sel

/-- `sread vD, %reg` (R232): the register's value for each active lane, written as a full cell or pair. -/
def execSreadLane (d : Dst) (sel : BitVec 10) (s : State) : Result :=
  match issueOf s with
  | none => .next s
  | some c => .next <|
    let wide := selectorWide sel
    if boundWait s c sel then c.hold s []
    else laneStep s c [] ((destNames wide d).map fun n => (.always, n)) (trapIf (selectorPrivileged sel && !c.g.priv) 9) fun _ =>
      (c.commit s [] (destWrites wide d (fun i => (c.g.slices.get i).active .always)
        fun i l => (specialReg s c.g sel i l).toNat) fun _ => 0).map fun t => c.advance (t.modGroup c.gid (c.shown s sel)) 8 priceUniform

/-- A `capq` answer (R241). -/
def capqStep (s : State) (len : Nat) (d : BitVec 6) (regs : List (BitVec 6)) (n : Group → Nat) :
    Host.Outcome State Fault Refusal :=
  uniFrame s [d] regs (fun _ => none) fun c =>
    c.advance (s.modGroup c.gid fun g => g.setG d (capability s c.g (n c.g))) len priceUniform

/-- `capq gD, n` (R241). -/
def execCapq (d : BitVec 6) (n : BitVec 10) (s : State) : Result := capqStep s 4 d [] fun _ => n.toNat

/-- `capq gD, gA` (R241). -/
def execCapqReg (d a : BitVec 6) (s : State) : Result := capqStep s 8 d [a] fun g => (g.g a).toNat

/-- `capq.w gD, n` (R241). -/
def execCapqW (d : BitVec 6) (n : BitVec 32) (s : State) : Result := capqStep s 8 d [] fun _ => n.toNat

/-! ### Writing special registers (R234, R138) -/

/-- The groups of a team that have left with it. -/
def awayGroups (s : State) (tid : Nat) : List Nat :=
  (s.team tid).groups.filter fun gid => match s.group gid with | some g => g.status == .away | none => false

/-- The cells the reservation of a team's saved groups asks of a section: floors and raises (log 76). -/
def savedCells (s : State) (gids : List Nat) (i : Nat) : Nat :=
  (gids.map fun gid => match s.group gid with | some g => reservationOf s { g with unreserved := false } i | none => 0).sum

/-- The cells a team of a launch that waits for admission or restore needs in each section (R138): of a whole team where one waits (its
launch or its panel not yet placed, saved, or parked), of a spawned group where only threads or spawned groups wait. -/
def waitingFloor (s : State) (n : Nat) (d : Grid) : Nat :=
  let out (p : Place) : Bool := match p with | .waiting | .saved | .parked => true | _ => false
  let teams := s.teams.filter fun t => t.grid == n && out t.status
  if d.ended then 0
  else if out d.status || d.panels.any (fun p => !(s.panel p).started || out (s.panel p).status) || teams.any (fun t => !t.spawned) then
    d.cmd.floor * d.cmd.groups
  else if !teams.isEmpty || d.panels.any (fun p => !(s.panel p).threads.isEmpty) ||
      s.cores.any (fun k => k.2.threads.any fun t => t.grid == n) then d.cmd.floor
  else 0

/-- floor × groups of every team of the partition that waits for admission or restore, or is parked, and what the restore of those that have
been admitted asks of a section, their raises with it (R138; log 76). -/
def waitingFloors (s : State) (part : Nat) : Nat :=
  let away := (List.range s.teams.length).map fun t =>
    if (s.team t).part = part then ((List.range 8).map (savedCells s (awayGroups s t))).foldl max 0 else 0
  (s.grids.zipIdx.map fun d => if d.1.part = part then waitingFloor s d.2 d.1 else 0).foldl max (away.foldl max 0)

/-- VS_LIMIT of a core set to `n` as R138 bounds it; the sections that hold more begin their evictions. -/
def setVsLimit (s : State) (part core n : Nat) : State :=
  let n := if n = 0 then 1 else if 3072 < n then 3072 else n
  let need := ((List.range 8).map fun i => reservedIn s core i fun _ => true).foldl max (waitingFloors s part)
  let n := max n need
  shrinkSections (s.setCore core { s.core core with vsLimit := n }) core

/-- `swrite` (R234). -/
def execSwrite (a : BitVec 6) (sel : BitVec 10) (s : State) : Result :=
  let n := sel.toNat
  if n = 0x0B then fmtStep s 4 [a] fun g _ => (g.g a).extractLsb' 0 32
  else uniFrame s [] [a] (fun c => trapIf (selectorPrivileged sel && !c.g.priv) 9) fun c =>
    let v := c.g.g a
    let ctx (s : State) (f : Ctx → Ctx) : State :=
      (s.modGroup c.gid fun g => { g with ctx := f g.ctx }).setMem ((f c.g.ctx).store c.g.area s.mem)
    let s' : State :=
      if n = 0x0C then
        s.modGroup c.gid fun g => g.modSlices c.sls fun _ sl => { sl with fflags := v.extractLsb' 0 32 &&& 0x1F }
      else if 0x42 ≤ n ∧ n ≤ 0x49 then
        ctx s fun x => { x with spc := x.spc.set (n - 0x42) (v &&& 0x1FFFFFFFFF) }
      else if n = 0x4A then ctx s fun x => { x with gmap := v.extractLsb' 0 32 &&& 0xFFFFFF }
      else if n = 0x4C then setVsLimit s c.g.part c.g.core v.toNat
      else s
    c.advance s' 4 priceUniform

/-! ### `trap` and `sleep` (R239) -/

/-- `trap n` (R239): cause 14 when the predicate holds on any active lane. -/
def execTrap (p : Pred) (n : BitVec 16) (s : State) : Result :=
  match issueOf s with
  | none => .next s
  | some c => .next <|
    if c.sls.any fun i => (c.g.slices.get i).active p != 0 then c.trap s { cause := 14, arg := n.setWidth 64 }
    else c.advance s 12 priceLane

/-- `sleep` (R239): the gang waits for an event of a selected code; without a participating lane it continues at once. -/
def execSleep (p : Pred) (mask : BitVec 8) (s : State) : Result :=
  match issueOf s with
  | none => .next s
  | some c => .next <|
    if c.sls.any fun i => (c.g.slices.get i).active p != 0 then c.await s (.sleep mask) priceLane
    else c.advance s 12 priceLane

/-! ### Cell images, `vsdump` and `vsload` (R235 to R237) -/

/-- Where a name's slot stands in a save area (R235). -/
def slotAddr (area slice name : Nat) : Nat := area + (slice * 512 + name) * 32

/-- The metadata word of a cell image (R235). -/
def cellMeta (c : Cell) : Nat :=
  ((List.range 4).map fun l => (c.count.get l).toNat * 8 ^ l + if c.pin.get l then 2 ^ (12 + l) else 0).sum + 2 ^ 16 +
    (if c.full then 2 ^ 17 else 0) + (if c.failed.isSome then 2 ^ 18 else 0)

/-- A cell's image written to its slot (R144, R235). -/
def storeCell (m : Memory) (a : Nat) (c : Cell) : Memory :=
  let m := (List.range 4).foldl (fun m l => memWriteN m (a + 4 * l) 4 (c.data.get l).toNat) m
  memWriteN (memWriteN m (a + 16) 4 (cellMeta c)) (a + 20) 12 0

/-- The spilled cell a slot describes (R237): a failed one is empty and will never be filled (sub-cause 7). -/
def loadCell (m : Memory) (a : Nat) : Cell :=
  let w := memReadN m (a + 16) 4
  { data := Quad.make fun l => BitVec.ofNat 32 (memReadN m (a + 4 * l) 4)
    count := Quad.make fun l => BitVec.ofNat 3 (w / 8 ^ l)
    pin := Quad.make fun l => w / 2 ^ (12 + l) % 2 == 1
    full := w / 2 ^ 17 % 2 == 1 && w / 2 ^ 18 % 2 == 0
    failed := if w / 2 ^ 18 % 2 = 1 then some ⟨7, 0⟩ else none
    spilled := true }

/-- An address of the byte of a slot that holds the bound bit, in the slots of a live slice of the area. -/
def isBoundByte (g : Group) (a : Nat) : Bool :=
  decide (g.area ≤ a) && decide (a < g.area + 131072) && (a - g.area) % 32 == 18 &&
    (g.slices.get ((a - g.area) / 16384)).live

/-- The bound bits of a group's live slices cleared (R237). -/
def clearBound (g : Group) (m : Memory) : Memory :=
  m.filterMap fun e =>
    if isBoundByte g e.1 then
      let v := e.2 &&& 0xFE
      if v = 0 then none else some (e.1, v)
    else some e

/-- The slices and names whose slots have their bound bit set. -/
def boundSlots (g : Group) (m : Memory) : List (Nat × Nat) :=
  m.filterMap fun e =>
    if isBoundByte g e.1 && e.2.getLsbD 0 then some ((e.1 - g.area) / 16384, (e.1 - g.area) / 32 % 512) else none

/-- The images of every bound name of the live slices, in their slots (R237). -/
def dumpNames (g : Group) (m : Memory) : Memory :=
  g.liveSlices.foldl (fun m i =>
    (g.slices.get i).names.foldl (fun m e => storeCell m (slotAddr g.area i e.1) e.2) m) (clearBound g m)

/-- `g1` to `g59` and the predicates in the context record (R236). -/
def dumpRegs (g : Group) (m : Memory) : Memory :=
  let b := g.area + 0x30000
  let m := (List.range 59).foldl (fun m i => memWriteN m (b + 0x100 + 8 * i) 8 (g.gregs.getD (i + 1) 0).toNat) m
  (List.range 32).foldl (fun m l => memWriteN m (b + 0x300 + 2 * l) 2 ((g.slices.get (l / 4)).preds.get (l % 4)).toNat) m

/-- `g1` to `g59` and `q1` to `q15` from the context record (R236, R237); what is known of a failed fill of `g60` to `g63` stays (R242). -/
def loadRegs (g : Group) (m : Memory) : Group :=
  let b := g.area + 0x30000
  let g := { g with gfail := g.gfail.filter fun e => decide (60 ≤ e.1), gregs := (List.range 64).map fun i =>
    if 1 ≤ i ∧ i ≤ 59 then BitVec.ofNat 64 (memReadN m (b + 0x100 + 8 * (i - 1)) 8) else g.gregs.getD i 0 }
  g.modSlices (List.range 8) fun i sl =>
    { sl with preds := Quad.make fun l => BitVec.ofNat 16 (memReadN m (b + 0x300 + 2 * (4 * i + l)) 2) ||| 1 }

/-- A name of a live slice that is empty while its producer is outstanding (R237). -/
def Group.pendingName (g : Group) : Bool :=
  g.liveSlices.any fun i => (g.slices.get i).names.any fun e => !e.2.full && e.2.failed.isNone

/-- The registers that mode 1 of `vsdump` and `vsload` reads or writes (R237). -/
def dumpedRegs : List (BitVec 6) := (List.range 59).map fun i => BitVec.ofNat 6 (i + 1)

/-- `vsdump` (R237): like any reader it waits for a register that awaits a load (R159), and one whose window fill failed is a machine
check (R242). -/
def execVsdump (m : Bool) (s : State) : Result :=
  match issueOf s with
  | none => .next s
  | some c => .next <|
    if !c.g.priv then c.trap s { cause := 9 }
    else if m then
      if c.pending dumpedRegs then c.hold s []
      else match c.failedReg dumpedRegs with
        | some t => c.trap s t
        | none => c.advance (s.setMem (dumpRegs c.g s.mem)) 12 priceLane
    else if c.g.pendingName then c.hold s []
    else
      let s' := s.setMem (dumpNames c.g s.mem)
      c.advance (s'.modGroup c.gid fun g => g.modSlices g.liveSlices fun _ sl => { sl with names := [] }) 12 priceLane

/-- `vsload` (R237): every name of every live slice must be unbound. -/
def execVsload (m : Bool) (s : State) : Result :=
  match issueOf s with
  | none => .next s
  | some c => .next <|
    if !c.g.priv then c.trap s { cause := 9 }
    else if m then
      if c.pending dumpedRegs then c.hold s [] else c.advance (s.modGroup c.gid fun g => loadRegs g s.mem) 12 priceLane
    else if c.g.liveSlices.any fun i => !(c.g.slices.get i).names.isEmpty then c.trap s { cause := 1 }
    else
      let g' := (boundSlots c.g s.mem).foldl (fun g e => g.modSlice e.1 fun sl =>
        { sl with names := tabSet sl.names e.2 (loadCell s.mem (slotAddr g.area e.1 e.2)) }) c.g
      c.advance (s.modGroup c.gid fun _ => g') 12 priceLane

end Sys2Proof.Machine
end

