-- ==== Sys2Proof/Machine/Access.lean ====
section
/-! DEFINITION. What every memory instruction shares: the ranges of R155, lane addresses (R73), barrier objects (R182), and the release of
waits on objects, counters and edges (R183, R187, R271, R289). -/

namespace Sys2Proof.Machine

/-! ### Ranges (R154, R155, R163) -/

/-- A grid's P (R155): the extent from `g1` to the end of `const`, in whole 4,096-byte units. -/
def paramExtent (c : LaunchCmd) : Nat :=
  let constAt := (c.param.length + 63) / 64 * 64
  (constAt + c.const.length + 4095) / 4096 * 4096

/-- The launch of a group. -/
def State.launchOf (s : State) (g : Group) : Option LaunchCmd := (s.grids[g.grid]?).map fun d => d.cmd

/-- The base of the die allocation a group reaches (R315, R339). -/
def dieBase (s : State) (g : Group) : Nat :=
  match s.grids[g.grid]? with
  | some d => (d.dieBases.getD (s.panel g.panel).logical none).getD 0
  | none => 0

/-- Whether a range of `core` addresses touches an open or closing window of a team (R163). -/
def Team.touchesWindow (t : Team) (a n : Nat) : Bool :=
  t.windows.any fun w => (w.isOpen || w.closing) && decide (a < w.local_ + w.length) && decide (w.local_ < a + n)

/-- The team of a panel whose allocation lies on `%core` number `n` (R154): it holds its scratchpad. -/
def partnerTeam (s : State) (p : Panel) (n : Nat) : Option Team :=
  (p.teams.map s.team).find? fun t => t.holds && t.core % Config.coresPerCluster == n && clusterOfCore t.core == p.cluster

/-- What an access reaches. -/
inductive Reach where
  | at (phys : Nat)
  /-- outside the ranges of R155 -/
  | bounds
  /-- in the range of an open or closing window (R163) -/
  | window
deriving DecidableEq, Repr

/-- The range of `n` bytes at a `core` address of a team: outside the allocation before in a window (the model's order, log 104). -/
def reachTeam (t : Team) (a n : Nat) : Reach :=
  if t.holds && decide (t.base ≤ a) && decide (a + n ≤ t.base + t.size) then
    if t.touchesWindow a n then .window else .at (coreMem t.core + a)
  else .bounds

/-- Where `n` bytes at an address of a space lie for a group, by R154 and R155; `store`: the stores range. -/
def reach (s : State) (g : Group) (space : Space) (a n : Nat) (store : Bool) : Reach :=
  let p := s.panel g.panel
  match space with
  | .core => reachTeam (s.team g.team) a n
  | .clu =>
    if a < 0x3000000 then
      match partnerTeam s p (a / 2 ^ 19) with
      | some t =>
        if a % 2 ^ 19 + n ≤ t.size then reachTeam t (t.base + a % 2 ^ 19) n else .bounds
      | none => .bounds
    else if (p.status == .resident || p.status == .saving) && decide (a - 0x3000000 + n ≤ ((s.launchOf g).map fun c => c.sramBytes).getD 0) then
      .at (cluMem p.cluster + p.base + (a - 0x3000000))
    else .bounds
  | .die =>
    match s.launchOf g with
    | none => .bounds
    | some c =>
      let b := dieBase s g
      let lo := if store then b + paramExtent c else b
      if lo ≤ a ∧ a + n ≤ b + paramExtent c + c.dieBytes then .at (dieMem p.die + a) else .bounds
  | _ => .bounds

/-- The state with no window open over any allocation. -/
def State.unwindowed (s : State) : State := { s with teams := s.teams.map fun t => { t with windows := [] } }

/-- Where a word that an instruction has named lies now, whatever windows have opened over it since, its own team's or a partner's: the
ranges of windows were checked when it named the word, and what it began goes on (R163, R182, R183; the spec says nothing of a window that
opens later, log 93). -/
def placeOf (s : State) (g : Group) (space : Space) (a : Nat) : Option Nat :=
  match reach s g space a 8 false with
  | .at x => some x
  | .bounds => none
  | .window =>
    match reach s.unwindowed g space a 8 false with
    | .at x => some x
    | _ => none

/-! ### Lanes and addresses (R73, R88) -/

/-- The participating lanes of the gang, ascending: slice and lane. -/
def Issue.lanes (c : Issue) (p : Pred) : List (Nat × Nat) :=
  c.sls.flatMap fun i => ((List.range 4).filter fun l => ((c.g.slices.get i).active p).getLsbD l).map fun l => (i, l)

/-- `EA` of R73. -/
def laneAddr (g : Group) (m : Mem) (i l : Nat) : Nat :=
  let idx := match m.idx with
    | some x => ((g.slices.get i).datum l x.name.toNat).toNat
    | none => 0
  ((g.g m.base).toNat + idx + (m.off.signExtend 64).toNat) % 2 ^ 64

/-- The name the shape reads. -/
def memReads (p : Pred) (m : Mem) : List NameRead :=
  match m.idx with
  | some x => readsOf p false x
  | none => []

/-- The trap of an access that R155 refuses. -/
def Reach.trap (r : Reach) (addr : Nat) : Option Trap :=
  match r with
  | .at _ => none
  | .bounds => some { cause := 7, arg := BitVec.ofNat 64 addr }
  | .window => some { cause := 8, arg := BitVec.ofNat 64 addr }

/-- The trap of a descriptor or an engine's object outside R155, the ranges of windows included (R167, R214). -/
def Reach.outside (r : Reach) (addr : Nat) : Option Trap :=
  match r with
  | .at _ => none
  | _ => some { cause := 7, arg := BitVec.ofNat 64 addr }

/-- A misaligned address is a scratchpad-bounds trap (R155). -/
def alignTrap (addr n : Nat) : Option Trap := if addr % n = 0 then none else some { cause := 7, arg := BitVec.ofNat 64 addr }

/-- The trap of the first participating lane that fails, for words of `n` bytes (R185, R187, R233). -/
def wordTrap (s : State) (c : Issue) (p : Pred) (m : Mem) (add : Nat → Nat) (n : Nat) (store : Bool) : Option Trap :=
  (c.lanes p).findSome? fun x =>
    let a := laneAddr c.g m x.1 x.2 + add (4 * x.1 + x.2)
    firstTrap [(reach s c.g m.space a n store).trap a, alignTrap a n]

/-- The distinct addresses the participating lanes name, in the order of the lowest lane naming each, with those lanes. -/
def namedAddrs (c : Issue) (p : Pred) (m : Mem) (add : Nat → Nat) : List (Nat × Word32) :=
  (c.lanes p).foldl (fun xs x =>
    let n := 4 * x.1 + x.2
    let a := laneAddr c.g m x.1 x.2 + add n
    let bit : Word32 := BitVec.ofNat 32 (2 ^ n)
    if xs.any fun e => e.1 == a then xs.map fun e => if e.1 = a then (a, e.2 ||| bit) else e
    else xs ++ [(a, bit)]) []

/-! ### Barrier objects (R182) -/

/-- The count of an object. -/
def objCount (w : Nat) : Nat := w % 2 ^ 48
/-- The error field of an object. -/
def objError (w : Nat) : Nat := w / 2 ^ 60 % 16
/-- The external bit of an object. -/
def objExternal (w : Nat) : Bool := w / 2 ^ 59 % 2 == 1
/-- An error code recorded: the first nonzero one stays (R176, R182). -/
def objFail (w code : Nat) : Nat := if objError w = 0 then w + code * 2 ^ 60 else w
/-- A decrement by `m` (R182): beyond the count it sets 0 and records the over-count. -/
def objDown (w m : Nat) : Nat := if m ≤ objCount w then w - m else objFail (w - objCount w) 7

/-! ### Edge words (R283) -/

/-- Task A of an edge. -/
def edgeA (w : Nat) : Nat := w % 2 ^ 24
/-- Task B of an edge. -/
def edgeB (w : Nat) : Nat := w / 2 ^ 24 % 2 ^ 24
/-- Whether an edge points to task B. -/
def edgeToB (w : Nat) : Bool := w / 2 ^ 48 % 2 == 1
/-- The task an edge points to. -/
def edgeHolder (w : Nat) : Nat := if edgeToB w then edgeB w else edgeA w
/-- An edge turned: bit 48 written, every other bit kept. -/
def edgeTurn (w : Nat) (toB : Bool) : Nat := (if edgeToB w then w - 2 ^ 48 else w) + (if toB then 2 ^ 48 else 0)
/-- A well-formed edge. -/
def edgeOk (w : Nat) : Bool := decide (w < 2 ^ 49) && edgeA w != edgeB w

/-- An edge put in its place in a list of rising addresses; one already there stays. -/
def insertEdge (e : EdgeItem) : List EdgeItem → List EdgeItem
  | [] => [e]
  | x :: r => if e.addr < x.addr then e :: x :: r else if e.addr = x.addr then x :: r else x :: insertEdge e r

/-- The distinct edges of a list of items, in ascending address. -/
def edgeOrder (items : List EdgeItem) : List EdgeItem := items.foldl (fun xs e => insertEdge e xs) []

/-- The first edge that does not point to its list's task (R290, R291). -/
def notHeld (s : State) (g : Group) (items : List EdgeItem) : Option Trap :=
  items.findSome? fun e =>
    match placeOf s g .clu e.addr with
    | some a => if edgeHolder (memReadN s.mem a 8) = e.task then none else some { cause := 10, sub := 3, arg := BitVec.ofNat 64 e.addr }
    | none => some { cause := 7, arg := BitVec.ofNat 64 e.addr }

/-- `Flip` of R290 on edges that have passed its check. -/
def flipEdges (s : State) (g : Group) (items : List EdgeItem) : State :=
  s.setMem ((edgeOrder items).foldl (fun m e =>
    match placeOf s g .clu e.addr with
    | some a => let w := memReadN m a 8; memWriteN m a 8 (edgeTurn w (e.task == edgeA w))
    | none => m) s.mem)

/-! ### The release of waits on memory (R183, R187, R271, R289) -/

/-- An object or counter examined: released when its count is 0, delivering the error field, or a counter's underflow bit. -/
def WaitItem.look (s : State) (g : Group) (join : Bool) (x : WaitItem) : WaitItem :=
  if x.released then x
  else match placeOf s g x.space x.addr with
    | some a =>
      let w := memReadN s.mem a 8
      if objCount w = 0 then { x with released := true, value := if join then w / 2 ^ 63 else objError w } else x
    | none => x

/-- An edge examined: seen once it points to its task. -/
def EdgeItem.look (s : State) (g : Group) (x : EdgeItem) : EdgeItem :=
  if x.seen then x
  else match placeOf s g .clu x.addr with
    | some a => { x with seen := edgeHolder (memReadN s.mem a 8) == x.task }
    | none => x

/-- A wait with its objects or edges examined. -/
def GangWait.look (s : State) (g : Group) (w : GangWait) : GangWait :=
  match w.kind with
  | .objects xs d j e => { w with kind := .objects (xs.map (WaitItem.look s g j)) d j e }
  | .edges xs p => { w with kind := .edges (xs.map (EdgeItem.look s g)) p }
  | _ => w

/-- Whether everything a wait waits for has happened. -/
def GangWait.ready (w : GangWait) : Bool :=
  match w.kind with
  | .objects xs _ _ _ => xs.all fun x => x.released
  | .edges xs _ => xs.all fun x => x.seen
  | _ => false

/-- The slices of a wait continue, and the wait is gone. -/
def Group.finish (g : Group) (w : GangWait) : Group :=
  (({ g with waits := g.waits.filter fun v => v != w } : Group).release w).splitGangs

/-- The lanes of a slice that receive a wait's result, and what a lane receives. -/
def resultMask (xs : List WaitItem) (sl : Slice) (i : Nat) : BitVec 4 :=
  (xs.foldl (fun m x => m ||| x.lanes) (0 : Word32)).extractLsb' (4 * i) 4 &&& ~~~sl.exited

/-- The value a lane's own object delivers. -/
def resultOf (xs : List WaitItem) (i l : Nat) : Word32 :=
  BitVec.ofNat 32 ((xs.find? fun x => x.lanes.getLsbD (4 * i + l)).map fun x => x.value).get!

/-- The slices in which a released wait writes its destination. -/
def GangWait.resultSlices (w : GangWait) (g : Group) (xs : List WaitItem) : List Nat :=
  w.list.filter fun i => resultMask xs (g.slices.get i) i != 0

/-- The state after the destination of a released wait is written (R35, R187); none while a cell for it is still to come. -/
def writeResult (s : State) (gid : Nat) (g : Group) (w : GangWait) (d : Dst) (xs : List WaitItem) : State × Bool :=
  let is := w.resultSlices g xs
  let n := d.name.toNat
  let stuck := is.filter fun i => match (g.slices.get i).cell n with
    | some c => !c.full || c.spilled
    | none => false
  if !stuck.isEmpty then
    (s.modGroup gid fun g =>
      { g with wants := (g.wants ++ stuck.map fun i => (i, n)).eraseDups, wantStamps := g.stampWants s.tick (stuck.map fun i => (i, n)) }, false)
  else
    let short := is.filter fun i => ((g.slices.get i).cell n).isNone && cellsFor s g.core gid i == 0
    if !short.isEmpty then
      (short.foldl (fun s i => seekCells s g.core gid i 1) s, false)
    else
      let k := s.core g.core
      let s := s.modGroup gid fun g => g.modSlices is fun i sl =>
        sl.writeName n d.uses (resultMask xs sl i) (resultOf xs i) true (16 * k.stamp)
      (s.setCore g.core { k with stamp := k.stamp + 1,
                                 grants := k.grants.filter fun e => !(e.1 == gid && is.contains e.2) }, true)

/-- The destination of a wait (a number no name has, for a wait without one). -/
def GangWait.destName (w : GangWait) : Nat :=
  match w.kind with
  | .objects _ (some d) _ _ => d.name.toNat
  | _ => 512

/-- A released wait that the cells of its destination held back, and that can now write it or seek a cell for it (R35, R145). -/
def GangWait.retries (s : State) (gid : Nat) (g : Group) (w : GangWait) : Bool :=
  match w.kind with
  | .objects xs (some d) _ _ =>
    let is := w.resultSlices g xs
    let cell (i : Nat) : Option Cell := (g.slices.get i).cell d.name.toNat
    let short := is.filter fun i => (cell i).isNone && cellsFor s g.core gid i == 0
    w.ready && w.priv == g.priv && g.status == .live &&
      (is.all fun i => match cell i with | some c => c.full && !c.spilled | none => true) &&
      (short.isEmpty || short.any fun i => cellServed s g.core gid i)
  | _ => false

/-- A group whose reservation was released asks for it again (R277). -/
def askRereserve (s : State) (gid : Nat) (g : Group) : State :=
  if g.unreserved && g.rereserve.isNone then
    let k := s.core g.core
    (s.modGroup gid fun g => { g with rereserve := some k.requests }).setCore g.core { k with requests := k.requests + 1 }
  else s

/-- A use given back: a cell still bound counts as `old` did, its image following (R144); a freed one is bound again, as a spilled cell. -/
def Slice.giveBack (sl : Slice) (n : Nat) (old : Cell) : Slice :=
  match sl.cell n with
  | some c => { sl with names := tabSet sl.names n { c with count := old.count, spilling := c.spilling || c.spilled } }
  | none => { sl with names := tabSet sl.names n { old with spilled := true, spilling := false, spillFor := none } }

/-- The uses that a wait's instruction has taken of its index given back to the slices that still wait, the images of freed cells written
(R291; log 102). -/
def giveBackUses (s : State) (gid : Nat) (g : Group) (w : GangWait) : State :=
  (w.undo.filter fun e => w.slices.getLsbD e.1).foldl (fun s e =>
    let s := if ((g.slices.get e.1).cell e.2.1).isNone then s.setMem (storeCell s.mem (slotAddr g.area e.1 e.2.1) e.2.2) else s
    s.modGroup gid fun g => g.modSlice e.1 fun sl => sl.giveBack e.2.1 e.2.2) s

/-- An `edgepass` traps at its release before any state changes (R291): its wait is gone, and its uses, its count and its tokens are given
back (R36, R44, R298; log 102); it issues afresh. -/
def trapAtRelease (s : State) (gid : Nat) (g : Group) (w : GangWait) (t : Trap) : State :=
  trapEntry (((giveBackUses s gid g w).modGroup gid fun g =>
    { g with waits := g.waits.filter fun v => v != w, retired := if w.priv then g.retired else g.retired - 1 }).modCore g.core
      fun k => k.refund 2) gid t w.list

/-- A ready wait of a live group released, if it still stands in the group's present state of privilege, its destination can be written and
its flip made. A group whose reservation was released asks for it first (R277), and for a cell of its destination as it waits for that. -/
def tryRelease (s : State) (gid : Nat) (w : GangWait) : State :=
  match s.group gid with
  | none => s
  | some g =>
    if !(g.waits.contains w && w.priv == g.priv && g.status == .live) then s
    else match w.kind with
    | .objects xs d join _ =>
      let s := if join then askRereserve s gid g else s
      let (s, ok) := match d with
        | some d => writeResult s gid g w d xs
        | none => (s, true)
      if ok then wakeCore ((s.modGroup gid fun g => g.finish w).seeBounds gid) g.core 1
      else s
    | .edges xs pass =>
      if pass then
        if mustFollow s gid s.nextFlight [.rel] [] then s
        else match notHeld s g xs with
          | some t => trapAtRelease s gid g w t
          | none => ((flipEdges s g xs).modGroup gid fun g => g.finish w).seeBounds gid
      else (s.modGroup gid fun g => g.finish w).seeBounds gid
    | _ => s

/-- The waits of one group examined and released; an edge that has come to point to its task wakes the core it waits on (R289). On a core
whose clock is stopped nothing is released before the stop ends (R305; log 72). -/
def settleWaitsOf (s : State) (gid : Nat) : State :=
  match s.group gid with
  | none => s
  | some g =>
    if g.waits.isEmpty then s
    else
      let looked := g.waits.map (GangWait.look s g)
      let turned := (g.waits.zip looked).any fun x => x.1 != x.2 && (match x.1.kind with | .edges _ _ => true | _ => false)
      let s := s.modGroup gid fun g => { g with waits := looked }
      let s := if turned && g.onCore g.core then wakeOnEdge s g.core else s
      match s.group gid with
      | none => s
      | some g =>
        if g.status = .live ∧ !coreStopped s g.core then
          (g.waits.filter fun w => w.ready && w.priv == g.priv).foldl (fun s w => tryRelease s gid w) s
        else s

/-- Every wait on memory examined once, group by group. -/
def settleOnce (s : State) : State := (List.range s.groups.length).foldl settleWaitsOf s

/-- Every wait on memory examined until an examination changes none: a flip can release further waits (R289, R290). -/
def settleRounds : Nat → State → State
  | 0, s => s
  | n + 1, s =>
    let t := settleOnce s
    if (t.groups.map fun g => g.waits) = s.groups.map fun g => g.waits then t else settleRounds n t

/-- What waits on memory still have to see: a bound on the examinations that change something. -/
def State.unseen (s : State) : Nat :=
  (s.groups.map fun g => (g.waits.map fun w => 1 + match w.kind with
    | .objects xs _ _ _ => xs.length
    | .edges xs _ => xs.length
    | _ => 0).sum).sum

/-- Every wait on memory examined and released. -/
def settleWaits (s : State) : State := settleRounds (s.unseen + 1) s

end Sys2Proof.Machine
end

