-- ==== Sys2Proof/Machine/Lifecycle.lean ====
section
/-! DEFINITION. `exit` (R121) and what follows it: dead slices and groups (R32), join counters (R266), barriers (R189, R255, R240);
`bar`, `pbar`, `stepmark`, `rte` (R231) and `halt` (R239). -/

namespace Sys2Proof.Machine

/-- The accounts of an issue that sets no PC of its own gang. -/
def Issue.account (c : Issue) (s : State) (p : Price) : State :=
  let k := s.core c.g.core
  c.tally ((s.modGroup c.gid fun g => g.afterIssue c s.tick p).setCore c.g.core (k.afterIssue c p)) p

/-! ### Barriers (R189, R240, R255) -/

/-- A group that a barrier still counts: not retired. -/
def Group.counts (g : Group) : Bool := match g.status with | .retired | .gone => false | _ => true

/-- The waits of `bar` or `pbar` end in a group: slices of its present state of privilege continue and regroup by PC (R115, R119); those
of a wait laid aside by a handler or a save do so when it is resumed. -/
def Group.endBarrier (g : Group) (kind : WaitKind) : Group :=
  let out := g.waits.filter fun w => w.kind == kind && w.priv == g.priv && g.status == .live
  (g.endWaits (fun k => k == kind) true).regroup (out.flatMap GangWait.list)

/-- A trace record of a barrier release, for each group it concerns (R370; log 101). -/
def recordBarrier (s : State) (gids : List Nat) (kind : WaitKind) : State :=
  gids.foldl (fun s gid =>
    match s.group gid with
    | some g =>
      match g.waits.find? fun w => w.kind == kind with
      | some w => s.record gid 3 (w.list.headD 0) w.pc []
      | none => s
    | none => s) s

/-- A debug step ends at a phase (R368): every live group of the team takes the debug stop. -/
def stepStop (s : State) (team : Nat) : State :=
  if (s.team team).armed then
    (s.team team).groups.foldl (fun s gid =>
      s.modGroup gid fun g => if g.counts then { g with wantDebug := true } else g)
      (s.modTeam team fun t => { t with armed := false })
  else s

/-- The team barrier: its release when every live group has arrived (R189). -/
def checkBar (s : State) (team : Nat) : State :=
  let t := s.team team
  let gs := t.groups.filterMap s.group
  let live := gs.filter Group.counts
  let arrived (g : Group) : Bool := g.liveSlices.all fun i => (g.slices.get i).atBar
  if live.all arrived && live.any fun g => g.liveSlices.any fun i => (g.slices.get i).atBar then
    let s := recordBarrier s t.groups .bar
    let s := t.groups.foldl (fun s gid => (s.modGroup gid fun g =>
      (g.endBarrier .bar).modSlices (List.range 8) fun _ sl => { sl with atBar := false }).seeBounds gid) s
    stepStop (s.modTeam team fun t => { t with phase := t.phase + 1 }) team
  else s

/-- The teams of a panel that launched it: spawned teams take no part in `pbar` (R265). -/
def panelGroups (s : State) (panel : Nat) : List Nat :=
  (s.panel panel).teams.flatMap fun t => (s.team t).groups

/-- The spawned teams of a panel. -/
def spawnedTeams (s : State) (pid : Nat) : List Nat :=
  (s.teams.zipIdx.filter fun e => e.1.spawned && e.1.panel == pid && e.1.status != .retired).map fun e => e.2

/-- The panel barrier (R255), its wake sent to the cores of all its launched teams (the model's choice, log 25). A step of the panel's
teams, of its spawned groups too, ends at its phase (R366, R368). -/
def checkPbar (s : State) (panel : Nat) : State :=
  let gids := panelGroups s panel
  let live := (gids.filterMap s.group).filter Group.counts
  let arrived (g : Group) : Bool := g.liveSlices.all fun i => (g.slices.get i).atPbar
  if live.all arrived && live.any fun g => g.liveSlices.any fun i => (g.slices.get i).atPbar then
    let s := recordBarrier s gids .pbar
    let s := gids.foldl (fun s gid => (s.modGroup gid fun g =>
      (g.endBarrier .pbar).modSlices (List.range 8) fun _ sl => { sl with atPbar := false }).seeBounds gid) s
    let s := s.modPanel panel fun p => { p with phase := p.phase + 1 }
    let s := ((s.panel panel).teams.map fun t => (s.team t).core).foldl (fun s k => wakeCore s k 1) s
    ((s.panel panel).teams ++ spawnedTeams s panel).foldl stepStop s
  else s

/-! ### Step marks (R240, R337) -/

/-- The groups of a grid, spawned ones included. -/
def gridGroups (s : State) (grid : Nat) : List Nat :=
  (List.range s.groups.length).filter fun gid => match s.group gid with
    | some g => g.grid == grid && g.counts
    | none => false

/-- The partition's dies that no grid is assigned to, ascending (R336). -/
def freeDies (s : State) (part : Nat) : List Nat :=
  let used := (s.grids.filter fun d => d.part == part && !d.ended).flatMap fun d => d.dies ++ d.newDies.getD []
  match tabGet? s.parts part with
  | some p => (List.range 12).filter fun d => p.cfg.dies.contains d && !used.contains d
  | none => []

/-- The free dies of a partition once the launches that can start have taken theirs, and the launches that still wait for dies (R336). -/
def afterStarts (s : State) (part : Nat) : List Nat × List Grid :=
  (s.grids.filter fun e => e.part == part && e.status == .waiting && !e.ended).foldl (fun x e =>
    if max 1 e.cmd.minDies ≤ x.1.length then (x.1.drop e.cmd.maxDies, x.2) else (x.1, x.2 ++ [e])) (freeDies s part, [])

/-- How many dies of a partition are being given up: withdrawn at a step mark, and still to be left by the panels on them (R337). -/
def diesLeaving (s : State) (part : Nat) : Nat :=
  ((s.grids.filter fun e => e.part == part && !e.ended).map fun e => match e.newDies with
    | some new => (e.dies.filter fun x => !new.contains x).length
    | none => 0).sum

/-- The die set of a grid after the release of a step mark (R337): while a launch of a higher `prio` waits for dies, as many are withdrawn
as it still lacks, and none is added. -/
def nextDies (s : State) (d : Grid) : List Nat :=
  let (free, waiting) := afterStarts s d.part
  let higher := waiting.filter fun e => decide (d.cmd.prio < e.cmd.prio)
  let wanted := (higher.map fun e => e.cmd.minDies - (free.length + diesLeaving s d.part)).foldl max 0
  let most := d.target.getD d.cmd.maxDies
  if wanted != 0 then d.dies.take (max d.cmd.minDies (d.dies.length - wanted))
  else if most ≤ d.dies.length then d.dies.take (max d.cmd.minDies most)
  else
    let add := if higher.isEmpty then free.take (most - d.dies.length) else []
    (List.range 12).filter fun x => d.dies.contains x || add.contains x

/-- Every live group of a team asked to save itself, with a sub-cause (R228, R238). -/
def askSave (s : State) (team sub : Nat) : State :=
  (s.team team).groups.foldl (fun s gid => s.modGroup gid fun g =>
    if g.counts && g.status != .away && g.status != .saved then { g with wantPreempt := true, preemptSub := sub } else g)
    (s.modTeam team fun t => { t with status := .saving })

/-- The resident teams of a panel, spawned groups among them. -/
def panelResidents (s : State) (pid : Nat) : List Nat :=
  ((s.panel pid).teams ++ spawnedTeams s pid).filter fun t => (s.team t).status == .resident

/-- Every team of a panel, spawned groups among them, asked to save itself with a sub-cause (R253, R281). -/
def savePanel (s : State) (pid sub : Nat) : State :=
  (panelResidents s pid).foldl (fun s t => askSave s t sub) (s.modPanel pid fun p => { p with status := .saving })

/-- A group saved, or being saved, at a step mark whose release changes the die set (R337): it resumes after the mark, but where its save
routine has moved a slice's PC, which gives up the wait (R231). -/
def Group.passStep (g : Group) : Group :=
  let stands (i : Nat) : Bool := g.waits.any fun w => w.kind == .stepmark && w.slices.getLsbD i && w.pc == spcPC (g.ctx.spc.get i)
  { g with
    ctx := { g.ctx with spc := .make fun i => if stands i then g.ctx.spc.get i + 12 else g.ctx.spc.get i }
    waits := g.waits.filter fun w => w.kind != .stepmark }

/-- No cross-die write of a partition is still on its way: what was written before a step mark is seen after it on every die, since arrival
and release are a release and an acquire at `.pkg` scope (R240, R331). -/
def stepQuiet (s : State) (part : Nat) : Bool :=
  match tabGet? s.parts part with
  | some p => p.cfg.dies.all fun d => (s.die d).inbox.isEmpty
  | none => true

/-- The release of a step mark when every live slice of the grid waits in one and every panel has been admitted (R240, R337): with the
same dies every slice goes on, parted gangs staying parted (R31); with others every panel saves itself at the mark, to resume after it. -/
def checkStep (s : State) (grid : Nat) : State :=
  match s.grids[grid]? with
  | none => s
  | some d =>
    let gids := gridGroups s grid
    let gs := gids.filterMap s.group
    let arrived (g : Group) : Bool := g.liveSlices.all fun i => (g.slices.get i).atStep
    let started := d.panels.all fun p => (s.panel p).started
    if !(d.ended) && started && stepQuiet s d.part && gs.all arrived && gs.any fun g => g.liveSlices.any fun i => (g.slices.get i).atStep then
      let dies := nextDies s d
      let clear (g : Group) : Group := g.modSlices (List.range 8) fun _ sl => { sl with atStep := false }
      let s := recordBarrier s gids .stepmark
      if dies = d.dies then
        gids.foldl (fun s gid => (s.modGroup gid fun g => clear (g.endWaits (fun k => k == .stepmark) false)).seeBounds gid) s
      else
        let s := gids.foldl (fun s gid =>
          match s.group gid with
          | none => s
          | some g =>
            if g.status = .away || g.saving then
              let g' := clear g.passStep
              ((s.modGroup gid fun _ => g').setMem (g'.ctx.store g'.area s.mem)).seeBounds gid
            else (s.modGroup gid fun g => clear { g with stepDone := true, preemptSub := 2 }).seeBounds gid)
          (s.modGrid grid fun d => { d with newDies := some dies })
        d.panels.foldl (fun s p => if (s.panel p).status = .resident then savePanel s p 2 else s) s
    else s

/-- The step marks that can be released (R240). -/
def checkSteps (s : State) : State := (List.range s.grids.length).foldl checkStep s

/-- Every barrier a death in the group can complete (R189, R240, R255). -/
def checkBarriers (s : State) (g : Group) : State :=
  checkStep (checkPbar (checkBar s g.team) g.panel) g.grid

/-! ### Exit and retirement (R32, R121, R266) -/

/-- Lanes of a slice exit: their counts and pins become 0, cells so emptied are freed, their predicates no longer matter (R32). -/
def Slice.exitLanes (sl : Slice) (mask : BitVec 4) : Slice :=
  let clear (c : Cell) : Cell :=
    { c with spilling := c.spilling || c.spilled
             count := .make fun l => if mask.getLsbD l then 0 else c.count.get l
             pin := .make fun l => if mask.getLsbD l then false else c.pin.get l }
  { sl with
    exited := sl.exited ||| mask
    mask := sl.mask &&& ~~~mask
    names := if mask = 0 then sl.names
      else (sl.names.map fun e => (e.1, clear e.2)).filter fun e => !e.2.allZero }

/-- A spawned lane's exit at its join counter (R266): one less, or the underflow bit. -/
def joinDown (w : Nat) : Nat := if objCount w = 0 then (if w / 2 ^ 63 = 1 then w else w + 2 ^ 63) else w - 1

/-- The join counters of lanes decremented. -/
def exitJoins (s : State) (g : Group) (lanes : List (Nat × Nat)) : State :=
  s.setMem (lanes.foldl (fun m x =>
    match ((g.slices.get x.1).spawned.get x.2).join with
    | none => m
    | some a => match placeOf s g .clu a with
      | some p => memWriteN m p 8 (joinDown (memReadN m p 8))
      | none => m) s.mem)

/-- The write-backs of a team's dirty segments begin (R162, R181). -/
def Window.startWriteback (w : Window) : Window :=
  if (w.isOpen || w.closing) && !w.readOnly then
    { w with segments := w.segments.map fun x => if x.dirty then { x with writing := true } else x }
  else w

/-- A group all of whose slices are dead retires (R32); its record names the instruction that ended the last of them, and the lowest of the
slices that it ran in (R370; log 101). -/
def retireGroup (s : State) (c : Issue) : State :=
  match s.group c.gid with
  | none => s
  | some g =>
    if g.liveSlices.isEmpty && (g.status == .live || g.status == .starting) then
      let s := s.record c.gid 1 (c.sls.headD 0) c.pc []
      let s := s.modGroup c.gid fun g =>
        { g with status := .retired, waits := [], latch := none, held := 0, wants := [], rereserve := none, gpend := [],
                 slices := .make fun i => { g.slices.get i with names := [], stack := [], floors := [0] } }
      checkBarriers s g
    else s

/-- A wait of `jwait` (R271). -/
def WaitKind.isJoin : WaitKind → Bool
  | .objects _ _ join _ => join
  | _ => false

/-- Every live slice of a group waits in `jwait`. -/
def Group.allJoin (g : Group) : Bool :=
  !g.liveSlices.isEmpty && g.liveSlices.all fun i => g.waits.any fun w => w.kind.isJoin && !w.ready && w.slices.getLsbD i

/-- A group every live gang of which waits in `jwait` gives up its reservation (R276). -/
def checkJoin (s : State) (gid : Nat) : State :=
  s.modGroup gid fun g => if g.status = .live && !g.priv && g.allJoin then { g with unreserved := true } else g

/-- What follows a change that an issue makes in its group: waits on memory, the group's waits on itself, its end. -/
def afterChange (s : State) (c : Issue) : State := retireGroup (settleGroup (checkJoin (settleWaits s) c.gid) c.gid) c

/-- A slice with no lane left to run (R32, R113): outside a handler, also one whose last active lane has exited with none held. -/
def Slice.ends (sl : Slice) (priv : Bool) : Bool := !sl.live || (!priv && sl.mask == 0 && sl.stack.isEmpty)

/-- The slices a group's `exit` leaves with no lane to run are dead (R113), and the others regroup by PC. -/
def Group.bury (g : Group) (is : List Nat) : Group :=
  if g.priv then g else (g.modSlices is fun _ sl => sl.bury).regroup is

/-- `exit` (R121): every lane of T exits. A lane that names a join counter is a release (R280), and so is the death of a slice, which its
barriers no longer wait for: what its group did before comes before their release (R189, R240, R255). -/
def execExit (p : Pred) (s : State) : Result :=
  match issueOf s with
  | none => .next s
  | some c => .next <|
    let lanes := c.lanes p
    let joins := lanes.any fun x => (((c.g.slices.get x.1).spawned.get x.2).join).isSome
    let ends := c.sls.any fun i => let sl := c.g.slices.get i; (sl.exitLanes (sl.active p)).ends c.g.priv
    if (joins || ends) && c.mustFollow s .rel [] then c.hold s []
    else
      let s := exitJoins s c.g lanes
      let s := s.modGroup c.gid fun g => g.modSlices c.sls fun _ sl => { sl.exitLanes (sl.active p) with pc := sl.pc + 12 }
      let s := afterChange ((c.done s priceLane).modGroup c.gid fun g => (g.bury c.sls).reexamine) c
      checkBarriers s c.g

/-! ### Barriers issued -/

/-- A barrier issues: the slices' arrivals are marked, their wait begins, and it may be over at once. -/
def barrierStep (s : State) (entry : Issue → Option Trap) (kind : WaitKind) (mark : Slice → Slice) (check : State → Group → State) :
    Host.Outcome State Fault Refusal :=
  match issueOf s with
  | none => .next s
  | some c => .next <|
    match entry c with
    | some t => c.trap s t
    | none =>
      if c.mustFollow s .rel [] then c.hold s []
      else
        let s := c.await s kind priceLane
        check (s.modGroup c.gid fun g => g.modSlices c.sls fun _ sl => mark sl) c.g

/-- `bar` (R189). -/
def execBar (s : State) : Result :=
  barrierStep s (fun _ => none) .bar (fun sl => { sl with atBar := true }) fun s g => checkBar s g.team

/-- `pbar` (R255); in a spawned group it is illegal (R265). -/
def execPbar (s : State) : Result :=
  barrierStep s (fun c => trapIf c.g.spawned 1) .pbar (fun sl => { sl with atPbar := true }) fun s g => checkPbar s g.panel

/-- `stepmark` (R240). -/
def execStepmark (s : State) : Result :=
  barrierStep s (fun _ => none) .stepmark (fun sl => { sl with atStep := true }) fun s g => checkStep s g.grid

/-! ### `rte` and `halt` (R231, R238, R239) -/

/-- A return that leaves a live slice of the group dead. -/
def Group.returnEnds (g : Group) : Bool := (List.range 8).any fun i => (g.slices.get i).live && !(g.leave.slices.get i).live

/-- `rte` (R231): once for the group; then its waits resume, and slices that it leaves dead are no longer waited for, so that like an exit
it follows what its group did (R189). It writes `g60` to `g63`, and waits as any writer does while one of them awaits a load (R159). A
double trap pays nothing (R298). -/
def execRte (s : State) : Result :=
  match issueOf s with
  | none => .next s
  | some c => .next <|
    if !c.g.priv then c.trap s { cause := 9 }
    else if (c.g.gpend.any fun n => decide (60 ≤ n)) || (s.rteOk c.g && c.g.returnEnds && c.mustFollow s .rel []) then c.hold s []
    else checkBarriers (afterChange (returnFromTrap (if s.rteOk c.g then c.account s priceLane else s) c.gid) c) c.g

/-- `halt` (R238, R239): it ends the save of the group, or stops the group and sends the host a halt event. -/
def execHalt (s : State) : Result :=
  match issueOf s with
  | none => .next s
  | some c => .next <|
    if !c.g.priv then c.trap s { cause := 9 }
    else
      let s := c.account s priceLane
      if c.g.saving then s.modGroup c.gid fun g => { g with status := .saved }
      else (s.modGroup c.gid fun g => { g with status := .stopped }).event (some c.g.part) [2, c.gid, c.g.ctx.cause.toNat, c.g.ctx.targ.toNat]

end Sys2Proof.Machine
end

