-- ==== Sys2Proof/Machine/Memory.lean ====
section
/-! DEFINITION. Lane and uniform accesses (R156 to R159, R190 to R192), through windows as well (R161, R164, R165): issue, performance
at the owning bank, and the arrival of loaded data. -/

namespace Sys2Proof.Machine

/-! ### Where an access goes -/

/-- A resolved access: its place in memory, and the window and offset it goes through. -/
structure Target where
  phys : Nat
  win : Option (Nat × Nat) := none
deriving DecidableEq, Repr

/-- The segments that `n` bytes at an offset touch (R160). -/
def segmentsAt (off n : Nat) : List Nat := (List.range ((off + n - 1) / 4096 - off / 4096 + 1)).map fun k => off / 4096 + k

/-- A window of a team. -/
def Team.window (t : Team) (w : Nat) : Window := t.windows.getD w {}
/-- A segment of a window. -/
def Window.seg (w : Window) (j : Nat) : Segment := w.segments.getD j {}

/-- An access of `n` bytes at an address of a space, or the trap that R155, R161, R164 and R165 give it; the machine check of a failed
segment comes before misalignment (the model's order, log 104). -/
def accessTarget (s : State) (g : Group) (space : Space) (win a n : Nat) (store : Bool) : Except Trap Target :=
  let arg := BitVec.ofNat 64 a
  let inner : Except Trap Target :=
    match space with
    | .win =>
      let t := s.team g.team
      let w := t.window win
      if !w.isOpen || w.closing || decide (w.length < a + n) || (store && w.readOnly) then .error { cause := 8, arg := arg }
      else if (segmentsAt a n).any fun j => (w.seg j).failed then .error { cause := 11, sub := 3, arg := arg }
      else .ok ⟨coreMem t.core + w.local_ + a, some (win, a)⟩
    | _ =>
      match reach s g space a n store with
      | .at x => .ok ⟨x, none⟩
      | .bounds => .error { cause := 7, arg := arg }
      | .window => .error { cause := 8, arg := arg }
  match inner with
  | .error t => .error t
  | .ok x => if a % min n 16 = 0 then .ok x else .error { cause := 7, arg := arg }

/-- A window of a team changed. -/
def State.modWindow (s : State) (team w : Nat) (f : Window → Window) : State :=
  s.modTeam team fun t => { t with windows := t.windows.modify w f }

/-- A segment of a window changed. -/
def State.modSeg (s : State) (team w j : Nat) (f : Segment → Segment) : State :=
  s.modWindow team w fun x => { x with segments := x.segments.modify j f }

/-- The fills of the absent segments an access of a group touches begin (R161); they come after what the order of R193 keeps before that
access. -/
def startFills (s : State) (gid team : Nat) (win : Option (Nat × Nat)) (n : Nat) : State :=
  match win with
  | none => s
  | some (w, off) => (segmentsAt off n).foldl (fun s j => s.modSeg team w j fun x =>
      if x.present || x.filling || x.failed then x else { x with filling := true, fillFor := some (gid, s.nextFlight) }) s

/-- Whether a store may go through: its segments are present and none waits for its write-back (R161, R162). -/
def storeReady (s : State) (team : Nat) (win : Option (Nat × Nat)) (n : Nat) : Bool :=
  match win with
  | none => true
  | some (w, off) => (segmentsAt off n).all fun j =>
      let x := ((s.team team).window w).seg j
      x.present && !x.writing

/-- The dirty bits of the segments a store writes (R161). -/
def markDirty (s : State) (team : Nat) (win : Option (Nat × Nat)) (n : Nat) : State :=
  match win with
  | none => s
  | some (w, off) => (segmentsAt off n).foldl (fun s j => s.modSeg team w j fun x => { x with dirty := true }) s

/-- The code of a space in R73. -/
def spaceCode : Space → Nat
  | .core => 0
  | .clu => 1
  | .die => 2
  | .win => 3
  | .gl => 4

/-! ### Lane accesses at issue -/

/-- The accesses of the participating lanes, or the trap of the first lane that fails (R233). -/
def laneTargets (s : State) (c : Issue) (p : Pred) (m : Mem) (n : Nat) (store : Bool) :
    Except Trap (List ((Nat × Nat) × Nat × Target)) :=
  (c.lanes p).foldr (fun x r =>
    let a := laneAddr c.g m x.1 x.2
    match accessTarget s c.g m.space m.win.toNat a n store with
    | .error t => .error t
    | .ok t => match r with
      | .error e => .error e
      | .ok xs => .ok ((x, a, t) :: xs)) (.ok [])

/-- The trap among resolved accesses. -/
def targetTrap {α : Type} : Except Trap α → Option Trap
  | .error t => some t
  | .ok _ => none

/-- The resolved accesses. -/
def targetList {α : Type} : Except Trap (List α) → List α
  | .error _ => []
  | .ok xs => xs

/-- One flight per participating lane, in ascending `%lane`. -/
def launchFlights (s : State) (c : Issue) (m : Mem) (n : Nat) (xs : List ((Nat × Nat) × Nat × Target))
    (op : Nat × Nat → FlightOp) (acq rel : Bool) : State :=
  let id := s.nextFlight
  let flights := xs.zipIdx.map fun (x : ((Nat × Nat) × Nat × Target) × Nat) =>
    (id + x.2, ({ group := c.gid, slice := x.1.1.1, lane := x.1.1.2, pc := c.pc, instr := id, addr := x.1.2.2.phys, size := n,
                  op := op x.1.1, acq := acq, rel := rel, win := x.1.2.2.win, space := spaceCode m.space,
                  named := x.1.2.1, since := s.gtime.toNat } : Flight))
  { s with flights := s.flights ++ flights, nextFlight := id + flights.length }

/-- The names a load or an atomic leaves empty remember the instruction that fills them. -/
def Slice.await (sl : Slice) (names : List Nat) (mask : BitVec 4) (instr : Nat) : Slice :=
  if mask = 0 then sl
  else { sl with names := sl.names.map fun e => if names.contains e.1 then (e.1, { e.2 with producer := instr }) else e }

/-- The names of `n` elements from a first name (R156). -/
def elementNames (first n : Nat) (wide : Bool) : List Nat := (List.range (if wide then 2 * n else n)).map fun e => first + e

/-- Empty writes of names with a use field (R157, R191). -/
def emptyWrites (c : Issue) (p : Pred) (names : List Nat) (uses : BitVec 3) : List NameWrite :=
  names.map fun n => { name := n, uses := uses, mask := fun i => (c.g.slices.get i).active p, data := fun _ _ => 0, full := false }

/-- `ld` (R156, R157). -/
def execLd (p : Pred) (d : Dst) (m : Mem) (n : BitVec 2) (t : Ty) (s : State) : Result :=
  match issueOf s with
  | none => .next s
  | some c => .next <|
    let count := 2 ^ n.toNat
    let size := count * t.bytes
    let names := elementNames d.name.toNat count t.wide
    let xs := laneTargets s c p m size false
    let rs := memReads p m
    laneStep s c rs (names.map fun x => (p, x)) (targetTrap xs) (fun _ =>
      (c.commit s rs (emptyWrites c p names d.uses) fun _ => 0).map fun s =>
        let id := s.nextFlight
        let s := launchFlights s c m size (targetList xs) (fun _ => .load d.name.toNat count t) false false
        let s := s.modGroup c.gid fun g => g.modSlices c.sls fun i sl => sl.await names ((c.g.slices.get i).active p) id
        let s := (targetList xs).foldl (fun s x => startFills s c.gid c.g.team x.2.2.win size) s
        c.advance s 12 priceLane) [m.base]

/-- A store held until every segment it touches is present; the fills begin (R161). -/
def Issue.holdForFills (c : Issue) (s : State) (wins : List (Option (Nat × Nat))) (n : Nat) : State :=
  c.hold (wins.foldl (fun s w => startFills s c.gid c.g.team w n) s) []

/-- The bytes a store's lane writes: its elements, low bytes first (R157). -/
def storeData (sl : Slice) (l first count : Nat) (t : Ty) : Nat :=
  ((List.range count).map fun e =>
    sl.value t.wide l (BitVec.ofNat 9 (first + (if t.wide then 2 * e else e))) % 2 ^ (8 * t.bytes) * 2 ^ (8 * t.bytes * e)).sum

/-- `st` (R156, R157). -/
def execSt (p : Pred) (m : Mem) (b : Src) (n : BitVec 2) (t : Ty) (s : State) : Result :=
  match issueOf s with
  | none => .next s
  | some c => .next <|
    let count := 2 ^ n.toNat
    let size := count * t.bytes
    let names := elementNames b.name.toNat count t.wide
    let xs := laneTargets s c p m size true
    let rs := memReads p m ++ names.map fun x => ⟨p, { b with name := BitVec.ofNat 9 x }⟩
    laneStep s c rs [] (targetTrap xs) (fun _ =>
      if (targetList xs).all fun x => storeReady s c.g.team x.2.2.win size then
        (c.commit s rs [] fun _ => 0).map fun s =>
          let s := launchFlights s c m size (targetList xs)
            (fun x => .store (storeData (c.g.slices.get x.1) x.2 b.name.toNat count t)) false false
          c.advance ((targetList xs).foldl (fun s x => markDirty s c.g.team x.2.2.win size) s) 12 priceLane
      else .ok (c.holdForFills s ((targetList xs).map fun x => x.2.2.win) size)) [m.base]

/-- `atom` (R190, R191). -/
def execAtom (p : Pred) (d : Dst) (m : Mem) (b c : Src) (op : AtomOp) (ord : Order) (t : Ty) (s : State) : Result :=
  match issueOf s with
  | none => .next s
  | some i => .next <|
    let xs := laneTargets s i p m t.bytes true
    let names := elementNames d.name.toNat 1 t.wide
    let rs := memReads p m ++ readsOf p t.wide b ++ (if op = .cas then readsOf p t.wide c else [])
    let val (x : Nat × Nat) (n : BitVec 9) : Nat := (i.g.slices.get x.1).value t.wide x.2 n
    laneStep s i rs (names.map fun x => (p, x)) (targetTrap xs) (fun _ =>
      if (targetList xs).all fun x => storeReady s i.g.team x.2.2.win t.bytes then
        (i.commit s rs (emptyWrites i p names d.uses) fun _ => 0).map fun s =>
          let id := s.nextFlight
          let s := launchFlights s i m t.bytes (targetList xs) 
            (fun x => .atom op t (val x b.name) (val x c.name) d.name.toNat (i.g.slices.get x.1).fmt)
            (ord == .acq || ord == .ar) (ord == .rel || ord == .ar)
          let s := s.modGroup i.gid fun g => g.modSlices i.sls fun k sl => sl.await names ((i.g.slices.get k).active p) id
          i.advance ((targetList xs).foldl (fun s x => markDirty s i.g.team x.2.2.win t.bytes) s) 12 priceLane
      else .ok (i.holdForFills s ((targetList xs).map fun x => x.2.2.win) t.bytes)) [m.base]

/-- `fence` (R192): it takes its place among the group's accesses. The order of each scope is kept at every scope. -/
def execFence (_ : Scope) (s : State) : Result :=
  match issueOf s with
  | none => .next s
  | some c => .next <|
    c.advance { s with flights := s.flights ++ [(s.nextFlight, { group := c.gid, pc := c.pc, instr := s.nextFlight, op := .fence })],
                       nextFlight := s.nextFlight + 1 } 12 priceLane

/-! ### Uniform accesses (R158, R159) -/

/-- The space of a uniform access. -/
def uniformSpace (n : BitVec 2) : Space :=
  match n.toNat with
  | 0 => .core
  | 1 => .clu
  | 2 => .die
  | _ => .win

/-- The address of a uniform access. -/
def uniformAddr (g : Group) (base : BitVec 6) (off : BitVec 28) : Nat := (g.g base + off.signExtend 64).toNat

/-- The flight of a uniform access. -/
def uniformFlight (s : State) (c : Issue) (t : Target) (space : Space) (a n : Nat) (op : FlightOp) : State :=
  let f : Flight :=
    { group := c.gid, slice := c.sls.headD 0, pc := c.pc, instr := s.nextFlight, addr := t.phys, size := n, op := op,
      win := t.win, space := spaceCode space, named := a, priv := c.g.priv, since := s.gtime.toNat }
  { s with flights := s.flights ++ [(s.nextFlight, f)], nextFlight := s.nextFlight + 1 }

/-- `gld` (R158, R159). -/
def execGld (d base : BitVec 6) (sx : Bool) (space size : BitVec 2) (win : BitVec 4) (off : BitVec 28) (s : State) : Result :=
  let n := 2 ^ size.toNat
  let sp := uniformSpace space
  let target (c : Issue) : Except Trap Target := accessTarget s c.g sp win.toNat (uniformAddr c.g base off) n false
  uniFrame s [d] [base] (fun c => targetTrap (target c)) fun c =>
    match target c with
    | .error t => c.trap s t
    | .ok t =>
      let s := uniformFlight s c t sp (uniformAddr c.g base off) n (.gload d.toNat sx)
      let s := startFills s c.gid c.g.team t.win n
      c.advance (s.modGroup c.gid fun g => if d = 0 then g else { g with gpend := g.gpend ++ [d.toNat] }) 8 priceUniform

/-- `gst` (R158, R159). -/
def execGst (base b : BitVec 6) (space size : BitVec 2) (win : BitVec 4) (off : BitVec 28) (s : State) : Result :=
  let n := 2 ^ size.toNat
  let sp := uniformSpace space
  let target (c : Issue) : Except Trap Target := accessTarget s c.g sp win.toNat (uniformAddr c.g base off) n true
  uniFrame s [] [base, b] (fun c => targetTrap (target c)) fun c =>
    match target c with
    | .error t => c.trap s t
    | .ok t =>
      if storeReady s c.g.team t.win n then
        let s := uniformFlight s c t sp (uniformAddr c.g base off) n (.store ((c.g.g b).toNat % 2 ^ (8 * n)))
        c.advance (markDirty s c.g.team t.win n) 8 priceUniform
      else c.holdForFills s [t.win] n

/-! ### Performance at the bank (R191, R249) -/

/-- The new value of an indivisible update and its flags (R175, R191); a floating minimum or maximum reads its operands as they are
(R61, R67). -/
def atomNew (f : Arith) (op : AtomOp) (t : Ty) (old b c : Nat) : Nat × FlagSet :=
  match op with
  | .add => if t = .f32 then resFadd .f32 f old b else (resAdd t false old b, 0)
  | .min => if t = .f32 then resFmin .f32 { f with fin := false } old b else (resMin t old b, 0)
  | .max => if t = .f32 then resFmax .f32 { f with fin := false } old b else (resMax t old b, 0)
  | .and => (old &&& b, 0)
  | .or => (old ||| b, 0)
  | .xor => (old ^^^ b, 0)
  | .xchg => (b, 0)
  | .cas => (if old = b then c else old, 0)
  | .binc => (if old < b then old + 1 else old, 0)
  | .bdec => (if b < old then old - 1 else old, 0)

/-- The kinds of an access for the order of R193. -/
def Flight.kinds (f : Flight) : List AccessKind :=
  match f.op with
  | .load _ _ _ | .gload _ _ => [.load]
  | .store _ => [.store]
  | .atom .. => .atomic :: (if f.acq then [.acq] else []) ++ (if f.rel then [.rel] else [])
  | .fence => [.fence]

/-- The window segments an access goes through are all present. -/
def flightPresent (s : State) (g : Group) (f : Flight) : Bool :=
  match f.win with
  | none => true
  | some (w, off) => (segmentsAt off f.size).all fun j => (((s.team g.team).window w).seg j).present

/-- One of them has failed (R165). -/
def flightFailed (s : State) (g : Group) (f : Flight) : Bool :=
  match f.win with
  | none => false
  | some (w, off) => (segmentsAt off f.size).any fun j => (((s.team g.team).window w).seg j).failed

/-- The hops of R371 (bank, cluster network, die network, die-to-die links, HBM controller) that a request to a space may cross; `far`:
its bytes are homed on another die or a peer. -/
def crosses (space : Nat) (far : Bool) : List Bool :=
  match space with
  | 0 | 3 => [true, false, false, false, false]
  | 1 => [true, true, false, false, false]
  | 2 => [true, true, true, false, false]
  | _ => [true, true, true, far, true]

/-- A time-loss record of a request that completes, issued at `since`, to each recording that samples it (R371). How long it queued at a
hop that it crosses is not the spec's to give: a free value (log 32). -/
def State.sample (s : State) (gid slice : Nat) (pc : Word32) (since access space addr : Nat) (far : Bool) : State :=
  match s.group gid with
  | none => s
  | some g =>
    if s.recordings.any fun r => r.mask.testBit 5 && r.covers s g then
      let times := (crosses space far).zipIdx.map fun x =>
        if x.1 then (Config.freeValue (s.freeCount + x.2)).toNat % 65536 else 0
      let fields := recordFields s g 5 slice pc ++
        (times.zipIdx.map fun x => (40 + 2 * x.2, 2, x.1)) ++ [(50, 2, min 65535 (s.gtime.toNat - since)), (52, 1, access), (53, 1, space), (56, 8, addr)]
      let take (r : Recording) : Recording :=
        let n := tabGet r.seen 0 g.core
        let r := { r with seen := tabSet r.seen g.core (n + 1) }
        if n % 2 ^ r.every == 0 then r.raise g fields else r
      { s with recordings := s.recordings.map fun r => if r.mask.testBit 5 && r.covers s g then take r else r, freeCount := s.freeCount + 5 }
    else s

/-- A lane or uniform access sampled at its completion (R371). -/
def State.sampleFlight (s : State) (f : Flight) : State :=
  match f.op with
  | .fence => s
  | op =>
    s.sample f.group f.slice f.pc f.since (match op with | .load .. | .gload .. => 0 | .store _ => 1 | _ => 2) f.space f.named false

/-- The accesses of an instruction that makes them in its own step, one for each participating lane, sampled as they complete (R371). -/
def Issue.sampleLanes (c : Issue) (s : State) (p : Pred) (m : Mem) (access : Nat) (add : Nat → Nat) : State :=
  (c.lanes p).foldl (fun s x =>
    s.sample c.gid x.1 c.pc s.gtime.toNat access (spaceCode m.space) (laneAddr c.g m x.1 x.2 + add (4 * x.1 + x.2)) false) s

/-- An access performed; an atomic rounds and flushes by `%fmt` as it stood at its issue (R41, R191). -/
def performFlight (s : State) (id : Nat) (g : Group) (f : Flight) : State :=
  let keep (f : Flight) : State := { s with flights := tabSet s.flights id f }
  let gone : State := { s with flights := tabErase s.flights id }
  match f.op with
  | .load _ _ _ | .gload _ _ => keep { f with performed := true, data := memReadN s.mem f.addr f.size }
  | .store v => (markDirty (gone.setMem (memWriteN s.mem f.addr f.size v)) g.team f.win f.size).sampleFlight f
  | .atom op t b c _ fmt =>
    let old := memReadN s.mem f.addr f.size
    let (new, fl) := atomNew (Arith.of fmt) op t old b c
    let s := (keep { f with performed := true, data := old }).setMem (memWriteN s.mem f.addr f.size new)
    let s := s.modGroup f.group fun g => g.raiseLate f.slice fl
    let s := markDirty s g.team f.win f.size
    if f.acq then s.seeBounds f.group else s
  | .fence => gone.seeBounds f.group

/-- MEMORY_ACCESS_PERFORM (R191, R249, R263, R314): an access is performed once those the order keeps before it are; then waits on what
it wrote are examined, and those whose flip it kept back (R290). -/
def execMemoryAccessPerform (flight : Nat) (s : State) : Result :=
  match tabGet? s.flights flight with
  | none => .next s
  | some f =>
    match s.group f.group with
    | none => .next s
    | some g => .next <|
      if f.performed || mustFollow s f.group flight f.kinds [(f.addr, f.size)] then s
      else if flightFailed s g f then
        let off := match f.win with | some x => x.2 | none => 0
        settleWaits { s with flights := tabSet s.flights flight { f with performed := true, failed := some ⟨3, off⟩ } }
      else if flightPresent s g f then settleWaits (performFlight s flight g f)
      else s

/-! ### Data arriving (R37, R157, R159) -/

/-- A lane's data for a name, when its cell still awaits this instruction; the cell is full when `last`. -/
def Slice.arrive (sl : Slice) (instr l : Nat) (last : Bool) (failed : Option Failure) (x : Nat × Word32) : Slice :=
  match sl.cell x.1 with
  | none => sl
  | some c =>
    if c.producer != instr || c.full then sl
    else
      let failed := match c.failed with | some f => some f | none => failed
      let c := { c with data := c.data.set l x.2, failed := failed, full := last && failed.isNone }
      { sl with names := tabSet sl.names x.1 c }

/-- The names and data an access delivers to its lane. -/
def Flight.results (f : Flight) : List (Nat × Word32) :=
  let word (name v : Nat) : Nat × Word32 := (name, BitVec.ofNat 32 v)
  match f.op with
  | .load dst n t =>
    (List.range n).flatMap fun e =>
      let v := f.data / 2 ^ (8 * t.bytes * e) % 2 ^ (8 * t.bytes)
      if t.wide then [word (dst + 2 * e) v, word (dst + 2 * e + 1) (v / 2 ^ 32)]
      else if t = .s8 ∨ t = .s16 then [word (dst + e) (wrapInt 32 (readInt true (8 * t.bytes) v))]
      else [word (dst + e) v]
  | .atom _ t _ _ dst _ => if t.wide then [word dst f.data, word (dst + 1) (f.data / 2 ^ 32)] else [word dst f.data]
  | _ => []

/-- A loaded uniform value, extended (R159). -/
def uniformValue (f : Flight) (sx : Bool) : Word64 :=
  if sx then BitVec.ofNat 64 (wrapInt 64 (readInt true (8 * f.size) f.data)) else BitVec.ofNat 64 f.data

/-- A uniform load's value or failure in its register (R159, R165). -/
def Group.landG (g : Group) (d : Nat) (x : Word64) (failed : Option Failure) : Group :=
  let g := { g with gpend := g.gpend.erase d }
  match failed with
  | some e => { g with gfail := tabSet g.gfail d e }
  | none => g.setG (BitVec.ofNat 6 d) x

/-- The same for a register of `g60` to `g63` that a trap has laid aside: it lands where `rte` takes it from (R231, R243). -/
def Group.landAside (g : Group) (d : Nat) (x : Word64) (failed : Option Failure) : Group :=
  let c := g.ctx
  let dev := { c.dev with gpend := c.dev.gpend.erase d }
  { g with ctx := match failed with
      | some e => { c with dev := { dev with gfail := tabSet dev.gfail d e } }
      | none => { c with g60 := c.g60.set (d - 60) x, dev := { dev with gfail := tabErase dev.gfail d } } }

/-- A uniform load that arrives after its group has taken a trap, for a register that the trap has laid aside. -/
def Flight.aside (f : Flight) (g : Group) (d : Nat) : Bool := decide (60 ≤ d) && g.priv && !f.priv

/-- LOAD_DATA_ARRIVAL (R37, R157, R159): an access's data reach its lane or its uniform register. -/
def execLoadDataArrival (flight : Nat) (s : State) : Result :=
  match tabGet? s.flights flight with
  | none => .next s
  | some f =>
    match s.group f.group with
    | none => .next s
    | some g => .next <|
      if !f.performed then s
      else
        let s := ({ s with flights := tabErase s.flights flight } : State).sampleFlight f
        let s := match f.op with
          | .gload d sx =>
            if f.aside g d then
              let g' := g.landAside d (uniformValue f sx) f.failed
              (s.modGroup f.group fun _ => g').setMem (g'.ctx.store g.area s.mem)
            else s.modGroup f.group fun g => g.landG d (uniformValue f sx) f.failed
          | _ =>
            let last := !(s.flights.any fun e => e.2.group == f.group && e.2.slice == f.slice && e.2.instr == f.instr)
            s.modGroup f.group fun g => g.modSlice f.slice fun sl =>
              f.results.foldl (fun sl x => sl.arrive f.instr f.lane last f.failed x) sl
        settleWaits (wakeCore s g.core 2)

end Sys2Proof.Machine
end

