-- ==== Sys2Proof/Machine/Sync.lean ====
section
/-! DEFINITION. Barrier objects: `bobj`, `arrive`, `wait`, `extwait`, `yieldon` (R184 to R188). -/

namespace Sys2Proof.Machine

/-- The words the participating lanes name, as places in memory: address, place, lanes. -/
def namedWords (s : State) (c : Issue) (p : Pred) (m : Mem) (add : Nat → Nat) : List (Nat × Nat × Word32) :=
  (namedAddrs c p m add).map fun x => (x.1, (placeOf s c.g m.space x.1).getD 0, x.2)

/-- The lowest lane of a set, as slice and lane. -/
def lowestOf (w : Word32) : Nat × Nat :=
  let n := ((List.range 32).find? fun l => w.getLsbD l).getD 0
  (n / 4, n % 4)

/-- The frame of an instruction that writes words in its own step: bounds and alignment (R185), the order of R193, the reads, then the
new memory and the waits it releases; its lanes' accesses are sampled as `access` (R371). -/
def wordStep (s : State) (p : Pred) (m : Mem) (extra : List NameRead) (kind : AccessKind) (access : Nat) (add : Nat → Nat)
    (act : Issue → List (Nat × Nat × Word32) → Memory → Memory) : Host.Outcome State Fault Refusal :=
  match issueOf s with
  | none => .next s
  | some c => .next <|
    let rs := memReads p m ++ extra
    laneStep s c rs [] (wordTrap s c p m add 8 true) (fun _ =>
      let ws := namedWords s c p m add
      if c.mustFollow s kind (ws.map fun w => (w.2.1, 8)) then .ok (c.hold s [])
      else (c.commit s rs [] fun _ => 0).map fun s =>
        settleWaits (c.sampleLanes (c.advance (s.setMem (act c ws s.mem)) 12 priceLane) p m access add)) [m.base]

/-- The object word `bobj` writes (R185). -/
def objWord (ext : Bool) (count : Nat) : Nat := (if ext then 2 ^ 59 else 0) + count % 2 ^ 48

/-- `bobj` (R185). -/
def execBobj (p : Pred) (m : Mem) (b : Src) (wide ext : Bool) (s : State) : Result :=
  wordStep s p m (readsOf p wide b) .store 1 (fun _ => 0) fun c ws mem =>
    ws.foldl (fun mem w =>
      let (i, l) := lowestOf w.2.2
      memWriteN mem w.2.1 8 (objWord ext ((c.g.slices.get i).value wide l b.name))) mem

/-- `arrive` (R186). -/
def execArrive (p : Pred) (m : Mem) (one : Bool) (n : BitVec 4) (s : State) : Result :=
  wordStep s p m [] .rel 2 (fun _ => 0) fun _ ws mem =>
    ws.foldl (fun mem w =>
      let k := (n.toNat + 1) * (if one then 1 else countOnes 32 w.2.2.toNat)
      memWriteN mem w.2.1 8 (objDown (memReadN mem w.2.1 8) k)) mem

/-- A gang waits on the words its lanes name, from an instruction at `pc` (for `yieldon` its continuation) on to `next`. -/
def Issue.awaitWords (c : Issue) (s : State) (kind : WaitKind) (pc next : Word32) : State :=
  let w : GangWait := { slices := sliceBits c.sls, pc := pc, next := next, kind := kind, priv := c.g.priv }
  c.account (s.modGroup c.gid fun g =>
    { g.modSlices c.sls fun _ sl => { sl with pc := pc } with waits := g.waits ++ [w] }) priceLane

/-- The frame of a wait on words (R187, R188, R271). -/
def waitStep (s : State) (p : Pred) (m : Mem) (d : Option Dst) (add : Nat → Nat) (join ext : Bool)
    (place : Issue → Option Trap × Word32 × Word32) (after : State → Nat → State) : Host.Outcome State Fault Refusal :=
  match issueOf s with
  | none => .next s
  | some c => .next <|
    let rs := memReads p m
    let (entry, pc, next) := place c
    let ds := match d with | some d => [(p, d.name.toNat)] | none => []
    laneStep s c rs ds entry (fun _ =>
      let items := (namedAddrs c p m add).map fun x => ({ space := m.space, addr := x.1, lanes := x.2 } : WaitItem)
      if !items.isEmpty && c.mustFollow s .acq [] then .ok (c.hold s [])
      else (c.commit s rs [] fun _ => 0).map fun s =>
        after (settleWaits (c.awaitWords s (.objects items d join ext) pc next)) c.gid) [m.base]

/-- `wait` (R187). -/
def execWait (p : Pred) (m : Mem) (d : Option Dst) (s : State) : Result :=
  waitStep s p m d (fun _ => 0) false false (fun c => (wordTrap s c p m (fun _ => 0) 8 false, c.pc, c.pc + 12)) fun s _ => s

/-- `extwait` (R187): external for the watchdog. -/
def execExtwait (p : Pred) (m : Mem) (d : Option Dst) (s : State) : Result :=
  waitStep s p m d (fun _ => 0) false true (fun c => (wordTrap s c p m (fun _ => 0) 8 false, c.pc, c.pc + 12)) fun s _ => s

/-- `yieldon` (R188): the slices stand at the continuation while they wait. -/
def execYieldon (p : Pred) (m : Mem) (cont : BitVec 20) (s : State) : Result :=
  waitStep s p m none (fun _ => 0) false false
    (fun c =>
      let goal := joinAddr c.pc cont
      (firstTrap [wordTrap s c p m (fun _ => 0) 8 false, trapIf (!targetOk (s.codeOf c.g).2 goal) 1], goal, goal)) fun s _ => s

end Sys2Proof.Machine
end

