-- ==== Sys2Proof/Machine/Translate.lean ====
section
/-! DEFINITION. Global memory as a die sees it (R319), translation (R320 to R323) and the sending of cross-die writes and reads (R328
to R330). -/

namespace Sys2Proof.Machine

/-- The home die of a physical address (R319). -/
def homeDie (phys : Nat) : Nat := phys / 2 ^ 37

/-- A physical range that lies, every byte of it, in a partition's memory: the stacks of its dies (R319). -/
def inPartition (cfg : PartitionCfg) (phys n : Nat) : Bool :=
  cfg.dies.contains (homeDie phys) && decide (phys + n ≤ 12 * 2 ^ 37) &&
    (List.range 12).all fun d => cfg.dies.contains d || decide (phys + n ≤ d * 2 ^ 37) || decide ((d + 1) * 2 ^ 37 ≤ phys)

/-- Where a virtual address leads. -/
inductive Xlate where
  | phys (a : Nat)
  | peer (peer remote : Nat)
  | miss
deriving DecidableEq, Repr

/-- The aperture that holds a virtual address (R358). -/
def apertureAt (cfg : PartitionCfg) (v : Nat) : Option Aperture :=
  cfg.apertures.find? fun a => decide (a.base ≤ v) && decide (v < a.base + a.size)

/-- A range that a partition maps at start and that never misses (R235, R272, R322); it is mapped onto itself (log 8). -/
def pinned (cfg : PartitionCfg) (v : Nat) : Bool :=
  (decide (cfg.poolBase ≤ v) && decide (v < cfg.poolBase + cfg.poolSize)) ||
    (decide (cfg.overBase ≤ v) && decide (v < cfg.overBase + cfg.overSize))

/-- A virtual address looked up in a die's translation cache (R322): an entry that forbids the access counts as a miss, so that the
walk finds the fault; so does an address with any of bits 63:48 set (R320). -/
def translate (s : State) (part die v : Nat) (writes : Bool) : Xlate :=
  match tabGet? s.parts part with
  | none => .miss
  | some p =>
    if 2 ^ 48 ≤ v then .miss
    else match apertureAt p.cfg v with
    | some a => .peer a.peer (a.remote + (v - a.base))
    | none =>
      if pinned p.cfg v then .phys v
      else
        match (s.die die).tlb.find? fun e => decide (e.page ≤ v / 4096) && decide (v / 4096 < e.page + e.span) with
        | some e => if writes && !e.writable then .miss else .phys ((e.frame + (v / 4096 - e.page)) * 4096 + v % 4096)
        | none => .miss

/-- What a walk ends in (R320 to R323). -/
inductive Walk where
  | page (e : TlbEntry)
  | fault (cause : Nat)
deriving DecidableEq, Repr

/-- A table entry's frame, as a page number. -/
def pteFrame (w : Nat) : Nat := w / 4096 % 2 ^ 29
/-- A reserved bit of a table entry is set (R321). -/
def pteReserved (w : Nat) : Bool := w / 2 ^ 41 != 0 || w / 32 % 16 != 0

/-- A leaf checked (R323) and turned into a cache entry. -/
def walkLeaf (cfg : PartitionCfg) (w page span frame : Nat) : Walk :=
  if w.testBit 3 then .fault 2
  else if !inPartition cfg (frame * 4096) (span * 4096) then .fault 5
  else .page ⟨page, span, frame, w.testBit 2⟩

/-- A number from bytes, low byte first (R52). -/
def bytesNat : List Byte → Nat
  | [] => 0
  | b :: r => b.toNat + 256 * bytesNat r

/-- The entry a page uses at a level of a table. -/
def walkIndex (vpage n : Nat) : Nat := vpage / 512 ^ n % 512

/-- Where the aligned group of 16 entries that holds it stands: what a walk reads of a table (R321). -/
def groupAddr (table vpage n : Nat) : Nat := table + 8 * (walkIndex vpage n / 16 * 16)

/-- An entry of such a group. -/
def groupEntry (bs : List Byte) (i : Nat) : Nat := bytesNat ((bs.drop (8 * i)).take 8)

/-- The entry of an L0 table that a page translates by, and the page's place behind it: its own, or with `first` the first of its group
of 16 where either of the two says size64 (R321 leaves open which when they disagree). -/
def leafEntry (bs : List Byte) (first : Bool) (idx : Nat) : Nat × Nat :=
  let w := groupEntry bs (idx % 16)
  let v := groupEntry bs 0
  if (w % 32 / 16 == 1 && w % 4 == 3 || v % 32 / 16 == 1 && v % 4 == 3) && first then (v, idx % 16) else (w, 0)

/-- What the entries of one table lead to: the end of the walk, or the next table. -/
inductive WalkNext where
  | done (w : Walk)
  | table (a : Nat)
deriving DecidableEq, Repr

/-- One level of a walk of a virtual page (R320, R321, R323), given the group of entries that holds its own. -/
def walkEntry (cfg : PartitionCfg) (first : Bool) (vpage n : Nat) (bs : List Byte) : WalkNext :=
  let idx := walkIndex vpage n
  let (w, off) := if n = 0 then leafEntry bs first idx else (groupEntry bs (idx % 16), 0)
  if !w.testBit 0 then .done (.fault 1)
  else if pteReserved w then .done (.fault 4)
  else if n = 0 then .done (if !w.testBit 1 then .fault 4 else walkLeaf cfg w vpage 1 (pteFrame w + off))
  else if w.testBit 1 then
    .done (if n = 1 && pteFrame w % 512 == 0 then walkLeaf cfg w (vpage / 512 * 512) 512 (pteFrame w) else .fault 4)
  else if !inPartition cfg (pteFrame w * 4096) 4096 then .done (.fault 5)
  else .table (pteFrame w * 4096)

/-- The walk of a virtual page from a table at level `n` (3 to 0), as memory stands. -/
def walkFrom (m : Memory) (cfg : PartitionCfg) (first : Bool) (vpage : Nat) : Nat → Nat → Walk
  | n, table =>
    match walkEntry cfg first vpage n (memBytes m (groupAddr table vpage n) 128) with
    | .done w => w
    | .table a => match n with
      | 0 => .fault 4
      | n + 1 => walkFrom m cfg first vpage n a

/-- The first choice of a walk that a group of inconsistent entries leaves open (R321). -/
def State.walkFirst (s : State) : Bool := (Config.freeValue s.freeCount).getLsbD 0

/-- A walk that needs no table: an address beyond the tables, or a root outside the partition's memory (R320, R323). -/
def walkStart (p : Partition) (page : Nat) : Option Walk :=
  if 2 ^ 36 ≤ page then some (.fault 4) else if !inPartition p.cfg p.cfg.root 4096 then some (.fault 5) else none

/-- The walk of a page of a partition, as memory stands. -/
def walkPage (s : State) (part page : Nat) : Walk :=
  match tabGet? s.parts part with
  | none => .fault 1
  | some p => (walkStart p page).getD (walkFrom s.mem p.cfg s.walkFirst page 3 p.cfg.root)

/-- A cache entry added; the oldest gives way when the cache is full. -/
def addTlb (t : List TlbEntry) (e : TlbEntry) : List TlbEntry :=
  let t := t.filter fun x => x.page != e.page || x.span != e.span
  (if Config.tlbEntries ≤ t.length then t.drop 1 else t) ++ [e]

/-- Cache entries that cover a page range removed (R322). -/
def dropTlb (t : List TlbEntry) (page n : Nat) : List TlbEntry :=
  t.filter fun e => !(decide (e.page < page + n) && decide (page < e.page + e.span))

/-- The cause of a fault of a page that still waits for the host, as far as it keeps an access back: cause 3 keeps back writes and
updates only (R323, R326). -/
def pendingCause (s : State) (die page access : Nat) : Option Nat :=
  ((s.die die).faults.find? fun f => f.page == page && (f.cause != 3 || access != 0)).map fun f => f.cause

/-- The partition of a die. -/
def partOfDie (s : State) (die : Nat) : Option Partition := (s.parts.find? fun p => p.2.cfg.dies.contains die).map fun p => p.2

/-- A walk of a page begins at the root, unless one is under way (R322). -/
def beginWalk (s : State) (die page : Nat) : State :=
  let d := s.die die
  if d.walks.any fun w => w.page == page then s
  else s.setDie die { d with walks := d.walks ++ [{ page := page, table := ((partOfDie s die).map fun p => p.cfg.root).getD 0 }] }

/-- A walk of a page asked for: misses on one page share one (R322), and a page that faults waits for its answer (R326). -/
def askWalk (s : State) (die page access : Nat) : State :=
  if (pendingCause s die page access).isSome then s else beginWalk s die page

/-- Vector clocks compared on every die but one. -/
def clockCovers (a b : List Nat) (but : Nat) : Bool :=
  (List.range 12).all fun k => k == but || decide (b.getD k 0 ≤ a.getD k 0)

/-- Bytes of memory written, absent ones kept. -/
def writeSome (m : Memory) (a : Nat) (bs : List (Option Byte)) : Memory :=
  bs.zipIdx.foldl (fun m x => match x.1 with | some b => memWrite m (a + x.2) b | none => m) m

/-- A cross-die write sent (R329): data to the home, the stamp to every other die of the partition. It counts on its arrival at the
home's inbound queue, which links that keep their order make the moment of its sending. -/
def sendWrite (s : State) (part d home addr page : Nat) (bytes : List (Option Byte)) (atom : Option AtomReq) : State :=
  let clock := (s.die d).clock.modify d (· + 1)
  let s := s.modDie d fun x => { x with clock := clock }
  let dies := match tabGet? s.parts part with | some p => p.cfg.dies | none => []
  (dies.filter fun k => k != d).foldl (fun s k =>
    s.modDie k fun x => { x with inbox := x.inbox ++ [
      if k = home then { origin := d, home := home, stamp := clock, addr := addr, page := page, bytes := bytes, atom := atom }
      else { origin := d, home := home, stamp := clock }] }) s

/-- A cross-die read sent (R330). -/
def sendRead (s : State) (d home addr page len : Nat) (owner : ReadFor) : State :=
  let clock := (s.die d).clock
  s.modDie home fun x => { x with requests := x.requests ++ [
    { reader := d, home := home, clock := clock, addr := addr, page := page, len := len, owner := owner }] }

/-- Traffic sent to a peer (R358). -/
def sendPeer (s : State) (part peer remote : Nat) (acc : PeerAccess) (owner : ReadFor) : State :=
  { s with peerTraffic := s.peerTraffic ++
      [{ part := part, peer := peer, remote := remote, acc := acc, owner := owner, since := s.gtime.toNat }] }

end Sys2Proof.Machine
end

