-- ==== Sys2Proof/Machine/Engine.lean ====
section
/-! DEFINITION. The copy engine's operations (R166 to R177, R180, R324 to R327): issue, start, the movement of their parts, skipping and
replay, completion. -/

namespace Sys2Proof.Machine

/-! ### Object references and slots (R167, R168) -/

/-- The space a two-bit code names. -/
def scratchSpace (n : Nat) : Space :=
  match n with
  | 0 => .core
  | 1 => .clu
  | _ => .die

/-- Whether an object reference passes R168. -/
def objRefOk (s : State) (g : Group) (w : Nat) : Bool :=
  decide (w / 2 ^ 62 ≤ 2) && w / 2 ^ 32 % 2 ^ 30 == 0 && w % 8 == 0 &&
    (match reach s g (scratchSpace (w / 2 ^ 62)) (w % 2 ^ 32) 8 true with | .at _ => true | _ => false)

/-- The free slots of a queue, lowest first. -/
def freeSlots (k : Core) : List Nat := (List.range Config.engineSlots).filter fun i => (tabGet? k.engine i).isNone

/-- An operation changed. -/
def State.modOp (s : State) (core slot : Nat) (f : EngineOp → EngineOp) : State :=
  match tabGet? (s.core core).engine slot with
  | none => s
  | some op => s.modCore core fun k => { k with engine := tabSet k.engine slot (f op) }

/-- An object counted down by a unit of an operation (R171). -/
def countDown (s : State) (g : Group) (space : Space) (addr n : Nat) : State :=
  if n = 0 then s
  else match placeOf s g space addr with
    | some a => s.setMem (memWriteN s.mem a 8 (objDown (memReadN s.mem a 8) n))
    | none => s

/-- An error code recorded in an object (R176). -/
def recordError (s : State) (g : Group) (space : Space) (addr code : Nat) : State :=
  if code = 0 then s
  else match placeOf s g space addr with
    | some a => s.setMem (memWriteN s.mem a 8 (objFail (memReadN s.mem a 8) code))
    | none => s

/-! ### Issue (R166, R167) -/

/-- The eight words of an engine descriptor. -/
def descWords (m : Memory) (a : Nat) : List Nat := (List.range 8).map fun i => memReadN m (a + 8 * i) 8

/-- The checks of a descriptor address and of the object it names, lane by lane (R167, R168). -/
def descTrap (s : State) (c : Issue) (p : Pred) (m : Mem) (bytes : Nat) : Option Trap :=
  (c.lanes p).findSome? fun x =>
    let a := laneAddr c.g m x.1 x.2
    let check : Option Trap := match reach s c.g m.space a bytes false with
      | .at y => if objRefOk s c.g (memReadN s.mem y 8) then none else some { cause := 7, arg := BitVec.ofNat 64 a }
      | r => r.outside a
    firstTrap [(reach s c.g m.space a bytes false).outside a, alignTrap a bytes, check]

/-- The operations of an engine instruction, one per distinct descriptor. R175 raises a `gatom`'s flags in the slice of the lowest
participating lane under that slice's `%fmt`; where one instruction starts several operations, each takes the lowest of the lanes that name
its descriptor: the spec does not say whose (log 95). -/
def newOps (s : State) (c : Issue) (kind : EngineKind) (dst : Option (Dst × Bool)) (ws : List (Nat × Nat × Word32)) :
    List EngineOp :=
  ws.map fun w =>
    let d := descWords s.mem w.2.1
    let obj := d.getD 0 0
    { kind := kind, group := c.gid, team := c.g.team, slice := (lowestOf w.2.2).1, pc := c.pc, mark := s.nextFlight, desc := d,
      fmt := (c.g.slices.get (lowestOf w.2.2).1).fmt, objSpace := scratchSpace (obj / 2 ^ 62), objAddr := obj % 2 ^ 32,
      dst := dst, lanes := w.2.2, instr := s.nextFlight, since := s.gtime.toNat }

/-- Operations put into free slots. -/
def enqueueOps (s : State) (core : Nat) (ops : List EngineOp) : State :=
  s.modCore core fun k => { k with engine := k.engine ++ (freeSlots k).zip ops }

/-- `tmove`, `tgath`, `tscat`, `gatom` (R166, R167): one operation per distinct descriptor; they wait unissued for slots. -/
def engineStep (s : State) (p : Pred) (m : Mem) (kind : EngineKind) (dst : Option (Dst × Bool)) :
    Host.Outcome State Fault Refusal :=
  match issueOf s with
  | none => .next s
  | some c => .next <|
    let rs := memReads p m
    let names := match dst with | some (d, wide) => destNames wide d | none => []
    let ws := namedWords s c p m fun _ => 0
    -- the words of a descriptor count once the group's earlier stores to it are performed (R193)
    let held := c.mustFollow s .load (ws.map fun w => (w.2.1, 64))
    laneStep s c rs (names.map fun n => (p, n)) (if held then none else descTrap s c p m 64) (fun _ =>
      if held || decide ((freeSlots (s.core c.g.core)).length < ws.length) then
        .ok (c.hold s [])
      else
        (c.commit s rs (emptyWrites c p names (match dst with | some (d, _) => d.uses | none => 0)) fun _ => 0).map fun t =>
          let t := t.modGroup c.gid fun g =>
            g.modSlices c.sls fun i sl => sl.await names ((c.g.slices.get i).active p) s.nextFlight
          let t := enqueueOps t c.g.core (newOps s c kind dst ws)
          c.advance { t with nextFlight := t.nextFlight + 1 } 12 priceEngine) [m.base]

/-- `tmove` (R172, R173). -/
def execTmove (p : Pred) (m : Mem) (s : State) : Result := engineStep s p m .move none
/-- `tgath` (R174). -/
def execTgath (p : Pred) (m : Mem) (s : State) : Result := engineStep s p m .gath none
/-- `tscat` (R174). -/
def execTscat (p : Pred) (m : Mem) (s : State) : Result := engineStep s p m .scat none
/-- `gatom` (R175). -/
def execGatom (p : Pred) (m : Mem) (res : Option (Dst × Bool)) (s : State) : Result := engineStep s p m .gatom res

/-! ### The descriptor (R169, R170) -/

/-- A word of the descriptor. -/
def EngineOp.word (o : EngineOp) (i : Nat) : Nat := o.desc.getD i 0
/-- A field of the CTL word. -/
def EngineOp.ctl (o : EngineOp) (lo w : Nat) : Nat := o.word 3 / 2 ^ lo % 2 ^ w
/-- The space codes of GA, LA, IDX, OPD. -/
def EngineOp.gaSpace (o : EngineOp) : Nat := o.ctl 61 3
def EngineOp.laSpace (o : EngineOp) : Nat := o.ctl 58 3
def EngineOp.idxSpace (o : EngineOp) : Nat := o.ctl 55 3
def EngineOp.opdSpace (o : EngineOp) : Nat := o.ctl 52 3
def EngineOp.expand (o : EngineOp) : Nat := o.ctl 50 2
/-- Rows, or count. -/
def EngineOp.rows (o : EngineOp) : Nat := o.word 4 % 2 ^ 32
/-- Row bytes. -/
def EngineOp.rowBytes (o : EngineOp) : Nat := o.word 4 / 2 ^ 32
/-- The stride of the global side, or of a `tmove` source. -/
def EngineOp.stride (o : EngineOp) : Nat := o.word 5 / 2 ^ 32
/-- The stride of a `tmove` destination. -/
def EngineOp.dstStride (o : EngineOp) : Nat := o.word 5 % 2 ^ 32

/-- The operation of a `gatom` (R170). -/
def gatomOp (n : Nat) : Option AtomOp := [AtomOp.add, .min, .max, .and, .or, .xor, .xchg, .cas, .binc, .bdec][n]?

/-- The type of a `gatom`, when it is one of its operation's. -/
def EngineOp.gatomTy (o : EngineOp) : Option (AtomOp × Ty) :=
  match gatomOp (o.ctl 44 4), Ty.ofCode (BitVec.ofNat 4 (o.ctl 40 4)) 0 with
  | some op, some t => if op.allows t then some (op, t) else none
  | _, _ => none

/-- The CNT word in range (R169). -/
def EngineOp.countOk (o : EngineOp) : Bool :=
  let rows := decide (1 ≤ o.rows) && decide (o.rows ≤ 65536)
  match o.kind with
  | .move => rows && decide (1 ≤ o.rowBytes) && decide (o.rowBytes ≤ 2 ^ 24)
  | .gath | .scat => rows && decide (4 ≤ o.rowBytes) && decide (o.rowBytes ≤ 65536) && o.rowBytes % 4 == 0
  | .gatom => rows && o.rowBytes == 0
  | .wflush | .wclose => true

/-- The counted total (R171): 0 when CNT itself is invalid. -/
def EngineOp.total (o : EngineOp) : Nat :=
  match o.kind with
  | .move | .gath | .scat => if o.countOk then o.rows * o.rowBytes else 0
  | .gatom => if o.countOk then o.rows else 0
  | .wflush | .wclose => 1

/-- A valid descriptor (code 1 of R176). -/
def EngineOp.valid (o : EngineOp) : Bool :=
  let scratch (n : Nat) : Bool := decide (n ≤ 2)
  let clean := o.ctl 48 2 == 0 && o.ctl 0 40 == 0
  match o.kind with
  | .move =>
    o.countOk && clean && (scratch o.gaSpace || o.gaSpace == 4) && (scratch o.laSpace || o.laSpace == 4) && o.idxSpace == 0 &&
      o.opdSpace == 0 && o.expand != 3 && o.ctl 40 8 == 0 && o.word 6 == 0 && o.word 7 == 0 &&
      (o.expand == 0 || (scratch o.laSpace && o.rowBytes % 16 == 0))
  | .gath | .scat =>
    o.countOk && clean && o.gaSpace == 4 && scratch o.laSpace && scratch o.idxSpace && o.opdSpace == 0 && o.expand == 0 &&
      o.ctl 40 8 == 0 && o.dstStride == 0 && o.word 7 == 0
  | .gatom =>
    match o.gatomTy with
    | none => false
    | some (_, t) =>
      let e := t.bytes
      o.countOk && clean && o.gaSpace == 4 && (scratch o.laSpace || o.laSpace == 7) && scratch o.idxSpace && scratch o.opdSpace &&
        o.expand == 0 && o.dstStride == 0 && o.word 1 % e == 0 && o.stride % e == 0 && o.word 7 % e == 0 &&
        (o.laSpace == 7 || o.word 2 % e == 0) &&
        (match o.dst with | some (_, wide) => wide == t.wide | none => true)
  | .wflush | .wclose => true

/-- The scratchpad ranges the operation touches: space code, address, bytes, stored to (R155). -/
def EngineOp.ranges (o : EngineOp) : List (Nat × Nat × Nat × Bool) :=
  let rows (sp base step n : Nat) (store : Bool) : List (Nat × Nat × Nat × Bool) :=
    if sp ≤ 2 then (List.range o.rows).map fun r => (sp, base + r * step, n, store) else []
  let packed := if o.expand = 0 then o.rowBytes
    else o.rowBytes / 2 + (if o.expand = 1 then o.rowBytes / 8 else o.rowBytes / 4)
  match o.kind with
  | .move => rows o.gaSpace (o.word 1) o.stride packed false ++ rows o.laSpace (o.word 2) o.dstStride o.rowBytes true
  | .gath => (o.idxSpace, o.word 6, 4 * o.rows, false) :: rows o.laSpace (o.word 2) o.rowBytes o.rowBytes true
  | .scat => (o.idxSpace, o.word 6, 4 * o.rows, false) :: rows o.laSpace (o.word 2) o.rowBytes o.rowBytes false
  | .gatom =>
    let e := match o.gatomTy with | some (_, t) => t.bytes | none => 0
    let per := match o.gatomTy with | some (.cas, _) => 2 * e | _ => e
    [(o.idxSpace, o.word 6, 4 * o.rows, false), (o.opdSpace, o.word 7, per * o.rows, false)] ++
      (if o.laSpace ≤ 2 then [(o.laSpace, o.word 2, e * o.rows, true)] else [])
  | .wflush | .wclose => []

/-- Codes 2 and 3 of R176; the first failing range decides, in the order of `EngineOp.ranges` (the model's choice, log 92). -/
def rangeError (s : State) (g : Group) (o : EngineOp) : Nat :=
  (o.ranges.findSome? fun r =>
    match reach s g (scratchSpace r.1) r.2.1 r.2.2.1 r.2.2.2 with
    | .at _ => none
    | .bounds => some 2
    | .window => some 3).getD 0

/-! ### The parts of an operation (R172 to R175, R324) -/

/-- A range as a piece: scratchpad ranges by their place in memory. -/
def pieceAt (s : State) (g : Group) (sp a n : Nat) (store : Bool) : Piece :=
  if sp = 4 then { isGlobal := true, addr := a % 2 ^ 64, len := n }
  else { isGlobal := false, addr := (match reach s g (scratchSpace sp) a n store with | .at x => x | _ => 0), len := n }

/-- What is left of the page an address lies in, for a global side. -/
def pageLeft (isGlobal : Bool) (a : Nat) : Nat := if isGlobal then 4096 - a % 4096 else 2 ^ 24

/-- A row cut into units where a side reaches a page's end (R324). -/
def cutRow (row : Nat) (src dst : Piece) : Nat → Nat → List EngineUnit
  | 0, _ => []
  | fuel + 1, off =>
    if src.len ≤ off then []
    else
      let a := (src.addr + off) % 2 ^ 64
      let b := (dst.addr + off) % 2 ^ 64
      let n := min (src.len - off) (min (pageLeft src.isGlobal a) (pageLeft dst.isGlobal b))
      { row := row, src := [{ src with addr := a, len := n }], dst := { dst with addr := b, len := n }, count := n } ::
        cutRow row src dst fuel (off + n)

/-- A source row cut at page ends, for expansion. -/
def cutSource (src : Piece) : Nat → Nat → List Piece
  | 0, _ => []
  | fuel + 1, off =>
    if src.len ≤ off then []
    else
      let a := (src.addr + off) % 2 ^ 64
      let n := min (src.len - off) (pageLeft src.isGlobal a)
      { src with addr := a, len := n } :: cutSource src fuel (off + n)

/-- An index of `tgath`, `tscat`, `gatom`: the `.n32` at IDX + 4i. -/
def EngineOp.index (o : EngineOp) (s : State) (g : Group) (i : Nat) : Nat :=
  match reach s g (scratchSpace o.idxSpace) (o.word 6 + 4 * i) 4 false with
  | .at x => memReadN s.mem x 4
  | _ => 0

/-- The units of an operation at its start. -/
def EngineOp.plan (o : EngineOp) (s : State) (g : Group) : List EngineUnit :=
  let n := o.rowBytes
  let fuel := n / 2048 + 3
  (List.range o.rows).flatMap fun r =>
    match o.kind with
    | .move =>
      let dst := pieceAt s g o.laSpace (o.word 2 + r * o.dstStride) n true
      if o.expand = 0 then cutRow r (pieceAt s g o.gaSpace (o.word 1 + r * o.stride) n false) dst fuel 0
      else
        let packed := n / 2 + (if o.expand = 1 then n / 8 else n / 4)
        [{ row := r, src := cutSource (pieceAt s g o.gaSpace (o.word 1 + r * o.stride) packed false) fuel 0, dst := dst, count := n }]
    | .gath =>
      cutRow r (pieceAt s g 4 (o.word 1 + o.index s g r * o.stride) n false) (pieceAt s g o.laSpace (o.word 2 + r * n) n true) fuel 0
    | .scat =>
      cutRow r (pieceAt s g o.laSpace (o.word 2 + r * n) n false) (pieceAt s g 4 (o.word 1 + o.index s g r * o.stride) n true) fuel 0
    | .gatom =>
      let e := match o.gatomTy with | some (_, t) => t.bytes | none => 0
      [{ row := r, src := [], dst := pieceAt s g 4 (o.word 1 + o.index s g r * o.stride) e true, count := 1 }]
    | .wflush | .wclose => []

/-! ### 2:4 expansion (R54, R173) -/

/-- A byte of a packed row, when it was read. -/
abbrev RowBytes := List (Option Byte)

/-- Element `i` of a packed row's kept codes: a byte, or a nibble, low nibble first. -/
def keptCode (wide : Bool) (bs : RowBytes) (i : Nat) : Option Nat :=
  if wide then (bs.getD i none).map BitVec.toNat
  else (bs.getD (i / 2) none).map fun b => b.toNat / 16 ^ (i % 2) % 16

/-- A group of four elements: the two kept codes at the positions its index nibble names, or +0 everywhere (R54). The flag says that the
nibble is invalid; none where a byte of it was lost. -/
def expandGroup (wide : Bool) (keptBytes : Nat) (bs : RowBytes) (k : Nat) : Option (List Nat × Bool) :=
  match keptCode wide bs (2 * k), keptCode wide bs (2 * k + 1), bs.getD (keptBytes + k / 2) none with
  | some x, some y, some b =>
    let nib := b.toNat / 16 ^ (k % 2) % 16
    let i := nib % 4
    let j := nib / 4
    if i < j then some ((List.range 4).map fun e => if e = i then x else if e = j then y else 0, false)
    else some ([0, 0, 0, 0], true)
  | _, _, _ => none

/-- A dense row from its packed bytes, and whether an index nibble was invalid. -/
def expandRow (wide : Bool) (rowBytes : Nat) (bs : RowBytes) : RowBytes × Bool :=
  let groups := if wide then rowBytes / 4 else rowBytes / 2
  let xs := (List.range groups).map fun k => expandGroup wide (rowBytes / 2) bs k
  let dense (x : Option (List Nat × Bool)) : RowBytes :=
    match x, wide with
    | none, true => List.replicate 4 none
    | none, false => List.replicate 2 none
    | some (es, _), true => es.map fun e => some (BitVec.ofNat 8 e)
    | some (es, _), false => (List.range 2).map fun i => some (BitVec.ofNat 8 (es.getD (2 * i) 0 + 16 * es.getD (2 * i + 1) 0))
  (xs.flatMap dense, xs.any fun x => match x with | some (_, bad) => bad | none => false)

/-! ### Moving a part -/

/-- The bytes a unit's sources hold: none where a piece was lost. -/
def unitBytes (u : EngineUnit) : RowBytes :=
  u.src.flatMap fun x => if x.st = .done then x.got.map some else List.replicate x.len none

/-- A piece of a unit changed. -/
def setPiece (u : EngineUnit) (k : Nat) (f : Piece → Piece) : EngineUnit := { u with src := u.src.modify k f }

/-- A unit of an operation changed. -/
def State.modUnit (s : State) (core slot i : Nat) (f : EngineUnit → EngineUnit) : State :=
  s.modOp core slot fun o => { o with units := o.units.modify i f }

/-- Bytes that a higher row of the operation has already written stay (R172, R174, R325). -/
def maskHigher (o : EngineOp) (u : EngineUnit) (bs : RowBytes) : RowBytes :=
  let above := o.units.filter fun v =>
    decide (u.row < v.row) && v.dst.st == .done && v.dst.isGlobal == u.dst.isGlobal &&
      decide (v.dst.addr < u.dst.addr + u.dst.len) && decide (u.dst.addr < v.dst.addr + v.dst.len)
  if above.isEmpty then bs
  else bs.zipIdx.map fun x =>
    if above.any fun v => decide (v.dst.addr ≤ u.dst.addr + x.2) && decide (u.dst.addr + x.2 < v.dst.addr + v.dst.len) then none else x.1

/-- Whether a range of an operation's sources meets one of its destinations (R172). -/
def EngineOp.overlaps (o : EngineOp) : Bool :=
  o.units.any fun u => o.units.any fun v => u.src.any fun x =>
    x.isGlobal == v.dst.isGlobal && decide (x.addr < v.dst.addr + v.dst.len) && decide (v.dst.addr < x.addr + x.len)

/-- Every source byte of an operation has been read or lost; a unit whose destination is lost reads nothing more (R327). -/
def EngineOp.allRead (o : EngineOp) : Bool := o.units.all fun u => u.dst.st == .lost || u.src.all fun x => x.st == .done || x.st == .lost

/-- The old values of a `gatom` go to memory (R175). -/
def EngineOp.keepsOld (o : EngineOp) : Bool := decide (o.laSpace ≤ 2)

/-- A segment skipped: an entry on the fix-up list and a walk (R324); with the list full, it and its operation wait. -/
def skipSegment (s : State) (core slot i piece len access : Nat) (v : Nat) (mark : State → State) : State :=
  let k := s.core core
  let row := (((tabGet? k.engine slot).bind fun o => o.units[i]?).map fun u => u.row).getD 0
  if Config.fixupEntries ≤ k.fixups.length then s.modOp core slot fun o => { o with stalled := true }
  else
    let e : Fixup := { slot := slot, page := v / 4096, part := row, unit := i, piece := piece, off := v % 4096, len := len, access := access,
                         reason := (pendingCause s (dieOfCore core) (v / 4096) access).getD 0 }
    askWalk (mark (s.setCore core { k with fixups := k.fixups ++ [e] })) (dieOfCore core) (v / 4096) access

/-- A value delivered to the lanes of an operation's destination names, full at the last delivery of its instruction (R175). -/
def deliverNames (s : State) (core slot : Nat) (v : Nat) : State :=
  match tabGet? (s.core core).engine slot with
  | none => s
  | some o =>
    match o.dst with
    | none => s
    | some (d, wide) =>
      let s := s.modOp core slot fun o => { o with lanes := 0 }
      let words := if wide then [(d.name.toNat, BitVec.ofNat 32 v), (d.name.toNat + 1, BitVec.ofNat 32 (v / 2 ^ 32))]
        else [(d.name.toNat, BitVec.ofNat 32 v)]
      let others := (s.core core).engine.filter fun e => e.2.group == o.group && e.2.instr == o.instr
      wakeCore (s.modGroup o.group fun g => g.modSlices (List.range 8) fun i sl =>
        let m : BitVec 4 := o.lanes.extractLsb' (4 * i) 4
        let last := others.all fun e => (e.2.lanes.extractLsb' (4 * i) 4 : BitVec 4) == 0
        let lanes := (List.range 4).filter fun l => m.getLsbD l
        lanes.foldl (fun sl l => words.foldl (fun sl x =>
          sl.arrive o.instr l (last && l == lanes.getLastD 0) none x) sl) sl) core 2

/-- A `gatom` whose CTL type is of the other width than its destination (R175). -/
def EngineOp.mismatch (o : EngineOp) : Bool :=
  match o.dst, Ty.ofCode (BitVec.ofNat 4 (o.ctl 40 4)) 0 with
  | some (_, wide), some t => wide != t.wide
  | _, _ => false

/-- The end of an operation (R171, R176): lanes still without a value receive 0 where R175 says so and otherwise a free value (log 31);
its error recorded, the rest of its total subtracted, its slot given up. -/
def finishOp (s : State) (core slot : Nat) : State :=
  match tabGet? (s.core core).engine slot with
  | none => s
  | some o =>
    match s.group o.group with
    | none => s
    | some g =>
      let s := if o.lanes != 0 && o.dst.isSome then
          (if o.mismatch then deliverNames s core slot 0
           else let (v, s) := s.free; deliverNames s core slot v.toNat)
        else s
      let s := countDown (recordError s g o.objSpace o.objAddr o.error) g o.objSpace o.objAddr o.left
      settleWaits (wakeCore (s.modCore core fun k => { k with engine := tabErase k.engine slot }) core 2)

/-- An operation ends once each of its units is written or lost. -/
def endOp (s : State) (core slot : Nat) : State :=
  match tabGet? (s.core core).engine slot with
  | none => s
  | some o =>
    if o.started && o.kind != .wflush && o.kind != .wclose && o.units.all fun u => u.dst.st == .done || u.dst.st == .lost then
      finishOp s core slot
    else s

/-- An error code of an operation: the first stays. -/
def EngineOp.fail (o : EngineOp) (code : Nat) : EngineOp := if o.error = 0 then { o with error := code } else o

/-- A segment of an operation sampled when it completes (R371): the destination of a unit, if it is global. -/
def sampleDst (s : State) (o : EngineOp) (u : EngineUnit) (far : Bool) : State :=
  if u.dst.isGlobal then s.sample o.group o.slice o.pc o.since 4 4 u.dst.addr far else s

/-- The same of a source piece. -/
def sampleSrc (s : State) (o : EngineOp) (x : Piece) (far : Bool) : State :=
  if x.isGlobal then s.sample o.group o.slice o.pc o.since 3 4 x.addr far else s

/-- The destination of a unit lost, with an error code. -/
def loseDst (s : State) (core slot i code : Nat) : State :=
  match (tabGet? (s.core core).engine slot).bind fun o => (o.units[i]?).map fun u => (o, u) with
  | none => s
  | some (o, u) =>
    sampleDst ((s.modUnit core slot i fun u => { u with dst := { u.dst with st := .lost } }).modOp core slot fun o => o.fail code) o u false

/-- A source piece of a unit lost, with an error code. -/
def loseSrc (s : State) (core slot i k code : Nat) : State :=
  match (tabGet? (s.core core).engine slot).bind fun o => (o.units[i]?.bind fun u => u.src[k]?).map fun x => (o, x) with
  | none => s
  | some (o, x) =>
    sampleSrc ((s.modUnit core slot i fun u => setPiece u k fun x => { x with st := .lost }).modOp core slot fun o => o.fail code) o x false

/-- A unit written: counted on the object when none of it was lost; `far`: on another die or at a peer. -/
def unitWritten (s : State) (core slot i : Nat) (counted far : Bool) : State :=
  match tabGet? (s.core core).engine slot with
  | none => s
  | some o =>
    match o.units[i]?, s.group o.group with
    | some u, some g =>
      let n := if counted then u.count else 0
      let s := s.modOp core slot fun o =>
        { o with left := o.left - n, units := o.units.modify i fun u => { u with dst := { u.dst with st := .done } } }
      settleWaits (countDown (sampleDst s o u far) g o.objSpace o.objAddr n)
    | _, _ => s

/-- The bytes of a source piece have been read. -/
def pieceRead (s : State) (core slot i k : Nat) (bs : List Byte) (far : Bool) : State :=
  match tabGet? (s.core core).engine slot with
  | none => s
  | some o =>
    let s := s.modUnit core slot i fun u => setPiece u k fun x => { x with st := .done, got := bs }
    match o.units[i]?.bind fun u => u.src[k]? with
    | some x => sampleSrc s o x far
    | none => s

/-- The old value of an element written to LA and delivered to the names that receive element 0's (R175). -/
def deliverOld (s : State) (core slot i old : Nat) : State :=
  match tabGet? (s.core core).engine slot with
  | none => s
  | some o =>
    match s.group o.group with
    | none => s
    | some g =>
      let e := match o.gatomTy with | some (_, t) => t.bytes | none => 0
      let s := if o.keepsOld then
          match reach s.unwindowed g (scratchSpace o.laSpace) (o.word 2 + i * e) e true with
          | .at x => s.setMem (memWriteN s.mem x e old)
          | _ => s
        else s
      let s := if i = 0 then deliverNames s core slot old else s
      settleWaits s

/-- The operands of element `i` (R175). -/
def gatomOperands (s : State) (g : Group) (o : EngineOp) (op : AtomOp) (t : Ty) (i : Nat) : Nat × Nat :=
  let e := t.bytes
  let read (a : Nat) : Nat := match reach s.unwindowed g (scratchSpace o.opdSpace) a e false with
    | .at x => memReadN s.mem x e
    | _ => 0
  if op = .cas then (read (o.word 7 + 2 * i * e), read (o.word 7 + (2 * i + 1) * e)) else (read (o.word 7 + i * e), 0)

/-- The flags of a long-latency producer raised in the slice they belong to (R65, R175, R216). -/
def raiseIn (s : State) (gid slice : Nat) (f : FlagSet) : State := s.modGroup gid fun g => g.raiseLate slice f

/-- A destination skipped, with nothing kept of its sources (R324); those of an operation whose source and destination overlap stay, for it
ends as it would have without a fault (R325). -/
def skipDest (s : State) (core slot i : Nat) (o : EngineOp) (u : EngineUnit) : State :=
  skipSegment s core slot i 0 u.dst.len 1 u.dst.addr fun s => s.modUnit core slot i fun u =>
    { u with dst := { u.dst with st := .skipped }
             src := if o.overlaps then u.src else u.src.map fun x => if x.st = .done then { x with st := .todo, got := [] } else x }

/-- The destination of a unit written, sent or skipped. -/
def storeUnit (s : State) (core slot i : Nat) (o : EngineOp) (u : EngineUnit) (g : Group) (bad : Bool) : State :=
  let die := dieOfCore core
  let lostAny := u.src.any fun x => x.st == .lost
  if u.src.length = 1 && lostAny then
    endOp (s.modUnit core slot i fun u => { u with dst := { u.dst with st := .lost } }) core slot
  else
    let raw := unitBytes u
    let (bs, badNibble) := if o.expand = 0 || o.kind != .move then (raw, false) else expandRow (o.expand == 1) o.rowBytes raw
    let s := if badNibble then s.modOp core slot fun o => o.fail 4 else s
    let bs := maskHigher o u bs
    if !u.dst.isGlobal then endOp (unitWritten (s.setMem (writeSome s.mem u.dst.addr bs)) core slot i (!lostAny) false) core slot
    else match translate s g.part die u.dst.addr true with
      | .miss => skipDest s core slot i o u
      | .peer peer remote =>
        if o.units.any fun v => decide (v.row < u.row) && v.dst.st == .todo && decide (v.dst.addr < u.dst.addr + u.dst.len) &&
            decide (u.dst.addr < v.dst.addr + v.dst.len) then s
        else
          sendPeer (s.modUnit core slot i fun u => { u with dst := { u.dst with st := .away } }) g.part peer remote
            (.write (bs.map fun b => b.getD 0)) (.wrote core slot i)
      | .phys a =>
        if bad then endOp (loseDst s core slot i 5) core slot
        else if homeDie a = die then endOp (unitWritten (s.setMem (writeSome s.mem a bs)) core slot i (!lostAny) false) core slot
        else endOp (unitWritten (sendWrite s g.part die (homeDie a) a (u.dst.addr / 4096) bs none) core slot i (!lostAny) true) core slot

/-- An element of a `gatom` updated, sent or skipped (R175, R325). -/
def updateUnit (s : State) (core slot i : Nat) (o : EngineOp) (u : EngineUnit) (g : Group) (bad : Bool) : State :=
  let die := dieOfCore core
  let skip (s : State) : State := skipSegment s core slot i 0 u.dst.len 2 u.dst.addr fun s =>
    s.modUnit core slot i fun u => { u with dst := { u.dst with st := .skipped } }
  match o.gatomTy with
  | none => s
  | some (op, t) =>
    -- earlier elements of the same page come first
    let before := (o.units.take i).filter fun v => v.dst.addr / 4096 == u.dst.addr / 4096
    if before.any fun v => v.dst.st == .todo then s
    else if before.any fun v => v.dst.st == .skipped then skip s
    else
      let (b, c) := gatomOperands s g o op t i
      match translate s g.part die u.dst.addr true with
      | .miss => skip s
      | .peer peer remote =>
        sendPeer (s.modUnit core slot i fun u => { u with dst := { u.dst with st := .away } }) g.part peer remote
          (.update op t (BitVec.ofNat 64 b) (BitVec.ofNat 64 c)) (.old core slot i)
      | .phys a =>
        if bad then endOp (loseDst s core slot i 5) core slot
        else if homeDie a = die then
          let old := memReadN s.mem a t.bytes
          let (new, fl) := atomNew (Arith.of o.fmt) op t old b c
          let s := raiseIn (s.setMem (memWriteN s.mem a t.bytes new)) o.group o.slice fl
          endOp (unitWritten (deliverOld s core slot i old) core slot i true false) core slot
        else
          -- it counts at the home's queue; once performed, where it may raise flags (R65); with its old value, where that is kept (R195)
          let late := !o.keepsOld && t == .f32 && (op == .add || op == .min || op == .max)
          let s := sendWrite s g.part die (homeDie a) a (u.dst.addr / 4096) []
            (some { op := op, t := t, b := b, c := c, fmt := o.fmt, core := core, slot := slot, part := i, late := late })
          (if late || o.keepsOld then s else unitWritten s core slot i true true).modUnit core slot i fun u =>
            { u with dst := { u.dst with st := .away } }

/-- A source piece read, sent for or skipped. -/
def readPiece (s : State) (core slot i k : Nat) (x : Piece) (g : Group) (bad : Bool) : State :=
  let die := dieOfCore core
  let set (s : State) (f : Piece → Piece) : State := s.modUnit core slot i fun u => setPiece u k f
  let took (s : State) (bs : List Byte) : State := pieceRead s core slot i k bs false
  if bad then loseSrc s core slot i k 5
  else if !x.isGlobal then took s (memBytes s.mem x.addr x.len)
  else match translate s g.part die x.addr false with
    | .miss => skipSegment s core slot i k x.len 0 x.addr fun s => set s fun x => { x with st := .skipped }
    | .peer peer remote => sendPeer (set s fun x => { x with st := .away }) g.part peer remote (.read x.len) (.piece core slot i k)
    | .phys a =>
      if homeDie a = die then took s (memBytes s.mem a x.len)
      else sendRead (set s fun x => { x with st := .away }) die (homeDie a) a (x.addr / 4096) x.len (.piece core slot i k)

/-- The next movement of a unit: a source piece, then its destination. -/
def moveUnit (s : State) (core slot i : Nat) (bad : Bool) : State :=
  match tabGet? (s.core core).engine slot with
  | none => s
  | some o =>
    match o.units[i]?, s.group o.group with
    | some u, some g =>
      if !o.started || (o.stalled && decide (Config.fixupEntries ≤ (s.core core).fixups.length)) || u.dst.st != .todo then s
      else
        let s := s.modOp core slot fun o => { o with stalled := false }
        if o.kind != .gatom && u.dst.isGlobal && u.src.all (fun x => x.st == .todo) &&
            translate s g.part (dieOfCore core) u.dst.addr true == .miss then skipDest s core slot i o u
        else match u.src.findIdx? fun x => x.st == .todo with
        | some k => readPiece s core slot i k (u.src.getD k u.dst) g bad
        | none =>
          if u.src.any fun x => x.st == .skipped || x.st == .away then s
          else if o.kind = .gatom then updateUnit s core slot i o u g bad
          else if o.overlaps && !o.allRead then s
          else storeUnit s core slot i o u g bad
    | _, _ => s

/-- A window fill that a core's engine could make now: it takes precedence over queued operations (R161, R180). -/
def fillsWait (s : State) (core : Nat) : Bool :=
  s.teams.any fun t => t.core == core && t.holds && t.windows.any fun w => w.segments.any fun x => x.filling && !x.asleep

/-- ENGINE_OP_START (R167, R176, R180): the oldest waiting operation starts once the accesses before its fork are performed; codes 1
to 3 are decided here, and a window operation begins its write-backs. -/
def execEngineOpStart (core slot : Nat) (s : State) : Result :=
  match tabGet? (s.core core).engine slot with
  | none => .next s
  | some o =>
    match s.group o.group with
    | none => .next s
    | some g => .next <|
      let waiting := (s.core core).engine.find? fun e => !e.2.started
      let oldest := match waiting with | some e => e.1 == slot | none => false
      if o.started || !oldest || fillsWait s core || mustFollow s o.group o.mark [.fence] [] then s
      else
        let s := s.modOp core slot fun o => { o with started := true, left := o.total }
        match o.kind with
        | .wflush => if o.segs.isEmpty then finishOp s core slot else s
        | .wclose => s
        | _ =>
          let code := if o.valid then rangeError s g o else 1
          if code != 0 then finishOp (s.modOp core slot fun o => { o with error := code }) core slot
          else endOp (s.modOp core slot fun o => { o with units := o.plan s g }) core slot

/-- ENGINE_UNIT_TRANSFER (R171, R177, R324): a part of an operation moves on; `bad`: it meets an uncorrectable data error. -/
def execEngineUnitTransfer (core slot idx : Nat) (bad : Bool) (s : State) : Result := .next (moveUnit s core slot idx bad)

end Sys2Proof.Machine
end

