-- ==== Sys2Proof/Machine/Windows.lean ====
section
/-! DEFINITION. Windows (R160 to R165, R178, R179): opening, fills, write-backs, closing; and the events of the map unit and of the
links between dies (R322 to R330). -/

namespace Sys2Proof.Machine

/-! ### `wopen`, `wflush`, `wclose` (R178, R179) -/

/-- The window a descriptor opens (R160, R178). -/
def windowOf (m : Memory) (a : Nat) (ro : Bool) : Window :=
  let len := memReadN m (a + 12) 4
  { isOpen := true, global := memReadN m a 8, local_ := memReadN m (a + 8) 4, length := len, readOnly := ro,
    segments := List.replicate (len / 4096) {} }

/-- The conditions of R160 and R178 on a window of a team. -/
def windowOk (t : Team) (n : Nat) (w : Window) : Bool :=
  let old := t.window n
  !old.isOpen && !old.closing && w.global % 4096 == 0 && w.local_ % 256 == 0 && w.length % 4096 == 0 &&
    decide (4096 ≤ w.length) && decide (w.length ≤ 524288) && decide (t.base ≤ w.local_) &&
    decide (w.local_ + w.length ≤ t.base + t.size) && !t.touchesWindow w.local_ w.length

/-- `wopen` (R178). -/
def execWopen (p : Pred) (m : Mem) (w : BitVec 4) (fill ro : Bool) (s : State) : Result :=
  match issueOf s with
  | none => .next s
  | some c => .next <|
    match namedAddrs c p m fun _ => 0 with
    | [] => laneStep s c [] [] none (fun _ => .ok (c.advance s 12 priceLane)) [m.base]
    | (a, _) :: _ =>
      let place := reach s c.g m.space a 16 false
      let win : Option Window := match place with | .at x => some (windowOf s.mem x ro) | _ => none
      let misuse : Option Trap := match win with
        | some x => if windowOk (s.team c.g.team) w.toNat x then none else some { cause := 8, arg := BitVec.ofNat 64 a }
        | none => none
      let held := match place with | .at x => c.mustFollow s .load [(x, 16)] | _ => false
      laneStep s c [] [] (if held then none else firstTrap [place.outside a, alignTrap a 16, misuse]) (fun _ =>
        if held then .ok (c.hold s [])
        else match win with
          | none => .ok s
          | some x =>
            let x := if fill then { x with segments := x.segments.map fun g => { g with filling := true, fillFor := some (c.gid, s.nextFlight) } } else x
            .ok (c.advance (s.modWindow c.g.team w.toNat fun _ => x) 12 priceLane)) [m.base]

/-- The segments of a window that are dirty. -/
def Window.dirtySegs (w : Window) : List Nat := (List.range w.segments.length).filter fun j => (w.seg j).dirty

/-- `wflush` and `wclose` (R179): an operation in a slot that counts 1 on its object. The object's address is checked before the window
(the model's order, log 104). -/
def windowOpStep (s : State) (p : Pred) (m : Mem) (w : BitVec 4) (kind : EngineKind) : Host.Outcome State Fault Refusal :=
  match issueOf s with
  | none => .next s
  | some c => .next <|
    match namedAddrs c p m fun _ => 0 with
    | [] => laneStep s c [] [] none (fun _ => .ok (c.advance s 12 priceEngine)) [m.base]
    | (a, lanes) :: _ =>
      let x := (s.team c.g.team).window w.toNat
      let misuse := if x.isOpen && !x.closing then none else some { cause := 8, arg := BitVec.ofNat 64 a : Trap }
      laneStep s c [] [] (firstTrap [(reach s c.g m.space a 8 true).outside a, alignTrap a 8, misuse]) (fun _ =>
        if (freeSlots (s.core c.g.core)).isEmpty then .ok (c.hold s [])
        else
          let op : EngineOp :=
            { kind := kind, group := c.gid, team := c.g.team, slice := (lowestOf lanes).1, pc := c.pc, mark := s.nextFlight,
              objSpace := m.space, objAddr := a, instr := s.nextFlight, since := s.gtime.toNat, win := w.toNat,
              segs := if x.readOnly then [] else x.dirtySegs }
          let s := s.modWindow c.g.team w.toNat fun x => { x.startWriteback with closing := x.closing || kind == .wclose }
          .ok (c.advance { enqueueOps s c.g.core [op] with nextFlight := s.nextFlight + 1 } 12 priceEngine)) [m.base]

/-- `wflush` (R179). -/
def execWflush (p : Pred) (m : Mem) (w : BitVec 4) (s : State) : Result := windowOpStep s p m w .wflush
/-- `wclose` (R179). -/
def execWclose (p : Pred) (m : Mem) (w : BitVec 4) (s : State) : Result := windowOpStep s p m w .wclose

/-! ### Fills and write-backs (R161, R162, R165) -/

/-- The window operations that a write-back of a segment belongs to (R179). -/
def windowOps (s : State) (core team w j : Nat) : List (Nat × EngineOp) :=
  (s.core core).engine.filter fun e =>
    e.2.team == team && e.2.win == w && (e.2.kind == .wflush || e.2.kind == .wclose) && e.2.segs.contains j

/-- A window or segment skipped onto the fix-up list of its core's engine (R324); with the list full, the operation it belongs to starts
no further segment. -/
def skipWindow (s : State) (core team w j v access : Nat) : State :=
  let k := s.core core
  if Config.fixupEntries ≤ k.fixups.length then
    if access = 0 then s
    else (windowOps s core team w j).foldl (fun s e => s.modOp core e.1 fun o => { o with stalled := true }) s
  else
    let slot := if access = 0 then 64 else (((windowOps s core team w j).head?).map fun e => e.1).getD 64
    let e : Fixup := { slot := slot, page := v / 4096, part := j, unit := j, off := 0, len := 4096, access := access,
                         reason := (pendingCause s (dieOfCore core) (v / 4096) access).getD 0, window := true, team := team, win := w }
    askWalk ((s.setCore core { k with fixups := k.fixups ++ [e] }).modSeg team w j fun x => { x with asleep := true })
      (dieOfCore core) (v / 4096) access

/-- A fill that has all its bytes: they stand in the scratchpad range and the segment is present (R161). -/
def fillSegment (s : State) (team w j : Nat) (bs : List Byte) : State :=
  let t := s.team team
  let s := s.setMem (memWriteBytes s.mem (coreMem t.core + (t.window w).local_ + 4096 * j) bs)
  settleWaits (wakeCore (s.modSeg team w j fun x => { x with present := true, filling := false, asleep := false }) t.core 2)

/-- A fill that fails (R165). -/
def failSegment (s : State) (team w j : Nat) : State :=
  wakeCore (s.modSeg team w j fun x => { x with failed := true, filling := false, asleep := false }) (s.team team).core 2

/-- A fill that an earlier fence or acquire of the group that began it still keeps back (R192, R193). -/
def fillHeld (s : State) (g : Segment) : Bool :=
  match g.fillFor with
  | some (gid, n) => s.flights.any fun e => decide (e.1 < n) && e.2.group == gid && !e.2.performed && e.2.precedes .load []
  | none => false

/-- WINDOW_FILL_COMPLETE (R161, R165): a segment's fill, on its own die, from another, or from a peer; `bad`: an uncorrectable error. -/
def execWindowFillComplete (team win seg : Nat) (bad : Bool) (s : State) : Result :=
  let t := s.team team
  let x := t.window win
  let g := x.seg seg
  .next <|
    if !g.filling || g.asleep || fillHeld s g then s
    else if bad then failSegment s team win seg
    else
      let v := (x.global + 4096 * seg) % 2 ^ 64
      let die := dieOfCore t.core
      let wait (s : State) : State := s.modSeg team win seg fun y => { y with asleep := true }
      match translate s t.part die v false with
      | .miss => skipWindow s t.core team win seg v 0
      | .peer peer remote => sendPeer (wait s) t.part peer remote (.read 4096) (.fill team win seg)
      | .phys a =>
        if homeDie a = die then fillSegment s team win seg (memBytes s.mem a 4096)
        else sendRead (wait s) die (homeDie a) a (v / 4096) 4096 (.fill team win seg)

/-- A `wflush` ends when none of its segments is still to be written (R179); a failed one leaves its code. -/
def endFlushes (s : State) (team win seg code : Nat) : State :=
  let core := (s.team team).core
  (windowOps s core team win seg).foldl (fun s e =>
    let s := s.modOp core e.1 fun o => { if code = 0 then o else o.fail code with segs := o.segs.erase seg, stalled := false }
    if e.2.kind == .wflush && (e.2.segs.erase seg).isEmpty then finishOp s core e.1 else s) s

/-- Where the bytes of a window's segment are homed: on another die or at a peer. -/
def segmentFar (s : State) (team win seg : Nat) : Bool :=
  let t := s.team team
  match translate s t.part (dieOfCore t.core) (((t.window win).global + 4096 * seg) % 2 ^ 64) true with
  | .phys a => homeDie a != dieOfCore t.core
  | .peer .. => true
  | .miss => false

/-- A segment's write-back sampled when it completes, as a segment of the `wflush` or `wclose` that asked for it (R371). -/
def sampleWriteback (s : State) (team win seg : Nat) : State :=
  let t := s.team team
  (windowOps s t.core team win seg).foldl (fun s e =>
    s.sample e.2.group e.2.slice e.2.pc e.2.since 4 4 (((t.window win).global + 4096 * seg) % 2 ^ 64) (segmentFar s team win seg)) s

/-- A write-back that is done, or given up with a code (R162, R179). The segment of one given up is clean all the same, and at a save or a
retirement, where no operation records it, its failure leaves no trace: the spec says nothing of either (log 96). -/
def endWriteback (s : State) (team win seg code : Nat) : State :=
  endFlushes ((sampleWriteback s team win seg).modSeg team win seg fun x => { x with dirty := false, writing := false, asleep := false })
    team win seg code

/-- WINDOW_WRITEBACK (R162): one dirty segment written to the global range, after the fork of the operation that asked for it and after
the accesses that have issued through it, and in a closing window after its outstanding fills; one that meets an uncorrectable error is not
written (R179). -/
def execWindowWriteback (team win : Nat) (seg : SegmentWrite) (s : State) : Result :=
  let bad := seg.bad
  let seg := seg.index
  let t := s.team team
  let x := t.window win
  let g := x.seg seg
  let early := (s.core t.core).engine.any fun e =>
    !e.2.started && e.2.team == team && e.2.win == win && (e.2.kind == .wflush || e.2.kind == .wclose)
  let live := s.flights.any fun f => !f.2.performed && t.groups.contains f.2.group && (match f.2.win with
    | some (w, off) => w == win && (segmentsAt off f.2.size).contains seg
    | none => false)
  .next <|
    let stalled := decide (Config.fixupEntries ≤ (s.core t.core).fixups.length) &&
      (windowOps s t.core team win seg).any fun e => e.2.stalled
    let fills := x.closing && x.segments.any fun y => y.filling
    if !g.writing || g.asleep || early || live || stalled || fills then s
    else if bad then endWriteback s team win seg 5
    else
      let v := (x.global + 4096 * seg) % 2 ^ 64
      let die := dieOfCore t.core
      let bs := memBytes s.mem (coreMem t.core + x.local_ + 4096 * seg) 4096
      match translate s t.part die v true with
      | .miss => skipWindow s t.core team win seg v 1
      | .peer peer remote =>
        sendPeer (s.modSeg team win seg fun y => { y with asleep := true }) t.part peer remote (.write bs) (.wback team win seg)
      | .phys a =>
        if homeDie a = die then endWriteback (s.setMem (memWriteBytes s.mem a bs)) team win seg 0
        else endWriteback (sendWrite s t.part die (homeDie a) a (v / 4096) (bs.map some) none) team win seg 0

/-- WINDOW_CLOSE_COMPLETE (R179): a closing window with nothing under way, loads that went through it included, closes, its failed bits
with it (R165). -/
def execWindowCloseComplete (team win : Nat) (s : State) : Result :=
  let t := s.team team
  let x := t.window win
  let op := (s.core t.core).engine.find? fun e => e.2.team == team && e.2.win == win && e.2.kind == .wclose
  let loads := s.flights.any fun f => t.groups.contains f.2.group && (match f.2.win with | some (w, _) => w == win | none => false)
  .next <|
    match op with
    | some e =>
      if x.closing && e.2.started && !loads && !(x.segments.any fun g => g.filling || g.writing) then
        finishOp (s.modWindow team win fun _ => {}) t.core e.1
      else s
    | none => s

/-! ### Walks, replay and rejection (R322 to R327) -/

/-- The cores of a die. -/
def coresOf (die : Nat) : List Nat := (List.range (2 * Config.coresPerCluster)).map fun i => die * (2 * Config.coresPerCluster) + i

/-- The cores of a die that have a record. -/
def knownCores (s : State) (die : Nat) : List Nat :=
  (coresOf die).filter fun k => s.cores.any fun e => e.1 == k

/-- What a fix-up entry stands for is ready to move again. -/
def wakeFixup (s : State) (core : Nat) (e : Fixup) : State :=
  if e.window then s.modSeg e.team e.win e.part fun x => { x with asleep := false }
  else if e.access = 0 then
    s.modUnit core e.slot e.unit fun u => setPiece u e.piece fun x => { x with st := .todo }
  else s.modUnit core e.slot e.unit fun u => { u with dst := { u.dst with st := .todo } }

/-- A fix-up entry replayed (R326). -/
def replayFixup (s : State) (core : Nat) (e : Fixup) : State :=
  let s := wakeFixup s core e
  let run (r : Result) : State := match r with | .next s => s | _ => s
  if e.window then
    if e.access = 0 then run (execWindowFillComplete e.team e.win e.part false s)
    else run (execWindowWriteback e.team e.win ⟨e.part, false⟩ s)
  else moveUnit s core e.slot e.unit false

/-- What an unresolvable page leaves (R165, R327): the segment is dropped with code 6, or its window segment fails. -/
def loseFixup (s : State) (core : Nat) (e : Fixup) : State :=
  if e.window then
    if e.access = 0 then failSegment s e.team e.win e.part else endWriteback s e.team e.win e.part 6
  else
    if e.access = 0 then moveUnit (loseSrc s core e.slot e.unit e.piece 6) core e.slot e.unit false
    else endOp (loseDst s core e.slot e.unit 6) core e.slot

/-- The entries of a page that a predicate chooses leave the lists of a die's engines, each with an action, in list order. -/
def takeFixups (s : State) (die page : Nat) (sel : Fixup → Bool) (act : State → Nat → Fixup → State) : State :=
  (knownCores s die).foldl (fun s k =>
    let out := (s.core k).fixups.filter fun e => e.page == page && sel e
    let s := s.modCore k fun c => { c with fixups := c.fixups.filter fun e => !(e.page == page && sel e) }
    out.foldl (fun s e => act s k e) s) s

/-- The entries of a page marked with a fault cause. -/
def markFixups (s : State) (die page cause : Nat) (sel : Fixup → Bool) : State :=
  (knownCores s die).foldl (fun s k => s.modCore k fun c =>
    { c with fixups := c.fixups.map fun e => if e.page = page && sel e then { e with reason := cause } else e }) s

/-- The accesses of a die's entries for a page. -/
def fixupAccess (s : State) (die page : Nat) (sel : Fixup → Bool) : Option Nat :=
  (knownCores s die).findSome? fun k => ((s.core k).fixups.find? fun e => e.page == page && sel e).map fun e => e.access

/-- A fault of a page (R326): one event; cause 5 is unresolvable at once. -/
def faultPage (s : State) (die page cause : Nat) (sel : Fixup → Bool) : State :=
  match fixupAccess s die page sel with
  | none => s
  | some access =>
    let s := s.event ((s.parts.find? fun p => p.2.cfg.dies.contains die).map fun p => p.1) [3, die, page, access, cause]
    if cause = 5 then takeFixups s die page sel loseFixup
    else
      let s := markFixups s die page cause sel
      s.modDie die fun d => { d with faults :=
        d.faults ++ [{ page := page, access := access, cause := cause, since := s.gtime.toNat }] }

/-- A page walked (R322, R326): translated, its entries are replayed, those that write a page not writable faulting; or it faults. -/
def walkEnds (s : State) (die page : Nat) (w : Walk) : State :=
  let s := s.modDie die fun d => { d with walks := d.walks.filter fun x => x.page != page }
  match w with
  | .fault c => faultPage s die page c fun _ => true
  | .page e =>
    let s := s.modDie die fun d => { d with tlb := addTlb d.tlb e }
    let s := takeFixups s die page (fun x => x.access == 0 || e.writable) replayFixup
    if e.writable then s else faultPage s die page 3 fun x => x.access != 0 && x.reason == 0

/-- The rest of a walk from a table at a level, given entries where they have come from another die (R321): tables homed on the die are
read at once, entries homed elsewhere are sent for by R330 and the walk waits. -/
def walkOn (s : State) (die : Nat) (p : Partition) (page : Nat) : Nat → Nat → Option (List Byte) → State
  | n, table, got =>
    let a := groupAddr table page n
    match got.or (if homeDie a = die then some (memBytes s.mem a 128) else none) with
    | none =>
      sendRead (s.modDie die fun d => { d with walks := d.walks.map fun w =>
        if w.page = page then { w with level := n, table := table, asleep := true } else w }) die (homeDie a) a 0 128 (.walk die page)
    | some bs =>
      match walkEntry p.cfg s.walkFirst page n bs with
      | .done w => walkEnds { s with freeCount := s.freeCount + 1 } die page w
      | .table t => match n with
        | 0 => s
        | n + 1 => walkOn s die p page n t none

/-- TRANSLATION_WALK_COMPLETE (R322, R323, R326): a walk that waits for nothing goes on, to its end or to a table on another die. -/
def execTranslationWalkComplete (die page : Nat) (s : State) : Result :=
  .next <|
    match (s.die die).walks.find? fun w => w.page == page, partOfDie s die with
    | some w, some p =>
      if w.asleep then s
      else match walkStart p page with
        | some e => walkEnds s die page e
        | none => walkOn s die p page w.level w.table none
    | _, _ => s

/-- The entries a walk has waited for have come. -/
def walkResumes (s : State) (die page : Nat) (bs : List Byte) : State :=
  match (s.die die).walks.find? fun w => w.page == page, partOfDie s die with
  | some w, some p => if w.asleep then walkOn s die p page w.level w.table (some bs) else s
  | _, _ => s

/-- The faults of a page taken off a die. -/
def clearFault (s : State) (die page : Nat) : State :=
  s.modDie die fun d => { d with faults := d.faults.filter fun f => f.page != page }

/-- A faulting page rejected (R326, R327). -/
def rejectPage (s : State) (die page : Nat) : State :=
  takeFixups (clearFault s die page) die page (fun e => e.reason != 0) loseFixup

/-- A faulting page resolved: it is walked again, and its entries are replayed when the walk succeeds (R326). -/
def resolvePage (s : State) (die page : Nat) : State :=
  if (s.die die).faults.any fun f => f.page == page then
    beginWalk (markFixups (clearFault s die page) die page 0 fun _ => true) die page
  else s

/-- An answer that resolves a fault is the host's next word before the next cycle: it meets what is due now (R326). -/
def answeredNow (s : State) (die page : Nat) : Bool :=
  (s.agenda.takeWhile fun e => match e with | .tokenCycle .. => false | _ => true).any fun e => match e with
    | .faultAnswerResolve _ d p => d == die && p == page
    | _ => false

/-- FAULT_TIMEOUT (R326): a fault still unresolved after the partition's fault timeout is unresolvable; a resolution in the same cycle
wins. -/
def execFaultTimeout (die page : Nat) (s : State) : Result :=
  let limit := ((partOfDie s die).map fun p => p.cfg.faultTimeout).getD 0
  let due := (s.die die).faults.any fun f => f.page == page && decide (f.since + limit ≤ s.gtime.toNat)
  .next (if limit != 0 && due && !answeredNow s die page then rejectPage s die page else s)

/-! ### Between dies (R329, R330) -/

/-- What an element's update does on its core: its flags are raised, and one that counts only when it is performed counts (R65). -/
def updateShows (s : State) (core slot i : Nat) (fl : FlagSet) (counts : Bool) : State :=
  let s := match tabGet? (s.core core).engine slot with
    | some o => raiseIn s o.group o.slice fl
    | none => s
  if counts then (unitWritten s core slot i true true).modUnit core slot i fun u => { u with dst := { u.dst with st := .away } } else s

/-- A message performed at its home (R329): bytes written, or an element updated and its old value sent back. What the update does on a core
whose clock stands still comes with that (R305; log 72). -/
def performMessage (s : State) (die : Nat) (m : Message) : State :=
  match m.atom with
  | none => s.setMem (writeSome s.mem m.addr m.bytes)
  | some q =>
    let old := memReadN s.mem m.addr q.t.bytes
    let (new, fl) := atomNew (Arith.of q.fmt) q.op q.t old q.b q.c
    let s := s.setMem (memWriteN s.mem m.addr q.t.bytes new)
    let still := coreStopped s q.core
    let s := if still then s else updateShows s q.core q.slot q.part fl q.late
    let r : CrossRead := { reader := m.origin, home := die, clock := (s.die die).clock, addr := m.addr, len := q.t.bytes,
                           data := memBytes (memWriteN [] 0 q.t.bytes old) 0 q.t.bytes, owner := .old q.core q.slot q.part,
                           flags := if still then fl else 0, counts := still && q.late }
    s.modDie m.origin fun d => { d with responses := d.responses ++ [r] }

/-- CROSS_DIE_ACCEPT (R329): the oldest message from one origin, when its stamp's turn has come; a step mark that waited for it may now be
released (R240, R331). -/
def execCrossDieAccept (die origin : Nat) (s : State) : Result :=
  let d := s.die die
  .next <|
    match d.inbox.find? fun m => m.origin == origin with
    | none => s
    | some m =>
      if m.stamp.getD origin 0 = d.clock.getD origin 0 + 1 && clockCovers d.clock m.stamp origin then
        let s := s.setDie die { d with inbox := d.inbox.erase m, clock := d.clock.set origin (m.stamp.getD origin 0) }
        checkSteps (if m.home = die then performMessage s die m else s)
      else s

/-- CROSS_DIE_READ_SERVE (R330): the home answers once it has accepted all the reader had seen. -/
def execCrossDieReadServe (die idx : Nat) (s : State) : Result :=
  let d := s.die die
  .next <|
    match d.requests[idx]? with
    | none => s
    | some r =>
      if clockCovers d.clock r.clock die then
        let s := s.setDie die { d with requests := d.requests.eraseIdx idx }
        s.modDie r.reader fun x => { x with responses := x.responses ++
          [{ r with clock := d.clock, data := memBytes s.mem r.addr r.len }] }
      else s

/-- Remote data given to whoever awaits them. -/
def deliver (s : State) (o : ReadFor) (bs : List Byte) : State :=
  match o with
  | .piece core slot i k => pieceRead s core slot i k bs true
  | .fill team win seg => fillSegment s team win seg bs
  | .old core slot i =>
    let keeps := match tabGet? (s.core core).engine slot with | some o => o.keepsOld | none => false
    let s := deliverOld s core slot i (bytesNat bs)
    endOp (if keeps then unitWritten s core slot i true true
      else s.modUnit core slot i fun u => { u with dst := { u.dst with st := .done } }) core slot
  | .wrote core slot i => endOp (unitWritten s core slot i true true) core slot
  | .wback team win seg => endWriteback s team win seg 0
  | .walk d page => walkResumes s d page bs

/-- What an update still has to do on its core, with its old value (log 72). -/
def heldUpdate (s : State) (r : CrossRead) : State :=
  match r.owner with
  | .old core slot i => if r.flags = 0 && !r.counts then s else updateShows s core slot i r.flags r.counts
  | _ => s

/-- CROSS_DIE_READ_DELIVER (R330): data reach their destination once the reader has accepted all the home had seen. -/
def execCrossDieReadDeliver (die idx : Nat) (s : State) : Result :=
  let d := s.die die
  .next <|
    match d.responses[idx]? with
    | none => s
    | some r =>
      if clockCovers d.clock r.clock die then
        deliver (heldUpdate (s.setDie die { d with responses := d.responses.eraseIdx idx }) r) r.owner r.data
      else s

end Sys2Proof.Machine
end

