-- ==== Sys2Proof/Machine/Matrix.lean ====
section
/-! DEFINITION. The residue matrix engine (R197 to R226) and the `.t96` element (R55 to R57): `mzero`, `mpair`, drains, add-on-stores,
and the events that run what they queue. -/

namespace Sys2Proof.Machine

/-! ### The trine-96 element (R55 to R57) -/

/-- The modulus of channel P. -/
def modP : Nat := 2 ^ 32 - 5
/-- The modulus of channel Q. -/
def modQ : Nat := 2 ^ 32 - 17
/-- The product of the three moduli. -/
def modM : Nat := 2 ^ 32 * modP * modQ

/-- InverseMod(2^32 mod mP, mP) of R56. -/
def invP : Nat := 3435973833
/-- InverseMod((2^32 × mP) mod mQ, mQ) of R56. -/
def invQ : Nat := 3558085638

/-- The integer of three residues (R56). -/
def reconstruct96 (c p q : Nat) : Int :=
  let x2 := (((p : Int) - c) * invP % modP).toNat
  let x3 := (((q : Int) - c - (2 ^ 32 * x2 : Nat)) * invQ % modQ).toNat
  let u := c + 2 ^ 32 * x2 + 2 ^ 32 * modP * x3
  if modM ≤ 2 * u then (u : Int) - modM else u

/-- A sum's residue in a channel. -/
def residue (m : Nat) (v : Int) : Nat := (v % m).toNat

/-- The class of a sum of two classes, and whether it raises invalid (R57). -/
def combineClass (a b : Nat) : Nat × Bool :=
  if a = 3 || b = 3 then (3, false)
  else if a = 0 then (b, false)
  else if b = 0 || a = b then (a, false)
  else (3, true)

/-- The status word (R55). -/
def statusWord (cls : Nat) (overflow : Bool) (ea : Int) : Nat := cls + (if overflow then 4 else 0) + 65536 * wrapInt 16 ea

/-- The 16-byte layout of an element (R55). -/
def pack96 (c p q cls : Nat) (overflow : Bool) (ea : Int) : Nat :=
  c + 2 ^ 32 * p + 2 ^ 64 * q + 2 ^ 96 * statusWord cls overflow ea

/-- The integer an element's residues stand for. -/
def Elem.value (d : Elem) : Int := reconstruct96 d.c d.p d.q

/-- A NaN of no payload. -/
def plainNaN : FVal := .nan false 0 23 false

/-- An element as its consumers read it (R207), and the overflow it raises. -/
def Elem.read (d : Elem) (ea : Int) : FVal × FlagSet :=
  match d.cls with
  | 0 =>
    if d.overflow then (plainNaN, flagOverflow)
    else (.num (decide (d.value < 0)) d.value.natAbs ea, 0)
  | 1 => (.inf false, 0)
  | 2 => (.inf true, 0)
  | _ => (plainNaN, 0)

/-! ### Contributions (R203 to R208) -/

/-- ceil(log2 n) of a positive count. -/
def ceilLog2 (n : Nat) : Nat := if n ≤ 1 then 0 else Nat.log2 (n - 1) + 1

/-- The overflow guard (R208). -/
def Elem.guard (d : Elem) (w : Nat) (s : Int) : Elem :=
  let d := { d with maxs := max d.maxs s, count := d.count + 1 }
  if 94 ≤ d.maxs + (w : Int) + (ceilLog2 d.count : Int) then { d with overflow := true } else d

/-- The class of an operand as an element class. -/
def specialClass (neg : Bool) : Nat := if neg then 2 else 1

/-- Contribute (R205): one product into one element, and the flags it raises; `w` is the W of R208. -/
def Elem.contribute (d : Elem) (w : Nat) (ea : Int) (a b : FVal) : Elem × FlagSet :=
  let sig := flagIf (a.isSNaN || b.isSNaN) flagInvalid
  let special (c : Nat) (fl : FlagSet) : Elem × FlagSet :=
    let (k, inv) := combineClass d.cls c
    ({ d with cls := k }, sig ||| fl ||| flagIf inv flagInvalid)
  match a, b with
  | .num na ma xa, .num nb mb xb =>
    if ma * mb = 0 then (d, 0)
    else
      let s := xa + xb - ea
      if s < -24 then (d, flagInexact)
      else
        let (x, y) := scaleRat (ma * mb) 1 s
        let (v, inx) := roundQuotient .rne false x y
        let fl := flagIf inx flagInexact
        if v = 0 then (d, fl)
        else
          let i : Int := if na != nb then -(v : Int) else v
          (({ d with c := residue (2 ^ 32) (d.c + i), p := residue modP (d.p + i), q := residue modQ (d.q + i) } : Elem).guard w
            (max s 0), fl)
  | .inf n, .num m v _ => if v = 0 then special 3 flagInvalid else special (specialClass (n != m)) 0
  | .num n v _, .inf m => if v = 0 then special 3 flagInvalid else special (specialClass (n != m)) 0
  | .inf n, .inf m => special (specialClass (n != m)) 0
  | _, _ => special 3 0

/-! ### Operand formats (R200 to R204) -/

/-- The classes of operand formats. -/
inductive MatClass where
  | bits8 | bits4 | fp16
deriving DecidableEq, Repr

/-- The type of an `ma` or `mb` code (R41). -/
def matTy (n : Nat) : Option Ty := [Ty.s8, .e4m3, .e5m2, .m6a, .m6b, .m4, .i4, .bf16, .f16][n]?

/-- The class of a format code. -/
def matClass (n : Nat) : MatClass :=
  match n with
  | 5 | 6 => .bits4
  | 8 => .fp16
  | _ => .bits8

/-- `%fmt.ma`. -/
def fmtMa (w : Word32) : Nat := (w.extractLsb' 6 4).toNat
/-- `%fmt.mb`. -/
def fmtMb (w : Word32) : Nat := (w.extractLsb' 10 4).toNat
/-- `%fmt.mscale`. -/
def fmtScale (w : Word32) : Nat := (w.extractLsb' 14 4).toNat
/-- `%fmt.mout`. -/
def fmtOut (w : Word32) : Nat := (w.extractLsb' 18 4).toNat

/-- The combinations R200 allows. -/
def formatsOk (w : Word32) : Bool :=
  decide (fmtMa w ≤ 8) && decide (fmtMb w ≤ 8) && matClass (fmtMa w) == matClass (fmtMb w) && decide (fmtScale w ≤ 1) &&
    (fmtScale w == 0 || (decide (fmtMa w ≤ 6) && decide (fmtMb w ≤ 6)))

/-- K of R200. -/
def matDepth (w : Word32) : Nat := if matClass (fmtMa w) = .bits4 then 64 else 32
/-- The steps of an `mpair`. -/
def matSteps (w : Word32) : Nat := if matClass (fmtMa w) = .fp16 then 2 else 1
/-- h of R201. -/
def matH (ma : Nat) : Nat := if ma ≤ 6 then 8 else 16
/-- W of R208. -/
def matW (w : Word32) : Nat := if matClass (fmtMa w) = .fp16 then 24 else 18

/-- The bytes of a B half's elements (R200). -/
def halfBytes (mb : Nat) : Nat :=
  match mb with
  | 3 | 4 => 1536
  | 7 | 8 => 4096
  | _ => 2048

/-- The bytes of a B half with its scales (R202). -/
def halfSize (w : Word32) : Nat := halfBytes (fmtMb w) + fmtScale w * 2 * matDepth w

/-- The value of an operand code under a scale (R203, R204): none for an unscaled one. -/
def operandValue (t : Ty) (code : Nat) (scale : Option Nat) : FVal :=
  if scale = some 255 then plainNaN
  else
    let k : Int := match scale with | some e => (e : Int) - 127 | none => 0
    match tyFmt t with
    | some f => match f.decode (code % 2 ^ f.width) with
      | .num n m e => .num n m (e + k)
      | v => v
    | none =>
      let v := readInt true (tyIntBits t) code
      .num (decide (v < 0)) v.natAbs k

/-- The bits an element of A occupies in its name word (R201, R52). -/
def aBits (ma : Nat) : Nat :=
  match ma with
  | 5 | 6 => 4
  | 7 | 8 => 16
  | _ => 8

/-- A[i][k] (R201). -/
def aValue (fmt : Word32) (words : List (List Word32)) (scales : List Word32) (i k : Nat) : FVal :=
  let ma := fmtMa fmt
  let e := 32 / aBits ma
  let lane := i / 2
  let word := ((words.getD (i % 2 * matH ma + k / e) []).getD lane 0).toNat
  let s := (scales.getD lane 0).toNat
  let scale := if fmtScale fmt = 0 then none
    else some (s / 256 ^ (if matClass ma = .bits4 then 2 * (i % 2) + k / 32 else i % 2) % 256)
  match matTy ma with
  | some t => operandValue t (word / 2 ^ (aBits ma * (k % e)) % 2 ^ aBits ma) scale
  | none => plainNaN

/-- B[k][j] of the half at `b`, j counted within the half (R202). -/
def bValue (m : Memory) (fmt : Word32) (b k j : Nat) : FVal :=
  let mb := fmtMb fmt
  let code := match mb with
    | 3 | 4 => memReadN m (b + 48 * k + 6 * j / 8) 2 / 2 ^ (6 * j % 8)
    | 5 | 6 => memReadN m (b + 32 * k + j / 2) 1 / 16 ^ (j % 2) % 16
    | 7 | 8 => memReadN m (b + 128 * k + 2 * j) 2
    | _ => memReadN m (b + 64 * k + j) 1
  let scale := if fmtScale fmt = 0 then none
    else some (memReadN m (b + halfBytes mb + (if matClass mb = .bits4 then 64 * (k / 32) else 0) + j) 1)
  match matTy mb with
  | some t => operandValue t code scale
  | none => plainNaN

/-! ### Ownership (R197, R198) -/

/-- A core in an odd column of its mesh row: a follower (R197). -/
def isFollower (core : Nat) : Bool := core % 2 == 1

/-- The team owns the accumulator of its core. -/
def ownsTile (s : State) (g : Group) : Bool := (s.core g.core).owner == some g.team

/-- The predicate on the elected lane (R210, R211, R215). -/
def Issue.elected (c : Issue) (p : Pred) : Bool := ((c.g.slices.get c.lowest.1).active p).getLsbD c.lowest.2

/-- `%fmt` of the elected slice. -/
def Issue.electedFmt (c : Issue) : Word32 := (c.g.slices.get c.lowest.1).fmt

/-- Leading `mzero`s of the queue take effect in pair order (R210, R222). -/
def Core.settleZeros : Nat → Core → Core
  | 0, k => k
  | n + 1, k =>
    match k.matrix with
    | .zero ea :: r => Core.settleZeros n { k with matrix := r, elems := [], anchor := ea }
    | _ => k

/-- The first matrix instruction leaves the queue. -/
def Core.nextMatrix (k : Core) : Core :=
  let k := { k with matrix := k.matrix.drop 1 }
  k.settleZeros k.matrix.length

/-- A matrix instruction queued. -/
def Core.addMatrix (k : Core) (o : MatOp) : Core :=
  let k := { k with matrix := k.matrix ++ [o] }
  k.settleZeros k.matrix.length

/-- Ownership ends: the contents are discarded (R198). -/
def Core.endOwnership (k : Core) : Core := { k with owner := none, elems := [], anchor := 0 }

/-- The frame of a matrix instruction that its gang's elected lane decides on: with a false predicate it reads nothing and only advances,
at its price (R211, R298); on a follower it traps (R197). The spec does not place the wait for a base or anchor register that awaits a load,
or the machine check of one whose fill failed (R75, R159, R242), against a matrix instruction's own traps: here they come first, on a
follower too (log 91). -/
def matrixStep (s : State) (p : Pred) (regs : List (BitVec 6)) (price : Issue → Price) (act : Issue → State) :
    Host.Outcome State Fault Refusal :=
  match issueOf s with
  | none => .next s
  | some c => .next <|
    if !c.elected p then c.advance s 12 (price c)
    else match c.failedReg regs with
    | some t => c.trap s t
    | none =>
      if c.pending regs then c.hold s []
      else if isFollower c.g.core then c.trap s { cause := 1 }
      else act c

/-- The anchor of `mzero` (R209). -/
def anchorOf (g : Group) : EaSrc → Int
  | .imm v => v.toInt
  | .ureg r => (g.g r).toInt

/-- The registers an anchor reads. -/
def anchorRegs : EaSrc → List (BitVec 6)
  | .imm _ => []
  | .ureg r => [r]

/-- An anchor that fits its field (R209). -/
def anchorFits (x : Int) : Bool := decide (-32768 ≤ x) && decide (x ≤ 32767)

/-- Another team owns the accumulator of a group's core (R198). -/
def tileTaken (s : State) (g : Group) : Bool := (s.core g.core).owner.isSome && (s.core g.core).owner != some g.team

/-- `mzero` (R198, R210): it claims the accumulator, or waits unissued for another team's ownership to end. -/
def execMzero (p : Pred) (ea : EaSrc) (s : State) : Result :=
  matrixStep s p (anchorRegs ea) (fun _ => priceLane) fun c =>
    let k := s.core c.g.core
    let x := anchorOf c.g ea
    if !anchorFits x then c.trap s { cause := 1 }
    else if tileTaken s c.g then c.hold s []
    else c.advance (s.setCore c.g.core (({ k with owner := some c.g.team } : Core).addMatrix (.zero x))) 12 priceLane

/-- An `mzero` that a gang of a group holds waits for another team's ownership to end (R151, R198). -/
def claimWaits (s : State) (g : Group) (n : BitVec 3) (p : Pred) (ea : EaSrc) : Bool :=
  let c : Issue := ⟨0, g, n, g.gangSlices n, 0⟩
  c.elected p && !isFollower g.core && !c.pending (anchorRegs ea) && (c.failedReg (anchorRegs ea)).isNone &&
    anchorFits (anchorOf g ea) && tileTaken s g

/-- `mzero.rel` (R210): ownership ends in pair order; by a non-owner nothing happens. -/
def execMzeroRel (p : Pred) (s : State) : Result :=
  matrixStep s p [] (fun _ => priceLane) fun c =>
    if ownsTile s c.g then c.advance (s.modCore c.g.core fun k => k.addMatrix (.release c.g.team)) 12 priceLane
    else c.advance s 12 priceLane

/-! ### `mpair` (R211 to R213) -/

/-- The price of an `mpair` (R213, R298). -/
def priceMpair (w : Word32) : Price := ⟨48 * matSteps w, false⟩

/-- Every lane of every slice of the group is active in the gang. -/
def Issue.whole (c : Issue) : Bool := c.sls.length == 8 && c.sls.all fun i => (c.g.slices.get i).mask == 0xF

/-- The names an `mpair` reads: 2h A names, and the scale name (R201). -/
def mpairReads (fmt : Word32) (a sc : Src) : List NameRead :=
  ((List.range (2 * matH (fmtMa fmt))).map fun n => ⟨.always, { a with name := a.name + BitVec.ofNat 9 n }⟩) ++
    (if fmtScale fmt = 1 then [⟨.always, sc⟩] else [])

/-- The traps of R212 decided before any name is read. -/
def mpairTrap (s : State) (c : Issue) (a sc : Src) : Option Trap :=
  let fmt := c.electedFmt
  firstTrap
    [trapIf (!ownsTile s c.g) 1, trapIf (!formatsOk fmt) 1,
     match c.g.latch with
     | some l => trapIf (l.ma != fmtMa fmt || l.mscale != fmtScale fmt) 1
     | none =>
       firstTrap
         [trapIf (!c.whole) 3, trapIf (decide (511 < a.name.toNat + 2 * matH (fmtMa fmt) - 1)) 1,
          trapIf (fmtScale fmt == 0 && (sc.name != 0 || sc.trap)) 1]]

/-- The two B halves: the leader's and the follower's places and the follower's team, or the trap of R199 and R202. The leader's half is
checked before the follower's, each for its range and window before its alignment (the model's order, log 104). -/
def mpairHalves (s : State) (g : Group) (fmt : Word32) (addr : Nat) : Except Trap (Nat × Nat × Nat) :=
  let n := halfSize fmt
  let bounds : Trap := { cause := 7, arg := BitVec.ofNat 64 addr }
  let t := s.team g.team
  match reach s g .core addr n false with
  | .at lead =>
    if addr % 16 != 0 then .error bounds
    else
      match partnerTeam s (s.panel g.panel) (g.core % Config.coresPerCluster + 1) with
      | none => .error bounds
      | some f =>
        let b := f.base + (addr - t.base)
        match reachTeam f b n with
        | .at follow =>
          if b % 16 != 0 then .error bounds
          else .ok (lead, follow, ((s.panel g.panel).teams.find? fun i => s.team i == f).getD 0)
        | .bounds => .error bounds
        | .window => .error { bounds with cause := 8 }
  | .bounds => .error bounds
  | .window => .error { bounds with cause := 8 }

/-- The `mpair`s in a queue (R213). -/
def queuedPairs (k : Core) : Nat := (k.matrix.filter fun o => match o with | .pair .. => true | _ => false).length

/-- A word of every lane of a name, for the latch (R201). -/
def laneWords (g : Group) (n : Nat) : List Word32 := (List.range 32).map fun l => (g.slices.get (l / 4)).datum (l % 4) n

/-- The A tile and scales an `mpair` uses: the latch, or the names. -/
def mpairTile (c : Issue) (fmt : Word32) (a sc : Src) : Latch :=
  match c.g.latch with
  | some l => l
  | none =>
    { ma := fmtMa fmt, mscale := fmtScale fmt
      words := (List.range (2 * matH (fmtMa fmt))).map fun n => laneWords c.g (a.name.toNat + n)
      scales := if fmtScale fmt = 1 then laneWords c.g sc.name.toNat else [] }

/-- `mpair` (R211 to R213). -/
def execMpair (p : Pred) (reuse : Bool) (a sc : Src) (base : BitVec 6) (off : BitVec 12) (s : State) : Result :=
  matrixStep s p [base] (fun c => priceMpair c.electedFmt) fun c =>
    let fmt := c.electedFmt
    match mpairTrap s c a sc with
    | some t => c.trap s t
    | none =>
      let rs := if c.g.latch.isSome then [] else mpairReads fmt a sc
      let halves := mpairHalves s c.g fmt ((c.g.g base + off.signExtend 64).toNat)
      laneStep s c rs [] (targetTrap halves) fun _ =>
        match halves with
        | .error _ => .ok s
        | .ok (lead, follow, team) =>
          if 4 ≤ queuedPairs (s.core c.g.core) then .ok (c.hold s [])
          else (c.commit s rs [] fun _ => 0).map fun s =>
            let l := mpairTile c fmt a sc
            let op := MatOp.pair c.gid c.lowest.1 s.nextFlight fmt l.words l.scales lead follow team (matSteps fmt)
            let s := s.modCore c.g.core fun k => k.addMatrix op
            c.advance (s.modGroup c.gid fun g => { g with latch := if reuse then some l else none }) 12 (priceMpair fmt)

/-- The elements of the tile after the contributions of `k` from `lo`, `n` of them, and the flags raised (R206). -/
def stepTile (m : Memory) (fmt : Word32) (words : List (List Word32)) (scales : List Word32) (lead follow : Nat) (ea : Int)
    (lo n : Nat) (elems : Table Elem) : Table Elem × FlagSet :=
  let one (e : Nat) : Elem × FlagSet :=
    let i := e / 128
    let j := e % 128
    (List.range n).foldl (fun (x : Elem × FlagSet) k =>
      let b := if j < 64 then bValue m fmt lead (lo + k) j else bValue m fmt follow (lo + k) (j - 64)
      let (d, fl) := x.1.contribute (matW fmt) ea (aValue fmt words scales i (lo + k)) b
      (d, x.2 ||| fl)) (tabGet elems {} e, 0)
  let all := (List.range 8192).map fun e => (e, one e)
  ((all.map fun x => (x.1, x.2.1)).filter fun x => x.2 != {}, all.foldl (fun fl x => fl ||| x.2.2) 0)

/-- MPAIR_STEP (R206, R223): the first queued step reads its B halves and adds its contributions. -/
def execMpairStep (core : Nat) (s : State) : Result :=
  let k := s.core core
  .next <|
    match k.matrix with
    | .pair gid slice mark fmt words scales lead follow team steps :: r =>
      if mustFollow s gid mark [.fence] [] || steps = 0 then s
      else
        let n := matDepth fmt / matSteps fmt
        let lo := n * (matSteps fmt - steps)
        let (elems, fl) := stepTile s.mem fmt words scales lead follow k.anchor lo n k.elems
        let k := { k with elems := elems }
        let k := if steps = 1 then k.nextMatrix
          else { k with matrix := .pair gid slice mark fmt words scales lead follow team (steps - 1) :: r }
        raiseIn (s.setCore core k) gid slice fl
    | _ => s

/-- OWNERSHIP_END (R198, R210): an `mzero.rel` comes to its place in pair order; a later `mzero` of the same team keeps the tile. -/
def execOwnershipEnd (core : Nat) (s : State) : Result :=
  let k := s.core core
  .next <|
    match k.matrix with
    | .release team :: r =>
      let again := k.owner == some team && r.any fun o => match o with | .zero _ => true | _ => false
      let k := k.nextMatrix
      s.setCore core (if again || k.owner != some team then k else k.endOwnership)
    | _ => s

/-! ### Drains and add-on-stores (R214 to R220) -/

/-- A drain descriptor (R214). -/
structure DrainDesc where
  obj : Nat
  dst : Nat
  amax : Nat
  shape : Nat

/-- The four words as a descriptor. -/
def DrainDesc.of (ws : List Nat) : DrainDesc := ⟨ws.getD 0 0, ws.getD 1 0, ws.getD 2 0, ws.getD 3 0⟩
def DrainDesc.row0 (d : DrainDesc) : Nat := d.shape / 2 ^ 25 % 128
def DrainDesc.col0 (d : DrainDesc) : Nat := d.shape / 2 ^ 18 % 128
def DrainDesc.rows (d : DrainDesc) : Nat := d.shape / 2 ^ 11 % 128 + 1
def DrainDesc.cols (d : DrainDesc) : Nat := d.shape / 2 ^ 4 % 128 + 1
def DrainDesc.stride (d : DrainDesc) : Nat := d.shape / 2 ^ 32
/-- AMAX is enabled. -/
def DrainDesc.wantsMax (d : DrainDesc) : Bool := d.amax.testBit 61
/-- The address of the amax word. -/
def DrainDesc.maxAddr (d : DrainDesc) : Nat := d.amax % 2 ^ 32

/-- No reserved bit or space is used, and the region lies in the tile. -/
def DrainDesc.clean (d : DrainDesc) : Bool :=
  d.shape % 16 == 0 && d.dst / 2 ^ 32 % 2 ^ 30 == 0 && d.amax / 2 ^ 32 % 2 ^ 29 == 0 &&
    (if d.wantsMax then decide (d.amax / 2 ^ 62 ≤ 2) else d.amax == 0) && decide (d.row0 + d.rows ≤ 64) &&
    decide (d.col0 + d.cols ≤ 128)

/-- The output type of a `mout` code (R41). -/
def outTy (n : Nat) : Ty := [Ty.f32, .bf16, .f16, .e4m3, .e5m2, .s32, .t96].getD n .f32

/-- One element converted to the output format (R216). -/
def outElem (a : Arith) (t : Ty) (ea : Int) (d : Elem) : Nat × FlagSet :=
  if t = .t96 then (pack96 d.c d.p d.q d.cls d.overflow ea, 0)
  else
    let (v, fl) := d.read ea
    if t = .s32 then
      let (i, f) := toIntV a true 32 v
      (wrapInt 32 i, fl ||| f)
    else
      let (c, f) := (tyFloat t).convert a v
      (c, fl ||| f)

/-- One element as it counts for the tile maximum (R217). -/
def maxCode (ea : Int) (d : Elem) : Nat :=
  match (d.read ea).1 with
  | .num _ m e => (fmt32.round ⟨.rup, false, false, false, false⟩ false m 1 e).1
  | .inf _ => fmt32.infinity false
  | .nan .. => fmt32.canonicalNaN

/-- The larger of two `.f32` codes by R67. -/
def max32 (x y : Nat) : Nat := (fmt32.minMax ⟨.rne, false, false, false, false⟩ true x y).1

/-- The places of the region: row and column in the tile. -/
def DrainDesc.places (d : DrainDesc) : List (Nat × Nat) :=
  (List.range d.rows).flatMap fun i => (List.range d.cols).map fun j => (d.row0 + i, d.col0 + j)

/-- An element of the tile. -/
def Core.elem (k : Core) (x : Nat × Nat) : Elem := tabGet k.elems {} (128 * x.1 + x.2)

/-- Where `n` bytes of a range checked at the instruction's own decision lie, whatever windows have opened since, its own team's or a
partner's. -/
def storePlace (s : State) (g : Group) (space : Space) (a n : Nat) : Option Nat :=
  match reach s.unwindowed g space a n true with
  | .at x => some x
  | _ => none

/-- The maximum of a drained region (R217); an element that met an error counts for nothing. -/
def tileMax (k : Core) (d : DrainDesc) (bad : List Nat) : Nat :=
  (d.places.filter fun x => !bad.contains (128 * x.1 + x.2)).foldl (fun m x => max32 m (maxCode k.anchor (k.elem x))) (fmt32.infinity true)

/-- The tile maximum merged into the amax word (R217). -/
def mergeMax (s : State) (g : Group) (k : Core) (d : DrainDesc) (bad : List Nat) : State :=
  if d.wantsMax then
    match storePlace s g (scratchSpace (d.amax / 2 ^ 62)) d.maxAddr 4 with
    | some a =>
      s.setMem (memWriteN s.mem a 4 (max32 (memReadN s.mem a 4) (tileMax k d bad)))
    | none => s
  else s

/-- The flags of that merge: a signalling NaN in the amax word raises invalid (R48). -/
def mergeFlags (s : State) (g : Group) (k : Core) (d : DrainDesc) (bad : List Nat) : FlagSet :=
  if d.wantsMax then
    match storePlace s g (scratchSpace (d.amax / 2 ^ 62)) d.maxAddr 4 with
    | some a => (fmt32.minMax ⟨.rne, false, false, false, false⟩ true (memReadN s.mem a 4) (tileMax k d bad)).2
    | none => 0
  else 0

/-- The flag of a memory form's tile maximum that consumes an overflowed element (R57; log 90); to names the element itself raises it, in
the slice that receives it (R64). -/
def maxFlags (k : Core) (d : DrainDesc) (bad : List Nat) : FlagSet :=
  flagIf (d.wantsMax && d.places.any fun x => !bad.contains (128 * x.1 + x.2) && ((k.elem x).read k.anchor).2 &&& flagOverflow != 0)
    flagOverflow

/-- Codes 1 to 3 of a memory form (R217, R219). Where its rows and its amax word break different ranges, the first row in ascending order
that breaks one gives the code, the amax word only after the rows: the spec gives them no order (log 92). -/
def drainError (s : State) (g : Group) (d : DrainDesc) (mout : Nat) (allowed : List Nat) : Nat :=
  let size := (outTy mout).bytes
  let space := scratchSpace (d.dst / 2 ^ 62)
  let code (r : Reach) : Option Nat := match r with | .at _ => none | .bounds => some 2 | .window => some 3
  if !d.clean || decide (2 < d.dst / 2 ^ 62) || !allowed.contains mout || d.dst % 2 ^ 32 % size != 0 || d.stride % size != 0 ||
      (d.wantsMax && d.maxAddr % 4 != 0) then 1
  else
    (((List.range d.rows).findSome? fun i =>
        code (reach s g space (d.dst % 2 ^ 32 + i * d.stride) (d.cols * size) true)).orElse fun _ =>
      if d.wantsMax then code (reach s g (scratchSpace (d.amax / 2 ^ 62)) d.maxAddr 4 true) else none).getD 0

/-- The address and alignment trap of a descriptor, and of its object in the memory forms (R214). -/
def drainTrap (s : State) (c : Issue) (m : Mem) : Option Trap :=
  let a := ((c.g.g m.base) + m.off.signExtend 64).toNat
  firstTrap [(reach s c.g m.space a 32 false).outside a, alignTrap a 32]

/-- The trap of the object a memory form's descriptor names (R168, R214). -/
def drainObjTrap (s : State) (c : Issue) (m : Mem) (obj : Nat) : Option Trap :=
  if objRefOk s c.g obj then none else some { cause := 7, arg := (c.g.g m.base) + m.off.signExtend 64 }

/-- The descriptor an instruction names, and its place. -/
def drainDesc (s : State) (c : Issue) (m : Mem) : List Nat × Nat :=
  match reach s c.g m.space ((c.g.g m.base) + m.off.signExtend 64).toNat 32 false with
  | .at y => ((List.range 4).map fun i => memReadN s.mem (y + 8 * i) 8, y)
  | _ => ([], 0)

/-- The traps of the names form (R218), in an order that is the model's (log 104). -/
def namesTrap (s : State) (c : Issue) (first : Nat) (d : DrainDesc) : Option Trap :=
  firstTrap
    [trapIf (!(d.clean && d.rows == 32 && decide (d.row0 ≤ 32) && decide (d.cols ≤ 16) && decide (first + d.cols - 1 ≤ 511) &&
        decide (fmtOut c.electedFmt ≤ 5) && d.obj == 0 && d.dst == 0 && d.stride == 0)) 1,
     trapIf (!c.whole) 3,
     if d.wantsMax then
       firstTrap [(reach s c.g (scratchSpace (d.amax / 2 ^ 62)) d.maxAddr 4 true).trap d.maxAddr, alignTrap d.maxAddr 4]
     else none]

/-- `mdrain` to names (R215, R218): its names are empty until the drain is performed. -/
def execMdrainNames (p : Pred) (d : Dst) (m : Mem) (s : State) : Result :=
  matrixStep s p [m.base] (fun _ => priceLane) fun c =>
    let (ws, y) := drainDesc s c m
    let desc := DrainDesc.of ws
    let names := elementNames d.name.toNat desc.cols false
    match firstTrap [trapIf (!ownsTile s c.g) 1, drainTrap s c m] with
    | some t => c.trap s t
    | none =>
      if c.mustFollow s .load [(y, 32)] then c.hold s []
      else match namesTrap s c d.name.toNat desc with
        | some t => c.trap s t
        | none => laneStep s c [] (names.map fun n => (.always, n)) none fun _ =>
          (c.commit s [] (emptyWrites c .always names d.uses) fun _ => 0).map fun s =>
            let id := s.nextFlight
            let s := s.modGroup c.gid fun g => g.modSlices c.sls fun _ sl => sl.await names 0xF id
            let op := MatOp.drain c.gid c.lowest.1 id c.electedFmt ws (some (d.name.toNat, id)) .core 0
            c.advance { s.modCore c.g.core fun k => k.addMatrix op with nextFlight := id + 1 } 12 priceLane

/-- The frame of the memory forms at issue (R214, R215). -/
def drainStep (s : State) (p : Pred) (m : Mem) (op : Issue → List Nat → Space → Nat → MatOp) : Host.Outcome State Fault Refusal :=
  matrixStep s p [m.base] (fun _ => priceLane) fun c =>
    let (ws, y) := drainDesc s c m
    match firstTrap [trapIf (!ownsTile s c.g) 1, drainTrap s c m] with
    | some t => c.trap s t
    | none =>
      let obj := ws.getD 0 0
      if c.mustFollow s .load [(y, 32)] then c.hold s []
      else match drainObjTrap s c m obj with
        | some t => c.trap s t
        | none => c.advance (s.modCore c.g.core fun k => k.addMatrix (op c ws (scratchSpace (obj / 2 ^ 62)) (obj % 2 ^ 32))) 12 priceLane

/-- `mdrain` to memory (R215, R219). -/
def execMdrainMemory (p : Pred) (m : Mem) (s : State) : Result :=
  drainStep s p m fun c ws sp a => .drain c.gid c.lowest.1 s.nextFlight c.electedFmt ws none sp a
/-- `mstadd` (R215, R220). -/
def execMstadd (p : Pred) (m : Mem) (s : State) : Result :=
  drainStep s p m fun c ws sp a => .add c.gid c.lowest.1 s.nextFlight c.electedFmt ws sp a

/-- The end of a memory form (R171, R176): its code recorded, its whole total subtracted, its waiters released. -/
def endDrain (s : State) (core : Nat) (g : Group) (d : DrainDesc) (size code : Nat) (space : Space) (addr : Nat) : State :=
  let s := s.modCore core Core.nextMatrix
  settleWaits (wakeCore (countDown (recordError s g space addr code) g space addr (d.rows * d.cols * size)) core 2)

/-- A memory form's elements written one by one: `new` gives an element's code and flags from the element's old code. -/
def writeTile (s : State) (g : Group) (k : Core) (d : DrainDesc) (size : Nat) (bad : List Nat)
    (new : Elem → Nat → Nat × FlagSet) : State × FlagSet :=
  let space := scratchSpace (d.dst / 2 ^ 62)
  let rowAt (i : Nat) : Nat := (storePlace s g space (d.dst % 2 ^ 32 + i * d.stride) (d.cols * size)).getD 0
  let x := d.places.foldl (fun (x : Memory × FlagSet) (e : Nat × Nat) =>
    if bad.contains (128 * e.1 + e.2) then x
    else
      let a := rowAt (e.1 - d.row0) + (e.2 - d.col0) * size
      let (v, fl) := new (k.elem e) (memReadN x.1 a size)
      (memWriteN x.1 a size v, x.2 ||| fl)) (s.mem, 0)
  (s.setMem x.1, x.2)

/-- What a drain to names gives lane `l` of slice `i` for its element `e`, with the element's flags; none where it meets an error (R216). -/
def drainElem (k : Core) (fmt : Word32) (d : DrainDesc) (bad : List Nat) (i l e : Nat) : Option (Nat × FlagSet) :=
  let x := (d.row0 + 4 * i + l, d.col0 + e)
  if bad.contains (128 * x.1 + x.2) then none else some (outElem (Arith.of fmt) (outTy (fmtOut fmt)) k.anchor (k.elem x))

/-- The flags that a drain to names raises in slice `i`: those of the elements that its lanes still await (R64, R216). -/
def drainFlags (sl : Slice) (k : Core) (fmt : Word32) (d : DrainDesc) (first instr : Nat) (bad : List Nat) (i : Nat) : FlagSet :=
  (List.range d.cols).foldl (fun fl e =>
    let waits := match sl.cell (first + e) with | some c => c.producer == instr && !c.full | none => false
    if waits then fl ||| flagsOn (~~~sl.exited) fun l => ((drainElem k fmt d bad i l e).map fun x => x.2).getD 0 else fl) 0

/-- A drain's elements delivered to the names of its group (R216, R218): lane l receives row row0 + l. Their flags are raised late: a save
may have laid the slice's aside (R42, R243). -/
def drainNames (s : State) (gid : Nat) (k : Core) (fmt : Word32) (d : DrainDesc) (first instr : Nat) (bad : List Nat) : State :=
  s.modGroup gid fun g =>
    let full := g.modSlices (List.range 8) fun i sl =>
      (List.range d.cols).foldl (fun sl e => (List.range 4).foldl (fun sl l =>
        let x := drainElem k fmt d bad i l e
        sl.arrive instr l (l == 3) (if x.isSome then none else some ⟨4, 0⟩) (first + e, BitVec.ofNat 32 ((x.map fun y => y.1).getD 0))) sl) sl
    (List.range 8).foldl (fun h i => h.raiseLate i (drainFlags (g.slices.get i) k fmt d first instr bad i)) full

/-- The end of a memory form whose elements are written: the tile maximum merged, the flags raised in the elected slice, code 5 recorded
where an element met an error (R64, R217, R219). -/
def endTile (s : State) (core : Nat) (g : Group) (gid slice : Nat) (k : Core) (d : DrainDesc) (size : Nat) (bad : List Nat) (fl : FlagSet)
    (space : Space) (addr : Nat) : State :=
  let lost := d.places.any fun x => bad.contains (128 * x.1 + x.2)
  endDrain (raiseIn (mergeMax s g k d bad) gid slice (fl ||| maxFlags k d bad ||| mergeFlags s g k d bad)) core g d size
    (if lost then 5 else 0) space addr

/-- DRAIN_PERFORM (R216 to R219): the first queued drain converts and writes its region; `bad` are the elements that meet an uncorrectable
error, by 128 × row + column. In a drain to names the elected slice takes the invalid of a signalling maximum word (the model's choice, log
107). -/
def execDrainPerform (core : Nat) (bad : List Nat) (s : State) : Result :=
  let k := s.core core
  match k.matrix with
  | .drain gid slice mark fmt desc names space addr :: _ =>
    match s.group gid with
    | none => .next s
    | some g => .next <|
      let d := DrainDesc.of desc
      if mustFollow s gid mark [.fence] [] then s
      else match names with
        | some (first, instr) =>
          let s := drainNames (raiseIn (mergeMax s g k d bad) gid slice (mergeFlags s g k d bad)) gid k fmt d first instr bad
          settleWaits (wakeCore (s.modCore core Core.nextMatrix) core 2)
        | none =>
          let t := outTy (fmtOut fmt)
          let code := drainError s g d (fmtOut fmt) (List.range 7)
          if code != 0 then endDrain s core g d t.bytes code space addr
          else
            let (s, fl) := writeTile s g k d t.bytes bad fun e _ => outElem (Arith.of fmt) t k.anchor e
            endTile s core g gid slice k d t.bytes bad fl space addr
  | _ => .next s

/-- The exact sum of a `.t96` destination and an element (R220): both integers by R56, an old element with residues above their range a
NaN that raises invalid (R55), its residues taken as they stand (log 105). The sum of an overflowed element has its overflow bit set and
raises nothing (the model's reading of R57, log 90). -/
def add96 (ea : Int) (d : Elem) (o : Nat) : Nat × FlagSet :=
  let c := o % 2 ^ 32
  let p := o / 2 ^ 32 % 2 ^ 32
  let q := o / 2 ^ 64 % 2 ^ 32
  let st := o / 2 ^ 96
  let eo := readInt true 16 (st / 65536)
  let wrong := decide (modP ≤ p) || decide (modQ ≤ q)
  let (cls, inv) := combineClass (if wrong then 3 else st % 4) d.cls
  let e := min eo ea
  let x := reconstruct96 c p q * (2 ^ (eo - e).toNat : Nat) + d.value * (2 ^ (ea - e).toNat : Nat)
  let out := decide (2 * x < -(modM : Int)) || decide ((modM : Int) ≤ 2 * x)
  (pack96 (residue (2 ^ 32) x) (residue modP x) (residue modQ x) cls (st / 4 % 2 == 1 || d.overflow || out) e,
    flagIf (wrong || inv) flagInvalid)

/-- An `.s32` destination and an element (R220). -/
def addS32 (a : Arith) (ea : Int) (d : Elem) (o : Nat) : Nat × FlagSet :=
  let (v, fl) := d.read ea
  let old := readInt true 32 o
  let sum (i : Int) (f : FlagSet) : Nat × FlagSet :=
    let x := clampInt true 32 (old + i)
    (wrapInt 32 x, f ||| flagIf (x != old + i) flagInvalid)
  match v with
  | .nan .. => (o, fl ||| flagInvalid)
  | .inf _ => let (i, f) := toIntV a true 32 v; sum i f
  | .num neg m e =>
    let (x, y) := scaleRat m 1 e
    let (r, inx) := roundQuotient a.mode neg x y
    sum (if neg then -(r : Int) else r) (flagIf inx flagInexact)

/-- A floating destination and an element (R220): the NaN of R62, the class rules of R57, or one rounded sum. -/
def addFloat (a : Arith) (t : Ty) (ea : Int) (d : Elem) (o : Nat) : Nat × FlagSet :=
  let f := tyFloat t
  let (v, fl) := d.read ea
  let old := f.decode (o % 2 ^ f.width)
  match old, v with
  | .inf n, .num .. => let (c, g) := f.convert a (.inf n); (c, fl ||| g)
  | .num .., .inf n => let (c, g) := f.convert a (.inf n); (c, fl ||| g)
  | _, _ => let (c, g) := f.addV a old v; (c, fl ||| g)

/-- ADD_ON_STORE_PERFORM (R220): the first queued `mstadd` adds its region into memory in one step. -/
def execAddOnStorePerform (core : Nat) (bad : List Nat) (s : State) : Result :=
  let k := s.core core
  match k.matrix with
  | .add gid slice mark fmt desc space addr :: _ =>
    match s.group gid with
    | none => .next s
    | some g => .next <|
      let d := DrainDesc.of desc
      let t := outTy (fmtOut fmt)
      let a := Arith.of fmt
      if mustFollow s gid mark [.fence] [] then s
      else
        let code := drainError s g d (fmtOut fmt) [0, 1, 2, 5, 6]
        if code != 0 then endDrain s core g d t.bytes code space addr
        else
          let (s, fl) := writeTile s g k d t.bytes bad fun e o =>
            match t with
            | .t96 => add96 k.anchor e o
            | .s32 => addS32 a k.anchor e o
            | _ => addFloat a t k.anchor e o
          endTile s core g gid slice k d t.bytes bad fl space addr
  | _ => .next s

end Sys2Proof.Machine
end

