-- ==== Sys2Proof/Machine/Spawn.lean ====
section
/-! DEFINITION. Admission to a core (R39, R46, R139), spawned threads and groups (R264 to R282): `spawn`, `jinit`, `jwait`, gathering,
stealing, parking and re-reservation. -/

namespace Sys2Proof.Machine

/-! ### Admission (R139) -/

/-- The free group slots of a core. -/
def freeGroupSlots (s : State) (core : Nat) : List Nat :=
  (List.range Config.groupSlots).filter fun n => !(s.groups.any fun g => g.resident core && g.slot == n)

/-- A re-reservation on the core still to be granted: it comes before any admission (R277). -/
def rereserving (s : State) (core : Nat) : Bool := s.groups.any fun g => g.resident core && g.rereserve.isSome

/-- `more` cells of reservation fit in every section (R139). -/
def reserveFits (s : State) (core : Nat) (more : Nat → Nat) : Bool :=
  (List.range 8).all fun i => decide (reservedIn s core i (fun _ => true) + more i ≤ (s.core core).vsLimit)

/-- A field of a launch's shape word, or the physical figure (R338). -/
def shapeField (d : LaunchCmd) (lo w physical : Nat) : Nat :=
  match d.determ, d.shape with
  | true, some x => (x.extractLsb' lo w).toNat
  | _, _ => physical

/-- The slots a launch may use on a core now, of which it takes the lowest, in the order of its groups' numbers: no rule says which (R137;
DESIGN CHOICE, log 100). -/
def slotsFor (s : State) (core : Nat) (c : LaunchCmd) : List Nat :=
  let free := freeGroupSlots s core
  let most := shapeField c 28 6 Config.groupSlots
  free.take (most - (Config.groupSlots - free.length))

/-- Slots and value store fit `n` more groups whose slices need the given cells, within the launch's shape (R139, R339). -/
def coreFits (s : State) (core : Nat) (c : LaunchCmd) (n : Nat) (cells : Nat → Nat) : Bool :=
  let limit := min (s.core core).vsLimit (shapeField c 16 12 Config.sectionCells)
  decide (n ≤ (slotsFor s core c).length) &&
    (List.range 8).all fun i => decide (reservedIn s core i (fun _ => true) + cells i ≤ limit)

/-- They fit, and no re-reservation comes first (R277). -/
def coreAdmits (s : State) (core : Nat) (c : LaunchCmd) (n : Nat) (cells : Nat → Nat) : Bool :=
  !rereserving s core && coreFits s core c n cells

/-- Slots and value store for one spawned group of a launch (R139, R265). -/
def spawnRoom (s : State) (core grid : Nat) : Bool :=
  match s.grids[grid]? with
  | some d => coreAdmits s core d.cmd 1 fun _ => d.cmd.floor
  | none => false

/-- Slots and value store as R139 asks them, leaving aside that a re-reservation comes first (R277): what a refusal by R139 means in
R278. -/
def slotsAndCells (s : State) (core grid : Nat) : Bool :=
  match s.grids[grid]? with
  | some d => coreFits s core d.cmd 1 fun _ => d.cmd.floor
  | none => false

/-- A spawned group of a launch is admitted to a core (R139, R265), and a save area is left for it (R235; log 44). -/
def admits (s : State) (core grid : Nat) : Bool :=
  spawnRoom s core grid && (match s.grids[grid]? with | some d => decide (1 ≤ areasFree s d.part (dieOfCore core)) | none => false)

/-- A number rounded up to a multiple. -/
def roundUp (m n : Nat) : Nat := (n + m - 1) / m * m

/-- The scratchpad allocations held on a core. -/
def heldRanges (s : State) (core : Nat) : List (Nat × Nat) :=
  (s.teams.filter fun t => t.holds && t.core == core).map fun t => (t.base, t.size)

/-- A range is free of these allocations and below a limit. -/
def rangeFree (held : List (Nat × Nat)) (limit a n : Nat) : Bool :=
  decide (a + n ≤ limit) && held.all fun r => decide (r.1 + r.2 ≤ a) || decide (a + n ≤ r.1) || r.2 == 0

/-- The lowest free range of a size, aligned to `m` (R139, R251, R315). -/
def lowestRange (m : Nat) (held : List (Nat × Nat)) (limit n : Nat) : Option Nat :=
  let starts := (0 :: held.map fun r => roundUp m (r.1 + r.2)).filter fun a => rangeFree held limit a n
  match starts with
  | [] => none
  | a :: r => some (r.foldl min a)

/-- The next save area of a die's share of its partition's pool (R235; log 8). -/
def nextArea (s : State) (part die : Nat) : Nat :=
  let base := (poolShare s part die).1
  let used (a : Nat) : Bool := s.groups.any fun g => g.part == part && g.status != .gone && g.area == a
  base + Config.saveAreaBytes *
    (((List.range (s.groups.length + 1)).find? fun k => !used (base + Config.saveAreaBytes * k)).getD 0)

/-- A group at its start (R39, R46), its slices given. -/
def newGroup (s : State) (t : Team) (team core slot index : Nat) (prio : BitVec 4) (slices : Oct Slice) : Group :=
  let g : Group :=
    { part := t.part, grid := t.grid, panel := t.panel, team := team, core := core, index := index, slot := slot,
      admission := (s.core core).admissions, slices := slices, prio := prio, area := nextArea s t.part (dieOfCore core),
      spawned := t.spawned }
  ((g.setG 1 (BitVec.ofNat 64 (dieBase s g))).setG 2 (BitVec.ofNat 64 g.area)).setG 3 (BitVec.ofNat 64 t.base)

/-- The group-start records of groups admitted together (R370). -/
def recordStarts (s : State) (gids : List Nat) : State :=
  gids.foldl (fun s gid => match s.group gid with
    | some g => s.record gid 0 0 (g.slices.get 0).pc []
    | none => s) s

/-- A group put on its core. -/
def addGroup (s : State) (g : Group) : State :=
  let gid := s.groups.length
  let s := { s with groups := s.groups ++ [g] }
  (s.modTeam g.team fun t => { t with groups := t.groups ++ [gid] }).modCore g.core fun k => { k with admissions := k.admissions + 1 }

/-! ### `spawn` (R267, R268) -/

/-- The address of a lane's join counter (R268). -/
def joinOf (g : Group) (base : BitVec 6) (lane : Bool) (off : BitVec 16) (n : Nat) : Nat :=
  (g.g base + off.signExtend 64 + (if lane then BitVec.ofNat 64 (8 * n) else 0)).toNat

/-- A counter's address must lie in the panel's SRAM part, aligned to 8 (R266, R269). -/
def counterTrap (s : State) (g : Group) (a : Nat) (store : Bool) : Option Trap :=
  firstTrap [if a < 0x3000000 then some { cause := 7, arg := BitVec.ofNat 64 a } else (reach s g .clu a 8 store).trap a, alignTrap a 8]

/-- Threads of a queue that the overflow region holds for a die (R272). -/
def overflowUsed (s : State) (die : Nat) : Nat := ((s.cores.filter fun e => dieOfCore e.1 == die).map fun e => e.2.overflow).sum

/-- Threads the overflow region of a die can hold. -/
def overflowRoom (s : State) (part : Nat) : Nat := match tabGet? s.parts part with | some p => p.cfg.overSize / 32 | none => 0

/-- The overflow region of a core's die is full: it refuses further threads, whatever room the core has (R268, R272; log 43). -/
def regionFull (s : State) (part core : Nat) : Bool := decide (overflowRoom s part ≤ overflowUsed s (dieOfCore core))

/-- Entries of the queue the core itself holds (R272). -/
def inCoreThreads : Nat := 2048

/-- An arrival in a gather class (R273): its timeout starts again. -/
def Core.noteArrival (k : Core) (t : Thread) (now : Nat) : Core :=
  let same (x : Gather) : Bool := x.grid == t.grid && x.panel == t.panel && x.entry == t.entry && x.prio == t.prio
  { k with gathers :=
      if k.gathers.any same then k.gathers.map fun x => if same x then { x with last := now, expired := false } else x
      else k.gathers ++ [{ grid := t.grid, panel := t.panel, entry := t.entry, prio := t.prio, last := now }] }

/-- A thread joins a core's queue; with the core's own entries full it goes to the overflow region. -/
def Core.enqueue (k : Core) (t : Thread) (now : Nat) : Core :=
  let spills := k.overflow != 0 || decide (inCoreThreads ≤ k.threads.length)
  ({ k with threads := k.threads ++ [t], overflow := if spills then k.overflow + 1 else k.overflow } : Core).noteArrival t now

/-- The cluster-clock cycle of a core (R273). -/
def cycleOf (s : State) (core : Nat) : Nat := (s.cluster (clusterOfCore core)).cycles.toNat

/-- One participating lane of a `spawn` (R268): its tests in order, then its counter and its thread, and its outcome. -/
def spawnLane (s : State) (c : Issue) (qd : BitVec 4) (a : Src) (entry : Word32) (n k : BitVec 3) (join : Option Nat)
    (i l : Nat) : State :=
  let core := c.g.core
  let sl := c.g.slices.get i
  let depth := (sl.spawned.get l).depth
  let full := regionFull s c.g.part core
  let place := match join with | some j => placeOf s c.g .clu j | none => none
  let most := match place with | some x => objCount (memReadN s.mem x 8) == 2 ^ 48 - 1 | none => false
  let out (s : State) (b : Bool) : State := s.modGroup c.gid fun g => g.modSlice i fun sl => sl.setQ l qd b
  if depth = 8 || full || most then out s false
  else
    let s := match place with | some x => s.setMem (memWriteN s.mem x 8 (memReadN s.mem x 8 + 1)) | none => s
    let t : Thread :=
      { grid := c.g.grid, panel := c.g.panel, entry := entry, prio := c.g.prio, depth := depth + 1, join := join,
        payload := (List.range n.toNat).map fun e => sl.datum l (a.name.toNat + e), uses := k }
    out (s.modCore core fun q => q.enqueue t (cycleOf s core)) true

/-- `spawn` (R267, R268, R280): a release, so it acts once the group's earlier accesses are performed. -/
def execSpawn (p : Pred) (qd : BitVec 4) (a : Src) (entry : BitVec 20) (base : BitVec 6) (n k : BitVec 3)
    (lane nj : Bool) (off : BitVec 16) (s : State) : Result :=
  match issueOf s with
  | none => .next s
  | some c => .next <|
    let goal := joinAddr c.pc entry
    let rs := (List.range n.toNat).map fun e => (⟨p, { a with name := a.name + BitVec.ofNat 9 e }⟩ : NameRead)
    let join (x : Nat × Nat) : Option Nat := if nj then none else some (joinOf c.g base lane off (4 * x.1 + x.2))
    let check := (c.lanes p).findSome? fun x => match join x with | some j => counterTrap s c.g j true | none => none
    laneStep s c rs [] (firstTrap [check, trapIf (!targetOk (s.codeOf c.g).2 goal) 1]) (fun _ =>
      if c.mustFollow s .rel [] then .ok (c.hold s [])
      else (c.commit s rs [] fun _ => 0).map fun s =>
        settleWaits (c.advance ((c.lanes p).foldl (fun s x => spawnLane s c qd a goal n k (join x) x.1 x.2) s) 12 priceLane))
      (if nj then [] else [base])

/-! ### `jinit` and `jwait` (R269 to R271) -/

/-- The bytes `.lane` adds to a lane's address. -/
def laneStride (lane : Bool) (n : Nat) : Nat := if lane then 8 * n else 0

/-- The trap of the first participating lane whose counter is out of place. -/
def joinTrap (s : State) (c : Issue) (p : Pred) (m : Mem) (lane store : Bool) : Option Trap :=
  (c.lanes p).findSome? fun x =>
    counterTrap s c.g (laneAddr c.g m x.1 x.2 + laneStride lane (4 * x.1 + x.2)) store

/-- `jinit` (R270). -/
def execJinit (p : Pred) (m : Mem) (lane : Bool) (s : State) : Result :=
  match issueOf s with
  | none => .next s
  | some c => .next <|
    let rs := memReads p m
    laneStep s c rs [] (joinTrap s c p m lane true) (fun _ =>
      let ws := namedWords s c p m (laneStride lane)
      if c.mustFollow s .store (ws.map fun w => (w.2.1, 8)) then .ok (c.hold s [])
      else (c.commit s rs [] fun _ => 0).map fun s =>
        settleWaits (c.sampleLanes (c.advance (s.setMem (ws.foldl (fun mem w => memWriteN mem w.2.1 8 0) s.mem)) 12 priceLane) p m 1
          (laneStride lane))) [m.base]

/-- `jwait` (R271, R276). -/
def execJwait (p : Pred) (m : Mem) (lane : Bool) (d : Option Dst) (s : State) : Result :=
  waitStep s p m d (laneStride lane) true false (fun c => (joinTrap s c p m lane false, c.pc, c.pc + 12)) checkJoin

/-! ### Gathering (R272, R273, R282) -/

/-- A thread's gather class. -/
def Gather.has (x : Gather) (t : Thread) : Bool := x.grid == t.grid && x.panel == t.panel && x.entry == t.entry && x.prio == t.prio

/-- The places in the queue of a class's threads, oldest first, at most 32 (R273). -/
def classThreads (k : Core) (x : Gather) : List Nat :=
  ((k.threads.zipIdx.filter fun t => x.has t.1).map fun t => t.2).take 32

/-- A deterministic launch. -/
def determGrid (s : State) (grid : Nat) : Bool := match s.grids[grid]? with | some d => d.cmd.determ | none => false

/-- Every live slice of a group waits for something a program waits on (R151). -/
def Group.allWait (g : Group) : Bool := g.liveSlices.all fun i => g.waiting [i]

/-- The instruction a gang holds, decoded (R87). -/
def heldInstr (s : State) (g : Group) (gang : BitVec 3) : Option (Except Reject Instr) :=
  match g.gangSlices gang with
  | [] => none
  | i :: _ =>
    let (code, size) := s.codeOf g
    some ((fetchAt code size g.priv (g.slices.get i).pc).map fun x => x.1)

/-- The gang numbers of a group that have an active lane, ascending. -/
def Group.gangs (g : Group) : List (BitVec 3) :=
  ((List.range 8).map (BitVec.ofNat 3)).filter fun n => !(g.gangSlices n).isEmpty

/-- A gang waits in `regang` or a rendezvous. -/
def Group.meets (g : Group) (n : BitVec 3) : Bool :=
  g.waits.any fun w => w.priv == g.priv && (match w.kind with | .regang _ | .rendezvous _ false => true | _ => false) &&
    (g.gangSlices n).any fun i => w.slices.getLsbD i

/-- The gang a group of a deterministic launch issues from (R151). -/
def Group.lead (g : Group) : Option (BitVec 3) := g.gangs.find? fun n => !g.meets n

/-- A gang of a group waits on an instruction, not for a floor raise alone (R151). -/
def Group.waitsOn (g : Group) (is : List Nat) : Bool :=
  ({ g with waits := g.waits.filter fun w => match w.kind with | .floorRaise _ => false | _ => true } : Group).waiting is

/-- A group waits on an instruction that is a switch point: its leading gang waits in one, or holds an `mzero` that waits for ownership
(R151, R198). A gang that waits for a floor raise only stalls its group. -/
def switchWaits (s : State) (g : Group) : Bool :=
  match g.lead with
  | none => true
  | some n => g.waitsOn (g.gangSlices n) ||
      (match heldInstr s g n with | some (.ok (.mzero p ea)) => claimWaits s g n p ea | _ => false)

/-- Every group of a launch on a core waits (R282). -/
def launchWaits (s : State) (core grid : Nat) : Bool :=
  (s.groups.filter fun g => g.resident core && g.grid == grid && g.counts).all (switchWaits s)

/-- A class can form a group (R273, R282); while its panel is being saved its threads stay queued, to be kept with the panel (R281). -/
def canForm (s : State) (core : Nat) (x : Gather) : Bool :=
  let n := (classThreads (s.core core) x).length
  (s.panel x.panel).status == .resident && (n == 32 || (n != 0 && (if determGrid s x.grid then launchWaits s core x.grid else
    x.expired || decide (x.last + Config.gatherCycles ≤ cycleOf s core))))

/-- The class that forms first: of those that can, the one whose oldest thread is oldest (R273). -/
def nextClass (s : State) (core : Nat) : Option Gather :=
  let k := s.core core
  let xs := k.gathers.filter (canForm s core)
  (k.threads.findSome? fun t => xs.find? fun x => x.has t)

/-- Threads taken out of a queue by place; the overflow region gives up those it held. -/
def Core.takeThreads (k : Core) (taken : List Nat) : Core :=
  let inCore := k.threads.length - k.overflow
  let threads := (k.threads.zipIdx.filter fun t => !taken.contains t.2).map fun t => t.1
  { k with
    threads := threads
    overflow := k.overflow - (taken.filter fun i => decide (inCore ≤ i)).length
    gathers := k.gathers.filter fun x => threads.any x.has }

/-- The slices of a spawned group (R46, R265): lane n holds the n-th thread. -/
def spawnedSlices (entry : Word32) (ts : List Thread) : Oct Slice :=
  .make fun i =>
    let there (l : Nat) : Bool := decide (4 * i + l < ts.length)
    let bits (f : Nat → Bool) : BitVec 4 := BitVec.ofNat 4 (((List.range 4).map fun l => if f l then 2 ^ l else 0).sum)
    let th (l : Nat) : Option Thread := ts[4 * i + l]?
    let names := (List.range 4).filterMap fun e =>
      let has (l : Nat) : Bool := match th l with | some t => decide (e < t.payload.length) | none => false
      if bits has = 0 then none
      else some (e, ({
        data := .make fun l => match th l with | some t => t.payload.getD e 0 | none => 0
        count := .make fun l => match th l with | some t => if has l then t.uses else 0 | none => 0
        pin := .make fun l => match th l with | some t => has l && t.uses == 0 | none => false
        full := false, spilled := true } : Cell))
    { pc := entry, mask := bits there, exited := ~~~bits there, names := names
      spawned := .make fun l => match th l with | some t => { depth := t.depth, join := t.join } | none => {} }

/-- A spawned group formed and admitted in one step (R265, R273); a slice that waits for its entry's floor raise parts from those that do
not (R31, R147). -/
def formGroup (s : State) (core slot : Nat) (x : Gather) : State :=
  let k := s.core core
  let taken := classThreads k x
  let ts := taken.filterMap fun i => k.threads[i]?
  let part := match s.grids[x.grid]? with | some d => d.part | none => 0
  let team : Team := { part := part, grid := x.grid, panel := x.panel, index := 0xFFFFFFFF, core := core, status := .resident,
                       quantum := s.gtime.toNat, spawned := true }
  let tid := s.teams.length
  let gid := s.groups.length
  let s := { (s.setCore core (k.takeThreads taken)) with teams := s.teams ++ [team] }
  let slices := spawnedSlices x.entry ts
  let seen := (s.cluster (clusterOfCore core)).boundLog.length
  let paid := ts.any fun t => !t.payload.isEmpty
  let g := { newGroup s team tid core slot 0 x.prio slices with formed := k.formations, payload := paid, boundSeen := [(clusterOfCore core, seen)] }
  let s := (recordStarts (addGroup s g) [gid]).modCore core fun k => { k with formations := k.formations + 1 }
  let (code, size) := s.codeOf g
  wakeCore ((pushFloors s gid (g.liveSlices.map fun i => (i, x.entry)) code size).modGroup gid Group.splitGangs) core 3

/-- GROUP_FORMATION (R273, R282): the class forms, when it is the first that can and R139 admits its group. -/
def execGroupFormation (core cls : Nat) (s : State) : Result :=
  .next <|
    match (s.core core).gathers[cls]?, nextClass s core, freeGroupSlots s core with
    | some x, some y, slot :: _ => if x = y && admits s core x.grid then formGroup s core slot x else s
    | _, _, _ => s

/-- GATHER_TIMEOUT (R273): 256 cluster cycles have passed since the class's latest arrival. -/
def execGatherTimeout (core cls : Nat) (s : State) : Result :=
  .next <|
    match (s.core core).gathers[cls]? with
    | some x =>
      if x.last + Config.gatherCycles ≤ cycleOf s core then
        s.modCore core fun k => { k with gathers := k.gathers.set cls { x with expired := true } }
      else s
    | none => s

/-- SPAWN_OVERFLOW_RETURN (R272): the oldest spilled thread returns to the core when there is room. -/
def execSpawnOverflowReturn (core : Nat) (s : State) : Result :=
  let k := s.core core
  .next (if k.overflow != 0 && decide (k.threads.length - k.overflow < inCoreThreads) then
    s.setCore core { k with overflow := k.overflow - 1 } else s)

/-- The payload names of a slice whose cells are still to be taken, lowest first (R265). -/
def Slice.payloadWaits (sl : Slice) : List Nat :=
  (List.range 4).filter fun e => match sl.cell e with
    | some c => !c.full && c.spilled && c.failed.isNone && c.producer == 0
    | none => false

/-- A payload cell taken, and full: a free cell or one granted; else, where the store can spill a victim for it, that begins (R145). -/
def takePayload (s : State) (group i e : Nat) : State :=
  match s.group group with
  | none => s
  | some g =>
    match (g.slices.get i).cell e with
    | none => s
    | some c =>
      if cellsFor s g.core group i = 0 then seekCells s g.core group i 1
      else
        let k := s.core g.core
        let s := s.modGroup group fun g => g.modSlice i fun sl =>
          { sl with names := tabSet sl.names e { c with full := true, spilled := false, stamp := 16 * k.stamp + e } }
        wakeCore (s.setCore g.core { k with stamp := k.stamp + 1, grants := k.grants.erase (group, i) }) g.core 3

/-- PAYLOAD_ARRIVAL (R145, R265, R279): each slice's next payload cell is taken, cell by cell; what a section cannot supply waits. -/
def execPayloadArrival (group : Nat) (s : State) : Result :=
  match s.group group with
  | none => .next s
  | some g => .next <|
    if !g.payload || g.status != .live then s
    else
      let s := (List.range 8).foldl (fun s i => ((g.slices.get i).payloadWaits.take 1).foldl (fun s e => takePayload s group i e) s) s
      s.modGroup group fun g => { g with payload := (List.range 8).any fun i => !(g.slices.get i).payloadWaits.isEmpty }

/-! ### Stealing (R274, R275) -/

/-- The places of a queue's stealable threads. -/
def stealable (s : State) (k : Core) : List Nat := (k.threads.zipIdx.filter fun t => !determGrid s t.1.grid).map fun t => t.2

/-- Launches with a panel on a cluster. -/
def gridsOn (s : State) (cluster : Nat) : List Nat :=
  ((s.panels.filter fun p => p.cluster == cluster && p.status == .resident).map fun p => p.grid).eraseDups

/-- A core is idle for R274. -/
def idleCore (s : State) (core : Nat) : Bool :=
  (s.core core).threads.isEmpty && (gridsOn s (clusterOfCore core)).any fun d => admits s core d

/-- The victim of an idle core: most stealable threads, then the lower `%core`. -/
def victimOf (s : State) (core : Nat) : Option Nat :=
  let c := clusterOfCore core
  let load (k : Nat) : Nat := (stealable s (s.core k)).length
  let cores := ((List.range Config.coresPerCluster).map fun i => c * Config.coresPerCluster + i).filter fun k =>
    k != core && decide (2 ≤ load k)
  match cores with
  | [] => none
  | k :: r => some (r.foldl (fun a b => if load a < load b then b else a) k)

/-- THREAD_STEAL (R274): the oldest half of the victim's stealable threads; a group the victim can form there forms first, and an idle
core of lower number with the same victim comes before (R275). -/
def execThreadSteal (core : Nat) (s : State) : Result :=
  .next <|
    match idleCore s core, victimOf s core with
    | true, some v =>
      let formsFirst := match nextClass s v with | some x => admits s v x.grid | none => false
      let lower := (List.range (core % Config.coresPerCluster)).map fun i => core - core % Config.coresPerCluster + i
      if formsFirst || lower.any (fun k => idleCore s k && victimOf s k == some v) then s
      else
        let k := s.core v
        let all := stealable s k
        let taken := all.take (all.length / 2)
        let ts := taken.filterMap fun i => k.threads[i]?
        let s := s.setCore v (k.takeThreads taken)
        let now := cycleOf s core
        wakeCore (s.modCore core fun q => ts.foldl (fun q t => q.enqueue t now) q) core 3
    | _, _ => s

/-! ### Re-reservation and parking (R276 to R278) -/

/-- RE_RESERVATION (R277): the oldest request of the core is granted once its whole reservation fits; its wake has code 6 (the model's
choice, log 75). -/
def execReReservation (core : Nat) (s : State) : Result :=
  let asks := s.groups.zipIdx.filter fun e => e.1.resident core && e.1.rereserve.isSome
  .next <|
    match asks with
    | [] => s
    | a :: r =>
      let first := r.foldl (fun x y => if y.1.rereserve.getD 0 < x.1.rereserve.getD 0 then y else x) a
      if reserveFits s core fun i => reservationOf s { first.1 with unreserved := false } i then
        wakeCore (s.modGroup first.2 fun g => { g with rereserve := none, unreserved := false }) core 6
      else s

/-- A group that waits in `jwait` only, and has not been asked to leave. -/
def Group.parkable (g : Group) : Bool := g.status == .live && !g.priv && !g.wantPreempt && g.allJoin

/-- The youngest team of a core every live group of which waits in `jwait` (R278). -/
def parkVictim (s : State) (core : Nat) : Option Nat :=
  let live (t : Team) : List Group := (t.groups.filterMap s.group).filter Group.counts
  let age (t : Team) : Nat := ((live t).map fun g => g.admission).foldl max 0
  let ts := (s.teams.zipIdx.filter fun e =>
    e.1.core == core && e.1.status == .resident && !(live e.1).isEmpty && (live e.1).all Group.parkable)
  match ts with
  | [] => none
  | t :: r => some (r.foldl (fun a b => if age a.1 < age b.1 then b else a) t).2

/-- In a deterministic launch, the group that holds the core's issue has reached a switch point (R282). -/
def atSwitch (s : State) (core grid : Nat) : Bool :=
  !determGrid s grid ||
    s.groups.all fun g => !(g.resident core && g.grid == grid && g.holdsIssue) || g.status != .live || switchWaits s g

/-- TEAM_PARK (R278): a class could form but slots or reservations are lacking, and a team of waiting parents can make room. -/
def execTeamPark (core cls : Nat) (s : State) : Result :=
  .next <|
    match (s.core core).gathers[cls]?, parkVictim s core with
    | some x, some t =>
      if canForm s core x && !slotsAndCells s core x.grid && atSwitch s core x.grid then
        askSave (s.modTeam t fun t => { t with parking := true }) t 1
      else s
    | _, _ => s

end Sys2Proof.Machine
end

