-- ==== Sys2Proof/Machine/Edges.lean ====
section
/-! DEFINITION. Edge-reversal mode (R283 to R296): task lists, their checks, and `edgeseed`, `edgechk`, `edgewait`, `edgeflip`,
`edgepass`. -/

namespace Sys2Proof.Machine

/-- An address in the panel's SRAM part, aligned to 8, with `n` bytes there (R286). -/
def sramTrap (s : State) (g : Group) (a n : Nat) : Option Trap :=
  if a < 0x3000000 then some { cause := 7, arg := BitVec.ofNat 64 a }
  else firstTrap [(reach s g .clu a n false).trap a, alignTrap a 8]

/-- A word of a task list: `n` bytes at a `clu` address. -/
def sramRead (s : State) (g : Group) (a n : Nat) : Nat :=
  match reach s g .clu a n false with
  | .at x => memReadN s.mem x n
  | _ => 0

/-- The number of edges of a list (R284). -/
def listCount (s : State) (g : Group) (a : Nat) : Nat := sramRead s g a 4
/-- The task of a list. -/
def listTask (s : State) (g : Group) (a : Nat) : Nat := sramRead s g (a + 4) 4
/-- A legal number of edges. -/
def countLegal (n : Nat) : Bool := decide (1 ≤ n) && decide (n ≤ 64)

/-- The edges of a list, in list order; none when its count is out of range. -/
def listEdges (s : State) (g : Group) (a : Nat) : List EdgeItem :=
  let n := listCount s g a
  if countLegal n then
    (List.range n).map fun i => { addr := sramRead s g (a + 8 + 4 * i) 4, task := listTask s g a, list := a }
  else []

/-- The lists the participating lanes name, in the order of R286. -/
def namedLists (c : Issue) (p : Pred) (m : Mem) : List Nat := (namedAddrs c p m fun _ => 0).map fun x => x.1

/-- The edges of the lists an instruction names, in their positions (R288). -/
def namedEdges (s : State) (c : Issue) (p : Pred) (m : Mem) : List EdgeItem := (namedLists c p m).flatMap (listEdges s c.g)

/-- The scratchpad-bounds traps of R286. -/
def listTrap (s : State) (c : Issue) (p : Pred) (m : Mem) : Option Trap :=
  (namedLists c p m).findSome? fun a =>
    match sramTrap s c.g a 8 with
    | some t => some t
    | none =>
      let n := listCount s c.g a
      if countLegal n then
        firstTrap (sramTrap s c.g a (8 + 4 * n) :: (listEdges s c.g a).map fun e => sramTrap s c.g e.addr 8)
      else none

/-- The edge-cycle trap (R291). -/
def edgeTrap (sub a : Nat) : Trap := { cause := 10, sub := sub, arg := BitVec.ofNat 64 a }

/-- The word of an edge. -/
def edgeWord (s : State) (g : Group) (e : EdgeItem) : Nat := sramRead s g e.addr 8

/-- The task an edge does not point to. -/
def edgeOther (w : Nat) : Nat := if edgeToB w then edgeA w else edgeB w

/-- Tasks reached from a set along directed edges, `fuel` rounds. -/
def reachTasks (arcs : List (Nat × Nat)) : Nat → List Nat → List Nat
  | 0, seen => seen
  | n + 1, seen =>
    let new := ((arcs.filter fun a => seen.contains a.1 && !seen.contains a.2).map fun a => a.2).eraseDups
    if new.isEmpty then seen else reachTasks arcs n (seen ++ new)

/-- The first edge on a directed cycle (R288). -/
def cycleTrap (s : State) (g : Group) (es : List EdgeItem) : Option Trap :=
  let arcs := es.map fun e => let w := edgeWord s g e; (edgeOther w, edgeHolder w)
  (es.zip arcs).findSome? fun x =>
    if (reachTasks arcs (arcs.length + 1) [x.2.2]).contains x.2.1 then some (edgeTrap 0 x.1.addr) else none

/-- Sub-cause 1 (R291): the first ill-formed header or edge word. -/
def formTrap (s : State) (c : Issue) (p : Pred) (m : Mem) : Option Trap :=
  (namedLists c p m).findSome? fun a =>
    if !countLegal (listCount s c.g a) || decide (2 ^ 24 ≤ listTask s c.g a) then some (edgeTrap 1 a)
    else (listEdges s c.g a).findSome? fun e => if edgeOk (edgeWord s c.g e) then none else some (edgeTrap 1 e.addr)

/-- Sub-cause 2 (R291): the first edge that does not name its list's task. -/
def nameTaskTrap (s : State) (g : Group) (es : List EdgeItem) : Option Trap :=
  es.findSome? fun e =>
    let w := edgeWord s g e
    if e.task = edgeA w || e.task = edgeB w then none else some (edgeTrap 2 e.addr)

/-- The frame of the edge instructions (R286): the lists are read once earlier accesses to them are performed; `checks` are those of
R291 beyond the bounds, given the edges in position. -/
def edgeStep (s : State) (p : Pred) (m : Mem) (kind : AccessKind) (whole : Bool) (checks : Issue → List EdgeItem → Option Trap)
    (act : Issue → State → List EdgeItem → State) : Host.Outcome State Fault Refusal :=
  match issueOf s with
  | none => .next s
  | some c => .next <|
    let rs := memReads p m
    let es := namedEdges s c p m
    let places := (namedLists c p m).flatMap fun a => match reach s c.g .clu a 8 false with
      | .at x => [(x, 8 + 4 * listCount s c.g a % 512)]
      | _ => []
    let words := es.filterMap fun e => (placeOf s c.g .clu e.addr).map fun x => (x, 8)
    let held := !(namedLists c p m).isEmpty &&
      (c.mustFollow s .load (places ++ words) || c.mustFollow s kind (if whole then [] else words))
    laneStep s c rs [] (if held then none else firstTrap [listTrap s c p m, checks c es]) (fun _ =>
      if held then .ok (c.hold s [])
      else (c.commit s rs [] fun _ => 0).map fun s =>
        if es.isEmpty then c.advance s 12 priceLane else settleWaits (act c s es)) [m.base]

/-- `edgeseed` (R287): every edge turned toward its lower task. -/
def execEdgeseed (p : Pred) (m : Mem) (s : State) : Result :=
  edgeStep s p m .store false (fun c _ => formTrap s c p m) fun c s es =>
    c.advance (s.setMem ((edgeOrder es).foldl (fun mem e =>
      match placeOf s c.g .clu e.addr with
      | some a => let w := memReadN mem a 8; memWriteN mem a 8 (edgeTurn w (decide (edgeB w < edgeA w)))
      | none => mem) s.mem)) 12 priceLane

/-- `edgechk` (R288): an ill-formed edge outside the cycle test's own sub-cause does not hide a cycle (R291). -/
def execEdgechk (p : Pred) (m : Mem) (s : State) : Result :=
  edgeStep s p m .load false (fun c es => firstTrap [cycleTrap s c.g es, formTrap s c p m]) fun c s _ => c.advance s 12 priceLane

/-- The gang waits for its edges; those that point to their tasks already are seen (R289). -/
def Issue.awaitEdges (c : Issue) (s : State) (es : List EdgeItem) (pass : Bool) (undo : List (Nat × Nat × Cell)) : State :=
  c.await s (.edges (es.map (EdgeItem.look s c.g)) pass) priceLane undo

/-- The index cells of an instruction as its slices hold them before its issue: slice, name and cell. -/
def Issue.indexCells (c : Issue) (m : Mem) : List (Nat × Nat × Cell) :=
  match m.idx with
  | none => []
  | some x => c.sls.filterMap fun i => ((c.g.slices.get i).cell x.name.toNat).map fun k => (i, x.name.toNat, k)

/-- `edgewait` (R289). -/
def execEdgewait (p : Pred) (m : Mem) (s : State) : Result :=
  edgeStep s p m .acq true (fun c es => firstTrap [formTrap s c p m, nameTaskTrap s c.g es]) fun c s es =>
    c.awaitEdges s es false []

/-- `edgeflip` (R290): the holding check, then every edge turned away. -/
def execEdgeflip (p : Pred) (m : Mem) (s : State) : Result :=
  edgeStep s p m .rel true (fun c es => firstTrap [formTrap s c p m, nameTaskTrap s c.g es, notHeld s c.g es]) fun c s es =>
    c.advance (flipEdges s c.g es) 12 priceLane

/-- `edgepass` (R290): it waits as `edgewait` does; the flip is made at the release. -/
def execEdgepass (p : Pred) (m : Mem) (s : State) : Result :=
  edgeStep s p m .load false (fun c es => firstTrap [formTrap s c p m, nameTaskTrap s c.g es]) fun c s es =>
    c.awaitEdges s es true (c.indexCells m)

end Sys2Proof.Machine
end

