-- ==== Sys2Proof/Machine/Bounds.lean ====
section
/-! DEFINITION. Bound words (R257 to R260): `bcast`, the bound unit and the mirrors. -/

namespace Sys2Proof.Machine

/-- The better of two bound values, read by type (R259). -/
def boundPick (isMax sgn : Bool) (x y : Word64) : Word64 :=
  let less := if sgn then decide (x.toInt < y.toInt) else decide (x.toNat < y.toNat)
  if less == isMax then y else x

/-- The contribution of the participating lanes (R259); none without one. -/
def boundContribution (c : Issue) (p : Pred) (a : Src) (isMax sgn : Bool) : Option Word64 :=
  (c.lanes p).foldl (fun m x =>
    let v := BitVec.ofNat 64 ((c.g.slices.get x.1).value true x.2 a.name)
    match m with
    | none => some v
    | some w => some (boundPick isMax sgn w v)) none

/-- `bcast` (R259): a release, sent to the bound unit once the group's earlier accesses are performed. -/
def bcastStep (s : State) (p : Pred) (a : Src) (isMax sgn : Bool) (j : BitVec 3) : Host.Outcome State Fault Refusal :=
  match issueOf s with
  | none => .next s
  | some c => .next <|
    let rs := readsOf p true a
    laneStep s c rs [] none fun _ =>
      if c.mustFollow s .rel [] then .ok (c.hold s [])
      else (c.commit s rs [] fun _ => 0).map fun s =>
        let s := match boundContribution c p a isMax sgn with
          | none => s
          | some v => s.modCluster (clusterOfCore c.g.core) fun k =>
              { k with boundQueue := k.boundQueue ++
                  [{ core := c.g.core, group := c.gid, word := j.toNat, isMax := isMax, sgn := sgn, value := v }] }
        c.advance s 12 priceLane

/-- `bcast.min` (R258, R259). -/
def execBcastMin (p : Pred) (a : Src) (sgn : Bool) (j : BitVec 3) (s : State) : Result := bcastStep s p a false sgn j
/-- `bcast.max` (R258, R259). -/
def execBcastMax (p : Pred) (a : Src) (sgn : Bool) (j : BitVec 3) (s : State) : Result := bcastStep s p a true sgn j

/-- A bound word written at the unit: a change enters the log that the mirrors follow (R260). -/
def Cluster.setBound (k : Cluster) (j : Nat) (v : Word64) : Cluster :=
  if k.bounds.getD j 0 = v then k else { k with bounds := k.bounds.set j v, boundLog := k.boundLog ++ [(j, v)] }

/-- BOUND_UNIT_UPDATE (R259): the oldest update is applied; the flips that waited for it are made (R290). -/
def execBoundUnitUpdate (cluster : Nat) (s : State) : Result :=
  let k := s.cluster cluster
  .next <|
    match k.boundQueue with
    | [] => s
    | u :: r =>
      let k := ({ k with boundQueue := r } : Cluster).setBound u.word (boundPick u.isMax u.sgn (k.bounds.getD u.word 0) u.value)
      settleWaits ((s.setCluster cluster k).modGroup u.group fun g => { g with boundSeen := tabSet g.boundSeen cluster k.boundLog.length })

/-- BOUND_MIRROR_UPDATE (R260): a core's mirror shows the next change of its cluster. -/
def execBoundMirrorUpdate (core : Nat) (s : State) : Result :=
  let k := s.core core
  .next <|
    match (s.cluster (clusterOfCore core)).boundLog[k.mirrorPos]? with
    | none => s
    | some u => wakeCore (s.setCore core { k with mirror := k.mirror.set u.1 u.2, mirrorPos := k.mirrorPos + 1 }) core 5

end Sys2Proof.Machine
end

