-- ==== Sys2Proof/Machine/Launch.lean ====
section
/-! DEFINITION. What a launch must satisfy (R24, R336, R338, R352), how its code and the handler image are read, and how a grid comes
to be. -/

namespace Sys2Proof.Machine

/-! ### Reading memory through a partition's tables -/

/-- Where a virtual address of a partition leads, by its tables alone (R320 to R323; log 8). -/
def physOf (s : State) (part v : Nat) : Option Nat :=
  match tabGet? s.parts part with
  | none => none
  | some p =>
    if pinned p.cfg v then some v
    else match walkPage s part (v / 4096) with
      | .page e => some ((e.frame + (v / 4096 - e.page)) * 4096 + v % 4096)
      | .fault _ => none

/-- At most `n` pages of a partition's memory from an address on, as an image from offset `off`; an unmapped page reads as 0. -/
def readPages (s : State) (part v off len : Nat) : Nat → Memory
  | 0 => []
  | n + 1 =>
    if len = 0 then []
    else
      let k := min len (4096 - v % 4096)
      let here := match physOf s part v with
        | some a => (memCut s.mem a k).map fun e => (e.1 + off, e.2)
        | none => []
      here ++ readPages s part (v + k) (off + k) (len - k) n

/-- `len` bytes of a partition's memory from a virtual address. -/
def readImage (s : State) (part v len : Nat) : Memory := readPages s part v 0 len (len / 4096 + 2)

/-! ### What a launch must satisfy -/

/-- A field of a shape word (R338). -/
def shapeBits (w : BitVec 64) (lo n : Nat) : Nat := (w.extractLsb' lo n).toNat

/-- The shape word of the physical device (R3, R338). -/
def physicalShape : BitVec 64 :=
  BitVec.ofNat 64 (12 * 2 ^ 44 + 2 * 2 ^ 42 + 8 * 2 ^ 38 + 12 * 2 ^ 34 + 48 * 2 ^ 28 + 3072 * 2 ^ 16)

/-- A shape word within its ranges (R338). -/
def shapeOk (w : BitVec 64) : Bool :=
  shapeBits w 48 16 == 0 && shapeBits w 0 16 == 0 &&
    [(44, 4, 12), (42, 2, 2), (38, 4, 8), (34, 4, 12), (28, 6, 48), (16, 12, 3072)].all fun f =>
      decide (1 ≤ shapeBits w f.1 f.2.1) && decide (shapeBits w f.1 f.2.1 ≤ f.2.2)

/-- The values of R24. -/
def attributesOk (c : LaunchCmd) : Bool :=
  decide (1 ≤ c.floor ∧ c.floor ≤ 512 ∧ c.floor * 8 * c.groups ≤ 24576) && decide (1 ≤ c.groups ∧ c.groups ≤ 16) &&
    decide (c.teamBytes ≤ Config.coreBytes ∧ c.teamBytes % 256 = 0 ∧ c.coreImage.length ≤ c.teamBytes) &&
    decide (1 ≤ c.rows ∧ c.rows ≤ 8 ∧ 1 ≤ c.cols ∧ c.cols ≤ 12 ∧ c.rows * c.cols ≤ 12) &&
    decide (c.sramBytes ≤ Config.sramBytes ∧ c.sramBytes % 4096 = 0) && decide (1 ≤ c.panels ∧ c.panels < 2 ^ 32) &&
    decide (c.dieBytes % 4096 = 0 ∧ paramExtent c + c.dieBytes ≤ Config.dieBytes) &&
    decide (1 ≤ c.minDies ∧ c.minDies ≤ c.maxDies ∧ c.maxDies ≤ 12) && decide (c.prio ≤ 15) &&
    c.bounds.all fun b => decide (b.1 < 8)

/-- The refusals of deterministic mode (R352). -/
def determOk (c : LaunchCmd) : Bool :=
  match c.determ, c.shape with
  | true, some w =>
    shapeOk w && decide (c.floor * c.groups ≤ shapeBits w 16 12) && decide (c.groups ≤ shapeBits w 28 6) &&
      decide (c.rows ≤ shapeBits w 38 4) && decide (c.cols ≤ shapeBits w 34 4) &&
      decide ((shapeBits w 44 4 + c.minDies - 1) / c.minDies * (paramExtent c + c.dieBytes) ≤ Config.dieBytes)
  | _, _ => true

/-- A launch that a partition accepts (R336, R352). -/
def launchOk (cfg : PartitionCfg) (c : LaunchCmd) : Bool :=
  attributesOk c && determOk c && targetOk c.codeSize (BitVec.ofNat 32 c.entry) && decide (c.entry < 2 ^ 32) &&
    decide (c.minDies ≤ cfg.dies.length) && decide (c.floor * c.groups ≤ cfg.vsLimit)

/-- The launch as the device takes it: a deterministic one without a shape word gets the physical device's (R338). -/
def resolveShape (c : LaunchCmd) : LaunchCmd :=
  if c.determ then { c with shape := some (c.shape.getD physicalShape) } else { c with shape := none }

/-- A kernel's attributes with a launch's overrides (R24, R352). -/
def overridden (o : Overrides) (a : KernelAttrs) : KernelAttrs :=
  { floor := o.floor.getD a.floor, groups := o.groups.getD a.groups, teamBytes := o.teamBytes.getD a.teamBytes,
    rows := o.rows.getD a.rows, cols := o.cols.getD a.cols, sramBytes := o.sramBytes.getD a.sramBytes,
    panels := o.panels.getD a.panels, dieBytes := o.dieBytes.getD a.dieBytes, minDies := o.minDies.getD a.minDies,
    maxDies := o.maxDies.getD a.maxDies, prio := o.prio.getD a.prio, determ := o.determ.getD a.determ }

/-- A section of an image, from the partition's memory (R19). -/
def sectionBytes (s : State) (part a n : Nat) : List Byte := memBytes (readImage s part a n) 0 n

/-- A parameter block with bytes replaced from its beginning on; its length stays (R20, R352; log 77). -/
def replaced (block bytes : List Byte) : List Byte := bytes.take block.length ++ block.drop bytes.length

/-- A launch command as the device takes it (R20, R338, R352): the kernel from the image's entry table with its overrides, the sections
from the partition's memory, the parameter bytes as the command replaces them (log 77). -/
def resolveLaunch (s : State) (part : Nat) (b : LaunchBody) : Option LaunchCmd :=
  (b.image.kernels[b.kernel]?).map fun k =>
    let a := overridden b.changes k.2
    resolveShape
      { image := b.image.code, codeSize := b.image.codeSize, entry := k.1,
        param := replaced (sectionBytes s part b.image.param b.image.paramSize) (b.param.getD []),
        const := sectionBytes s part b.image.const b.image.constSize, coreImage := sectionBytes s part b.image.core b.image.coreSize,
        floor := a.floor, groups := a.groups, teamBytes := a.teamBytes, rows := a.rows, cols := a.cols, sramBytes := a.sramBytes,
        panels := a.panels, dieBytes := a.dieBytes, minDies := a.minDies, maxDies := a.maxDies, prio := a.prio, determ := a.determ,
        bounds := b.bounds, shape := b.shape }

/-! ### A grid comes to be (R352) -/

/-- An accepted launch: a waiting grid with the next number, its code and the handler image read; its index. -/
def acceptLaunch (s : State) (part : Nat) (b : LaunchBody) (entry : Option Nat) : State × Option Nat :=
  match tabGet? s.parts part, resolveLaunch s part b with
  | some p, some c =>
    if launchOk p.cfg c then
      let d : Grid :=
        { part := part, number := p.nextGrid % 2 ^ 32, cmd := c, code := readImage s part c.image c.codeSize, codeSize := c.codeSize,
          entry := entry }
      let p := { p with nextGrid := p.nextGrid + 1, handler := readImage s part p.cfg.handler p.cfg.handlerSize,
                        handlerSize := p.cfg.handlerSize }
      ({ s with grids := s.grids ++ [d], parts := tabSet s.parts part p }, some s.grids.length)
    else (s, none)
  | _, _ => (s, none)

/-- An entry of a partition's launch table changed. -/
def State.modEntry (s : State) (part entry : Nat) (f : TableEntry → TableEntry) : State :=
  match tabGet? s.parts part with
  | none => s
  | some p => { s with parts := tabSet s.parts part { p with table := tabSet p.table entry (f (tabGet p.table {} entry)) } }

/-- A launch of a table entry starts and becomes the entry's previous launch (R355). -/
def startEntry (s : State) (part entry : Nat) (c : LaunchBody) : State :=
  match acceptLaunch s part c (some entry) with
  | (s, some g) => s.modEntry part entry fun e => { e with previous := some g }
  | (s, none) => s

/-- A grid has ended: the host hears of it, and the launch its entry holds starts (R355, R365). -/
def afterEnd (s : State) (grid : Nat) : State :=
  match s.grids[grid]? with
  | none => s
  | some d =>
    let s := s.event (some d.part) [6, d.number]
    match d.entry with
    | none => s
    | some e =>
      match tabGet? s.parts d.part with
      | none => s
      | some p =>
        let x := tabGet p.table {} e
        match x.held with
        | some c =>
          if x.previous = some grid then startEntry (s.modEntry d.part e fun x => { x with held := none }) d.part e c else s
        | none => s

end Sys2Proof.Machine
end

