-- ==== Sys2Proof/Machine/Distributor.lean ====
section
/-! DEFINITION. The distributor (R315 to R318, R336, R337): grids and die allocations, admission of panels, time slicing (R148, R253),
saves, restores and retirement (R181, R225, R238, R247, R252); the store's spills, refills and raises (R144, R145, R147); the trap
event and the watchdog (R196). -/

namespace Sys2Proof.Machine

/-! ### Taking a trap as an event (R228, R229) -/

/-- The request a cause stands for is pending, and none before it (R228). -/
def Group.requested (g : Group) (cause sub : Nat) : Bool :=
  if cause = 11 then sub == 6 && g.wantCheck
  else if cause = 13 then g.wantDebug && !g.wantCheck
  else g.wantPreempt && !g.wantDebug && !g.wantCheck

/-- The request of a cause is taken. -/
def Group.taken (g : Group) (cause : Nat) : Group :=
  if cause = 11 then { g with wantCheck := false }
  else if cause = 13 then { g with wantDebug := false }
  else { g with wantPreempt := false }

/-- The causes that a request raises for the whole group: the watchdog's machine check, pre-emption, debug stop. -/
def requestCause (cause sub : Nat) : Bool := cause == 12 || cause == 13 || (cause == 11 && sub == 6)

/-- In a deterministic launch a team's groups take a request together (R245): none takes pre-emption or debug stop while a team-mate with
the same request pending runs a handler. -/
def teamReady (s : State) (g : Group) (cause : Nat) : Bool :=
  !determGrid s g.grid || (s.team g.team).groups.all fun n => match s.group n with
    | some h => !(h.priv && h.status == .live && ((cause == 12 && h.wantPreempt) || (cause == 13 && h.wantDebug)))
    | none => true

/-- TRAP_ENTRY (R228, R229): a pending request of the group is taken, or the gang of a slice takes a trap of its own. A request has no
trapping gang: the slice field of `%cause` then holds the lowest live slice, which R233 leaves open (log 97). -/
def execTrapEntry (group cause sub slice : Nat) (arg : BitVec 64) (s : State) : Result :=
  match s.group group with
  | none => .next s
  | some g => .next <|
    if g.status != .live || g.liveSlices.isEmpty then s
    else if requestCause cause sub then
      if !g.priv && g.requested cause sub && teamReady s g cause then
        let sub := if cause = 12 then g.preemptSub else sub
        let s := trapEntry (s.modGroup group fun g => g.taken cause) group { cause := cause, sub := sub, arg := arg } g.liveSlices
        s.modGroup group fun g => if cause = 12 then { g with stepDone := false, preemptSub := 0 } else g
      else s
    else
      let is := g.gangSlices (g.slices.get slice).gang
      if is.isEmpty then s else trapEntry s group { cause := cause, sub := sub, arg := arg } is

/-! ### Spills, refills, raises (R144, R145, R147) -/

/-- SPILL_WRITE_COMPLETE (R144, R145): the cell's image stands in its slot, a victim's or one brought up to date after a use, and a
requester that still waits on the core may take the cell. A victim that an instruction has emptied meanwhile awaits its producer and stays.
-/
def execSpillWriteComplete (group slice name : Nat) (s : State) : Result :=
  match s.group group with
  | none => .next s
  | some g => .next <|
    match (g.slices.get slice).cell name with
    | some c =>
      if c.spilling && !c.full && !c.spilled then
        s.modGroup group fun g => g.modSlice slice fun sl =>
          { sl with names := tabSet sl.names name { c with spilling := false, spillFor := none } }
      else if c.spilling then
        let s := s.setMem (storeCell s.mem (slotAddr g.area slice name) c)
        let s := s.modGroup group fun g => g.modSlice slice fun sl =>
          { sl with names := tabSet sl.names name { c with spilling := false, spillFor := none, spilled := true } }
        match c.spillFor with
        | some r => if grantHolds s g.core r.1 then s.modCore g.core fun k => { k with grants := k.grants ++ [r] } else s
        | none => s
      else s
    | none => s

/-- A released wait of a group that its destination's cells held back tries again (R35, R145). -/
def retryResult (s : State) (group name : Nat) : State :=
  match s.group group with
  | some g => if g.waits.any fun w => w.destName == name && w.retries s group g then settleWaitsOf s group else s
  | none => s

/-- CELL_REFILL (R144): a spilled cell that an instruction waits for takes a cell again, or begins a spill to get one. Of a name that
needs no refill, the released wait whose destination it is tries again to write it (R35, R145). -/
def execCellRefill (group slice name : Nat) (s : State) : Result :=
  match s.group group with
  | none => .next s
  | some g => .next <|
    match (g.slices.get slice).cell name with
    | some c =>
      if c.spilled && c.full && g.wants.contains (slice, name) then
        if cellsFor s g.core group slice = 0 then seekCells s g.core group slice 1
        else
          let k := s.core g.core
          let s := s.modGroup group fun g =>
            { g.modSlice slice fun sl =>
                { sl with names := tabSet sl.names name { c with spilled := false, spilling := false, stamp := 16 * k.stamp }
                          latched := sl.latched ++ [name] } with
              wants := g.wants.filter fun w => w != (slice, name) }
          let s := s.setCore g.core { k with stamp := k.stamp + 1, grants := k.grants.erase (group, slice) }
          wakeCore s g.core 2
      else retryResult s group name
    | none => retryResult s group name

/-- The floor raise a slice waits for, in its group's present state of privilege: one that a trap or a save has laid aside is asked again
when `rte` resumes it (R231, R246). -/
def Group.raiseWait (g : Group) (slice : Nat) : Option GangWait :=
  g.waits.find? fun w => w.slices.getLsbD slice && w.priv == g.priv && (match w.kind with | .floorRaise _ => true | _ => false)

/-- FLOOR_RAISE_GRANT (R147): a waiting raise is granted once it fits, cut to what could fit as the core stands. The core is sent code 6
whatever returned the reservation (R150 names a context save only; log 75). -/
def execFloorRaiseGrant (group slice : Nat) (s : State) : Result :=
  match s.group group with
  | none => .next s
  | some g => .next <|
    match g.raiseWait slice with
    | some w =>
      match w.kind with
      | .floorRaise n =>
        if raiseFits s g slice n && g.status == .live then
          wakeCore (s.modGroup group fun g' => g'.grantFloor w slice (raiseCut s g slice n)) g.core 6
        else s
      | _ => s
    | none => s

/-! ### Die allocations (R315, R339) -/

/-- The logical dies of a grid (R336, R339). -/
def Grid.logicalDies (d : Grid) : Nat := shapeField d.cmd 44 4 d.dies.length

/-- The physical die that carries a logical die. -/
def Grid.carrier (d : Grid) (i : Nat) : Nat := d.dies.getD (i % d.dies.length) 0

/-- The bytes of one die allocation: P + D. -/
def allocBytes (c : LaunchCmd) : Nat := paramExtent c + c.dieBytes

/-- The die allocations held on a physical die. -/
def dieRanges (s : State) (die : Nat) : List (Nat × Nat) :=
  s.grids.flatMap fun d => (List.range d.dieBases.length).filterMap fun i =>
    match d.dieBases.getD i none with
    | some b => if d.carrier i = die then some (b, allocBytes d.cmd) else none
    | none => none

/-- Something of the grid remains on a physical die: a panel of it that has not retired, with its teams, spawned groups and threads
(R315). -/
def needsDie (s : State) (d : Grid) (die : Nat) : Bool :=
  d.panels.any fun p => (s.panel p).die == die && (s.panel p).status != .retired

/-- The parameter block, the `const` bytes and zeros at an allocation (R20, R315). -/
def initDie (m : Memory) (at_ : Nat) (c : LaunchCmd) : Memory :=
  let m := memClear m at_ (allocBytes c)
  memWriteBytes (memWriteBytes m at_ c.param) (at_ + (c.param.length + 63) / 64 * 64) c.const

/-- The bases of the logical dies of one physical die, all or none. -/
def placeAll (held : List (Nat × Nat)) (n : Nat) : List Nat → Option (List (Nat × Nat))
  | [] => some []
  | i :: r =>
    match lowestRange 4096 held Config.dieBytes n with
    | some b => (placeAll ((b, n) :: held) n r).map fun x => (i, b) :: x
    | none => none

/-- A grid's allocation on a physical die reserved and written, where it fits (R315). -/
def reserveOn (s : State) (grid die : Nat) : State :=
  match s.grids[grid]? with
  | none => s
  | some d =>
    let open_ := (List.range d.logicalDies).filter fun i =>
      d.carrier i == die && (d.dieBases.getD i none).isNone && needsDie s d die
    match placeAll (dieRanges s die) (allocBytes d.cmd) open_ with
    | none => s
    | some xs => xs.foldl (fun s x =>
        (s.setMem (initDie s.mem (dieMem die + x.2) d.cmd)).modGrid grid fun d =>
          { d with dieBases := d.dieBases.set x.1 (some x.2) }) s

/-- Every reservation a die's queue still waits for is tried, in queue order. -/
def reserveDie (s : State) (die : Nat) : State :=
  ((s.die die).queue.map fun p => (s.panel p).grid).eraseDups.foldl (fun s g => reserveOn s g die) s

/-- An allocation returns when nothing of the grid remains on its die (R315). -/
def returnDies (s : State) (grid : Nat) : State :=
  s.modGrid grid fun d =>
    { d with dieBases := (List.range d.dieBases.length).map fun i => if needsDie s d (d.carrier i) then d.dieBases.getD i none else none }

/-! ### The launch queue (R316) -/

/-- The `prio` of a panel's launch. -/
def panelPrio (s : State) (p : Nat) : Nat := match s.grids[(s.panel p).grid]? with | some d => d.cmd.prio | none => 0

/-- A panel at the tail of its priority in a queue. -/
def queueInsert (s : State) (p : Nat) : List Nat → List Nat
  | [] => [p]
  | q :: r => if panelPrio s q < panelPrio s p then p :: q :: r else q :: queueInsert s p r

/-- A panel enters its die's queue. -/
def enqueuePanel (s : State) (p : Nat) : State :=
  (s.modPanel p fun x => { x with passed := 0 }).modDie (s.panel p).die fun d => { d with queue := queueInsert s p d.queue }

/-- The launch's bound words written on a cluster and shown by its mirrors (R257). -/
def presetBounds (s : State) (cluster : Nat) (bs : List (Nat × BitVec 64)) : State :=
  if bs.isEmpty then s
  else
    let k := bs.foldl (fun k b => k.setBound b.1 b.2) (s.cluster cluster)
    let s := s.setCluster cluster k
    ((List.range Config.coresPerCluster).map fun i => cluster * Config.coresPerCluster + i).foldl (fun s c =>
      s.modCore c fun q => { q with mirror := k.bounds, mirrorPos := k.boundLog.length }) s

/-- The panel of a grid with an index. -/
def newPanel (d : Grid) (grid p : Nat) : Panel :=
  { part := d.part, grid := grid, index := p, logical := p % d.logicalDies, die := d.carrier (p % d.logicalDies),
    size := d.cmd.sramBytes }

/-- A grid given its dies: its panels exist and enter their queues (R316, R336). -/
def startGrid (s : State) (grid : Nat) (d : Grid) (dies : List Nat) : State :=
  let d := { d with dies := dies, status := .resident }
  let d := { d with dieBases := List.replicate d.logicalDies none }
  let first := s.panels.length
  let ids := (List.range d.cmd.panels).map fun p => first + p
  let s := { s with panels := s.panels ++ (List.range d.cmd.panels).map (newPanel d grid) }
  let s := s.modGrid grid fun _ => { d with panels := ids }
  let s := dies.foldl (fun s x => presetBounds (presetBounds s (2 * x) d.cmd.bounds) (2 * x + 1) d.cmd.bounds) s
  dies.foldl (fun s x => reserveOn s grid x) (ids.foldl enqueuePanel s)

/-- GRID_START (R336): a grid starts once at least `mindies` dies are free. -/
def execGridStart (grid : Nat) (s : State) : Result :=
  match s.grids[grid]? with
  | none => .next s
  | some d => .next <|
    let free := freeDies s d.part
    if d.status == .waiting && !d.ended && decide (1 ≤ free.length) && decide (d.cmd.minDies ≤ free.length) then
      startGrid s grid d (free.take d.cmd.maxDies)
    else s

/-! ### Admission of a panel (R139, R251, R317, R339) -/

/-- The core of a cluster at a mesh place. -/
def coreAt (cluster row col : Nat) : Nat := cluster * Config.coresPerCluster + row * 12 + col

/-- A fresh team's groups admitted to their core (R39, R46). -/
def startGroups (s : State) (tid core : Nat) (c : LaunchCmd) : State :=
  let s := ((slotsFor s core c).take c.groups).zipIdx.foldl (fun s x =>
    let t := s.team tid
    addGroup s (newGroup s t tid core x.1 x.2 (BitVec.ofNat 4 c.prio) (.all { pc := BitVec.ofNat 32 c.entry }))) s
  recordStarts s (s.team tid).groups

/-- A fresh team on a core, with its initial scratchpad image (R20); none where R139 refuses it. -/
def placeTeam (s : State) (pid index core : Nat) (c : LaunchCmd) : Option State :=
  match lowestRange 256 (heldRanges s core) Config.coreBytes c.teamBytes with
  | none => none
  | some base =>
    let p := s.panel pid
    if (coreAdmits s core c c.groups fun _ => c.floor * c.groups) && decide (c.groups ≤ areasFree s p.part (dieOfCore core)) then
      let t : Team := { part := p.part, grid := p.grid, panel := pid, index := index, core := core, base := base, size := c.teamBytes,
                        status := .resident, holds := true, quantum := s.gtime.toNat }
      let tid := s.teams.length
      let s := { s with teams := s.teams ++ [t] }
      let s := s.modPanel pid fun p => { p with teams := p.teams ++ [tid] }
      let s := s.setMem (memWriteBytes (memClear s.mem (coreMem core + base) c.teamBytes) (coreMem core + base) c.coreImage)
      some (startGroups s tid core c)
    else none

/-- The state after each of a list of steps, none when one of them is refused. -/
def tryEach {α : Type} (f : State → α → Option State) : List α → State → Option State
  | [], s => some s
  | x :: r, s => match f s x with | some s => tryEach f r s | none => none

/-- The latch bytes of a group in the accumulator image (R235). -/
def storeLatch (m : Memory) (a : Nat) (l : Option Latch) : Memory :=
  let m := memClear m a 0x1200
  match l with
  | none => m
  | some l =>
    let m := l.words.zipIdx.foldl (fun m w => w.1.zipIdx.foldl (fun m x => memWriteN m (a + (32 * w.2 + x.2) * 4) 4 x.1.toNat) m) m
    let m := l.scales.zipIdx.foldl (fun m x => memWriteN m (a + 0x1000 + 4 * x.2) 4 x.1.toNat) m
    memWriteN m (a + 0x1080) 4 (2 ^ 31 + 16 * l.mscale + l.ma)

/-- The accumulator image in a save area (R225, R235). -/
def storeTile (m : Memory) (area : Nat) (k : Core) : Memory :=
  (List.range 8192).foldl (fun m e =>
    let d := tabGet k.elems {} e
    let m := memWriteN m (area + 0x40000 + 16 * e) 16 (pack96 d.c d.p d.q d.cls d.overflow k.anchor)
    let m := memWriteN m (area + 0x60000 + 8 * e) 4 (wrapInt 32 d.maxs)
    memWriteN m (area + 0x60000 + 8 * e + 4) 4 d.count) m

/-- The elements an image holds, with their residues as they stand, those above their range among them: a restore is no instruction's read
of an element (R55, R225; log 79). -/
def loadTile (m : Memory) (area : Nat) : Table Elem :=
  ((List.range 8192).map fun e =>
    let w := memReadN m (area + 0x40000 + 16 * e) 16
    let st := w / 2 ^ 96
    (e, ({ c := w % 2 ^ 32, p := w / 2 ^ 32 % 2 ^ 32, q := w / 2 ^ 64 % 2 ^ 32, cls := st % 4, overflow := st / 4 % 2 == 1,
           maxs := readInt true 32 (memReadN m (area + 0x60000 + 8 * e) 4),
           count := memReadN m (area + 0x60000 + 8 * e + 4) 4 } : Elem))).filter fun x => x.2 != {}

/-- The anchor of an image. -/
def loadAnchor (m : Memory) (area : Nat) : Int := readInt true 16 (memReadN m (area + 0x4000E) 2)

/-- A wait that a restored group resumes: `edgewait` has seen nothing again (R296). -/
def GangWait.fresh (w : GangWait) : GangWait :=
  match w.kind with
  | .edges xs p => { w with kind := .edges (xs.map fun e => { e with seen := false }) p }
  | _ => w

/-- A saved group on a core again, at the restore entry in privileged state (R238), its device state as the context record keeps it
(R236, R243). It keeps the places of its latest issues (R141), and what it has seen of each cluster's bound log (R260). The lane masks with
which it runs the restore routine are those its save routine left: the spec names none (log 98). -/
def Group.restore (g : Group) (core slot admission : Nat) (entry : Word32) : Group :=
  let g := (((g.setG 60 0).setG 61 0).setG 62 0).setG 63 (BitVec.ofNat 64 g.area)
  let g := g.modSlices (List.range 8) fun i sl =>
    let d := g.ctx.dev.slices.get i
    let sl := { sl with stack := d.stack, mark := d.stack.length, floors := d.floors, fmt := d.fmt, fflags := d.fflags, latched := [] }
    if sl.live then { sl with gang := 0, pc := entry } else sl
  { g with prio := g.ctx.dev.prio, retired := g.ctx.dev.retired,
           core := core, slot := slot, admission := admission, status := .live, priv := true, saving := false, unreserved := false,
           rereserve := none, held := 0, heldLast := 0,
           waits := (g.waits.filter fun w => !w.priv).map GangWait.fresh }

/-- The waits on edges of a group that has come back, with the edges that point to their tasks already (R289): no update wakes its core for
them. -/
def lookAgain (s : State) (gid : Nat) : State :=
  s.modGroup gid fun g => { g with waits := g.waits.map fun w => match w.kind with | .edges _ _ => w.look s g | _ => w }

/-- A team's saved groups admitted to a core again; none where R139 refuses them. -/
def restoreGroups (s : State) (tid core : Nat) (c : LaunchCmd) : Option State :=
  let gids := awayGroups s tid
  let entry : Word32 := match tabGet? s.parts (s.team tid).part with
    | some p => BitVec.ofNat 32 p.cfg.restoreOff
    | none => 0
  if coreAdmits s core c gids.length (savedCells s gids) then
    some (((slotsFor s core c).zip gids).foldl (fun s x =>
      let k := s.core core
      let s := (s.modGroup x.2 fun g => g.restore core x.1 k.admissions entry).setCore core
        { k with admissions := k.admissions + 1, gated := false, grants := k.grants.filter fun e => e.1 != x.2 }
      lookAgain s x.2)
      (s.modTeam tid fun t => { t with core := core, status := .resident, quantum := s.gtime.toNat }))
  else none

/-- A core where R225 lets a saved team come back: of the parity it had, and, for a team that holds an image, a leader whose accumulator
has no owner. -/
def tilePlace (s : State) (t : Team) (core : Nat) : Bool :=
  t.core % 2 == core % 2 && !(t.image.isSome && ((s.core core).owner.isSome || isFollower core))

/-- The accumulator image of a team written back, and owned by it again (R225). -/
def restoreTile (s : State) (tid core : Nat) : State :=
  match (s.team tid).image.bind s.group with
  | some g =>
    (s.modTeam tid fun t => { t with image := none }).modCore core fun k =>
      { k with owner := some tid, anchor := loadAnchor s.mem g.area, elems := loadTile s.mem g.area }
  | none => s

/-- A team of a saved panel on a core again (R225, R247); a retired team's allocation comes back with its bytes, unless its panel is that
team alone, for which nothing is held (R252). -/
def restoreTeam (c : LaunchCmd) (s : State) (x : Nat × Nat) : Option State :=
  let (tid, core) := x
  let t := s.team tid
  if t.status == .retired && (s.panel t.panel).teams.length == 1 then some (s.modTeam tid fun t => { t with core := core })
  else if !rangeFree (heldRanges s core) Config.coreBytes t.base t.size || !tilePlace s t core then none
  else
    let s := (s.modTeam tid fun t => { t with core := core, holds := true, kept := [] }).setMem
      (memPaste s.mem (coreMem core + t.base) t.size t.kept)
    let s := restoreTile s tid core
    if t.status = .retired then some s else restoreGroups s tid core c

/-- A saved spawned group on the first core of the cluster that admits it (R225, R281). -/
def restoreSpawned (c : LaunchCmd) (cluster : Nat) (s : State) (tid : Nat) : Option State :=
  ((List.range Config.coresPerCluster).map fun i => cluster * Config.coresPerCluster + i).findSome? fun k =>
    if tilePlace s (s.team tid) k then restoreGroups (restoreTile s tid k) tid k c else none

/-- The panel's queued threads back in the queues of its cores (R281). -/
def returnThreads (s : State) (pid : Nat) : State :=
  let p := s.panel pid
  let s := p.threads.foldl (fun s x =>
    let k := (s.team x.1).core
    s.modCore k fun q => q.enqueue x.2 (cycleOf s k)) s
  s.modPanel pid fun p => { p with threads := [] }

/-- The SRAM allocations of a cluster. -/
def sramRanges (s : State) (cluster : Nat) : List (Nat × Nat) :=
  (s.panels.filter fun p => p.cluster == cluster && (p.status == .resident || p.status == .saving)).map fun p => (p.base, p.size)

/-- The panel placed at a rectangle: a fresh one (R251), or a saved one restored (R253). `%wake` of a core whose gating this ends stays as
it was (the model's reading of R150, log 106). -/
def placePanel (s : State) (pid : Nat) (c : LaunchCmd) (cluster row col : Nat) : Option State :=
  let p := s.panel pid
  let core (i : Nat) : Nat := coreAt cluster (row + i / c.cols) (col + i % c.cols)
  match lowestRange 4096 (sramRanges s cluster) Config.sramBytes p.size with
  | none => none
  | some base =>
    let fresh := !p.started
    let s := s.setMem (memPaste s.mem (cluMem cluster + base) p.size (if fresh then [] else p.kept))
    let s := s.modPanel pid fun p =>
      { p with cluster := cluster, row := row, col := col, base := base, status := .resident, started := true, kept := [],
               quantum := s.gtime.toNat }
    let placed :=
      if fresh then tryEach (fun s i => placeTeam s pid i (core i) c) (List.range (c.rows * c.cols)) s
      else
        match tryEach (restoreTeam c) (p.teams.zipIdx.map fun x => (x.1, core x.2)) s with
        | none => none
        | some s => tryEach (restoreSpawned c cluster) (spawnedTeams s pid) s
    match placed with
    | none => none
    | some s =>
      let s := if fresh then s else returnThreads s pid
      -- a dispatch powers the cluster and its cores up (R307); the clock reloads its copy of the time base (R303)
      let s := s.modCluster cluster fun k => { k with gated := false, idle := none, localTime := if k.gated then s.gtime else k.localTime }
      some ((List.range (c.rows * c.cols)).foldl (fun s i => s.modCore (core i) fun k => { k with gated := false }) s)

/-- The origins the mesh offers a panel on a die, in the order of R317. -/
def origins (die : Nat) (c : LaunchCmd) : List (Nat × Nat × Nat) :=
  let rows := shapeField c 38 4 8
  let cols := shapeField c 34 4 12
  (List.range (min 2 (shapeField c 42 2 2))).flatMap fun cl =>
    (List.range (rows + 1 - c.rows)).flatMap fun r =>
      ((List.range (cols + 1 - c.cols)).filter fun x => c.cols % 2 == 1 || x % 2 == 0).map fun x => (2 * die + cl, r, x)

/-- The state after the panel takes the first rectangle that fits; none while its grid's dies are to change: it waits for its new die
(R337). -/
def admitPanel (s : State) (pid : Nat) : Option State :=
  let p := s.panel pid
  match s.grids[p.grid]? with
  | none => none
  | some d =>
    if (d.dieBases.getD p.logical none).isNone || d.newDies.isSome then none
    else (origins p.die d.cmd).findSome? fun o => placePanel s pid d.cmd o.1 o.2.1 o.2.2

/-- The first entry of a queue that can be admitted; none beyond an entry already passed over 16 times (R317). -/
def chooseEntry (s : State) : List Nat → List Nat → Option (Nat × State × List Nat)
  | _, [] => none
  | over_, p :: r =>
    match admitPanel s p with
    | some s' => some (p, s', over_)
    | none => if 16 ≤ (s.panel p).passed then none else chooseEntry s (over_ ++ [p]) r

/-- A parked team's counters read 0: every counter that one of its groups awaits in `jwait` (R278). -/
def parkedDue (s : State) (t : Team) : Bool :=
  t.groups.any fun gid => match s.group gid with
    | none => false
    | some g =>
      let items := g.waits.flatMap fun w => match w.kind with | .objects xs _ true _ => xs | _ => []
      !items.isEmpty && items.all fun x => match placeOf s g .clu x.addr with
        | some a => objCount (memReadN s.mem a 8) == 0
        | none => false

/-- A parked team back on its core (R278); none where its counters have not come to 0 or R139 refuses it. -/
def returnParked (s : State) (team : Nat) : Option State :=
  let t := s.team team
  if t.status == .parked && parkedDue s t && (s.panel t.panel).status == .resident then
    match s.launchOf ((t.groups.filterMap s.group).headD {}) with
    | none => none
    | some c => restoreTeam c (s.modTeam team fun t => { t with holds := false, kept := memCut s.mem (coreMem t.core + t.base) t.size })
        (team, t.core)
  else none

/-- A die has an admission to make that comes before its queue (R275, R317): a parked team that can return, or a spawned group that can
form. -/
def admitsFirst (s : State) (die : Nat) : Bool :=
  ((List.range s.teams.length).any fun t =>
    (s.team t).status == .parked && dieOfCore (s.team t).core == die && (returnParked s t).isSome) ||
    s.cores.any fun k => dieOfCore k.1 == die && match nextClass s k.1 with | some x => admits s k.1 x.grid | none => false

/-- A team's work outside its groups is done: accesses, updates at the bound unit, engine operations, fills and write-backs, matrix work
(R181, R224 to R226, R262). -/
def teamQuiet (s : State) (tid : Nat) : Bool :=
  let t := s.team tid
  let mine (g : Nat) : Bool := t.groups.contains g
  let queued (o : MatOp) : Bool := match o with
    | .zero _ => false
    | .release x => x == tid
    | .pair g _ _ _ _ _ _ _ f _ => mine g || f == tid
    | .drain g _ _ _ _ _ _ _ => mine g
    | .add g _ _ _ _ _ _ => mine g
  !(s.flights.any fun f => mine f.2.group) && !(t.groups.any (boundPending s)) && !((s.core t.core).engine.any fun e => e.2.team == tid) &&
    !(t.windows.any fun w => w.closing || w.segments.any fun x => x.filling || x.writing) &&
    !((s.core t.core).matrix.any queued) && !((s.core (t.core - 1)).matrix.any queued)

/-- A dirty segment of the team still has to be written back. -/
def Team.dirty (t : Team) : Bool := t.windows.any fun w => w.isOpen && !w.readOnly && w.segments.any fun x => x.dirty && !x.writing

/-- Every live group of a team that saves itself has halted (R238). -/
def teamHalted (s : State) (t : Team) : Bool :=
  let gs := (t.groups.filterMap s.group).filter Group.counts
  t.status == .saving && !gs.isEmpty && gs.all fun g => g.status == .saved

/-- Every group of a team on its core has retired (R139). -/
def teamOver (s : State) (t : Team) : Bool :=
  let gs := t.groups.filterMap s.group
  (t.status == .resident || t.status == .saving) && !gs.isEmpty && gs.all fun g => g.status == .retired

/-- A team of a core gives back its resources in this cycle: before returns and admissions there (R318). -/
def leavesFirst (s : State) (core : Nat) : Bool :=
  s.teams.zipIdx.any fun x =>
    x.1.core == core && (teamHalted s x.1 || teamOver s x.1) && teamQuiet s x.2 && !x.1.dirty

/-- DISTRIBUTOR_ADMIT (R251, R317, R318): at most one panel of the die's queue is admitted. -/
def execDistributorAdmit (die : Nat) (s : State) : Result :=
  let s := reserveDie s die
  .next <|
    if (s.die die).stopped || (coresOf die).any (leavesFirst s) || admitsFirst s die then s
    else match chooseEntry s [] (s.die die).queue with
      | none => s
      | some (p, s, passed) =>
        let s := s.modDie die fun d => { d with queue := d.queue.erase p }
        passed.foldl (fun s q => s.modPanel q fun x => { x with passed := x.passed + 1 }) s

/-! ### Leaving a core (R139, R181, R224, R225, R238) -/

/-- What a group leaves behind on its core when its save is over: names unbound, registers and predicates to come back as 0 (R237). -/
def Group.goAway (g : Group) : Group :=
  let g := g.modSlices (List.range 8) fun _ sl => { sl with names := [], preds := .all 1, latched := [] }
  { g with status := .away, priv := false, saving := false, held := 0, holdsIssue := false, wants := [], gfail := [], issued := false
           payload := false, gregs := (List.range 64).map fun i => if i < 60 then 0 else g.gregs.getD i 0 }

/-- The accumulator image of an owning team, in the area of its lowest-numbered live group (R225). -/
def saveTile (s : State) (tid : Nat) : State :=
  let t := s.team tid
  let k := s.core t.core
  if k.owner != some tid then s
  else
    match t.groups.find? fun gid => match s.group gid with | some g => g.status == .saved | none => false with
    | none => s.setCore t.core k.endOwnership
    | some gid =>
      match s.group gid with
      | none => s
      | some g =>
        let m := storeTile s.mem g.area k
        let m := (List.range 16).foldl (fun m i =>
          let l := t.groups.findSome? fun h => match s.group h with
            | some h => if h.index = i then h.latch else none
            | none => none
          storeLatch m (g.area + 0x70000 + 0x1200 * i) l) m
        ((s.setMem m).setCore t.core k.endOwnership).modTeam tid fun t => { t with image := some gid }

/-- A saved team leaves its core; its scratchpad bytes stay there, reachable by partners, until its panel leaves or, parked, it comes back
(R253, R278). -/
def teamLeaves (s : State) (tid : Nat) : State :=
  let s := saveTile s tid
  let t := s.team tid
  let s := t.groups.foldl (fun s gid => s.modGroup gid fun g => if g.status = .saved then g.goAway else g) s
  let clean (w : Window) : Window :=
    { w with segments := w.segments.map fun x => { x with present := false, dirty := false, filling := false, asleep := false } }
  s.modTeam tid fun t =>
    { t with status := if t.parking then .parked else .saved, parking := false, windows := t.windows.map clean }

/-- The panel's threads leave the queues of its cluster with it (R281). -/
def takePanelThreads (s : State) (pid : Nat) : State :=
  let p := s.panel pid
  ((List.range Config.coresPerCluster).map fun i => p.cluster * Config.coresPerCluster + i).foldl (fun s k =>
    let q := s.core k
    let taken := (q.threads.zipIdx.filter fun t => t.1.panel == pid).map fun t => t.2
    if taken.isEmpty then s
    else
      let team := (p.teams.find? fun t => (s.team t).core == k).getD (p.teams.headD 0)
      let ts := (taken.filterMap fun i => q.threads[i]?).map fun t => (team, t)
      (s.setCore k (q.takeThreads taken)).modPanel pid fun p => { p with threads := p.threads ++ ts }) s

/-- The die set of a grid changes once every panel has been saved or has retired (R337, R339). -/
def changeDies (s : State) (grid : Nat) : State :=
  match s.grids[grid]? with
  | none => s
  | some d =>
    match d.newDies with
    | none => s
    | some dies =>
      if d.panels.all fun p => (s.panel p).status == .saved || (s.panel p).status == .retired then
        let e := { d with dies := dies, newDies := none }
        let kept (i : Nat) : Option Nat :=
          if d.cmd.determ && d.cmd.shape.isSome then
            if e.carrier i = d.carrier i then d.dieBases.getD i none else none
          else match d.dies.idxOf? (e.carrier i) with
            | some j => d.dieBases.getD j none
            | none => none
        let e := { e with dieBases := (List.range e.logicalDies).map kept }
        let s := s.modGrid grid fun _ => e
        let saved := d.panels.filter fun p => (s.panel p).status == .saved
        let s := { s with dies := s.dies.map fun x => (x.1, { x.2 with queue := x.2.queue.filter fun p => !d.panels.contains p }) }
        let s := saved.foldl (fun s p =>
          let i := (s.panel p).index % e.logicalDies
          enqueuePanel (s.modPanel p fun x => { x with logical := i, die := e.carrier i }) p) s
        dies.foldl (fun s x => reserveOn s grid x) (returnDies s grid)
      else s

/-- A panel no team of which is on a core any more leaves its cluster, its queued threads with it, and joins the tail of its die's queue
(R148, R253, R281). -/
def panelLeaves (s : State) (pid : Nat) : State :=
  let p := s.panel pid
  let ts := p.teams ++ spawnedTeams s pid
  let gone (t : Nat) : Bool := match (s.team t).status with | .saved | .parked | .retired => true | _ => false
  if p.status == .saving && ts.all gone then
    let s := takePanelThreads s pid
    let s := p.teams.foldl (fun s t => s.modTeam t fun x =>
      if x.holds then { x with kept := memCut s.mem (coreMem x.core + x.base) x.size, holds := false,
                               status := if x.status = .parked then .saved else x.status } else x) s
    let s := s.modPanel pid fun p =>
      { p with status := .saved, kept := memCut s.mem (cluMem p.cluster + p.base) p.size }
    if (s.grids[p.grid]?.bind fun d => d.newDies).isSome then changeDies s p.grid else enqueuePanel s pid
  else s

/-! ### Time slicing (R148, R253) -/

/-- When a panel's quantum started: when its teams became eligible; where one team is left of it, when that team did, if it has come back
since (R148, R278). -/
def quantumStart (s : State) (panel : Nat) : Nat :=
  let p := s.panel panel
  match p.teams.filter fun t => (s.team t).status != .retired with
  | [t] => max p.quantum (s.team t).quantum
  | _ => p.quantum

/-- QUANTUM_EXPIRY (R148, R253): with another panel waiting in the die's queue the panel saves itself, and leaves at once when no team of it
is on a core (R278, R281); otherwise its quantum restarts. -/
def execQuantumExpiry (panel : Nat) (s : State) : Result :=
  let p := s.panel panel
  let quantum := match tabGet? s.parts p.part with | some x => x.cfg.quantum | none => Config.defaultQuantum
  .next <|
    if p.status == .saving then panelLeaves s panel
    else if p.status == .resident && decide (quantumStart s panel + quantum ≤ s.gtime.toNat) then
      if (s.die p.die).queue.isEmpty then s.modPanel panel fun p => { p with quantum := s.gtime.toNat }
      else
        let cores := (panelResidents s panel).map fun t => (s.team t).core
        panelLeaves (cores.foldl (fun s k => wakeCore s k 6) (savePanel s panel 0)) panel
    else s

/-! ### The end of a stay (R181) -/

/-- The end of a team's stay on its core (R181): its outstanding work completes, then dirty segments are written back, then `act`. -/
def endStay (s : State) (team : Nat) (act : State → State) : State :=
  if !teamQuiet s team then s
  else if (s.team team).dirty then s.modTeam team fun t => { t with windows := t.windows.map Window.startWriteback }
  else act s

/-- TEAM_SAVE_LEAVE (R181, R225, R238): once every group of the team has halted, outstanding work completes, dirty segments are written
back, and the team leaves. -/
def execTeamSaveLeave (team : Nat) (s : State) : Result :=
  .next (if teamHalted s (s.team team) then endStay s team fun s => panelLeaves (teamLeaves s team) (s.team team).panel else s)

/-- PARKED_TEAM_RETURN (R278): a parked team comes back to its core when every counter that one of its groups awaits in `jwait` reads 0
and R139 admits it. -/
def execParkedTeamReturn (team : Nat) (s : State) : Result :=
  .next (if leavesFirst s (s.team team).core then s else (returnParked s team).getD s)

/-! ### Retirement (R139, R252) -/

/-- A grid ends when its last panel retires: what it held of its dies returns, and a launch its table entry held starts (R355). -/
def gridEnds (s : State) (grid : Nat) : State :=
  match s.grids[grid]? with
  | none => s
  | some d =>
    let s := returnDies s grid
    if !d.panels.isEmpty && d.panels.all fun p => (s.panel p).status == .retired then
      afterEnd (s.modGrid grid fun d => { d with ended := true, status := .retired }) grid
    else s

/-- A launched or spawned team whose groups have all retired gives everything back; the panel's last team gives back what was held for it.
-/
def teamRetires (s : State) (tid : Nat) : State :=
  let t := s.team tid
  let s := s.modCore t.core fun k => if k.owner = some tid then k.endOwnership else k
  let s := t.groups.foldl (fun s gid => s.modGroup gid fun g => { g with status := .gone }) s
  let alone := (s.panel t.panel).teams.length == 1
  let s := s.modTeam tid fun t => { t with status := .retired, windows := List.replicate 16 {}, holds := t.holds && !alone }
  let p := s.panel t.panel
  let over_ := p.teams.all (fun x => (s.team x).status == .retired) && (spawnedTeams s t.panel).isEmpty && p.threads.isEmpty &&
    !(s.cores.any fun k => k.2.threads.any fun x => x.panel == t.panel)
  if over_ then
    let s := p.teams.foldl (fun s x => s.modTeam x fun t => { t with holds := false }) s
    changeDies (gridEnds (s.modPanel t.panel fun p => { p with status := .retired }) t.grid) t.grid
  else panelLeaves s t.panel

/-- TEAM_RETIRE (R139, R226, R252): after the completions and write-backs of R181. -/
def execTeamRetire (team : Nat) (s : State) : Result :=
  .next (if teamOver s (s.team team) then endStay s team fun s => teamRetires s team else s)

/-! ### The deadlock watchdog (R196) -/

/-- The word of an object in the bytes kept with a saved team or panel (R247, R253). -/
def keptWord (s : State) (g : Group) (space : Space) (a : Nat) : Nat :=
  let p := s.panel g.panel
  match space with
  | .core => let t := s.team g.team; memReadN t.kept (a - t.base) 8
  | .clu =>
    if a < 0x3000000 then
      match (p.teams.map s.team).find? fun t => t.core % Config.coresPerCluster == a / 2 ^ 19 with
      | some t => memReadN t.kept (a % 2 ^ 19) 8
      | none => 0
    else memReadN p.kept (a - 0x3000000) 8
  | _ => 0

/-- The word of an object, where it lies now or with what has been saved. -/
def objectWord (s : State) (g : Group) (space : Space) (a : Nat) : Nat :=
  match placeOf s g space a with
  | some x => memReadN s.mem x 8
  | none => keptWord s g space a

/-- A wait that counts as internal. A released one that only its destination's cell holds back waits for a refill or a spill, and does
not. One that names an object with external bit 1 stays external to its end, though that object may have released it already (R196 does
not say; DESIGN CHOICE, log 99). -/
def internalWait (s : State) (g : Group) (w : GangWait) : Bool :=
  !w.ready && match w.kind with
  | .regang _ | .rendezvous .. | .bar | .pbar | .edges _ _ => true
  | .objects xs _ join ext => join || (!ext && xs.all fun x => !objExternal (objectWord s g x.space x.addr))
  | _ => false

/-- A group every live slice of which waits internally, in a handler too; a saved one waits as it did when it was saved. -/
def waitsInside (s : State) (g : Group) : Bool :=
  let priv := g.priv && g.status != .saved
  g.counts && g.status != .stopped &&
    g.liveSlices.all fun i => g.waits.any fun w => w.slices.getLsbD i && w.priv == priv && internalWait s g w

/-- A context in which nothing can move (R196). -/
def contextStuck (s : State) (grid : Nat) : Bool :=
  let gids := gridGroups s grid
  -- a group that has exited leaves what it began behind (R181)
  let mine (n : Nat) : Bool := match s.group n with | some g => g.grid == grid | none => false
  match s.grids[grid]? with
  | none => false
  | some d =>
    !d.ended && !gids.isEmpty && (gids.filterMap s.group).all (waitsInside s) &&
      !(s.cores.any fun k => k.2.threads.any fun t => t.grid == grid) &&
      d.panels.all (fun p => (s.panel p).started && (s.panel p).threads.isEmpty) && !(s.flights.any fun f => mine f.2.group) &&
      !(s.cores.any fun k => k.2.engine.any fun e => mine e.2.group) &&
      !(s.cores.any fun k => k.2.matrix.any fun o => match o with
        | .pair g .. => mine g
        | .drain g .. => mine g
        | .add g .. => mine g
        | _ => false) &&
      !(s.teams.any fun t => t.grid == grid && t.windows.any fun w => w.closing || w.segments.any fun x => x.filling || x.writing) &&
      !(s.peerTraffic.any fun r => r.part == d.part) && !(s.commands.any fun c => c.part == d.part) &&
      !(s.pending.any fun p => (s.sessions.getD p.session {}).target == some d.part)

/-- Whether a grid has groups on a stopped die: its time does not count (R305). -/
def onStoppedDie (s : State) (grid : Nat) : Bool :=
  s.panels.any fun p => p.grid == grid && (p.status == .resident || p.status == .saving) && (s.die p.die).stopped

/-- The watchdog's machine check reaches a group (R196, R228): it is taken at the group's next boundary; a group in a handler takes the
double trap of TrapEntry's first line, for only pre-emption and debug requests stay pending there (R229). -/
def checkGroup (s : State) (gid : Nat) : State :=
  match s.group gid with
  | some g =>
    if g.priv && g.status == .live then doubleTrap s gid { cause := 11, sub := 6 } else s.modGroup gid fun g => { g with wantCheck := true }
  | none => s

/-- DEADLOCK_WATCHDOG (R196): after a whole interval the host hears of it, and every group of the context takes machine check. -/
def execDeadlockWatchdog (grid : Nat) (s : State) : Result :=
  match s.grids[grid]? with
  | none => .next s
  | some d => .next <|
    let interval := match tabGet? s.parts d.part with | some p => p.cfg.watchdog | none => 0
    match d.stuck with
    | some t =>
      if interval != 0 && decide (t + interval ≤ s.gtime.toNat) && contextStuck s grid && !onStoppedDie s grid then
        (gridGroups s grid).foldl checkGroup ((s.modGrid grid fun d => { d with stuck := none }).event (some d.part) [4, d.part, d.number])
      else s
    | none => s

end Sys2Proof.Machine
end

