-- ==== Sys2Proof/Machine/Host.lean ====
section
/-! DEFINITION. The host's commands (R348 to R357): sessions, partition configure, launch, signal, end launch, page migrate, table
update, fault answers and the launch table. -/

namespace Sys2Proof.Machine

/-! ### The frame of a command (R348, R349) -/

/-- What a command gives back: the state, and its status and body unless it completes later. -/
abbrev Answer := State × Option (Nat × List Nat)

/-- The answer that changes nothing. -/
def refuse (s : State) (status : Nat) : Answer := (s, some (status, []))

/-- The answer of a command that failed in execution, with the detail of R348 (log 53): 1 a grid that has ended, 2 a page that is not
mapped so, 3 a page that does not fault, 4 a partition, 5 teams that do not exist. -/
def failed (s : State) (detail : Nat) : Answer := (s, some (5, [detail]))

/-- The answer of a completed command. -/
def answer (s : State) (body : List Nat := []) : Answer := (s, some (0, body))

/-- The device takes commands: boot succeeded (R360). -/
def State.up (s : State) : Bool := s.powered && !s.boot.failed

/-- An answer given to a session, in the order of its commands: behind one that is not complete it waits (R349). -/
def respond (s : State) (session opcode status : Nat) (body : List Nat) : State :=
  if s.pending.any fun p => p.session == session then
    { s with sessions := s.sessions.modify session fun x =>
        { x with queued := x.queued ++ [{ session := session, seq := 0, opcode := opcode, status := status, body := body }] } }
  else s.send session opcode status body

/-- A message that keeps to R348 for a command's opcode; one that does not is malformed. An opcode that is not the command's stands for
an unassigned one (R350; log 67). -/
def headerOk (h : CmdHdr) (opcode : Nat) : Bool :=
  h.version == 1 && h.opcode == opcode && decide (h.length ≤ 2 ^ 24) && h.status == 0 && h.reserved == 0 && h.bodyOk

/-- The partition whose command unit a command that is not complete keeps busy: a migration to the host or a table update is still
executing (R322, R357); stops and steps have been executed, and only their answers are still to come (R367). -/
def Awaits.unit : Awaits → Option Nat
  | .page part .. | .segments part _ => some part
  | .teams .. => none

/-- The command unit that keeps a session's commands waiting. -/
def busyUnit (s : State) (target : Option Nat) : Option Nat :=
  target.bind fun part => if s.pending.any fun p => p.what.unit == some part then some part else none

/-- A session whose close has been answered is closed (R349). -/
def endClosing (s : State) (session : Nat) : State :=
  if s.pending.any fun p => p.session == session then s
  else { s with sessions := s.sessions.modify session fun x => { x with isOpen := x.isOpen && !x.closing } }

/-- A command arrives: dropped and counted unless its session is open, its tag verifies and its sequence number is the next one, or its
turn has come after it had to wait (R349). Behind a command of its partition that is not complete it waits; otherwise it is executed and
answered: malformed, naming another partition (R350), or as `act` says. -/
def commandFrame (s : State) (h : CmdHdr) (opcode : Nat) (cmd : Instr) (act : State → Option Nat → Answer) : State :=
  if !s.up then s
  else match s.sessions[h.session]? with
    | none => { s with drops := s.drops + 1 }
    | some x =>
      let again := x.waiting.contains h.seq && !(s.commands.any fun c => c.session == h.session && c.seq == h.seq)
      if !x.isOpen || !h.tagOk || !(again || (h.seq == x.seq + 1 && !x.closing)) then { s with drops := s.drops + 1 }
      else match busyUnit s x.target with
        | some part =>
          { s with
            commands := s.commands ++ [{ part := part, session := h.session, seq := h.seq, cmd := cmd }],
            sessions := s.sessions.set h.session (if again then x else { x with seq := h.seq, waiting := x.waiting ++ [h.seq] }) }
        | none =>
          let taken : Session := { x with seq := if again then x.seq else h.seq, waiting := x.waiting.filter fun n => n != h.seq }
          let s := { s with sessions := s.sessions.set h.session taken }
          let a : Answer :=
            if !headerOk h opcode then refuse s 1 else if h.part.isSome && h.part != x.target then refuse s 2 else act s x.target
          match a with
          | (s, some (status, body)) => endClosing (respond s h.session h.opcode status body) h.session
          | (s, none) => s

/-- A partition's contexts start their watchdog intervals anew: a host command is in progress (R196). -/
def restartWatchdogs (s : State) (part : Nat) : State :=
  { s with grids := s.grids.map fun d => if d.part = part then { d with stuck := none } else d }

/-- A command to the partition its session is bound to; status 2 otherwise (R350). -/
def partCommand (s : State) (h : CmdHdr) (opcode : Nat) (cmd : Instr) (act : State → Nat → Partition → Answer) : State :=
  commandFrame s h opcode cmd fun s target =>
    match target with
    | none => refuse s 2
    | some part =>
      match tabGet? s.parts part with
      | none => refuse s 2
      | some p => act (restartWatchdogs s part) part p

/-! ### Sessions (R349) -/

/-- SESSION_OPEN (R348, R349): the first message of its direction, dropped and counted where its tag fails or its number is another; a
malformed one is answered with status 1. At most 64 sessions are open; the chain must end in the host key of the target's record. -/
def execSessionOpen (h : CmdHdr) (chain : List Byte) (s : State) : Result :=
  let target := h.part
  .next <|
    if !s.up then s
    else if !h.tagOk || h.seq != 1 then { s with drops := s.drops + 1 }
    else
      let refused (status : Nat) : State :=
        { s with responses := s.responses ++ [{ session := 2 ^ 32 - 1, seq := 1, opcode := 1, status := status }] }
      if !headerOk h 1 then refused 1
      else if 64 ≤ (s.sessions.filter fun x => x.isOpen).length then refused 4
      else
        let key : Option (List Byte) := match target with
          | none => if s.recordOk 2 then some s.flash.packageKey else none
          | some p => (tabGet? s.parts p).map fun p => p.cfg.keyDigest
        match key with
        | none => refused 2
        | some k =>
          if Config.chainVerifies chain k then
            ({ s with sessions := s.sessions ++ [{ target := target, seq := 1 }] } : State).send s.sessions.length 1 0 []
          else refused 2

/-- SESSION_CLOSE (R349): answered behind the session's earlier commands, the session takes no further one and closes with the answer. -/
def execSessionClose (h : CmdHdr) (s : State) : Result :=
  .next <| commandFrame s h 2 (.sessionClose h) fun s _ =>
    answer { s with sessions := s.sessions.modify h.session fun x => { x with closing := true } }

/-! ### Partitions (R351) -/

/-- A time that is 0 or within a range. -/
def timeOk (v lo hi : Nat) : Bool := v == 0 || decide (lo ≤ v ∧ v ≤ hi)

/-- A physical range of a partition, or none (R351). -/
def rangeOk (c : PartitionCfg) (a n : Nat) : Bool := n == 0 || inPartition c a n

/-- The ranges of R351. -/
def configOk (c : PartitionCfg) : Bool :=
  decide (1 ≤ c.dies.length ∧ c.dies.length ≤ 12 ∧ c.dies.eraseDups = c.dies) && (c.dies.all fun d => decide (d < 12)) &&
    decide (c.handler + c.handlerSize ≤ 2 ^ 48) && decide (c.trapOff % 4 = 0 ∧ c.saveOff % 4 = 0 ∧ c.restoreOff % 4 = 0) &&
    decide (100000 ≤ c.quantum ∧ c.quantum ≤ 10 ^ 9) && timeOk c.watchdog (10 ^ 7) (6 * 10 ^ 11) &&
    timeOk c.faultTimeout (10 ^ 6) (6 * 10 ^ 11) && decide (10000 ≤ c.idle ∧ c.idle ≤ 10 ^ 9) &&
    decide (1 ≤ c.vsLimit ∧ c.vsLimit ≤ 3072) && decide (c.root % 4096 = 0) && inPartition c c.root 4096 &&
    rangeOk c c.poolBase c.poolSize && decide (c.overSize ≤ 2 ^ 30) && rangeOk c c.overBase c.overSize &&
    decide (c.apertures.length ≤ 16) &&
    (c.apertures.all fun a => decide (a.base % 2 ^ 21 = 0 ∧ a.size % 2 ^ 21 = 0 ∧ a.base + a.size ≤ 2 ^ 48)) &&
    decide (c.keyDigest.length = 48)

/-- A die holds no launch. -/
def dieIdle (s : State) (die : Nat) : Bool :=
  s.grids.all fun d => d.ended || match tabGet? s.parts d.part with | some p => !p.cfg.dies.contains die | none => true

/-- Memory with everything of a die zeroed: HBM, core scratchpads, cluster SRAM, die scratchpad (R351). -/
def zeroDie (m : Memory) (d : Nat) : Memory :=
  let m := memClear m (d * 2 ^ 37) (2 ^ 37)
  let m := memClear m (coreMem (192 * d)) (192 * Config.coreBytes)
  let m := memClear m (cluMem (2 * d)) (2 * Config.sramBytes)
  memClear m (dieMem d) Config.dieBytes

/-- A die as a new partition finds it (R138, R257, R302, R351): fresh cores, clusters, queues, translation caches and clocks, and nothing
of the groups that ran there; the power manager's settings and the thermal state stay. -/
def freshDie (s : State) (vsLimit d : Nat) : State :=
  let cores := s.cores.filter fun k => dieOfCore k.1 != d
  let clusters := s.clusters.filter fun k => dieOfCluster k.1 != d
  { s with
    mem := zeroDie s.mem d
    cores := cores ++ (List.range 192).map fun i => (192 * d + i, { vsLimit := vsLimit })
    clusters := clusters ++ [2 * d, 2 * d + 1].map fun i => (i, { rate := (s.cluster i).rate, localTime := s.gtime })
    groups := s.groups.map fun g => if dieOfCore g.core = d && g.status = .gone then { status := .gone, core := g.core } else g
    dies := tabSet s.dies d { stopped := (s.die d).stopped, selfRefresh := (s.die d).selfRefresh } }

/-- The sessions of a partition number end with the partition: another key may hold it next (R349, R351; log 50). -/
def endSessions (s : State) (part : Nat) : State :=
  let mine (n : Nat) : Bool := (s.sessions.getD n {}).target == some part
  { s with
    sessions := s.sessions.map fun x => if x.target = some part then { x with isOpen := false, queued := [], waiting := [] } else x
    pending := s.pending.filter fun p => !mine p.session
    commands := s.commands.filter fun c => !mine c.session }

/-- PARTITION_CONFIGURE (R351): it creates or dissolves a partition, on dies that hold no launch; recordings and sessions of its number
end. -/
def execPartitionConfigure (h : CmdHdr) (cfg : PartitionCfg) (s : State) : Result :=
  .next <| commandFrame s h 0x10 (.partitionConfigure h cfg) fun s target =>
    if target.isSome then refuse s 2
    else
      let old := ((tabGet? s.parts cfg.part).map fun p => p.cfg.dies).getD []
      let recordings := s.recordings.filter fun r => r.part != cfg.part
      if cfg.create then
        if !configOk cfg then refuse s 1
        else if s.parts.any fun p => p.1 != cfg.part && p.2.cfg.dies.any cfg.dies.contains then refuse s 4
        else if !(old ++ cfg.dies).all (dieIdle s) then refuse s 3
        else answer (cfg.dies.foldl (fun s d => freshDie s cfg.vsLimit d)
          { endSessions s cfg.part with parts := tabSet s.parts cfg.part { cfg := cfg, handlerSize := cfg.handlerSize }, recordings := recordings })
      else if !old.all (dieIdle s) then refuse s 3
      else if (tabGet? s.parts cfg.part).isNone then failed s 4
      else answer { endSessions s cfg.part with parts := tabErase s.parts cfg.part, recordings := recordings }

/-! ### The launch table (R354, R355) -/

/-- The time of an entry's next slot; none when it will not fire again. -/
def TableEntry.next (e : TableEntry) : Option Nat :=
  if !e.enable || (e.period == 0 && e.slot != 0) then none else some (e.first + e.slot * e.period)

/-- Entries of a partition whose slot has come, with their times. -/
def dueSlots (s : State) (p : Partition) : List (Nat × Nat) :=
  p.table.filterMap fun e => match e.2.next with
    | some t => if t ≤ s.gtime.toNat then some (t, e.1) else none
    | none => none

/-- A grid is over. -/
def gridEnded (s : State) (grid : Nat) : Bool := match s.grids[grid]? with | some d => d.ended | none => true

/-- What a removed operation awaited is awaited no more; an update already on its way is still performed (R350). -/
def ReadFor.ofGrid (o : ReadFor) (ops : List (Nat × Nat)) (teams : List Nat) : Bool :=
  match o with
  | .piece c k _ _ | .old c k _ | .wrote c k _ => ops.contains (c, k)
  | .fill t _ _ | .wback t _ _ => teams.contains t
  | .walk .. => false

/-- Traffic between dies and to peers forgets what belonged to a grid. -/
def dropTraffic (s : State) (ops : List (Nat × Nat)) (teams : List Nat) : State :=
  let keep (o : ReadFor) : Bool := !o.ofGrid ops teams
  let detach (m : Message) : Message := match m.atom with
    | some q => if ops.contains (q.core, q.slot) then { m with atom := some { q with slot := Config.engineSlots } } else m
    | none => m
  { s with
    dies := s.dies.map fun d => (d.1, { d.2 with
      inbox := d.2.inbox.map detach
      requests := d.2.requests.filter fun r => keep r.owner
      responses := d.2.responses.filter fun r => keep r.owner })
    peerTraffic := s.peerTraffic.filter fun r => keep r.owner }

/-- Every group of a grid stops, its queues are discarded and its resources return (R315, R350, R355). -/
def endGrid (s : State) (grid : Nat) : State :=
  match s.grids[grid]? with
  | none => s
  | some d =>
    if d.ended then s
    else
      let teams := (List.range s.teams.length).filter fun t => (s.team t).grid == grid
      let mine (g : Nat) : Bool := match s.group g with | some g => g.grid == grid | none => false
      let ops := s.cores.flatMap fun k => (k.2.engine.filter fun e => mine e.2.group).map fun e => (k.1, e.1)
      let queued (o : MatOp) : Bool := match o with
        | .zero _ => false
        | .release t => teams.contains t
        | .pair g .. | .drain g .. | .add g .. => mine g
      let clean (k : Core) (n : Nat) : Core :=
        let k := { k with
          engine := k.engine.filter fun e => !mine e.2.group
          fixups := k.fixups.filter fun e => if e.window then !teams.contains e.team else !ops.contains (n, e.slot)
          matrix := k.matrix.filter fun o => !queued o
          gathers := k.gathers.filter fun g => g.grid != grid
          grants := k.grants.filter fun e => !mine e.1
          reservations := k.reservations.filter fun r => !mine r.group
          tokens := k.tokens + ((k.reservations.filter fun r : Reservation => mine r.group).map fun r : Reservation => r.gathered).sum }
        let k := k.takeThreads ((k.threads.zipIdx.filter fun t : Thread × Nat => t.1.grid == grid).map fun t => t.2)
        match k.owner with
        | some t =>
          if teams.contains t then { k.endOwnership with matrix := k.matrix.filter fun o => match o with | .zero _ => false | _ => true }
          else k
        | none => k
      let s := dropTraffic s ops teams
      let s : State := { s with
        groups := s.groups.map fun g => if g.grid = grid then
          { g with status := .gone, waits := [], held := 0, wants := [], gpend := [], latch := none, rereserve := none, wantPreempt := false,
                   wantDebug := false, wantCheck := false } else g
        teams := s.teams.map fun t => if t.grid = grid then
          { t with status := .retired, holds := false, kept := [], windows := List.replicate 16 {}, image := none, armed := false } else t
        panels := s.panels.map fun p => if p.grid = grid then { p with status := .retired, kept := [], threads := [] } else p
        cores := s.cores.map fun k => (k.1, clean k.2 k.1)
        clusters := s.clusters.map fun k => (k.1, { k.2 with boundQueue := k.2.boundQueue.filter fun u => !mine u.group })
        dies := s.dies.map fun x => (x.1, { x.2 with queue := x.2.queue.filter fun p => !d.panels.contains p })
        flights := s.flights.filter fun f => !mine f.2.group }
      let s := s.modGrid grid fun d =>
        { d with ended := true, status := .retired, dieBases := d.dieBases.map fun _ => none, newDies := none, stuck := none }
      afterEnd s grid

/-- A slot of an entry (R355): the launch, or its overrun by the entry's rule. -/
def fireSlot (s : State) (part : Nat) (p : Partition) (entry : Nat) : State :=
  let e := tabGet p.table {} entry
  let s := s.modEntry part entry fun e => { e with slot := e.slot + 1 }
  match tabGet? p.templates e.template with
  | none => s
  | some c =>
    let running := match e.previous with | some g => !gridEnded s g | none => false
    if !running && e.held.isNone then startEntry s part entry c
    else
      let s := s.event (some part) [7, part, entry]
      let drop := if e.held.isSome then 1 else 0
      match e.overrun with
      | 0 => s.modEntry part entry fun e => { e with count := e.count + 1 }
      | 1 => s.modEntry part entry fun e => { e with held := some c, count := e.count + drop }
      | _ =>
        let s := s.modEntry part entry fun e => { e with held := none, count := e.count + drop }
        let s := match e.previous with | some g => endGrid s g | none => s
        startEntry s part entry c

/-- LAUNCH_TABLE_SLOT (R355): slots fire in the order of their times, equal ones in ascending entry index. -/
def execLaunchTableSlot (part entry : Nat) (s : State) : Result :=
  match tabGet? s.parts part with
  | none => .next s
  | some p => .next <|
    let due := dueSlots s p
    match due.find? fun d => d.2 == entry with
    | some (t, _) =>
      if due.all fun d => decide (t < d.1) || (t == d.1 && decide (entry ≤ d.2)) then fireSlot s part p entry else s
    | none => s

/-- Slots that have come are taken before a launch command (R355). -/
def fireDue (s : State) (part : Nat) : Nat → State
  | 0 => s
  | n + 1 =>
    match tabGet? s.parts part with
    | none => s
    | some p =>
      match dueSlots s p with
      | [] => s
      | d :: r =>
        let first := r.foldl (fun a b => if b.1 < a.1 || (b.1 == a.1 && decide (b.2 < a.2)) then b else a) d
        fireDue (fireSlot s part p first.2) part n

/-- An entry as the update command gives it is in range (R354). -/
def entryOk (e : Nat × TableEntryCfg) : Bool :=
  decide (e.1 < 256) && (e.2.period == 0 || decide (100000 ≤ e.2.period ∧ e.2.period ≤ 10 ^ 12)) && decide (e.2.template < 64) &&
    decide (e.2.overrun ≤ 2)

/-- The first slot that is not past. -/
def firstSlot (now : Nat) (c : TableEntryCfg) : Nat :=
  if now ≤ c.first then 0 else if c.period = 0 then 1 else (now - c.first + c.period - 1) / c.period

/-- LAUNCH_TABLE_UPDATE (R354): templates and entries replaced; an entry in use keeps its current launch and its count. -/
def execLaunchTableUpdate (h : CmdHdr) (templates : List (Nat × LaunchBody)) (entries : List (Nat × TableEntryCfg)) (s : State) : Result :=
  .next <| partCommand s h 0x50 (.launchTableUpdate h templates entries) fun s part p =>
    if !(entries.all entryOk && templates.all fun t => decide (t.1 < 64)) then refuse s 1
    else
      let ts := templates.foldl (fun t x => tabSet t x.1 x.2) p.templates
      let es := entries.foldl (fun t x =>
        tabSet t x.1 { tabGet t {} x.1 with
          first := x.2.first, period := x.2.period, template := x.2.template, overrun := x.2.overrun, enable := x.2.enable,
          slot := firstSlot s.gtime.toNat x.2 }) p.table
      answer { s with parts := tabSet s.parts part { p with templates := ts, table := es } }

/-! ### Launch, signal, end launch (R350, R352, R353) -/

/-- LAUNCH (R352): an accepted launch is answered with its `%grid`; a refused one with status 4, and nothing starts. -/
def execLaunch (h : CmdHdr) (cmd : LaunchBody) (s : State) : Result :=
  .next <| partCommand s h 0x20 (.launch h cmd) fun s part p =>
    let s := fireDue s part p.table.length
    match acceptLaunch s part cmd none with
    | (s', some g) => answer s' [(s'.grids[g]?.map fun d => d.number).getD 0]
    | (_, none) => refuse s 4

/-- The grid of a partition with a `%grid` number that has not ended. -/
def liveGrid (s : State) (part number : Nat) : Option Nat :=
  (s.grids.zipIdx.find? fun d => d.1.part == part && d.1.number == number && !d.1.ended).map fun d => d.2

/-- A command that names a grid: status 5 when it has ended (R353). -/
def gridCommand (s : State) (h : CmdHdr) (opcode number : Nat) (cmd : Instr) (act : State → Nat → Grid → Answer) : State :=
  partCommand s h opcode cmd fun s part _ =>
    match liveGrid s part number with
    | none => failed s 1
    | some g => match s.grids[g]? with
      | some d => act s g d
      | none => failed s 1

/-- Where an object at a `die` address of a logical die lies, inside the grid's stores range there (R155, R353). -/
def signalPlace (d : Grid) (die addr : Nat) : Option Nat :=
  match d.dieBases.getD die none with
  | none => none
  | some b =>
    if addr % 8 = 0 ∧ b + paramExtent d.cmd ≤ addr ∧ addr + 8 ≤ b + allocBytes d.cmd then some (dieMem (d.carrier die) + addr) else none

/-- SIGNAL_ARRIVE (R353): a decrement of an object in a grid's die scratchpad; the die's cores that hold a group of the grid wake with
code 8. -/
def execSignalArrive (h : CmdHdr) (grid die addr n : Nat) (s : State) : Result :=
  .next <| gridCommand s h 0x21 grid (.signalArrive h grid die addr n) fun s gid d =>
    match signalPlace d die addr with
    | none => refuse s 1
    | some a =>
      if n = 0 ∨ 2 ^ 32 ≤ n then refuse s 1
      else
        let s' := s.setMem (memWriteN s.mem a 8 (objDown (memReadN s.mem a 8) n))
        let cores := (s.groups.filter fun g => g.grid == gid && g.resident g.core && dieOfCore g.core == d.carrier die).map fun g => g.core
        let s' := cores.eraseDups.foldl (fun s k => wakeCore s k 8) s'
        answer (settleWaits s')

/-- SIGNAL_PREEMPT (R150, R353): every resident team of the grid is asked to save itself, with sub-cause 0; its cores wake with code 8. -/
def execSignalPreempt (h : CmdHdr) (grid : Nat) (s : State) : Result :=
  .next <| gridCommand s h 0x21 grid (.signalPreempt h grid) fun s _ d =>
    answer ((d.panels.filter fun p => (s.panel p).status == .resident).foldl (fun s p =>
      ((panelResidents s p).map fun t => (s.team t).core).eraseDups.foldl (fun s k => wakeCore s k 8) (panelLeaves (savePanel s p 0) p)) s)

/-- SIGNAL_DIE_TARGET (R337, R353). -/
def execSignalDieTarget (h : CmdHdr) (grid target : Nat) (s : State) : Result :=
  .next <| gridCommand s h 0x21 grid (.signalDieTarget h grid target) fun s g d =>
    if d.cmd.minDies ≤ target ∧ target ≤ d.cmd.maxDies then answer (s.modGrid g fun d => { d with target := some target })
    else refuse s 1

/-- END_LAUNCH (R350): nothing of the grid remains. -/
def execEndLaunch (h : CmdHdr) (grid : Nat) (s : State) : Result :=
  .next <| gridCommand s h 0x22 grid (.endLaunch h grid) fun s g _ => answer (endGrid s g)

/-! ### Pages (R322, R326, R350, R357) -/

/-- The leaf of a virtual page of a size: the address of its entry and its first frame; host pages included. Every table stands in the
partition's memory (R323, R363). -/
def leafFrom (m : Memory) (cfg : PartitionCfg) (size vpage : Nat) : Nat → Nat → Option (Nat × Nat)
  | n, table =>
    let a := table + 8 * (vpage / 512 ^ n % 512)
    let w := memReadN m a 8
    if !inPartition cfg table 4096 || !w.testBit 0 then none
    else match n with
      | 0 =>
        if !w.testBit 1 then none
        else if size = 4096 && !w.testBit 4 then some (a, pteFrame w)
        else if size = 65536 && w.testBit 4 then some (a, pteFrame w) else none
      | n + 1 =>
        if w.testBit 1 then (if n = 0 && size == 2 ^ 21 then some (a, pteFrame w) else none)
        else leafFrom m cfg size vpage n (pteFrame w * 4096)

/-- The page a migration names: aligned, of one of the three sizes, mapped with that size inside the partition's memory. -/
def leafOf (s : State) (p : Partition) (page size : Nat) : Option (Nat × Nat) :=
  if (size = 4096 ∨ size = 65536 ∨ size = 2 ^ 21) ∧ page % size = 0 then
    match leafFrom s.mem p.cfg size (page / 4096) 3 p.cfg.root with
    | some (a, f) => if inPartition p.cfg (f * 4096) size then some (a, f) else none
    | none => none
  else none

/-- The host bit of a page's leaf entries written (R321, R356). -/
def setHost (m : Memory) (a size : Nat) (host : Bool) : Memory :=
  (List.range (if size = 65536 then 16 else 1)).foldl (fun m i =>
    let w := memReadN m (a + 8 * i) 8
    memWriteN m (a + 8 * i) 8 (if w.testBit 3 then (if host then w else w - 8) else if host then w + 8 else w)) m

/-- The walks of a partition's dies begin anew at the root, and what they have asked of other dies' tables is dropped: none of them rests
on entries that it read before an invalidation (R322). -/
def restartWalks (s : State) (p : Partition) : State :=
  let mine (r : CrossRead) : Bool := match r.owner with | .walk d _ => p.cfg.dies.contains d | _ => false
  p.cfg.dies.foldl (fun s d => s.modDie d fun x =>
    { x with walks := x.walks.map fun w => { page := w.page, table := p.cfg.root }
             requests := x.requests.filter fun r => !mine r
             responses := x.responses.filter fun r => !mine r }) s

/-- Pages invalidated in every translation cache of a partition; the walks under way there start again (R322). -/
def invalidate (s : State) (p : Partition) (page n : Nat) : State :=
  p.cfg.dies.foldl (fun s d => s.modDie d fun x => { x with tlb := dropTlb x.tlb page n }) (restartWalks s p)

/-- Every pending fault on a range of pages resolved (R326, R357). -/
def resolveAll (s : State) (p : Partition) (page n : Nat) : State :=
  p.cfg.dies.foldl (fun s d =>
    ((s.die d).faults.filter fun f => decide (page ≤ f.page) && decide (f.page < page + n)).foldl (fun s f => resolvePage s d f.page) s) s

/-- PAGE_MIGRATE_TO_DEVICE (R357): the body's bytes in the frame, the page the device's, its faults resolved. -/
def execPageMigrateToDevice (h : CmdHdr) (page size : Nat) (bytes : List Byte) (s : State) : Result :=
  .next <| partCommand s h 0x30 (.pageMigrateToDevice h page size bytes) fun s _ p =>
    if bytes.length != size then refuse s 1
    else match leafOf s p page size with
      | none => failed s 2
      | some (a, f) =>
        let s := s.setMem (setHost (memWriteBytes s.mem (f * 4096) bytes) a size false)
        answer (resolveAll (invalidate s p (page / 4096) (size / 4096)) p (page / 4096) (size / 4096))

/-- The virtual pages that segments of a unit of an operation have been translated on and that are not yet performed: read, or being
read, for a destination that is still to be written, and being written (R322, R357). A destination that waits on the fix-up list holds
nothing of them (R324). -/
def EngineUnit.pages (u : EngineUnit) : List Nat :=
  let reads := if u.dst.st = .todo && u.src.all (fun x => x.st != .skipped) then
      (u.src.filter fun x => x.isGlobal && (x.st == .done || x.st == .away)).map fun x => x.addr / 4096
    else []
  if u.dst.isGlobal && u.dst.st == .away then u.dst.addr / 4096 :: reads else reads

/-- A request whose data are a segment's; the entries of a walk are not. -/
def ReadFor.isSegment : ReadFor → Bool
  | .walk .. => false
  | _ => true

/-- The virtual pages of a partition's segments that are translated and not yet performed, in engines and between dies (R322, R357). -/
def busyPages (s : State) (p : Partition) : List Nat :=
  let there (core : Nat) : Bool := p.cfg.dies.contains (dieOfCore core)
  (s.cores.flatMap fun k => if there k.1 then
    k.2.engine.flatMap fun e => if e.2.overlaps then [] else e.2.units.flatMap EngineUnit.pages else []) ++
    p.cfg.dies.flatMap fun d =>
      let x := s.die d
      ((x.inbox.filter fun m => m.home == d).map fun m => m.page) ++
        (((x.requests ++ x.responses).filter fun r => r.owner.isSegment).map fun r => r.page)

/-- A segment already translated to one of `n` pages is not yet performed (R357). -/
def pageBusy (s : State) (part page n : Nat) : Bool :=
  match tabGet? s.parts part with
  | some p => (busyPages s p).any fun v => decide (page ≤ v) && decide (v < page + n)
  | none => false

/-- PAGE_MIGRATE_TO_HOST (R357): the page is the host's at once; its bytes return when every segment translated before is performed. -/
def execPageMigrateToHost (h : CmdHdr) (page size : Nat) (s : State) : Result :=
  .next <| partCommand s h 0x30 (.pageMigrateToHost h page size) fun s part p =>
    match leafOf s p page size with
    | none => failed s 2
    | some (a, f) =>
      let s := invalidate (s.setMem (setHost s.mem a size true)) p (page / 4096) (size / 4096)
      if pageBusy s part (page / 4096) (size / 4096) then
        let what : Awaits := .page part (page / 4096) (size / 4096) (f * 4096) size
        ({ s with pending := s.pending ++ [{ session := h.session, opcode := 0x30, what := what }] }, none)
      else answer s ((memBytes s.mem (f * 4096) size).map fun b => b.toNat)

/-- The addresses of the table entries that the walk of a virtual page reads from a table at a level on, as memory stands: at each level
its own entry, at the last also the first of its group (R321). -/
def walkPath (m : Memory) (first : Bool) (cfg : PartitionCfg) (page : Nat) : Nat → Nat → List Nat
  | n, table =>
    let here := (table + 8 * walkIndex page n) :: (if n = 0 then [groupAddr table page n] else [])
    match walkEntry cfg first page n (memBytes m (groupAddr table page n) 128), n with
    | .table a, n + 1 => here ++ walkPath m first cfg page n a
    | _, _ => here

/-- A virtual page whose translation rests on one of some table entries. -/
def restsOn (s : State) (p : Partition) (written : List Nat) (page : Nat) : Bool :=
  (walkPath s.mem s.walkFirst p.cfg page 3 p.cfg.root).any written.contains

/-- TABLE_UPDATE (R322, R350): translation entries written, and the translations that rest on them or belong to the named pages
invalidated; it completes once every segment that was translated by them is performed. -/
def execTableUpdate (h : CmdHdr) (entries : List (Nat × BitVec 64)) (pages : List Nat) (s : State) : Result :=
  .next <| partCommand s h 0x31 (.tableUpdate h entries pages) fun s part p =>
    if entries.any fun e => e.1 % 8 != 0 || !inPartition p.cfg e.1 8 then refuse s 1
    else
      let old (v : Nat) : Bool := pages.contains v || restsOn s p (entries.map fun e => e.1) v
      let stale := (p.cfg.dies.flatMap fun d => (s.die d).tlb).filter fun e => old e.page
      let busy := (busyPages s p).filter old
      let s := s.setMem (entries.foldl (fun m e => memWriteN m e.1 8 e.2.toNat) s.mem)
      let s := stale.foldl (fun s e => invalidate s p e.page e.span) (pages.foldl (fun s v => invalidate s p v 1) (restartWalks s p))
      if busy.isEmpty then answer s
      else ({ s with pending := s.pending ++ [{ session := h.session, opcode := 0x31, what := .segments part busy.eraseDups }] }, none)

/-- A fault answer: status 1 for a die outside the partition, 5 where the page does not fault there. -/
def faultAnswer (s : State) (h : CmdHdr) (die page : Nat) (cmd : Instr) (act : State → State) : State :=
  partCommand s h 0x32 cmd fun s _ p =>
    if !p.cfg.dies.contains die then refuse s 1
    else if (s.die die).faults.any fun f => f.page == page then answer (act s) else failed s 3

/-- FAULT_ANSWER_RESOLVE (R326). -/
def execFaultAnswerResolve (h : CmdHdr) (die page : Nat) (s : State) : Result :=
  .next <| faultAnswer s h die page (.faultAnswerResolve h die page) fun s => resolvePage s die page

/-- FAULT_ANSWER_REJECT (R326, R327). -/
def execFaultAnswerReject (h : CmdHdr) (die page : Nat) (s : State) : Result :=
  .next <| faultAnswer s h die page (.faultAnswerReject h die page) fun s => rejectPage s die page

end Sys2Proof.Machine
end

