-- ==== Sys2Proof/Machine/Debug.lean ====
section
/-! DEFINITION. Debug, readback, attestation, peers and boot: stops, steps and resumes (R366 to R369), recordings (R370, R371), readback
(R364), quotes (R362), peer accesses (R358), power-good (R345, R360, R361). -/

namespace Sys2Proof.Machine

/-! ### Stops and steps (R366 to R369) -/

/-- The teams a debug command names, by index, with the grid and panel; none where one of them does not exist (R366). -/
def debugTeams (s : State) (part : Nat) (t : DebugTarget) : Option (Nat × Nat × List Nat) :=
  match liveGrid s part t.grid with
  | none => none
  | some g =>
    match s.grids[g]?.bind fun d => d.panels[t.panel]? with
    | none => none
    | some p =>
      if t.whole then some (g, p, (s.panel p).teams ++ spawnedTeams s p)
      else match (s.panel p).teams.find? fun x => (s.team x).index == t.team with
        | some x => some (g, p, [x])
        | none => none

/-- The groups of some teams that have not retired. -/
def liveGroupsOf (s : State) (teams : List Nat) : List Nat :=
  (teams.flatMap fun t => (s.team t).groups).filter fun g => match s.group g with | some g => g.counts | none => false

/-- The cores that hold a group of some teams: not one that it has left. -/
def coresOfTeams (s : State) (teams : List Nat) : List Nat :=
  ((liveGroupsOf s teams).filterMap fun g => (s.group g).bind fun g => if g.status = .away then none else some g.core).eraseDups

/-- A slice sleeps until a wake of code 7. -/
def sleepsFor7 (g : Group) (i : Nat) : Bool :=
  g.waits.any fun w => w.slices.getLsbD i && w.priv == g.priv &&
    match w.kind with
    | .sleep codes => codes == 0 || codes.getLsbD 6
    | _ => false

/-- A group counts as stopped for a debug stop (R367): it has halted, at the end of its save too (R238), or double-trapped, or in its
handler every slice that has a lane to run sleeps until code 7. -/
def Group.debugStopped (g : Group) : Bool :=
  match g.status with
  | .stopped | .saved | .away => true
  | .live => g.priv && g.liveSlices.any (sleepsFor7 g) && g.liveSlices.all fun i => (g.slices.get i).mask == 0 || sleepsFor7 g i
  | _ => false

/-- The stop of some teams is complete: no step is still armed, and every live group has stopped (R367, R368). -/
def stopComplete (s : State) (teams : List Nat) : Bool :=
  (liveGroupsOf s teams).all fun g => match s.group g with
    | some g => g.debugStopped && !(s.team g.team).armed
    | none => true

/-- Bytes of a number, low byte first, as a body lists them. -/
def bodyBytes (v : Nat) : Nat → List Nat
  | 0 => []
  | n + 1 => v % 256 :: bodyBytes (v / 256) n

/-- The group record of a barrier dump (R369); a group in a handler shows the rendezvous that its trap ended. -/
def groupDump (g : Group) : List Nat :=
  let mask (f : WaitKind → Bool) : Nat :=
    (sliceBits (g.liveSlices.filter fun i => g.waits.any fun w => w.slices.getLsbD i && f w.kind)).toNat
  [g.index, (sliceBits g.liveSlices).toNat, mask (· == .bar), mask (· == .pbar),
   mask (fun k => match k with | .regang _ | .rendezvous .. => true | _ => false) ||| (if g.priv then g.ctx.dev.met.toNat else 0),
   mask fun k => match k with | .objects .. | .edges .. | .stepmark => true | _ => false, 0, 0]

/-- The barrier dump of a team (R369). -/
def teamDump (s : State) (t : Nat) : List Nat :=
  let gs := (s.team t).groups.filterMap s.group
  bodyBytes (s.team t).phase.toNat 4 ++ bodyBytes (s.panel (s.team t).panel).phase.toNat 4 ++ bodyBytes gs.length 4 ++ bodyBytes 0 4 ++
    gs.flatMap groupDump

/-- The dump of the named teams; of teams that all retired during a step, empty (R368). -/
def barrierDump (s : State) (teams : List Nat) : List Nat :=
  if (liveGroupsOf s teams).isEmpty && teams.any fun t => (s.team t).armed then [] else teams.flatMap (teamDump s)

/-- Answers that waited behind a completed command are sent, up to the next one that is not complete (R349). -/
def flushSession (s : State) (session : Nat) : State :=
  if s.pending.any fun p => p.session == session then s
  else
    let q := (s.sessions.getD session {}).queued
    endClosing (q.foldl (fun s r => s.send session r.opcode r.status r.body)
      { s with sessions := s.sessions.modify session fun x => { x with queued := [] } }) session

/-- Commands that waited for a partition's command unit come next once it is free, in their order of arrival (R349). -/
def freeUnit (s : State) (part : Option Nat) : State :=
  match part with
  | none => s
  | some n =>
    if (busyUnit s part).isSome then s
    else
      { s with
        agenda := ((s.commands.filter fun c => c.part == n).map fun c => c.cmd) ++ s.agenda
        commands := s.commands.filter fun c => c.part != n }

/-- Commands that have completed are answered (R357, R367). -/
def finishPending (s : State) : State :=
  s.pending.foldl (fun s p =>
    let finish (s : State) (body : List Nat) : State :=
      freeUnit (flushSession (({ s with pending := s.pending.erase p } : State).send p.session p.opcode 0 body) p.session) p.what.unit
    match p.what with
    | .teams _ _ ts =>
      if stopComplete s ts then
        ts.foldl (fun s t => s.modTeam t fun x => { x with armed := false }) (finish s (barrierDump s ts))
      else s
    | .page part v k a n => if pageBusy s part v k then s else finish s ((memBytes s.mem a n).map fun b => b.toNat)
    | .segments part vs => if vs.any fun v => pageBusy s part v 1 then s else finish s []) s

/-- The frame of a debug command on teams: status 5 for teams that do not exist, 3 over a stop or step that is not complete (R366). -/
def debugCommand (s : State) (h : CmdHdr) (t : DebugTarget) (stops : Bool) (cmd : Instr) (act : State → List Nat → State) : State :=
  partCommand s h 0x60 cmd fun s part _ =>
    match debugTeams s part t with
    | none => failed s 5
    | some (g, p, ts) =>
      let busy := s.pending.any fun w => match w.what with | .teams _ _ us => us.any ts.contains | _ => false
      if stops && busy then refuse s 3
      else if stops then
        (act { s with pending := s.pending ++ [{ session := h.session, opcode := 0x60, what := .teams g p ts }] } ts, none)
      else answer (act s ts)

/-- A stop request reaches the cores: they run again, without ending any sleep (R150, R367). -/
def requestStop (s : State) (ts : List Nat) : State :=
  let s := (coresOfTeams s ts).foldl (fun s k =>
    s.modCore k fun c => if c.gated && !coreStopped s k then { c with gated := false, wake := 7 } else c) s
  (liveGroupsOf s ts).foldl (fun s g => s.modGroup g fun g => { g with wantDebug := true }) s

/-- The named teams released: a code-7 wake on every core that holds a group of theirs (R368). -/
def resumeTeams (s : State) (ts : List Nat) : State := (coresOfTeams s ts).foldl (fun s k => wakeCore s k 7) s

/-- DEBUG_STOP (R367). -/
def execDebugStop (h : CmdHdr) (t : DebugTarget) (s : State) : Result := .next <| debugCommand s h t true (.debugStop h t) requestStop

/-- DEBUG_STEP (R368): the teams resume, with a stop armed at the next barrier phase. -/
def execDebugStep (h : CmdHdr) (t : DebugTarget) (s : State) : Result :=
  .next <| debugCommand s h t true (.debugStep h t) fun s ts =>
    ts.foldl (fun s x => s.modTeam x fun y => { y with armed := true }) (resumeTeams s ts)

/-- DEBUG_RESUME (R368). -/
def execDebugResume (h : CmdHdr) (t : DebugTarget) (s : State) : Result := .next <| debugCommand s h t false (.debugResume h t) resumeTeams

/-- Two commands name the same teams: with the panel bit 1 `%team` is ignored (R366). -/
def sameTeams (a b : DebugTarget) : Bool :=
  a.grid == b.grid && a.panel == b.panel && a.whole == b.whole && (a.whole || a.team == b.team)

/-- A recording command (R366): its buffer and its kinds checked; a length of 0 turns recording off, what has been raised being written. -/
def recordCommand (s : State) (h : CmdHdr) (t : DebugTarget) (base len : Nat) (ok : Bool) (kinds : Nat → Bool) (cmd : Instr)
    (new : Nat → Recording) : State :=
  partCommand s h 0x60 cmd fun s part p =>
    if !ok || base % 64 != 0 || len % 64 != 0 || (len != 0 && (decide (len < 4096) || !inPartition p.cfg base len)) then refuse s 1
    else match debugTeams s part t with
      | none => failed s 5
      | some _ =>
        let s := s.writeRecords fun _ => true
        let rest := s.recordings.filter fun r => !(r.part == part && sameTeams r.target t && kinds r.mask)
        answer { s with recordings := if len = 0 then rest else rest ++ [new part] }

/-- DEBUG_TRACE (R370): kind 5 is recorded by sampling only (R371), so bit 5 of the mask selects nothing (log 103). -/
def execDebugTrace (h : CmdHdr) (t : DebugTarget) (base len mask : Nat) (s : State) : Result :=
  .next <| recordCommand s h t base len (decide (mask < 64)) (fun m => !m.testBit 5) (.debugTrace h t base len mask) fun part =>
    { target := t, part := part, base := base, len := len, mask := mask % 32 }

/-- DEBUG_TIME_LOSS (R371). -/
def execDebugTimeLoss (h : CmdHdr) (t : DebugTarget) (base len n : Nat) (s : State) : Result :=
  .next <| recordCommand s h t base len (decide (n ≤ 24)) (fun m => m.testBit 5) (.debugTimeLoss h t base len n) fun part =>
    { target := t, part := part, base := base, len := len, mask := 32, every := n }

/-! ### Readback (R364) -/

/-- The partition of a die. -/
def ownerOf (s : State) (die : Nat) : Option Nat := (s.parts.find? fun p => p.2.cfg.dies.contains die).map fun p => p.1

/-- The ranges of memory that a die holds: its HBM, its cores' scratchpads, its clusters' SRAM, its own scratchpad (log 6). -/
def dieMemory (d : Nat) : List (Nat × Nat) :=
  [(d * 2 ^ 37, 2 ^ 37), (coreMem (192 * d), 192 * Config.coreBytes), (cluMem (2 * d), 2 * Config.sramBytes), (dieMem d, Config.dieBytes)]

/-- A range of memory that exists, and the partition that owns every byte of it. -/
def memoryOwner (s : State) (a n : Nat) : Option Nat :=
  let meets (d : Nat) : Bool := (dieMemory d).any fun r => decide (r.1 < a + n) && decide (a < r.1 + r.2)
  let covered (d : Nat) : Nat := ((dieMemory d).map fun r => min (a + n) (r.1 + r.2) - max a r.1).sum
  let ds := (List.range 12).filter meets
  match ds with
  | [] => none
  | d :: _ => if (ds.map covered).sum = n && ds.all (fun e => ownerOf s e == ownerOf s d) then ownerOf s d else none

/-- A group, team or panel of a launch that has not ended; what has ended is nobody's (R363). -/
def liveOwner (s : State) (grid part : Nat) : Option Nat :=
  match s.grids[grid]? with
  | some d => if d.ended then none else some part
  | none => none

/-- The recording whose buffer stands at a base. -/
def recordingAt (s : State) (b : Nat) : Option Recording := s.recordings.find? fun r => r.base == b

/-- The grid of a partition with a `%grid` number: what an earlier partition of the same number launched has ended with it, and is nobody's
(R351, R363). -/
def gridOf (s : State) (part number : Nat) : Option Grid := s.grids.find? fun d => d.part == part && d.number == number && !d.ended

/-- Whose state an item is: a partition's, the package's (none), or of nothing that exists. -/
def itemOwner (s : State) : ReadItem → Option (Option Nat)
  | .memory a n => (memoryOwner s a n).map some
  | .register g .. | .cell g _ _ | .uniform g _ | .slice g _ | .groupState g | .latch g | .context g =>
    ((s.group g).bind fun g => if g.status = .gone then none else liveOwner s g.grid g.part).map some
  | .boundWord c _ | .bounds c | .clusterState c | .boundQueue c => (ownerOf s (dieOfCluster c)).map some
  | .phase t | .window t _ | .teamState t | .teamKept t _ _ => (s.teams[t]?.bind fun t => liveOwner s t.grid t.part).map some
  | .panelPhase p | .panelState p | .panelKept p _ _ | .panelThreads p => (s.panels[p]?.bind fun p => liveOwner s p.grid p.part).map some
  | .vsLimit k | .tokens k | .queueLength k | .fixups k | .reservations k | .threads k | .engineSlot k _
  | .accumulator k | .element k _ _ | .matrixQueue k | .flights k | .gathers k | .coreState k => (ownerOf s (dieOfCore k)).map some
  | .vector d _ | .dieQueue d | .translations d | .pendingFaults d | .inbox d | .requests d | .responses d | .walks d | .dieState d =>
    (ownerOf s d).map some
  | .overruns p _ | .tableEntry p _ | .template p _ | .config p | .peerTraffic p | .commands p => (tabGet? s.parts p).map fun _ => some p
  | .grid p n => (gridOf s p n).map fun _ => some p
  | .trace b i => ((recordingAt s b).bind fun r => if 64 * i + 64 ≤ r.len then some r.part else none).map some
  | .traceDrops b => (recordingAt s b).map fun r => some r.part
  | .drops | .rowErrors _ | .remaps | .portDrops _ | .diodes | .timeBase | .rates | .rowWindows | .flash | .session _ | .records | .boot =>
    some none

/-- Where a team or panel stands, as readback says it. -/
def Place.code : Place → Nat
  | .waiting => 0 | .resident => 1 | .saving => 2 | .saved => 3 | .parked => 4 | .retired => 5

/-- A number that may be absent. -/
def orZero (x : Option Nat) : Nat := match x with | some n => n + 1 | none => 0

/-- Where a group stands, as readback says it. -/
def GroupStatus.code : GroupStatus → Nat
  | .starting => 0 | .live => 1 | .saved => 2 | .stopped => 3 | .retired => 4 | .away => 5 | .gone => 6

/-- A slice's own state (R29, R41 to R43, R147). -/
def sliceValue (x : Slice) : List Nat :=
  [x.pc.toNat, x.mask.toNat, x.exited.toNat, x.gang.toNat, x.fmt.toNat, x.fflags.toNat] ++
    ((List.range 4).map fun l => (x.preds.get l).toNat) ++
    (x.stack.length :: x.stack.flatMap fun e => [e.addr.toNat, e.mask.toNat, e.fmt.toNat]) ++
    x.floors ++ (List.range 4).flatMap fun l => [(x.spawned.get l).depth, orZero (x.spawned.get l).join]

/-- What slices wait for: a number for the kind, then what it names. -/
def waitKindValue : WaitKind → List Nat
  | .regang tag => [0, tag.toNat]
  | .rendezvous m go => [1, m.toNat, go.toNat]
  | .bar => [2]
  | .pbar => [3]
  | .stepmark => [4]
  | .objects xs d join ext => [5, orZero (d.map fun d => d.name.toNat), join.toNat, ext.toNat, xs.length] ++
      xs.flatMap fun x => [spaceCode x.space, x.addr, x.lanes.toNat, x.released.toNat, x.value]
  | .edges xs pass => [6, pass.toNat, xs.length] ++ xs.flatMap fun x => [x.addr, x.task, x.list, x.seen.toNat]
  | .sleep codes => [7, codes.toNat]
  | .floorRaise n => [8, n]
  | .over again => [9, again.toNat]

/-- A wait of a group (R124). -/
def waitValue (w : GangWait) : List Nat := [w.slices.toNat, w.pc.toNat, w.next.toNat, w.priv.toNat] ++ waitKindValue w.kind

/-- A group's own state and its trap context (R29, R229, R236), its requests, what its registers await, its waits (R124, R159, R228). -/
def groupValue (g : Group) : List Nat :=
  [g.part, g.grid, g.panel, g.team, g.core, g.index, g.slot, g.status.code, g.prio.toNat, g.retired.toNat, g.priv.toNat, g.saving.toNat,
   g.area, g.chunks, g.latch.isSome.toNat, g.unreserved.toNat, orZero g.rereserve, g.ctx.cause.toNat, g.ctx.targ.toNat, g.ctx.gmap.toNat] ++
    ((List.range 8).map fun i => (g.ctx.spc.get i).toNat) ++
    [g.wantCheck.toNat, g.wantDebug.toNat, g.wantPreempt.toNat, g.preemptSub, g.stepDone.toNat, g.holdsIssue.toNat, g.payload.toNat] ++
    (g.gpend.length :: g.gpend) ++ (g.gfail.length :: g.gfail.flatMap fun e => [e.1, e.2.sub, e.2.offset]) ++ g.waits.flatMap waitValue

/-- A queued thread (R264). -/
def threadValue (t : Thread) : List Nat :=
  [t.grid, t.panel, t.entry.toNat, t.prio.toNat, t.depth, orZero t.join, t.uses.toNat, t.payload.length] ++ t.payload.map fun w => w.toNat

/-- An operation of the copy engine (R167, R169). -/
def engineValue (o : EngineOp) : List Nat :=
  [match o.kind with | .move => 0 | .gath => 1 | .scat => 2 | .gatom => 3 | .wflush => 4 | .wclose => 5,
   o.group, o.team, o.slice, o.pc.toNat, o.started.toNat, o.left, o.error, o.objAddr, o.win] ++ o.desc

/-- A launch template (R354). -/
def templateValue (b : LaunchBody) : List Nat :=
  let x := b.image
  let o := b.changes
  [x.code, x.codeSize, x.param, x.paramSize, x.const, x.constSize, x.core, x.coreSize, b.kernel, orZero (b.shape.map BitVec.toNat)] ++
    ([o.floor, o.groups, o.teamBytes, o.rows, o.cols, o.sramBytes, o.panels, o.dieBytes, o.minDies, o.maxDies, o.prio,
      o.determ.map Bool.toNat].map orZero) ++ b.bounds.flatMap (fun b => [b.1, b.2.toNat]) ++ (b.param.getD []).map fun b => b.toNat

/-- A message between dies (R329). -/
def messageValue (m : Message) : List Nat :=
  [m.origin, m.home, m.addr, m.page, m.bytes.length] ++ (m.bytes.map fun b => orZero (b.map BitVec.toNat)) ++
    (match m.atom with | some q => [1, q.b, q.c, q.fmt.toNat, q.core, q.slot, q.part, q.late.toNat] | none => [0]) ++ m.stamp

/-- A queued matrix instruction: its kind and whose it is. -/
def matValue : MatOp → List Nat
  | .zero ea => [0, wrapInt 16 ea]
  | .release t => [1, t]
  | .pair g i _ _ _ _ _ _ _ n => [2, g, i, n]
  | .drain g i _ _ d _ _ a => [3, g, i, a] ++ d
  | .add g i _ _ d _ a => [4, g, i, a] ++ d

/-- A partition's configuration (R351). -/
def configValue (c : PartitionCfg) : List Nat :=
  [c.handler, c.handlerSize, c.trapOff, c.saveOff, c.restoreOff, c.quantum, c.watchdog, c.faultTimeout, c.idle, c.vsLimit, c.root,
   c.poolBase, c.poolSize, c.overBase, c.overSize] ++ c.dies ++ (c.apertures.flatMap fun a => [a.base, a.size, a.peer, a.remote]) ++ c.peers ++
    c.keyDigest.map fun b => b.toNat

/-- What a launch asks for (R24). -/
def launchValue (c : LaunchCmd) : List Nat :=
  [c.image, c.codeSize, c.entry, c.floor, c.groups, c.teamBytes, c.rows, c.cols, c.sramBytes, c.panels, c.dieBytes, c.minDies, c.maxDies,
   c.prio, c.determ.toNat, orZero (c.shape.map BitVec.toNat), c.bounds.length] ++ (c.bounds.flatMap fun b => [b.1, b.2.toNat]) ++
    [c.param, c.const, c.coreImage].flatMap fun x => x.length :: x.map fun b => b.toNat

/-- A grid (R336, R339): where it stands, its dies now and to come, the start of its watchdog's interval, and its launch. -/
def gridValue (d : Grid) : List Nat :=
  [d.number, d.status.code, d.ended.toNat, d.dies.length] ++ d.dies ++ (d.dieBases.map orZero) ++ [orZero d.target, orZero d.stuck,
    orZero d.entry, orZero (d.newDies.map List.length)] ++ d.newDies.getD [] ++ (d.panels.length :: d.panels) ++ launchValue d.cmd

/-- What package flash holds (R361). -/
def flashValue (f : Flash) : List Nat :=
  [f.allowance, f.board.watts, f.domain, orZero f.sealed_] ++ f.board.ports ++
    (f.board.rails.flatMap fun d => d.flatMap fun r => [r.low, r.high, r.amps]) ++
    ([f.clusterLimits, f.regionLimits].flatMap fun x =>
      [x.warn, x.throttle, x.trip, x.hyst].map fun v => (BitVec.ofInt 64 v).toNat) ++ f.spared

/-- A cross-die read (R330). -/
def readValue (r : CrossRead) : List Nat := [r.reader, r.home, r.addr, r.len, r.page, r.data.length] ++ r.clock

/-- A core's own state (R138, R145, R150, R257, R272). -/
def coreValue (k : Core) : List Nat :=
  [k.vsLimit, k.wake.toNat, k.gated.toNat, k.tokens, k.admissions, k.overflow, k.formations, k.requests, k.mirrorPos] ++
    k.mirror.map BitVec.toNat ++ (k.grants.flatMap fun e => [e.1, e.2]) ++ k.pricking

/-- A group's trap context as its record keeps it (R229, R236). -/
def contextValue (g : Group) : List Nat :=
  [g.ctx.gmap.toNat, g.ctx.cause.toNat, g.ctx.targ.toNat, g.ctx.dev.prio.toNat, g.ctx.dev.retired.toNat, g.ctx.dev.holder.toNat] ++
    ((List.range 4).map fun i => (g.ctx.g60.get i).toNat) ++
    (List.range 8).flatMap fun i =>
      let x := g.ctx.dev.slices.get i
      [(g.ctx.spc.get i).toNat, x.fmt.toNat, x.fflags.toNat] ++ x.floors ++ x.stack.flatMap fun e => [e.addr.toNat, e.mask.toNat, e.fmt.toNat]

/-- The corrected errors of a row that the past 24 hours of `%gtime` hold (R341). -/
def RowErrors.recent (x : RowErrors) (now : Nat) : List Nat := x.times.filter fun t => decide (now < t + 86400000000000)

/-- What readback returns for an item (R364). -/
def itemValue (s : State) : ReadItem → List Nat
  | .memory a n => (memBytes s.mem a n).map fun b => b.toNat
  | .register g sel i l => match s.group g with
    | some x => [(specialReg s x (BitVec.ofNat 10 sel) i l).toNat]
    | none => []
  | .cell g i n => match (s.group g).bind fun x => (x.slices.get i).cell n with
    | some c => (List.range 4).flatMap (fun l => [(c.data.get l).toNat, (c.count.get l).toNat, (c.pin.get l).toNat]) ++
        [c.full.toNat, c.spilled.toNat] ++ (match c.failed with | some f => [1, f.sub, f.offset] | none => [0])
    | none => []
  | .uniform g r => match s.group g with | some x => [(x.g (BitVec.ofNat 6 r)).toNat] | none => []
  | .boundWord c j => [((s.cluster c).bounds.getD j 0).toNat]
  | .phase t => [(s.team t).phase.toNat]
  | .panelPhase p => [(s.panel p).phase.toNat]
  | .vsLimit k => [(s.core k).vsLimit]
  | .tokens k => [(s.core k).tokens]
  | .reservations k => (s.core k).reservations.flatMap fun r => [r.group, r.gang, r.refused, r.isOpen.toNat, r.gathered, r.need]
  | .vector d k => [(s.die d).clock.getD k 0]
  | .drops => [s.drops]
  | .queueLength k => [(s.core k).threads.length, (s.core k).overflow]
  | .window t w =>
    let x := (s.team t).windows.getD w {}
    [x.isOpen.toNat, x.closing.toNat, x.global, x.local_, x.length, x.readOnly.toNat] ++
      x.segments.flatMap fun y => [y.present.toNat, y.dirty.toNat, y.failed.toNat]
  | .fixups k => (s.core k).fixups.flatMap fun e => [e.slot, e.page, e.part, e.off, e.len, e.access, e.reason]
  | .overruns p e => [((tabGet? s.parts p).map fun p => (tabGet p.table {} e).count).getD 0]
  | .tableEntry p e => match tabGet? s.parts p with
    | some p =>
      let x := tabGet p.table {} e
      [x.first, x.period, x.template, x.overrun, x.enable.toNat, x.count, orZero x.previous, x.slot] ++
        (match x.held with | some b => templateValue b | none => [])
    | none => []
  | .rowErrors r => [((tabGet s.rows {} r).recent s.gtime.toNat).length]
  | .remaps => s.spared
  | .portDrops p => [tabGet s.portDrops 0 p]
  | .trace b i => (memBytes s.mem (b + 64 * i) 64).map fun b => b.toNat
  | .teamState t =>
    let x := s.team t
    [x.grid, x.panel, x.index, x.core, x.base, x.size, x.status.code, x.quantum, x.spawned.toNat, x.holds.toNat, x.parking.toNat,
     orZero x.image, x.armed.toNat] ++ x.groups
  | .panelState p =>
    let x := s.panel p
    [x.grid, x.index, x.logical, x.die, x.cluster, x.row, x.col, x.base, x.size, x.status.code, x.passed,
     x.started.toNat, x.quantum] ++ x.teams
  | .dieQueue d => (s.die d).queue
  | .slice g i => match s.group g with | some x => sliceValue (x.slices.get i) | none => []
  | .groupState g => match s.group g with | some x => groupValue x | none => []
  | .threads k => (s.core k).threads.flatMap threadValue
  | .engineSlot k n => match tabGet? (s.core k).engine n with | some o => engineValue o | none => []
  | .accumulator k =>
    let x := s.core k
    [match x.owner with | some t => t + 1 | none => 0, wrapInt 16 x.anchor, x.matrix.length]
  | .element k r c =>
    let d := (s.core k).elem (r, c)
    [pack96 d.c d.p d.q d.cls d.overflow (s.core k).anchor, wrapInt 32 d.maxs, d.count]
  | .template p t => match (tabGet? s.parts p).bind fun p => tabGet? p.templates t with | some c => templateValue c | none => []
  | .traceDrops b => match recordingAt s b with | some r => [r.next, r.unread.length, r.drops] | none => []
  | .translations d => (s.die d).tlb.flatMap fun e => [e.page, e.span, e.frame, e.writable.toNat]
  | .pendingFaults d => (s.die d).faults.flatMap fun f => [f.page, f.access, f.cause, f.since]
  | .inbox d => (s.die d).inbox.flatMap messageValue
  | .matrixQueue k => (s.core k).matrix.flatMap matValue
  | .latch g => match (s.group g).bind fun x => x.latch with
    | some x => [x.ma, x.mscale] ++ (x.words.flatten ++ x.scales).map BitVec.toNat
    | none => []
  | .config p => match tabGet? s.parts p with | some p => configValue p.cfg | none => []
  | .grid p n => match gridOf s p n with | some d => gridValue d | none => []
  | .bounds c => (s.cluster c).bounds.map BitVec.toNat
  | .flights k => (s.flights.filter fun f => (match s.group f.2.group with | some g => g.core == k | none => false)).flatMap fun f =>
      [f.2.group, f.2.slice, f.2.lane, f.2.addr, f.2.size, f.2.performed.toNat]
  | .diodes => s.diodes.flatMap (fun d => [d.1, d.2]) ++ s.hot
  | .timeBase => [s.gtime.toNat, s.lastSync, s.inHoldover.toNat, (BitVec.ofInt 64 s.correction).toNat]
  | .rates => (List.range 24).map fun c => (s.cluster c).rate
  | .rowWindows => (List.range 24).map fun k => tabGet s.windows 16 k
  | .flash => flashValue s.flash
  | .requests d => (s.die d).requests.flatMap readValue
  | .responses d => (s.die d).responses.flatMap readValue
  | .walks d => (s.die d).walks.flatMap fun w => [w.page, w.level, w.table, w.asleep.toNat]
  | .dieState d => [(s.die d).stopped.toNat, (s.die d).selfRefresh.toNat]
  | .gathers k => (s.core k).gathers.flatMap fun x => [x.grid, x.panel, x.entry.toNat, x.prio.toNat, x.last, x.expired.toNat]
  | .coreState k => coreValue (s.core k)
  | .clusterState c =>
    let x := s.cluster c
    [x.cycles.toNat, x.localTime.toNat, x.gated.toNat, x.rate, x.owed, x.entry, orZero x.idle]
  | .boundQueue c => (s.cluster c).boundQueue.flatMap fun u => [u.core, u.group, u.word, u.isMax.toNat, u.sgn.toNat, u.value.toNat]
  | .peerTraffic p => (s.peerTraffic.filter fun r => r.part == p).flatMap fun r => [r.peer, r.remote, r.since]
  | .commands p => (s.commands.filter fun c => c.part == p).flatMap fun c => [c.session, c.seq]
  | .context g => match s.group g with | some x => contextValue x | none => []
  | .teamKept t a n => (memBytes (s.team t).kept a n).map fun b => b.toNat
  | .panelKept p a n => (memBytes (s.panel p).kept a n).map fun b => b.toNat
  | .panelThreads p => (s.panel p).threads.flatMap fun x => x.1 :: threadValue x.2
  | .session n => match s.sessions[n]? with
    | some x => [x.isOpen.toNat, orZero x.target, x.seq, x.sent, x.queued.length, x.closing.toNat] ++ x.waiting
    | none => []
  | .records => s.flash.packageKey.map BitVec.toNat ++ s.flash.records.flatMap fun r => r.length :: r.map BitVec.toNat
  | .boot => [s.boot.failed.toNat, s.boot.version] ++ s.boot.accepted.map Bool.toNat ++ (s.boot.log.flatMap fun x => x.map BitVec.toNat)

/-- READBACK (R364): items of the session's own partition, or of the package for its session; trace records returned become read. Items
whose values no answer can hold are refused with status 4 (R348; log 50). -/
def execReadback (h : CmdHdr) (items : List ReadItem) (s : State) : Result :=
  .next <| commandFrame s h 0x40 (.readback h items) fun s target =>
    let s := match target with | some part => restartWatchdogs s part | none => s
    if items.any fun x => itemOwner s x != some target then refuse s 2
    else if 2 ^ 24 < (items.flatMap fun x => itemValue s x).length then refuse s 4
    else
      let s' := items.foldl (fun s x => match x with
        | .trace b i => { s with recordings := s.recordings.map fun r => if r.base = b then { r with unread := r.unread.erase i } else r }
        | .memory a n => { s with recordings := s.recordings.map fun r =>
            { r with unread := r.unread.filter fun i => !(decide (a ≤ r.base + 64 * i) && decide (r.base + 64 * i + 64 ≤ a + n)) } }
        | _ => s) s
      answer s' (items.flatMap fun x => itemValue s x)

/-! ### Attestation (R362) -/

/-- A number as bytes. -/
def natBytes (v n : Nat) : List Byte := (bodyBytes v n).map fun x => BitVec.ofNat 8 x

/-- What a quote holds besides the nonce: the measurement log, whether boot failed and whether the device is provisioned (R360, R361),
the firmware version, the records' digests, the partition layout. -/
def quoteBody (s : State) : List Byte :=
  s.boot.log.flatten ++ natBytes s.boot.failed.toNat 1 ++ natBytes s.flash.sealed_.isSome.toNat 1 ++ natBytes s.boot.version 8 ++
    (s.flash.records.flatMap Config.sha3) ++
    s.parts.flatMap fun p => natBytes p.1 4 ++ natBytes ((p.2.cfg.dies.map fun d => 2 ^ d).sum) 2

/-- ATTESTATION_QUOTE (R362): a nonce of 32 to 64 bytes is answered, after a failed boot too. -/
def execAttestationQuote (nonce : List Byte) (s : State) : Result :=
  .next <|
    if s.powered && decide (32 ≤ nonce.length ∧ nonce.length ≤ 64) then
      let body := nonce ++ quoteBody s
      { s with quotes := s.quotes ++ [body ++ Config.identitySign s.flash.helper body] }
    else s

/-! ### Peers (R358) -/

/-- Where a partition's address leads for a peer's access, by its tables (R323). -/
def peerPhys (s : State) (part v : Nat) (writes : Bool) : Option Nat :=
  match walkPage s part (v / 4096) with
  | .page e => if writes && !e.writable then none else some ((e.frame + (v / 4096 - e.page)) * 4096 + v % 4096)
  | .fault _ => none

/-- The bytes of a peer's access, by their physical places; none where one of them is refused. -/
def peerBytes (s : State) (part v n : Nat) (writes : Bool) : Option (List Nat) :=
  ((List.range n).map fun i => peerPhys s part (v + i) writes).foldr (fun x r => match x, r with
    | some a, some r => some (a :: r)
    | _, _ => none) (some [])

/-- PEER_INBOUND_ACCESS (R358): an access of a peer that the partition record names, translated by the partition's tables. -/
def execPeerInboundAccess (part peer addr : Nat) (acc : PeerAccess) (s : State) : Result :=
  match tabGet? s.parts part with
  | none => .next s
  | some p => .next <|
    let s := restartWatchdogs s part
    let reply (s : State) (ok : Bool) (data : List Byte) : State :=
      { s with peerReplies := s.peerReplies ++ [{ part := part, peer := peer, ok := ok, data := data }] }
    if !p.cfg.peers.contains peer then reply s false []
    else
      let read (s : State) (as : List Nat) : List Byte := as.map fun a => memRead s.mem a
      let write (s : State) (as : List Nat) (bs : List Byte) : State :=
        s.setMem ((as.zip bs).foldl (fun m x => memWrite m x.1 x.2) s.mem)
      match acc with
      | .read n => match peerBytes s part addr n false with
        | some as => reply s true (read s as)
        | none => reply s false []
      | .write bs => match peerBytes s part addr bs.length true with
        | some as => reply (write s as bs) true []
        | none => reply s false []
      | .update op t b c => match peerBytes s part addr t.bytes true with
        | some as =>
          let old := read s as
          let (new, _) := atomNew (Arith.of 0) op t (bytesNat old) b.toNat c.toNat
          reply (write s as (natBytes new t.bytes)) true old
        | none => reply s false []

/-- The flags of an update that a peer has made of an element, under the `%fmt` of its operation (R65, R175): the device finds them from the
operands it sent and the old value that has come back. -/
def peerFlags (s : State) (core slot old : Nat) (acc : PeerAccess) : State :=
  match tabGet? (s.core core).engine slot, acc with
  | some o, .update op t b c => raiseIn s o.group o.slice (atomNew (Arith.of o.fmt) op t old b.toNat c.toNat).2
  | _, _ => s

/-- A peer's acknowledgement of an access given to its owner: an operation counts now (R358), its flags and old value there (R65, R195). -/
def peerDone (s : State) (acc : PeerAccess) (o : ReadFor) (bs : List Byte) : State :=
  match o with
  | .old core slot i =>
    endOp (unitWritten (deliverOld (peerFlags s core slot (bytesNat bs) acc) core slot i (bytesNat bs)) core slot i true true) core slot
  | .wrote core slot i =>
    let lost := match tabGet? (s.core core).engine slot with
      | some x => match x.units[i]? with | some u => u.src.any fun y => y.st == .lost | none => false
      | none => false
    endOp (unitWritten s core slot i (!lost) true) core slot
  | _ => deliver s o bs

/-- A segment that a peer refuses or does not acknowledge fails with code 6 (R165, R176, R358). -/
def peerFailed (s : State) (o : ReadFor) : State :=
  match o with
  | .piece core slot i k => moveUnit (loseSrc s core slot i k 6) core slot i false
  | .fill team win seg => failSegment s team win seg
  | .wback team win seg => endWriteback s team win seg 6
  | .walk .. => s
  | .old core slot i | .wrote core slot i => endOp (loseDst s core slot i 6) core slot

/-- The die whose clocks move on what awaits remote data. -/
def ReadFor.die (s : State) : ReadFor → Nat
  | .piece core .. | .old core .. | .wrote core .. => dieOfCore core
  | .fill team .. | .wback team .. => dieOfCore (s.team team).core
  | .walk d _ => d

/-- PEER_ACKNOWLEDGE (R358): the first of an access stands; while its owner's clock stands still it is kept (R305; log 72). -/
def execPeerAcknowledge (idx : Nat) (data : List Byte) (refused : Bool) (s : State) : Result :=
  match s.peerTraffic[idx]? with
  | none => .next s
  | some r =>
    let a := r.reply.getD (data, refused)
    .next (if (s.die (r.owner.die s)).stopped then { s with peerTraffic := s.peerTraffic.set idx { r with reply := some a } }
      else
        let s := { s with peerTraffic := s.peerTraffic.eraseIdx idx }
        if a.2 then peerFailed s r.owner else peerDone s r.acc r.owner a.1)

/-- PEER_NO_ACKNOWLEDGE_TIMEOUT (R358): after the partition's fault timeout, where no acknowledgement has come. -/
def execPeerNoAcknowledgeTimeout (idx : Nat) (s : State) : Result :=
  match s.peerTraffic[idx]? with
  | none => .next s
  | some r =>
    let limit := ((tabGet? s.parts r.part).map fun p => p.cfg.faultTimeout).getD 0
    .next (if limit != 0 && decide (r.since + limit ≤ s.gtime.toNat) && r.reply.isNone then
      peerFailed { s with peerTraffic := s.peerTraffic.eraseIdx idx } r.owner else s)

/-! ### Power and boot (R345, R360, R361) -/

/-- The stages measured up to the first that fails its verification, and whether all passed (R360). -/
def measure : List (List Byte) → List (List Byte) × Bool
  | [] => ([], true)
  | x :: r =>
    if Config.rootVerifies x then
      let (l, ok) := measure r
      (Config.sha3 x :: l, ok)
    else ([Config.sha3 x], false)

/-- A boot from one flash device: its measurement log, the version of its first stage, and whether it failed; an image below the sealed
version is refused (R361). -/
def bootFrom (f : Flash) (stages : List (List Byte)) : Boot :=
  let (log, ok) := measure stages
  let version := Config.imageVersion (stages.headD [])
  { log := log, version := version,
    failed := !ok || stages.isEmpty || (match f.sealed_ with | some v => decide (version < v) | none => false) }

/-- The package allowance in force, in watts (R344, R345): the accepted record's, unless it is above 7.2 kW or above what the accepted
board record provides; then as much as these allow. -/
def State.watts (s : State) : Nat :=
  let board := if s.recordOk 3 then s.flash.board.watts else 7200
  if s.recordOk 1 && decide (s.flash.allowance ≤ 7200) && decide (s.flash.allowance ≤ board) then s.flash.allowance else min 7200 board

/-- What a stack's row activations may draw with a window of so many ns, in milliwatts: a 24th of the 1.1 kW of R344 at the nominal
window, less with fewer activations (log 2). -/
def stackDraw (ns : Nat) : Nat := 1100000 * 16 / (24 * ns)

/-- What a sum of injection rates may draw in milliwatts: 5.6 kW at the full rate of 24 clusters (R297, R344; log 2). -/
def ringDraw (rate : Nat) : Nat := (rate * 5600000 + 12441599) / 12441600

/-- The window the stacks start with: the nominal one, or where the allowance leaves too little for it the shortest with which the stacks
and the rest of the package stay within it, at most 256 ns (R335, R344; log 2). -/
def startWindow (watts : Nat) : Nat :=
  (((List.range 241).map fun i => 16 + i).find? fun ns => decide (24 * stackDraw ns + 500000 ≤ 1000 * watts)).getD 256

/-- The rate a cluster starts with: its 24th of what the allowance leaves beside the stacks at their nominal window and the rest of the
package, at most the full rate (log 2). -/
def startRate (watts : Nat) : Nat := min 518400 ((watts - 1600) * 12441600 / (5600 * 24))

/-- POWER_GOOD_ASSERT (R345, R360, R361): boot from die 0's flash device, and from die 11's when verification fails there; the signed
records are accepted where they verify, the spare-row map is applied again (R342), and the rings and the stacks start within the allowance
(R344). -/
def execPowerGoodAssert (stages backup : List (List Byte)) (s : State) : Result :=
  .next <|
    if s.powered then s
    else
      let first := bootFrom s.flash stages
      let b := if first.failed then bootFrom s.flash backup else first
      let f := if b.failed then s.flash else { s.flash with sealed_ := s.flash.sealed_.map fun v => max v b.version }
      let b := { b with accepted := f.records.map Config.rootVerifies }
      let s : State := { s with powered := true, boot := b, flash := f }
      { s with
        clusters := (List.range 24).map fun c => (c, { rate := startRate s.watts })
        windows := if startWindow s.watts = 16 then [] else (List.range 24).map fun k => (k, startWindow s.watts)
        spared := if s.recordOk 4 then s.flash.spared else [] }

/-- POWER_GOOD_REMOVE (R345): the device is in reset again and keeps no state; package flash does, and what is the model's own. -/
def execPowerGoodRemove (s : State) : Result :=
  .next { flash := s.flash, agenda := s.agenda, cur := s.cur, tick := s.tick, freeCount := s.freeCount }

end Sys2Proof.Machine
end

