-- ==== Sys2Proof/Machine/Power.lean ====
section
/-! DEFINITION. Prices, the shuttle ring, refusals and reservations (R297 to R300), clocks and the time base (R301 to R303, R347),
temperature (R304, R305), power gating (R306, R307), the row-activation governor (R335), soft errors (R341, R342). -/

namespace Sys2Proof.Machine

/-! ### Prices (R298) -/

/-- Whether an instruction is uniform: formats U and U2 (R80, R81). -/
def isUniform : Instr → Bool
  | .gaddReg .. | .gaddImm .. | .gaddU2 .. | .gsubReg .. | .gsubImm .. | .gsubU2 .. | .gmulReg .. | .gmulImm .. | .gmulU2 ..
  | .gshlReg .. | .gshlImm .. | .gshlU2 .. | .gshrReg .. | .gshrImm .. | .gshrU2 .. | .gandReg .. | .gandImm .. | .gandU2 ..
  | .gorReg .. | .gorImm .. | .gorU2 .. | .gxorReg .. | .gxorImm .. | .gxorU2 .. | .gcmp .. | .gmov .. | .gli .. | .gliU2 .. | .gliHi ..
  | .gbr .. | .gld .. | .gst .. | .setfmt .. | .setfmtImm .. | .setfmtM .. | .setprio .. | .setprioW ..
  | .sread .. | .sreadU2 .. | .sreadLane .. | .swrite .. | .capq .. | .capqReg .. | .capqW .. => true
  | _ => false

/-- The tokens of a lane instruction under a `%fmt` (R298); a uniform one costs none. -/
def instrPrice (i : Instr) (fmt : Word32) : Nat :=
  if isUniform i then 0
  else match i with
    | .frcp .. | .frsq .. | .fsqrt .. | .fexp2 .. | .flog2 .. | .fsinpi .. | .fcospi .. | .ftanh .. | .lanePair .. => 3
    | .tmove .. | .tgath .. | .tscat .. | .gatom .. | .wflush .. | .wclose .. => 4
    | .mpair .. => 48 * matSteps fmt
    | _ => 2

/-- The price of the instruction a gang holds. -/
def heldPrice (s : State) (g : Group) (gang : BitVec 3) : Nat :=
  match heldInstr s g gang with
  | some (.ok i) => instrPrice i (g.slices.get ((g.gangSlices gang).headD 0)).fmt
  | _ => 0

/-! ### The time base (R303, R347) -/

/-- What the time base has counted after its oscillator has counted `e` more nanoseconds: a correction is slewed at most 200 ppm, and what
it has added stays added. -/
def State.slew (s : State) (e : Nat) : State :=
  let credit := s.slewCredit + 200 * e
  let most : Int := credit / 1000000
  let c := if s.correction < 0 then max s.correction (-most) else min s.correction most
  { s with gtime := s.gtime + BitVec.ofNat 64 ((e : Int) + c).toNat, correction := s.correction - c, offset := s.offset + c,
           slewCredit := credit % 1000000 }

/-- Intervals that do not advance for a context, a launch (R196), with groups on a stopped die (R305): its quanta and its watchdog's
interval move on by `d`. -/
def holdStopped (s : State) (d : Nat) : State :=
  if d = 0 || !(s.dies.any fun x => x.2.stopped) then s
  else
    { s with
      panels := s.panels.map fun p => if p.status = .resident && onStoppedDie s p.grid then { p with quantum := p.quantum + d } else p
      teams := s.teams.map fun t => if t.status = .resident && onStoppedDie s t.grid then { t with quantum := t.quantum + d } else t
      grids := s.grids.zipIdx.map fun x => match x.1.stuck with
        | some t => if onStoppedDie s x.2 then { x.1 with stuck := some (t + d) } else x.1
        | none => x.1 }

/-- The injection rate in force: halved while the cluster's diode is in throttle or above (R305). -/
def effectiveRate (s : State) (cluster : Nat) : Nat :=
  let r := (s.cluster cluster).rate
  if 2 ≤ tabGet s.diodes 0 cluster then r / 2 else r

/-- A cluster's clock runs (R301). -/
def clockRuns (s : State) (cluster : Nat) : Bool := !(s.cluster cluster).gated && !(s.die (dieOfCluster cluster)).stopped

/-- What the passing of `d` ns of `%gtime` does: stopped contexts' intervals are held, every running cluster's copy follows, and its
injector owes what has elapsed (R297, R303, R305). -/
def elapse (s : State) (d : Nat) : State :=
  let s := holdStopped s d
  { s with clusters := s.clusters.map fun k =>
      if clockRuns s k.1 then (k.1, { k.2 with localTime := s.gtime, owed := k.2.owed + effectiveRate s k.1 * d }) else k }

/-- Time passes up to an oscillator count; the time base follows it with its corrections, and never goes back (R303). -/
def passTime (s : State) (now : BitVec 64) : State :=
  let before := s.gtime.toNat
  let next : Int := now.toNat + s.offset
  let s := if (before : Int) < next then s.slew (next - before).toNat else s
  elapse s (s.gtime.toNat - before)

/-! ### Refusals, reservations, drawing (R297, R299) -/

/-- A refusal counted for a gang; at the 16th its reservation opens, for the price given, behind those open already. -/
def Core.refuse (k : Core) (gid gang price : Nat) : Core :=
  let mine (r : Reservation) : Bool := r.group == gid && r.gang == gang
  match k.reservations.find? mine with
  | some r =>
    let r := { r with refused := r.refused + 1 }
    if 16 ≤ r.refused && !r.isOpen then
      { k with reservations := (k.reservations.filter fun x => !mine x) ++ [{ r with isOpen := true, need := price }] }
    else { k with reservations := k.reservations.map fun x => if mine x then r else x }
  | none => { k with reservations := k.reservations ++ [{ group := gid, gang := gang, refused := 1 }] }

/-- Tokens set aside for open reservations, in the order of their opening; what is left over. -/
def setAside : List Reservation → Nat → List Reservation × Nat
  | [], n => ([], n)
  | r :: rs, n =>
    let k := if r.isOpen then min n (r.need - r.gathered) else 0
    let (out, left) := setAside rs (n - k)
    ({ r with gathered := r.gathered + k } :: out, left)

/-- A core draws what passes, up to 256 held (R297, R299); what passes on. -/
def Core.draw (k : Core) (passing : Nat) : Core × Nat :=
  let n := min passing (256 - k.holding)
  let (rs, left) := setAside k.reservations n
  ({ k with reservations := rs, tokens := k.tokens + left }, passing - n)

/-- The groups resident in a cluster, with their numbers. -/
def clusterGroups (s : State) (cluster : Nat) : List (Nat × Group) :=
  (s.groups.zipIdx.filter fun g => clusterOfCore g.1.core == cluster && g.1.resident g.1.core).map fun g => (g.2, g.1)

/-- The refusals of the cycle that ends, counted at their cores (R299). -/
def countRefusals (s : State) (cluster : Nat) : State :=
  (clusterGroups s cluster).foldl (fun s g =>
    (List.range 8).foldl (fun s n =>
      if g.2.refused.getLsbD n then s.modCore g.2.core fun k => k.refuse g.1 n (heldPrice s g.2 (BitVec.ofNat 3 n)) else s) s) s

/-- The tokens injected pass the cluster's cores from the entry point on, which then moves on by one (R297). -/
def ringCycle (s : State) (cluster : Nat) : State :=
  let k := s.cluster cluster
  let s := s.setCluster cluster { k with owed := k.owed % 1000, entry := (k.entry + 1) % Config.coresPerCluster }
  if k.owed / 1000 = 0 then s
  else
    ((List.range Config.coresPerCluster).foldl (fun (x : State × Nat) i =>
      let c := cluster * Config.coresPerCluster + (k.entry + i) % Config.coresPerCluster
      let (q, left) := (x.1.core c).draw x.2
      (x.1.setCore c q, left)) (s, k.owed / 1000)).1

/-- The marks of a cycle removed (R33, R141), those of the gangs it held kept until they are tried again; a core none of whose gangs can go
on is clock-gated (R150). -/
def newCycle (s : State) (cluster : Nat) : State :=
  let mine (core : Nat) : Bool := clusterOfCore core == cluster
  { s with
    groups := s.groups.map fun g => if mine g.core then { g with issued := false, heldLast := g.held, held := 0, refused := 0 } else g
    cores := s.cores.map fun k => if mine k.1 then (k.1, { k.2 with portLane := 0, portUni := 0 }.gate (coreBusy s k.1)) else k }

/-- The sections of a cluster's cores that still hold more than their lowered limits go on evicting (R138). -/
def shrinkOn (s : State) (cluster : Nat) : State :=
  ((s.cores.filter fun k => clusterOfCore k.1 == cluster && decide (k.2.vsLimit < Config.sectionCells)).map fun k => k.1).foldl shrinkSections s

/-- A cluster holds no group, no queued thread, no panel allocation and no engine operation (R306). -/
def clusterIdle (s : State) (cluster : Nat) : Bool :=
  !(s.groups.any fun g => clusterOfCore g.core == cluster && g.resident g.core) &&
    !(s.cores.any fun k => clusterOfCore k.1 == cluster && (!k.2.threads.isEmpty || !k.2.engine.isEmpty)) &&
    !(s.panels.any fun p => p.cluster == cluster && (p.status == .resident || p.status == .saving)) &&
    !(s.teams.any fun t => t.holds && clusterOfCore t.core == cluster)

/-- The idle timer of a cluster. -/
def trackIdle (s : State) (cluster : Nat) : State :=
  let idle := clusterIdle s cluster
  s.modCluster cluster fun k => { k with idle := if idle then some (k.idle.getD s.gtime.toNat) else none }

/-- The watchdog intervals: they restart when a group has issued or something else can move (R196). -/
def trackStuck (s : State) : State :=
  { s with grids := s.grids.zipIdx.map fun d =>
      let moved := s.groups.any fun g => g.grid == d.2 && g.issued
      { d.1 with stuck := if !moved && contextStuck s d.2 then some (d.1.stuck.getD s.gtime.toNat) else none } }

/-- TOKEN_CYCLE (R297, R299, R302): the cycle of a cluster ends and the next begins, at an oscillator count of the time base; the records
that its cores have raised in it are written (R370). A cluster whose clock stands still only sees time pass. -/
def execTokenCycle (cluster : Nat) (now : BitVec 64) (s : State) : Result :=
  .next <|
    if !s.powered then s
    else
      let s := passTime s now
      if !clockRuns s cluster then s
      else
        let s := trackStuck (countRefusals s cluster)
        let s := (s.modCluster cluster fun k => { k with cycles := k.cycles + 1 }).writeRecords fun k => clusterOfCore k == cluster
        finishPending (trackIdle (ringCycle (newCycle (shrinkOn s cluster) cluster) cluster) cluster)

/-! ### Gating and clocks (R303, R306, R307, R347) -/

/-- GATE_REQUEST (R306, R307): a cluster idle for its partition's idle time is gated; a dispatch in the same cycle has ended its
idleness and wins. -/
def execGateRequest (cluster : Nat) (s : State) : Result :=
  let limit := match ownerOf s (dieOfCluster cluster) with
    | some p => ((tabGet? s.parts p).map fun p => p.cfg.idle).getD 1000000
    | none => 1000000
  .next <| match (s.cluster cluster).idle with
    | some t =>
      if s.powered && !(s.cluster cluster).gated && clusterIdle s cluster && decide (t + limit ≤ s.gtime.toNat) then
        s.modCluster cluster fun k => { k with gated := true, idle := none }
      else s
    | none => s

/-- GTIME_RESYNC (R303): a running cluster reloads its copy of the time base. -/
def execGtimeResync (cluster : Nat) (s : State) : Result :=
  .next (if s.powered && clockRuns s cluster then s.modCluster cluster fun k => { k with localTime := s.gtime } else s)

/-- PTP_SYNC_MESSAGE (R303, R347): the time base takes its correction from the time of the grandmaster of the package record's domain;
more than 1 ms forward it steps, otherwise, and after a holdover until it is within 1 ms again, it slews. -/
def execPtpSyncMessage (master : Grandmaster) (s : State) : Result :=
  .next <|
    if !s.powered || !s.recordOk 2 || master.domain != s.flash.domain then s
    else
      let off : Int := (master.time : Int) - s.gtime.toNat
      let back := (s.inHoldover || s.relocking) && decide (1000000 < off)
      let s := { s with lastSync := s.gtime.toNat, inHoldover := false, relocking := back }
      if 1000000 < off && !back then
        elapse { s with gtime := BitVec.ofNat 64 master.time, correction := 0, offset := s.offset + off, lastSync := master.time } off.toNat
      else { s with correction := off }

/-- HOLDOVER (R347): no synchronisation message for 2 s; the host hears of it, and the time base runs on its own oscillator. -/
def execHoldover (s : State) : Result :=
  .next <|
    if s.powered && !s.inHoldover && decide (s.lastSync + 2000000000 ≤ s.gtime.toNat) then
      ({ s with inHoldover := true, correction := 0 } : State).event none [9]
    else s

/-! ### Temperature (R304, R305) -/

/-- Thresholds in rising order with a hysteresis of 0 to 15 °C (R304). -/
def Thresholds.ok (x : Thresholds) : Bool := decide (x.warn < x.throttle ∧ x.throttle < x.trip ∧ 0 ≤ x.hyst ∧ x.hyst ≤ 15)

/-- A diode's number in the table of thermal states, its die and its thresholds: those of its class's record, or the defaults when the
record breaks the rule or is not accepted (R304, R360). -/
def diodeOf (s : State) : Diode → Nat × Nat × Thresholds
  | .cluster c =>
    (c, dieOfCluster c, if s.recordOk 0 && s.flash.clusterLimits.ok then s.flash.clusterLimits else ⟨95, 105, 115, 5⟩)
  | .region k r =>
    (100 + 4 * k + r, k / 2, if s.recordOk 0 && s.flash.regionLimits.ok then s.flash.regionLimits else ⟨85, 95, 105, 5⟩)

/-- When a diode's next poll is due: every 100 µs of `%gtime` (R304). -/
def pollDue (s : State) (key : Nat) : Nat := tabGet s.polls 100000 key

/-- The threshold of a state. -/
def Thresholds.of (x : Thresholds) (st : Nat) : Int := if st = 1 then x.warn else if st = 2 then x.throttle else x.trip

/-- A diode's state after a reading: up to the highest level reached, or down by one (R305). -/
def diodeNext (x : Thresholds) (st : Nat) (t : Int) : Nat :=
  let reached := if x.trip ≤ t then 3 else if x.throttle ≤ t then 2 else if x.warn ≤ t then 1 else 0
  if st < reached then reached else if st != 0 && decide (t < x.of st - x.hyst) then st - 1 else st

/-- The diodes of a die. -/
def diodesOfDie (die : Nat) : List Nat :=
  [2 * die, 2 * die + 1] ++ ([2 * die, 2 * die + 1].flatMap fun k => (List.range 4).map fun r => 100 + 4 * k + r)

/-- A diode's state after a reading, told to the host when it changes, and whether the reading is below its trip threshold minus its
hysteresis. While the die is stopped none falls below throttle, the state in which the die resumes (R305; DEDUCED, log 72). -/
def State.poll (s : State) (key : Nat) (stopped : Bool) (limits : Thresholds) (reading : Int) : State :=
  let old := tabGet s.diodes 0 key
  let next := diodeNext limits old reading
  let new := if stopped && decide (2 ≤ old) then max 2 next else next
  let cooler := s.hot.filter fun k => k != key
  let s := { s with hot := if reading < limits.trip - limits.hyst then cooler else cooler ++ [key] }
  if new = old then s
  else ({ s with diodes := tabSet s.diodes key new } : State).event none [5, key, (BitVec.ofInt 64 reading).toNat, new]

/-- A die's clocks stand still: one of its diodes is in trip, or they already stood still and one has not read below its trip threshold
minus its hysteresis since (R305). -/
def dieHot (s : State) (die : Nat) : Bool :=
  (diodesOfDie die).any fun k => tabGet s.diodes 0 k == 3 || ((s.die die).stopped && s.hot.contains k)

/-- A diode of one of the die's HBM regions is in trip: the stacks refresh themselves until the stop ends (R305). -/
def regionTrip (s : State) (die : Nat) : Bool := (diodesOfDie die).any fun k => decide (100 ≤ k) && tabGet s.diodes 0 k == 3

/-- The clocks of a die run again (R305): its clusters' copies of the time base are reloaded (R303), what was released and what came
meanwhile reaches its cores. -/
def endStop (s : State) (die : Nat) : State :=
  let s := s.modDie die fun x => { x with stopped := false }
  let s := [2 * die, 2 * die + 1].foldl (fun s c => s.modCluster c fun k =>
    { k with localTime := if k.gated then k.localTime else s.gtime }) s
  ((s.cores.filter fun k => dieOfCore k.1 == die && k.2.wakes != 0).map fun k => k.1).foldl hearWakes (settleWaits s)

/-- THERMAL_POLL (R304, R305): when it is due, the diode's state, its event, a trip's stop of the die's clocks and the self-refresh of its
stacks, and the stop's end. -/
def execThermalPoll (d : Diode) (reading : Int) (s : State) : Result :=
  .next <|
    let (key, die, limits) := diodeOf s d
    if !s.powered || decide (s.gtime.toNat < pollDue s key) then s
    else
      let s := { s with polls := tabSet s.polls key ((s.gtime.toNat / 100000 + 1) * 100000) }
      let s := s.poll key (s.die die).stopped limits reading
      let stop := dieHot s die
      let was := (s.die die).stopped
      let s := s.modDie die fun x => { x with selfRefresh := stop && (x.selfRefresh || regionTrip s die) }
      if was = stop then s
      else if was then endStop s die
      else s.modDie die fun x => { x with stopped := true }

/-! ### The power manager (R297, R335, R344) -/

/-- The effective row-activation window of a stack in ns (R335): the setting, doubled up to 256 ns while one of its regions is in
throttle or trip. -/
def effectiveWindow (s : State) (stack : Nat) : Nat :=
  let w := tabGet s.windows 16 stack
  if (List.range 4).any fun r => decide (2 ≤ tabGet s.diodes 0 (100 + 4 * stack + r)) then min 256 (2 * w) else w

/-- The sum of the 24 clusters' injection rates. -/
def totalRate (s : State) : Nat := ((List.range 24).map fun c => (s.cluster c).rate).sum

/-- The sum of what the 24 stacks' row activations may draw under their settings, in milliwatts. -/
def totalStacks (s : State) : Nat := ((List.range 24).map fun k => stackDraw (tabGet s.windows 16 k)).sum

/-- Rings that inject so many tokens, stacks that may draw so much and the rest of the package's 0.5 kW stay within the allowance (R344). -/
def withinAllowance (s : State) (rate draws : Nat) : Bool := decide (ringDraw rate + draws + 500000 ≤ 1000 * s.watts)

/-- A change of what rings or stacks may draw that the power manager makes: the package is within its allowance after it, or nearer to it
than before (R344; log 2). -/
def drawAllowed (s : State) (rate draws : Nat) : Bool :=
  withinAllowance s rate draws || decide (ringDraw rate + draws < ringDraw (totalRate s) + totalStacks s)

/-- POWER_MANAGER_SETTING (R297, R335, R344): an injection rate, or a stack's window from 16 ns to 256 ns, with which the package stays
within its allowance or comes nearer to it (log 2). -/
def execPowerManagerSetting (p : PowerSetting) (s : State) : Result :=
  .next <|
    if !s.powered then s
    else match p with
      | .injection c rate =>
        if decide (c < 24) && drawAllowed s (totalRate s - (s.cluster c).rate + rate) (totalStacks s) then
          s.modCluster c fun k => { k with rate := rate }
        else s
      | .window k ns =>
        if decide (k < 24 ∧ 16 ≤ ns ∧ ns ≤ 256) &&
            drawAllowed s (totalRate s) (totalStacks s - stackDraw (tabGet s.windows 16 k) + stackDraw ns) then
          { s with windows := tabSet s.windows k ns }
        else s

/-! ### Soft errors (R341, R342) -/

/-- A row's bank, its die and whether it is a row of HBM: rows are numbered die, then memory (0 HBM, 1 value store, 2 core scratchpad,
3 cluster SRAM, 4 die scratchpad), then 19 bits of bank, then 20 bits of row (log 9). -/
def rowBank (row : Nat) : Nat := row / 2 ^ 20
/-- The memory of a row. -/
def rowMemory (row : Nat) : Nat := row / 2 ^ 39 % 8
/-- The die of a row. -/
def rowDie (row : Nat) : Nat := row / 2 ^ 42

/-- The spare rows of a bank (R342). -/
def sparesOf (row : Nat) : Nat := if rowMemory row = 0 then 8 else 4

/-- The spare rows of a row's bank that are used, or being filled. -/
def sparesUsed (s : State) (row : Nat) : Nat :=
  (s.spared.filter fun r => rowBank r == rowBank row).length +
    (s.rows.filter fun r => r.2.copying && rowBank r.1 == rowBank row).length

/-- A die's table of rows with room for one more: at 4,096 the row whose latest error is oldest is dropped (R341); a copy of it to its
spare that is under way goes on (R342). -/
def makeRoom (rows : Table RowErrors) (die : Nat) : Table RowErrors :=
  let mine := rows.filter fun r => rowDie r.1 == die && !r.2.times.isEmpty
  if mine.length < 4096 then rows
  else match mine with
    | [] => rows
    | r :: rs =>
      let latest (x : Nat × RowErrors) : Nat := x.2.times.getLastD 0
      let old := rs.foldl (fun a b => if latest b < latest a then b else a) r
      if old.2.copying then tabSet rows old.1 { old.2 with times := [] } else tabErase rows old.1

/-- CORRECTED_ERROR (R341, R342): counted over the past 24 hours; the third marks the row, and its copy to a spare begins. -/
def execCorrectedError (row : Nat) (s : State) : Result :=
  .next <|
    if !s.powered then s
    else
      let now := s.gtime.toNat
      let rows := if (tabGet s.rows {} row).times.isEmpty then makeRoom s.rows (rowDie row) else s.rows
      let x := tabGet rows {} row
      let times := x.recent now ++ [now]
      let x := { x with times := times }
      if 3 ≤ times.length && !x.copying then
        if sparesUsed s row < sparesOf row then { s with rows := tabSet rows row { x with copying := true } }
        else ({ s with rows := tabSet rows row x } : State).event none [10, rowDie row, rowMemory row, rowBank row % 2 ^ 19, row % 2 ^ 20]
      else { s with rows := tabSet rows row x }

/-- The spare map written to the device's record in package flash (R342, R361). -/
def Flash.remap (f : Flash) (rows : List Nat) : Flash :=
  { f with spared := rows, records := (f.records ++ List.replicate (5 - f.records.length) []).set 4 (Config.spareRecord rows) }

/-- SPARE_ROW_COPY_COMPLETE (R342): the row's addresses lead to the spare, whose count is its own; the map in package flash says so. -/
def execSpareRowCopyComplete (row : Nat) (s : State) : Result :=
  .next <|
    if (tabGet s.rows {} row).copying then
      ({ s with rows := tabErase s.rows row, spared := s.spared ++ [row], flash := s.flash.remap (s.spared ++ [row]) } : State).event none
        [8, rowDie row, rowMemory row, rowBank row % 2 ^ 19, row % 2 ^ 20]
    else s

/-- The populated ports (R345, R360): those of the board record where it verifies, else all 24 of the package's. -/
def State.ports (s : State) : List Nat := if s.recordOk 3 then s.flash.board.ports else List.range 24

/-- UNRELIABLE_PACKET_RECEIVED (R346): on a populated port (R345), dropped and counted. -/
def execUnreliablePacketReceived (port : Nat) (s : State) : Result :=
  .next (if s.powered && s.ports.contains port then
    { s with portDrops := tabSet s.portDrops port (tabGet s.portDrops 0 port + 1) } else s)

end Sys2Proof.Machine
end

