-- ==== Sys2Proof/Machine/Schedule.lean ====
section
/-! DEFINITION. Which step comes next when no event is waiting on the agenda (log 1): the choice of a gang (R33, R140, R141, R151, R245),
the requests taken first (R228), the device's own events in turn, and the passing of cluster cycles. -/

namespace Sys2Proof.Machine

/-! ### Events -/

/-- What the part does on its own, or the outside world makes it do; everything else is an instruction of a program. -/
def isEvent : Instr → Bool
  | .trapEntry .. | .quantumExpiry .. | .teamSaveLeave .. | .distributorAdmit .. | .gridStart .. | .teamRetire .. | .spillWriteComplete ..
  | .cellRefill .. | .floorRaiseGrant .. | .reReservation .. | .memoryAccessPerform .. | .loadDataArrival .. | .windowFillComplete ..
  | .windowWriteback .. | .windowCloseComplete .. | .engineOpStart .. | .engineUnitTransfer .. | .mpairStep .. | .drainPerform ..
  | .addOnStorePerform .. | .ownershipEnd .. | .translationWalkComplete .. | .faultTimeout .. | .crossDieAccept .. | .crossDieReadServe ..
  | .crossDieReadDeliver .. | .spawnOverflowReturn .. | .gatherTimeout .. | .groupFormation .. | .threadSteal .. | .payloadArrival ..
  | .teamPark .. | .parkedTeamReturn .. | .boundUnitUpdate .. | .boundMirrorUpdate .. | .deadlockWatchdog .. | .tokenCycle ..
  | .thermalPoll .. | .gateRequest .. | .gtimeResync .. | .ptpSyncMessage .. | .holdover | .correctedError .. | .powerGoodAssert ..
  | .powerGoodRemove | .sessionOpen .. | .sessionClose .. | .partitionConfigure .. | .launch .. | .signalArrive .. | .signalPreempt ..
  | .signalDieTarget .. | .endLaunch .. | .pageMigrateToDevice .. | .pageMigrateToHost .. | .tableUpdate .. | .faultAnswerResolve ..
  | .faultAnswerReject .. | .readback .. | .launchTableUpdate .. | .launchTableSlot .. | .debugStop .. | .debugStep .. | .debugResume ..
  | .debugTrace .. | .debugTimeLoss .. | .attestationQuote .. | .peerInboundAccess .. | .peerAcknowledge .. | .peerNoAcknowledgeTimeout ..
  | .powerManagerSetting .. | .spareRowCopyComplete .. | .unreliablePacketReceived .. => true
  | _ => false

/-! ### Clocks that stand still (R305, R306) -/

/-- The cluster that holds a group. -/
def groupCluster (s : State) (gid : Nat) : Option Nat := (s.group gid).map fun g => clusterOfCore g.core

/-- The cluster whose clock moves an event on. -/
def eventCluster (s : State) : Instr → Option Nat
  | .trapEntry g .. | .spillWriteComplete g .. | .cellRefill g .. | .floorRaiseGrant g .. | .payloadArrival g => groupCluster s g
  | .memoryAccessPerform f | .loadDataArrival f => (tabGet? s.flights f).bind fun x => groupCluster s x.group
  | .reReservation k | .engineOpStart k _ | .engineUnitTransfer k .. | .mpairStep k | .drainPerform k _ | .addOnStorePerform k _
  | .ownershipEnd k | .spawnOverflowReturn k | .gatherTimeout k _ | .groupFormation k _ | .threadSteal k | .teamPark k _
  | .boundMirrorUpdate k => some (clusterOfCore k)
  | .windowFillComplete t .. | .windowWriteback t .. | .windowCloseComplete t _ | .teamSaveLeave t | .teamRetire t
  | .parkedTeamReturn t => some (clusterOfCore (s.team t).core)
  | .boundUnitUpdate c => some c
  | .quantumExpiry p => some (s.panel p).cluster
  | _ => none

/-- The die whose network, map unit and stacks an event needs. -/
def eventDie (s : State) : Instr → Option Nat
  | .distributorAdmit d | .translationWalkComplete d _ | .crossDieReadDeliver d _ | .faultTimeout d _ => some d
  | .peerNoAcknowledgeTimeout i => (s.peerTraffic[i]?).map fun r => r.owner.die s
  | _ => none

/-- The die whose stacks an event reads or writes for another die: it goes on while only the clusters' clocks stand still. -/
def eventStacks : Instr → Option Nat
  | .crossDieAccept d _ | .crossDieReadServe d _ => some d
  | _ => none

/-- An event that a stopped or gated clock, or stacks in self-refresh, keep from happening (R301, R305, R306): all state is held. -/
def frozen (s : State) (e : Instr) : Bool :=
  (match eventCluster s e with | some c => !clockRuns s c | none => false) ||
    (match eventDie s e with | some d => (s.die d).stopped | none => false) ||
    (match eventStacks e with | some d => (s.die d).selfRefresh | none => false)

/-! ### The gangs of a core (R140, R141) -/

/-- The logical index of a group of a deterministic launch; spawned groups follow the launched ones, in formation order (R151). -/
def logicalIndex (s : State) (g : Group) : Nat :=
  if g.spawned then 2 ^ 64 + g.formed else ((s.panel g.panel).index * 16 + (s.team g.team).index) * 16 + g.index

/-- The groups of a launch on a core that have not retired, with their numbers, in logical order among themselves only as `lowestLogical`
picks them; one that is stopped or has been saved runs no more, but keeps the issue if it holds it (R245). -/
def launchGroups (s : State) (core grid : Nat) : List (Nat × Group) :=
  (s.groups.zipIdx.filter fun g => g.1.resident core && g.1.grid == grid && g.1.counts).map fun g => (g.2, g.1)

/-- The group of lowest logical index. -/
def lowestLogical (s : State) : List (Nat × Group) → Option Nat
  | [] => none
  | x :: r => some (r.foldl (fun a b => if logicalIndex s b.2 < logicalIndex s a.2 then b else a) x).1

/-- A handler that runs on a core: a group's, to its end. -/
def Group.inHandler (g : Group) : Bool := g.priv && g.status == .live

/-- A handler that stands at a switch point: its leading gang waits. A save or a restore keeps the issue all the same, to its `halt` or its
`rte` (R245). -/
def Group.handlerYields (s : State) (g : Group) : Bool := g.ctx.cause.toNat % 256 != 12 && switchWaits s g

/-- The group that may issue in a deterministic launch on a core (R151, R245): handlers run first, one at a time, those that wait passed
over; then the holder of the issue; with no holder, the lowest logical index that does not wait. -/
def turnOf (s : State) (core grid : Nat) : Option Nat :=
  let gs := launchGroups s core grid
  let handlers := gs.filter fun g => g.2.inHandler
  if !handlers.isEmpty then lowestLogical s (handlers.filter fun g => !g.2.handlerYields s)
  else
    match lowestLogical s (gs.filter fun g => g.2.holdsIssue) with
    | some h => some h
    | none => lowestLogical s (gs.filter fun g => g.2.status == .live && !switchWaits s g.2)

/-- The issue of a deterministic launch on a core finds its holder: where nobody holds it, it passes at once to the lowest logical index
that does not wait (R151); while handlers run it passes to nobody (R245). -/
def fixTurn (s : State) (core grid : Nat) : State :=
  let gs := launchGroups s core grid
  if gs.any fun g => g.2.holdsIssue || g.2.inHandler then s
  else match lowestLogical s (gs.filter fun g => g.2.status == .live && !switchWaits s g.2) with
    | some h => s.modGroup h fun g => { g with holdsIssue := true }
    | none => s

/-- Every deterministic launch's issue finds its holder on every core. -/
def fixTurns (s : State) : State :=
  if s.grids.any fun d => d.cmd.determ then
    ((s.groups.filter fun g => g.status == .live && determGrid s g.grid).map fun g => (g.core, g.grid)).eraseDups.foldl
      (fun s x => fixTurn s x.1 x.2) s
  else s

/-- A gang that could issue: its group, gang number and instruction. -/
structure Candidate where
  gid : Nat
  g : Group
  gang : BitVec 3
  instr : Except Reject Instr

/-- The tokens a candidate's instruction costs. -/
def Candidate.price (c : Candidate) : Nat :=
  match c.instr with
  | .ok i => instrPrice i (c.g.slices.get ((c.g.gangSlices c.gang).headD 0)).fmt
  | .error _ => 0

/-- A candidate's instruction is uniform. -/
def Candidate.uniform (c : Candidate) : Bool := match c.instr with | .ok i => isUniform i | .error _ => false

/-- A gang's reservation covers a price: it is due (R299). -/
def Core.due (k : Core) (gid : Nat) (gang : BitVec 3) (price : Nat) : Bool :=
  k.reservations.any fun r => r.group == gid && r.gang == gang.toNat && r.isOpen && decide (r.need ≤ r.gathered ∧ price ≤ r.gathered)

/-- A candidate can pay (R299). -/
def Candidate.payable (s : State) (c : Candidate) : Bool :=
  let k := s.core c.g.core
  decide (c.price ≤ k.tokens) || k.due c.gid c.gang c.price

/-- The gangs of a core's port that have not issued in this cycle, do not wait, and have not been found held or refused in it. -/
def candidates (s : State) (core port : Nat) : List Candidate :=
  (s.groups.zipIdx.filter fun x => x.1.resident core && x.1.ready && x.1.slot % 2 == port && !x.1.issued).flatMap fun x =>
    let g := x.1
    let ns := if determGrid s g.grid then (if turnOf s core g.grid = some x.2 then g.lead.toList else []) else g.gangs
    (ns.filter fun n => !g.waiting (g.gangSlices n) && !g.held.getLsbD n.toNat && !g.refused.getLsbD n.toNat).filterMap fun n =>
      (heldInstr s g n).map fun i => ⟨x.2, g, n, i⟩

/-- The place of a candidate in the order of R141, smaller first at the first difference. -/
def Candidate.key (s : State) (c : Candidate) : List Nat :=
  let stamp := if c.uniform then c.g.uniStamp else c.g.laneStamp
  [15 - c.g.prio.toNat, if (s.core c.g.core).due c.gid c.gang c.price then 0 else 1,
   match stamp with | some n => n + 1 | none => 0, c.g.slot, c.gang.toNat]

/-- Lexicographic order of keys. -/
def keyBefore : List Nat → List Nat → Bool
  | x :: xs, y :: ys => decide (x < y) || (x == y && keyBefore xs ys)
  | _, _ => false

/-- The first of some candidates by R141. -/
def firstByKey (s : State) : List Candidate → Option Candidate
  | [] => none
  | c :: r => some (r.foldl (fun a b => if keyBefore (b.key s) (a.key s) then b else a) c)

/-- The next choice of a port in this cycle: the lane choice before the uniform one (R141). Every gang that cannot pay is tried before the
port's lane issue, and counts a refusal whatever its place in the order (R299). -/
def portChoice (s : State) (core port : Nat) : Option Candidate :=
  let k := s.core core
  let cs := candidates s core port
  let lanes := cs.filter fun c => !c.uniform
  let lane := if k.portLane.getLsbD port then none
    else (firstByKey s (lanes.filter fun c => !c.payable s)).or (firstByKey s (lanes.filter fun c => c.payable s))
  match lane with
  | some c => some c
  | none => if k.portUni.getLsbD port then none else firstByKey s (cs.filter Candidate.uniform)

/-- The cores that hold a group, ascending in the order of their first groups. -/
def busyCores (s : State) : List Nat := ((s.groups.filter fun g => g.status == .live).map fun g => g.core).eraseDups

/-- The next gang to issue: core by core, port 0 before port 1. -/
def nextIssue (s : State) : Option Candidate :=
  ((busyCores s).filter fun k => s.powered && clockRuns s (clusterOfCore k)).findSome? fun k =>
    match portChoice s k 0 with
    | some c => some c
    | none => portChoice s k 1

/-! ### The device's own events in turn -/

/-- The events of the accesses in flight. -/
def flightEvents (s : State) : List Instr :=
  s.flights.map fun f => if f.2.performed then .loadDataArrival f.1 else .memoryAccessPerform f.1

/-- The events of the groups. -/
def groupEvents (s : State) : List Instr :=
  s.groups.zipIdx.flatMap fun x =>
    let (g, n) := x
    if g.status = .gone ∨ g.status = .away then []
    else
      ((List.range 8).flatMap fun i => ((g.slices.get i).names.filter fun c => c.2.spilling).map fun c => .spillWriteComplete n i c.1) ++
        (((List.range 8).filter fun i => (g.raiseWait i).isSome).map fun i => .floorRaiseGrant n i)

/-- The units of an operation that can still move. -/
def unitEvents (core slot : Nat) (o : EngineOp) : List Instr :=
  (o.units.zipIdx.filter fun u => u.1.dst.st == .todo).map fun u => .engineUnitTransfer core slot u.2 false

/-- The events of the cores: engine, matrix pair, spawn queues, mirrors, re-reservations. -/
def coreEvents (s : State) : List Instr :=
  s.cores.flatMap fun x =>
    let (n, k) := x
    (k.engine.flatMap fun o => if o.2.started then unitEvents n o.1 o.2 else [.engineOpStart n o.1]) ++
      (match k.matrix with
        | [] => []
        | .pair .. :: _ => [.mpairStep n]
        | .drain .. :: _ => [.drainPerform n []]
        | .add .. :: _ => [.addOnStorePerform n []]
        | _ => [.ownershipEnd n]) ++
      (if k.owner.isSome then [.ownershipEnd n] else []) ++
      ((List.range k.gathers.length).flatMap fun i => [.groupFormation n i, .gatherTimeout n i, .teamPark n i]) ++
      (if k.overflow = 0 then [] else [.spawnOverflowReturn n]) ++
      (if k.mirrorPos < (s.cluster (clusterOfCore n)).boundLog.length then [.boundMirrorUpdate n] else []) ++
      (if s.groups.any fun g => g.core == n && g.rereserve.isSome then [.reReservation n] else [])

/-- The events of the teams and their windows. -/
def teamEvents (s : State) : List Instr :=
  s.teams.zipIdx.flatMap fun x =>
    let (t, n) := x
    (if t.status = .saving then [.teamSaveLeave n] else []) ++ (if t.status = .parked then [.parkedTeamReturn n] else []) ++
      (if t.status = .resident ∨ t.status = .saving then [.teamRetire n] else []) ++
      t.windows.zipIdx.flatMap fun w =>
        (if w.1.closing then [.windowCloseComplete n w.2] else []) ++
          w.1.segments.zipIdx.flatMap fun j =>
            (if j.1.filling && !j.1.asleep then [.windowFillComplete n w.2 j.2 false] else []) ++
              (if j.1.writing && !j.1.asleep then [.windowWriteback n w.2 ⟨j.2, false⟩] else [])

/-- The events of the dies: the distributor, translation, traffic between dies. -/
def dieEvents (s : State) : List Instr :=
  s.dies.flatMap fun x =>
    let (n, d) := x
    (if d.queue.isEmpty then [] else [.distributorAdmit n]) ++
      ((d.walks.filter fun w => !w.asleep).map fun w => .translationWalkComplete n w.page) ++
      (d.faults.map fun f => .faultTimeout n f.page) ++ ((d.inbox.map fun m => m.origin).eraseDups.map fun o => .crossDieAccept n o) ++
      ((List.range d.requests.length).map fun i => .crossDieReadServe n i) ++
      ((List.range d.responses.length).map fun i => .crossDieReadDeliver n i)

/-- The next steal of a cluster: its lowest idle core's, where some queue can be stolen from (R274, R275). -/
def stealEvents (s : State) : List Instr :=
  (s.clusters.filter fun x => s.cores.any fun k => clusterOfCore k.1 == x.1 && decide (2 ≤ k.2.threads.length)).filterMap fun x =>
    (((List.range Config.coresPerCluster).map fun i => x.1 * Config.coresPerCluster + i).find? fun k =>
      idleCore s k && (victimOf s k).isSome).map .threadSteal

/-- The diodes of the package (R304). -/
def allDiodes : List Diode :=
  ((List.range 24).map Diode.cluster) ++ (List.range 24).flatMap fun k => (List.range 4).map (Diode.region k)

/-- The polls that are due, each with a reading of its own that nothing fixes (R304). -/
def pollEvents (s : State) : List Instr :=
  if s.gtime.toNat < 100000 then []
  else (allDiodes.filter fun d => decide (pollDue s (diodeOf s d).1 ≤ s.gtime.toNat)).map fun d =>
    .thermalPoll d (Config.freeReading s.tick)

/-- The events of clusters, panels, grids, partitions and the package. -/
def packageEvents (s : State) : List Instr :=
  (s.clusters.flatMap fun k => (if k.2.boundQueue.isEmpty then [] else [Instr.boundUnitUpdate k.1]) ++
    (if k.2.idle.isSome then [.gateRequest k.1] else []) ++
    (if clockRuns s k.1 && k.2.localTime != s.gtime then [.gtimeResync k.1] else [])) ++
  (s.panels.zipIdx.filterMap fun p => if p.1.status = .resident ∨ p.1.status = .saving then some (.quantumExpiry p.2) else none) ++
  (s.grids.zipIdx.flatMap fun d => (if d.1.status = .waiting && !d.1.ended then [Instr.gridStart d.2] else []) ++
    (if d.1.stuck.isSome then [.deadlockWatchdog d.2] else [])) ++
  (s.parts.flatMap fun p => (dueSlots s p.2).map fun d => .launchTableSlot p.1 d.2) ++
  (s.peerTraffic.zipIdx.map fun r => match r.1.reply with
    | some a => if (s.die (r.1.owner.die s)).stopped then .peerNoAcknowledgeTimeout r.2 else .peerAcknowledge r.2 a.1 a.2
    | none => .peerNoAcknowledgeTimeout r.2) ++
  (s.rows.filterMap fun r => if r.2.copying then some (.spareRowCopyComplete r.1) else none) ++
  (if s.powered && !s.inHoldover && decide (s.lastSync + 2000000000 ≤ s.gtime.toNat) then [.holdover] else []) ++
  (if s.powered then pollEvents s else [])

/-- The first request of a group that can be taken (R228), port 0 before port 1 (R370). -/
def nextRequest (s : State) : Option Instr :=
  let port (n : Nat) : List (Group × Nat) := s.groups.zipIdx.filter fun x => x.1.slot % 2 == n
  (port 0 ++ port 1).findSome? fun x =>
    let (g, n) := x
    if g.status = .live && !g.priv && clockRuns s (clusterOfCore g.core) then
      let taken (cause sub : Nat) : Option Instr := if teamReady s g cause then some (.trapEntry n cause sub 0 0) else none
      if g.wantCheck then taken 11 6
      else if g.wantDebug then taken 13 0
      else if g.wantPreempt then taken 12 g.preemptSub else none
    else none

/-- The requests for cells that wait, other than those of issues: refills, destinations of released waits and payload arrivals (R145). -/
def cellEvents (s : State) : List Instr :=
  s.groups.zipIdx.flatMap fun x =>
    if x.1.status = .gone ∨ x.1.status = .away then []
    else (x.1.wants.map fun w => .cellRefill x.2 w.1 w.2) ++
      ((x.1.waits.filter (GangWait.retries s x.2 x.1)).map fun w => .cellRefill x.2 (w.list.headD 0) w.destName) ++
      (if x.1.payload then [.payloadArrival x.2] else [])

/-- A request for cells that would find something to do. -/
def servable (s : State) : Instr → Bool
  | .cellRefill n i name => match s.group n with
    | some g => (g.waits.any fun w => w.destName == name && w.retries s n g) || (cellServed s g.core n i &&
        match (g.slices.get i).cell name with
        | some c => c.spilled && c.full && g.wants.contains (i, name)
        | none => false)
    | none => false
  | .payloadArrival n => match s.group n with
    | some g =>
      let is := (List.range 8).filter fun i => !(g.slices.get i).payloadWaits.isEmpty
      g.status == .live && (is.isEmpty || is.any fun i => cellServed s g.core n i)
    | none => false
  | _ => false

/-- A refill for section `i` of a core that was chosen before `stamp` and can be served (R145). -/
def refillBefore (s : State) (core i stamp : Nat) : Bool :=
  s.groups.zipIdx.any fun x => x.1.onCore core && decide (tabGet x.1.wantStamps 0 i < stamp) &&
    x.1.wants.any fun w => w.1 == i && servable s (.cellRefill x.2 w.1 w.2)

/-- A core has an issue left to make, or to try, in its cycle. -/
def stillIssues (s : State) (core : Nat) : Bool :=
  s.powered && clockRuns s (clusterOfCore core) && ((portChoice s core 0).isSome || (portChoice s core 1).isSome)

/-- What the cycle's issues come before. An allocation waits for those that R145 serves before it: the issues of port 0 and port 1, then
refills in the order in which their instructions were chosen, then payloads. A class's timeout and formation wait for the core's issues,
whose spawns are arrivals of the cycle (R273); a steal for the victim's, whose spawns join its queue first (R275); an admission for the
die's, whose spawns may complete a class that forms before it (R275); a quantum's expiry for its panel's, whose retirements win over it
(R149); parking for the cluster's, whose counters coming to 0 win over it (R278); the end of the cycle for every core's, each gang that
cannot pay being refused in it (R299). -/
def outOfTurn (s : State) (e : Instr) : Bool :=
  let issues (core : Nat) : Bool := stillIssues s core
  let issuesIn (mine : Nat → Bool) : Bool := (busyCores s).any fun k => mine k && issues k
  match e with
  | .tokenCycle c _ => issuesIn fun k => clusterOfCore k == c
  | .groupFormation k _ | .gatherTimeout k _ => issues k
  | .distributorAdmit d => issuesIn fun k => dieOfCore k == d
  | .quantumExpiry p => ((panelResidents s p).map fun t => (s.team t).core).any issues
  | .teamPark k _ => issuesIn fun j => clusterOfCore j == clusterOfCore k
  | .cellRefill n i _ => match s.group n with
    | some g => issues g.core || refillBefore s g.core i (tabGet g.wantStamps 0 i)
    | none => false
  | .payloadArrival n => match s.group n with
    | some g => issues g.core || (List.range 8).any fun i => refillBefore s g.core i (s.tick + 1)
    | none => false
  | .threadSteal k => match victimOf s k with
    | some v => issues v
    | none => false
  | _ => false

/-- The next request for cells that is served: those of one cycle follow its issues, in the order of R145. -/
def nextCell (s : State) : Option Instr := (cellEvents s).find? fun e => servable s e && !frozen s e && !outOfTurn s e

/-- The next formation: a class that can form does so in the cycle (R273). -/
def nextFormation (s : State) : Option Instr :=
  (s.cores.filter fun k => !k.2.gathers.isEmpty).findSome? fun k =>
    match nextClass s k.1 with
    | some x =>
      let e : Instr := .groupFormation k.1 (k.2.gathers.idxOf x)
      if admits s k.1 x.grid && !frozen s e && !outOfTurn s e then some e else none
    | none => none

/-- The events that may be due, in a fixed order. -/
def dueEvents (s : State) : List Instr :=
  (flightEvents s ++ groupEvents s ++ coreEvents s ++ stealEvents s ++ teamEvents s ++ dieEvents s ++ packageEvents s).filter fun e =>
    !frozen s e && !outOfTurn s e

/-- The cluster cycle that passes when nothing else does: the clusters in turn, a nanosecond each time round (log 1). -/
def cycleEvent (s : State) : Instr :=
  let n := max 1 s.clusters.length
  let i := s.tick / 2 % n
  .tokenCycle ((s.clusters.map fun k => k.1).getD i 0) (BitVec.ofInt 64 (s.gtime.toNat - s.offset + if i = 0 then 1 else 0))

/-! ### What comes next -/

/-- The next step: an instruction issued by a gang, a gang that cannot pay tried for what else holds it, or an event. -/
inductive Plan where
  | issue (i : Instr) (cur : Issuer)
  | probe (i : Instr) (cur : Issuer)
  | event (e : Instr)
deriving DecidableEq, Repr

/-- A choice made: a gang whose instruction fails R87 traps; one that cannot pay is only tried (R299). -/
def Candidate.plan (s : State) (c : Candidate) : Plan :=
  match c.instr with
  | .error r => .event (.trapEntry c.gid (Reject.trap r).cause (Reject.trap r).sub ((c.g.gangSlices c.gang).headD 0) (Reject.trap r).arg)
  | .ok i => if c.payable s then .issue i ⟨c.gid, c.gang⟩ else .probe i ⟨c.gid, c.gang⟩

/-- What the machine does next with nothing on its agenda: requests first; then requests for cells, and groups that can form; on even ticks
an event in turn, if there is one; otherwise an issue; otherwise a cluster cycle passes. -/
def plan (s : State) : Plan :=
  match nextRequest s with
  | some e => .event e
  | none => match (nextCell s).or (nextFormation s) with
    | some e => .event e
    | none =>
      let events := if s.tick % 2 = 0 then dueEvents s else []
      match events[s.tick / 2 % max 1 events.length]? with
      | some e => .event e
      | none => match nextIssue s with
        | some c => c.plan s
        | none => .event (cycleEvent s)

/-! ### After an issue -/

/-- A switch point of a deterministic launch (R151): an instruction that passes the issue whether or not it waits. -/
def alwaysSwitches : Instr → Bool
  | .bar | .pbar | .stepmark => true
  | _ => false

/-- A core that woke for a gang it then found held sleeps on (R150). -/
def regate (before after : State) : State :=
  match before.group before.cur.group, after.group before.cur.group with
  | some g, some g' =>
    let k := before.core g.core
    if k.gated && g'.held.getLsbD before.cur.gang.toNat && !g'.issued then
      after.modCore g.core fun x => { x with gated := true, wake := k.wake, event := k.event }
    else after
  | _, _ => after

/-- Who holds the issue of a deterministic launch after a try of one of its groups outside privileged state (R151): the group keeps it
until a switch point. -/
def passIssue (i : Instr) (before : State) (after : State) : State :=
  match before.group before.cur.group, after.group before.cur.group with
  | some g, some g' =>
    if !determGrid before g.grid || g.priv then after
    else
      let keeps := !(alwaysSwitches i && g'.issued) && g'.counts && !switchWaits after g'
      { after with groups := after.groups.zipIdx.map fun x =>
          if x.1.grid = g.grid && x.1.core == g.core then { x.1 with holdsIssue := keeps && x.2 == before.cur.group } else x.1 }
  | _, _ => after

/-- A gang that cannot pay: held if its instruction would be held anyway; refused otherwise, on a core that is awake, for it is ready (R140,
R150, R299). -/
def afterProbe (before after : State) : State :=
  let n := before.cur.gang
  match after.group before.cur.group with
  | some g =>
    if g.held.getLsbD n.toNat && g.status == .live && !g.issued then regate before after
    else (before.modGroup before.cur.group fun g => { g with refused := g.refused ||| BitVec.ofNat 8 (2 ^ n.toNat) }).modCore g.core Core.rouse
  | none => before

end Sys2Proof.Machine
end

