-- ==== Sys2Proof/Machine/Dispatch.lean ====
section
/-! DEFINITION. One arm per instruction and event, each a direct call of its meaning. -/

namespace Sys2Proof.Machine

/-- The meaning of an instruction of the gang `State.cur` names, or of an event. -/
def exec (i : Instr) (s : State) : Host.Outcome State Fault Refusal :=
  match i with
  | .add p d a b t sat => Sys2Proof.Machine.execAdd p d a b t sat s
  | .sub p d a b t sat => Sys2Proof.Machine.execSub p d a b t sat s
  | .mul p d a b t => Sys2Proof.Machine.execMul p d a b t s
  | .mulhi p d a b t => Sys2Proof.Machine.execMulhi p d a b t s
  | .mad p d a b c t => Sys2Proof.Machine.execMad p d a b c t s
  | .madhi p d a b c t => Sys2Proof.Machine.execMadhi p d a b c t s
  | .div p d a b t => Sys2Proof.Machine.execDiv p d a b t s
  | .rem p d a b t => Sys2Proof.Machine.execRem p d a b t s
  | .neg p d a t => Sys2Proof.Machine.execNeg p d a t s
  | .abs p d a t => Sys2Proof.Machine.execAbs p d a t s
  | .min p d a b t => Sys2Proof.Machine.execMin p d a b t s
  | .max p d a b t => Sys2Proof.Machine.execMax p d a b t s
  | .shl p d a b t => Sys2Proof.Machine.execShl p d a b t s
  | .shr p d a b t => Sys2Proof.Machine.execShr p d a b t s
  | .sar p d a b t => Sys2Proof.Machine.execSar p d a b t s
  | .rot p d a b t => Sys2Proof.Machine.execRot p d a b t s
  | .and p d a b t => Sys2Proof.Machine.execAnd p d a b t s
  | .or p d a b t => Sys2Proof.Machine.execOr p d a b t s
  | .xor p d a b t => Sys2Proof.Machine.execXor p d a b t s
  | .andn p d a b t => Sys2Proof.Machine.execAndn p d a b t s
  | .not p d a t => Sys2Proof.Machine.execNot p d a t s
  | .bfe p d a b t => Sys2Proof.Machine.execBfe p d a b t s
  | .bfi p d a b c t => Sys2Proof.Machine.execBfi p d a b c t s
  | .pop p d a t => Sys2Proof.Machine.execPop p d a t s
  | .clz p d a t => Sys2Proof.Machine.execClz p d a t s
  | .ctz p d a t => Sys2Proof.Machine.execCtz p d a t s
  | .brev p d a t => Sys2Proof.Machine.execBrev p d a t s
  | .lea p d a b t scale => Sys2Proof.Machine.execLea p d a b t scale s
  | .mov p d a t => Sys2Proof.Machine.execMov p d a t s
  | .movi p d t imm => Sys2Proof.Machine.execMovi p d t imm s
  | .sel p d a b c t => Sys2Proof.Machine.execSel p d a b c t s
  | .cmp p qd a b t cond => Sys2Proof.Machine.execCmp p qd a b t cond s
  | .fadd p d a b t => Sys2Proof.Machine.execFadd p d a b t s
  | .fsub p d a b t => Sys2Proof.Machine.execFsub p d a b t s
  | .fmul p d a b t => Sys2Proof.Machine.execFmul p d a b t s
  | .fma p d a b c t => Sys2Proof.Machine.execFma p d a b c t s
  | .fmin p d a b t => Sys2Proof.Machine.execFmin p d a b t s
  | .fmax p d a b t => Sys2Proof.Machine.execFmax p d a b t s
  | .fabs p d a t => Sys2Proof.Machine.execFabs p d a t s
  | .fneg p d a t => Sys2Proof.Machine.execFneg p d a t s
  | .fcmp p qd a b t cond => Sys2Proof.Machine.execFcmp p qd a b t cond s
  | .fclass p d a t => Sys2Proof.Machine.execFclass p d a t s
  | .hadd2 p d a b t => Sys2Proof.Machine.execHadd2 p d a b t s
  | .hmul2 p d a b t => Sys2Proof.Machine.execHmul2 p d a b t s
  | .hfma2 p d a b c t => Sys2Proof.Machine.execHfma2 p d a b c t s
  | .frcp p d a t => Sys2Proof.Machine.execFrcp p d a t s
  | .frsq p d a t => Sys2Proof.Machine.execFrsq p d a t s
  | .fsqrt p d a t => Sys2Proof.Machine.execFsqrt p d a t s
  | .fexp2 p d a t => Sys2Proof.Machine.execFexp2 p d a t s
  | .flog2 p d a t => Sys2Proof.Machine.execFlog2 p d a t s
  | .fsinpi p d a t => Sys2Proof.Machine.execFsinpi p d a t s
  | .fcospi p d a t => Sys2Proof.Machine.execFcospi p d a t s
  | .ftanh p d a t => Sys2Proof.Machine.execFtanh p d a t s
  | .cvt p d a dt st rint => Sys2Proof.Machine.execCvt p d a dt st rint s
  | .pack p d a b c t st k => Sys2Proof.Machine.execPack p d a b c t st k s
  | .unpack p d a t k => Sys2Proof.Machine.execUnpack p d a t k s
  | .mxq p d a t st => Sys2Proof.Machine.execMxq p d a t st s
  | .mxdq p d a t => Sys2Proof.Machine.execMxdq p d a t s
  | .sp24 p d a t => Sys2Proof.Machine.execSp24 p d a t s
  | .voteAny p qd qs m => Sys2Proof.Machine.execVoteAny p qd qs m s
  | .voteAll p qd qs m => Sys2Proof.Machine.execVoteAll p qd qs m s
  | .voteBal p d qs m => Sys2Proof.Machine.execVoteBal p d qs m s
  | .shflIdx p d a b t m => Sys2Proof.Machine.execShflIdx p d a b t m s
  | .shflUp p d a b t m => Sys2Proof.Machine.execShflUp p d a b t m s
  | .shflDn p d a b t m => Sys2Proof.Machine.execShflDn p d a b t m s
  | .shflXor p d a b t m => Sys2Proof.Machine.execShflXor p d a b t m s
  | .red p d a op t m => Sys2Proof.Machine.execRed p d a op t m s
  | .scan p d a op excl t m => Sys2Proof.Machine.execScan p d a op excl t m s
  | .topk p d a b k t m => Sys2Proof.Machine.execTopk p d a b k t m s
  | .matchLanes p d a t m => Sys2Proof.Machine.execMatchLanes p d a t m s
  | .br p u join disp => Sys2Proof.Machine.execBr p u join disp s
  | .call p u d disp => Sys2Proof.Machine.execCall p u d disp s
  | .calli p u d a => Sys2Proof.Machine.execCalli p u d a s
  | .ret u a => Sys2Proof.Machine.execRet u a s
  | .jmpi p u n a join disp => Sys2Proof.Machine.execJmpi p u n a join disp s
  | .regang tag => Sys2Proof.Machine.execRegang tag s
  | .exit p => Sys2Proof.Machine.execExit p s
  | .nop p => Sys2Proof.Machine.execNop p s
  | .drop p a n => Sys2Proof.Machine.execDrop p a n s
  | .free p a => Sys2Proof.Machine.execFree p a s
  | .patld pat => Sys2Proof.Machine.execPatld pat s
  | .weave p d a b c n pat => Sys2Proof.Machine.execWeave p d a b c n pat s
  | .lanePair x y => Sys2Proof.Machine.execLanePair x y s
  | .ld p d m n t => Sys2Proof.Machine.execLd p d m n t s
  | .st p m b n t => Sys2Proof.Machine.execSt p m b n t s
  | .atom p d m b c op ord t => Sys2Proof.Machine.execAtom p d m b c op ord t s
  | .fence scope => Sys2Proof.Machine.execFence scope s
  | .tmove p m => Sys2Proof.Machine.execTmove p m s
  | .tgath p m => Sys2Proof.Machine.execTgath p m s
  | .tscat p m => Sys2Proof.Machine.execTscat p m s
  | .gatom p m res => Sys2Proof.Machine.execGatom p m res s
  | .wopen p m w fill ro => Sys2Proof.Machine.execWopen p m w fill ro s
  | .wflush p m w => Sys2Proof.Machine.execWflush p m w s
  | .wclose p m w => Sys2Proof.Machine.execWclose p m w s
  | .bobj p m b wide ext => Sys2Proof.Machine.execBobj p m b wide ext s
  | .arrive p m one n => Sys2Proof.Machine.execArrive p m one n s
  | .wait p m d => Sys2Proof.Machine.execWait p m d s
  | .yieldon p m cont => Sys2Proof.Machine.execYieldon p m cont s
  | .bar => Sys2Proof.Machine.execBar s
  | .pbar => Sys2Proof.Machine.execPbar s
  | .mzero p ea => Sys2Proof.Machine.execMzero p ea s
  | .mzeroRel p => Sys2Proof.Machine.execMzeroRel p s
  | .mpair p reuse a sc base off => Sys2Proof.Machine.execMpair p reuse a sc base off s
  | .mdrainNames p d m => Sys2Proof.Machine.execMdrainNames p d m s
  | .mdrainMemory p m => Sys2Proof.Machine.execMdrainMemory p m s
  | .mstadd p m => Sys2Proof.Machine.execMstadd p m s
  | .spawn p qd a entry base n k lane nj off => Sys2Proof.Machine.execSpawn p qd a entry base n k lane nj off s
  | .jinit p m lane => Sys2Proof.Machine.execJinit p m lane s
  | .jwait p m lane d => Sys2Proof.Machine.execJwait p m lane d s
  | .edgeseed p m => Sys2Proof.Machine.execEdgeseed p m s
  | .edgechk p m => Sys2Proof.Machine.execEdgechk p m s
  | .edgewait p m => Sys2Proof.Machine.execEdgewait p m s
  | .edgeflip p m => Sys2Proof.Machine.execEdgeflip p m s
  | .edgepass p m => Sys2Proof.Machine.execEdgepass p m s
  | .bcastMin p a sgn j => Sys2Proof.Machine.execBcastMin p a sgn j s
  | .bcastMax p a sgn j => Sys2Proof.Machine.execBcastMax p a sgn j s
  | .trap p n => Sys2Proof.Machine.execTrap p n s
  | .rte => Sys2Proof.Machine.execRte s
  | .vsdump m => Sys2Proof.Machine.execVsdump m s
  | .vsload m => Sys2Proof.Machine.execVsload m s
  | .stepmark => Sys2Proof.Machine.execStepmark s
  | .halt => Sys2Proof.Machine.execHalt s
  | .sleep p mask => Sys2Proof.Machine.execSleep p mask s
  | .extwait p m d => Sys2Proof.Machine.execExtwait p m d s
  | .gaddReg d a b => Sys2Proof.Machine.execGaddReg d a b s
  | .gaddImm d a im => Sys2Proof.Machine.execGaddImm d a im s
  | .gaddU2 d a b => Sys2Proof.Machine.execGaddU2 d a b s
  | .gsubReg d a b => Sys2Proof.Machine.execGsubReg d a b s
  | .gsubImm d a im => Sys2Proof.Machine.execGsubImm d a im s
  | .gsubU2 d a b => Sys2Proof.Machine.execGsubU2 d a b s
  | .gmulReg d a b => Sys2Proof.Machine.execGmulReg d a b s
  | .gmulImm d a im => Sys2Proof.Machine.execGmulImm d a im s
  | .gmulU2 d a b => Sys2Proof.Machine.execGmulU2 d a b s
  | .gshlReg d a b => Sys2Proof.Machine.execGshlReg d a b s
  | .gshlImm d a im => Sys2Proof.Machine.execGshlImm d a im s
  | .gshlU2 d a b => Sys2Proof.Machine.execGshlU2 d a b s
  | .gshrReg d a b => Sys2Proof.Machine.execGshrReg d a b s
  | .gshrImm d a im => Sys2Proof.Machine.execGshrImm d a im s
  | .gshrU2 d a b => Sys2Proof.Machine.execGshrU2 d a b s
  | .gandReg d a b => Sys2Proof.Machine.execGandReg d a b s
  | .gandImm d a im => Sys2Proof.Machine.execGandImm d a im s
  | .gandU2 d a b => Sys2Proof.Machine.execGandU2 d a b s
  | .gorReg d a b => Sys2Proof.Machine.execGorReg d a b s
  | .gorImm d a im => Sys2Proof.Machine.execGorImm d a im s
  | .gorU2 d a b => Sys2Proof.Machine.execGorU2 d a b s
  | .gxorReg d a b => Sys2Proof.Machine.execGxorReg d a b s
  | .gxorImm d a im => Sys2Proof.Machine.execGxorImm d a im s
  | .gxorU2 d a b => Sys2Proof.Machine.execGxorU2 d a b s
  | .gcmp d a b cond => Sys2Proof.Machine.execGcmp d a b cond s
  | .gmov d a => Sys2Proof.Machine.execGmov d a s
  | .gli d im => Sys2Proof.Machine.execGli d im s
  | .gliU2 d im => Sys2Proof.Machine.execGliU2 d im s
  | .gliHi d im => Sys2Proof.Machine.execGliHi d im s
  | .gbr a cond disp => Sys2Proof.Machine.execGbr a cond disp s
  | .gld d base sx space size win off => Sys2Proof.Machine.execGld d base sx space size win off s
  | .gst base b space size win off => Sys2Proof.Machine.execGst base b space size win off s
  | .setfmt a => Sys2Proof.Machine.execSetfmt a s
  | .setfmtImm im => Sys2Proof.Machine.execSetfmtImm im s
  | .setfmtM a mask => Sys2Proof.Machine.execSetfmtM a mask s
  | .setprio a im => Sys2Proof.Machine.execSetprio a im s
  | .setprioW a im => Sys2Proof.Machine.execSetprioW a im s
  | .sread d sel => Sys2Proof.Machine.execSread d sel s
  | .sreadU2 d sel => Sys2Proof.Machine.execSreadU2 d sel s
  | .sreadLane d sel => Sys2Proof.Machine.execSreadLane d sel s
  | .swrite a sel => Sys2Proof.Machine.execSwrite a sel s
  | .capq d n => Sys2Proof.Machine.execCapq d n s
  | .capqReg d a => Sys2Proof.Machine.execCapqReg d a s
  | .capqW d n => Sys2Proof.Machine.execCapqW d n s
  | .trapEntry group cause sub slice arg => Sys2Proof.Machine.execTrapEntry group cause sub slice arg s
  | .quantumExpiry panel => Sys2Proof.Machine.execQuantumExpiry panel s
  | .teamSaveLeave team => Sys2Proof.Machine.execTeamSaveLeave team s
  | .distributorAdmit die => Sys2Proof.Machine.execDistributorAdmit die s
  | .gridStart grid => Sys2Proof.Machine.execGridStart grid s
  | .teamRetire team => Sys2Proof.Machine.execTeamRetire team s
  | .spillWriteComplete group slice name => Sys2Proof.Machine.execSpillWriteComplete group slice name s
  | .cellRefill group slice name => Sys2Proof.Machine.execCellRefill group slice name s
  | .floorRaiseGrant group slice => Sys2Proof.Machine.execFloorRaiseGrant group slice s
  | .reReservation core => Sys2Proof.Machine.execReReservation core s
  | .memoryAccessPerform flight => Sys2Proof.Machine.execMemoryAccessPerform flight s
  | .loadDataArrival flight => Sys2Proof.Machine.execLoadDataArrival flight s
  | .windowFillComplete team win seg bad => Sys2Proof.Machine.execWindowFillComplete team win seg bad s
  | .windowWriteback team win seg => Sys2Proof.Machine.execWindowWriteback team win seg s
  | .windowCloseComplete team win => Sys2Proof.Machine.execWindowCloseComplete team win s
  | .engineOpStart core slot => Sys2Proof.Machine.execEngineOpStart core slot s
  | .engineUnitTransfer core slot idx bad => Sys2Proof.Machine.execEngineUnitTransfer core slot idx bad s
  | .mpairStep core => Sys2Proof.Machine.execMpairStep core s
  | .drainPerform core bad => Sys2Proof.Machine.execDrainPerform core bad s
  | .addOnStorePerform core bad => Sys2Proof.Machine.execAddOnStorePerform core bad s
  | .ownershipEnd core => Sys2Proof.Machine.execOwnershipEnd core s
  | .translationWalkComplete die page => Sys2Proof.Machine.execTranslationWalkComplete die page s
  | .faultTimeout die page => Sys2Proof.Machine.execFaultTimeout die page s
  | .crossDieAccept die origin => Sys2Proof.Machine.execCrossDieAccept die origin s
  | .crossDieReadServe die idx => Sys2Proof.Machine.execCrossDieReadServe die idx s
  | .crossDieReadDeliver die idx => Sys2Proof.Machine.execCrossDieReadDeliver die idx s
  | .spawnOverflowReturn core => Sys2Proof.Machine.execSpawnOverflowReturn core s
  | .gatherTimeout core cls => Sys2Proof.Machine.execGatherTimeout core cls s
  | .groupFormation core cls => Sys2Proof.Machine.execGroupFormation core cls s
  | .threadSteal core => Sys2Proof.Machine.execThreadSteal core s
  | .payloadArrival group => Sys2Proof.Machine.execPayloadArrival group s
  | .teamPark core cls => Sys2Proof.Machine.execTeamPark core cls s
  | .parkedTeamReturn team => Sys2Proof.Machine.execParkedTeamReturn team s
  | .boundUnitUpdate cluster => Sys2Proof.Machine.execBoundUnitUpdate cluster s
  | .boundMirrorUpdate core => Sys2Proof.Machine.execBoundMirrorUpdate core s
  | .deadlockWatchdog grid => Sys2Proof.Machine.execDeadlockWatchdog grid s
  | .tokenCycle cluster now => Sys2Proof.Machine.execTokenCycle cluster now s
  | .thermalPoll d reading => Sys2Proof.Machine.execThermalPoll d reading s
  | .gateRequest cluster => Sys2Proof.Machine.execGateRequest cluster s
  | .gtimeResync cluster => Sys2Proof.Machine.execGtimeResync cluster s
  | .ptpSyncMessage master => Sys2Proof.Machine.execPtpSyncMessage master s
  | .holdover => Sys2Proof.Machine.execHoldover s
  | .correctedError row => Sys2Proof.Machine.execCorrectedError row s
  | .powerGoodAssert stages backup => Sys2Proof.Machine.execPowerGoodAssert stages backup s
  | .powerGoodRemove => Sys2Proof.Machine.execPowerGoodRemove s
  | .sessionOpen h chain => Sys2Proof.Machine.execSessionOpen h chain s
  | .sessionClose h => Sys2Proof.Machine.execSessionClose h s
  | .partitionConfigure h cfg => Sys2Proof.Machine.execPartitionConfigure h cfg s
  | .launch h cmd => Sys2Proof.Machine.execLaunch h cmd s
  | .signalArrive h grid die addr n => Sys2Proof.Machine.execSignalArrive h grid die addr n s
  | .signalPreempt h grid => Sys2Proof.Machine.execSignalPreempt h grid s
  | .signalDieTarget h grid target => Sys2Proof.Machine.execSignalDieTarget h grid target s
  | .endLaunch h grid => Sys2Proof.Machine.execEndLaunch h grid s
  | .pageMigrateToDevice h page size bytes => Sys2Proof.Machine.execPageMigrateToDevice h page size bytes s
  | .pageMigrateToHost h page size => Sys2Proof.Machine.execPageMigrateToHost h page size s
  | .tableUpdate h entries pages => Sys2Proof.Machine.execTableUpdate h entries pages s
  | .faultAnswerResolve h die page => Sys2Proof.Machine.execFaultAnswerResolve h die page s
  | .faultAnswerReject h die page => Sys2Proof.Machine.execFaultAnswerReject h die page s
  | .readback h items => Sys2Proof.Machine.execReadback h items s
  | .launchTableUpdate h templates entries => Sys2Proof.Machine.execLaunchTableUpdate h templates entries s
  | .launchTableSlot part entry => Sys2Proof.Machine.execLaunchTableSlot part entry s
  | .debugStop h t => Sys2Proof.Machine.execDebugStop h t s
  | .debugStep h t => Sys2Proof.Machine.execDebugStep h t s
  | .debugResume h t => Sys2Proof.Machine.execDebugResume h t s
  | .debugTrace h t base len mask => Sys2Proof.Machine.execDebugTrace h t base len mask s
  | .debugTimeLoss h t base len n => Sys2Proof.Machine.execDebugTimeLoss h t base len n s
  | .attestationQuote nonce => Sys2Proof.Machine.execAttestationQuote nonce s
  | .peerInboundAccess part peer addr acc => Sys2Proof.Machine.execPeerInboundAccess part peer addr acc s
  | .peerAcknowledge idx data refused => Sys2Proof.Machine.execPeerAcknowledge idx data refused s
  | .peerNoAcknowledgeTimeout idx => Sys2Proof.Machine.execPeerNoAcknowledgeTimeout idx s
  | .powerManagerSetting p => Sys2Proof.Machine.execPowerManagerSetting p s
  | .spareRowCopyComplete row => Sys2Proof.Machine.execSpareRowCopyComplete row s
  | .unreliablePacketReceived port => Sys2Proof.Machine.execUnreliablePacketReceived port s

end Sys2Proof.Machine
end

