-- ==== Sys2Proof/Machine/Step.lean ====
section
/-! DEFINITION. One step: the next event of the agenda, or what `plan` chooses (log 1); and the placing of an instruction where the next
step fetches it. -/

namespace Sys2Proof.Machine

/-- The state a step passes to the meaning of an issue or of the device's own event: one tick later, with the issuer named. -/
def State.ticked (s : State) (cur : Issuer) : State := { s with tick := s.tick + 1, cur := cur }

/-- The state in which a gang of the issuer is tried: its core awake (R150). -/
def State.roused (s : State) : State :=
  match s.group s.cur.group with
  | some g => if (s.core g.core).gated then s.modCore g.core Core.rouse else s
  | none => s

/-- An outcome with its next state carried on. -/
def onNext (o : Host.Outcome State Fault Refusal) (f : State → State) : Host.Outcome State Fault Refusal :=
  match o with
  | .next t => .next (f t)
  | .fault e => .fault e
  | .refused r => .refused r

/-- What a step adds around the meaning of an instruction a gang issues: a core that woke in vain sleeps on (R150), and in a
deterministic launch the issue is kept or passed (R151). -/
def issued (i : Instr) (before after : State) : State := fixTurns (passIssue i before (regate before after))

/-- What the machine does by its own choice. -/
def planned (s : State) : Host.Outcome State Fault Refusal :=
  match plan s with
  | .event e => onNext (exec e (s.ticked s.cur)) fixTurns
  | .issue i cur => onNext (exec i (s.ticked cur).roused) (issued i (s.ticked cur))
  | .probe i cur => onNext (exec i (s.ticked cur).roused) (afterProbe (s.ticked cur))

/-- One step. An agenda entry that is no event is dropped: only memory holds programs; so is one whose clock stands still (R305); one that
the cycle's issues come before waits for them (R145, R273, R275, R299). -/
def step (s : State) : Host.Outcome State Fault Refusal :=
  match s.agenda with
  | e :: rest =>
    if !isEvent e || frozen s e then .next { s with agenda := rest }
    else if outOfTurn s e then planned s
    else onNext (exec e { s with agenda := rest }) fixTurns
  | [] => planned s

/-- The partition, launch, panel, team and group through which one instruction runs: one group on core 0 of die 0, in slot 0. -/
def State.onePart : PartitionCfg :=
  { create := true, part := 0, dies := [0], handler := 0, handlerSize := 12, trapOff := 0, saveOff := 0, restoreOff := 0,
    quantum := Config.defaultQuantum, watchdog := 0, faultTimeout := 0, idle := 1000000, vsLimit := Config.sectionCells, root := 0,
    poolBase := 0x100000, poolSize := 0x4000000, overBase := 0x5000000, overSize := 0x100000, apertures := [], peers := [], keyDigest := [] }

/-- The launch of that group. -/
def State.oneLaunch : LaunchCmd :=
  { image := 0, codeSize := 12, entry := 0, param := [], const := [], coreImage := [], floor := 64, groups := 1, teamBytes := 4096,
    rows := 1, cols := 1, sramBytes := 4096, panels := 1, dieBytes := 4096, minDies := 1, maxDies := 1, prio := 0, determ := false,
    bounds := [], shape := none }

/-- An instruction's words, as the table numbers their bits, stored where the next step fetches: at offset 0 of the code section of a
launch whose one group stands there with all lanes active and its core's pool full (log 10). -/
def State.withFetchWord (s : State) (nbits w : Nat) : State :=
  { s with
    powered := true
    boot := {}
    parts := [(0, { cfg := State.onePart })]
    grids := [{ cmd := State.oneLaunch, code := memWriteN [] 0 12 (w % 2 ^ nbits), codeSize := 12, dies := [0], dieBases := [some 0],
                status := .resident, panels := [0], number := 1 }]
    panels := [{ size := 4096, status := .resident, started := true, teams := [0] }]
    teams := [{ size := 4096, status := .resident, groups := [0], holds := true }]
    groups := [{ area := 0x100000, gregs := (List.replicate 64 0).set 2 0x100000 }]
    cores := [(0, { tokens := 256, admissions := 1 })]
    clusters := []
    dies := []
    flights := []
    agenda := []
    tick := 1 }

end Sys2Proof.Machine
end

