-- ==== Sys2Proof/Safety.lean ====
section
/-! DEFINITION. The terms the claims use: what a state must keep, when a gang's instruction runs, and what it leaves unchanged. -/

namespace Sys2Proof.Machine

/-! ### Invariants -/

/-- Memory is in its canonical form (log 3, log 6). -/
def MemSafe (s : State) : Prop := Memory.wf s.mem = true

/-- A step answers a next state: nothing in the spec stops the machine. -/
def Steps (s : State) : Prop := ∃ t, step s = .next t

/-! ### When an instruction of the issuing gang runs -/

/-- The cells that the names written in a slice take, once the reads have freed theirs, are at hand (R144, R145). -/
def Issue.fits (c : Issue) (s : State) (rs : List NameRead) (ds : List (Pred × Nat)) : Bool :=
  c.sls.all fun i =>
    let sl := c.g.slices.get i
    let sl' := sl.consumeAll rs
    let need := ((sl.writing ds).filter fun n => (sl'.cell n).isNone).eraseDups.length
    decide (need ≤ cellsAfter s c.g.core c.gid i (sl.residentCells.length - sl'.residentCells.length))

/-- No operand stops the instruction (R75): every name it reads is bound, full, resident and has uses left, no failed producer, every
name it writes is full or unbound, the cells for new names are at hand, and no uniform register it reads awaits a load. -/
structure Issue.Operands (c : Issue) (s : State) (rs : List NameRead) (ds : List (Pred × Nat)) (regs : List (BitVec 6) := []) :
    Prop where
  noTrap : nameTrap c rs ds = none
  noFailure : c.failedReg regs = none
  loaded : c.pending regs = false
  full : mustWait c rs ds = false
  room : c.fits s rs ds = true

/-- The gang issues, and no operand stops it. -/
structure Issue.Ready (c : Issue) (s : State) (rs : List NameRead) (ds : List (Pred × Nat)) (regs : List (BitVec 6) := []) : Prop
    extends Issue.Operands c s rs ds regs where
  issues : issueOf s = some c

/-! ### What an instruction leaves -/

/-- Where a slice stands: PC, active mask, reconvergence stack and `%fmt`. -/
def Slice.path (sl : Slice) : Word32 × BitVec 4 × List StackEntry × Word32 := (sl.pc, sl.mask, sl.stack, sl.fmt)

/-- A recording may sample this issue (R370). -/
def Issue.sampled (c : Issue) (s : State) (p : Price) : Bool :=
  !p.uniform && s.recordings.any fun r => r.mask.testBit 4 && r.covers s c.g

/-- A core keeps everything but its pool, its issue marks and its sample count: mirrors, engine, accumulator, queue, VS_LIMIT, `%wake`
and the rest (R29). -/
def Core.KeepsUnits (k k' : Core) : Prop :=
  k' = { k with tokens := k'.tokens, reservations := k'.reservations, stamp := k'.stamp, portLane := k'.portLane,
                portUni := k'.portUni, grants := k'.grants, samples := k'.samples }

/-- The accounts of an issue that ends in the state `t` with the group `g`, its own effect having left `s` (R75, R115, R298): the state
keeps everything but the group, its core's accounts and the instruction sample; the core pays; the issue counts as retired outside
privileged state. -/
structure Issue.Accounts (c : Issue) (s t : State) (p : Price) (g : Group) : Prop where
  state : t = { s with groups := s.groups.set c.gid g, cores := t.cores, recordings := t.recordings }
  cores : ∀ k, k ≠ c.g.core → t.core k = s.core k
  units : (s.core c.g.core).KeepsUnits (t.core c.g.core)
  paid : (t.core c.g.core).tokens =
    if p.uniform then (s.core c.g.core).tokens else ((s.core c.g.core).pay c.gid c.gang.toNat p.tokens).tokens
  unsampled : c.sampled s p = false → t.recordings = s.recordings
  retired : g.retired = if c.g.priv then c.g.retired else c.g.retired + 1

/-- The frame of an issue whose slices move on, standing where `base` settles (R113): slices outside the gang keep everything. -/
structure Issue.Ends (c : Issue) (s t : State) (p : Price) (g : Group) (base : Nat → Slice) : Prop extends
    Issue.Accounts c s t p g where
  others : ∀ i, i < 8 → i ∉ c.sls → g.slices.get i = c.g.slices.get i
  stands : ∀ i ∈ c.sls, (g.slices.get i).path = (base i).settle.path ∧ (g.slices.get i).exited = (base i).exited

/-- The group keeps its uniform registers, priority, context, waits and every other field outside its slices and its accounts. -/
def Issue.KeepsGroup (c : Issue) (g : Group) : Prop :=
  g = { c.g with slices := g.slices, retired := g.retired, issued := true, held := g.held, wants := g.wants,
                 laneStamp := g.laneStamp, uniStamp := g.uniStamp }

/-- The slice after an instruction of `len` bytes that transfers no control, before it settles. -/
def Issue.past (c : Issue) (len : Nat) (i : Nat) : Slice :=
  { c.g.slices.get i with pc := (c.g.slices.get i).pc + BitVec.ofNat 32 len }

/-- A name of a slice holds a written value (R35): full, with the use count of the write and the pin bit of use 0. -/
def Slice.Holds (sl : Slice) (n l : Nat) (uses : BitVec 3) (v : Word32) : Prop :=
  ∃ k, sl.cell n = some k ∧ k.full = true ∧ k.data.get l = v ∧ k.count.get l = uses ∧ k.pin.get l = (uses == 0)

/-- Every name an instruction does not write stands as its reads leave it (R36): one that it reads with the counts and pins that
`Slice.consumeAll` gives it, freed where they are used up; any other as it was. -/
def Slice.ReadsNames (sl sl' : Slice) (rs : List NameRead) (ns : List Nat) : Prop :=
  ∀ n, n ∉ ns → sl'.cell n = (sl.consumeAll rs).cell n

/-- An instruction that computes one value per active lane completes: in every slice of the gang each active lane's destination
holds `val` with the use field of the instruction; predicates stay, names neither read nor written stay, flags are the old ones and
those of the active lanes. -/
def Issue.Computes (c : Issue) (s : State) (i : Instr) (p : Pred) (d : Dst) (wide : Bool) (rs : List NameRead)
    (price : Price) (val : Nat → Nat → Nat × FlagSet) (len : Nat := 12) : Prop :=
  ∃ t g, Sys2Proof.Machine.exec i s = .next t ∧ c.Ends s t price g (c.past len) ∧ c.KeepsGroup g ∧
    ∀ i ∈ c.sls,
      (∀ l, l < 4 → ((c.g.slices.get i).active p).getLsbD l = true →
        (g.slices.get i).Holds d.name.toNat l d.uses (BitVec.ofNat 32 (val i l).1) ∧
        (wide = true → (g.slices.get i).Holds (d.name.toNat + 1) l d.uses (BitVec.ofNat 32 ((val i l).1 / 2 ^ 32)))) ∧
      (c.g.slices.get i).ReadsNames (g.slices.get i) rs (destNames wide d) ∧
      (g.slices.get i).preds = (c.g.slices.get i).preds ∧
      (g.slices.get i).fflags =
        (c.g.slices.get i).fflags ||| (flagsOn ((c.g.slices.get i).active p) fun l => (val i l).2).word

/-- Every predicate of a slice but one keeps its value. -/
def Slice.KeepsPreds (sl sl' : Slice) (qd : BitVec 4) : Prop := ∀ n l, l < 4 → n ≠ qd → sl'.q l n = sl.q l n

/-- An instruction that decides one predicate per active lane completes: `qd` holds `val` on the active lanes and its old value on the
others (`q0` stays true, R40); names not read stay, as do the other predicates. -/
def Issue.Tests (c : Issue) (s : State) (i : Instr) (p : Pred) (qd : BitVec 4) (rs : List NameRead) (price : Price)
    (val : Nat → Nat → Bool × FlagSet) : Prop :=
  ∃ t g, Sys2Proof.Machine.exec i s = .next t ∧ c.Ends s t price g (c.past 12) ∧ c.KeepsGroup g ∧
    ∀ i ∈ c.sls,
      (∀ l, l < 4 → (g.slices.get i).q l qd =
        if ((c.g.slices.get i).active p).getLsbD l then qd == 0 || (val i l).1 else (c.g.slices.get i).q l qd) ∧
      (c.g.slices.get i).KeepsPreds (g.slices.get i) qd ∧
      (c.g.slices.get i).ReadsNames (g.slices.get i) rs [] ∧
      (g.slices.get i).fflags =
        (c.g.slices.get i).fflags ||| (flagsOn ((c.g.slices.get i).active p) fun l => (val i l).2).word

/-! ### Cross-lane instructions -/

/-- The gang meets the others its member mask needs and the instruction executes over `gangs` (R126): every member lane takes part, and no
operand stops it. -/
structure Issue.Meets (c : Issue) (s : State) (p : Pred) (m : BitVec 6) (gangs : List (BitVec 3 × List Nat)) (rs : List NameRead)
    (ds : List Nat) (regs : List (BitVec 6) := []) : Prop where
  issues : issueOf s = some c
  meets : c.meeting (c.members m) = .execute gangs
  members : memberFault c.g (gangList gangs) (c.members m) (fun sl => sl.active p) = false
  operands : (c.gathered p m gangs).Operands s rs (ds.map fun n => (p, n)) (if m = 0 then regs else m :: regs)

/-- The frame of a cross-lane instruction: it counts once for each gang, the issuing gang pays, and only the slices of
the gangs move. -/
structure Issue.Concludes (c : Issue) (s t : State) (gangs : List (BitVec 3 × List Nat)) (g : Group) : Prop where
  state : t = { s with groups := s.groups.set c.gid g, cores := t.cores, recordings := t.recordings }
  cores : ∀ k, k ≠ c.g.core → t.core k = s.core k
  units : (s.core c.g.core).KeepsUnits (t.core c.g.core)
  paid : (t.core c.g.core).tokens =
    (gangs.foldl (fun k x => k.pay c.gid x.1.toNat (c.share x.1).tokens) (s.core c.g.core)).tokens
  unsampled : c.sampled s priceLane = false → t.recordings = s.recordings
  retired : g.retired = if c.g.priv then c.g.retired else c.g.retired + BitVec.ofNat 64 gangs.length
  waits : g.waits = (c.g.endMeeting c.pc (gangList gangs)).waits
  keeps : c.KeepsGroup { g with waits := c.g.waits }
  others : ∀ i, i < 8 → i ∉ gangList gangs → g.slices.get i = c.g.slices.get i
  stands : ∀ i ∈ gangList gangs, (g.slices.get i).path = (c.past 12 i).settle.path ∧ (g.slices.get i).exited = (c.past 12 i).exited

/-- A cross-lane instruction that writes `val` of each participating lane (by `%lane`) completes; the names it reads stand as the reads of
the participating lanes leave them (R36, R125), and the flags are raised in every slice with a participant. -/
def Issue.Gathers (c : Issue) (s : State) (i : Instr) (p : Pred) (m : BitVec 6) (gangs : List (BitVec 3 × List Nat)) (d : Dst)
    (wide : Bool) (rs : List NameRead) (val : Nat → Nat) (fl : FlagSet) : Prop :=
  ∃ t g, Sys2Proof.Machine.exec i s = .next t ∧ c.Concludes s t gangs g ∧
    ∀ j ∈ gangList gangs,
      (∀ l, l < 4 → (c.takers p m j).getLsbD l = true →
        (g.slices.get j).Holds d.name.toNat l d.uses (BitVec.ofNat 32 (val (4 * j + l))) ∧
        (wide = true → (g.slices.get j).Holds (d.name.toNat + 1) l d.uses (BitVec.ofNat 32 (val (4 * j + l) / 2 ^ 32)))) ∧
      (∀ n, n ∉ destNames wide d → (g.slices.get j).cell n = (consumeMasked rs (c.takers p m) j (c.g.slices.get j)).cell n) ∧
      (g.slices.get j).preds = (c.g.slices.get j).preds ∧
      (g.slices.get j).fflags = (c.g.slices.get j).fflags ||| (if c.takers p m j != 0 then fl.word else 0)

/-- A vote completes: predicate `qd` of each participating lane is `b`, and nothing else of the slices changes. -/
def Issue.Votes (c : Issue) (s : State) (i : Instr) (p : Pred) (m : BitVec 6) (gangs : List (BitVec 3 × List Nat)) (qd : BitVec 4)
    (b : Bool) : Prop :=
  ∃ t g, Sys2Proof.Machine.exec i s = .next t ∧ c.Concludes s t gangs g ∧
    ∀ j ∈ gangList gangs,
      (∀ l n, l < 4 → (g.slices.get j).q l n =
        if n = qd ∧ (c.takers p m j).getLsbD l = true then qd == 0 || b else (c.g.slices.get j).q l n) ∧
      (g.slices.get j).names = (c.g.slices.get j).names ∧ (g.slices.get j).fflags = (c.g.slices.get j).fflags

/-- Source A of a slice's lane. -/
def Issue.srcOf (c : Issue) (wide : Bool) (a : Src) (i l : Nat) : Nat := (c.g.slices.get i).value wide l a.name

/-- Operand B of a slice's lane (R89, R90). -/
def Issue.opbOf (c : Issue) (wide : Bool) (b : OpB) (i l : Nat) : Nat := opbValue b c.g (c.g.slices.get i) wide l

/-- The arithmetic state of a slice. -/
def Issue.arithOf (c : Issue) (i : Nat) : Arith := Arith.of (c.g.slices.get i).fmt

/-- Once ready, an instruction of one operand and no flags computes `f` of it. -/
def Issue.One (c : Issue) (s : State) (i : Instr) (p : Pred) (d : Dst) (a : Src) (wideD wideA : Bool) (f : Nat → Nat) : Prop :=
  c.Ready s (readsOf p wideA a) ((destNames wideD d).map fun n => (p, n)) →
    c.Computes s i p d wideD (readsOf p wideA a) priceLane fun j l => (f (c.srcOf wideA a j l), 0)

/-- Once ready, an instruction of two operands and no flags computes `f` of them. -/
def Issue.Two (c : Issue) (s : State) (i : Instr) (p : Pred) (d : Dst) (a : Src) (b : OpB) (wideD wideA wideB : Bool)
    (f : Nat → Nat → Nat) : Prop :=
  c.Ready s (readsOf p wideA a ++ opbReads b p wideB) ((destNames wideD d).map fun n => (p, n)) (opbRegs b) →
    c.Computes s i p d wideD (readsOf p wideA a ++ opbReads b p wideB) priceLane
      fun j l => (f (c.srcOf wideA a j l) (c.opbOf wideB b j l), 0)

/-- Once ready, an instruction of three operands and no flags computes `f` of them. -/
def Issue.Three (c : Issue) (s : State) (i : Instr) (p : Pred) (d : Dst) (a : Src) (b : OpB) (x : Src) (wide wideB wideC : Bool)
    (f : Nat → Nat → Nat → Nat) : Prop :=
  c.Ready s (readsOf p wide a ++ opbReads b p wideB ++ readsOf p wideC x) ((destNames wide d).map fun n => (p, n)) (opbRegs b) →
    c.Computes s i p d wide (readsOf p wide a ++ opbReads b p wideB ++ readsOf p wideC x) priceLane
      fun j l => (f (c.srcOf wide a j l) (c.opbOf wideB b j l) (c.srcOf wideC x j l), 0)

/-- Once ready, a floating instruction of one operand computes `f` of it under its slice's `%fmt`. -/
def Issue.FloatOne (c : Issue) (s : State) (i : Instr) (p : Pred) (d : Dst) (a : Src) (price : Price)
    (f : Arith → Nat → Nat × FlagSet) : Prop :=
  c.Ready s (readsOf p false a) ((destNames false d).map fun n => (p, n)) →
    c.Computes s i p d false (readsOf p false a) price fun j l => f (c.arithOf j) (c.srcOf false a j l)

/-- Once ready, a floating instruction of two operands computes `f` of them under its slice's `%fmt`. -/
def Issue.FloatTwo (c : Issue) (s : State) (i : Instr) (p : Pred) (d : Dst) (a : Src) (b : OpB)
    (f : Arith → Nat → Nat → Nat × FlagSet) : Prop :=
  c.Ready s (readsOf p false a ++ opbReads b p false) ((destNames false d).map fun n => (p, n)) (opbRegs b) →
    c.Computes s i p d false (readsOf p false a ++ opbReads b p false) priceLane
      fun j l => f (c.arithOf j) (c.srcOf false a j l) (c.opbOf false b j l)

/-- Once ready, a floating instruction of three operands computes `f` of them under its slice's `%fmt`. -/
def Issue.FloatThree (c : Issue) (s : State) (i : Instr) (p : Pred) (d : Dst) (a : Src) (b : OpB) (x : Src)
    (f : Arith → Nat → Nat → Nat → Nat × FlagSet) : Prop :=
  c.Ready s (readsOf p false a ++ opbReads b p false ++ readsOf p false x) ((destNames false d).map fun n => (p, n)) (opbRegs b) →
    c.Computes s i p d false (readsOf p false a ++ opbReads b p false ++ readsOf p false x) priceLane
      fun j l => f (c.arithOf j) (c.srcOf false a j l) (c.opbOf false b j l) (c.srcOf false x j l)

/-! ### Uniform instructions -/

/-- The gang issues, and no uniform register of the instruction awaits or failed a load (R159, R165). -/
structure Issue.UniReady (c : Issue) (s : State) (dst regs : List (BitVec 6)) : Prop where
  issues : issueOf s = some c
  noFailure : c.failedReg regs = none
  loaded : c.pending (dst ++ regs) = false

/-- The slices of the gang are those of `base`, settled and regrouped, with nothing latched. -/
def Issue.KeepsSlices (c : Issue) (g : Group) (base : Nat → Slice) : Prop :=
  ∀ i ∈ c.sls, ∃ k, g.slices.get i = { ({ base i with latched := [] } : Slice).settle with gang := k }

/-- The group keeps everything but its slices, its accounts and its uniform registers. -/
def Issue.KeepsButRegs (c : Issue) (g : Group) : Prop :=
  g = { c.g with slices := g.slices, gregs := g.gregs, gfail := g.gfail, retired := g.retired, issued := true, held := g.held,
                 wants := g.wants, laneStamp := g.laneStamp, uniStamp := g.uniStamp }

/-! ### Other effects -/

/-- The issue with its group's fields as `g0` has them. -/
def Issue.on (c : Issue) (g0 : Group) : Issue := { c with g := g0 }

/-- An instruction completes: its effect outside the slices leaves the state `u` and the group fields of `g0`, its slices settle from
`base` (R113), and `f` follows the end of the issue. -/
def Issue.Moves (c : Issue) (s : State) (i : Instr) (u : State) (g0 : Group) (p : Price) (base : Nat → Slice)
    (f : State → State := id) : Prop :=
  ∃ t g, Sys2Proof.Machine.exec i s = .next (f t) ∧ (c.on g0).Ends u t p g base ∧ (c.on g0).KeepsGroup g ∧
    (c.on g0).KeepsSlices g base

/-- An instruction completes that only reads names (R36): its effect outside the slices leaves the state `u` and the group fields of
`g0`, the names it does not read, the predicates and the flags stay, the slices move on, and `f` follows. -/
def Issue.Lands (c : Issue) (s : State) (i : Instr) (u : State) (g0 : Group) (p : Price) (rs : List NameRead)
    (f : State → State := id) : Prop :=
  ∃ t g, Sys2Proof.Machine.exec i s = .next (f t) ∧ (c.on g0).Ends u t p g (c.past 12) ∧ (c.on g0).KeepsGroup g ∧
    ∀ j ∈ c.sls, (c.g.slices.get j).ReadsNames (g.slices.get j) rs [] ∧
      (g.slices.get j).preds = (c.g.slices.get j).preds ∧ (g.slices.get j).fflags = (c.g.slices.get j).fflags

/-- What a raise of slice `j` by `amount` comes to once the slice has given up `less` of its own: the amount, cut to VS_LIMIT less what
the section's slices of its own team hold, and whether it fits beside all that the section has reserved (R147). -/
def Issue.raise (c : Issue) (s : State) (j less amount : Nat) : Nat × Bool :=
  let less := if c.g.unreserved then 0 else less
  let limit := (s.core c.g.core).vsLimit
  let cut := min amount (limit - (reservedIn s c.g.core j (fun h => h.team == c.g.team) - less))
  (cut, decide (reservedIn s c.g.core j (fun _ => true) - less + cut ≤ limit))

/-- What the slice's floor entry records as the instruction ends: the raise where it fits, 0 while it waits (R147). -/
def Issue.raised (c : Issue) (s : State) (less amount j : Nat) : Nat :=
  if (c.raise s j less amount).2 then (c.raise s j less amount).1 else 0

/-- The amount a slice then waits for, if its raise does not fit (R147). -/
def Issue.raises (c : Issue) (s : State) (less amount j : Nat) : Option Nat :=
  if (c.raise s j less amount).2 then none else some amount

/-- The wait of slice `j` for a raise, before the instruction at `pc` (R147). -/
def Issue.raiseWait (c : Issue) (j : Nat) (pc : Word32) (amount : Nat) : GangWait :=
  { slices := sliceBits [j], pc := pc, next := pc, kind := .floorRaise amount, priv := c.g.priv }

/-- A transfer of control completes (R112 to R118): the slices settle from `base`; the group keeps everything but its chunks, which
cover its deep stacks (R43), and the waits of the slices whose floor raises do not fit yet, each before its target's first instruction
(R147); every name but those written is as `use` leaves it, predicates and flags stay, and `extra` holds of each slice. -/
def Issue.Transfers (c : Issue) (s : State) (i : Instr) (use : Nat → Slice) (ds : List Nat) (base : Nat → Slice)
    (raises : Nat → Option Nat) (extra : Nat → Slice → Prop) : Prop :=
  ∃ t g, Sys2Proof.Machine.exec i s = .next t ∧
    let ws := c.sls.filterMap fun j => (raises j).map (c.raiseWait j (base j).pc)
    let c' := c.on { c.g with waits := c.g.waits ++ ws, chunks := max c.g.chunks (chunksFor g.spilledEntries) }
    c'.Ends s t priceLane g base ∧ c'.KeepsGroup g ∧
    ∀ j ∈ c.sls, (∀ n, n ∉ ds → (g.slices.get j).cell n = (use j).cell n) ∧ (g.slices.get j).preds = (c.g.slices.get j).preds ∧
      (g.slices.get j).fflags = (c.g.slices.get j).fflags ∧ extra j (g.slices.get j)

/-- A name of a slice awaits the data of an instruction (R37, R157). -/
def Slice.Awaits (sl : Slice) (n l : Nat) (uses : BitVec 3) (instr : Nat) : Prop :=
  ∃ k, sl.cell n = some k ∧ k.full = false ∧ k.failed = none ∧ k.count.get l = uses ∧ k.pin.get l = (uses == 0) ∧ k.producer = instr

/-- An instruction completes that leaves names empty for data still to come: its effect outside the slices leaves the state `u`. -/
def Issue.Leaves (c : Issue) (s : State) (i : Instr) (u : State) (p : Price) (rs : List NameRead) (q : Pred) (names : List Nat)
    (uses : BitVec 3) (instr : Nat) : Prop :=
  ∃ t g, Sys2Proof.Machine.exec i s = .next t ∧ c.Ends u t p g (c.past 12) ∧ c.KeepsGroup g ∧
    ∀ j ∈ c.sls, (∀ l, l < 4 → ((c.g.slices.get j).active q).getLsbD l = true → ∀ n ∈ names, (g.slices.get j).Awaits n l uses instr) ∧
      (c.g.slices.get j).ReadsNames (g.slices.get j) rs names ∧
      (g.slices.get j).preds = (c.g.slices.get j).preds ∧ (g.slices.get j).fflags = (c.g.slices.get j).fflags

/-- An instruction issues and its slices begin the wait `w` (R124), standing at `pc`, and `f` follows. -/
def Issue.Begins (c : Issue) (s : State) (i : Instr) (p : Price) (rs : List NameRead) (pc : Nat → Word32) (w : GangWait)
    (f : State → State := id) : Prop :=
  ∃ t g, Sys2Proof.Machine.exec i s = .next (f t) ∧ c.Accounts s t p g ∧
    (c.on { c.g with waits := c.g.waits ++ [w] }).KeepsGroup g ∧
    (∀ j, j < 8 → j ∉ c.sls → g.slices.get j = c.g.slices.get j) ∧
    ∀ j ∈ c.sls, (g.slices.get j).path = (pc j, (c.g.slices.get j).mask, (c.g.slices.get j).stack, (c.g.slices.get j).fmt) ∧
      (g.slices.get j).exited = (c.g.slices.get j).exited ∧ (c.g.slices.get j).ReadsNames (g.slices.get j) rs [] ∧
      (g.slices.get j).preds = (c.g.slices.get j).preds ∧ (g.slices.get j).fflags = (c.g.slices.get j).fflags

/-- A uniform instruction that writes one register completes: the register holds the value (`g0` stays 0, R39), every other register
keeps its own, and the slices only move on. -/
def Issue.Sets (c : Issue) (s : State) (i : Instr) (len : Nat) (d : BitVec 6) (val : Word64) : Prop :=
  ∃ t g, Sys2Proof.Machine.exec i s = .next t ∧ c.Ends s t priceUniform g (c.past len) ∧ c.KeepsButRegs g ∧
    c.KeepsSlices g (c.past len) ∧ ∀ r, g.g r = if r = d then (if d = 0 then 0 else val) else c.g.g r

/-- The trap of an access of `n` bytes at `a` of a space (R155, R157, R161, R164, R165, R233): window misuse for a window that is not open,
for bytes beyond its length, for a store to a read-only one and for `core` or `clu` bytes under a window; machine check of sub-cause 3
for a failed segment; scratchpad bounds for bytes outside the ranges and for a misaligned address; each with this address. -/
def accessFault (s : State) (g : Group) (space : Space) (win a n : Nat) (store : Bool) : Option Trap :=
  let trap (cause : Nat) : Option Trap := some { cause := cause, arg := BitVec.ofNat 64 a }
  let misaligned : Option Trap := if a % min n 16 = 0 then none else trap 7
  let w := (s.team g.team).window win
  if space = .win then
    if w.isOpen = false ∨ w.closing = true ∨ w.length < a + n ∨ (store = true ∧ w.readOnly = true) then trap 8
    else if (List.range w.segments.length).any fun j => decide (a / 4096 ≤ j ∧ j ≤ (a + n - 1) / 4096) && (w.seg j).failed then
      some { cause := 11, sub := 3, arg := BitVec.ofNat 64 a }
    else misaligned
  else match reach s g space a n store with
    | .bounds => trap 7
    | .window => trap 8
    | .at _ => misaligned

/-- The least participating lane whose access fails, its lanes below passing, gives the instruction its trap (R157, R233). -/
def Issue.FirstFault (c : Issue) (s : State) (p : Pred) (m : Mem) (n : Nat) (store : Bool) (t : Trap) : Prop :=
  ∃ pre y post, c.lanes p = pre ++ y :: post ∧
    (∀ x ∈ pre, accessFault s c.g m.space m.win.toNat (laneAddr c.g m x.1 x.2) n store = none) ∧
    accessFault s c.g m.space m.win.toNat (laneAddr c.g m y.1 y.2) n store = some t

/-- A group keeps everything but the marks of names whose spill is under way (R138, R145). -/
def Group.KeepsButSpills (g g' : Group) : Prop :=
  g' = { g with slices := g'.slices } ∧ ∀ j, (∃ ns, g'.slices.get j = { g.slices.get j with names := ns }) ∧
    ∀ n, match (g.slices.get j).cell n with
      | none => (g'.slices.get j).cell n = none
      | some k => ∃ sp rq, (g'.slices.get j).cell n = some { k with spilling := sp, spillFor := rq }

/-! ### Floating values (R47 to R50, R59 to R63) -/

/-- The exact value of a number. -/
def FVal.value : FVal → ℚ
  | .num neg m e => (if neg then -1 else 1) * m * 2 ^ e
  | _ => 0

/-- A number: neither a NaN nor an infinity. -/
def FVal.isNum : FVal → Bool
  | .num .. => true
  | _ => false

/-- The order of R67: numbers by value with −0 below +0, infinities at the ends. -/
def FVal.below : FVal → FVal → Bool
  | .inf a, .inf b => a && !b
  | .inf a, _ => a
  | _, .inf b => !b
  | u, v => decide (u.value < v.value) || (decide (u.value = v.value) && u.neg && !v.neg)

/-- The order of R99: numbers by value with −0 equal to +0, infinities at the ends. -/
def FVal.less : FVal → FVal → Bool
  | .inf a, .inf b => a && !b
  | .inf a, _ => a
  | _, .inf b => !b
  | u, v => decide (u.value < v.value)

/-- `y` is the point of the grid of `step` that the mode chooses for the magnitude `x` of the sign: a neighbour of it, and `x` itself where
it lies on the grid (R59). -/
def Chosen (mode : RMode) (neg : Bool) (x step y : ℚ) : Prop :=
  ∃ k : ℕ, y = k * step ∧ |y - x| < step ∧
    match mode with
    | .rne => 2 * |y - x| ≤ step ∧ (2 * |y - x| = step → k % 2 = 0)
    | .rna => 2 * |y - x| ≤ step ∧ (2 * |y - x| = step → x < y)
    | .rtz => y ≤ x
    | .rup => if neg then y ≤ x else x ≤ y
    | .rdn => if neg then x ≤ y else y ≤ x

/-- The code `r` stands for the number of the sign and magnitude. -/
def FloatFmt.Stands (f : FloatFmt) (r : Nat) (neg : Bool) (y : ℚ) : Prop :=
  r < 2 ^ f.width ∧ ∃ m e, f.decode r = .num neg m e ∧ (m : ℚ) * 2 ^ e = y

/-- The code `r` stands for the infinity of the sign. -/
def FloatFmt.Infinite (f : FloatFmt) (r : Nat) (neg : Bool) : Prop := r < 2 ^ f.width ∧ f.decode r = .inf neg

/-- The code `r` stands for a NaN of the sign. -/
def FloatFmt.NotNumber (f : FloatFmt) (r : Nat) (neg : Bool) : Prop :=
  r < 2 ^ f.width ∧ (f.decode r).isNaN = true ∧ (f.decode r).neg = neg

/-- The largest finite magnitude of a format. -/
def FloatFmt.top (f : FloatFmt) : ℚ := f.maxSig * 2 ^ (f.emax - f.fbits)

/-- The code `r` is the overflow result of the table of R60. -/
def FloatFmt.Overflowed (f : FloatFmt) (a : Arith) (neg : Bool) (r : Nat) : Prop :=
  let away : Bool := match a.mode with
    | .rne | .rna => true
    | .rtz => false
    | .rup => !neg
    | .rdn => neg
  match f.kind with
  | .finite => f.Stands r neg f.top
  | .ieee => if away && !a.sat then f.Infinite r neg else f.Stands r neg f.top
  | .nanOnly => if away && !a.sat then f.NotNumber r neg else f.Stands r neg f.top

/-- The code and flags `r` are what R59 to R61 make of an exact value of the sign and the magnitude `x`: `y` is the value rounded with
unbounded exponent, which decides overflow and tininess. -/
def FloatFmt.Rounds (f : FloatFmt) (a : Arith) (neg : Bool) (x : ℚ) (r : Nat × FlagSet) : Prop :=
  ∃ (E : ℤ) (y : ℚ), 2 ^ E ≤ x ∧ x < 2 ^ (E + 1) ∧ Chosen a.mode neg x (2 ^ (E - f.fbits)) y ∧
    if f.top < y then f.Overflowed a neg r.1 ∧ r.2 = flagOverflow ||| flagInexact
    else if y < 2 ^ f.emin then
      if a.fout then f.Stands r.1 neg 0 ∧ r.2 = flagUnderflow ||| flagInexact
      else ∃ z, Chosen a.mode neg x (2 ^ (f.emin - f.fbits)) z ∧ f.Stands r.1 neg z ∧
        r.2 = if z = x then 0 else flagUnderflow ||| flagInexact
    else f.Stands r.1 neg y ∧ r.2 = if y = x then 0 else flagInexact

/-- The code and flags of the exact value `v`: rounded once, an exact zero with the sign `zero` and no flag (R97). -/
def FloatFmt.Gives (f : FloatFmt) (a : Arith) (v : ℚ) (zero : Bool) (r : Nat × FlagSet) : Prop :=
  (v = 0 → f.Stands r.1 zero 0 ∧ r.2 = 0) ∧ (v ≠ 0 → f.Rounds a (decide (v < 0)) |v| r)

/-- The sum of two operands that are no NaN (R62, R66, R97). -/
def FloatFmt.SumIs (f : FloatFmt) (a : Arith) (u v : FVal) (r : Nat × FlagSet) : Prop :=
  match u, v with
  | .inf m, .inf n => if m = n then f.Infinite r.1 m ∧ r.2 = 0 else r = (f.canonicalNaN, flagInvalid)
  | .inf m, _ => f.Infinite r.1 m ∧ r.2 = 0
  | _, .inf n => f.Infinite r.1 n ∧ r.2 = 0
  | _, _ => f.Gives a (u.value + v.value) (if u.neg = v.neg then u.neg else decide (a.mode = .rdn)) r

/-- A product that is invalid: 0 × ∞ (R97). -/
def badProduct : FVal → FVal → Bool
  | .inf _, .num _ m _ => m == 0
  | .num _ m _, .inf _ => m == 0
  | _, _ => false

/-- The product of two operands that are no NaN (R62, R97). -/
def FloatFmt.ProductIs (f : FloatFmt) (a : Arith) (u v : FVal) (r : Nat × FlagSet) : Prop :=
  let neg := u.neg != v.neg
  if badProduct u v then r = (f.canonicalNaN, flagInvalid)
  else if u.isNum && v.isNum then f.Gives a (u.value * v.value) neg r
  else f.Infinite r.1 neg ∧ r.2 = 0

/-- The product of two operands that are no NaN, plus a third that is none either (R62, R66, R97). -/
def FloatFmt.FusedIs (f : FloatFmt) (a : Arith) (u v w : FVal) (r : Nat × FlagSet) : Prop :=
  let neg := u.neg != v.neg
  if badProduct u v then r = (f.canonicalNaN, flagInvalid)
  else if u.isNum && v.isNum then
    match w with
    | .inf n => f.Infinite r.1 n ∧ r.2 = 0
    | _ => f.Gives a (u.value * v.value + w.value) (if neg = w.neg then neg else decide (a.mode = .rdn)) r
  else f.SumIs a (.inf neg) w r

/-- The first NaN of some operand codes, quieted, where `%fmt.nan` asks for it; else the canonical NaN (R48, R62). -/
def FloatFmt.picked (f : FloatFmt) (keep : Bool) (cs : List Nat) : Nat :=
  match cs.find? fun c => (f.decode c).isNaN with
  | some c => if keep then c ||| 2 ^ (f.fbits - 1) else f.canonicalNaN
  | none => f.canonicalNaN

/-- The code and flags `r` are what R60 to R63 make of an operand `v` of format `s` in format `d`. Exact is a conversion to a format that
holds every number of `s` (log 13: `.m6a` to `.e5m2` is none). -/
def FloatFmt.Converts (d s : FloatFmt) (a : Arith) (v : FVal) (r : Nat × FlagSet) : Prop :=
  match v with
  | .nan neg fr _ sn =>
    match d.kind with
    | .finite => r = (0, flagInvalid)
    | .nanOnly => r = (d.signBit (a.nan && neg) + (2 ^ (d.ebits + d.fbits) - 1), flagIf sn flagInvalid)
    | .ieee => r.2 = flagIf sn flagInvalid ∧ (a.nan = false → r.1 = d.canonicalNaN) ∧ (a.nan = true → ∃ g, r.1 < 2 ^ d.width ∧
        d.decode r.1 = .nan neg g d.fbits false ∧ ∀ i, i + 1 < d.fbits → g.testBit i =
          (decide (d.fbits ≤ i + s.fbits) && fr.testBit (i + s.fbits - d.fbits)))
  | .inf neg =>
    match d.kind with
    | .ieee => d.Infinite r.1 neg ∧ r.2 = 0
    | .nanOnly => if a.sat then d.Stands r.1 neg d.top ∧ r.2 = flagInexact else d.NotNumber r.1 neg ∧ r.2 = flagInvalid
    | .finite => d.Stands r.1 neg d.top ∧ r.2 = flagInexact
  | .num neg _ _ =>
    if s.within d then d.Stands r.1 neg |v.value| ∧ r.2 = 0 else d.Gives a v.value neg r

/-- The integer and flags that R63 makes of a floating operand, for a type whose values lie between `lo` and `hi`. -/
def Integral (a : Arith) (lo hi : Int) (v : FVal) (i : Int) (fl : FlagSet) : Prop :=
  match v with
  | .nan .. => i = 0 ∧ fl = flagInvalid
  | .inf neg => i = (if neg then lo else hi) ∧ fl = flagInvalid
  | .num neg _ _ => ∃ k : Nat, Chosen a.mode neg |v.value| 1 k ∧
      let x : Int := if neg then -k else k
      i = max lo (min hi x) ∧ fl = if x < lo ∨ hi < x then flagInvalid else if (k : ℚ) = |v.value| then 0 else flagInexact

/-- The code and flags `r` are what R60 to R63 make of the low bits of `x`, read as type `st`, in type `dt` (R104). -/
def Converted (a : Arith) (dt st : Ty) (x : Nat) (r : Nat × FlagSet) : Prop :=
  let w := tyIntBits dt
  let n := tyIntBits st
  let lo : Int := if dt.signed then -2 ^ (w - 1) else 0
  let hi : Int := if dt.signed then 2 ^ (w - 1) - 1 else 2 ^ w - 1
  let v : Int := if st.signed then (BitVec.ofNat n x).toInt else (BitVec.ofNat n x).toNat
  match tyFmt dt, tyFmt st with
  | some d, some s => d.Converts s a (s.operand a (x % 2 ^ s.width)) r
  | none, some s => ∃ i, Integral a lo hi (s.operand a (x % 2 ^ s.width)) i r.2 ∧ r.1 = (BitVec.ofInt w i).toNat
  | some d, none => d.Gives a v false r
  | none, none => r.2 = 0 ∧ r.1 = (BitVec.ofInt w
      (if a.sat && (decide (w < n) || (w == n && dt.signed != st.signed)) then max lo (min hi v) else v)).toNat

/-- Element `i` of `n` bits of a packed word (R52). -/
def element (x n i : Nat) : Nat := x / 2 ^ (i * n) % 2 ^ n

/-- A value is kept by `sp24` before another: it has the greater magnitude, a NaN above all, and at equal magnitudes the lower index
(R109). -/
def FVal.Outranks (u v : FVal) (i j : Nat) : Prop :=
  match u, v with
  | .nan .., .nan .. | .inf _, .inf _ => i < j
  | .nan .., _ => True
  | _, .nan .. => False
  | .inf _, _ => True
  | _, .inf _ => False
  | u, v => |v.value| < |u.value| ∨ (|v.value| = |u.value| ∧ i < j)


/-! ### Host commands -/

/-- A message that is not dropped (R349): boot succeeded, its session is open and not closing, its tag verifies and its number is the
next one. -/
structure Arrives (h : CmdHdr) (s : State) (x : Session) : Prop where
  up : s.up = true
  session : s.sessions[h.session]? = some x
  isOpen : x.isOpen = true
  staysOpen : x.closing = false
  tagOk : h.tagOk = true
  next : h.seq = x.seq + 1
  fresh : h.seq ∉ x.waiting

/-- A command the device takes at once (R348 to R350): it arrives, keeps to the message format, names no partition but its session's, and
its partition's command unit is free. -/
structure Accepted (h : CmdHdr) (s : State) (x : Session) : Prop extends Arrives h s x where
  idle : busyUnit s x.target = none
  header : headerOk h h.opcode = true
  bound : h.part = none ∨ h.part = x.target

/-- The answer to a command, after which a session that was to close with it is closed (R349). -/
def replied (s : State) (h : CmdHdr) (status : Nat) (body : List Nat) : State :=
  endClosing (respond s h.session h.opcode status body) h.session

/-- The state in which a taken command is executed: its number is the session's last. -/
def took (h : CmdHdr) (s : State) (x : Session) : State :=
  { s with sessions := s.sessions.set h.session { x with seq := h.seq } }

/-- A taken command to the partition its session is bound to (R350). -/
structure ForPartition (h : CmdHdr) (s : State) (x : Session) (part : Nat) (p : Partition) : Prop extends Accepted h s x where
  target : x.target = some part
  partition : tabGet? s.parts part = some p

/-- The state in which a partition's command is executed (R196). -/
def begun (h : CmdHdr) (s : State) (x : Session) (part : Nat) : State := restartWatchdogs (took h s x) part

/-- A taken command that names a live grid of its partition (R353). -/
structure ForGrid (h : CmdHdr) (s : State) (x : Session) (part : Nat) (p : Partition) (number gid : Nat) (d : Grid) : Prop extends
    ForPartition h s x part p where
  live : liveGrid (begun h s x part) part number = some gid
  grid : (begun h s x part).grids[gid]? = some d

end Sys2Proof.Machine
end

