-- ==== Sys2Proof/Certificates/Slice0/Obligations.lean ====
section
/-! DEFINITION. The statements for the provers: what the rules of spec/ say the instructions and the machine do. -/

open Sys2Proof Sys2Proof.Machine

/-! ### Lane arithmetic -/

/-- R91 to R95: every integer and address instruction whose operands are at hand completes; each active lane's destination holds the
result of the instruction's row on that lane's operands, with the use field written; names neither read nor written, predicates, flags,
uniform registers, every other group, core, memory and all else keep their values, and the slices move on by 12 bytes and settle. -/
def Obligations.IntegerInstructionsCompute : Prop :=
  ∀ (s : State) (c : Issue) (p : Pred) (d : Dst) (a : Src) (b : OpB) (x : Src) (t : Ty),
    (∀ sat, c.Two s (.add p d a b t sat) p d a b t.wide t.wide t.wide (resAdd t sat)) ∧
    (∀ sat, c.Two s (.sub p d a b t sat) p d a b t.wide t.wide t.wide (resSub t sat)) ∧
    c.Two s (.mul p d a b t) p d a b t.wide t.wide t.wide (resMul t) ∧
    c.Two s (.mulhi p d a b t) p d a b t.wide t.wide t.wide (resMulhi t) ∧
    c.Three s (.mad p d a b x t) p d a b x t.wide t.wide t.wide (resMad t) ∧
    c.Three s (.madhi p d a b x t) p d a b x t.wide t.wide t.wide (resMadhi t) ∧
    c.Two s (.div p d a b t) p d a b t.wide t.wide t.wide (resDiv t) ∧
    c.Two s (.rem p d a b t) p d a b t.wide t.wide t.wide (resRem t) ∧
    c.One s (.neg p d a t) p d a t.wide t.wide (resNeg t) ∧
    c.One s (.abs p d a t) p d a t.wide t.wide (resAbs t) ∧
    c.Two s (.min p d a b t) p d a b t.wide t.wide t.wide (resMin t) ∧
    c.Two s (.max p d a b t) p d a b t.wide t.wide t.wide (resMax t) ∧
    c.Two s (.shl p d a b t) p d a b t.wide t.wide false (resShl t) ∧
    c.Two s (.shr p d a b t) p d a b t.wide t.wide false (resShr t) ∧
    c.Two s (.sar p d a b t) p d a b t.wide t.wide false (resSar t) ∧
    c.Two s (.rot p d a b t) p d a b t.wide t.wide false (resRot t) ∧
    c.Two s (.and p d a b t) p d a b t.wide t.wide t.wide resAnd ∧
    c.Two s (.or p d a b t) p d a b t.wide t.wide t.wide resOr ∧
    c.Two s (.xor p d a b t) p d a b t.wide t.wide t.wide resXor ∧
    c.Two s (.andn p d a b t) p d a b t.wide t.wide t.wide (resAndn t) ∧
    c.One s (.not p d a t) p d a t.wide t.wide (resNot t) ∧
    c.Two s (.bfe p d a b t) p d a b t.wide t.wide false (resBfe t) ∧
    c.Three s (.bfi p d a b x t) p d a b x t.wide false t.wide (resBfi t) ∧
    c.One s (.pop p d a t) p d a false t.wide (resPop t) ∧
    c.One s (.clz p d a t) p d a false t.wide (resClz t) ∧
    c.One s (.ctz p d a t) p d a false t.wide (resCtz t) ∧
    c.One s (.brev p d a t) p d a t.wide t.wide (resBrev t) ∧
    (∀ scale, c.Two s (.lea p d a b t scale) p d a b t.wide t.wide t.wide (resLea t scale.toNat)) ∧
    (c.Ready s (opbReads b p t.wide) ((destNames t.wide d).map fun n => (p, n)) (opbRegs b) →
      c.Computes s (.mov p d b t) p d t.wide (opbReads b p t.wide) priceLane fun j l => (c.opbOf t.wide b j l, 0)) ∧
    (∀ imm, c.Ready s [] ((destNames t.wide d).map fun n => (p, n)) →
      c.Computes s (.movi p d t imm) p d t.wide [] priceLane fun _ _ => (resMovi t imm, 0)) ∧
    c.Three s (.sel p d a b x t) p d a b x t.wide t.wide false resSel

/-- R96 to R103: every floating and transcendental instruction whose operands are at hand completes; each active lane's destination
holds the result under its slice's `%fmt`, the flags of the active lanes are added to `%fflags`, a transcendental costs 3 tokens and
every other one 2; all else keeps its value. -/
def Obligations.FloatInstructionsCompute : Prop :=
  ∀ (s : State) (c : Issue) (p : Pred) (d : Dst) (a : Src) (b : OpB) (x : Src) (t : Ty),
    c.FloatTwo s (.fadd p d a b t) p d a b (resFadd t) ∧
    c.FloatTwo s (.fsub p d a b t) p d a b (resFsub t) ∧
    c.FloatTwo s (.fmul p d a b t) p d a b (resFmul t) ∧
    c.FloatThree s (.fma p d a b x t) p d a b x (resFma t) ∧
    c.FloatTwo s (.fmin p d a b t) p d a b (resFmin t) ∧
    c.FloatTwo s (.fmax p d a b t) p d a b (resFmax t) ∧
    c.One s (.fabs p d a t) p d a false false (resFabs t) ∧
    c.One s (.fneg p d a t) p d a false false (resFneg t) ∧
    c.One s (.fclass p d a t) p d a false false (resFclass t) ∧
    c.FloatTwo s (.hadd2 p d a b t) p d a b (resHadd2 t) ∧
    c.FloatTwo s (.hmul2 p d a b t) p d a b (resHmul2 t) ∧
    c.FloatThree s (.hfma2 p d a b x t) p d a b x (resHfma2 t) ∧
    c.FloatOne s (.frcp p d a t) p d a ⟨3, false⟩ (resTrans .rcp t) ∧
    c.FloatOne s (.frsq p d a t) p d a ⟨3, false⟩ (resTrans .rsq t) ∧
    c.FloatOne s (.fsqrt p d a t) p d a ⟨3, false⟩ (resTrans .sqrt t) ∧
    c.FloatOne s (.fexp2 p d a t) p d a ⟨3, false⟩ (resTrans .exp2 t) ∧
    c.FloatOne s (.flog2 p d a t) p d a ⟨3, false⟩ (resTrans .log2 t) ∧
    c.FloatOne s (.fsinpi p d a t) p d a ⟨3, false⟩ (resTrans .sinpi t) ∧
    c.FloatOne s (.fcospi p d a t) p d a ⟨3, false⟩ (resTrans .cospi t) ∧
    c.FloatOne s (.ftanh p d a t) p d a ⟨3, false⟩ (resTrans .tanh t)

/-- R104 to R109: every conversion and packing instruction whose operands are at hand completes. The block of `mxq` is the gang's
active lanes in ascending order, its scale in bits 15:8 of every lane's result. -/
def Obligations.ConversionInstructionsCompute : Prop :=
  ∀ (s : State) (c : Issue) (p : Pred) (d : Dst) (a b x : Src) (t st : Ty),
    (∀ rint, c.Ready s (readsOf p st.wide a) ((destNames t.wide d).map fun n => (p, n)) →
      c.Computes s (.cvt p d a t st rint) p d t.wide (readsOf p st.wide a) priceLane
        fun j l => resCvt (c.arithOf j) t st rint (c.srcOf st.wide a j l)) ∧
    (∀ k, tyCodeBits t ≠ 16 →
      c.Ready s (readsOf p false a ++ readsOf p false b ++ readsOf p false x) ((destNames false d).map fun n => (p, n)) →
      c.Computes s (.pack p d a b x t st k) p d false (readsOf p false a ++ readsOf p false b ++ readsOf p false x) priceLane
        fun j l => resPack (c.arithOf j) t st k.toNat (c.srcOf false a j l) (c.srcOf false b j l) (c.srcOf false x j l)) ∧
    (∀ k, tyCodeBits t = 16 →
      c.Ready s (readsOf p false a ++ readsOf p false b) ((destNames false d).map fun n => (p, n)) →
      c.Computes s (.pack p d a b x t st k) p d false (readsOf p false a ++ readsOf p false b) priceLane
        fun j l => resPack (c.arithOf j) t st k.toNat (c.srcOf false a j l) (c.srcOf false b j l) 0) ∧
    (∀ k, c.FloatOne s (.unpack p d a t k) p d a priceLane fun f v => resUnpack f t k.toNat v) ∧
    (c.Ready s (readsOf p false a) ((destNames false d).map fun n => (p, n)) →
      c.Computes s (.mxq p d a t st) p d false (readsOf p false a) priceLane fun j l =>
        let block := mxScale t (mxBlock c p a st)
        let v := rdFloat st (c.arithOf j) (c.srcOf false a j l)
        if block.2 then (0xFF00, match v with | .num .. => 0 | _ => flagInvalid)
        else (256 * block.1 + (mxCode t (c.arithOf j) block.1 v).1, (mxCode t (c.arithOf j) block.1 v).2)) ∧
    c.FloatOne s (.mxdq p d a t) p d a priceLane (fun f v => resMxdq f t v) ∧
    c.One s (.sp24 p d a t) p d a false false (resSp24 t)

/-- R94, R99: a compare whose operands are at hand completes; predicate D of each active lane is the truth of the condition, `q0` stays
true, every other predicate, name and register keeps its value, and a floating compare adds its flags. -/
def Obligations.ComparesSetPredicates : Prop :=
  ∀ (s : State) (c : Issue) (p : Pred) (qd : BitVec 4) (a : Src) (b : OpB) (t : Ty),
    (∀ cond, c.Ready s (readsOf p t.wide a ++ opbReads b p t.wide) [] (opbRegs b) →
      c.Tests s (.cmp p qd a b t cond) p qd (readsOf p t.wide a ++ opbReads b p t.wide) priceLane
        fun j l => (resCmp t cond (c.srcOf t.wide a j l) (c.opbOf t.wide b j l), 0)) ∧
    (∀ cond, c.Ready s (readsOf p false a ++ opbReads b p false) [] (opbRegs b) →
      c.Tests s (.fcmp p qd a b t cond) p qd (readsOf p false a ++ opbReads b p false) priceLane
        fun j l => resFcmp t (c.arithOf j) cond (c.srcOf false a j l) (c.opbOf false b j l))

/-! ### Uniform instructions -/

/-- R39, R81, R241: every uniform instruction whose registers are at hand completes; its destination holds the result (`g0` stays 0),
every other register, the slices but for their PC, and all else keep their values. -/
def Obligations.UniformInstructionsSet : Prop :=
  ∀ (s : State) (c : Issue) (d a b : BitVec 6) (i : BitVec 10) (w : BitVec 32) (u : UOp) (cond : UCond),
    (c.UniReady s [d] [a, b] →
      c.Sets s (.gaddReg d a b) 4 d (c.g.g a + c.g.g b) ∧ c.Sets s (.gsubReg d a b) 4 d (c.g.g a - c.g.g b) ∧
      c.Sets s (.gmulReg d a b) 4 d (c.g.g a * c.g.g b) ∧ c.Sets s (.gshlReg d a b) 4 d (c.g.g a <<< ((c.g.g b).toNat % 64)) ∧
      c.Sets s (.gshrReg d a b) 4 d (c.g.g a >>> ((c.g.g b).toNat % 64)) ∧ c.Sets s (.gandReg d a b) 4 d (c.g.g a &&& c.g.g b) ∧
      c.Sets s (.gorReg d a b) 4 d (c.g.g a ||| c.g.g b) ∧ c.Sets s (.gxorReg d a b) 4 d (c.g.g a ^^^ c.g.g b)) ∧
    (c.UniReady s [d] [a] →
      c.Sets s (.gaddImm d a i) 4 d (c.g.g a + i.signExtend 64) ∧ c.Sets s (.gsubImm d a i) 4 d (c.g.g a - i.signExtend 64) ∧
      c.Sets s (.gmulImm d a i) 4 d (c.g.g a * i.signExtend 64) ∧
      c.Sets s (.gshlImm d a i) 4 d (c.g.g a <<< ((i.signExtend 64).toNat % 64)) ∧
      c.Sets s (.gshrImm d a i) 4 d (c.g.g a >>> ((i.signExtend 64).toNat % 64)) ∧
      c.Sets s (.gandImm d a i) 4 d (c.g.g a &&& i.signExtend 64) ∧ c.Sets s (.gorImm d a i) 4 d (c.g.g a ||| i.signExtend 64) ∧
      c.Sets s (.gxorImm d a i) 4 d (c.g.g a ^^^ i.signExtend 64) ∧ c.Sets s (.gmov d a) 4 d (c.g.g a) ∧
      c.Sets s (.capqReg d a) 8 d (capability s c.g (c.g.g a).toNat)) ∧
    (c.UniReady s [d] (a :: uopRegs u) →
      let x := uopValue c.g u
      c.Sets s (.gaddU2 d a u) 8 d (c.g.g a + x) ∧ c.Sets s (.gsubU2 d a u) 8 d (c.g.g a - x) ∧
      c.Sets s (.gmulU2 d a u) 8 d (c.g.g a * x) ∧ c.Sets s (.gshlU2 d a u) 8 d (c.g.g a <<< (x.toNat % 64)) ∧
      c.Sets s (.gshrU2 d a u) 8 d (c.g.g a >>> (x.toNat % 64)) ∧ c.Sets s (.gandU2 d a u) 8 d (c.g.g a &&& x) ∧
      c.Sets s (.gorU2 d a u) 8 d (c.g.g a ||| x) ∧ c.Sets s (.gxorU2 d a u) 8 d (c.g.g a ^^^ x) ∧
      c.Sets s (.gcmp d a u cond) 8 d (if resGcmp cond (c.g.g a) x then 1 else 0)) ∧
    (c.UniReady s [d] [] →
      c.Sets s (.gli d i) 4 d (i.signExtend 64) ∧ c.Sets s (.gliU2 d w) 8 d (w.signExtend 64) ∧
      c.Sets s (.gliHi d w) 8 d (w ++ (c.g.g d).extractLsb' 0 32) ∧ c.Sets s (.capq d i) 4 d (capability s c.g i.toNat) ∧
      c.Sets s (.capqW d w) 8 d (capability s c.g w.toNat))

/-- R232, R260, R263: a read of a special register completes when its selector may be read in the group's state of privilege and no `bcast`
of the group to that bound word is on its way; a uniform destination holds the register as the gang's lowest active lane sees it, a name the
register as each active lane sees it. Beside that, a read of a bound word notes in the group what it has been shown of the unit's order
(R263; the model's own field, log 87). -/
def Obligations.SpecialRegistersRead : Prop :=
  ∀ (s : State) (c : Issue) (d : BitVec 6) (v : Dst) (sel : BitVec 10), (selectorPrivileged sel = true → c.g.priv = true) →
    boundWait s c sel = false →
    let c' := c.on (c.shown s sel c.g)
    (c.UniReady s [d] [] →
      c'.Sets s (.sread d sel) 4 d (specialReg s c.g sel c.lowest.1 c.lowest.2) ∧
      c'.Sets s (.sreadU2 d sel) 8 d (specialReg s c.g sel c.lowest.1 c.lowest.2)) ∧
    (c.Ready s [] ((destNames (selectorWide sel) v).map fun n => (.always, n)) →
      c'.Computes s (.sreadLane v sel) .always v (selectorWide sel) [] priceUniform
        (fun j l => ((specialReg s c.g sel j l).toNat, 0)) 8)

/-- R123, R142, R143: `setfmt`, `setprio` and `gbr` complete. `setfmt` writes `%fmt` of every slice of the gang where every result is
legal; `setprio` writes `%prio` with G(A) + imm saturated to 0 to 15; `gbr` moves every slice of the gang to its target or past itself.
Nothing else changes. -/
def Obligations.UniformControlCompletes : Prop :=
  ∀ (s : State) (c : Issue) (a : BitVec 6) (i : BitVec 10) (w : BitVec 32) (cond : GCond),
    (c.UniReady s [] [a] →
      (fmtLegal ((c.g.g a).extractLsb' 0 32) = true →
        c.Moves s (.setfmt a) s c.g priceUniform fun j => { c.past 4 j with fmt := (c.g.g a).extractLsb' 0 32 }) ∧
      ((∀ j ∈ c.sls, fmtLegal (((c.g.slices.get j).fmt &&& ~~~w) ||| ((c.g.g a).extractLsb' 0 32 &&& w)) = true) →
        c.Moves s (.setfmtM a w) s c.g priceUniform fun j =>
          { c.past 8 j with fmt := ((c.g.slices.get j).fmt &&& ~~~w) ||| ((c.g.g a).extractLsb' 0 32 &&& w) }) ∧
      c.Moves s (.setprio a i) s { c.g with prio := prioOf (c.g.g a) i.toInt } priceUniform (c.past 4) ∧
      c.Moves s (.setprioW a w) s { c.g with prio := prioOf (c.g.g a) w.toInt } priceUniform (c.past 8) ∧
      ((gbrTaken cond (c.g.g a) = true → targetOk (s.codeOf c.g).2 (c.pc + w) = true) →
        c.Moves s (.gbr a cond w) s c.g priceUniform fun j =>
          { c.g.slices.get j with pc := if gbrTaken cond (c.g.g a) then c.pc + w else c.pc + 8 })) ∧
    (c.UniReady s [] [] → fmtLegal w = true →
      c.Moves s (.setfmtImm w) s c.g priceUniform fun j => { c.past 8 j with fmt := w })

/-- R234: `swrite` completes. `%fmt` and `%fflags` are written in every slice of the gang, reserved bits of `%fflags` reading 0; in
privileged state `%spcN` and `%gmap` are written in the group's trap context and its context record, and VS_LIMIT of the core is set as R138
bounds it, which may begin the spill of names on that core and changes nothing else. -/
def Obligations.SpecialRegistersWrite : Prop :=
  ∀ (s : State) (c : Issue) (a : BitVec 6), c.UniReady s [] [a] →
    let v := c.g.g a
    (fmtLegal (v.extractLsb' 0 32) = true →
      c.Moves s (.swrite a 0x0B) s c.g priceUniform fun j => { c.past 4 j with fmt := v.extractLsb' 0 32 }) ∧
    c.Moves s (.swrite a 0x0C) s c.g priceUniform (fun j => { c.past 4 j with fflags := v.extractLsb' 0 32 &&& 0x1F }) ∧
    (c.g.priv = true →
      (∀ n, n < 8 →
        let x := { c.g.ctx with spc := c.g.ctx.spc.set n (v &&& 0x1FFFFFFFFF) }
        c.Moves s (.swrite a (BitVec.ofNat 10 (0x42 + n))) (s.setMem (x.store c.g.area s.mem)) { c.g with ctx := x } priceUniform
          (c.past 4)) ∧
      (let x := { c.g.ctx with gmap := v.extractLsb' 0 32 &&& 0xFFFFFF };
        c.Moves s (.swrite a 0x4A) (s.setMem (x.store c.g.area s.mem)) { c.g with ctx := x } priceUniform (c.past 4)) ∧
      let need := ((List.range 8).map fun i => reservedIn s c.g.core i fun _ => true).foldl max (waitingFloors s c.g.part)
      ∃ (u : State) (g0 : Group),
        c.Moves s (.swrite a 0x4C) u g0 priceUniform (fun j => { g0.slices.get j with pc := (c.g.slices.get j).pc + 4 }) ∧
        u = { s with groups := u.groups, cores := u.cores } ∧ u.group c.gid = some g0 ∧
        (∀ k, k ≠ c.g.core → u.core k = s.core k) ∧
        u.core c.g.core = { s.core c.g.core with vsLimit := max (max 1 (min v.toNat 3072)) need } ∧
        ∀ (gid : Nat) (g : Group), s.group gid = some g → ∃ g', u.group gid = some g' ∧ g.KeepsButSpills g')

/-! ### Cross-lane instructions -/

/-- R126, R127: a vote whose gangs have met completes. `vote.any` and `vote.all` write the predicate in every participating lane,
`vote.bal` the ballot in vD and the exited member lanes in vD+1. The gang at whose issue it executes pays for all (the model's reading,
log 16). -/
def Obligations.VotesComplete : Prop :=
  ∀ (s : State) (c : Issue) (p : Pred) (qd qs : BitVec 4) (d : Dst) (m : BitVec 6) (gangs : List (BitVec 3 × List Nat)),
    let ns := participants (c.takers p m) (gangList gangs)
    (c.Meets s p m gangs [] [] →
      c.Votes s (.voteAny p qd qs m) p m gangs qd (ns.any (laneQ c qs)) ∧
      c.Votes s (.voteAll p qd qs m) p m gangs qd (ns.all (laneQ c qs))) ∧
    (c.Meets s p m gangs [] (destNames true d) →
      c.Gathers s (.voteBal p d qs m) p m gangs d true [] (fun _ =>
        (ns.map fun n => if laneQ c qs n then 2 ^ n else 0).sum + 2 ^ 32 * exitedMembers c.g (c.members m)) 0)

/-- R128: a shuffle whose gangs have met completes; lane l receives lane j's value when j takes part and its own otherwise, j being
B, l − B, l + B and l xor B. The gang at whose issue it executes pays for all (the model's reading, log 16). -/
def Obligations.ShufflesComplete : Prop :=
  ∀ (s : State) (c : Issue) (p : Pred) (d : Dst) (a : Src) (b : OpB) (t : Ty) (m : BitVec 6) (gangs : List (BitVec 3 × List Nat)),
    c.Meets s p m gangs (readsOf p t.wide a ++ opbReads b p false) (destNames t.wide d) (opbRegs b) →
    let rs := readsOf p t.wide a ++ opbReads b p false
    let x (l : Nat) : Nat := c.opbOf false b (l / 4) (l % 4)
    let pick (j : Nat → Int) (l : Nat) : Nat :=
      if 0 ≤ j l ∧ j l < 32 ∧ takesPart (c.takers p m) (gangList gangs) (j l).toNat then laneValue c t.wide a.name (j l).toNat
      else laneValue c t.wide a.name l
    c.Gathers s (.shflIdx p d a b t m) p m gangs d t.wide rs (pick fun l => (x l : Int)) 0 ∧
    c.Gathers s (.shflUp p d a b t m) p m gangs d t.wide rs (pick fun l => (l : Int) - x l) 0 ∧
    c.Gathers s (.shflDn p d a b t m) p m gangs d t.wide rs (pick fun l => (l : Int) + x l) 0 ∧
    c.Gathers s (.shflXor p d a b t m) p m gangs d t.wide rs (pick fun l => ((l ^^^ x l : Nat) : Int)) 0

/-- R129 to R133: `red`, `scan`, `topk` and `match` complete once their gangs have met. `red` gives every participating lane the root
of the fixed tree over the participants' values, `scan` the tree of the lanes below, `topk` the element of the lane's rank while there is
one, `match` the lanes whose value is bitwise equal; the flags of the tree are raised. A leaf is read as an operand, a lone one too, quieted
and flushed like any (the model's reading, log 73), and the gang at whose issue it executes pays for all (log 16). -/
def Obligations.ReductionsComplete : Prop :=
  ∀ (s : State) (c : Issue) (p : Pred) (d : Dst) (a b : Src) (op : RedOp) (excl : Bool) (k : BitVec 5) (t : Ty) (m : BitVec 6)
    (gangs : List (BitVec 3 × List Nat)),
    let x := c.gathered p m gangs
    let ns := participants (c.takers p m) (gangList gangs)
    let f := redFormat x (c.takers p m)
    let leaf := redLeaf x (c.takers p m) op t f a
    (c.Meets s p m gangs (readsOf p t.wide a) (destNames t.wide d) →
      c.Gathers s (.red p d a op t m) p m gangs d t.wide (readsOf p t.wide a)
        (fun _ => (redTree op t f leaf 5 0).1.getD (redIdentity op t)) (redTree op t f leaf 5 0).2 ∧
      c.Gathers s (.scan p d a op excl t m) p m gangs d t.wide (readsOf p t.wide a)
        (fun l => (redPrefix op t f leaf 5 0 (if excl then l else l + 1) (none, 0)).1.getD (redIdentity op t))
        (ns.foldl (fun fl l => fl ||| (redPrefix op t f leaf 5 0 (if excl then l else l + 1) (none, 0)).2) 0)) ∧
    (c.Meets s p m gangs (readsOf p false a ++ readsOf p false b) (destNames true d) →
      let cut (v : Nat) : Nat := if t.half then v % 65536 else v
      let xs := ns.map fun n => (⟨cut (laneValue x false a.name n), laneValue x false b.name n, n⟩ : Ranked)
      let none_ := (if t.ieee then (tyFloat t).canonicalNaN else 0) + 2 ^ 32 * 0xFFFFFFFF
      c.Gathers s (.topk p d a b k t m) p m gangs d true (readsOf p false a ++ readsOf p false b)
        (fun l =>
          let i := (ns.filter fun n => decide (n < l)).length
          if i ≤ k.toNat then
            match rankedAt t ⟨.rne, false, false, false, false⟩ xs i with
            | some e => e.code + 2 ^ 32 * e.index
            | none => none_
          else none_) 0) ∧
    (c.Meets s p m gangs (readsOf p t.wide a) (destNames false d) →
      c.Gathers s (.matchLanes p d a t m) p m gangs d false (readsOf p t.wide a)
        (fun l => (ns.map fun n => if laneValue x t.wide a.name n = laneValue x t.wide a.name l then 2 ^ n else 0).sum) 0)

/-! ### Control transfer -/

/-- R23, R113, R114, R116 to R118, R147: `br`, `call`, `calli`, `ret` and `jmpi` complete. `br` completes where its predicate is uniform if
it says so, where it may split, where its addresses lie in the code and where the stacks have room: the slice's fall-through lanes run
first, its taken lanes are held with the join address as Diverge has it. The lanes that a call transfers receive the link pc + 12 and go on
at the target, the others are held (`calli`: they execute it again); each slice that moves pushes a floor entry. `ret` moves every slice to
the address its active lanes hold and pops its floor entry unless it is the base entry; `jmpi` moves the lanes of the lowest lane's table
entry to it, an index beyond the table taking the last one, and replaces the floor entry of the slices that move. The entry records the
raise by the extra floor of the target's header word, cut where it cannot fit with the other teams gone, a `jmpi`'s once its old entry is
given back; where it does not fit yet the entry records 0 and the slice waits for it. -/
def Obligations.CallsAndReturnsComplete : Prop :=
  (∀ (s : State) (c : Issue) (p : Pred) (u : Bool) (join : BitVec 20) (disp : BitVec 32), issueOf s = some c →
    let sl (j : Nat) : Slice := c.g.slices.get j
    let taken (j : Nat) : BitVec 4 := (sl j).active p
    let any := c.sls.any fun j => taken j != 0
    let splits := c.sls.any fun j => divides (taken j) (sl j).mask
    (u = true → any = true → ∀ j ∈ c.sls, taken j = (sl j).mask) → (u = false → join = 0 → splits = false) →
    (any = true → targetOk (s.codeOf c.g).2 (c.pc + disp) = true) →
    (splits = true → targetOk (s.codeOf c.g).2 (joinAddr c.pc join) = true) →
    stackTrap s c (fun j => (if divides (taken j) (sl j).mask then 2 else 0, 0)) = none →
    c.Transfers s (.br p u join disp) sl []
      (fun j => (sl j).diverge ((sl j).mask &&& ~~~taken j) (c.pc + 12) (taken j) (c.pc + disp) (joinAddr c.pc join)) (fun _ => none)
      fun j x => x.names = (sl j).names ∧ x.floors = (sl j).floors) ∧
  (∀ (s : State) (c : Issue) (p : Pred) (u : Bool) (d : Dst) (a : Src) (disp : BitVec 32),
    let sl (j : Nat) : Slice := c.g.slices.get j
    let size := (s.codeOf c.g).2
    let extra (target : Word32) : Nat := extraFloor (s.codeOf c.g).1 size target
    let floorPushed (on : Nat → BitVec 4) (target : Nat → Word32) (j : Nat) (x : Slice) : Prop :=
      x.floors = if on j = 0 then (sl j).floors else c.raised s 0 (extra (target j)) j :: (sl j).floors
    let waits (on : Nat → BitVec 4) (target : Nat → Word32) (j : Nat) : Option Nat :=
      if on j = 0 then none else c.raises s 0 (extra (target j)) j
    let linked (on : Nat → BitVec 4) (j : Nat) (x : Slice) : Prop :=
      ∀ l, l < 4 → (on j).getLsbD l = true → x.Holds d.name.toNat l d.uses (c.pc + 12)
    (c.Ready s [] ((destNames false d).map fun n => (p, n)) →
      let on (j : Nat) : BitVec 4 := (sl j).active p
      (u = true → unequal c p (fun _ _ => c.pc + disp) = false) →
      ((∃ j ∈ c.sls, on j ≠ 0) → targetOk size (c.pc + disp) = true) →
      stackTrap s c (fun j => (if divides (on j) (sl j).mask then 2 else 0, if on j = 0 then 0 else 1)) = none →
      c.Transfers s (.call p u d disp) sl (destNames false d)
        (fun j => (sl j).diverge (on j) (c.pc + disp) ((sl j).mask &&& ~~~on j) (c.pc + 12) (c.pc + 12)) (waits on fun _ => c.pc + disp)
        fun j x => linked on j x ∧ floorPushed on (fun _ => c.pc + disp) j x) ∧
    (c.Ready s (readsOf p false a) ((destNames false d).map fun n => (p, n)) →
      let target (j l : Nat) : Word32 := (sl j).datum l a.name.toNat
      let first (j : Nat) : Option (Word32 × BitVec 4) := firstTarget ((sl j).active p) (target j)
      let go (j : Nat) : BitVec 4 := match first j with | some f => f.2 | none => 0
      let addr (j : Nat) : Word32 := match first j with | some f => f.1 | none => c.pc + 12
      (u = true → unequal c p target = false) → (∀ j ∈ c.sls, go j ≠ 0 → targetOk size (addr j) = true) →
      stackTrap s c (fun j => (if divides (go j) (sl j).mask then 2 else 0, if go j = 0 then 0 else 1)) = none →
      (∀ j ∈ c.sls, cellsNeeded s c (fun i x => x.consumeOn a.name.toNat (go i)) (destWrites false d go fun _ _ => (c.pc + 12).toNat) j = 0) →
      c.Transfers s (.calli p u d a) (fun j => (sl j).consumeOn a.name.toNat (go j)) (destNames false d)
        (fun j => if go j = 0 then { sl j with pc := c.pc + 12 }
          else (sl j).diverge (go j) (addr j) ((sl j).mask &&& ~~~go j) c.pc (c.pc + 12)) (waits go addr)
        fun j x => linked go j x ∧ floorPushed go addr j x)) ∧
  (∀ (s : State) (c : Issue) (p : Pred) (u : Bool) (n : BitVec 12) (a : Src) (join : BitVec 20) (disp : BitVec 32),
    let sl (j : Nat) : Slice := c.g.slices.get j
    let size := (s.codeOf c.g).2
    let extra (target : Word32) : Nat := extraFloor (s.codeOf c.g).1 size target
    (c.Ready s (readsOf .always false a) [] →
      let held (j l : Nat) : Word32 := (sl j).datum l a.name.toNat
      let first (j : Nat) : Option (Word32 × BitVec 4) := firstTarget (sl j).mask (held j)
      let addr (j : Nat) : Word32 := match first j with | some f => f.1 | none => (sl j).pc
      (u = true → unequal c .always held = false) → (∀ j ∈ c.sls, ∀ f, first j = some f → f.2 = (sl j).mask) →
      (∀ j ∈ c.sls, targetOk size (addr j) = true) →
      ∃ t g, exec (.ret u a) s = .next t ∧ c.Ends s t priceLane g (fun j => { sl j with pc := addr j }) ∧ c.KeepsGroup g ∧
        ∀ j ∈ c.sls, (sl j).ReadsNames (g.slices.get j) (readsOf .always false a) [] ∧ (g.slices.get j).preds = (sl j).preds ∧
          (g.slices.get j).fflags = (sl j).fflags ∧ (g.slices.get j).floors = (sl j).popFloor.floors) ∧
    (c.Ready s (readsOf p false a) [] →
      let place (j l : Nat) : Nat := (c.pc + disp).toNat + 4 * min ((sl j).datum l a.name.toNat).toNat n.toNat
      let target (j l : Nat) : Word32 := c.pc + disp + codeWord (s.codeOf c.g).1 (place j l)
      let first (j : Nat) : Option (Word32 × BitVec 4) := firstTarget ((sl j).active p) (target j)
      let go (j : Nat) : BitVec 4 := match first j with | some f => f.2 | none => 0
      let addr (j : Nat) : Word32 := match first j with | some f => f.1 | none => c.pc + 12
      let splits := c.sls.any fun j => divides (go j) (sl j).mask
      (∀ j ∈ c.sls, ∀ l, l < 4 → ((sl j).active p).getLsbD l = true → place j l + 4 ≤ size) →
      (u = true → unequal c p target = false) → (u = false → join = 0 → splits = false) →
      (∀ j ∈ c.sls, go j ≠ 0 → targetOk size (addr j) = true) →
      (splits = true → targetOk size (joinAddr c.pc join) = true) →
      stackTrap s c (fun j => (if divides (go j) (sl j).mask then 2 else 0, 0)) = none →
      c.Transfers s (.jmpi p u n a join disp) (fun j => (sl j).consumeOn a.name.toNat (go j)) []
        (fun j => if go j = 0 then { sl j with pc := c.pc + 12 }
          else (sl j).diverge (go j) (addr j) ((sl j).mask &&& ~~~go j) c.pc (joinAddr c.pc join))
        (fun j => if go j = 0 then none else c.raises s ((sl j).floors.headD 0) (extra (addr j)) j)
        fun j x => x.floors =
          if go j = 0 then (sl j).floors else c.raised s ((sl j).floors.headD 0) (extra (addr j)) j :: (sl j).floors.tail)) ∧
  ∀ (code : Memory) (size : Nat) (target : Word32),
    let w := codeWord code (target.toNat - 4)
    extraFloor code size target = if 4 ≤ target.toNat ∧ target.toNat ≤ size ∧ w.extractLsb' 22 10 = 0xFF ∧ w.extractLsb' 9 13 = 0
      then (w.extractLsb' 0 9).toNat else 0

/-- R119, R121, R122, R135: `nop`, `patld`, `drop`, `free`, `regang` and `exit` complete. `patld` makes its pattern the pricking's latest
where it lies in the code; `drop` lowers the counts of its name on the active lanes, `free` clears counts and pins; `regang` begins its
wait; `exit` ends the active lanes on which its predicate holds, decrementing the join counters they name, lets a rendezvous go on that
waits for nobody else, and leaves dead a slice with no lane to run; where a lane names a counter or a slice dies, what the group did before
is performed (R189, R280). -/
def Obligations.GroupControlCompletes : Prop :=
  ∀ (s : State) (c : Issue) (p : Pred) (a : Src) (b : BitVec 9) (n : BitVec 3) (tag : BitVec 8) (pat : BitVec 26),
    issueOf s = some c →
    let sl (j : Nat) : Slice := c.g.slices.get j
    let past (x : Slice) : Slice := { x with pc := x.pc + 12 }
    c.Moves s (.nop p) s c.g priceLane (c.past 12) ∧
    c.Moves s (.patld pat)
      (if (patAddr c.pc pat).toNat + 64 ≤ (s.codeOf c.g).2 then
        s.modCore c.g.core fun k => k.prick (patKey s c.g (patAddr c.pc pat)) else s) c.g priceLane (c.past 12) ∧
    ((∀ j ∈ c.sls, (sl j).dropExhausted p a.name.toNat n = false ∧ (sl j).emptyRead [⟨p, a⟩] = false) →
      nameTrap c [] [(p, a.name.toNat)] = none → mustWait c [] [(p, a.name.toNat)] = false →
      c.Moves s (.drop p a n) s c.g priceLane
        fun j => past ((sl j).changeCount a.name.toNat ((sl j).active p) (fun k => k - n) false)) ∧
    (nameTrap c [] [(p, b.toNat)] = none → mustWait c [] [(p, b.toNat)] = false →
      c.Moves s (.free p b) s c.g priceLane
        fun j => past ((sl j).changeCount b.toNat ((sl j).active p) (fun _ => 0) true)) ∧
    c.Begins s (.regang tag) priceLane [] (fun j => (sl j).pc)
      { slices := sliceBits c.sls, pc := c.pc, next := c.pc + 12, kind := .regang tag, priv := c.g.priv } (fun t => settleGroup t c.gid) ∧
    (((∃ x ∈ c.lanes p, (((sl x.1).spawned.get x.2).join).isSome = true) ∨
        (∃ j ∈ c.sls, ((sl j).exitLanes ((sl j).active p)).ends c.g.priv = true) → c.mustFollow s .rel [] = false) →
      c.Moves s (.exit p) (exitJoins s c.g (c.lanes p)) c.g priceLane (fun j => past ((sl j).exitLanes ((sl j).active p)))
        fun t => checkBarriers (afterChange (t.modGroup c.gid fun g => (g.bury c.sls).reexamine) c) c.g)

/-- R76 to R79, R134, R136: a lane pair and a `weave` complete. Both halves of a pair read before either writes, and each active lane
receives the two results; a `weave` runs its pattern on the temporaries and writes t0. -/
def Obligations.PairsAndWeavesComplete : Prop :=
  ∀ (s : State) (c : Issue) (x y : Half) (p : Pred) (d : Dst) (a b e : Src) (n : BitVec 2) (pat : BitVec 26),
    let sl (j : Nat) : Slice := c.g.slices.get j
    let flags (h : Half) (j : Nat) : FlagSet := flagsOn ((sl j).active (halfPred h)) fun l => (halfResult h (sl j) l).2
    (wellFormed (.lanePair x y) = true →
      c.Ready s (halfReads x ++ halfReads y) [(halfPred x, x.dst.toNat), (halfPred y, y.dst.toNat)] →
      ∃ t g, exec (.lanePair x y) s = .next t ∧ c.Ends s t pricePair g (c.past 12) ∧ c.KeepsGroup g ∧
        ∀ j ∈ c.sls,
          (∀ h, h = x ∨ h = y → ∀ l, l < 4 → ((sl j).active (halfPred h)).getLsbD l = true →
            (g.slices.get j).Holds h.dst.toNat l (halfDest h).uses (BitVec.ofNat 32 (halfResult h (sl j) l).1)) ∧
          (sl j).ReadsNames (g.slices.get j) (halfReads x ++ halfReads y) [x.dst.toNat, y.dst.toNat] ∧
          (g.slices.get j).preds = (sl j).preds ∧
          (g.slices.get j).fflags = (sl j).fflags ||| (flags x j ||| flags y j).word) ∧
    (let rs := readsOf p false a ++ (if 2 ≤ n.toNat then readsOf p false b else []) ++ (if n.toNat = 3 then readsOf p false e else [])
     let addr := patAddr c.pc pat
     let ws := patWords (s.codeOf c.g).1 addr.toNat
     let run (j : Nat) : Temps × FlagSet := patRun (c.arithOf j) ((sl j).active p) ws
       (Quad.make fun l => [(sl j).value false l a.name, if 2 ≤ n.toNat then (sl j).value false l b.name else 0,
          if n.toNat = 3 then (sl j).value false l e.name else 0, 0, 0, 0, 0, 0], 0)
     c.Ready s rs ((destNames false d).map fun k => (p, k)) → addr.toNat + 64 ≤ (s.codeOf c.g).2 → patOk ws = true →
     ∃ t g, exec (.weave p d a b e n pat) s = .next t ∧
       c.Ends (s.modCore c.g.core fun k => k.prick (patKey s c.g addr)) t priceLane g (c.past 12) ∧ c.KeepsGroup g ∧
       ∀ j ∈ c.sls,
         (∀ l, l < 4 → ((sl j).active p).getLsbD l = true →
           (g.slices.get j).Holds d.name.toNat l d.uses (BitVec.ofNat 32 (temp (run j).1 l 0))) ∧
         (sl j).ReadsNames (g.slices.get j) rs (destNames false d) ∧ (g.slices.get j).preds = (sl j).preds ∧
         (g.slices.get j).fflags = (sl j).fflags ||| (run j).2.word)

/-! ### Lane and uniform accesses -/

/-- R73, R88, R156, R157, R190, R191, R192: `ld`, `st`, `atom` and `fence` complete. Each participating lane, in ascending `%lane`, makes
one access at its own EA = G(base) + index + offset, aligned and in reach; a load or an atomic leaves its names empty with the use field
written and awaiting this instruction, its fills begun; a store takes its bytes from the names, first element lowest. The bytes themselves
change when the access is performed, at the address of the flight. -/
def Obligations.LaneAccessesComplete : Prop :=
  ∀ (s : State) (c : Issue) (p : Pred) (d : Dst) (m : Mem) (b x : Src) (n : BitVec 2) (t : Ty) (op : AtomOp) (ord : Order)
    (scope : Scope) (xs : List ((Nat × Nat) × Nat × Target)),
    let count := 2 ^ n.toNat
    let size := count * t.bytes
    (c.Ready s (memReads p m) ((elementNames d.name.toNat count t.wide).map fun k => (p, k)) [m.base] →
      laneTargets s c p m size false = .ok xs →
      c.Leaves s (.ld p d m n t)
        (xs.foldl (fun s x => startFills s c.gid c.g.team x.2.2.win size)
          (launchFlights s c m size xs (fun _ => .load d.name.toNat count t) false false))
        priceLane (memReads p m) p (elementNames d.name.toNat count t.wide) d.uses s.nextFlight) ∧
    (let rs := memReads p m ++ (elementNames b.name.toNat count t.wide).map fun k => ⟨p, { b with name := BitVec.ofNat 9 k }⟩
     c.Ready s rs [] [m.base] → laneTargets s c p m size true = .ok xs →
      (∀ y ∈ xs, storeReady s c.g.team y.2.2.win size = true) →
      c.Lands s (.st p m b n t)
        (xs.foldl (fun s x => markDirty s c.g.team x.2.2.win size)
          (launchFlights s c m size xs (fun y => .store (storeData (c.g.slices.get y.1) y.2 b.name.toNat count t)) false false))
        c.g priceLane rs) ∧
    (let rs := memReads p m ++ readsOf p t.wide b ++ (if op = .cas then readsOf p t.wide x else [])
     let val (y : Nat × Nat) (k : BitVec 9) : Nat := (c.g.slices.get y.1).value t.wide y.2 k
     let names := elementNames d.name.toNat 1 t.wide
     c.Ready s rs (names.map fun k => (p, k)) [m.base] → laneTargets s c p m t.bytes true = .ok xs →
      (∀ y ∈ xs, storeReady s c.g.team y.2.2.win t.bytes = true) →
      c.Leaves s (.atom p d m b x op ord t)
        (xs.foldl (fun s x => markDirty s c.g.team x.2.2.win t.bytes)
          (launchFlights s c m t.bytes xs (fun y => .atom op t (val y b.name) (val y x.name) d.name.toNat (c.g.slices.get y.1).fmt)
            (ord == .acq || ord == .ar) (ord == .rel || ord == .ar)))
        priceLane rs p names d.uses s.nextFlight) ∧
    (issueOf s = some c →
      c.Moves s (.fence scope)
        { s with flights := s.flights ++ [(s.nextFlight, { group := c.gid, pc := c.pc, instr := s.nextFlight, op := .fence })],
                 nextFlight := s.nextFlight + 1 } c.g priceLane (c.past 12)) ∧
    ∀ (n : Nat) (store : Bool), laneTargets s c p m n store = .ok xs →
      xs.map (fun x => x.1) = c.lanes p ∧
      ∀ x ∈ xs, x.2.1 = ((c.g.g m.base).toNat +
          (match m.idx with | some i => ((c.g.slices.get x.1.1).datum x.1.2 i.name.toNat).toNat | none => 0) +
          (m.off.signExtend 64).toNat) % 2 ^ 64 ∧
        accessTarget s c.g m.space m.win.toNat x.2.1 n store = .ok x.2.2 ∧ x.2.1 % min n 16 = 0

/-- R155, R157, R161, R164, R165, R233: the least participating lane whose access is misaligned or outside what its group reaches gives a
lane access its trap, with the cause of that access and that lane's address, and nothing else happens: the store, the load or the atomic
is not begun. A uniform access traps so at its own address. -/
def Obligations.AccessOutsideTraps : Prop :=
  ∀ (s : State) (c : Issue) (p : Pred) (d : Dst) (m : Mem) (b x : Src) (n : BitVec 2) (t : Ty) (op : AtomOp) (ord : Order) (e : Trap),
    let count := 2 ^ n.toNat
    (c.Ready s (memReads p m) ((elementNames d.name.toNat count t.wide).map fun k => (p, k)) [m.base] →
      c.FirstFault s p m (count * t.bytes) false e → exec (.ld p d m n t) s = .next (trapEntry s c.gid e c.sls)) ∧
    (c.Ready s (memReads p m ++ (elementNames b.name.toNat count t.wide).map fun k => ⟨p, { b with name := BitVec.ofNat 9 k }⟩) []
        [m.base] →
      c.FirstFault s p m (count * t.bytes) true e → exec (.st p m b n t) s = .next (trapEntry s c.gid e c.sls)) ∧
    (c.Ready s (memReads p m ++ readsOf p t.wide b ++ (if op = .cas then readsOf p t.wide x else []))
        ((elementNames d.name.toNat 1 t.wide).map fun k => (p, k)) [m.base] →
      c.FirstFault s p m t.bytes true e → exec (.atom p d m b x op ord t) s = .next (trapEntry s c.gid e c.sls)) ∧
    ∀ (r base src : BitVec 6) (sx : Bool) (space size : BitVec 2) (win : BitVec 4) (off : BitVec 28),
      let a := (c.g.g base + off.signExtend 64).toNat
      (c.UniReady s [r] [base] → accessFault s c.g (uniformSpace space) win.toNat a (2 ^ size.toNat) false = some e →
        exec (.gld r base sx space size win off) s = .next (trapEntry s c.gid e c.sls)) ∧
      (c.UniReady s [] [base, src] → accessFault s c.g (uniformSpace space) win.toNat a (2 ^ size.toNat) true = some e →
        exec (.gst base src space size win off) s = .next (trapEntry s c.gid e c.sls))

/-- R158, R159: `gld` and `gst` complete. `gld` marks its register as awaiting the load (`g0` awaits nothing); `gst` sends the low
bytes of its register. Each makes one access at G(base) + offset. -/
def Obligations.UniformAccessesComplete : Prop :=
  ∀ (s : State) (c : Issue) (d base b : BitVec 6) (sx : Bool) (space size : BitVec 2) (win : BitVec 4) (off : BitVec 28) (x : Target),
    let n := 2 ^ size.toNat
    let a := (c.g.g base + off.signExtend 64).toNat
    (c.UniReady s [d] [base] → accessTarget s c.g (uniformSpace space) win.toNat a n false = .ok x →
      c.Moves s (.gld d base sx space size win off)
        (startFills (uniformFlight s c x (uniformSpace space) a n (.gload d.toNat sx)) c.gid c.g.team x.win n)
        (if d = 0 then c.g else { c.g with gpend := c.g.gpend ++ [d.toNat] }) priceUniform (c.past 8)) ∧
    (c.UniReady s [] [base, b] → accessTarget s c.g (uniformSpace space) win.toNat a n true = .ok x →
      storeReady s c.g.team x.win n = true →
      c.Moves s (.gst base b space size win off)
        (markDirty (uniformFlight s c x (uniformSpace space) a n (.store ((c.g.g b).toNat % 2 ^ (8 * n)))) c.g.team x.win n)
        c.g priceUniform (c.past 8))

/-! ### Engines, windows and barrier objects -/

/-- R166, R167, R175: an engine instruction completes where every descriptor and object passes, the earlier accesses to the descriptors
are performed and a slot is free for each distinct descriptor: one operation per descriptor enters the lowest free slots, counted as one
issue of 4 tokens; a `gatom` result leaves its names empty until the first element's old value arrives. -/
def Obligations.EngineInstructionsQueue : Prop :=
  ∀ (s : State) (c : Issue) (p : Pred) (m : Mem) (d : Dst) (wide : Bool),
    let ws := namedWords s c p m fun _ => 0
    let queued (kind : EngineKind) (dst : Option (Dst × Bool)) : State :=
      { enqueueOps s c.g.core (newOps s c kind dst ws) with nextFlight := s.nextFlight + 1 }
    descTrap s c p m 64 = none → c.mustFollow s .load (ws.map fun w => (w.2.1, 64)) = false →
    ws.length ≤ (freeSlots (s.core c.g.core)).length →
    (c.Ready s (memReads p m) [] [m.base] →
      c.Leaves s (.tmove p m) (queued .move none) priceEngine (memReads p m) p [] 0 s.nextFlight ∧
      c.Leaves s (.tgath p m) (queued .gath none) priceEngine (memReads p m) p [] 0 s.nextFlight ∧
      c.Leaves s (.tscat p m) (queued .scat none) priceEngine (memReads p m) p [] 0 s.nextFlight ∧
      c.Leaves s (.gatom p m none) (queued .gatom none) priceEngine (memReads p m) p [] 0 s.nextFlight) ∧
    (c.Ready s (memReads p m) ((destNames wide d).map fun k => (p, k)) [m.base] →
      c.Leaves s (.gatom p m (some (d, wide))) (queued .gatom (some (d, wide))) priceEngine (memReads p m) p (destNames wide d) d.uses
        s.nextFlight)

/-- R160, R178, R179: `wopen`, `wflush` and `wclose` complete. `wopen` opens the window its descriptor gives, every segment absent, with
fills begun where asked; `wflush` and `wclose` put an operation that counts 1 on their object into the lowest free slot and begin the
write-back of every dirty segment, `wclose` closing the window. Without a participating lane each only goes on. -/
def Obligations.WindowInstructionsComplete : Prop :=
  ∀ (s : State) (c : Issue) (p : Pred) (m : Mem) (w : BitVec 4) (fill ro : Bool), c.Ready s [] [] [m.base] →
    let old := (s.team c.g.team).window w.toNat
    (c.lanes p = [] →
      c.Moves s (.wopen p m w fill ro) s c.g priceLane (c.past 12) ∧ c.Moves s (.wflush p m w) s c.g priceEngine (c.past 12) ∧
      c.Moves s (.wclose p m w) s c.g priceEngine (c.past 12)) ∧
    (∀ a lanes rest x, namedAddrs c p m (fun _ => 0) = (a, lanes) :: rest → reach s c.g m.space a 16 false = .at x → a % 16 = 0 →
      windowOk (s.team c.g.team) w.toNat (windowOf s.mem x ro) = true → c.mustFollow s .load [(x, 16)] = false →
      c.Moves s (.wopen p m w fill ro)
        (s.modWindow c.g.team w.toNat fun _ =>
          { isOpen := true, global := memReadN s.mem x 8, local_ := memReadN s.mem (x + 8) 4, length := memReadN s.mem (x + 12) 4,
            readOnly := ro, segments := List.replicate (memReadN s.mem (x + 12) 4 / 4096)
              (if fill then { filling := true, fillFor := some (c.gid, s.nextFlight) } else {}) })
        c.g priceLane (c.past 12)) ∧
    (∀ a lanes rest x, namedAddrs c p m (fun _ => 0) = (a, lanes) :: rest → reach s c.g m.space a 8 true = .at x → a % 8 = 0 →
      old.isOpen = true → old.closing = false → freeSlots (s.core c.g.core) ≠ [] →
      let op (kind : EngineKind) : EngineOp :=
        { kind := kind, group := c.gid, team := c.g.team, slice := (lowestOf lanes).1, pc := c.pc, mark := s.nextFlight,
          objSpace := m.space, objAddr := a, instr := s.nextFlight, since := s.gtime.toNat, win := w.toNat,
          segs := if old.readOnly then [] else old.dirtySegs }
      let queued (kind : EngineKind) (close : Bool) : State :=
        { enqueueOps (s.modWindow c.g.team w.toNat fun x => { x.startWriteback with closing := x.closing || close }) c.g.core [op kind] with
            nextFlight := s.nextFlight + 1 }
      c.Moves s (.wflush p m w) (queued .wflush false) c.g priceEngine (c.past 12) ∧
      c.Moves s (.wclose p m w) (queued .wclose true) c.g priceEngine (c.past 12))

/-- R182, R184 to R188, R193: the barrier-object instructions complete. `bobj` writes each named object with its lowest lane's count, error
0 and the external bit of its form; `arrive` takes k or k for each lane off the count; both store nothing else, their lanes' accesses are
sampled (R371), and they then release the waits whose objects have come to 0. `wait`, `extwait` and `yieldon` begin a wait on the objects
the lanes name, `yieldon` standing at its continuation. -/
def Obligations.BarrierObjectsComplete : Prop :=
  ∀ (s : State) (c : Issue) (p : Pred) (m : Mem) (b : Src) (d : Option Dst) (wide ext one : Bool) (n : BitVec 4) (cont : BitVec 20),
    let ws := namedWords s c p m fun _ => 0
    let items := (namedAddrs c p m fun _ => 0).map fun x => ({ space := m.space, addr := x.1, lanes := x.2 } : WaitItem)
    let ds := match d with | some d => [(p, d.name.toNat)] | none => []
    let waiting (d : Option Dst) (e : Bool) (pc next : Word32) : GangWait :=
      { slices := sliceBits c.sls, pc := pc, next := next, kind := .objects items d false e, priv := c.g.priv }
    let goal := joinAddr c.pc cont
    (c.Ready s (memReads p m ++ readsOf p wide b) [] [m.base] → wordTrap s c p m (fun _ => 0) 8 true = none →
      c.mustFollow s .store (ws.map fun w => (w.2.1, 8)) = false →
      c.Lands s (.bobj p m b wide ext)
        (s.setMem (ws.foldl (fun mem w => memWriteN mem w.2.1 8 ((if ext then 2 ^ 59 else 0) +
          (c.g.slices.get (lowestOf w.2.2).1).value wide (lowestOf w.2.2).2 b.name % 2 ^ 48)) s.mem))
        c.g priceLane (memReads p m ++ readsOf p wide b) fun t => settleWaits (c.sampleLanes t p m 1 fun _ => 0)) ∧
    (c.Ready s (memReads p m) [] [m.base] → wordTrap s c p m (fun _ => 0) 8 true = none →
      c.mustFollow s .rel (ws.map fun w => (w.2.1, 8)) = false →
      c.Lands s (.arrive p m one n)
        (s.setMem (ws.foldl (fun mem w => memWriteN mem w.2.1 8 (objDown (memReadN mem w.2.1 8)
          ((n.toNat + 1) * (if one then 1 else countOnes 32 w.2.2.toNat)))) s.mem))
        c.g priceLane (memReads p m) fun t => settleWaits (c.sampleLanes t p m 2 fun _ => 0)) ∧
    (c.Ready s (memReads p m) ds [m.base] → wordTrap s c p m (fun _ => 0) 8 false = none → c.mustFollow s .acq [] = false →
      c.Begins s (.wait p m d) priceLane (memReads p m) (fun _ => c.pc) (waiting d false c.pc (c.pc + 12)) settleWaits ∧
      c.Begins s (.extwait p m d) priceLane (memReads p m) (fun _ => c.pc) (waiting d true c.pc (c.pc + 12)) settleWaits) ∧
    (c.Ready s (memReads p m) [] [m.base] → wordTrap s c p m (fun _ => 0) 8 false = none → c.mustFollow s .acq [] = false →
      targetOk (s.codeOf c.g).2 goal = true →
      c.Begins s (.yieldon p m cont) priceLane (memReads p m) (fun _ => goal) (waiting none false goal goal) settleWaits)

/-- R119, R189, R239, R240, R255: `bar`, `pbar`, `stepmark` and `sleep` begin their waits once the group's earlier accesses are performed
(`sleep` at once, and only where a lane takes part); the slices' arrivals are marked, and the barrier is over when every live slice it
counts has arrived. -/
def Obligations.GroupBarriersBegin : Prop :=
  ∀ (s : State) (c : Issue) (p : Pred) (mask : BitVec 8), issueOf s = some c →
    let waiting (kind : WaitKind) : GangWait :=
      { slices := sliceBits c.sls, pc := c.pc, next := c.pc + 12, kind := kind, priv := c.g.priv }
    let marked (f : Slice → Slice) (t : State) : State := t.modGroup c.gid fun g => g.modSlices c.sls fun _ sl => f sl
    (c.mustFollow s .rel [] = false →
      c.Begins s .bar priceLane [] (fun j => (c.g.slices.get j).pc) (waiting .bar)
        (fun t => checkBar (marked (fun sl => { sl with atBar := true }) t) c.g.team) ∧
      (c.g.spawned = false → c.Begins s .pbar priceLane [] (fun j => (c.g.slices.get j).pc) (waiting .pbar)
        (fun t => checkPbar (marked (fun sl => { sl with atPbar := true }) t) c.g.panel)) ∧
      c.Begins s .stepmark priceLane [] (fun j => (c.g.slices.get j).pc) (waiting .stepmark)
        (fun t => checkStep (marked (fun sl => { sl with atStep := true }) t) c.g.grid)) ∧
    (c.lanes p ≠ [] → c.Begins s (.sleep p mask) priceLane [] (fun j => (c.g.slices.get j).pc) (waiting (.sleep mask))) ∧
    (c.lanes p = [] → c.Moves s (.sleep p mask) s c.g priceLane (c.past 12))

/-! ### Matrix, spawn, edges and bounds -/

/-- R197, R198, R209 to R215: a matrix instruction acts on its gang's elected lane. Without it every one only goes on. On a leader core
`mzero` claims the accumulator that no other team owns; `mzero.rel` of the owner queues its release; the memory forms queue their drain or
add with the descriptor's words, and `mpair` its tile, its B halves and its steps at 48 tokens a step. -/
def Obligations.MatrixInstructionsQueue : Prop :=
  ∀ (s : State) (c : Issue) (p : Pred) (ea : EaSrc) (reuse : Bool) (a sc : Src) (d : Dst) (m : Mem) (base : BitVec 6) (off : BitVec 12)
    (lead follow team : Nat), issueOf s = some c →
    let k := s.core c.g.core
    let add (o : MatOp) : State := s.modCore c.g.core fun k => k.addMatrix o
    let desc := drainDesc s c m
    let fmt := c.electedFmt
    (c.elected p = false →
      c.Moves s (.mzero p ea) s c.g priceLane (c.past 12) ∧ c.Moves s (.mzeroRel p) s c.g priceLane (c.past 12) ∧
      c.Moves s (.mpair p reuse a sc base off) s c.g ⟨48 * matSteps fmt, false⟩ (c.past 12) ∧
      c.Moves s (.mdrainNames p d m) s c.g priceLane (c.past 12) ∧ c.Moves s (.mdrainMemory p m) s c.g priceLane (c.past 12) ∧
      c.Moves s (.mstadd p m) s c.g priceLane (c.past 12)) ∧
    (c.elected p = true → c.g.core % 2 = 0 →
      (c.failedReg (anchorRegs ea) = none → c.pending (anchorRegs ea) = false → -32768 ≤ anchorOf c.g ea → anchorOf c.g ea ≤ 32767 →
        k.owner = none ∨ k.owner = some c.g.team →
        c.Moves s (.mzero p ea)
          (s.modCore c.g.core fun k => ({ k with owner := some c.g.team } : Core).addMatrix (.zero (anchorOf c.g ea)))
          c.g priceLane (c.past 12)) ∧
      (k.owner = some c.g.team → c.Moves s (.mzeroRel p) (add (.release c.g.team)) c.g priceLane (c.past 12)) ∧
      (k.owner ≠ some c.g.team → c.Moves s (.mzeroRel p) s c.g priceLane (c.past 12)) ∧
      (c.failedReg [m.base] = none → c.pending [m.base] = false → k.owner = some c.g.team → drainTrap s c m = none →
        c.mustFollow s .load [(desc.2, 32)] = false →
        let obj := desc.1.getD 0 0
        drainObjTrap s c m obj = none →
        c.Moves s (.mdrainMemory p m)
          (add (.drain c.gid c.lowest.1 s.nextFlight fmt desc.1 none (scratchSpace (obj / 2 ^ 62)) (obj % 2 ^ 32)))
          c.g priceLane (c.past 12) ∧
        c.Moves s (.mstadd p m)
          (add (.add c.gid c.lowest.1 s.nextFlight fmt desc.1 (scratchSpace (obj / 2 ^ 62)) (obj % 2 ^ 32)))
          c.g priceLane (c.past 12)) ∧
      (let names := elementNames d.name.toNat (DrainDesc.of desc.1).cols false
       c.failedReg [m.base] = none → c.pending [m.base] = false → k.owner = some c.g.team → drainTrap s c m = none →
        c.mustFollow s .load [(desc.2, 32)] = false → namesTrap s c d.name.toNat (DrainDesc.of desc.1) = none →
        c.Ready s [] (names.map fun n => (.always, n)) →
        c.Leaves s (.mdrainNames p d m)
          { add (.drain c.gid c.lowest.1 s.nextFlight fmt desc.1 (some (d.name.toNat, s.nextFlight)) .core 0) with
            nextFlight := s.nextFlight + 1 } priceLane [] .always names d.uses s.nextFlight) ∧
      (let rs := if c.g.latch.isSome then [] else mpairReads fmt a sc
       let l := mpairTile c fmt a sc
       c.failedReg [base] = none → c.pending [base] = false → mpairTrap s c a sc = none → c.Ready s rs [] →
        mpairHalves s c.g fmt ((c.g.g base + off.signExtend 64).toNat) = .ok (lead, follow, team) → queuedPairs k < 4 →
        c.Lands s (.mpair p reuse a sc base off)
          (add (.pair c.gid c.lowest.1 s.nextFlight fmt l.words l.scales lead follow team (matSteps fmt)))
          { c.g with latch := if reuse then some l else none } ⟨48 * matSteps fmt, false⟩ rs))

/-- R266 to R271, R276, R280: `spawn`, `jinit` and `jwait` complete once the accesses they follow are performed. `spawn` handles its
participating lanes in ascending `%lane`: at depth 8, with the overflow region full or its counter at 2^48 - 1 a lane gets false in its
predicate and nothing is enqueued; else its counter counts one more, its thread, one deeper and with its payload, joins the core's queue,
spilled where that is full, and the predicate is true. `jinit` writes 0 to every named counter; `jwait` begins a wait on the counters and
gives up the group's reservation when all its live slices wait so. -/
def Obligations.SpawnAndJoinComplete : Prop :=
  ∀ (s : State) (c : Issue) (p : Pred) (qd : BitVec 4) (a : Src) (entry : BitVec 20) (base : BitVec 6) (n k : BitVec 3)
    (lane nj : Bool) (off : BitVec 16) (m : Mem) (d : Option Dst),
    let goal := joinAddr c.pc entry
    let rs := (List.range n.toNat).map fun e => (⟨p, { a with name := a.name + BitVec.ofNat 9 e }⟩ : NameRead)
    let join (x : Nat × Nat) : Option Nat := if nj then none else some (joinOf c.g base lane off (4 * x.1 + x.2))
    let ws := namedWords s c p m (laneStride lane)
    (c.Ready s rs [] (if nj then [] else [base]) →
      (nj = true ∨ ∀ x ∈ c.lanes p, counterTrap s c.g (joinOf c.g base lane off (4 * x.1 + x.2)) true = none) →
      targetOk (s.codeOf c.g).2 goal = true → c.mustFollow s .rel [] = false →
      ∃ s1, c.commit s rs [] (fun _ => 0) = .ok s1 ∧
        exec (.spawn p qd a entry base n k lane nj off) s = .next (settleWaits
          (c.advance ((c.lanes p).foldl (fun s x => spawnLane s c qd a goal n k (join x) x.1 x.2) s1) 12 priceLane))) ∧
    (c.Ready s (memReads p m) [] [m.base] → joinTrap s c p m lane true = none →
      c.mustFollow s .store (ws.map fun w => (w.2.1, 8)) = false →
      c.Lands s (.jinit p m lane) (s.setMem (ws.foldl (fun mem w => memWriteN mem w.2.1 8 0) s.mem)) c.g priceLane (memReads p m)
        fun t => settleWaits (c.sampleLanes t p m 1 (laneStride lane))) ∧
    (c.Ready s (memReads p m) (match d with | some d => [(p, d.name.toNat)] | none => []) [m.base] →
      joinTrap s c p m lane false = none → c.mustFollow s .acq [] = false →
      c.Begins s (.jwait p m lane d) priceLane (memReads p m) (fun _ => c.pc)
        { slices := sliceBits c.sls, pc := c.pc, next := c.pc + 12, priv := c.g.priv,
          kind := .objects ((namedAddrs c p m (laneStride lane)).map fun x => { space := m.space, addr := x.1, lanes := x.2 }) d true false }
        fun t => checkJoin (settleWaits t) c.gid) ∧
    ∀ (g : Group) (w : Option Nat) (i l : Nat), s.group c.gid = some g → MemSafe s → i < 8 → l < 4 →
      (∀ y, w = some y → ∃ x, placeOf s c.g .clu y = some x) →
      let place := w.bind fun y => placeOf s c.g .clu y
      let depth := ((c.g.slices.get i).spawned.get l).depth
      let refused : Prop := depth = 8 ∨ regionFull s c.g.part c.g.core = true ∨
        ∃ x, place = some x ∧ objCount (memReadN s.mem x 8) = 2 ^ 48 - 1
      let q (b : Bool) : State := s.modGroup c.gid fun g => g.modSlice i fun sl => sl.setQ l qd b
      let thread : Thread :=
        { grid := c.g.grid, panel := c.g.panel, entry := goal, prio := c.g.prio, depth := depth + 1, join := w, uses := k,
          payload := (List.range n.toNat).map fun e => (c.g.slices.get i).datum l (a.name.toNat + e) }
      let t := spawnLane s c qd a goal n k w i l
      (refused → t = q false) ∧
      (¬ refused → t.groups = (q true).groups ∧ (∀ j, j ≠ c.g.core → t.core j = s.core j) ∧
        (t.core c.g.core).threads = (s.core c.g.core).threads ++ [thread] ∧
        (t.core c.g.core).overflow = (s.core c.g.core).overflow +
          (if 0 < (s.core c.g.core).overflow ∨ 2048 ≤ (s.core c.g.core).threads.length then 1 else 0) ∧
        (place = none → t.mem = s.mem) ∧
        ∀ x, place = some x → memReadN t.mem x 8 = memReadN s.mem x 8 + 1 ∧
          objCount (memReadN t.mem x 8) = objCount (memReadN s.mem x 8) + 1 ∧
          ∀ b, b < x ∨ x + 8 ≤ b → memRead t.mem b = memRead s.mem b)

/-- R258, R259, R283 to R291: the edge instructions and `bcast` complete on well-formed task lists of the panel whose earlier accesses are
performed. `edgeseed` turns every edge toward its lower task, `edgechk` passes a set of edges without a directed cycle, `edgeflip` turns
every edge it holds away from its task, `edgewait` and `edgepass` begin their wait. `bcast.min` and `bcast.max` send the smallest or largest
pair value of the participating lanes to the bound unit once the group's earlier accesses are performed; with no participating lane nothing
is sent. -/
def Obligations.EdgeInstructionsComplete : Prop :=
  (∀ (s : State) (c : Issue) (p : Pred) (m : Mem), c.Ready s (memReads p m) [] [m.base] →
    let es := namedEdges s c p m
    let places := (namedLists c p m).flatMap fun a => match reach s c.g .clu a 8 false with
      | .at x => [(x, 8 + 4 * listCount s c.g a % 512)]
      | _ => []
    let words := es.filterMap fun e => (placeOf s c.g .clu e.addr).map fun x => (x, 8)
    let waiting (pass : Bool) : GangWait :=
      { slices := sliceBits c.sls, pc := c.pc, next := c.pc + 12, kind := .edges (es.map (EdgeItem.look s c.g)) pass, priv := c.g.priv,
        undo := if pass then c.indexCells m else [] }
    let seeded : Memory := (edgeOrder es).foldl (fun mem e => match placeOf s c.g .clu e.addr with
      | some a => memWriteN mem a 8 (edgeTurn (memReadN mem a 8) (decide (edgeB (memReadN mem a 8) < edgeA (memReadN mem a 8))))
      | none => mem) s.mem
    c.mustFollow s .load (places ++ words) = false → listTrap s c p m = none → formTrap s c p m = none → es ≠ [] →
    (c.mustFollow s .store words = false →
      c.Lands s (.edgeseed p m) (s.setMem seeded) c.g priceLane (memReads p m) settleWaits) ∧
    (cycleTrap s c.g es = none → c.Lands s (.edgechk p m) s c.g priceLane (memReads p m) settleWaits) ∧
    (nameTaskTrap s c.g es = none →
      (c.mustFollow s .acq [] = false →
        c.Begins s (.edgewait p m) priceLane (memReads p m) (fun j => (c.g.slices.get j).pc) (waiting false) settleWaits) ∧
      (c.Begins s (.edgepass p m) priceLane (memReads p m) (fun j => (c.g.slices.get j).pc) (waiting true) settleWaits) ∧
      (c.mustFollow s .rel [] = false → notHeld s c.g es = none →
        c.Lands s (.edgeflip p m) (flipEdges s c.g es) c.g priceLane (memReads p m) settleWaits))) ∧
  ∀ (s : State) (c : Issue) (p : Pred) (a : Src) (sgn : Bool) (j : BitVec 3), c.Ready s (readsOf p true a) [] →
    c.mustFollow s .rel [] = false →
    let sent (isMax : Bool) : State :=
      match boundContribution c p a isMax sgn with
      | none => s
      | some v => s.modCluster (clusterOfCore c.g.core) fun k => { k with boundQueue := k.boundQueue ++
          [{ core := c.g.core, group := c.gid, word := j.toNat, isMax := isMax, sgn := sgn, value := v }] }
    c.Lands s (.bcastMin p a sgn j) (sent false) c.g priceLane (readsOf p true a) ∧
    c.Lands s (.bcastMax p a sgn j) (sent true) c.g priceLane (readsOf p true a)

/-! ### System -/

/-- R231, R237 to R239: `trap`, `rte`, `vsdump`, `vsload` and `halt` complete. `trap` takes cause 14 with its number where a lane takes
part, else goes on; in privileged state `vsdump` writes the names or the registers to the save area and unbinds every name, `vsload` reads
them back into unbound names, `rte` resumes the saved context, `halt` ends the group's save or stops it and tells the host. Outside
privileged state each of the four takes the privileged-instruction trap. -/
def Obligations.SystemInstructionsComplete : Prop :=
  ∀ (s : State) (c : Issue) (p : Pred) (n : BitVec 16) (m : Bool), issueOf s = some c →
    let g := c.g
    (c.lanes p ≠ [] → exec (.trap p n) s = .next (trapEntry s c.gid { cause := 14, arg := n.setWidth 64 } c.sls)) ∧
    (c.lanes p = [] → c.Moves s (.trap p n) s g priceLane (c.past 12)) ∧
    (g.priv = false → ∀ i, i = Instr.rte ∨ i = .vsdump m ∨ i = .vsload m ∨ i = .halt →
      exec i s = .next (trapEntry s c.gid { cause := 9 } c.sls)) ∧
    (g.priv = true →
      (c.pending dumpedRegs = false → c.failedReg dumpedRegs = none →
        c.Moves s (.vsdump true) (s.setMem (dumpRegs g s.mem)) g priceLane (c.past 12)) ∧
      (g.pendingName = false → c.Moves s (.vsdump false) (s.setMem (dumpNames g s.mem))
        (g.modSlices g.liveSlices fun _ sl => { sl with names := [] }) priceLane fun j => { c.past 12 j with names := [] }) ∧
      (c.pending dumpedRegs = false → c.Moves s (.vsload true) s (loadRegs g s.mem) priceLane (fun j =>
        { (loadRegs g s.mem).slices.get j with pc := (c.g.slices.get j).pc + 12 })) ∧
      ((∀ j ∈ g.liveSlices, (g.slices.get j).names = []) →
        let g' := (boundSlots g s.mem).foldl (fun g e => g.modSlice e.1 fun sl =>
          { sl with names := tabSet sl.names e.2 (loadCell s.mem (slotAddr g.area e.1 e.2)) }) g
        c.Moves s (.vsload false) s g' priceLane fun j => { g'.slices.get j with pc := (g.slices.get j).pc + 12 }) ∧
      ((∀ n ∈ g.gpend, n < 60) → (s.rteOk g = true → g.returnEnds = true → c.mustFollow s .rel [] = false) →
        exec .rte s = .next (checkBarriers (afterChange
          (returnFromTrap (if s.rteOk g then c.account s priceLane else s) c.gid) c) g)) ∧
      exec .halt s = .next (if g.saving then (c.account s priceLane).modGroup c.gid fun g => { g with status := .saved }
        else ((c.account s priceLane).modGroup c.gid fun g => { g with status := .stopped }).event (some g.part)
          [2, c.gid, g.ctx.cause.toNat, g.ctx.targ.toNat]))

/-! ### What the part does on its own -/

/-- R41, R42, R157, R191, R192, R249: an access whose predecessors are performed and whose segments are present is performed. A load takes
the bytes of its range; a store writes its data there and no other byte; an atomic writes the new value of its operation there under the
`%fmt` of its issue, keeps the old one for its lane and raises its flags in the lane's slice, also where a save has laid that slice's flags
aside; a fence is over. An acquire and a fence let the group see what its bound unit has applied (R195, R260). All else in memory stays. -/
def Obligations.AccessesArePerformed : Prop :=
  ∀ (s : State) (id : Nat) (f : Flight) (g : Group), MemSafe s → tabGet? s.flights id = some f → s.group f.group = some g →
    f.performed = false → mustFollow s f.group id f.kinds [(f.addr, f.size)] = false → flightFailed s g f = false →
    flightPresent s g f = true →
    let old := memReadN s.mem f.addr f.size
    let apart (u : State) : Prop := ∀ a, a < f.addr ∨ f.addr + f.size ≤ a → memRead u.mem a = memRead s.mem a
    let seen := tabSet g.boundSeen (clusterOfCore g.core) (s.cluster (clusterOfCore g.core)).boundLog.length
    (∀ d n t, f.op = .load d n t →
      exec (.memoryAccessPerform id) s =
        .next (settleWaits { s with flights := tabSet s.flights id { f with performed := true, data := old } })) ∧
    (∀ d sx, f.op = .gload d sx →
      exec (.memoryAccessPerform id) s =
        .next (settleWaits { s with flights := tabSet s.flights id { f with performed := true, data := old } })) ∧
    (∀ v, f.op = .store v → ∃ u, exec (.memoryAccessPerform id) s = .next (settleWaits u) ∧ u.groups = s.groups ∧
      u.flights = tabErase s.flights id ∧ memReadN u.mem f.addr f.size = v % 2 ^ (8 * f.size) ∧ apart u) ∧
    (∀ op t b c d fmt, f.op = .atom op t b c d fmt →
      let new := atomNew (Arith.of fmt) op t old b c
      let dev := g.ctx.dev.slices.get f.slice
      ∃ u g', exec (.memoryAccessPerform id) s = .next (settleWaits u) ∧ u.groups = s.groups.set f.group g' ∧
        g' = { g with slices := g'.slices, boundSeen := if f.acq then seen else g.boundSeen, ctx := { g.ctx with
          dev := { g.ctx.dev with slices := g.ctx.dev.slices.set f.slice { dev with fflags := dev.fflags ||| new.2.word } } } } ∧
        g'.slices = g.slices.set f.slice { g.slices.get f.slice with fflags := (g.slices.get f.slice).fflags ||| new.2.word } ∧
        u.flights = tabSet s.flights id { f with performed := true, data := old } ∧
        memReadN u.mem f.addr f.size = new.1 % 2 ^ (8 * f.size) ∧ apart u) ∧
    (f.op = .fence → exec (.memoryAccessPerform id) s = .next (settleWaits { s with
      flights := tabErase s.flights id, groups := s.groups.set f.group { g with boundSeen := seen } }))

/-- R37, R157, R159, R243: data that arrive reach their lane, the access is over and what waited for memory is examined. Each name that
awaits the instruction takes its element, narrow signed ones extended by their type, the second name of a pair the high part, and is full
once the slice's last lane has its data; a name that no longer awaits them, every other name, lane and slice keeps what it has. A uniform
load's value reaches its register, which is awaited no more, or, where a trap has laid that register aside, the context that `rte` takes
it from (R231, R243). -/
def Obligations.LoadedDataArrive : Prop :=
  ∀ (s : State) (id : Nat) (f : Flight) (g : Group), tabGet? s.flights id = some f → s.group f.group = some g → f.performed = true →
    f.slice < 8 →
    let rest := tabErase s.flights id
    let u : State := ({ s with flights := rest } : State).sampleFlight f
    let landed (g' : Group) : Prop := exec (.loadDataArrival id) s = .next (settleWaits (wakeCore (u.modGroup f.group fun _ => g') g.core 2))
    (∀ d sx, f.op = .gload d sx → f.failed = none →
      (f.aside g d = false → ∃ g', landed g' ∧
        g' = { g with gregs := g'.gregs, gfail := g'.gfail, gpend := g.gpend.erase d } ∧
        ∀ r, g'.g r = if r = BitVec.ofNat 6 d then (if r = 0 then 0 else uniformValue f sx) else g.g r) ∧
      (f.aside g d = true → ∃ g', g' = { g with ctx := g'.ctx } ∧ g'.ctx.g60 = g.ctx.g60.set (d - 60) (uniformValue f sx) ∧
        g'.ctx.dev.gpend = g.ctx.dev.gpend.erase d ∧ exec (.loadDataArrival id) s = .next (settleWaits (wakeCore
          ((u.modGroup f.group fun _ => g').setMem (g'.ctx.store g.area u.mem)) g.core 2)))) ∧
    ((∀ d sx, f.op ≠ .gload d sx) → ∃ g', landed g' ∧ g' = { g with slices := g'.slices } ∧
      (∀ j, j < 8 → j ≠ f.slice → g'.slices.get j = g.slices.get j) ∧
      let sl := g.slices.get f.slice
      let sl' := g'.slices.get f.slice
      let last : Bool := !(rest.any fun e => e.2.group == f.group && e.2.slice == f.slice && e.2.instr == f.instr)
      let takes (n : Nat) (v : Word32) : Prop := ∀ k, sl.cell n = some k →
        sl'.cell n = some (if k.producer = f.instr ∧ k.full = false then
          { k with data := k.data.set f.lane v, failed := (k.failed.orElse fun _ => f.failed),
                   full := last && k.failed.isNone && f.failed.isNone } else k)
      sl' = { sl with names := sl'.names } ∧ (∀ n, sl.cell n = none → sl'.cell n = none) ∧
      (∀ dst n t, f.op = .load dst n t →
        let x (e : Nat) : Nat := f.data / 2 ^ (8 * t.bytes * e) % 2 ^ (8 * t.bytes)
        (∀ e, e < n → t.wide = true → takes (dst + 2 * e) (BitVec.ofNat 32 (x e)) ∧ takes (dst + 2 * e + 1) (BitVec.ofNat 32 (x e / 2 ^ 32))) ∧
        (∀ e, e < n → t.wide = false → takes (dst + e)
          (if t = .s8 then (BitVec.ofNat 8 (x e)).signExtend 32 else if t = .s16 then (BitVec.ofNat 16 (x e)).signExtend 32
           else BitVec.ofNat 32 (x e))) ∧
        ∀ k, (k < dst ∨ dst + (if t.wide then 2 * n else n) ≤ k) → sl'.cell k = sl.cell k) ∧
      (∀ op t b c dst fmt, f.op = .atom op t b c dst fmt →
        takes dst (BitVec.ofNat 32 f.data) ∧ (t.wide = true → takes (dst + 1) (BitVec.ofNat 32 (f.data / 2 ^ 32))) ∧
        ∀ k, (k < dst ∨ dst + (if t.wide then 2 else 1) ≤ k) → sl'.cell k = sl.cell k))

/-- R144, R145, R147, R265, R277: the value store's own events complete. A spill's image stands in the slot of its name, so that what is
read back there has the cell's data, counts and pins, no other byte of memory changes and a requester that still waits is granted the cell;
a victim emptied meanwhile stays; a wanted name
that has a cell to take is resident again and latched; a floor raise that fits counts in its slice's reservation and waits no more; a core's
oldest re-reservation request is granted once it fits; the next payload cell of a spawned slice becomes full where its section has room. -/
def Obligations.StoreEventsComplete : Prop :=
  ∀ (s : State) (gid i n : Nat) (g : Group) (c : Cell), s.group gid = some g → i < 8 →
    ((g.slices.get i).cell n = some c → c.spilling = true → c.full = false → c.spilled = false →
      ∃ g', exec (.spillWriteComplete gid i n) s = .next (s.modGroup gid fun _ => g') ∧
        (g'.slices.get i).cell n = some { c with spilling := false, spillFor := none } ∧ g' = { g with slices := g'.slices } ∧
        (∀ m, m ≠ n → (g'.slices.get i).cell m = (g.slices.get i).cell m) ∧
        ∀ j, j < 8 → j ≠ i → g'.slices.get j = g.slices.get j) ∧
    ((g.slices.get i).cell n = some c → c.spilling = true → c.full = true ∨ c.spilled = true → MemSafe s →
      let slot := slotAddr g.area i n
      ∃ t g', exec (.spillWriteComplete gid i n) s = .next t ∧ t.group gid = some g' ∧
        (g'.slices.get i).cell n = some { c with spilling := false, spillFor := none, spilled := true } ∧
        (loadCell t.mem slot).data = c.data ∧ (loadCell t.mem slot).count = c.count ∧ (loadCell t.mem slot).pin = c.pin ∧
        (c.failed = none → (loadCell t.mem slot).full = c.full) ∧
        (∀ a, a < slot ∨ slot + 32 ≤ a → memRead t.mem a = memRead s.mem a) ∧
        (c.spillFor = none → t.cores = s.cores) ∧
        ∀ r, c.spillFor = some r → (grantHolds s g.core r.1 = false → t.cores = s.cores) ∧
          (grantHolds s g.core r.1 = true → (t.core g.core).grants = (s.core g.core).grants ++ [r])) ∧
    ((g.slices.get i).cell n = some c → c.spilled = true → c.full = true → (i, n) ∈ g.wants → 0 < cellsFor s g.core gid i →
      (g.waits.any fun w => w.kind.wakesOn 2) = false →
      ∃ t g', exec (.cellRefill gid i n) s = .next t ∧ t.mem = s.mem ∧ t.group gid = some g' ∧
        (g'.slices.get i).cell n =
          some { c with spilled := false, spilling := false, stamp := 16 * (s.core g.core).stamp } ∧
        n ∈ (g'.slices.get i).latched ∧ (i, n) ∉ g'.wants ∧
        (∀ m, m ≠ n → (g'.slices.get i).cell m = (g.slices.get i).cell m) ∧
        ∀ j, j < 8 → j ≠ i → g'.slices.get j = g.slices.get j) ∧
    (∀ w amount top rest, g.raiseWait i = some w → w.kind = .floorRaise amount → (g.slices.get i).floors = top :: rest →
      g.status = .live →
      (g.waits.any fun w => w.kind.wakesOn 6) = false →
      let cut := min amount ((s.core g.core).vsLimit - reservedIn s g.core i fun h => h.team == g.team)
      reservedIn s g.core i (fun _ => true) + cut ≤ (s.core g.core).vsLimit →
      ∃ t g', exec (.floorRaiseGrant gid i) s = .next t ∧ t.mem = s.mem ∧ t.group gid = some g' ∧
        (g'.slices.get i).floors = cut :: rest ∧ w ∉ g'.waits ∧ (g'.slices.get i).names = (g.slices.get i).names ∧
        (g.unreserved = false → reservationOf t g' i + top = reservationOf s g i + cut)) ∧
    (∀ core asked, g.resident core = true → g.rereserve = some asked → (g.waits.any fun w => w.kind.wakesOn 6) = false →
      (∀ h x, s.group h = some x → x.resident core = true → ∀ a, x.rereserve = some a → h ≠ gid → asked < a) →
      (∀ j, j < 8 → reservedIn s core j (fun _ => true) + reservationOf s { g with unreserved := false } j ≤ (s.core core).vsLimit) →
      ∃ t g', exec (.reReservation core) s = .next t ∧ t.mem = s.mem ∧ t.group gid = some g' ∧
        g' = { g with rereserve := none, unreserved := false, held := g'.held, heldLast := g'.heldLast } ∧
        ∀ j, j < 8 → reservationOf t g' j = reservationOf s { g with unreserved := false } j) ∧
    (∀ rest, g.payload = true → g.status = .live → (g.slices.get i).payloadWaits = n :: rest → (g.slices.get i).cell n = some c →
      (∀ j, j < 8 → j ≠ i → (g.slices.get j).payloadWaits = []) → 0 < cellsFor s g.core gid i →
      (g.waits.any fun w => w.kind.wakesOn 3) = false →
      ∃ t g' k, exec (.payloadArrival gid) s = .next t ∧ t.mem = s.mem ∧ t.group gid = some g' ∧
        (g'.slices.get i).cell n = some k ∧ k.full = true ∧ k.spilled = false ∧ k.data = c.data ∧ k.count = c.count ∧ k.pin = c.pin ∧
        (g'.payload = true ↔ rest ≠ []) ∧
        (∀ m, m ≠ n → (g'.slices.get i).cell m = (g.slices.get i).cell m))

/-- R228, R229, R238: a pending request of a live group outside privileged state is taken as its trap, the machine check before the debug
stop before pre-emption, whose sub-cause is the request's and whose slice field is the lowest live slice (the model's choice, log 97);
another cause is taken by the gang of the slice named (a machine check from outside among them, log 65). The group has then entered its
handler (R229, R230): privileged, the cause and argument in its context, every live slice in gang 0 at the handler's entry, and the request
is over; in a deterministic launch a team's groups take such a request together (R245), so that none takes it while a team-mate with the
same one pending is in a handler. In privileged state a cause of a gang is a double trap: the group stops and the host hears of it. -/
def Obligations.TrapEventsEnter : Prop :=
  ∀ (s : State) (gid cause sub i : Nat) (arg : Word64) (g : Group), s.group gid = some g → g.status = .live → g.liveSlices ≠ [] →
    let entered (t : State) (cause sub : Nat) (is : List Nat) : Prop :=
      (∀ j, j ≠ gid → t.group j = s.group j) ∧ ∃ g', t.group gid = some g' ∧ g'.priv = true ∧ g'.saving = decide (cause = 12) ∧
        g'.ctx.cause = causeWord { cause := cause, sub := sub } (is.headD 0) ∧ g'.ctx.targ = arg ∧
        (g'.wantCheck, g'.wantDebug, g'.wantPreempt) = (g.wantCheck && !(requestCause cause sub && cause == 11),
          g.wantDebug && cause != 13, g.wantPreempt && cause != 12) ∧
        ∀ j, j < 8 → (g.slices.get j).live = true →
          (g'.slices.get j).pc = handlerEntry s g cause ∧ (g'.slices.get j).gang = 0 ∧ (g'.slices.get j).names = (g.slices.get j).names
    (g.priv = false →
      (g.wantCheck = true → ∃ t, exec (.trapEntry gid 11 6 i arg) s = .next t ∧ entered t 11 6 g.liveSlices) ∧
      (g.wantCheck = false → g.wantDebug = true → teamReady s g 13 = true →
        ∃ t, exec (.trapEntry gid 13 sub i arg) s = .next t ∧ entered t 13 sub g.liveSlices) ∧
      (g.wantCheck = false → g.wantDebug = false → g.wantPreempt = true → teamReady s g 12 = true →
        ∃ t, exec (.trapEntry gid 12 sub i arg) s = .next t ∧ entered t 12 g.preemptSub g.liveSlices) ∧
      (requestCause cause sub = false → g.gangSlices (g.slices.get i).gang ≠ [] →
        ∃ t, exec (.trapEntry gid cause sub i arg) s = .next t ∧ entered t cause sub (g.gangSlices (g.slices.get i).gang))) ∧
    (g.priv = true → requestCause cause sub = false → g.gangSlices (g.slices.get i).gang ≠ [] →
      ∃ t, exec (.trapEntry gid cause sub i arg) s = .next t ∧ t.group gid = some { g with status := .stopped } ∧ t.mem = s.mem ∧
        t.hostEvents = s.hostEvents ++ [[1, gid, cause, sub, arg.toNat]])

/-- R148, R181, R225, R238, R251 to R253, R278, R317, R336: the distributor's events complete. A grid with enough free dies starts on the
lowest of them; a queue admits the first panel that fits, those passed over counted, once no team leaves first and nothing that comes
before it can be admitted; a panel whose quantum is over saves itself where another waits, leaving at once when no team of it is on a core,
and begins a new one where none does; a team
whose groups have halted or retired leaves once its work is over and its dirty segments are written back; a parked team whose counters
read 0 returns where its core admits it. -/
def Obligations.DistributorEventsComplete : Prop :=
  ∀ (s : State) (n : Nat),
    (∀ d, s.grids[n]? = some d → d.status = .waiting → d.ended = false → 1 ≤ (freeDies s d.part).length →
      d.cmd.minDies ≤ (freeDies s d.part).length →
      exec (.gridStart n) s = .next (startGrid s n d ((freeDies s d.part).take d.cmd.maxDies))) ∧
    (∀ p t passed, ((reserveDie s n).die n).stopped = false → ((coresOf n).any (leavesFirst (reserveDie s n))) = false →
      admitsFirst (reserveDie s n) n = false →
      chooseEntry (reserveDie s n) [] ((reserveDie s n).die n).queue = some (p, t, passed) →
      exec (.distributorAdmit n) s = .next (passed.foldl (fun s q => s.modPanel q fun x => { x with passed := x.passed + 1 })
        (t.modDie n fun d => { d with queue := d.queue.erase p }))) ∧
    ((s.panel n).status = .saving → exec (.quantumExpiry n) s = .next (panelLeaves s n)) ∧
    (∀ x, tabGet? s.parts (s.panel n).part = some x → (s.panel n).status = .resident →
      quantumStart s n + x.cfg.quantum ≤ s.gtime.toNat →
      ((s.die (s.panel n).die).queue = [] →
        exec (.quantumExpiry n) s = .next (s.modPanel n fun p => { p with quantum := s.gtime.toNat })) ∧
      ((s.die (s.panel n).die).queue ≠ [] → exec (.quantumExpiry n) s =
        .next (panelLeaves (((panelResidents s n).map fun t => (s.team t).core).foldl (fun s k => wakeCore s k 6) (savePanel s n 0)) n))) ∧
    (let t := s.team n
     let all := t.groups.filterMap s.group
     let gs := all.filter Group.counts
     (t.status = .saving → gs ≠ [] → (∀ g ∈ gs, g.status = .saved) → teamQuiet s n = true →
      (t.dirty = true →
        exec (.teamSaveLeave n) s = .next (s.modTeam n fun t => { t with windows := t.windows.map Window.startWriteback })) ∧
      (t.dirty = false → exec (.teamSaveLeave n) s = .next (panelLeaves (teamLeaves s n) t.panel))) ∧
     (t.status = .resident ∨ t.status = .saving → all ≠ [] → (∀ g ∈ all, g.status = .retired) → teamQuiet s n = true →
      (t.dirty = true →
        exec (.teamRetire n) s = .next (s.modTeam n fun t => { t with windows := t.windows.map Window.startWriteback })) ∧
      (t.dirty = false → exec (.teamRetire n) s = .next (teamRetires s n))) ∧
     (t.status = .parked → (s.panel t.panel).status = .resident → leavesFirst s t.core = false →
      (∃ gid g, gid ∈ t.groups ∧ s.group gid = some g ∧
        (g.waits.flatMap fun w => match w.kind with | .objects xs _ true _ => xs | _ => []) ≠ [] ∧
        ∀ x ∈ (g.waits.flatMap fun w => match w.kind with | .objects xs _ true _ => xs | _ => []),
          ∃ a, placeOf s g .clu x.addr = some a ∧ objCount (memReadN s.mem a 8) = 0) →
      ∀ c u, s.launchOf (all.headD {}) = some c →
        restoreTeam c (s.modTeam n fun t => { t with holds := false, kept := memCut s.mem (coreMem t.core + t.base) t.size })
          (n, t.core) = some u →
        exec (.parkedTeamReturn n) s = .next u))

/-- R161, R162, R167, R171, R176 to R180, R324: the copy engine's events complete. The oldest waiting operation starts once its fork's
accesses are performed and no fill waits: with codes 1 to 3 it fails before anything moves, a window operation runs on, any other has its
parts laid out. A part moves: its first source still to be read, in a scratchpad or on its own die, holds the bytes of its range, or is lost
with code 5; with every source read, its destination in a scratchpad holds its bytes and its count is taken off the object. A fill that has
its bytes on its own die stands in the scratchpad and the segment is present, a bad one fails; a dirty segment whose bytes stay on their die
is written and clean, a bad one is not written and fails its operations; a closing window with nothing under way closes. -/
def Obligations.EngineEventsComplete : Prop :=
  ∀ (s : State) (core slot i team w j : Nat),
    (∀ o g, tabGet? (s.core core).engine slot = some o → s.group o.group = some g → o.started = false →
      ((s.core core).engine.find? fun e => !e.2.started) = some (slot, o) → fillsWait s core = false →
      mustFollow s o.group o.mark [.fence] [] = false →
      let t := s.modOp core slot fun o => { o with started := true, left := o.total }
      (o.kind = .wflush → exec (.engineOpStart core slot) s = .next (if o.segs = [] then finishOp t core slot else t)) ∧
      (o.kind = .wclose → exec (.engineOpStart core slot) s = .next t) ∧
      (o.kind ≠ .wflush → o.kind ≠ .wclose →
        (o.valid = false → exec (.engineOpStart core slot) s =
          .next (finishOp (t.modOp core slot fun o => { o with error := 1 }) core slot)) ∧
        (o.valid = true → rangeError t g o ≠ 0 → exec (.engineOpStart core slot) s =
          .next (finishOp (t.modOp core slot fun o => { o with error := rangeError t g o }) core slot)) ∧
        (o.valid = true → rangeError t g o = 0 → exec (.engineOpStart core slot) s =
          .next (endOp (t.modOp core slot fun o => { o with units := o.plan t g }) core slot)))) ∧
    (∀ bad, exec (.engineUnitTransfer core slot i bad) s = .next (moveUnit s core slot i bad)) ∧
    (∀ o g u, tabGet? (s.core core).engine slot = some o → s.group o.group = some g → o.units[i]? = some u → o.started = true →
      o.stalled = false → u.dst.st = .todo → u.dst.isGlobal = false ∨ o.kind = .gatom →
      let reads (k : Nat) (f : Piece → Piece) (e : EngineOp) : EngineOp :=
        { e with units := o.units.modify i fun u => setPiece u k f }
      (∀ k x, u.src.findIdx? (fun x => x.st == .todo) = some k → u.src[k]? = some x →
        (x.isGlobal = false → ∃ t, exec (.engineUnitTransfer core slot i false) s = .next t ∧ t.mem = s.mem ∧ t.groups = s.groups ∧
          tabGet? (t.core core).engine slot =
            some (reads k (fun x => { x with st := .done, got := memBytes s.mem x.addr x.len }) o)) ∧
        (∀ a, x.isGlobal = true → translate s g.part (dieOfCore core) x.addr false = .phys a → homeDie a = dieOfCore core →
          ∃ t, exec (.engineUnitTransfer core slot i false) s = .next t ∧ t.mem = s.mem ∧ t.groups = s.groups ∧
          tabGet? (t.core core).engine slot = some (reads k (fun x => { x with st := .done, got := memBytes s.mem a x.len }) o)) ∧
        (∃ t, exec (.engineUnitTransfer core slot i true) s = .next t ∧ t.mem = s.mem ∧ t.groups = s.groups ∧
          tabGet? (t.core core).engine slot =
            some (reads k (fun x => { x with st := .lost }) { o with error := if o.error = 0 then 5 else o.error }))) ∧
      ((∀ x ∈ u.src, x.st = .done) → o.kind ≠ .gatom → o.overlaps = false → o.expand = 0 →
        (∃ l v, l ≠ i ∧ o.units[l]? = some v ∧ v.dst.st = .todo) →
        let m := writeSome s.mem u.dst.addr (maskHigher o u (unitBytes u))
        ∃ t, exec (.engineUnitTransfer core slot i false) s = .next (settleWaits t) ∧ t.groups = s.groups ∧
          tabGet? (t.core core).engine slot = some { o with left := o.left - u.count, units := o.units.modify i fun u =>
            { u with dst := { u.dst with st := .done } } } ∧
          (u.count = 0 → t.mem = m) ∧
          ∀ x, 0 < u.count → placeOf s g o.objSpace o.objAddr = some x →
            t.mem = memWriteN m x 8 (objDown (memReadN m x 8) u.count))) ∧
    (let t := s.team team
     let x := t.window w
     let v := (x.global + 4096 * j) % 2 ^ 64
     let die := dieOfCore t.core
     (x.seg j).asleep = false → fillHeld s (x.seg j) = false →
      ((x.seg j).filling = true → exec (.windowFillComplete team w j true) s = .next (failSegment s team w j)) ∧
      (∀ a, (x.seg j).filling = true → translate s t.part die v false = .phys a → homeDie a = die →
        exec (.windowFillComplete team w j false) s = .next (fillSegment s team w j (memBytes s.mem a 4096))) ∧
      ((x.seg j).writing = true → (s.core t.core).fixups.length < Config.fixupEntries →
        (∀ e ∈ (s.core t.core).engine, e.2.team = team → e.2.win = w → e.2.kind = .wflush ∨ e.2.kind = .wclose → e.2.started = true) →
        (∀ f ∈ s.flights, f.2.performed = true ∨ f.2.win = none) → (x.closing = true → ∀ y ∈ x.segments, y.filling = false) →
        exec (.windowWriteback team w ⟨j, true⟩) s = .next (endWriteback s team w j 5) ∧
        ∀ a, translate s t.part die v true = .phys a → homeDie a = die →
          exec (.windowWriteback team w ⟨j, false⟩) s = .next (endWriteback
            (s.setMem (memWriteBytes s.mem a (memBytes s.mem (coreMem t.core + x.local_ + 4096 * j) 4096))) team w j 0)) ∧
      (∀ e, ((s.core t.core).engine.find? fun e => e.2.team == team && e.2.win == w && e.2.kind == .wclose) = some e →
        x.closing = true → e.2.started = true → (∀ g ∈ x.segments, g.filling = false ∧ g.writing = false) →
        (∀ f ∈ s.flights, f.2.group ∈ t.groups → ∀ y, f.2.win = some y → y.1 ≠ w) →
        exec (.windowCloseComplete team w) s = .next (finishOp (s.modWindow team w fun _ => {}) t.core e.1)))

/-- R198, R206, R210, R216 to R223: the matrix pair's events complete, each on the first queued instruction once the accesses before it are
performed. A step adds its products to the tile, the first of two steps those of the lower half of the depth (the model's reading, log 36),
and raises their flags in the elected slice; a drain and an add-on-store with a code of 1 to 3 only end with it; otherwise their elements
are written, their maximum merged and their flags raised, an overflowed element's overflow too where it counts for the maximum, whatever the
type (the model's reading, log 90), with code 5 where an element met an error; a release of the owner ends its ownership. -/
def Obligations.MatrixEventsComplete : Prop :=
  ∀ (s : State) (core gid slice mark : Nat) (g : Group) (fmt : Word32) (desc : List Nat) (space : Space) (addr : Nat) (bad : List Nat)
    (rest : List MatOp), s.group gid = some g → mustFollow s gid mark [.fence] [] = false →
    let k := s.core core
    let d := DrainDesc.of desc
    let t := outTy (fmtOut fmt)
    let code := if (d.places.any fun x => bad.contains (128 * x.1 + x.2)) then 5 else 0
    (∀ words scales lead follow team n, k.matrix = .pair gid slice mark fmt words scales lead follow team (n + 1) :: rest →
      let depth := matDepth fmt / matSteps fmt
      let x := stepTile s.mem fmt words scales lead follow k.anchor (depth * (matSteps fmt - (n + 1))) depth k.elems
      exec (.mpairStep core) s = .next (raiseIn (s.setCore core
        (if n = 0 then ({ k with elems := x.1 } : Core).nextMatrix
         else { k with elems := x.1, matrix := .pair gid slice mark fmt words scales lead follow team n :: rest })) gid slice x.2)) ∧
    (∀ first instr, k.matrix = .drain gid slice mark fmt desc (some (first, instr)) space addr :: rest →
      exec (.drainPerform core bad) s = .next (settleWaits (wakeCore
        ((drainNames (raiseIn (mergeMax s g k d bad) gid slice (mergeFlags s g k d bad)) gid k fmt d first instr bad).modCore core
          Core.nextMatrix) core 2))) ∧
    (k.matrix = .drain gid slice mark fmt desc none space addr :: rest →
      let e := drainError s g d (fmtOut fmt) (List.range 7)
      let x := writeTile s g k d t.bytes bad fun e _ => outElem (Arith.of fmt) t k.anchor e
      (e ≠ 0 → exec (.drainPerform core bad) s = .next (endDrain s core g d t.bytes e space addr)) ∧
      (e = 0 → exec (.drainPerform core bad) s =
        .next (endDrain (raiseIn (mergeMax x.1 g k d bad) gid slice (x.2 ||| maxFlags k d bad ||| mergeFlags x.1 g k d bad)) core g d t.bytes
          code space addr))) ∧
    (k.matrix = .add gid slice mark fmt desc space addr :: rest →
      let e := drainError s g d (fmtOut fmt) [0, 1, 2, 5, 6]
      let x := writeTile s g k d t.bytes bad fun e o =>
        match t with
        | .t96 => add96 k.anchor e o
        | .s32 => addS32 (Arith.of fmt) k.anchor e o
        | _ => addFloat (Arith.of fmt) t k.anchor e o
      (e ≠ 0 → exec (.addOnStorePerform core bad) s = .next (endDrain s core g d t.bytes e space addr)) ∧
      (e = 0 → exec (.addOnStorePerform core bad) s =
        .next (endDrain (raiseIn (mergeMax x.1 g k d bad) gid slice (x.2 ||| maxFlags k d bad ||| mergeFlags x.1 g k d bad)) core g d t.bytes
          code space addr))) ∧
    (∀ team, k.matrix = .release team :: rest → k.owner = some team → (∀ ea, MatOp.zero ea ∉ rest) →
      exec (.ownershipEnd core) s = .next (s.setCore core k.nextMatrix.endOwnership))

/-- R320 to R330: the events of the map unit and of the links between dies complete. A walk goes on from its level and table: entries on
its own die lead to its end, the page entering the die's cache and its waiting segments replayed, entries on another die are sent for. A
fault past the partition's timeout is rejected and waits no more. A die accepts an origin's oldest message when its stamp's turn has come,
and its home performs it, a write's bytes standing in memory; a read is served, and its data delivered, once the vector it carries has
been reached. -/
def Obligations.DieEventsComplete : Prop :=
  ∀ (s : State) (die page origin i : Nat),
    (∀ w p, (s.die die).walks.find? (fun w => w.page == page) = some w → partOfDie s die = some p → w.asleep = false →
      let table := groupAddr w.table page w.level
      (∀ e, walkStart p page = some e → exec (.translationWalkComplete die page) s = .next (walkEnds s die page e)) ∧
      (walkStart p page = none →
        (homeDie table ≠ die → exec (.translationWalkComplete die page) s = .next (sendRead
          (s.modDie die fun d => { d with walks := d.walks.map fun x =>
            if x.page = page then { x with level := w.level, table := w.table, asleep := true } else x })
          die (homeDie table) table 0 128 (.walk die page))) ∧
        ∀ x, homeDie table = die → walkEntry p.cfg s.walkFirst page w.level (memBytes s.mem table 128) = .done x →
          exec (.translationWalkComplete die page) s = .next (walkEnds { s with freeCount := s.freeCount + 1 } die page x) ∧
          ∀ e, x = .page e → (∀ k ∈ knownCores s die, ∀ f ∈ (s.core k).fixups, f.page ≠ page) →
            ∃ t, exec (.translationWalkComplete die page) s = .next t ∧ t.mem = s.mem ∧ t.groups = s.groups ∧
              t.die die = { s.die die with walks := (s.die die).walks.filter fun y => y.page != page, tlb := addTlb (s.die die).tlb e })) ∧
    (∀ p f, partOfDie s die = some p → p.cfg.faultTimeout ≠ 0 → f ∈ (s.die die).faults → f.page = page →
      f.since + p.cfg.faultTimeout ≤ s.gtime.toNat →
      (answeredNow s die page = true → exec (.faultTimeout die page) s = .next s) ∧
      (answeredNow s die page = false → exec (.faultTimeout die page) s = .next (rejectPage s die page)) ∧
      (answeredNow s die page = false → (∀ k ∈ knownCores s die, ∀ e ∈ (s.core k).fixups, e.page ≠ page ∨ e.reason = 0) →
        ∃ t, exec (.faultTimeout die page) s = .next t ∧ t.mem = s.mem ∧ t.groups = s.groups ∧
          t.die die = { s.die die with faults := (s.die die).faults.filter fun x => x.page != page })) ∧
    (∀ m, ((s.die die).inbox.find? fun m => m.origin == origin) = some m →
      m.stamp.getD origin 0 = (s.die die).clock.getD origin 0 + 1 →
      (∀ k, k < 12 → k ≠ origin → m.stamp.getD k 0 ≤ (s.die die).clock.getD k 0) →
      let t := s.setDie die { s.die die with
        inbox := (s.die die).inbox.erase m, clock := (s.die die).clock.set origin (m.stamp.getD origin 0) }
      exec (.crossDieAccept die origin) s = .next (checkSteps (if m.home = die then performMessage t die m else t)) ∧
      (m.home = die → m.atom = none → ∃ u, exec (.crossDieAccept die origin) s = .next (checkSteps u) ∧ u.die die = t.die die ∧
        u.groups = s.groups ∧ u.mem = writeSome s.mem m.addr m.bytes) ∧
      (m.home ≠ die → exec (.crossDieAccept die origin) s = .next (checkSteps t))) ∧
    (∀ r, (s.die die).requests[i]? = some r → (∀ k, k < 12 → k ≠ die → r.clock.getD k 0 ≤ (s.die die).clock.getD k 0) →
      exec (.crossDieReadServe die i) s = .next ((s.setDie die { s.die die with requests := (s.die die).requests.eraseIdx i }).modDie r.reader
        fun x => { x with responses := x.responses ++ [{ r with clock := (s.die die).clock, data := memBytes s.mem r.addr r.len }] })) ∧
    (∀ r, (s.die die).responses[i]? = some r → (∀ k, k < 12 → k ≠ die → r.clock.getD k 0 ≤ (s.die die).clock.getD k 0) →
      exec (.crossDieReadDeliver die i) s =
        .next (deliver (heldUpdate (s.setDie die { s.die die with responses := (s.die die).responses.eraseIdx i }) r) r.owner r.data))

/-- R259, R260, R272 to R275, R278, R282: the events of the spawn queues and bounds complete. A spilled thread returns where its core has
room; a class whose latest thread arrived 256 cycles ago may form; the first class that can form does where R139 admits its group, in the
lowest free slot (the model's choice, log 100); an idle
core takes the oldest half of its victim's threads; a team of waiting parents is asked to make room for a class that cannot be admitted.
The bound unit applies its oldest update, by the order of its type, which its group has then seen (the model's field boundSeen, log 87),
and what waited for it goes on; a mirror
shows the unit's next change. -/
def Obligations.SpawnAndBoundEventsComplete : Prop :=
  (∀ (s : State) (core i : Nat),
    (0 < (s.core core).overflow → (s.core core).threads.length - (s.core core).overflow < 2048 →
      exec (.spawnOverflowReturn core) s = .next (s.setCore core { s.core core with overflow := (s.core core).overflow - 1 })) ∧
    (∀ x, (s.core core).gathers[i]? = some x →
      (x.last + 256 ≤ (s.cluster (clusterOfCore core)).cycles.toNat →
        exec (.gatherTimeout core i) s = .next (s.modCore core fun k => { k with gathers := k.gathers.set i { x with expired := true } })) ∧
      (∀ slot rest, nextClass s core = some x → freeGroupSlots s core = slot :: rest → admits s core x.grid = true →
        let ts := (classThreads (s.core core) x).filterMap fun i => (s.core core).threads[i]?
        exec (.groupFormation core i) s = .next (formGroup s core slot x) ∧
        ∃ t g, exec (.groupFormation core i) s = .next t ∧ t.group s.groups.length = some g ∧ g.spawned = true ∧ g.status = .live ∧
          g.grid = x.grid ∧ g.panel = x.panel ∧ g.core = core ∧ g.slot = slot ∧ g.prio = x.prio ∧ g.team = s.teams.length ∧
          (t.core core).threads = ((s.core core).takeThreads (classThreads (s.core core) x)).threads ∧
          ∀ j, j < 8 →
            let sl := g.slices.get j
            let new := (spawnedSlices x.entry ts).get j
            (sl.pc, sl.mask, sl.exited, sl.names, sl.spawned) = (new.pc, new.mask, new.exited, new.names, new.spawned)) ∧
      (∀ t, parkVictim s core = some t → canForm s core x = true → slotsAndCells s core x.grid = false →
        atSwitch s core x.grid = true →
        exec (.teamPark core i) s = .next (askSave (s.modTeam t fun t => { t with parking := true }) t 1))) ∧
    (∀ v, idleCore s core = true → victimOf s core = some v →
      (∀ x, nextClass s v = some x → admits s v x.grid = false) →
      (∀ k, k < core → clusterOfCore k = clusterOfCore core → idleCore s k = true → victimOf s k ≠ some v) →
      let k := s.core v
      let taken := (stealable s k).take ((stealable s k).length / 2)
      let ts := taken.filterMap fun i => k.threads[i]?
      let t := s.setCore v (k.takeThreads taken)
      exec (.threadSteal core) s =
        .next (wakeCore (t.modCore core fun q => ts.foldl (fun q x => q.enqueue x (cycleOf t core)) q) core 3))) ∧
  (∀ (s : State) (cluster core : Nat),
    (∀ u rest, (s.cluster cluster).boundQueue = u :: rest →
      ∃ t, exec (.boundUnitUpdate cluster) s = .next (settleWaits t) ∧
        (t.cluster cluster).boundQueue = rest ∧
        (t.cluster cluster).bounds = (s.cluster cluster).bounds.set u.word
          (boundPick u.isMax u.sgn ((s.cluster cluster).bounds.getD u.word 0) u.value) ∧
        (∀ c, c ≠ cluster → t.cluster c = s.cluster c) ∧ t.cores = s.cores ∧ t.mem = s.mem ∧
        ∀ (gid : Nat) (g : Group), s.group gid = some g → t.group gid = some (if gid = u.group then
          { g with boundSeen := tabSet g.boundSeen cluster (t.cluster cluster).boundLog.length } else g)) ∧
    (∀ u, (s.cluster (clusterOfCore core)).boundLog[(s.core core).mirrorPos]? = some u →
      exec (.boundMirrorUpdate core) s = .next (wakeCore (s.setCore core { s.core core with
        mirror := (s.core core).mirror.set u.1 u.2, mirrorPos := (s.core core).mirrorPos + 1 }) core 5)))


/-! ### Power, clocks and errors -/

/-- R140, R297, R299, R301, R302: a cluster's cycle completes while its clock runs. Its cycle counter goes on by one, its groups are free to
issue again, no core comes to hold more than 256 tokens, no slice or register changes, and no byte of memory but those of the records that
its cores have raised in it, which are written now (R370), and the clusters' other cores keep their state; the names of a core whose
VS_LIMIT was lowered may begin to leave. The time base stands at the oscillator's count and the corrections it has kept, which is the
model's reading of them (log 62), a count of the past leaves it as it is (log 70), and it never goes back. A cluster whose clock stands
still only sees time pass. -/
def Obligations.TokenCyclesComplete : Prop :=
  ∀ (s : State) (cluster : Nat) (now : BitVec 64), s.powered = true →
    (∀ t, exec (.tokenCycle cluster now) s = .next t → (now.toNat : Int) + s.offset + max s.correction 0 < 2 ^ 64 →
      s.gtime.toNat ≤ t.gtime.toNat) ∧
    (clockRuns (passTime s now) cluster = false → exec (.tokenCycle cluster now) s = .next (passTime s now)) ∧
    (clockRuns (passTime s now) cluster = true → ∃ t, exec (.tokenCycle cluster now) s = .next t ∧
      (t.cluster cluster).cycles = (s.cluster cluster).cycles + 1 ∧ t.mem = (s.writeRecords fun k => clusterOfCore k == cluster).mem ∧
      ((∀ r ∈ s.recordings, ∀ x ∈ r.raised, clusterOfCore x.core ≠ cluster) → t.mem = s.mem) ∧
      ((now.toNat : Int) + s.offset ≤ s.gtime.toNat → t.gtime = s.gtime) ∧
      ((s.gtime.toNat : Int) < now.toNat + s.offset → s.correction = 0 → t.gtime = BitVec.ofInt 64 (now.toNat + s.offset)) ∧
      (∀ core, clusterOfCore core ≠ cluster → t.core core = s.core core) ∧
      (∀ core, (s.core core).holding ≤ 256 → (t.core core).holding ≤ 256) ∧
      ∀ (gid : Nat) (g : Group), s.group gid = some g →
        let fresh : Group := { g with issued := false, heldLast := g.held, held := 0, refused := 0 }
        ∃ g', t.group gid = some g' ∧ (clusterOfCore g.core ≠ cluster → g' = g) ∧
          (clusterOfCore g.core = cluster → fresh.KeepsButSpills g') ∧
          (clusterOfCore g.core = cluster → (∀ k, (g.core, k) ∈ s.cores → 3072 ≤ k.vsLimit) → g' = fresh))

/-- R196, R297, R303, R306, R307, R335, R344, R346, R347: gating, the time base, power settings and the deadlock watchdog. A cluster idle
for its partition's idle time is gated; a running cluster reloads its copy of the time base; a synchronisation message of the package
record's domain sets the correction, or the time itself where it lies more than 1 ms ahead, and then the clusters are owed the tokens of the
time stepped over (that it steps at once, that it slews on relock after a holdover, and that a message of another domain changes nothing, is
the model's reading, log 62); after 2 s without one the holdover begins and the host hears of it. A power manager setting within its limits
is taken where the package is within its allowance with it, or nearer to it than before (the division and this rule are the model's, log 2),
and no other is; a packet over an unreliable transport is dropped and counted at a populated port, of the board record where it verifies
(log 2). A context that has stood still for a whole watchdog interval has its groups asked for machine check, one in a handler taking a
double trap at once (R229), and the host hears of it. -/
def Obligations.ClockAndPowerEventsComplete : Prop :=
  (∀ (s : State) (cluster : Nat), s.powered = true →
    (∀ t, (s.cluster cluster).idle = some t → (s.cluster cluster).gated = false → clusterIdle s cluster = true →
      ((∃ n p, ownerOf s (dieOfCluster cluster) = some n ∧ tabGet? s.parts n = some p ∧ t + p.cfg.idle ≤ s.gtime.toNat) ∨
        (ownerOf s (dieOfCluster cluster) = none ∧ t + 1000000 ≤ s.gtime.toNat)) →
      exec (.gateRequest cluster) s = .next (s.modCluster cluster fun k => { k with gated := true, idle := none })) ∧
    (clockRuns s cluster = true →
      exec (.gtimeResync cluster) s = .next (s.modCluster cluster fun k => { k with localTime := s.gtime })) ∧
    (∀ domain master : Nat,
      let off : Int := (master : Int) - s.gtime.toNat
      (s.recordOk 2 = true → domain = s.flash.domain →
        (off ≤ 1000000 → exec (.ptpSyncMessage ⟨domain, master⟩) s =
          .next { s with lastSync := s.gtime.toNat, inHoldover := false, relocking := false, correction := off }) ∧
        (1000000 < off → s.inHoldover = true ∨ s.relocking = true → exec (.ptpSyncMessage ⟨domain, master⟩) s =
          .next { s with lastSync := s.gtime.toNat, inHoldover := false, relocking := true, correction := off }) ∧
        (1000000 < off → s.inHoldover = false → s.relocking = false →
          ∃ t, exec (.ptpSyncMessage ⟨domain, master⟩) s = .next t ∧ t.gtime = BitVec.ofNat 64 master ∧ t.correction = 0 ∧
            t.offset = s.offset + off ∧ t.lastSync = master ∧ t.inHoldover = false ∧ t.groups = s.groups ∧ t.mem = s.mem ∧
            ∀ k c, tabGet? s.clusters k = some c → clockRuns s k = true → tabGet? t.clusters k =
              some { c with localTime := BitVec.ofNat 64 master, owed := c.owed + effectiveRate s k * off.toNat })) ∧
      (s.recordOk 2 = false ∨ domain ≠ s.flash.domain → exec (.ptpSyncMessage ⟨domain, master⟩) s = .next s)) ∧
    (s.inHoldover = false → s.lastSync + 2000000000 ≤ s.gtime.toNat →
      exec .holdover s = .next (({ s with inHoldover := true, correction := 0 } : State).event none [9]))) ∧
  (∀ (s : State) (k n port : Nat), s.powered = true →
    let rings := ringDraw (totalRate s - (s.cluster k).rate + n) + totalStacks s
    let windows := ringDraw (totalRate s) + (totalStacks s - stackDraw (tabGet s.windows 16 k) + stackDraw n)
    let allowed (draw : Nat) : Prop := draw + 500000 ≤ 1000 * s.watts ∨ draw < ringDraw (totalRate s) + totalStacks s
    (k < 24 → allowed rings →
      exec (.powerManagerSetting (.injection k n)) s = .next (s.modCluster k fun c => { c with rate := n })) ∧
    (24 ≤ k ∨ ¬ allowed rings → exec (.powerManagerSetting (.injection k n)) s = .next s) ∧
    (k < 24 → 16 ≤ n → n ≤ 256 → allowed windows →
      exec (.powerManagerSetting (.window k n)) s = .next { s with windows := tabSet s.windows k n }) ∧
    (24 ≤ k ∨ n < 16 ∨ 256 < n ∨ ¬ allowed windows → exec (.powerManagerSetting (.window k n)) s = .next s) ∧
    let populated : Prop := if s.recordOk 3 then port ∈ s.flash.board.ports else port < 24
    (¬ populated → exec (.unreliablePacketReceived port) s = .next s) ∧
    (populated →
      ∃ t, exec (.unreliablePacketReceived port) s = .next t ∧ tabGet t.portDrops 0 port = tabGet s.portDrops 0 port + 1 ∧
        (∀ q, q ≠ port → tabGet t.portDrops 0 q = tabGet s.portDrops 0 q) ∧ { t with portDrops := s.portDrops } = s)) ∧
  (∀ (s : State) (grid t : Nat) (d : Grid) (p : Partition), s.grids[grid]? = some d → tabGet? s.parts d.part = some p → d.stuck = some t →
    p.cfg.watchdog ≠ 0 → t + p.cfg.watchdog ≤ s.gtime.toNat → contextStuck s grid = true → onStoppedDie s grid = false →
    let handling (g : Group) : Bool := g.priv && g.status == .live
    let double := (gridGroups s grid).filter fun n => match s.group n with | some g => handling g | none => false
    ∃ u, exec (.deadlockWatchdog grid) s = .next u ∧
      u.hostEvents = s.hostEvents ++ [[4, d.part, d.number]] ++ double.map (fun n => [1, n, 11, 6, 0]) ∧
      u.grids = s.grids.set grid { d with stuck := none } ∧ u.mem = s.mem ∧
      ∀ (gid : Nat) (g : Group), s.group gid = some g →
        u.group gid = some (if gid ∉ gridGroups s grid then g else if handling g then { g with status := .stopped }
          else { g with wantCheck := true }))

/-- R304, R305: "On each state change the host receives a thermal event naming the diode, the reading and the new state": a poll completes,
due every 100 µs of `%gtime`, one before its time changes nothing (log 70); the diode's new state is what its thresholds give, a fall being
by one level at a poll (log 47) and never below throttle while the die is stopped (log 72); its die's clocks stop when one of the die's
diodes is in trip, and stand until every one has read below its trip threshold minus its hysteresis (log 72); a region in trip puts the
stacks into self-refresh until the stop ends (log 89); programs' state is untouched while they stand, and when they run again. A state
never lies below a level the reading reaches, and falls by one level only below its threshold minus the hysteresis. -/
def Obligations.ThermalPollsComplete : Prop :=
  (∀ (s : State) (d : Diode) (reading : Int), s.powered = true →
    let key := (diodeOf s d).1
    let die := (diodeOf s d).2.1
    let limits := (diodeOf s d).2.2
    let old := tabGet s.diodes 0 key
    let was := (s.die die).stopped = true
    let new := if was ∧ 2 ≤ old then max 2 (diodeNext limits old reading) else diodeNext limits old reading
    (s.gtime.toNat < pollDue s key → exec (.thermalPoll d reading) s = .next s) ∧
    (pollDue s key ≤ s.gtime.toNat → ∃ t, tabGet t.diodes 0 key = new ∧
      (∀ k, k ≠ key → tabGet t.diodes 0 k = tabGet s.diodes 0 k ∧ (k ∈ t.hot ↔ k ∈ s.hot)) ∧
      (key ∈ t.hot ↔ limits.trip - limits.hyst ≤ reading) ∧
      s.gtime.toNat < pollDue t key ∧ pollDue t key ≤ s.gtime.toNat + 100000 ∧ pollDue t key % 100000 = 0 ∧
      t.hostEvents = s.hostEvents ++ (if new = old then [] else [[5, key, (BitVec.ofInt 64 reading).toNat, new]]) ∧
      let stop := (∃ k ∈ diodesOfDie die, tabGet t.diodes 0 k = 3) ∨ was ∧ ∃ k ∈ diodesOfDie die, k ∈ t.hot
      ((t.die die).selfRefresh = true ↔ stop ∧
        ((s.die die).selfRefresh = true ∨ ∃ k ∈ diodesOfDie die, 100 ≤ k ∧ tabGet t.diodes 0 k = 3)) ∧
      (∀ j, j ≠ die → t.die j = s.die j) ∧ t.groups = s.groups ∧ t.cores = s.cores ∧ t.mem = s.mem ∧
      (stop → (t.die die).stopped = true) ∧
      (stop ∨ ¬ was → exec (.thermalPoll d reading) s = .next t ∧ ((t.die die).stopped = true → stop)) ∧
      (¬ stop → was → exec (.thermalPoll d reading) s = .next (endStop t die) ∧ ((endStop t die).die die).stopped = false))) ∧
  ∀ (x : Thresholds) (st : Nat) (t : Int), 0 ≤ x.hyst →
    (∀ l, 1 ≤ l → l ≤ 3 → x.of l ≤ t → l ≤ diodeNext x st t) ∧
    (diodeNext x st t < st → diodeNext x st t + 1 = st ∧ t < x.of st - x.hyst)

/-- R341, R342, R344, R345, R360, R361: a corrected error completes: "A corrected error changes no value that any reader sees", and it
counts at its row with the errors of the past 24 hours; the third begins the row's copy to a spare where the bank has one free, and where
none is the host hears of it, at each further error too (log 61). A finished copy remaps the row in flash, whose record the device writes
anew (log 78), frees its count (log 61) and is told to the host; the numbers of rows and banks are the model's (log 9). With power good the
device boots from die 0's flash device, from die 11's where that fails, notes the version of a boot that did not fail and which signed
records verify (log 78), and its rings and stacks start within the allowance, as the model divides it (log 2); with power good removed it
is in reset, and only package flash and what is the model's own (log 1, log 4) are kept. -/
def Obligations.ErrorAndBootEventsComplete : Prop :=
  (∀ (s : State) (row : Nat),
    (s.powered = true →
      let known := (tabGet s.rows {} row).times ≠ []
      let room := (s.rows.filter fun r => rowDie r.1 == rowDie row && !r.2.times.isEmpty).length < 4096
      let x := tabGet (if known then s.rows else makeRoom s.rows (rowDie row)) {} row
      let times := (x.times.filter fun t => decide (s.gtime.toNat < t + 86400000000000)) ++ [s.gtime.toNat]
      ∃ t, exec (.correctedError row) s = .next t ∧ t.mem = s.mem ∧ t.groups = s.groups ∧ t.cores = s.cores ∧
        (tabGet t.rows {} row).times = times ∧ (known ∨ room → ∀ r, r ≠ row → tabGet? t.rows r = tabGet? s.rows r) ∧
        (tabGet t.rows {} row).copying = (x.copying || (decide (3 ≤ times.length) && decide (sparesUsed s row < sparesOf row))) ∧
        t.hostEvents = s.hostEvents ++ (if 3 ≤ times.length ∧ x.copying = false ∧ sparesOf row ≤ sparesUsed s row then
          [[10, rowDie row, rowMemory row, rowBank row % 2 ^ 19, row % 2 ^ 20]] else [])) ∧
    ((tabGet s.rows {} row).copying = true → ∃ t, exec (.spareRowCopyComplete row) s = .next t ∧
      t.spared = s.spared ++ [row] ∧ t.flash = s.flash.remap t.spared ∧ t.flash.spared = t.spared ∧
      t.flash.records[4]? = some (Config.spareRecord t.spared) ∧ tabGet? t.rows row = none ∧
      t.hostEvents = s.hostEvents ++ [[8, rowDie row, rowMemory row, rowBank row % 2 ^ 19, row % 2 ^ 20]] ∧
      t.mem = s.mem ∧ t.groups = s.groups)) ∧
  (∀ (s : State) (stages backup : List (List Byte)),
    (s.powered = false →
      let accepted := s.flash.records.map Config.rootVerifies
      ∃ t, exec (.powerGoodAssert stages backup) s = .next t ∧ t.powered = true ∧ t.groups = s.groups ∧ t.mem = s.mem ∧
        (∀ c, c < 24 → t.cluster c = { rate := startRate t.watts }) ∧ (∀ k, k < 24 → tabGet t.windows 16 k = startWindow t.watts) ∧
        (569 ≤ t.watts → ringDraw (totalRate t) + totalStacks t + 500000 ≤ 1000 * t.watts) ∧
        t.spared = (if t.recordOk 4 then t.flash.spared else []) ∧
        ((bootFrom s.flash stages).failed = false → t.boot = { bootFrom s.flash stages with accepted := accepted } ∧
          t.flash = { s.flash with sealed_ := s.flash.sealed_.map fun v => max v (bootFrom s.flash stages).version }) ∧
        ((bootFrom s.flash stages).failed = true → t.boot = { bootFrom s.flash backup with accepted := accepted } ∧
          ((bootFrom s.flash backup).failed = false →
            t.flash = { s.flash with sealed_ := s.flash.sealed_.map fun v => max v (bootFrom s.flash backup).version }) ∧
          ((bootFrom s.flash backup).failed = true → t.up = false ∧ t.flash = s.flash))) ∧
    exec .powerGoodRemove s = .next { State.reset with
      flash := s.flash, agenda := s.agenda, cur := s.cur, tick := s.tick, freeCount := s.freeCount })

/-! ### Commands of the host -/

/-- R348, R349: sessions open and close. An open whose tag fails or that is not message 1 is dropped and counted; a malformed one is refused
with status 1, one beyond 64 with status 4; one whose chain ends in the host key of its target's record is answered with its number, and the
messages of both directions count from 1, that open and its answer the first (that a refused open is answered with session number 2^32 - 1,
and status 2 for a chain that fails, is the model's, log 50). A close is answered, behind earlier commands that are not complete, and its
session is closed with the answer; a command behind one of its partition that is not complete waits (both the model's reading, log 51); a
malformed one is answered with status 1, one that names another partition with status 2. "A message whose tag fails, or whose sequence is
not the previous one plus 1, is dropped without response and counted in readback": such a command of any kind changes the count of dropped
messages and nothing else. -/
def Obligations.SessionsOpenAndClose : Prop :=
  (∀ (s : State) (chain key : List Byte) (h : CmdHdr) (x : Session) (grid : Nat),
    let opened := (s.sessions.filter fun x => x.isOpen).length
    let refused (status : Nat) : Result := .next
      { s with responses := s.responses ++ [{ session := 2 ^ 32 - 1, seq := 1, opcode := 1, status := status }] }
    (s.up = true → h.tagOk = false ∨ h.seq ≠ 1 → exec (.sessionOpen h chain) s = .next { s with drops := s.drops + 1 }) ∧
    (s.up = true → h.tagOk = true → h.seq = 1 →
      (headerOk h 1 = false → exec (.sessionOpen h chain) s = refused 1) ∧
      (headerOk h 1 = true → 64 ≤ opened → exec (.sessionOpen h chain) s = refused 4) ∧
      (headerOk h 1 = true → opened < 64 →
        (h.part = none ∧ s.recordOk 2 = true ∧ key = s.flash.packageKey ∨
          ∃ n p, h.part = some n ∧ tabGet? s.parts n = some p ∧ key = p.cfg.keyDigest) →
        (Config.chainVerifies chain key = true → exec (.sessionOpen h chain) s = .next
          { s with sessions := s.sessions ++ [{ target := h.part, seq := 1, sent := 1 }],
                   responses := s.responses ++ [{ session := s.sessions.length, seq := 1, opcode := 1, status := 0 }] }) ∧
        (Config.chainVerifies chain key = false → exec (.sessionOpen h chain) s = refused 2))) ∧
    (Accepted h s x → h.opcode = 2 →
      let closing : Session := { x with seq := h.seq, closing := true }
      ((∀ p ∈ s.pending, p.session ≠ h.session) → exec (.sessionClose h) s = .next { s with
        responses := s.responses ++ [{ session := h.session, seq := x.sent + 1, opcode := 2, status := 0 }],
        sessions := s.sessions.set h.session { closing with sent := x.sent + 1, isOpen := false } }) ∧
      ((∃ p ∈ s.pending, p.session = h.session) → exec (.sessionClose h) s = .next { s with
        sessions := s.sessions.set h.session { closing with
          queued := x.queued ++ [{ session := h.session, seq := 0, opcode := 2, status := 0 }] } })) ∧
    (Arrives h s x →
      (∀ part, busyUnit s x.target = some part → exec (.endLaunch h grid) s = .next { s with
        commands := s.commands ++ [{ part := part, session := h.session, seq := h.seq, cmd := .endLaunch h grid }],
        sessions := s.sessions.set h.session { x with seq := h.seq, waiting := x.waiting ++ [h.seq] } }) ∧
      (busyUnit s x.target = none →
        (headerOk h 0x22 = false → exec (.endLaunch h grid) s = .next (replied (took h s x) h 1 [])) ∧
        (∀ part, headerOk h 0x22 = true → h.part = some part → x.target ≠ some part →
          exec (.endLaunch h grid) s = .next (replied (took h s x) h 2 []))))) ∧
  ∀ (s : State) (h : CmdHdr) (x : Session), s.up = true → s.sessions[h.session]? = some x →
    h.tagOk = false ∨ h.seq ≠ x.seq + 1 ∧ h.seq ∉ x.waiting →
    let drop : Result := .next { s with drops := s.drops + 1 }
    exec (.sessionClose h) s = drop ∧
    (∀ cfg, exec (.partitionConfigure h cfg) s = drop) ∧ (∀ cmd, exec (.launch h cmd) s = drop) ∧
    (∀ g d a n, exec (.signalArrive h g d a n) s = drop) ∧ (∀ g, exec (.signalPreempt h g) s = drop) ∧
    (∀ g n, exec (.signalDieTarget h g n) s = drop) ∧ (∀ g, exec (.endLaunch h g) s = drop) ∧
    (∀ p n bs, exec (.pageMigrateToDevice h p n bs) s = drop) ∧ (∀ p n, exec (.pageMigrateToHost h p n) s = drop) ∧
    (∀ es ps, exec (.tableUpdate h es ps) s = drop) ∧ (∀ d p, exec (.faultAnswerResolve h d p) s = drop) ∧
    (∀ d p, exec (.faultAnswerReject h d p) s = drop) ∧ (∀ is, exec (.readback h is) s = drop) ∧
    (∀ ts es, exec (.launchTableUpdate h ts es) s = drop) ∧ (∀ t, exec (.debugStop h t) s = drop) ∧ (∀ t, exec (.debugStep h t) s = drop) ∧
    (∀ t, exec (.debugResume h t) s = drop) ∧ (∀ t b n m, exec (.debugTrace h t b n m) s = drop) ∧
    ∀ t b n m, exec (.debugTimeLoss h t b n m) s = drop

/-- R351: partition configure completes for the package's session. A new partition whose record keeps the ranges, on dies that no other
partition has and that hold no launch, stands with its configuration; every byte of its dies' HBM, core scratchpads, cluster SRAM and die
scratchpads (where they stand is the model's, log 6) reads 0, and no other byte changes; its cores and clusters, and each die's queue,
translation cache, walks, faults, messages and vector clock, are as at the start; no other die, core or live group changes. No session of
the number is open any more, and outside the ranges the answer is status 1, for a die of another partition 4, for a launch there 3 (all the
model's reading, log 50); a partition without launches is dissolved. -/
def Obligations.PartitionsAreConfigured : Prop :=
  ∀ (s : State) (h : CmdHdr) (x : Session) (cfg : PartitionCfg), Accepted h s x → h.opcode = 0x10 → x.target = none →
    let old := ((tabGet? s.parts cfg.part).map fun p => p.cfg.dies).getD []
    let taken := s.parts.any fun p => p.1 != cfg.part && p.2.cfg.dies.any cfg.dies.contains
    let ours (a : Nat) : Prop := ∃ d ∈ cfg.dies, ∃ r ∈ dieMemory d, r.1 ≤ a ∧ a < r.1 + r.2
    (cfg.create = true → configOk cfg = true → taken = false → (old ++ cfg.dies).all (dieIdle s) = true →
      ∃ t, exec (.partitionConfigure h cfg) s = .next (replied t h 0 []) ∧
        tabGet? t.parts cfg.part = some { cfg := cfg, handlerSize := cfg.handlerSize } ∧
        (∀ gid g, s.group gid = some g → g.status ≠ .gone → t.group gid = some g) ∧
        (∀ (i : Nat) (y : Session), t.sessions[i]? = some y → y.target = some cfg.part → y.isOpen = false) ∧
        (∀ a, ours a → memRead t.mem a = 0) ∧ (∀ a, ¬ ours a → memRead t.mem a = memRead s.mem a) ∧
        (∀ d ∈ cfg.dies, t.die d = { stopped := (s.die d).stopped, selfRefresh := (s.die d).selfRefresh } ∧
          (∀ i, i < 192 → t.core (192 * d + i) = { vsLimit := cfg.vsLimit }) ∧
          ∀ c, c = 2 * d ∨ c = 2 * d + 1 → t.cluster c = { rate := (s.cluster c).rate, localTime := s.gtime }) ∧
        (∀ d, d ∉ cfg.dies → t.die d = s.die d) ∧ ∀ k, dieOfCore k ∉ cfg.dies → t.core k = s.core k) ∧
    (cfg.create = true → configOk cfg = false → exec (.partitionConfigure h cfg) s = .next (replied (took h s x) h 1 [])) ∧
    (cfg.create = true → configOk cfg = true → taken = true → exec (.partitionConfigure h cfg) s = .next (replied (took h s x) h 4 [])) ∧
    (cfg.create = true → configOk cfg = true → taken = false → (old ++ cfg.dies).all (dieIdle s) = false →
      exec (.partitionConfigure h cfg) s = .next (replied (took h s x) h 3 [])) ∧
    (cfg.create = false → old.all (dieIdle s) = true → (tabGet? s.parts cfg.part).isSome = true →
      exec (.partitionConfigure h cfg) s =
        .next (replied { endSessions (took h s x) cfg.part with
          parts := tabErase s.parts cfg.part, recordings := s.recordings.filter fun r => r.part != cfg.part } h 0 []))

/-- R24, R336, R338, R350, R352 to R355: the commands of launches complete. A launch takes the kernel's values with the command's overrides
and the physical device's shape where none is given; it is accepted where these lie in their limits, its entry lies in the code (the
model's, log 77) and a team of it could be admitted, and is then a waiting grid with the partition's next number. An accepted launch is
answered with its grid number, a refused one with status 4 and nothing starts; an entry and a template of the launch table are replaced, the
entry's count kept (log 58); the entry whose slot has come first fires; a grid is ended at once (log 57). -/
def Obligations.LaunchCommandsComplete : Prop :=
  (∀ (s : State) (h : CmdHdr) (x : Session) (part : Nat) (p : Partition), ForPartition h s x part p →
    (∀ cmd, h.opcode = 0x20 → let u := fireDue (begun h s x part) part p.table.length
      (∀ v g d, acceptLaunch u part cmd none = (v, some g) → v.grids[g]? = some d →
        exec (.launch h cmd) s = .next (replied v h 0 [d.number])) ∧
      ∀ v, acceptLaunch u part cmd none = (v, none) → exec (.launch h cmd) s = .next (replied u h 4 [])) ∧
    (∀ number gid d, h.opcode = 0x22 → ForGrid h s x part p number gid d →
      exec (.endLaunch h number) s = .next (replied (endGrid (begun h s x part) gid) h 0 [])) ∧
    (∀ ts es, h.opcode = 0x50 → (∀ e ∈ es, entryOk e = true) → (∀ t ∈ ts, t.1 < 64) →
      ∃ q, exec (.launchTableUpdate h ts es) s =
          .next (replied { begun h s x part with parts := tabSet s.parts part q } h 0 []) ∧
        q.cfg = p.cfg ∧ (∀ i c, ts = [(i, c)] → tabGet? q.templates i = some c) ∧
        ∀ i e, es = [(i, e)] → ∃ f, tabGet? q.table i = some f ∧ f.first = e.first ∧ f.period = e.period ∧ f.template = e.template ∧
          f.overrun = e.overrun ∧ f.enable = e.enable ∧ f.count = (tabGet p.table {} i).count) ∧
    ∀ entry t, (t, entry) ∈ dueSlots s p → (∀ d ∈ dueSlots s p, t < d.1 ∨ t = d.1 ∧ entry ≤ d.2) →
      (∀ d ∈ dueSlots s p, d.2 = entry → d.1 = t) → exec (.launchTableSlot part entry) s = .next (fireSlot s part p entry)) ∧
  ∀ (s : State) (part : Nat) (p : Partition) (cmd : LaunchBody) (entry : Option Nat), tabGet? s.parts part = some p →
    (cmd.image.kernels[cmd.kernel]? = none → acceptLaunch s part cmd entry = (s, none)) ∧
    ∀ at_ k, cmd.image.kernels[cmd.kernel]? = some (at_, k) → ∃ c, resolveLaunch s part cmd = some c ∧
      let o := cmd.changes
      (c.floor, c.groups, c.teamBytes, c.rows, c.cols, c.sramBytes, c.panels, c.dieBytes, c.minDies, c.maxDies, c.prio, c.determ) =
        (o.floor.getD k.floor, o.groups.getD k.groups, o.teamBytes.getD k.teamBytes, o.rows.getD k.rows, o.cols.getD k.cols,
         o.sramBytes.getD k.sramBytes, o.panels.getD k.panels, o.dieBytes.getD k.dieBytes, o.minDies.getD k.minDies,
         o.maxDies.getD k.maxDies, o.prio.getD k.prio, o.determ.getD k.determ) ∧
      (c.entry, c.codeSize, c.bounds) = (at_, cmd.image.codeSize, cmd.bounds) ∧
      let shape := cmd.shape.getD (BitVec.ofNat 64 (12 * 2 ^ 44 + 2 * 2 ^ 42 + 8 * 2 ^ 38 + 12 * 2 ^ 34 + 48 * 2 ^ 28 + 3072 * 2 ^ 16))
      let within (lo n most : Nat) : Prop := 1 ≤ (shape.extractLsb' lo n).toNat ∧ (shape.extractLsb' lo n).toNat ≤ most
      let dies := (shape.extractLsb' 44 4).toNat
      let good : Prop :=
        (1 ≤ c.floor ∧ c.floor ≤ 512 ∧ c.floor * 8 * c.groups ≤ 24576) ∧ (1 ≤ c.groups ∧ c.groups ≤ 16) ∧
        (c.teamBytes ≤ 524288 ∧ c.teamBytes % 256 = 0 ∧ c.coreImage.length ≤ c.teamBytes) ∧
        (1 ≤ c.rows ∧ c.rows ≤ 8 ∧ 1 ≤ c.cols ∧ c.cols ≤ 12 ∧ c.rows * c.cols ≤ 12) ∧
        (c.sramBytes ≤ 33554432 ∧ c.sramBytes % 4096 = 0) ∧ (1 ≤ c.panels ∧ c.panels < 2 ^ 32) ∧
        (c.dieBytes % 4096 = 0 ∧ paramExtent c + c.dieBytes ≤ 134217728) ∧
        (1 ≤ c.minDies ∧ c.minDies ≤ c.maxDies ∧ c.maxDies ≤ 12) ∧ c.prio ≤ 15 ∧ (∀ b ∈ c.bounds, b.1 < 8) ∧
        (c.entry + 4 ≤ c.codeSize ∧ c.entry < 2 ^ 32 ∧ c.entry % 4 = 0) ∧
        c.minDies ≤ p.cfg.dies.length ∧ c.floor * c.groups ≤ p.cfg.vsLimit ∧
        (c.determ = true →
          (shape.extractLsb' 48 16).toNat = 0 ∧ (shape.extractLsb' 0 16).toNat = 0 ∧ within 44 4 12 ∧ within 42 2 2 ∧ within 38 4 8 ∧
          within 34 4 12 ∧ within 28 6 48 ∧ within 16 12 3072 ∧ c.floor * c.groups ≤ (shape.extractLsb' 16 12).toNat ∧
          c.groups ≤ (shape.extractLsb' 28 6).toNat ∧ c.rows ≤ (shape.extractLsb' 38 4).toNat ∧
          c.cols ≤ (shape.extractLsb' 34 4).toNat ∧ (dies + c.minDies - 1) / c.minDies * (paramExtent c + c.dieBytes) ≤ 134217728)
      (¬ good → acceptLaunch s part cmd entry = (s, none)) ∧
      (good → ∃ v d, acceptLaunch s part cmd entry = (v, some s.grids.length) ∧ v.grids = s.grids ++ [d] ∧ d.cmd = c ∧ d.part = part ∧
        d.number = p.nextGrid % 2 ^ 32 ∧ d.status = .waiting ∧ d.dies = [] ∧ v.groups = s.groups ∧ v.mem = s.mem ∧
        ∃ q, tabGet? v.parts part = some q ∧ q.nextGrid = p.nextGrid + 1)

/-- R353: the signals complete: an arrive takes n from an object of the grid's die scratchpad and wakes the die's cores that run the grid
with code 8; a pre-empt asks every resident panel of the grid to save itself and wakes its cores with code 8; a die target within the
grid's range is noted; a grid that has ended gives status 5 (its detail 1 is the model's, log 53). -/
def Obligations.SignalsComplete : Prop :=
  ∀ (s : State) (h : CmdHdr) (x : Session) (part : Nat) (p : Partition) (number gid : Nat) (d : Grid),
    ForPartition h s x part p → h.opcode = 0x21 →
    (ForGrid h s x part p number gid d →
      let u := begun h s x part
      (∀ die addr n a, signalPlace d die addr = some a → 0 < n → n < 2 ^ 32 →
        exec (.signalArrive h number die addr n) s = .next (replied (settleWaits
          ((((u.groups.filter fun g => g.grid == gid && g.resident g.core && dieOfCore g.core == d.carrier die).map
            fun g => g.core).eraseDups.foldl (fun s k => wakeCore s k 8)
              (u.setMem (memWriteN u.mem a 8 (objDown (memReadN u.mem a 8) n)))))) h 0 [])) ∧
      exec (.signalPreempt h number) s = .next (replied
        ((d.panels.filter fun q => (u.panel q).status == .resident).foldl (fun s q =>
          ((panelResidents s q).map fun t => (s.team t).core).eraseDups.foldl (fun s k => wakeCore s k 8)
            (panelLeaves (savePanel s q 0) q)) u) h 0 []) ∧
      ∀ target, d.cmd.minDies ≤ target → target ≤ d.cmd.maxDies → exec (.signalDieTarget h number target) s =
        .next (replied (u.modGrid gid fun d => { d with target := some target }) h 0 [])) ∧
    (liveGrid (begun h s x part) part number = none →
      (∀ die addr n, exec (.signalArrive h number die addr n) s = .next (replied (begun h s x part) h 5 [1])) ∧
      exec (.signalPreempt h number) s = .next (replied (begun h s x part) h 5 [1]) ∧
      ∀ target, exec (.signalDieTarget h number target) s = .next (replied (begun h s x part) h 5 [1]))

/-- R322, R326, R350, R357: the commands of pages complete, their pages named by address or number as log 64 has it: a page comes to the
device with its bytes, goes to the host with its bytes once every segment translated to it is performed, translation entries are written and
the translations that rest on them or belong to the named pages leave the translation caches, every walk there starts again, complete once
their segments are performed (found at the end of a cluster's cycle, log 54), and a fault is resolved or rejected. A fault that is not there
is answered with status 5 (log 50) and detail 3 (log 53). -/
def Obligations.PageCommandsComplete : Prop :=
  ∀ (s : State) (h : CmdHdr) (x : Session) (part : Nat) (p : Partition), ForPartition h s x part p →
    let u := begun h s x part
    (∀ page size a f, h.opcode = 0x30 → leafOf s p page size = some (a, f) →
      (∀ bs : List Byte, bs.length = size → exec (.pageMigrateToDevice h page size bs) s = .next (replied
        (resolveAll (invalidate (u.setMem (setHost (memWriteBytes s.mem (f * 4096) bs) a size false)) p (page / 4096) (size / 4096)) p
          (page / 4096) (size / 4096)) h 0 [])) ∧
      let v := invalidate (u.setMem (setHost s.mem a size true)) p (page / 4096) (size / 4096)
      (pageBusy v part (page / 4096) (size / 4096) = false → exec (.pageMigrateToHost h page size) s =
        .next (replied v h 0 ((memBytes v.mem (f * 4096) size).map fun b => b.toNat))) ∧
      (pageBusy v part (page / 4096) (size / 4096) = true → exec (.pageMigrateToHost h page size) s = .next { v with
        pending := v.pending ++
          [{ session := h.session, opcode := 0x30, what := .page part (page / 4096) (size / 4096) (f * 4096) size }] })) ∧
    (∀ es ps, h.opcode = 0x31 → (∀ e ∈ es, e.1 % 8 = 0 ∧ inPartition p.cfg e.1 8 = true) →
      let old (v : Nat) : Bool := ps.contains v || restsOn u p (es.map fun e => e.1) v
      let busy := (busyPages u p).filter old
      ∃ v, v.mem = es.foldl (fun m e => memWriteN m e.1 8 e.2.toNat) s.mem ∧ v.groups = s.groups ∧ v.cores = s.cores ∧
        (∀ d ∈ p.cfg.dies, ∀ e, e ∈ (v.die d).tlb → e ∈ (s.die d).tlb ∧ (1 ≤ e.span → old e.page = false)) ∧
        (∀ d ∈ p.cfg.dies, (v.die d).walks = (s.die d).walks.map (fun w => { page := w.page, table := p.cfg.root }) ∧
          ∀ r, r ∈ (v.die d).requests ∨ r ∈ (v.die d).responses → ∀ e q, r.owner = .walk e q → e ∉ p.cfg.dies) ∧
        (busy = [] → exec (.tableUpdate h es ps) s = .next (replied v h 0 [])) ∧
        (busy ≠ [] → exec (.tableUpdate h es ps) s = .next { v with
          pending := v.pending ++ [{ session := h.session, opcode := 0x31, what := .segments part busy.eraseDups }] })) ∧
    ∀ die page, h.opcode = 0x32 → die ∈ p.cfg.dies →
      ((∃ f ∈ (s.die die).faults, f.page = page) →
        exec (.faultAnswerResolve h die page) s = .next (replied (resolvePage u die page) h 0 []) ∧
        exec (.faultAnswerReject h die page) s = .next (replied (rejectPage u die page) h 0 [])) ∧
      ((∀ f ∈ (s.die die).faults, f.page ≠ page) →
        exec (.faultAnswerResolve h die page) s = .next (replied u h 5 [3]) ∧
        exec (.faultAnswerReject h die page) s = .next (replied u h 5 [3]))

/-- R366 to R371: the debug commands complete on teams that exist. A stop asks every live group of the teams for a debug stop and is
answered when they have stopped; a step releases them with a stop armed and is answered so too; a resume wakes their cores with code 7 at
once; a recording begins, or ends where the length is 0, once what has been raised is written, and bit 5 of a trace's mask selects nothing
(log 103); over a stop that is not complete a second one is refused with status 3. -/
def Obligations.DebugCommandsComplete : Prop :=
  ∀ (s : State) (h : CmdHdr) (x : Session) (part : Nat) (p : Partition) (t : DebugTarget) (g q : Nat) (ts : List Nat),
    ForPartition h s x part p → h.opcode = 0x60 → debugTeams (begun h s x part) part t = some (g, q, ts) →
    let u := begun h s x part
    let busy := u.pending.any fun w => match w.what with | .teams _ _ us => us.any ts.contains | _ => false
    let v : State := { u with pending := u.pending ++ [{ session := h.session, opcode := 0x60, what := .teams g q ts }] }
    (busy = false →
      exec (.debugStop h t) s = .next (requestStop v ts) ∧
      exec (.debugStep h t) s = .next (ts.foldl (fun s x => s.modTeam x fun y => { y with armed := true }) (resumeTeams v ts))) ∧
    (busy = true →
      exec (.debugStop h t) s = .next (replied u h 3 []) ∧ exec (.debugStep h t) s = .next (replied u h 3 [])) ∧
    exec (.debugResume h t) s = .next (replied (resumeTeams u ts) h 0 []) ∧
    ∀ base len n, base % 64 = 0 → len % 64 = 0 → len = 0 ∨ 4096 ≤ len ∧ inPartition p.cfg base len = true →
      let w := u.writeRecords fun _ => true
      let rest (samples : Bool) := w.recordings.filter fun r => !(r.part == part && sameTeams r.target t && r.mask.testBit 5 == samples)
      let put (samples : Bool) (r : Recording) : State :=
        replied { w with recordings := if len = 0 then rest samples else rest samples ++ [r] } h 0 []
      (n < 64 → exec (.debugTrace h t base len n) s =
        .next (put false { target := t, part := part, base := base, len := len, mask := n % 32 })) ∧
      (n ≤ 24 → exec (.debugTimeLoss h t base len n) s =
        .next (put true { target := t, part := part, base := base, len := len, mask := 32, every := n }))

/-- R358, R362, R364: a readback of items that are the session's target's own completes with their values, where an answer can hold them
(R348), else with status 4; one that names another's, or what does not exist, is refused with status 2 (log 50), the values standing in the
order of the items (log 53); a nonce of 32 to 64 bytes is answered with a signed quote, laid out as log 55 has it, after a failed boot too.
An access of a peer that the partition's record names reads, writes or updates the bytes its address leads to, an update leaving the
operation's result on the old ones, rounded to the nearest even (log 56); one of any other peer is refused; an acknowledgement counts the
operation, and a refusal or the timeout fails it, the first to come standing, and kept until its die's clocks run (R305, log 72). -/
def Obligations.ReadbackQuotesAndPeersComplete : Prop :=
  (∀ (s : State) (h : CmdHdr) (x : Session) (items : List ReadItem) (nonce : List Byte),
    let u := match x.target with
      | some part => begun h s x part
      | none => took h s x
    let body := items.flatMap fun i => itemValue u i
    (Accepted h s x → h.opcode = 0x40 → (∀ i ∈ items, itemOwner u i = some x.target) →
      (body.length ≤ 2 ^ 24 → ∃ t, exec (.readback h items) s = .next (replied t h 0 body) ∧ { t with recordings := s.recordings } = u) ∧
      (2 ^ 24 < body.length → exec (.readback h items) s = .next (replied u h 4 []))) ∧
    (Accepted h s x → h.opcode = 0x40 → (∃ i ∈ items, itemOwner u i ≠ some x.target) →
      exec (.readback h items) s = .next (replied u h 2 [])) ∧
    (s.powered = true → 32 ≤ nonce.length → nonce.length ≤ 64 → exec (.attestationQuote nonce) s =
      .next { s with quotes := s.quotes ++ [nonce ++ quoteBody s ++ Config.identitySign s.flash.helper (nonce ++ quoteBody s)] })) ∧
  (∀ (s : State) (part peer addr idx : Nat) (p : Partition) (data : List Byte),
    (tabGet? s.parts part = some p →
      let u := restartWatchdogs s part
      let read (as : List Nat) : List Byte := as.map fun a => memRead s.mem a
      let written (as : List Nat) (bs : List Byte) : Memory := (as.zip bs).foldl (fun m x => memWrite m x.1 x.2) s.mem
      (peer ∉ p.cfg.peers → ∀ acc, exec (.peerInboundAccess part peer addr acc) s = .next
        { u with peerReplies := s.peerReplies ++ [{ part := part, peer := peer, ok := false, data := [] }] }) ∧
      (peer ∈ p.cfg.peers →
        (∀ n as, peerBytes u part addr n false = some as → exec (.peerInboundAccess part peer addr (.read n)) s = .next
          { u with peerReplies := s.peerReplies ++ [{ part := part, peer := peer, ok := true, data := read as }] }) ∧
        (∀ as, peerBytes u part addr data.length true = some as → exec (.peerInboundAccess part peer addr (.write data)) s = .next
          { u with mem := written as data,
                   peerReplies := s.peerReplies ++ [{ part := part, peer := peer, ok := true, data := [] }] }) ∧
        ∀ op t b c as, peerBytes u part addr t.bytes true = some as →
          let new := (atomNew (Arith.of 0) op t (bytesNat (read as)) b.toNat c.toNat).1
          exec (.peerInboundAccess part peer addr (.update op t b c)) s = .next
            { u with mem := written as ((List.range t.bytes).map fun i => BitVec.ofNat 8 (new / 256 ^ i)),
                     peerReplies := s.peerReplies ++ [{ part := part, peer := peer, ok := true, data := read as }] })) ∧
    ∀ r, s.peerTraffic[idx]? = some r →
      let u : State := { s with peerTraffic := s.peerTraffic.eraseIdx idx }
      let still := (s.die (r.owner.die s)).stopped
      (∀ refused, let a := r.reply.getD (data, refused)
        (still = false → (a.2 = false → exec (.peerAcknowledge idx data refused) s = .next (peerDone u r.acc r.owner a.1)) ∧
          (a.2 = true → exec (.peerAcknowledge idx data refused) s = .next (peerFailed u r.owner))) ∧
        (still = true → exec (.peerAcknowledge idx data refused) s =
          .next { s with peerTraffic := s.peerTraffic.set idx { r with reply := some a } })) ∧
      ∀ q, tabGet? s.parts r.part = some q → q.cfg.faultTimeout ≠ 0 → r.since + q.cfg.faultTimeout ≤ s.gtime.toNat → r.reply = none →
        exec (.peerNoAcknowledgeTimeout idx) s = .next (peerFailed u r.owner))


/-! ### Rules of the whole machine -/

/-- R92, R93: the integer results. With a, b and c read by type, x, y and z the operands' bits and w the type's width, W(v) is v mod 2^w in
two's complement; every row of the table writes the value the rule gives, division by 0 gives 0 and the remainder a, shifts by w or more
give 0 or the sign, and the fields of `bfe` and `bfi` are those of the low and second byte of the 32-bit B operand. `movi` writes its
immediate as its type reads it, `.f32` as the code itself (R95). -/
def Obligations.IntegerResultsAreTheRules : Prop :=
  (∀ k, resMovi .f32 k = k.toNat) ∧
  ∀ (t : Ty), t ∈ [Ty.s32, Ty.n32, Ty.s64, Ty.n64, Ty.b32, Ty.b64] →
    let w := tyIntBits t
    ∀ (x y z : BitVec w) (k : BitVec 32) (scale : Nat),
      let signed : Bool := t == .s32 || t == .s64
      let val (v : BitVec w) : Int := if signed then v.toInt else (v.toNat : Int)
      let W (v : Int) : Nat := (BitVec.ofInt w v).toNat
      let lo : Int := if signed then -2 ^ (w - 1) else 0
      let hi : Int := if signed then 2 ^ (w - 1) - 1 else 2 ^ w - 1
      let a := val x
      let b := val y
      let n := k.toNat
      let pos := n % 256
      let len := min (n / 256 % 256) w
      (w = 32 ∨ w = 64) ∧
      resAdd t false x.toNat y.toNat = W (a + b) ∧ resAdd t true x.toNat y.toNat = W (max lo (min hi (a + b))) ∧
      resSub t false x.toNat y.toNat = W (a - b) ∧ resSub t true x.toNat y.toNat = W (max lo (min hi (a - b))) ∧
      resMul t x.toNat y.toNat = W (a * b) ∧ resMulhi t x.toNat y.toNat = W (a * b / 2 ^ w) ∧
      resMad t x.toNat y.toNat z.toNat = W (a * b + val z) ∧ resMadhi t x.toNat y.toNat z.toNat = W ((a * b + val z) / 2 ^ w) ∧
      resDiv t x.toNat y.toNat = (if signed then x.sdiv y else x / y).toNat ∧
      resRem t x.toNat y.toNat = (if signed then x.srem y else x % y).toNat ∧
      resNeg t x.toNat = W (-a) ∧ resAbs t x.toNat = W |a| ∧
      resMin t x.toNat y.toNat = (if a ≤ b then x else y).toNat ∧ resMax t x.toNat y.toNat = (if a ≤ b then y else x).toNat ∧
      resShl t x.toNat n = (x <<< n).toNat ∧ resShr t x.toNat n = (x >>> n).toNat ∧ resSar t x.toNat n = (x.sshiftRight n).toNat ∧
      resRot t x.toNat n = (x.rotateLeft n).toNat ∧
      resAnd x.toNat y.toNat = (x &&& y).toNat ∧ resOr x.toNat y.toNat = (x ||| y).toNat ∧ resXor x.toNat y.toNat = (x ^^^ y).toNat ∧
      resAndn t x.toNat y.toNat = (x &&& ~~~y).toNat ∧ resNot t x.toNat = (~~~x).toNat ∧
      resPop t x.toNat = ((List.range w).filter fun i => x.getLsbD i).length ∧
      (resClz t x.toNat ≤ w ∧ (∀ i, w - resClz t x.toNat ≤ i → x.getLsbD i = false) ∧
        (resClz t x.toNat < w → x.getLsbD (w - 1 - resClz t x.toNat) = true)) ∧
      (resCtz t x.toNat ≤ w ∧ (∀ i, i < resCtz t x.toNat → x.getLsbD i = false) ∧
        (resCtz t x.toNat < w → x.getLsbD (resCtz t x.toNat) = true)) ∧
      (∀ i, i < w → (resBrev t x.toNat).testBit i = x.getLsbD (w - 1 - i)) ∧
      resLea t scale x.toNat y.toNat = W (a + b * 2 ^ scale) ∧
      (∀ i, i < w → (resBfe t x.toNat n).testBit i =
        if i < len then x.getLsbD (pos + i) else signed && decide (0 < len) && x.getLsbD (pos + len - 1)) ∧
      resBfe t x.toNat n < 2 ^ w ∧
      (∀ i, i < w → (resBfi t x.toNat n z.toNat).testBit i =
        if pos ≤ i ∧ i < pos + len then x.getLsbD (i - pos) else z.getLsbD i) ∧
      resBfi t x.toNat n z.toNat < 2 ^ w ∧
      resSel x.toNat y.toNat n = (if k = 0 then y else x).toNat ∧
      resMovi t k = (if t = .s64 ∨ t = .b64 then (k.signExtend 64).toNat else k.toNat) ∧
      ∀ cond, resCmp t cond x.toNat y.toNat = match cond with
        | .eq => decide (a = b)
        | .ne => decide (a ≠ b)
        | .lt => decide (a < b)
        | .le => decide (a ≤ b)
        | .gt => decide (b < a)
        | .ge => decide (b ≤ a)

/-- R47, R49, R50: the floating formats and their codes; R59 to R61, R63: the one rounding of every floating result, for every format, mode
and fout: a nonzero exact value becomes the code and flags that the value rounded with unbounded exponent decides, overflow by the table of
R60, a tiny one rounded to the denormal grid or flushed; an exact zero keeps its sign and raises nothing. Numbers, infinities, NaNs, the
canonical NaN and the largest numbers are coded as the tables have them: the widths of exponent and fraction and the bias of each format,
its smallest normal and denormal, and the eight non-negative `.m4` values. "The MX element formats have no infinity and no NaN." -/
def Obligations.RoundingIsTheRule : Prop :=
  (∀ (t : Ty) (f : FloatFmt) (a : Arith) (neg : Bool) (n d : Nat) (e : Int), tyFmt t = some f → 0 < d →
    (0 < n → f.Rounds a neg ((n : ℚ) / d * 2 ^ e) (f.round a neg n d e)) ∧
    (n = 0 → f.Stands (f.round a neg n d e).1 neg 0 ∧ (f.round a neg n d e).2 = 0)) ∧
  (∀ (t : Ty) (f : FloatFmt) (x : Nat), tyFmt t = some f → x < 2 ^ f.width →
    let top := 2 ^ f.ebits - 1
    let field := x / 2 ^ f.fbits % 2 ^ f.ebits
    let frac := x % 2 ^ f.fbits
    let neg := decide (2 ^ (f.width - 1) ≤ x)
    let v := f.decode x
    v.neg = neg ∧
    (field = 0 → v.isNum = true ∧ v.value = (if neg then -1 else 1) * frac / 2 ^ f.fbits * 2 ^ (1 - f.bias)) ∧
    (0 < field → field < top ∨ f.kind = .finite ∨ f.kind = .nanOnly ∧ frac ≠ 2 ^ f.fbits - 1 →
      v.isNum = true ∧ v.value = (if neg then -1 else 1) * (1 + frac / 2 ^ f.fbits) * 2 ^ (field - f.bias)) ∧
    (field = top → f.kind = .nanOnly → frac = 2 ^ f.fbits - 1 → v.isNaN = true ∧ v.isSNaN = false) ∧
    (field = top → f.kind = .ieee → (frac = 0 → v = .inf neg) ∧
      (frac ≠ 0 → v.isNaN = true ∧ (v.isSNaN = true ↔ frac < 2 ^ (f.fbits - 1))))) ∧
  ((tyFloat .f32).canonicalNaN, (tyFloat .f16).canonicalNaN, (tyFloat .bf16).canonicalNaN, (tyFloat .e5m2).canonicalNaN,
    (tyFloat .e4m3).canonicalNaN) = (0x7FC00000, 0x7E00, 0x7FC0, 0x7E, 0x7F) ∧
  ((tyFloat .f32).largest false, (tyFloat .f16).largest false, (tyFloat .bf16).largest false, (tyFloat .e5m2).largest false,
    (tyFloat .e4m3).largest false) = (0x7F7FFFFF, 0x7BFF, 0x7F7F, 0x7B, 0x7E) ∧
  ((tyFloat .e4m3).top, (tyFloat .e5m2).top, (tyFloat .m6a).top, (tyFloat .m6b).top, (tyFloat .m4).top) = (448, 57344, 15 / 2, 28, 6) ∧
  (∀ (t : Ty) (f : FloatFmt), tyFmt t = some f →
    (t, f.ebits, f.fbits, f.bias) ∈ [(Ty.f32, 8, 23, (127 : Int)), (.f16, 5, 10, 15), (.bf16, 8, 7, 127), (.e4m3, 4, 3, 7), (.e5m2, 5, 2, 15),
      (.m6a, 2, 3, 1), (.m6b, 3, 2, 3), (.m4, 2, 1, 1)] ∧ f.width = 1 + f.ebits + f.fbits ∧
    (f.kind = .finite ↔ t ∈ [Ty.m6a, .m6b, .m4]) ∧ (f.kind = .nanOnly ↔ t = .e4m3) ∧
    (f.decode (2 ^ f.fbits)).value = 2 ^ (1 - f.bias) ∧ (f.decode 1).value = 2 ^ (1 - f.bias - f.fbits) ∧
    (∀ x, f.kind = .finite → (f.decode x).isNum = true)) ∧
  (List.range 8).map (fun x => ((tyFloat .m4).decode x).value) = [0, 1 / 2, 1, 3 / 2, 2, 3, 4, 6]

/-- R48, R59 to R62, R64, R66, R67, R97 to R100: the floating results. A denormal operand is read as zero of its sign under fin. A sum,
difference, product or fused sum is the exact value rounded once in the slice's mode, sat ignored; a NaN operand selects the NaN of R62, an
invalid operation gives the canonical one; `fmin` and `fmax` return the code of the operand they choose; `fabs` and `fneg` change the sign
bit; `fclass` sets the bit of its class; `fcmp` is the truth of its condition and raises invalid as its column says; the packed forms
treat their halves apart. -/
def Obligations.FloatResultsAreTheRules : Prop :=
  ∀ (t : Ty) (s : Arith) (a b c : Nat), t ∈ [Ty.f32, Ty.f16, Ty.bf16] →
    let f := tyFloat t
    let code (v : Nat) : Nat := v % 2 ^ f.width
    let flushed (v : Nat) : Prop := s.fin = true ∧ f.isDenormal (code v) = true
    let x := rdFloat t s a
    let y := rdFloat t s b
    let z := rdFloat t s c
    let u := s.unsat
    let nan (cs : List Nat) (bad : Bool) : Nat × FlagSet :=
      (f.picked s.nan (cs.map code), flagIf (bad || cs.any fun v => (f.decode (code v)).isSNaN) flagInvalid)
    let unordered := x.isNaN || y.isNaN
    let signals := x.isSNaN || y.isSNaN
    (∀ v, (flushed v → rdFloat t s v = .num (f.decode (code v)).neg 0 0) ∧ (¬ flushed v → rdFloat t s v = f.decode (code v))) ∧
    (if unordered then resFadd t s a b = nan [a, b] false ∧ resFsub t s a b = nan [a, b] false ∧ resFmul t s a b = nan [a, b] false
      else f.SumIs u x y (resFadd t s a b) ∧ f.SumIs u x y.negate (resFsub t s a b) ∧ f.ProductIs u x y (resFmul t s a b)) ∧
    (if unordered || z.isNaN then resFma t s a b c = nan [a, b, c] (badProduct x y) else f.FusedIs u x y z (resFma t s a b c)) ∧
    (if unordered then
        resFmin t s a b = (f.canonicalNaN, flagIf signals flagInvalid) ∧ resFmax t s a b = (f.canonicalNaN, flagIf signals flagInvalid)
      else
        let least := if y.below x then b else a
        let most := if y.below x then a else b
        (¬ flushed least → resFmin t s a b = (code least, 0)) ∧
        (flushed least → resFmin t s a b = (f.signBit (f.decode (code least)).neg, 0)) ∧
        (¬ flushed most → resFmax t s a b = (code most, 0)) ∧
        (flushed most → resFmax t s a b = (f.signBit (f.decode (code most)).neg, 0))) ∧
    (∀ i, (resFabs t a).testBit i = (decide (i + 1 < f.width) && a.testBit i) ∧
      (resFneg t a).testBit i = (decide (i < f.width) && (a.testBit i != decide (i + 1 = f.width)))) ∧
    (let v := f.decode (code a)
     ∃ k, resFclass t a = 2 ^ k ∧ k < 10 ∧ (k = 0 ↔ v = .inf true) ∧ (k = 7 ↔ v = .inf false) ∧
      (k = 8 ↔ v.isSNaN = true) ∧ (k = 9 ↔ v.isNaN = true ∧ v.isSNaN = false) ∧
      (k = 3 ↔ v.isNum = true ∧ v.value = 0 ∧ v.neg = true) ∧ (k = 4 ↔ v.isNum = true ∧ v.value = 0 ∧ v.neg = false) ∧
      (k = 2 ↔ v.value < 0 ∧ -2 ^ f.emin < v.value) ∧ (k = 5 ↔ 0 < v.value ∧ v.value < 2 ^ f.emin) ∧
      (k = 1 ↔ v.value ≤ -2 ^ f.emin) ∧ (k = 6 ↔ 2 ^ f.emin ≤ v.value)) ∧
    (∀ cond, resFcmp t s cond a b =
      (match cond with
        | .eq => !unordered && !x.less y && !y.less x
        | .ne => unordered || x.less y || y.less x
        | .lt => !unordered && x.less y
        | .le => !unordered && !y.less x
        | .gt => !unordered && y.less x
        | .ge => !unordered && !x.less y
        | .un => unordered
        | .ord => !unordered,
       flagIf (match cond with | .lt | .le | .gt | .ge => unordered | _ => signals) flagInvalid)) ∧
    (t ≠ .f32 →
      let both (r : Nat × FlagSet) (lo hi : Nat × FlagSet) : Prop := r.1 % 65536 = lo.1 ∧ r.1 / 65536 = hi.1 ∧ r.2 = lo.2 ||| hi.2
      let lo (v : Nat) : Nat := v % 65536
      let hi (v : Nat) : Nat := v / 65536 % 65536
      both (resHadd2 t s a b) (resFadd t s (lo a) (lo b)) (resFadd t s (hi a) (hi b)) ∧
      both (resHmul2 t s a b) (resFmul t s (lo a) (lo b)) (resFmul t s (hi a) (hi b)) ∧
      both (resHfma2 t s a b c) (resFma t s (lo a) (lo b) (lo c)) (resFma t s (hi a) (hi b) (hi c)))

/-- R52, R59 to R63, R104 to R109: the conversion results (the model's readings: `.m6a` to `.e5m2` rounds, log 13; `unpack` reads its
element under fin, log 15; `sp24` ranks its elements without fin, log 80). `cvt`, `pack` and `unpack` convert by R63 and
lay the code out as their entries say; `cvt.rint` rounds to an integral value in the mode and keeps the sign; the scale of an `mxq` block is
the clamped exponent of its greatest magnitude, 0xFF where it holds a NaN or an infinity, and a code is its element over the scale, rounded;
`mxdq` is the element times its scale; `sp24` keeps the two elements of each group that outrank the others, with their positions. -/
def Obligations.ConversionResultsAreTheRules : Prop :=
  let narrow (t : Ty) (x : Nat) : Nat := if t ∈ [Ty.s8, Ty.s16, Ty.i4] then ((BitVec.ofNat (tyIntBits t) x).signExtend 32).toNat else x
  (∀ (dt st : Ty) (s : Arith) (x : Nat),
    let types := [Ty.s8, .n8, .s16, .n16, .s32, .n32, .s64, .n64, .f32, .f16, .bf16, .e4m3, .e5m2, .m6a, .m6b, .m4, .i4]
    dt ∈ types → st ∈ types → dt ≠ st → ∃ r, Converted s dt st x r ∧ resCvt s dt st false x = (narrow dt r.1, r.2)) ∧
  (∀ (t : Ty) (s : Arith) (x : Nat), t ∈ [Ty.f32, .f16, .bf16] →
    let f := tyFloat t
    let r := resCvt s t t true x
    match rdFloat t s x with
    | .nan _ _ _ sn => r = (f.picked s.nan [x % 2 ^ f.width], flagIf sn flagInvalid)
    | .inf neg => f.Infinite r.1 neg ∧ r.2 = 0
    | .num neg m e => ∃ k : Nat, Chosen s.mode neg (m * 2 ^ e) 1 k ∧ f.Stands r.1 neg k ∧ r.2 = if (k : ℚ) = m * 2 ^ e then 0 else flagInexact) ∧
  (∀ (t st : Ty) (s : Arith) (k a b c : Nat),
    t ∈ [Ty.f16, .bf16, .e4m3, .e5m2, .m4] ∧ st = .f32 ∨ t ∈ [Ty.s16, .n16, .s8, .n8, .i4] ∧ st ∈ [Ty.s32, .n32] →
    let n := tyCodeBits t
    let r := resPack s t st k a b c
    (2 * k + 2) * n ≤ 32 → ∃ x y, Converted s t st a x ∧ Converted s t st b y ∧ r.2 = x.2 ||| y.2 ∧ r.1 < 2 ^ 32 ∧
      element r.1 n (2 * k) = x.1 ∧ element r.1 n (2 * k + 1) = y.1 ∧
      ∀ i, i < 32 → i < 2 * k * n ∨ (2 * k + 2) * n ≤ i → r.1.testBit i = c.testBit i) ∧
  (∀ (t : Ty) (s : Arith) (k a : Nat), t ∈ [Ty.f16, .bf16, .e4m3, .e5m2, .m6a, .m6b, .m4, .s8, .n8, .s16, .n16, .i4] →
    let x := element a (tyCodeBits t) k
    match tyFmt t with
    | some f => fmt32.Converts f s (f.operand s x) (resUnpack s t k a)
    | none => resUnpack s t k a = (narrow t x, 0)) ∧
  (∀ (t : Ty) (s : Arith) (a sc : Nat) (v : FVal) (vs : List FVal), t ∈ [Ty.e4m3, .e5m2, .m6a, .m6b, .m4] →
    let f := tyFloat t
    let emax : Int := match t with | .m4 | .m6a => 2 | .m6b => 4 | .e4m3 => 8 | _ => 15
    ((∃ x ∈ vs, x.isNum = false) → mxScale t vs = (255, true)) ∧
    ((∀ x ∈ vs, x.isNum = true ∧ x.value = 0) → mxScale t vs = (127, false)) ∧
    (∀ E : Int, (∀ x ∈ vs, x.isNum = true ∧ |x.value| < 2 ^ (E + 1)) → (∃ x ∈ vs, 2 ^ E ≤ |x.value|) →
      mxScale t vs = ((max (-127) (min 127 (E - emax)) + 127).toNat, false)) ∧
    (v.isNum = true → f.Gives s (v.value * 2 ^ (127 - (sc : Int))) v.neg (mxCode t s sc v)) ∧
    (let scale := a / 256 % 256
     (scale = 255 → resMxdq s t a = (0x7FC00000, 0)) ∧
     (scale ≠ 255 → match f.operand s (a % 2 ^ f.width) with
       | .num neg m e => fmt32.Gives s ((FVal.num neg m e).value * 2 ^ ((scale : Int) - 127)) neg (resMxdq s t a)
       | x => fmt32.Converts f s x (resMxdq s t a)))) ∧
  ∀ (t : Ty) (a : Nat), t ∈ [Ty.e4m3, .e5m2, .s8, .n8, .m4, .i4] →
    let n := tyCodeBits t
    let groups := if n = 8 then 1 else 2
    let val (x : Nat) : FVal := match tyFmt t with
      | some f => f.decode x
      | none => .num false (if t.signed then (BitVec.ofNat n x).toInt.natAbs else x) 0
    resSp24 t a < 2 ^ (20 * groups - 16 * (groups - 1)) ∧
    ∀ g, g < groups → ∃ i j, i < j ∧ j < 4 ∧
      (∀ p q, p = i ∨ p = j → q < 4 → q ≠ i → q ≠ j → (val (element a n (4 * g + p))).Outranks (val (element a n (4 * g + q))) p q) ∧
      element (resSp24 t a) n (2 * g) = element a n (4 * g + i) ∧ element (resSp24 t a) n (2 * g + 1) = element a n (4 * g + j) ∧
      element (resSp24 t a) 4 (4 + g) = i + 4 * j

/-- R48, R59 to R62, R101 to R103: the transcendental results, rounded once to the nearest even whatever the mode, sat 0. Special operands
give the table of R103 with its flags and no other; any other operand gives the z of R102, its reduced argument entering exactly, over
`Kernel` of R101, the quadratic through its three points. The points are the rounded ones, within half a unit of 2^30 times the function's
exact value, with the limits of R102 at 0. -/
def Obligations.TranscendentalResultsAreTheRules : Prop :=
  (∀ (k : Kern) (m n : Nat), m < 2 ^ n →
    let U := m * 2 ^ 23 / 2 ^ n
    let h : Int := ((U % 65536 : Nat) : Int)
    let y (i : Nat) : Int := kernPoint k (2 * (U / 65536) + i)
    U < 2 ^ 23 ∧ kernel k m n = y 0 * 2 ^ 32 + (4 * y 1 - 3 * y 0 - y 2) * h * 2 ^ 16 + (2 * y 0 - 4 * y 1 + 2 * y 2) * h * h) ∧
  (∀ i, i ≤ 256 →
    let near (y : Nat) (k : Nat) (num den : Nat) : Prop := (2 * y - 1) ^ k * den ≤ 2 ^ k * num ∧ 2 ^ k * num ≤ (2 * y + 1) ^ k * den
    near (kernPoint .rcp i) 1 (2 ^ 38) (256 + i) ∧
    near (kernPoint .rsqEven i) 2 (2 ^ 68) (256 + i) ∧ near (kernPoint .rsqOdd i) 2 (2 ^ 67) (256 + i) ∧
    near (kernPoint .sqrtEven i) 2 (2 ^ 52 * (256 + i)) 1 ∧ near (kernPoint .sqrtOdd i) 2 (2 ^ 53 * (256 + i)) 1 ∧
    near (kernPoint .exp2 i) 256 (2 ^ (30 * 256 + i)) 1) ∧
  (kernPoint .log2 0, kernPoint .log2 256, kernPoint .sin 0, kernPoint .sin 256, kernPoint .cos 0, kernPoint .cos 256, kernPoint .tanh 0) =
    (1549082005, 2 ^ 30, 1686629713, 2 ^ 30, 2 ^ 30, 0, 2 ^ 30) ∧
  (∀ i : Nat, 0 < i → i ≤ 256 →
    let u : ℝ := i / 256
    let near (y : Nat) (v : ℝ) : Prop := |(y : ℝ) - 2 ^ 30 * v| ≤ 1 / 2
    near (kernPoint .log2 i) (Real.logb 2 (1 + u) / u) ∧ near (kernPoint .sin i) (Real.sin (Real.pi * u / 2) / u) ∧
    near (kernPoint .cos i) (Real.cos (Real.pi * u / 2)) ∧ near (kernPoint .tanh i) (Real.tanh (u / 2) / (u / 2))) ∧
  ∀ (k : Trans) (t : Ty) (s : Arith) (a : Nat), t ∈ [Ty.f32, .f16, .bf16] →
    let f := tyFloat t
    let r := resTrans k t s a
    let ne : Arith := { s with mode := .rne, sat := false }
    let zero (neg : Bool) : Prop := f.Stands r.1 neg 0 ∧ r.2 = 0
    let one (neg : Bool) : Prop := f.Stands r.1 neg 1 ∧ r.2 = 0
    let inf (neg : Bool) (fl : FlagSet) : Prop := f.Infinite r.1 neg ∧ r.2 = fl
    let bad : Prop := r = (f.canonicalNaN, flagInvalid)
    let P (k : Kern) (m n : Nat) : ℚ := kernel k m n / 2 ^ 62
    let exp2 (v z : ℚ) : Prop := ∃ (i : Int) (m n : Nat), m < 2 ^ n ∧ v = i + m / 2 ^ n ∧ z = P .exp2 m n * 2 ^ i
    match rdFloat t s a with
    | .nan _ _ _ sn => r = (f.picked s.nan [a % 2 ^ f.width], flagIf sn flagInvalid)
    | .inf neg =>
      (match k with
        | .rcp => zero neg
        | .rsq => if neg then bad else zero false
        | .sqrt | .log2 => if neg then bad else inf false 0
        | .exp2 => if neg then zero false else inf false 0
        | .sinpi | .cospi => bad
        | .tanh => one neg)
    | .num neg m0 e0 =>
      let v : ℚ := (FVal.num neg m0 e0).value
      if v = 0 then
        (match k with
          | .rcp | .rsq => inf neg flagDivZero
          | .sqrt | .sinpi | .tanh => zero neg
          | .exp2 | .cospi => one false
          | .log2 => inf true flagDivZero)
      else if neg = true ∧ k ∈ [Trans.rsq, .sqrt, .log2] then bad
      else if k = .tanh ∧ 9 ≤ |v| then f.Stands r.1 neg 1 ∧ r.2 = flagInexact
      else ∃ z : ℚ, f.Gives ne z false r ∧
        ∃ (m n : Nat) (e : Int), m < 2 ^ n ∧ |v| = (1 + m / 2 ^ n) * 2 ^ e ∧
        (match k with
          | .rcp => z = (if neg then -1 else 1) * P .rcp m n * 2 ^ (-e)
          | .rsq => z = P (if e % 2 = 0 then .rsqEven else .rsqOdd) m n * 2 ^ (-(e / 2))
          | .sqrt => z = P (if e % 2 = 0 then .sqrtEven else .sqrtOdd) m n * 2 ^ (e / 2)
          | .exp2 => exp2 v z
          | .log2 => z = e + m / 2 ^ n * P .log2 m n
          | .sinpi | .cospi => ∃ (j : Int) (q i w : Nat), q < 4 ∧ i < 2 ^ w ∧ 2 * v = 4 * j + q + i / 2 ^ w ∧
              let sin := i / 2 ^ w * P .sin i w
              let cos := P .cos i w
              (match (if k = .sinpi then q else q + 1) % 4 with
                | 0 => z = sin
                | 1 => z = cos
                | 2 => z = -sin
                | _ => z = -cos)
          | .tanh =>
            if |v| < 1 / 2 then ∃ i w : Nat, i < 2 ^ w ∧ 2 * |v| = i / 2 ^ w ∧ z = v * P .tanh i w
            else ∃ (c : Nat × FlagSet) (E : ℚ), fmt32.Gives ⟨.rne, false, false, false, false⟩ (|v| * (0xB8AA3B / 2 ^ 22)) false c ∧
              exp2 (-(fmt32.decode c.1).value) E ∧ z = (if neg then -1 else 1) * ((1 - E) / (1 + E)))

/-- R34, R35, R36, R144: the life of a name. A read consumes one use per appearance on each lane it reads for whose pin is 0, and the cell
is freed when every count and pin is 0; the image of a spilled one is written anew; a write on some lanes gives them the data and the use
field, 0 pinning them, binds the name with zeros on the other lanes where it was unbound, and leaves them as they are where it was bound;
no other name changes. -/
def Obligations.UsesAreCounted : Prop :=
  ∀ (sl : Slice) (n : BitVec 9),
    (∀ (rs : List NameRead) (c : Cell), (sl.names.map fun e => e.1).Nodup → sl.cell n.toNat = some c →
      let uses (l : Nat) : BitVec 3 :=
        if c.pin.get l then c.count.get l else c.count.get l - BitVec.ofNat 3 (sl.appearances rs l n)
      let read := rs.any fun r => r.src.name == n
      let left : Cell := { c with count := Quad.make uses, spilling := c.spilling || read && c.spilled }
      (sl.consumeAll rs).cell n.toNat = if left.allZero && read then none else some left) ∧
    (∀ (rs : List NameRead), sl.cell n.toNat = none → (sl.consumeAll rs).cell n.toNat = none) ∧
    ∀ (uses : BitVec 3) (mask : BitVec 4) (data : Nat → Word32) (full : Bool) (stamp : Nat),
      (mask = 0 → sl.writeName n.toNat uses mask data full stamp = sl) ∧
      (mask ≠ 0 → ∃ c, (sl.writeName n.toNat uses mask data full stamp).cell n.toNat = some c ∧ c.full = full ∧ c.failed = none ∧
        ∀ l, l < 4 →
          (mask.getLsbD l = true → c.data.get l = data l ∧ c.count.get l = uses ∧ c.pin.get l = (uses == 0)) ∧
          (mask.getLsbD l = false → c.data.get l = sl.datum l n.toNat ∧
            (sl.cell n.toNat = none → c.count.get l = 0 ∧ c.pin.get l = false) ∧
            ∀ k, sl.cell n.toNat = some k → c.count.get l = k.count.get l ∧ c.pin.get l = k.pin.get l)) ∧
      ∀ m, m ≠ n.toNat → (sl.writeName n.toNat uses mask data full stamp).cell m = sl.cell m

/-- R36, R37, R75, R140, R242: an operand that is not at hand stops an integer, address, floating, transcendental, conversion, packing or
compare instruction, `ld`, `st` or `atom` before it changes any state. A lane with too few uses left gives the exhausted-name trap, an empty
cell read with its trap bit the empty-read trap (also one whose producer failed, log 18), a cell whose producer failed its machine check; an
empty or spilled cell holds the gang, which changes its marks and wants and nothing else. -/
def Obligations.NamesStopTheirReaders : Prop :=
  ∀ (s : State) (c : Issue) (p : Pred) (d : Dst) (a : Src) (b : OpB) (x y : Src) (t st : Ty) (qd : BitVec 4) (m : Mem) (n : BitVec 2),
    issueOf s = some c →
    let stops (names : List Nat) (rs : List NameRead) (regs : List (BitVec 6)) (i : Instr) : Prop :=
      let ds := names.map fun n => (p, n)
      ((∃ j ∈ c.sls, (c.g.slices.get j).exhausted rs = true) → exec i s = .next (trapEntry s c.gid { cause := 4 } c.sls)) ∧
      ((∀ j ∈ c.sls, (c.g.slices.get j).exhausted rs = false) → (∃ j ∈ c.sls, (c.g.slices.get j).emptyRead rs = true) →
        exec i s = .next (trapEntry s c.gid { cause := 5 } c.sls)) ∧
      ((∀ j ∈ c.sls, (c.g.slices.get j).exhausted rs = false ∧ (c.g.slices.get j).emptyRead rs = false) →
        (∀ f, nameTrap c rs ds = some f → f.cause = 11 ∧ exec i s = .next (trapEntry s c.gid f c.sls)) ∧
        (nameTrap c rs ds = none → c.failedReg regs = none → mustWait c rs [] = true →
          exec i s = .next (s.modGroup c.gid fun g =>
            { g with held := g.held ||| BitVec.ofNat 8 (2 ^ c.gang.toNat), wants := (g.wants ++ wantsOf c rs []).eraseDups,
                     wantStamps := g.stampWants s.tick (wantsOf c rs []) })))
    let ra (wide : Bool) := readsOf p wide a
    let rb (wide : Bool) := opbReads b p wide
    let rx (wide : Bool) := readsOf p wide x
    let wide := destNames t.wide d
    let narrow := destNames false d
    let all (names : List Nat) (rs : List NameRead) (regs : List (BitVec 6)) (is : List Instr) : Prop := ∀ i ∈ is, stops names rs regs i
    let count := 2 ^ n.toNat
    (∀ sat, all wide (ra t.wide ++ rb t.wide) (opbRegs b) [.add p d a b t sat, .sub p d a b t sat]) ∧
    all wide (ra t.wide ++ rb t.wide) (opbRegs b)
      [.mul p d a b t, .mulhi p d a b t, .div p d a b t, .rem p d a b t, .min p d a b t, .max p d a b t, .and p d a b t, .or p d a b t,
       .xor p d a b t, .andn p d a b t] ∧
    (∀ scale, stops wide (ra t.wide ++ rb t.wide) (opbRegs b) (.lea p d a b t scale)) ∧
    all wide (ra t.wide ++ rb false) (opbRegs b) [.shl p d a b t, .shr p d a b t, .sar p d a b t, .rot p d a b t, .bfe p d a b t] ∧
    all wide (ra t.wide ++ rb t.wide ++ rx t.wide) (opbRegs b) [.mad p d a b x t, .madhi p d a b x t] ∧
    stops wide (ra t.wide ++ rb false ++ rx t.wide) (opbRegs b) (.bfi p d a b x t) ∧
    stops wide (ra t.wide ++ rb t.wide ++ rx false) (opbRegs b) (.sel p d a b x t) ∧
    stops wide (rb t.wide) (opbRegs b) (.mov p d b t) ∧
    all wide (ra t.wide) [] [.neg p d a t, .abs p d a t, .not p d a t, .brev p d a t] ∧
    all narrow (ra t.wide) [] [.pop p d a t, .clz p d a t, .ctz p d a t] ∧
    all narrow (ra false ++ rb false) (opbRegs b)
      [.fadd p d a b t, .fsub p d a b t, .fmul p d a b t, .fmin p d a b t, .fmax p d a b t, .hadd2 p d a b t, .hmul2 p d a b t] ∧
    all narrow (ra false ++ rb false ++ rx false) (opbRegs b) [.fma p d a b x t, .hfma2 p d a b x t] ∧
    all narrow (ra false) [] [.fabs p d a t, .fneg p d a t, .fclass p d a t, .frcp p d a t, .frsq p d a t, .fsqrt p d a t, .fexp2 p d a t,
      .flog2 p d a t, .fsinpi p d a t, .fcospi p d a t, .ftanh p d a t, .mxq p d a t st, .mxdq p d a t, .sp24 p d a t] ∧
    (∀ rint, stops wide (ra st.wide) [] (.cvt p d a t st rint)) ∧
    (∀ k, stops narrow (ra false) [] (.unpack p d a t k)) ∧
    (∀ k, stops narrow (ra false ++ readsOf p false y ++ if tyCodeBits t = 16 then [] else rx false) [] (.pack p d a y x t st k)) ∧
    (∀ cond, stops [] (ra t.wide ++ rb t.wide) (opbRegs b) (.cmp p qd a b t cond)) ∧
    (∀ cond, stops [] (ra false ++ rb false) (opbRegs b) (.fcmp p qd a b t cond)) ∧
    stops (elementNames d.name.toNat count t.wide) (memReads p m) [m.base] (.ld p d m n t) ∧
    stops [] (memReads p m ++ (elementNames a.name.toNat count t.wide).map fun k => ⟨p, { a with name := BitVec.ofNat 9 k }⟩) [m.base]
      (.st p m a n t) ∧
    ∀ op ord, stops (elementNames d.name.toNat 1 t.wide) (memReads p m ++ ra t.wide ++ if op = .cas then rx t.wide else []) [m.base]
      (.atom p d m a x op ord t)

/-- R227, R229, R230, R233, R236: taking a trap outside privileged state. The context record takes every slice's live bit, mask and resume
PC, the gang map, the cause with its sub-cause and slice, the argument and `g60` to `g63`, with the loads still on their way to these;
`g60` to `g62` become 0 and `g63` the save area;
every live slice stands in gang 0 at the handler's entry for the cause with its mask, stack, predicates, `%fmt`, flags and names unchanged;
no other group changes, and no byte of memory outside the context record of the save area. -/
def Obligations.TrapsSaveTheContext : Prop :=
  ∀ (s : State) (gid : Nat) (t : Trap) (trapping : List Nat) (g : Group), s.group gid = some g → g.priv = false →
    ∃ g', (trapEntry s gid t trapping).group gid = some g' ∧ g'.priv = true ∧ g'.saving = decide (t.cause = 12) ∧
      (∀ i, i < 8 → g'.ctx.spc.get i = spcWord (g.slices.get i) (resumePC t trapping i (g.slices.get i) (g.stepDone && g.atMark i))) ∧
      g'.ctx.gmap = g.gangMap ∧ g'.ctx.cause = causeWord t (trapping.headD 0) ∧ g'.ctx.targ = t.arg ∧
      g'.ctx.g60 = ⟨g.g 60, g.g 61, g.g 62, g.g 63⟩ ∧
      g'.gpend = g.gpend.filter (fun n => decide (n < 60)) ∧ g'.ctx.dev.gpend = g.gpend.filter (fun n => decide (60 ≤ n)) ∧
      (∀ r, g'.g r = if r = 60 ∨ r = 61 ∨ r = 62 then 0 else if r = 63 then BitVec.ofNat 64 g.area else g.g r) ∧
      (∀ i, i < 8 →
        let sl := g.slices.get i
        let sl' := g'.slices.get i
        (sl.live = true → sl'.pc = handlerEntry s g t.cause ∧ sl'.gang = 0) ∧ sl'.mark = sl.stack.length ∧ sl'.mask = sl.mask ∧
        sl'.exited = sl.exited ∧ sl'.stack = sl.stack ∧ sl'.floors = sl.floors ∧ sl'.preds = sl.preds ∧ sl'.fmt = sl.fmt ∧
        sl'.fflags = sl.fflags ∧ sl'.names = sl.names) ∧
      (∀ j, j ≠ gid → (trapEntry s gid t trapping).group j = s.group j) ∧
      ∀ a, a < g.area + 0x30000 ∨ g.area + 0x300A0 ≤ a → memRead (trapEntry s gid t trapping).mem a = memRead s.mem a

/-- R229, R231: `rte` whose context passes its checks installs it: `g60` to `g63` and the gang map come back, a slice live in the context
takes its PC and its mask without the lanes exited since, and settles unless it waits at a continuation there (R188), dead where it has no
lane left to run (R113); waits whose PC was
moved are given up. One that fails them, like a trap inside a handler, is a double trap: the group stops, its reservations of tokens close,
nothing else of the machine changes, and the host receives the event. -/
def Obligations.ReturnsRestoreTheContext : Prop :=
  ∀ (s : State) (gid : Nat) (g : Group), s.group gid = some g →
    let size := match s.grids[g.grid]? with | some d => d.codeSize | none => 0
    let stopped (u : State) (cause sub : Nat) (arg : Word64) : Prop :=
      u.group gid = some { g with status := .stopped } ∧ (∀ j, j ≠ gid → u.group j = s.group j) ∧
      u.hostEvents = s.hostEvents ++ [[1, gid, cause, sub, arg.toNat]] ∧ u.mem = s.mem ∧
      u.core g.core = (s.core g.core).closeReservations gid ∧ ∀ k, k ≠ g.core → u.core k = s.core k
    (rteOk g size = true → ∃ g', (returnFromTrap s gid).group gid = some g' ∧ g'.priv = false ∧
      (∀ r, g'.g r = if r = 60 then g.ctx.g60.l0 else if r = 61 then g.ctx.g60.l1 else if r = 62 then g.ctx.g60.l2
        else if r = 63 then g.ctx.g60.l3 else g.g r) ∧
      g'.gpend = g.gpend ++ g.ctx.dev.gpend ∧ (∀ w ∈ g'.waits, w.priv = false) ∧
      ((∀ w ∈ g.waits, w.priv = true ∨ ∀ b, w.kind ≠ .over b) → ∀ i, i < 8 →
        let sl := g.slices.get i
        let ctx := g.ctx.spc.get i
        let sl' : Slice := { sl with stack := sl.stack.drop (sl.stack.length - sl.mark), mark := 0, latched := [],
                                     pc := spcPC ctx, mask := spcMask ctx &&& ~~~sl.exited }
        sl.live = true → ctx.getLsbD 36 = true → ∃ n,
          ((∃ w ∈ g.waits, w.priv = false ∧ w.slices.getLsbD i = true ∧ w.pc = spcPC ctx ∧ w.yields = true) →
            g'.slices.get i = { sl'.bury with gang := n }) ∧
          ((∀ w ∈ g.waits, w.priv = true ∨ w.slices.getLsbD i = false ∨ w.pc ≠ spcPC ctx ∨ w.yields = false) →
            g'.slices.get i = { sl'.settle.bury with gang := n }))) ∧
    (rteOk g size = false → stopped (returnFromTrap s gid) 1 0 0) ∧
    ∀ (t : Trap) (trapping : List Nat), g.priv = true → stopped (trapEntry s gid t trapping) t.cause t.sub t.arg

/-- R345 and the reset values of log 2: right after reset power-good is not asserted and nothing exists: no partition, launch, group or
session, memory lists nothing and so is canonical and reads 0; the time base, its correction and every counter stand at 0. -/
def Obligations.ResetIsEmpty : Prop :=
  let s := State.reset
  s.powered = false ∧ MemSafe s ∧ (∀ a, memRead s.mem a = 0) ∧ s.gtime = 0 ∧ s.parts = [] ∧ s.grids = [] ∧ s.panels = [] ∧ s.teams = [] ∧
    s.groups = [] ∧ s.flights = [] ∧ s.sessions = [] ∧ s.responses = [] ∧ s.hostEvents = [] ∧ s.agenda = [] ∧ s.up = false ∧
    (∀ c, (s.cluster c).cycles = 0 ∧ (s.cluster c).gated = false) ∧ (∀ c, (s.core c).vsLimit = 3072 ∧ (s.core c).engine = []) ∧
    ∀ d, (s.die d).clock = List.replicate 12 0

/-- R68, R70, R80, R81, R89, R142: words written out from the encodings decode to their instructions: `gadd g5,g3,-4` and its wide form,
`setprio 4`, `ld.f32 v20*2, core[g3+v4+16]`, `shl.b32 v2*p,v1,5`, `mzero ea=-6` and `trap 7`; a word of ones is refused. -/
def Obligations.WordsDecode : Prop :=
  decodeTableWord 32 0x00C50FFC = some (.gaddImm 5 3 (-4)) ∧
  decodeTableWord 64 0x0001000040C61800 = some (.gaddU2 6 6 (.imm 0x10000)) ∧
  decodeTableWord 32 0x0A400004 = some (.setprio 0 4) ∧
  decodeTableWord 96 0x0C0400100800000398000288 =
    some (.ld ⟨0, false⟩ ⟨20, 2⟩ ⟨3, .core, 0, some ⟨4, false⟩, 0x10⟩ 0 .f32) ∧
  decodeTableWord 96 0x400000050200000080C00040 = some (.shl ⟨0, false⟩ ⟨2, 0⟩ ⟨1, false⟩ (.imm 5) .b32) ∧
  decodeTableWord 96 0x0000FFFA00000000A0000000 = some (.mzero ⟨0, false⟩ (.imm 0xFFFA)) ∧
  decodeTableWord 96 0x0000000700000000A8000000 = some (.trap ⟨0, false⟩ 7) ∧
  decodeTableWord 32 0xFFFFFFFF = none

/-- R68, R70, R80 to R90: decoding inverts the encoding: every well-formed instruction of a program, with every operand at every value its
encoding admits, is what its bytes decode to, with nothing of them left. -/
def Obligations.DecodingInvertsEncoding : Prop :=
  ∀ i, wellFormed i = true → isEvent i = false → decode true (encodeBytes i) = .ok (i, (encodeBytes i).length)

/-- The machine never stops (R228, R229 and the log's stops): every instruction and event of every state answers a next state, and so does
every step; traps, held gangs and refusals of commands are next states. -/
def Obligations.EveryStepGoesOn : Prop := (∀ i s, ∃ t, exec i s = .next t) ∧ ∀ s, Steps s

/-- Log 3, log 6: memory keeps its canonical form: from every state whose memory is canonical, whatever a step does leaves it so. -/
def Obligations.StepsKeepMemoryCanonical : Prop := ∀ s t, MemSafe s → step s = .next t → MemSafe t

/-- R68, R87, R140, R141, R151, R228: a step runs the instruction that stands at its gang's program counter. The agenda, the ticks that
alternate issues and events, and which of several events comes next are the model's schedule (log 1): what is on the agenda comes first,
unless the cycle's issues come before it; then the event `plan` names, or the instruction of the gang it names. Around it a step rouses the
gang's core, puts back to sleep a core that woke in vain, and lets a deterministic launch's issue stay or pass and find its holder. No
event happens whose clock stands still, and an entry of the agenda that cannot happen is dropped. That instruction is well formed and is
what the bytes at the gang's PC decode to, and the gang can issue; a gang chosen with nothing else due has its instruction run. -/
def Obligations.StepsRunDecodedInstructions : Prop :=
  ∀ (s : State),
    (∀ e rest t, s.agenda = e :: rest → isEvent e = true → frozen s e = false → outOfTurn s e = false →
      exec e { s with agenda := rest } = .next t → step s = .next (fixTurns t)) ∧
    (∀ e rest, s.agenda = e :: rest → isEvent e = false ∨ frozen s e = true → step s = .next { s with agenda := rest }) ∧
    (s.agenda = [] ∨ (∃ e rest, s.agenda = e :: rest ∧ isEvent e = true ∧ frozen s e = false ∧ outOfTurn s e = true) →
      (∀ e t, plan s = .event e → exec e (s.ticked s.cur) = .next t → step s = .next (fixTurns t)) ∧
      (∀ i cur t, plan s = .issue i cur → exec i (s.ticked cur).roused = .next t → step s = .next (issued i (s.ticked cur) t)) ∧
      (∀ i cur t, plan s = .probe i cur → exec i (s.ticked cur).roused = .next t → step s = .next (afterProbe (s.ticked cur) t)) ∧
      ∀ (c : Candidate) (i : Instr) (n j : Nat) (rest : List Nat) (t : State), nextRequest s = none → nextCell s = none →
        nextFormation s = none → s.tick % 2 = 1 ∨ dueEvents s = [] → nextIssue s = some c → c.g.gangSlices c.gang = j :: rest →
        fetchAt (s.codeOf c.g).1 (s.codeOf c.g).2 c.g.priv (c.g.slices.get j).pc = .ok (i, n) → c.payable s = true →
        exec i (s.ticked ⟨c.gid, c.gang⟩).roused = .next t → step s = .next (issued i (s.ticked ⟨c.gid, c.gang⟩) t)) ∧
    ∀ i cur, plan s = .issue i cur ∨ plan s = .probe i cur →
      ∃ c n, issueOf (s.ticked cur).roused = some c ∧ c.gid = cur.group ∧ c.gang = cur.gang ∧ wellFormed i = true ∧ isEvent i = false ∧
        fetchAt (s.codeOf c.g).1 (s.codeOf c.g).2 c.g.priv c.pc = .ok (i, n) ∧
        decode c.g.priv ((List.range 12).map fun k => memRead (s.codeOf c.g).1 (c.pc.toNat + k)) = .ok (i, n)
end

