-- ==== Sys2Proof/Laws/State.lean ====
section
/-! SUPPORT. One lemma per field of the state and of a group per update, each true by definition, so that no later proof unfolds a
record update. -/

namespace Sys2Proof.Machine

/-! ### `State.setCore` changes nothing but `cores` -/

@[simp] theorem State.setCore_powered (s : State) (k : Nat) (c : Core) : (s.setCore k c).powered = s.powered := rfl
@[simp] theorem State.setCore_gtime (s : State) (k : Nat) (c : Core) : (s.setCore k c).gtime = s.gtime := rfl
@[simp] theorem State.setCore_parts (s : State) (k : Nat) (c : Core) : (s.setCore k c).parts = s.parts := rfl
@[simp] theorem State.setCore_grids (s : State) (k : Nat) (c : Core) : (s.setCore k c).grids = s.grids := rfl
@[simp] theorem State.setCore_panels (s : State) (k : Nat) (c : Core) : (s.setCore k c).panels = s.panels := rfl
@[simp] theorem State.setCore_teams (s : State) (k : Nat) (c : Core) : (s.setCore k c).teams = s.teams := rfl
@[simp] theorem State.setCore_groups (s : State) (k : Nat) (c : Core) : (s.setCore k c).groups = s.groups := rfl
@[simp] theorem State.setCore_clusters (s : State) (k : Nat) (c : Core) : (s.setCore k c).clusters = s.clusters := rfl
@[simp] theorem State.setCore_dies (s : State) (k : Nat) (c : Core) : (s.setCore k c).dies = s.dies := rfl
@[simp] theorem State.setCore_mem (s : State) (k : Nat) (c : Core) : (s.setCore k c).mem = s.mem := rfl
@[simp] theorem State.setCore_flights (s : State) (k : Nat) (c : Core) : (s.setCore k c).flights = s.flights := rfl
@[simp] theorem State.setCore_nextFlight (s : State) (k : Nat) (c : Core) : (s.setCore k c).nextFlight = s.nextFlight := rfl
@[simp] theorem State.setCore_peerTraffic (s : State) (k : Nat) (c : Core) : (s.setCore k c).peerTraffic = s.peerTraffic := rfl
@[simp] theorem State.setCore_peerReplies (s : State) (k : Nat) (c : Core) : (s.setCore k c).peerReplies = s.peerReplies := rfl
@[simp] theorem State.setCore_sessions (s : State) (k : Nat) (c : Core) : (s.setCore k c).sessions = s.sessions := rfl
@[simp] theorem State.setCore_drops (s : State) (k : Nat) (c : Core) : (s.setCore k c).drops = s.drops := rfl
@[simp] theorem State.setCore_portDrops (s : State) (k : Nat) (c : Core) : (s.setCore k c).portDrops = s.portDrops := rfl
@[simp] theorem State.setCore_responses (s : State) (k : Nat) (c : Core) : (s.setCore k c).responses = s.responses := rfl
@[simp] theorem State.setCore_hostEvents (s : State) (k : Nat) (c : Core) : (s.setCore k c).hostEvents = s.hostEvents := rfl
@[simp] theorem State.setCore_pending (s : State) (k : Nat) (c : Core) : (s.setCore k c).pending = s.pending := rfl
@[simp] theorem State.setCore_commands (s : State) (k : Nat) (c : Core) : (s.setCore k c).commands = s.commands := rfl
@[simp] theorem State.setCore_recordings (s : State) (k : Nat) (c : Core) : (s.setCore k c).recordings = s.recordings := rfl
@[simp] theorem State.setCore_boot (s : State) (k : Nat) (c : Core) : (s.setCore k c).boot = s.boot := rfl
@[simp] theorem State.setCore_diodes (s : State) (k : Nat) (c : Core) : (s.setCore k c).diodes = s.diodes := rfl
@[simp] theorem State.setCore_hot (s : State) (k : Nat) (c : Core) : (s.setCore k c).hot = s.hot := rfl
@[simp] theorem State.setCore_polls (s : State) (k : Nat) (c : Core) : (s.setCore k c).polls = s.polls := rfl
@[simp] theorem State.setCore_windows (s : State) (k : Nat) (c : Core) : (s.setCore k c).windows = s.windows := rfl
@[simp] theorem State.setCore_rows (s : State) (k : Nat) (c : Core) : (s.setCore k c).rows = s.rows := rfl
@[simp] theorem State.setCore_spared (s : State) (k : Nat) (c : Core) : (s.setCore k c).spared = s.spared := rfl
@[simp] theorem State.setCore_flash (s : State) (k : Nat) (c : Core) : (s.setCore k c).flash = s.flash := rfl
@[simp] theorem State.setCore_lastSync (s : State) (k : Nat) (c : Core) : (s.setCore k c).lastSync = s.lastSync := rfl
@[simp] theorem State.setCore_inHoldover (s : State) (k : Nat) (c : Core) : (s.setCore k c).inHoldover = s.inHoldover := rfl
@[simp] theorem State.setCore_relocking (s : State) (k : Nat) (c : Core) : (s.setCore k c).relocking = s.relocking := rfl
@[simp] theorem State.setCore_correction (s : State) (k : Nat) (c : Core) : (s.setCore k c).correction = s.correction := rfl
@[simp] theorem State.setCore_slewCredit (s : State) (k : Nat) (c : Core) : (s.setCore k c).slewCredit = s.slewCredit := rfl
@[simp] theorem State.setCore_offset (s : State) (k : Nat) (c : Core) : (s.setCore k c).offset = s.offset := rfl
@[simp] theorem State.setCore_quotes (s : State) (k : Nat) (c : Core) : (s.setCore k c).quotes = s.quotes := rfl
@[simp] theorem State.setCore_agenda (s : State) (k : Nat) (c : Core) : (s.setCore k c).agenda = s.agenda := rfl
@[simp] theorem State.setCore_cur (s : State) (k : Nat) (c : Core) : (s.setCore k c).cur = s.cur := rfl
@[simp] theorem State.setCore_tick (s : State) (k : Nat) (c : Core) : (s.setCore k c).tick = s.tick := rfl
@[simp] theorem State.setCore_freeCount (s : State) (k : Nat) (c : Core) : (s.setCore k c).freeCount = s.freeCount := rfl

/-! ### `State.setCluster` changes nothing but `clusters` -/

@[simp] theorem State.setCluster_powered (s : State) (k : Nat) (c : Cluster) : (s.setCluster k c).powered = s.powered := rfl
@[simp] theorem State.setCluster_gtime (s : State) (k : Nat) (c : Cluster) : (s.setCluster k c).gtime = s.gtime := rfl
@[simp] theorem State.setCluster_parts (s : State) (k : Nat) (c : Cluster) : (s.setCluster k c).parts = s.parts := rfl
@[simp] theorem State.setCluster_grids (s : State) (k : Nat) (c : Cluster) : (s.setCluster k c).grids = s.grids := rfl
@[simp] theorem State.setCluster_panels (s : State) (k : Nat) (c : Cluster) : (s.setCluster k c).panels = s.panels := rfl
@[simp] theorem State.setCluster_teams (s : State) (k : Nat) (c : Cluster) : (s.setCluster k c).teams = s.teams := rfl
@[simp] theorem State.setCluster_groups (s : State) (k : Nat) (c : Cluster) : (s.setCluster k c).groups = s.groups := rfl
@[simp] theorem State.setCluster_cores (s : State) (k : Nat) (c : Cluster) : (s.setCluster k c).cores = s.cores := rfl
@[simp] theorem State.setCluster_dies (s : State) (k : Nat) (c : Cluster) : (s.setCluster k c).dies = s.dies := rfl
@[simp] theorem State.setCluster_mem (s : State) (k : Nat) (c : Cluster) : (s.setCluster k c).mem = s.mem := rfl
@[simp] theorem State.setCluster_flights (s : State) (k : Nat) (c : Cluster) : (s.setCluster k c).flights = s.flights := rfl
@[simp] theorem State.setCluster_nextFlight (s : State) (k : Nat) (c : Cluster) : (s.setCluster k c).nextFlight = s.nextFlight := rfl
@[simp] theorem State.setCluster_peerTraffic (s : State) (k : Nat) (c : Cluster) : (s.setCluster k c).peerTraffic = s.peerTraffic := rfl
@[simp] theorem State.setCluster_peerReplies (s : State) (k : Nat) (c : Cluster) : (s.setCluster k c).peerReplies = s.peerReplies := rfl
@[simp] theorem State.setCluster_sessions (s : State) (k : Nat) (c : Cluster) : (s.setCluster k c).sessions = s.sessions := rfl
@[simp] theorem State.setCluster_drops (s : State) (k : Nat) (c : Cluster) : (s.setCluster k c).drops = s.drops := rfl
@[simp] theorem State.setCluster_portDrops (s : State) (k : Nat) (c : Cluster) : (s.setCluster k c).portDrops = s.portDrops := rfl
@[simp] theorem State.setCluster_responses (s : State) (k : Nat) (c : Cluster) : (s.setCluster k c).responses = s.responses := rfl
@[simp] theorem State.setCluster_hostEvents (s : State) (k : Nat) (c : Cluster) : (s.setCluster k c).hostEvents = s.hostEvents := rfl
@[simp] theorem State.setCluster_pending (s : State) (k : Nat) (c : Cluster) : (s.setCluster k c).pending = s.pending := rfl
@[simp] theorem State.setCluster_commands (s : State) (k : Nat) (c : Cluster) : (s.setCluster k c).commands = s.commands := rfl
@[simp] theorem State.setCluster_recordings (s : State) (k : Nat) (c : Cluster) : (s.setCluster k c).recordings = s.recordings := rfl
@[simp] theorem State.setCluster_boot (s : State) (k : Nat) (c : Cluster) : (s.setCluster k c).boot = s.boot := rfl
@[simp] theorem State.setCluster_diodes (s : State) (k : Nat) (c : Cluster) : (s.setCluster k c).diodes = s.diodes := rfl
@[simp] theorem State.setCluster_hot (s : State) (k : Nat) (c : Cluster) : (s.setCluster k c).hot = s.hot := rfl
@[simp] theorem State.setCluster_polls (s : State) (k : Nat) (c : Cluster) : (s.setCluster k c).polls = s.polls := rfl
@[simp] theorem State.setCluster_windows (s : State) (k : Nat) (c : Cluster) : (s.setCluster k c).windows = s.windows := rfl
@[simp] theorem State.setCluster_rows (s : State) (k : Nat) (c : Cluster) : (s.setCluster k c).rows = s.rows := rfl
@[simp] theorem State.setCluster_spared (s : State) (k : Nat) (c : Cluster) : (s.setCluster k c).spared = s.spared := rfl
@[simp] theorem State.setCluster_flash (s : State) (k : Nat) (c : Cluster) : (s.setCluster k c).flash = s.flash := rfl
@[simp] theorem State.setCluster_lastSync (s : State) (k : Nat) (c : Cluster) : (s.setCluster k c).lastSync = s.lastSync := rfl
@[simp] theorem State.setCluster_inHoldover (s : State) (k : Nat) (c : Cluster) : (s.setCluster k c).inHoldover = s.inHoldover := rfl
@[simp] theorem State.setCluster_relocking (s : State) (k : Nat) (c : Cluster) : (s.setCluster k c).relocking = s.relocking := rfl
@[simp] theorem State.setCluster_correction (s : State) (k : Nat) (c : Cluster) : (s.setCluster k c).correction = s.correction := rfl
@[simp] theorem State.setCluster_slewCredit (s : State) (k : Nat) (c : Cluster) : (s.setCluster k c).slewCredit = s.slewCredit := rfl
@[simp] theorem State.setCluster_offset (s : State) (k : Nat) (c : Cluster) : (s.setCluster k c).offset = s.offset := rfl
@[simp] theorem State.setCluster_quotes (s : State) (k : Nat) (c : Cluster) : (s.setCluster k c).quotes = s.quotes := rfl
@[simp] theorem State.setCluster_agenda (s : State) (k : Nat) (c : Cluster) : (s.setCluster k c).agenda = s.agenda := rfl
@[simp] theorem State.setCluster_cur (s : State) (k : Nat) (c : Cluster) : (s.setCluster k c).cur = s.cur := rfl
@[simp] theorem State.setCluster_tick (s : State) (k : Nat) (c : Cluster) : (s.setCluster k c).tick = s.tick := rfl
@[simp] theorem State.setCluster_freeCount (s : State) (k : Nat) (c : Cluster) : (s.setCluster k c).freeCount = s.freeCount := rfl

/-! ### `State.setDie` changes nothing but `dies` -/

@[simp] theorem State.setDie_powered (s : State) (k : Nat) (d : Die) : (s.setDie k d).powered = s.powered := rfl
@[simp] theorem State.setDie_gtime (s : State) (k : Nat) (d : Die) : (s.setDie k d).gtime = s.gtime := rfl
@[simp] theorem State.setDie_parts (s : State) (k : Nat) (d : Die) : (s.setDie k d).parts = s.parts := rfl
@[simp] theorem State.setDie_grids (s : State) (k : Nat) (d : Die) : (s.setDie k d).grids = s.grids := rfl
@[simp] theorem State.setDie_panels (s : State) (k : Nat) (d : Die) : (s.setDie k d).panels = s.panels := rfl
@[simp] theorem State.setDie_teams (s : State) (k : Nat) (d : Die) : (s.setDie k d).teams = s.teams := rfl
@[simp] theorem State.setDie_groups (s : State) (k : Nat) (d : Die) : (s.setDie k d).groups = s.groups := rfl
@[simp] theorem State.setDie_cores (s : State) (k : Nat) (d : Die) : (s.setDie k d).cores = s.cores := rfl
@[simp] theorem State.setDie_clusters (s : State) (k : Nat) (d : Die) : (s.setDie k d).clusters = s.clusters := rfl
@[simp] theorem State.setDie_mem (s : State) (k : Nat) (d : Die) : (s.setDie k d).mem = s.mem := rfl
@[simp] theorem State.setDie_flights (s : State) (k : Nat) (d : Die) : (s.setDie k d).flights = s.flights := rfl
@[simp] theorem State.setDie_nextFlight (s : State) (k : Nat) (d : Die) : (s.setDie k d).nextFlight = s.nextFlight := rfl
@[simp] theorem State.setDie_peerTraffic (s : State) (k : Nat) (d : Die) : (s.setDie k d).peerTraffic = s.peerTraffic := rfl
@[simp] theorem State.setDie_peerReplies (s : State) (k : Nat) (d : Die) : (s.setDie k d).peerReplies = s.peerReplies := rfl
@[simp] theorem State.setDie_sessions (s : State) (k : Nat) (d : Die) : (s.setDie k d).sessions = s.sessions := rfl
@[simp] theorem State.setDie_drops (s : State) (k : Nat) (d : Die) : (s.setDie k d).drops = s.drops := rfl
@[simp] theorem State.setDie_portDrops (s : State) (k : Nat) (d : Die) : (s.setDie k d).portDrops = s.portDrops := rfl
@[simp] theorem State.setDie_responses (s : State) (k : Nat) (d : Die) : (s.setDie k d).responses = s.responses := rfl
@[simp] theorem State.setDie_hostEvents (s : State) (k : Nat) (d : Die) : (s.setDie k d).hostEvents = s.hostEvents := rfl
@[simp] theorem State.setDie_pending (s : State) (k : Nat) (d : Die) : (s.setDie k d).pending = s.pending := rfl
@[simp] theorem State.setDie_commands (s : State) (k : Nat) (d : Die) : (s.setDie k d).commands = s.commands := rfl
@[simp] theorem State.setDie_recordings (s : State) (k : Nat) (d : Die) : (s.setDie k d).recordings = s.recordings := rfl
@[simp] theorem State.setDie_boot (s : State) (k : Nat) (d : Die) : (s.setDie k d).boot = s.boot := rfl
@[simp] theorem State.setDie_diodes (s : State) (k : Nat) (d : Die) : (s.setDie k d).diodes = s.diodes := rfl
@[simp] theorem State.setDie_hot (s : State) (k : Nat) (d : Die) : (s.setDie k d).hot = s.hot := rfl
@[simp] theorem State.setDie_polls (s : State) (k : Nat) (d : Die) : (s.setDie k d).polls = s.polls := rfl
@[simp] theorem State.setDie_windows (s : State) (k : Nat) (d : Die) : (s.setDie k d).windows = s.windows := rfl
@[simp] theorem State.setDie_rows (s : State) (k : Nat) (d : Die) : (s.setDie k d).rows = s.rows := rfl
@[simp] theorem State.setDie_spared (s : State) (k : Nat) (d : Die) : (s.setDie k d).spared = s.spared := rfl
@[simp] theorem State.setDie_flash (s : State) (k : Nat) (d : Die) : (s.setDie k d).flash = s.flash := rfl
@[simp] theorem State.setDie_lastSync (s : State) (k : Nat) (d : Die) : (s.setDie k d).lastSync = s.lastSync := rfl
@[simp] theorem State.setDie_inHoldover (s : State) (k : Nat) (d : Die) : (s.setDie k d).inHoldover = s.inHoldover := rfl
@[simp] theorem State.setDie_relocking (s : State) (k : Nat) (d : Die) : (s.setDie k d).relocking = s.relocking := rfl
@[simp] theorem State.setDie_correction (s : State) (k : Nat) (d : Die) : (s.setDie k d).correction = s.correction := rfl
@[simp] theorem State.setDie_slewCredit (s : State) (k : Nat) (d : Die) : (s.setDie k d).slewCredit = s.slewCredit := rfl
@[simp] theorem State.setDie_offset (s : State) (k : Nat) (d : Die) : (s.setDie k d).offset = s.offset := rfl
@[simp] theorem State.setDie_quotes (s : State) (k : Nat) (d : Die) : (s.setDie k d).quotes = s.quotes := rfl
@[simp] theorem State.setDie_agenda (s : State) (k : Nat) (d : Die) : (s.setDie k d).agenda = s.agenda := rfl
@[simp] theorem State.setDie_cur (s : State) (k : Nat) (d : Die) : (s.setDie k d).cur = s.cur := rfl
@[simp] theorem State.setDie_tick (s : State) (k : Nat) (d : Die) : (s.setDie k d).tick = s.tick := rfl
@[simp] theorem State.setDie_freeCount (s : State) (k : Nat) (d : Die) : (s.setDie k d).freeCount = s.freeCount := rfl

/-! ### `State.modGroup` changes nothing but `groups` -/

@[simp] theorem State.modGroup_powered (s : State) (g : Nat) (f : Group → Group) : (s.modGroup g f).powered = s.powered := rfl
@[simp] theorem State.modGroup_gtime (s : State) (g : Nat) (f : Group → Group) : (s.modGroup g f).gtime = s.gtime := rfl
@[simp] theorem State.modGroup_parts (s : State) (g : Nat) (f : Group → Group) : (s.modGroup g f).parts = s.parts := rfl
@[simp] theorem State.modGroup_grids (s : State) (g : Nat) (f : Group → Group) : (s.modGroup g f).grids = s.grids := rfl
@[simp] theorem State.modGroup_panels (s : State) (g : Nat) (f : Group → Group) : (s.modGroup g f).panels = s.panels := rfl
@[simp] theorem State.modGroup_teams (s : State) (g : Nat) (f : Group → Group) : (s.modGroup g f).teams = s.teams := rfl
@[simp] theorem State.modGroup_cores (s : State) (g : Nat) (f : Group → Group) : (s.modGroup g f).cores = s.cores := rfl
@[simp] theorem State.modGroup_clusters (s : State) (g : Nat) (f : Group → Group) : (s.modGroup g f).clusters = s.clusters := rfl
@[simp] theorem State.modGroup_dies (s : State) (g : Nat) (f : Group → Group) : (s.modGroup g f).dies = s.dies := rfl
@[simp] theorem State.modGroup_mem (s : State) (g : Nat) (f : Group → Group) : (s.modGroup g f).mem = s.mem := rfl
@[simp] theorem State.modGroup_flights (s : State) (g : Nat) (f : Group → Group) : (s.modGroup g f).flights = s.flights := rfl
@[simp] theorem State.modGroup_nextFlight (s : State) (g : Nat) (f : Group → Group) : (s.modGroup g f).nextFlight = s.nextFlight := rfl
@[simp] theorem State.modGroup_peerTraffic (s : State) (g : Nat) (f : Group → Group) : (s.modGroup g f).peerTraffic = s.peerTraffic := rfl
@[simp] theorem State.modGroup_peerReplies (s : State) (g : Nat) (f : Group → Group) : (s.modGroup g f).peerReplies = s.peerReplies := rfl
@[simp] theorem State.modGroup_sessions (s : State) (g : Nat) (f : Group → Group) : (s.modGroup g f).sessions = s.sessions := rfl
@[simp] theorem State.modGroup_drops (s : State) (g : Nat) (f : Group → Group) : (s.modGroup g f).drops = s.drops := rfl
@[simp] theorem State.modGroup_portDrops (s : State) (g : Nat) (f : Group → Group) : (s.modGroup g f).portDrops = s.portDrops := rfl
@[simp] theorem State.modGroup_responses (s : State) (g : Nat) (f : Group → Group) : (s.modGroup g f).responses = s.responses := rfl
@[simp] theorem State.modGroup_hostEvents (s : State) (g : Nat) (f : Group → Group) : (s.modGroup g f).hostEvents = s.hostEvents := rfl
@[simp] theorem State.modGroup_pending (s : State) (g : Nat) (f : Group → Group) : (s.modGroup g f).pending = s.pending := rfl
@[simp] theorem State.modGroup_commands (s : State) (g : Nat) (f : Group → Group) : (s.modGroup g f).commands = s.commands := rfl
@[simp] theorem State.modGroup_recordings (s : State) (g : Nat) (f : Group → Group) : (s.modGroup g f).recordings = s.recordings := rfl
@[simp] theorem State.modGroup_boot (s : State) (g : Nat) (f : Group → Group) : (s.modGroup g f).boot = s.boot := rfl
@[simp] theorem State.modGroup_diodes (s : State) (g : Nat) (f : Group → Group) : (s.modGroup g f).diodes = s.diodes := rfl
@[simp] theorem State.modGroup_hot (s : State) (g : Nat) (f : Group → Group) : (s.modGroup g f).hot = s.hot := rfl
@[simp] theorem State.modGroup_polls (s : State) (g : Nat) (f : Group → Group) : (s.modGroup g f).polls = s.polls := rfl
@[simp] theorem State.modGroup_windows (s : State) (g : Nat) (f : Group → Group) : (s.modGroup g f).windows = s.windows := rfl
@[simp] theorem State.modGroup_rows (s : State) (g : Nat) (f : Group → Group) : (s.modGroup g f).rows = s.rows := rfl
@[simp] theorem State.modGroup_spared (s : State) (g : Nat) (f : Group → Group) : (s.modGroup g f).spared = s.spared := rfl
@[simp] theorem State.modGroup_flash (s : State) (g : Nat) (f : Group → Group) : (s.modGroup g f).flash = s.flash := rfl
@[simp] theorem State.modGroup_lastSync (s : State) (g : Nat) (f : Group → Group) : (s.modGroup g f).lastSync = s.lastSync := rfl
@[simp] theorem State.modGroup_inHoldover (s : State) (g : Nat) (f : Group → Group) : (s.modGroup g f).inHoldover = s.inHoldover := rfl
@[simp] theorem State.modGroup_relocking (s : State) (g : Nat) (f : Group → Group) : (s.modGroup g f).relocking = s.relocking := rfl
@[simp] theorem State.modGroup_correction (s : State) (g : Nat) (f : Group → Group) : (s.modGroup g f).correction = s.correction := rfl
@[simp] theorem State.modGroup_slewCredit (s : State) (g : Nat) (f : Group → Group) : (s.modGroup g f).slewCredit = s.slewCredit := rfl
@[simp] theorem State.modGroup_offset (s : State) (g : Nat) (f : Group → Group) : (s.modGroup g f).offset = s.offset := rfl
@[simp] theorem State.modGroup_quotes (s : State) (g : Nat) (f : Group → Group) : (s.modGroup g f).quotes = s.quotes := rfl
@[simp] theorem State.modGroup_agenda (s : State) (g : Nat) (f : Group → Group) : (s.modGroup g f).agenda = s.agenda := rfl
@[simp] theorem State.modGroup_cur (s : State) (g : Nat) (f : Group → Group) : (s.modGroup g f).cur = s.cur := rfl
@[simp] theorem State.modGroup_tick (s : State) (g : Nat) (f : Group → Group) : (s.modGroup g f).tick = s.tick := rfl
@[simp] theorem State.modGroup_freeCount (s : State) (g : Nat) (f : Group → Group) : (s.modGroup g f).freeCount = s.freeCount := rfl

/-! ### `State.modTeam` changes nothing but `teams` -/

@[simp] theorem State.modTeam_powered (s : State) (t : Nat) (f : Team → Team) : (s.modTeam t f).powered = s.powered := rfl
@[simp] theorem State.modTeam_gtime (s : State) (t : Nat) (f : Team → Team) : (s.modTeam t f).gtime = s.gtime := rfl
@[simp] theorem State.modTeam_parts (s : State) (t : Nat) (f : Team → Team) : (s.modTeam t f).parts = s.parts := rfl
@[simp] theorem State.modTeam_grids (s : State) (t : Nat) (f : Team → Team) : (s.modTeam t f).grids = s.grids := rfl
@[simp] theorem State.modTeam_panels (s : State) (t : Nat) (f : Team → Team) : (s.modTeam t f).panels = s.panels := rfl
@[simp] theorem State.modTeam_groups (s : State) (t : Nat) (f : Team → Team) : (s.modTeam t f).groups = s.groups := rfl
@[simp] theorem State.modTeam_cores (s : State) (t : Nat) (f : Team → Team) : (s.modTeam t f).cores = s.cores := rfl
@[simp] theorem State.modTeam_clusters (s : State) (t : Nat) (f : Team → Team) : (s.modTeam t f).clusters = s.clusters := rfl
@[simp] theorem State.modTeam_dies (s : State) (t : Nat) (f : Team → Team) : (s.modTeam t f).dies = s.dies := rfl
@[simp] theorem State.modTeam_mem (s : State) (t : Nat) (f : Team → Team) : (s.modTeam t f).mem = s.mem := rfl
@[simp] theorem State.modTeam_flights (s : State) (t : Nat) (f : Team → Team) : (s.modTeam t f).flights = s.flights := rfl
@[simp] theorem State.modTeam_nextFlight (s : State) (t : Nat) (f : Team → Team) : (s.modTeam t f).nextFlight = s.nextFlight := rfl
@[simp] theorem State.modTeam_peerTraffic (s : State) (t : Nat) (f : Team → Team) : (s.modTeam t f).peerTraffic = s.peerTraffic := rfl
@[simp] theorem State.modTeam_peerReplies (s : State) (t : Nat) (f : Team → Team) : (s.modTeam t f).peerReplies = s.peerReplies := rfl
@[simp] theorem State.modTeam_sessions (s : State) (t : Nat) (f : Team → Team) : (s.modTeam t f).sessions = s.sessions := rfl
@[simp] theorem State.modTeam_drops (s : State) (t : Nat) (f : Team → Team) : (s.modTeam t f).drops = s.drops := rfl
@[simp] theorem State.modTeam_portDrops (s : State) (t : Nat) (f : Team → Team) : (s.modTeam t f).portDrops = s.portDrops := rfl
@[simp] theorem State.modTeam_responses (s : State) (t : Nat) (f : Team → Team) : (s.modTeam t f).responses = s.responses := rfl
@[simp] theorem State.modTeam_hostEvents (s : State) (t : Nat) (f : Team → Team) : (s.modTeam t f).hostEvents = s.hostEvents := rfl
@[simp] theorem State.modTeam_pending (s : State) (t : Nat) (f : Team → Team) : (s.modTeam t f).pending = s.pending := rfl
@[simp] theorem State.modTeam_commands (s : State) (t : Nat) (f : Team → Team) : (s.modTeam t f).commands = s.commands := rfl
@[simp] theorem State.modTeam_recordings (s : State) (t : Nat) (f : Team → Team) : (s.modTeam t f).recordings = s.recordings := rfl
@[simp] theorem State.modTeam_boot (s : State) (t : Nat) (f : Team → Team) : (s.modTeam t f).boot = s.boot := rfl
@[simp] theorem State.modTeam_diodes (s : State) (t : Nat) (f : Team → Team) : (s.modTeam t f).diodes = s.diodes := rfl
@[simp] theorem State.modTeam_hot (s : State) (t : Nat) (f : Team → Team) : (s.modTeam t f).hot = s.hot := rfl
@[simp] theorem State.modTeam_polls (s : State) (t : Nat) (f : Team → Team) : (s.modTeam t f).polls = s.polls := rfl
@[simp] theorem State.modTeam_windows (s : State) (t : Nat) (f : Team → Team) : (s.modTeam t f).windows = s.windows := rfl
@[simp] theorem State.modTeam_rows (s : State) (t : Nat) (f : Team → Team) : (s.modTeam t f).rows = s.rows := rfl
@[simp] theorem State.modTeam_spared (s : State) (t : Nat) (f : Team → Team) : (s.modTeam t f).spared = s.spared := rfl
@[simp] theorem State.modTeam_flash (s : State) (t : Nat) (f : Team → Team) : (s.modTeam t f).flash = s.flash := rfl
@[simp] theorem State.modTeam_lastSync (s : State) (t : Nat) (f : Team → Team) : (s.modTeam t f).lastSync = s.lastSync := rfl
@[simp] theorem State.modTeam_inHoldover (s : State) (t : Nat) (f : Team → Team) : (s.modTeam t f).inHoldover = s.inHoldover := rfl
@[simp] theorem State.modTeam_relocking (s : State) (t : Nat) (f : Team → Team) : (s.modTeam t f).relocking = s.relocking := rfl
@[simp] theorem State.modTeam_correction (s : State) (t : Nat) (f : Team → Team) : (s.modTeam t f).correction = s.correction := rfl
@[simp] theorem State.modTeam_slewCredit (s : State) (t : Nat) (f : Team → Team) : (s.modTeam t f).slewCredit = s.slewCredit := rfl
@[simp] theorem State.modTeam_offset (s : State) (t : Nat) (f : Team → Team) : (s.modTeam t f).offset = s.offset := rfl
@[simp] theorem State.modTeam_quotes (s : State) (t : Nat) (f : Team → Team) : (s.modTeam t f).quotes = s.quotes := rfl
@[simp] theorem State.modTeam_agenda (s : State) (t : Nat) (f : Team → Team) : (s.modTeam t f).agenda = s.agenda := rfl
@[simp] theorem State.modTeam_cur (s : State) (t : Nat) (f : Team → Team) : (s.modTeam t f).cur = s.cur := rfl
@[simp] theorem State.modTeam_tick (s : State) (t : Nat) (f : Team → Team) : (s.modTeam t f).tick = s.tick := rfl
@[simp] theorem State.modTeam_freeCount (s : State) (t : Nat) (f : Team → Team) : (s.modTeam t f).freeCount = s.freeCount := rfl

/-! ### `State.modPanel` changes nothing but `panels` -/

@[simp] theorem State.modPanel_powered (s : State) (p : Nat) (f : Panel → Panel) : (s.modPanel p f).powered = s.powered := rfl
@[simp] theorem State.modPanel_gtime (s : State) (p : Nat) (f : Panel → Panel) : (s.modPanel p f).gtime = s.gtime := rfl
@[simp] theorem State.modPanel_parts (s : State) (p : Nat) (f : Panel → Panel) : (s.modPanel p f).parts = s.parts := rfl
@[simp] theorem State.modPanel_grids (s : State) (p : Nat) (f : Panel → Panel) : (s.modPanel p f).grids = s.grids := rfl
@[simp] theorem State.modPanel_teams (s : State) (p : Nat) (f : Panel → Panel) : (s.modPanel p f).teams = s.teams := rfl
@[simp] theorem State.modPanel_groups (s : State) (p : Nat) (f : Panel → Panel) : (s.modPanel p f).groups = s.groups := rfl
@[simp] theorem State.modPanel_cores (s : State) (p : Nat) (f : Panel → Panel) : (s.modPanel p f).cores = s.cores := rfl
@[simp] theorem State.modPanel_clusters (s : State) (p : Nat) (f : Panel → Panel) : (s.modPanel p f).clusters = s.clusters := rfl
@[simp] theorem State.modPanel_dies (s : State) (p : Nat) (f : Panel → Panel) : (s.modPanel p f).dies = s.dies := rfl
@[simp] theorem State.modPanel_mem (s : State) (p : Nat) (f : Panel → Panel) : (s.modPanel p f).mem = s.mem := rfl
@[simp] theorem State.modPanel_flights (s : State) (p : Nat) (f : Panel → Panel) : (s.modPanel p f).flights = s.flights := rfl
@[simp] theorem State.modPanel_nextFlight (s : State) (p : Nat) (f : Panel → Panel) : (s.modPanel p f).nextFlight = s.nextFlight := rfl
@[simp] theorem State.modPanel_peerTraffic (s : State) (p : Nat) (f : Panel → Panel) : (s.modPanel p f).peerTraffic = s.peerTraffic := rfl
@[simp] theorem State.modPanel_peerReplies (s : State) (p : Nat) (f : Panel → Panel) : (s.modPanel p f).peerReplies = s.peerReplies := rfl
@[simp] theorem State.modPanel_sessions (s : State) (p : Nat) (f : Panel → Panel) : (s.modPanel p f).sessions = s.sessions := rfl
@[simp] theorem State.modPanel_drops (s : State) (p : Nat) (f : Panel → Panel) : (s.modPanel p f).drops = s.drops := rfl
@[simp] theorem State.modPanel_portDrops (s : State) (p : Nat) (f : Panel → Panel) : (s.modPanel p f).portDrops = s.portDrops := rfl
@[simp] theorem State.modPanel_responses (s : State) (p : Nat) (f : Panel → Panel) : (s.modPanel p f).responses = s.responses := rfl
@[simp] theorem State.modPanel_hostEvents (s : State) (p : Nat) (f : Panel → Panel) : (s.modPanel p f).hostEvents = s.hostEvents := rfl
@[simp] theorem State.modPanel_pending (s : State) (p : Nat) (f : Panel → Panel) : (s.modPanel p f).pending = s.pending := rfl
@[simp] theorem State.modPanel_commands (s : State) (p : Nat) (f : Panel → Panel) : (s.modPanel p f).commands = s.commands := rfl
@[simp] theorem State.modPanel_recordings (s : State) (p : Nat) (f : Panel → Panel) : (s.modPanel p f).recordings = s.recordings := rfl
@[simp] theorem State.modPanel_boot (s : State) (p : Nat) (f : Panel → Panel) : (s.modPanel p f).boot = s.boot := rfl
@[simp] theorem State.modPanel_diodes (s : State) (p : Nat) (f : Panel → Panel) : (s.modPanel p f).diodes = s.diodes := rfl
@[simp] theorem State.modPanel_hot (s : State) (p : Nat) (f : Panel → Panel) : (s.modPanel p f).hot = s.hot := rfl
@[simp] theorem State.modPanel_polls (s : State) (p : Nat) (f : Panel → Panel) : (s.modPanel p f).polls = s.polls := rfl
@[simp] theorem State.modPanel_windows (s : State) (p : Nat) (f : Panel → Panel) : (s.modPanel p f).windows = s.windows := rfl
@[simp] theorem State.modPanel_rows (s : State) (p : Nat) (f : Panel → Panel) : (s.modPanel p f).rows = s.rows := rfl
@[simp] theorem State.modPanel_spared (s : State) (p : Nat) (f : Panel → Panel) : (s.modPanel p f).spared = s.spared := rfl
@[simp] theorem State.modPanel_flash (s : State) (p : Nat) (f : Panel → Panel) : (s.modPanel p f).flash = s.flash := rfl
@[simp] theorem State.modPanel_lastSync (s : State) (p : Nat) (f : Panel → Panel) : (s.modPanel p f).lastSync = s.lastSync := rfl
@[simp] theorem State.modPanel_inHoldover (s : State) (p : Nat) (f : Panel → Panel) : (s.modPanel p f).inHoldover = s.inHoldover := rfl
@[simp] theorem State.modPanel_relocking (s : State) (p : Nat) (f : Panel → Panel) : (s.modPanel p f).relocking = s.relocking := rfl
@[simp] theorem State.modPanel_correction (s : State) (p : Nat) (f : Panel → Panel) : (s.modPanel p f).correction = s.correction := rfl
@[simp] theorem State.modPanel_slewCredit (s : State) (p : Nat) (f : Panel → Panel) : (s.modPanel p f).slewCredit = s.slewCredit := rfl
@[simp] theorem State.modPanel_offset (s : State) (p : Nat) (f : Panel → Panel) : (s.modPanel p f).offset = s.offset := rfl
@[simp] theorem State.modPanel_quotes (s : State) (p : Nat) (f : Panel → Panel) : (s.modPanel p f).quotes = s.quotes := rfl
@[simp] theorem State.modPanel_agenda (s : State) (p : Nat) (f : Panel → Panel) : (s.modPanel p f).agenda = s.agenda := rfl
@[simp] theorem State.modPanel_cur (s : State) (p : Nat) (f : Panel → Panel) : (s.modPanel p f).cur = s.cur := rfl
@[simp] theorem State.modPanel_tick (s : State) (p : Nat) (f : Panel → Panel) : (s.modPanel p f).tick = s.tick := rfl
@[simp] theorem State.modPanel_freeCount (s : State) (p : Nat) (f : Panel → Panel) : (s.modPanel p f).freeCount = s.freeCount := rfl

/-! ### `State.modGrid` changes nothing but `grids` -/

@[simp] theorem State.modGrid_powered (s : State) (g : Nat) (f : Grid → Grid) : (s.modGrid g f).powered = s.powered := rfl
@[simp] theorem State.modGrid_gtime (s : State) (g : Nat) (f : Grid → Grid) : (s.modGrid g f).gtime = s.gtime := rfl
@[simp] theorem State.modGrid_parts (s : State) (g : Nat) (f : Grid → Grid) : (s.modGrid g f).parts = s.parts := rfl
@[simp] theorem State.modGrid_panels (s : State) (g : Nat) (f : Grid → Grid) : (s.modGrid g f).panels = s.panels := rfl
@[simp] theorem State.modGrid_teams (s : State) (g : Nat) (f : Grid → Grid) : (s.modGrid g f).teams = s.teams := rfl
@[simp] theorem State.modGrid_groups (s : State) (g : Nat) (f : Grid → Grid) : (s.modGrid g f).groups = s.groups := rfl
@[simp] theorem State.modGrid_cores (s : State) (g : Nat) (f : Grid → Grid) : (s.modGrid g f).cores = s.cores := rfl
@[simp] theorem State.modGrid_clusters (s : State) (g : Nat) (f : Grid → Grid) : (s.modGrid g f).clusters = s.clusters := rfl
@[simp] theorem State.modGrid_dies (s : State) (g : Nat) (f : Grid → Grid) : (s.modGrid g f).dies = s.dies := rfl
@[simp] theorem State.modGrid_mem (s : State) (g : Nat) (f : Grid → Grid) : (s.modGrid g f).mem = s.mem := rfl
@[simp] theorem State.modGrid_flights (s : State) (g : Nat) (f : Grid → Grid) : (s.modGrid g f).flights = s.flights := rfl
@[simp] theorem State.modGrid_nextFlight (s : State) (g : Nat) (f : Grid → Grid) : (s.modGrid g f).nextFlight = s.nextFlight := rfl
@[simp] theorem State.modGrid_peerTraffic (s : State) (g : Nat) (f : Grid → Grid) : (s.modGrid g f).peerTraffic = s.peerTraffic := rfl
@[simp] theorem State.modGrid_peerReplies (s : State) (g : Nat) (f : Grid → Grid) : (s.modGrid g f).peerReplies = s.peerReplies := rfl
@[simp] theorem State.modGrid_sessions (s : State) (g : Nat) (f : Grid → Grid) : (s.modGrid g f).sessions = s.sessions := rfl
@[simp] theorem State.modGrid_drops (s : State) (g : Nat) (f : Grid → Grid) : (s.modGrid g f).drops = s.drops := rfl
@[simp] theorem State.modGrid_portDrops (s : State) (g : Nat) (f : Grid → Grid) : (s.modGrid g f).portDrops = s.portDrops := rfl
@[simp] theorem State.modGrid_responses (s : State) (g : Nat) (f : Grid → Grid) : (s.modGrid g f).responses = s.responses := rfl
@[simp] theorem State.modGrid_hostEvents (s : State) (g : Nat) (f : Grid → Grid) : (s.modGrid g f).hostEvents = s.hostEvents := rfl
@[simp] theorem State.modGrid_pending (s : State) (g : Nat) (f : Grid → Grid) : (s.modGrid g f).pending = s.pending := rfl
@[simp] theorem State.modGrid_commands (s : State) (g : Nat) (f : Grid → Grid) : (s.modGrid g f).commands = s.commands := rfl
@[simp] theorem State.modGrid_recordings (s : State) (g : Nat) (f : Grid → Grid) : (s.modGrid g f).recordings = s.recordings := rfl
@[simp] theorem State.modGrid_boot (s : State) (g : Nat) (f : Grid → Grid) : (s.modGrid g f).boot = s.boot := rfl
@[simp] theorem State.modGrid_diodes (s : State) (g : Nat) (f : Grid → Grid) : (s.modGrid g f).diodes = s.diodes := rfl
@[simp] theorem State.modGrid_hot (s : State) (g : Nat) (f : Grid → Grid) : (s.modGrid g f).hot = s.hot := rfl
@[simp] theorem State.modGrid_polls (s : State) (g : Nat) (f : Grid → Grid) : (s.modGrid g f).polls = s.polls := rfl
@[simp] theorem State.modGrid_windows (s : State) (g : Nat) (f : Grid → Grid) : (s.modGrid g f).windows = s.windows := rfl
@[simp] theorem State.modGrid_rows (s : State) (g : Nat) (f : Grid → Grid) : (s.modGrid g f).rows = s.rows := rfl
@[simp] theorem State.modGrid_spared (s : State) (g : Nat) (f : Grid → Grid) : (s.modGrid g f).spared = s.spared := rfl
@[simp] theorem State.modGrid_flash (s : State) (g : Nat) (f : Grid → Grid) : (s.modGrid g f).flash = s.flash := rfl
@[simp] theorem State.modGrid_lastSync (s : State) (g : Nat) (f : Grid → Grid) : (s.modGrid g f).lastSync = s.lastSync := rfl
@[simp] theorem State.modGrid_inHoldover (s : State) (g : Nat) (f : Grid → Grid) : (s.modGrid g f).inHoldover = s.inHoldover := rfl
@[simp] theorem State.modGrid_relocking (s : State) (g : Nat) (f : Grid → Grid) : (s.modGrid g f).relocking = s.relocking := rfl
@[simp] theorem State.modGrid_correction (s : State) (g : Nat) (f : Grid → Grid) : (s.modGrid g f).correction = s.correction := rfl
@[simp] theorem State.modGrid_slewCredit (s : State) (g : Nat) (f : Grid → Grid) : (s.modGrid g f).slewCredit = s.slewCredit := rfl
@[simp] theorem State.modGrid_offset (s : State) (g : Nat) (f : Grid → Grid) : (s.modGrid g f).offset = s.offset := rfl
@[simp] theorem State.modGrid_quotes (s : State) (g : Nat) (f : Grid → Grid) : (s.modGrid g f).quotes = s.quotes := rfl
@[simp] theorem State.modGrid_agenda (s : State) (g : Nat) (f : Grid → Grid) : (s.modGrid g f).agenda = s.agenda := rfl
@[simp] theorem State.modGrid_cur (s : State) (g : Nat) (f : Grid → Grid) : (s.modGrid g f).cur = s.cur := rfl
@[simp] theorem State.modGrid_tick (s : State) (g : Nat) (f : Grid → Grid) : (s.modGrid g f).tick = s.tick := rfl
@[simp] theorem State.modGrid_freeCount (s : State) (g : Nat) (f : Grid → Grid) : (s.modGrid g f).freeCount = s.freeCount := rfl

/-! ### `State.modCore` changes nothing but `cores` -/

@[simp] theorem State.modCore_powered (s : State) (k : Nat) (f : Core → Core) : (s.modCore k f).powered = s.powered := rfl
@[simp] theorem State.modCore_gtime (s : State) (k : Nat) (f : Core → Core) : (s.modCore k f).gtime = s.gtime := rfl
@[simp] theorem State.modCore_parts (s : State) (k : Nat) (f : Core → Core) : (s.modCore k f).parts = s.parts := rfl
@[simp] theorem State.modCore_grids (s : State) (k : Nat) (f : Core → Core) : (s.modCore k f).grids = s.grids := rfl
@[simp] theorem State.modCore_panels (s : State) (k : Nat) (f : Core → Core) : (s.modCore k f).panels = s.panels := rfl
@[simp] theorem State.modCore_teams (s : State) (k : Nat) (f : Core → Core) : (s.modCore k f).teams = s.teams := rfl
@[simp] theorem State.modCore_groups (s : State) (k : Nat) (f : Core → Core) : (s.modCore k f).groups = s.groups := rfl
@[simp] theorem State.modCore_clusters (s : State) (k : Nat) (f : Core → Core) : (s.modCore k f).clusters = s.clusters := rfl
@[simp] theorem State.modCore_dies (s : State) (k : Nat) (f : Core → Core) : (s.modCore k f).dies = s.dies := rfl
@[simp] theorem State.modCore_mem (s : State) (k : Nat) (f : Core → Core) : (s.modCore k f).mem = s.mem := rfl
@[simp] theorem State.modCore_flights (s : State) (k : Nat) (f : Core → Core) : (s.modCore k f).flights = s.flights := rfl
@[simp] theorem State.modCore_nextFlight (s : State) (k : Nat) (f : Core → Core) : (s.modCore k f).nextFlight = s.nextFlight := rfl
@[simp] theorem State.modCore_peerTraffic (s : State) (k : Nat) (f : Core → Core) : (s.modCore k f).peerTraffic = s.peerTraffic := rfl
@[simp] theorem State.modCore_peerReplies (s : State) (k : Nat) (f : Core → Core) : (s.modCore k f).peerReplies = s.peerReplies := rfl
@[simp] theorem State.modCore_sessions (s : State) (k : Nat) (f : Core → Core) : (s.modCore k f).sessions = s.sessions := rfl
@[simp] theorem State.modCore_drops (s : State) (k : Nat) (f : Core → Core) : (s.modCore k f).drops = s.drops := rfl
@[simp] theorem State.modCore_portDrops (s : State) (k : Nat) (f : Core → Core) : (s.modCore k f).portDrops = s.portDrops := rfl
@[simp] theorem State.modCore_responses (s : State) (k : Nat) (f : Core → Core) : (s.modCore k f).responses = s.responses := rfl
@[simp] theorem State.modCore_hostEvents (s : State) (k : Nat) (f : Core → Core) : (s.modCore k f).hostEvents = s.hostEvents := rfl
@[simp] theorem State.modCore_pending (s : State) (k : Nat) (f : Core → Core) : (s.modCore k f).pending = s.pending := rfl
@[simp] theorem State.modCore_commands (s : State) (k : Nat) (f : Core → Core) : (s.modCore k f).commands = s.commands := rfl
@[simp] theorem State.modCore_recordings (s : State) (k : Nat) (f : Core → Core) : (s.modCore k f).recordings = s.recordings := rfl
@[simp] theorem State.modCore_boot (s : State) (k : Nat) (f : Core → Core) : (s.modCore k f).boot = s.boot := rfl
@[simp] theorem State.modCore_diodes (s : State) (k : Nat) (f : Core → Core) : (s.modCore k f).diodes = s.diodes := rfl
@[simp] theorem State.modCore_hot (s : State) (k : Nat) (f : Core → Core) : (s.modCore k f).hot = s.hot := rfl
@[simp] theorem State.modCore_polls (s : State) (k : Nat) (f : Core → Core) : (s.modCore k f).polls = s.polls := rfl
@[simp] theorem State.modCore_windows (s : State) (k : Nat) (f : Core → Core) : (s.modCore k f).windows = s.windows := rfl
@[simp] theorem State.modCore_rows (s : State) (k : Nat) (f : Core → Core) : (s.modCore k f).rows = s.rows := rfl
@[simp] theorem State.modCore_spared (s : State) (k : Nat) (f : Core → Core) : (s.modCore k f).spared = s.spared := rfl
@[simp] theorem State.modCore_flash (s : State) (k : Nat) (f : Core → Core) : (s.modCore k f).flash = s.flash := rfl
@[simp] theorem State.modCore_lastSync (s : State) (k : Nat) (f : Core → Core) : (s.modCore k f).lastSync = s.lastSync := rfl
@[simp] theorem State.modCore_inHoldover (s : State) (k : Nat) (f : Core → Core) : (s.modCore k f).inHoldover = s.inHoldover := rfl
@[simp] theorem State.modCore_relocking (s : State) (k : Nat) (f : Core → Core) : (s.modCore k f).relocking = s.relocking := rfl
@[simp] theorem State.modCore_correction (s : State) (k : Nat) (f : Core → Core) : (s.modCore k f).correction = s.correction := rfl
@[simp] theorem State.modCore_slewCredit (s : State) (k : Nat) (f : Core → Core) : (s.modCore k f).slewCredit = s.slewCredit := rfl
@[simp] theorem State.modCore_offset (s : State) (k : Nat) (f : Core → Core) : (s.modCore k f).offset = s.offset := rfl
@[simp] theorem State.modCore_quotes (s : State) (k : Nat) (f : Core → Core) : (s.modCore k f).quotes = s.quotes := rfl
@[simp] theorem State.modCore_agenda (s : State) (k : Nat) (f : Core → Core) : (s.modCore k f).agenda = s.agenda := rfl
@[simp] theorem State.modCore_cur (s : State) (k : Nat) (f : Core → Core) : (s.modCore k f).cur = s.cur := rfl
@[simp] theorem State.modCore_tick (s : State) (k : Nat) (f : Core → Core) : (s.modCore k f).tick = s.tick := rfl
@[simp] theorem State.modCore_freeCount (s : State) (k : Nat) (f : Core → Core) : (s.modCore k f).freeCount = s.freeCount := rfl

/-! ### `State.modCluster` changes nothing but `clusters` -/

@[simp] theorem State.modCluster_powered (s : State) (k : Nat) (f : Cluster → Cluster) : (s.modCluster k f).powered = s.powered := rfl
@[simp] theorem State.modCluster_gtime (s : State) (k : Nat) (f : Cluster → Cluster) : (s.modCluster k f).gtime = s.gtime := rfl
@[simp] theorem State.modCluster_parts (s : State) (k : Nat) (f : Cluster → Cluster) : (s.modCluster k f).parts = s.parts := rfl
@[simp] theorem State.modCluster_grids (s : State) (k : Nat) (f : Cluster → Cluster) : (s.modCluster k f).grids = s.grids := rfl
@[simp] theorem State.modCluster_panels (s : State) (k : Nat) (f : Cluster → Cluster) : (s.modCluster k f).panels = s.panels := rfl
@[simp] theorem State.modCluster_teams (s : State) (k : Nat) (f : Cluster → Cluster) : (s.modCluster k f).teams = s.teams := rfl
@[simp] theorem State.modCluster_groups (s : State) (k : Nat) (f : Cluster → Cluster) : (s.modCluster k f).groups = s.groups := rfl
@[simp] theorem State.modCluster_cores (s : State) (k : Nat) (f : Cluster → Cluster) : (s.modCluster k f).cores = s.cores := rfl
@[simp] theorem State.modCluster_dies (s : State) (k : Nat) (f : Cluster → Cluster) : (s.modCluster k f).dies = s.dies := rfl
@[simp] theorem State.modCluster_mem (s : State) (k : Nat) (f : Cluster → Cluster) : (s.modCluster k f).mem = s.mem := rfl
@[simp] theorem State.modCluster_flights (s : State) (k : Nat) (f : Cluster → Cluster) : (s.modCluster k f).flights = s.flights := rfl
@[simp] theorem State.modCluster_nextFlight (s : State) (k : Nat) (f : Cluster → Cluster) : (s.modCluster k f).nextFlight = s.nextFlight := rfl
@[simp] theorem State.modCluster_peerTraffic (s : State) (k : Nat) (f : Cluster → Cluster) : (s.modCluster k f).peerTraffic = s.peerTraffic := rfl
@[simp] theorem State.modCluster_peerReplies (s : State) (k : Nat) (f : Cluster → Cluster) : (s.modCluster k f).peerReplies = s.peerReplies := rfl
@[simp] theorem State.modCluster_sessions (s : State) (k : Nat) (f : Cluster → Cluster) : (s.modCluster k f).sessions = s.sessions := rfl
@[simp] theorem State.modCluster_drops (s : State) (k : Nat) (f : Cluster → Cluster) : (s.modCluster k f).drops = s.drops := rfl
@[simp] theorem State.modCluster_portDrops (s : State) (k : Nat) (f : Cluster → Cluster) : (s.modCluster k f).portDrops = s.portDrops := rfl
@[simp] theorem State.modCluster_responses (s : State) (k : Nat) (f : Cluster → Cluster) : (s.modCluster k f).responses = s.responses := rfl
@[simp] theorem State.modCluster_hostEvents (s : State) (k : Nat) (f : Cluster → Cluster) : (s.modCluster k f).hostEvents = s.hostEvents := rfl
@[simp] theorem State.modCluster_pending (s : State) (k : Nat) (f : Cluster → Cluster) : (s.modCluster k f).pending = s.pending := rfl
@[simp] theorem State.modCluster_commands (s : State) (k : Nat) (f : Cluster → Cluster) : (s.modCluster k f).commands = s.commands := rfl
@[simp] theorem State.modCluster_recordings (s : State) (k : Nat) (f : Cluster → Cluster) : (s.modCluster k f).recordings = s.recordings := rfl
@[simp] theorem State.modCluster_boot (s : State) (k : Nat) (f : Cluster → Cluster) : (s.modCluster k f).boot = s.boot := rfl
@[simp] theorem State.modCluster_diodes (s : State) (k : Nat) (f : Cluster → Cluster) : (s.modCluster k f).diodes = s.diodes := rfl
@[simp] theorem State.modCluster_hot (s : State) (k : Nat) (f : Cluster → Cluster) : (s.modCluster k f).hot = s.hot := rfl
@[simp] theorem State.modCluster_polls (s : State) (k : Nat) (f : Cluster → Cluster) : (s.modCluster k f).polls = s.polls := rfl
@[simp] theorem State.modCluster_windows (s : State) (k : Nat) (f : Cluster → Cluster) : (s.modCluster k f).windows = s.windows := rfl
@[simp] theorem State.modCluster_rows (s : State) (k : Nat) (f : Cluster → Cluster) : (s.modCluster k f).rows = s.rows := rfl
@[simp] theorem State.modCluster_spared (s : State) (k : Nat) (f : Cluster → Cluster) : (s.modCluster k f).spared = s.spared := rfl
@[simp] theorem State.modCluster_flash (s : State) (k : Nat) (f : Cluster → Cluster) : (s.modCluster k f).flash = s.flash := rfl
@[simp] theorem State.modCluster_lastSync (s : State) (k : Nat) (f : Cluster → Cluster) : (s.modCluster k f).lastSync = s.lastSync := rfl
@[simp] theorem State.modCluster_inHoldover (s : State) (k : Nat) (f : Cluster → Cluster) : (s.modCluster k f).inHoldover = s.inHoldover := rfl
@[simp] theorem State.modCluster_relocking (s : State) (k : Nat) (f : Cluster → Cluster) : (s.modCluster k f).relocking = s.relocking := rfl
@[simp] theorem State.modCluster_correction (s : State) (k : Nat) (f : Cluster → Cluster) : (s.modCluster k f).correction = s.correction := rfl
@[simp] theorem State.modCluster_slewCredit (s : State) (k : Nat) (f : Cluster → Cluster) : (s.modCluster k f).slewCredit = s.slewCredit := rfl
@[simp] theorem State.modCluster_offset (s : State) (k : Nat) (f : Cluster → Cluster) : (s.modCluster k f).offset = s.offset := rfl
@[simp] theorem State.modCluster_quotes (s : State) (k : Nat) (f : Cluster → Cluster) : (s.modCluster k f).quotes = s.quotes := rfl
@[simp] theorem State.modCluster_agenda (s : State) (k : Nat) (f : Cluster → Cluster) : (s.modCluster k f).agenda = s.agenda := rfl
@[simp] theorem State.modCluster_cur (s : State) (k : Nat) (f : Cluster → Cluster) : (s.modCluster k f).cur = s.cur := rfl
@[simp] theorem State.modCluster_tick (s : State) (k : Nat) (f : Cluster → Cluster) : (s.modCluster k f).tick = s.tick := rfl
@[simp] theorem State.modCluster_freeCount (s : State) (k : Nat) (f : Cluster → Cluster) : (s.modCluster k f).freeCount = s.freeCount := rfl

/-! ### `State.modDie` changes nothing but `dies` -/

@[simp] theorem State.modDie_powered (s : State) (k : Nat) (f : Die → Die) : (s.modDie k f).powered = s.powered := rfl
@[simp] theorem State.modDie_gtime (s : State) (k : Nat) (f : Die → Die) : (s.modDie k f).gtime = s.gtime := rfl
@[simp] theorem State.modDie_parts (s : State) (k : Nat) (f : Die → Die) : (s.modDie k f).parts = s.parts := rfl
@[simp] theorem State.modDie_grids (s : State) (k : Nat) (f : Die → Die) : (s.modDie k f).grids = s.grids := rfl
@[simp] theorem State.modDie_panels (s : State) (k : Nat) (f : Die → Die) : (s.modDie k f).panels = s.panels := rfl
@[simp] theorem State.modDie_teams (s : State) (k : Nat) (f : Die → Die) : (s.modDie k f).teams = s.teams := rfl
@[simp] theorem State.modDie_groups (s : State) (k : Nat) (f : Die → Die) : (s.modDie k f).groups = s.groups := rfl
@[simp] theorem State.modDie_cores (s : State) (k : Nat) (f : Die → Die) : (s.modDie k f).cores = s.cores := rfl
@[simp] theorem State.modDie_clusters (s : State) (k : Nat) (f : Die → Die) : (s.modDie k f).clusters = s.clusters := rfl
@[simp] theorem State.modDie_mem (s : State) (k : Nat) (f : Die → Die) : (s.modDie k f).mem = s.mem := rfl
@[simp] theorem State.modDie_flights (s : State) (k : Nat) (f : Die → Die) : (s.modDie k f).flights = s.flights := rfl
@[simp] theorem State.modDie_nextFlight (s : State) (k : Nat) (f : Die → Die) : (s.modDie k f).nextFlight = s.nextFlight := rfl
@[simp] theorem State.modDie_peerTraffic (s : State) (k : Nat) (f : Die → Die) : (s.modDie k f).peerTraffic = s.peerTraffic := rfl
@[simp] theorem State.modDie_peerReplies (s : State) (k : Nat) (f : Die → Die) : (s.modDie k f).peerReplies = s.peerReplies := rfl
@[simp] theorem State.modDie_sessions (s : State) (k : Nat) (f : Die → Die) : (s.modDie k f).sessions = s.sessions := rfl
@[simp] theorem State.modDie_drops (s : State) (k : Nat) (f : Die → Die) : (s.modDie k f).drops = s.drops := rfl
@[simp] theorem State.modDie_portDrops (s : State) (k : Nat) (f : Die → Die) : (s.modDie k f).portDrops = s.portDrops := rfl
@[simp] theorem State.modDie_responses (s : State) (k : Nat) (f : Die → Die) : (s.modDie k f).responses = s.responses := rfl
@[simp] theorem State.modDie_hostEvents (s : State) (k : Nat) (f : Die → Die) : (s.modDie k f).hostEvents = s.hostEvents := rfl
@[simp] theorem State.modDie_pending (s : State) (k : Nat) (f : Die → Die) : (s.modDie k f).pending = s.pending := rfl
@[simp] theorem State.modDie_commands (s : State) (k : Nat) (f : Die → Die) : (s.modDie k f).commands = s.commands := rfl
@[simp] theorem State.modDie_recordings (s : State) (k : Nat) (f : Die → Die) : (s.modDie k f).recordings = s.recordings := rfl
@[simp] theorem State.modDie_boot (s : State) (k : Nat) (f : Die → Die) : (s.modDie k f).boot = s.boot := rfl
@[simp] theorem State.modDie_diodes (s : State) (k : Nat) (f : Die → Die) : (s.modDie k f).diodes = s.diodes := rfl
@[simp] theorem State.modDie_hot (s : State) (k : Nat) (f : Die → Die) : (s.modDie k f).hot = s.hot := rfl
@[simp] theorem State.modDie_polls (s : State) (k : Nat) (f : Die → Die) : (s.modDie k f).polls = s.polls := rfl
@[simp] theorem State.modDie_windows (s : State) (k : Nat) (f : Die → Die) : (s.modDie k f).windows = s.windows := rfl
@[simp] theorem State.modDie_rows (s : State) (k : Nat) (f : Die → Die) : (s.modDie k f).rows = s.rows := rfl
@[simp] theorem State.modDie_spared (s : State) (k : Nat) (f : Die → Die) : (s.modDie k f).spared = s.spared := rfl
@[simp] theorem State.modDie_flash (s : State) (k : Nat) (f : Die → Die) : (s.modDie k f).flash = s.flash := rfl
@[simp] theorem State.modDie_lastSync (s : State) (k : Nat) (f : Die → Die) : (s.modDie k f).lastSync = s.lastSync := rfl
@[simp] theorem State.modDie_inHoldover (s : State) (k : Nat) (f : Die → Die) : (s.modDie k f).inHoldover = s.inHoldover := rfl
@[simp] theorem State.modDie_relocking (s : State) (k : Nat) (f : Die → Die) : (s.modDie k f).relocking = s.relocking := rfl
@[simp] theorem State.modDie_correction (s : State) (k : Nat) (f : Die → Die) : (s.modDie k f).correction = s.correction := rfl
@[simp] theorem State.modDie_slewCredit (s : State) (k : Nat) (f : Die → Die) : (s.modDie k f).slewCredit = s.slewCredit := rfl
@[simp] theorem State.modDie_offset (s : State) (k : Nat) (f : Die → Die) : (s.modDie k f).offset = s.offset := rfl
@[simp] theorem State.modDie_quotes (s : State) (k : Nat) (f : Die → Die) : (s.modDie k f).quotes = s.quotes := rfl
@[simp] theorem State.modDie_agenda (s : State) (k : Nat) (f : Die → Die) : (s.modDie k f).agenda = s.agenda := rfl
@[simp] theorem State.modDie_cur (s : State) (k : Nat) (f : Die → Die) : (s.modDie k f).cur = s.cur := rfl
@[simp] theorem State.modDie_tick (s : State) (k : Nat) (f : Die → Die) : (s.modDie k f).tick = s.tick := rfl
@[simp] theorem State.modDie_freeCount (s : State) (k : Nat) (f : Die → Die) : (s.modDie k f).freeCount = s.freeCount := rfl

/-! ### `State.setMem` -/

@[simp] theorem State.setMem_powered (s : State) (m : Memory) : (s.setMem m).powered = s.powered := rfl
@[simp] theorem State.setMem_gtime (s : State) (m : Memory) : (s.setMem m).gtime = s.gtime := rfl
@[simp] theorem State.setMem_parts (s : State) (m : Memory) : (s.setMem m).parts = s.parts := rfl
@[simp] theorem State.setMem_grids (s : State) (m : Memory) : (s.setMem m).grids = s.grids := rfl
@[simp] theorem State.setMem_panels (s : State) (m : Memory) : (s.setMem m).panels = s.panels := rfl
@[simp] theorem State.setMem_teams (s : State) (m : Memory) : (s.setMem m).teams = s.teams := rfl
@[simp] theorem State.setMem_groups (s : State) (m : Memory) : (s.setMem m).groups = s.groups := rfl
@[simp] theorem State.setMem_cores (s : State) (m : Memory) : (s.setMem m).cores = s.cores := rfl
@[simp] theorem State.setMem_clusters (s : State) (m : Memory) : (s.setMem m).clusters = s.clusters := rfl
@[simp] theorem State.setMem_dies (s : State) (m : Memory) : (s.setMem m).dies = s.dies := rfl
@[simp] theorem State.setMem_mem (s : State) (m : Memory) : (s.setMem m).mem = m := rfl
@[simp] theorem State.setMem_flights (s : State) (m : Memory) : (s.setMem m).flights = s.flights := rfl
@[simp] theorem State.setMem_nextFlight (s : State) (m : Memory) : (s.setMem m).nextFlight = s.nextFlight := rfl
@[simp] theorem State.setMem_peerTraffic (s : State) (m : Memory) : (s.setMem m).peerTraffic = s.peerTraffic := rfl
@[simp] theorem State.setMem_peerReplies (s : State) (m : Memory) : (s.setMem m).peerReplies = s.peerReplies := rfl
@[simp] theorem State.setMem_sessions (s : State) (m : Memory) : (s.setMem m).sessions = s.sessions := rfl
@[simp] theorem State.setMem_drops (s : State) (m : Memory) : (s.setMem m).drops = s.drops := rfl
@[simp] theorem State.setMem_portDrops (s : State) (m : Memory) : (s.setMem m).portDrops = s.portDrops := rfl
@[simp] theorem State.setMem_responses (s : State) (m : Memory) : (s.setMem m).responses = s.responses := rfl
@[simp] theorem State.setMem_hostEvents (s : State) (m : Memory) : (s.setMem m).hostEvents = s.hostEvents := rfl
@[simp] theorem State.setMem_pending (s : State) (m : Memory) : (s.setMem m).pending = s.pending := rfl
@[simp] theorem State.setMem_commands (s : State) (m : Memory) : (s.setMem m).commands = s.commands := rfl
@[simp] theorem State.setMem_recordings (s : State) (m : Memory) : (s.setMem m).recordings = s.recordings := rfl
@[simp] theorem State.setMem_boot (s : State) (m : Memory) : (s.setMem m).boot = s.boot := rfl
@[simp] theorem State.setMem_diodes (s : State) (m : Memory) : (s.setMem m).diodes = s.diodes := rfl
@[simp] theorem State.setMem_hot (s : State) (m : Memory) : (s.setMem m).hot = s.hot := rfl
@[simp] theorem State.setMem_polls (s : State) (m : Memory) : (s.setMem m).polls = s.polls := rfl
@[simp] theorem State.setMem_windows (s : State) (m : Memory) : (s.setMem m).windows = s.windows := rfl
@[simp] theorem State.setMem_rows (s : State) (m : Memory) : (s.setMem m).rows = s.rows := rfl
@[simp] theorem State.setMem_spared (s : State) (m : Memory) : (s.setMem m).spared = s.spared := rfl
@[simp] theorem State.setMem_flash (s : State) (m : Memory) : (s.setMem m).flash = s.flash := rfl
@[simp] theorem State.setMem_lastSync (s : State) (m : Memory) : (s.setMem m).lastSync = s.lastSync := rfl
@[simp] theorem State.setMem_inHoldover (s : State) (m : Memory) : (s.setMem m).inHoldover = s.inHoldover := rfl
@[simp] theorem State.setMem_relocking (s : State) (m : Memory) : (s.setMem m).relocking = s.relocking := rfl
@[simp] theorem State.setMem_correction (s : State) (m : Memory) : (s.setMem m).correction = s.correction := rfl
@[simp] theorem State.setMem_slewCredit (s : State) (m : Memory) : (s.setMem m).slewCredit = s.slewCredit := rfl
@[simp] theorem State.setMem_offset (s : State) (m : Memory) : (s.setMem m).offset = s.offset := rfl
@[simp] theorem State.setMem_quotes (s : State) (m : Memory) : (s.setMem m).quotes = s.quotes := rfl
@[simp] theorem State.setMem_agenda (s : State) (m : Memory) : (s.setMem m).agenda = s.agenda := rfl
@[simp] theorem State.setMem_cur (s : State) (m : Memory) : (s.setMem m).cur = s.cur := rfl
@[simp] theorem State.setMem_tick (s : State) (m : Memory) : (s.setMem m).tick = s.tick := rfl
@[simp] theorem State.setMem_freeCount (s : State) (m : Memory) : (s.setMem m).freeCount = s.freeCount := rfl

/-! ### `Group.modSlice` changes nothing but the slices -/

@[simp] theorem Group.modSlice_part (g : Group) (i : Nat) (f : Slice → Slice) : (g.modSlice i f).part = g.part := rfl
@[simp] theorem Group.modSlice_grid (g : Group) (i : Nat) (f : Slice → Slice) : (g.modSlice i f).grid = g.grid := rfl
@[simp] theorem Group.modSlice_panel (g : Group) (i : Nat) (f : Slice → Slice) : (g.modSlice i f).panel = g.panel := rfl
@[simp] theorem Group.modSlice_team (g : Group) (i : Nat) (f : Slice → Slice) : (g.modSlice i f).team = g.team := rfl
@[simp] theorem Group.modSlice_core (g : Group) (i : Nat) (f : Slice → Slice) : (g.modSlice i f).core = g.core := rfl
@[simp] theorem Group.modSlice_index (g : Group) (i : Nat) (f : Slice → Slice) : (g.modSlice i f).index = g.index := rfl
@[simp] theorem Group.modSlice_slot (g : Group) (i : Nat) (f : Slice → Slice) : (g.modSlice i f).slot = g.slot := rfl
@[simp] theorem Group.modSlice_admission (g : Group) (i : Nat) (f : Slice → Slice) : (g.modSlice i f).admission = g.admission := rfl
@[simp] theorem Group.modSlice_status (g : Group) (i : Nat) (f : Slice → Slice) : (g.modSlice i f).status = g.status := rfl
@[simp] theorem Group.modSlice_gregs (g : Group) (i : Nat) (f : Slice → Slice) : (g.modSlice i f).gregs = g.gregs := rfl
@[simp] theorem Group.modSlice_prio (g : Group) (i : Nat) (f : Slice → Slice) : (g.modSlice i f).prio = g.prio := rfl
@[simp] theorem Group.modSlice_retired (g : Group) (i : Nat) (f : Slice → Slice) : (g.modSlice i f).retired = g.retired := rfl
@[simp] theorem Group.modSlice_priv (g : Group) (i : Nat) (f : Slice → Slice) : (g.modSlice i f).priv = g.priv := rfl
@[simp] theorem Group.modSlice_saving (g : Group) (i : Nat) (f : Slice → Slice) : (g.modSlice i f).saving = g.saving := rfl
@[simp] theorem Group.modSlice_ctx (g : Group) (i : Nat) (f : Slice → Slice) : (g.modSlice i f).ctx = g.ctx := rfl
@[simp] theorem Group.modSlice_area (g : Group) (i : Nat) (f : Slice → Slice) : (g.modSlice i f).area = g.area := rfl
@[simp] theorem Group.modSlice_chunks (g : Group) (i : Nat) (f : Slice → Slice) : (g.modSlice i f).chunks = g.chunks := rfl
@[simp] theorem Group.modSlice_latch (g : Group) (i : Nat) (f : Slice → Slice) : (g.modSlice i f).latch = g.latch := rfl
@[simp] theorem Group.modSlice_waits (g : Group) (i : Nat) (f : Slice → Slice) : (g.modSlice i f).waits = g.waits := rfl
@[simp] theorem Group.modSlice_wantCheck (g : Group) (i : Nat) (f : Slice → Slice) : (g.modSlice i f).wantCheck = g.wantCheck := rfl
@[simp] theorem Group.modSlice_wantDebug (g : Group) (i : Nat) (f : Slice → Slice) : (g.modSlice i f).wantDebug = g.wantDebug := rfl
@[simp] theorem Group.modSlice_wantPreempt (g : Group) (i : Nat) (f : Slice → Slice) : (g.modSlice i f).wantPreempt = g.wantPreempt := rfl
@[simp] theorem Group.modSlice_preemptSub (g : Group) (i : Nat) (f : Slice → Slice) : (g.modSlice i f).preemptSub = g.preemptSub := rfl
@[simp] theorem Group.modSlice_stepDone (g : Group) (i : Nat) (f : Slice → Slice) : (g.modSlice i f).stepDone = g.stepDone := rfl
@[simp] theorem Group.modSlice_gpend (g : Group) (i : Nat) (f : Slice → Slice) : (g.modSlice i f).gpend = g.gpend := rfl
@[simp] theorem Group.modSlice_gfail (g : Group) (i : Nat) (f : Slice → Slice) : (g.modSlice i f).gfail = g.gfail := rfl
@[simp] theorem Group.modSlice_spawned (g : Group) (i : Nat) (f : Slice → Slice) : (g.modSlice i f).spawned = g.spawned := rfl
@[simp] theorem Group.modSlice_held (g : Group) (i : Nat) (f : Slice → Slice) : (g.modSlice i f).held = g.held := rfl
@[simp] theorem Group.modSlice_heldLast (g : Group) (i : Nat) (f : Slice → Slice) : (g.modSlice i f).heldLast = g.heldLast := rfl
@[simp] theorem Group.modSlice_wants (g : Group) (i : Nat) (f : Slice → Slice) : (g.modSlice i f).wants = g.wants := rfl
@[simp] theorem Group.modSlice_wantStamps (g : Group) (i : Nat) (f : Slice → Slice) : (g.modSlice i f).wantStamps = g.wantStamps := rfl
@[simp] theorem Group.modSlice_unreserved (g : Group) (i : Nat) (f : Slice → Slice) : (g.modSlice i f).unreserved = g.unreserved := rfl
@[simp] theorem Group.modSlice_laneStamp (g : Group) (i : Nat) (f : Slice → Slice) : (g.modSlice i f).laneStamp = g.laneStamp := rfl
@[simp] theorem Group.modSlice_uniStamp (g : Group) (i : Nat) (f : Slice → Slice) : (g.modSlice i f).uniStamp = g.uniStamp := rfl
@[simp] theorem Group.modSlice_holdsIssue (g : Group) (i : Nat) (f : Slice → Slice) : (g.modSlice i f).holdsIssue = g.holdsIssue := rfl
@[simp] theorem Group.modSlice_issued (g : Group) (i : Nat) (f : Slice → Slice) : (g.modSlice i f).issued = g.issued := rfl
@[simp] theorem Group.modSlice_refused (g : Group) (i : Nat) (f : Slice → Slice) : (g.modSlice i f).refused = g.refused := rfl
@[simp] theorem Group.modSlice_rereserve (g : Group) (i : Nat) (f : Slice → Slice) : (g.modSlice i f).rereserve = g.rereserve := rfl
@[simp] theorem Group.modSlice_payload (g : Group) (i : Nat) (f : Slice → Slice) : (g.modSlice i f).payload = g.payload := rfl
@[simp] theorem Group.modSlice_formed (g : Group) (i : Nat) (f : Slice → Slice) : (g.modSlice i f).formed = g.formed := rfl
@[simp] theorem Group.modSlice_boundSeen (g : Group) (i : Nat) (f : Slice → Slice) : (g.modSlice i f).boundSeen = g.boundSeen := rfl

/-! ### `Group.modSlices` changes nothing but the slices -/

theorem Group.modSlices_eq (g : Group) (is : List Nat) (f : Nat → Slice → Slice) :
    g.modSlices is f = { g with slices := (g.modSlices is f).slices } := by
  unfold Group.modSlices
  induction is generalizing g with
  | nil => rfl
  | cons i is ih => rw [List.foldl_cons, ih]; rfl

@[simp] theorem Group.modSlices_part (g : Group) (is : List Nat) (f : Nat → Slice → Slice) : (g.modSlices is f).part = g.part := by
  rw [Group.modSlices_eq]
@[simp] theorem Group.modSlices_grid (g : Group) (is : List Nat) (f : Nat → Slice → Slice) : (g.modSlices is f).grid = g.grid := by
  rw [Group.modSlices_eq]
@[simp] theorem Group.modSlices_panel (g : Group) (is : List Nat) (f : Nat → Slice → Slice) : (g.modSlices is f).panel = g.panel := by
  rw [Group.modSlices_eq]
@[simp] theorem Group.modSlices_team (g : Group) (is : List Nat) (f : Nat → Slice → Slice) : (g.modSlices is f).team = g.team := by
  rw [Group.modSlices_eq]
@[simp] theorem Group.modSlices_core (g : Group) (is : List Nat) (f : Nat → Slice → Slice) : (g.modSlices is f).core = g.core := by
  rw [Group.modSlices_eq]
@[simp] theorem Group.modSlices_index (g : Group) (is : List Nat) (f : Nat → Slice → Slice) : (g.modSlices is f).index = g.index := by
  rw [Group.modSlices_eq]
@[simp] theorem Group.modSlices_slot (g : Group) (is : List Nat) (f : Nat → Slice → Slice) : (g.modSlices is f).slot = g.slot := by
  rw [Group.modSlices_eq]
@[simp] theorem Group.modSlices_admission (g : Group) (is : List Nat) (f : Nat → Slice → Slice) : (g.modSlices is f).admission = g.admission := by
  rw [Group.modSlices_eq]
@[simp] theorem Group.modSlices_status (g : Group) (is : List Nat) (f : Nat → Slice → Slice) : (g.modSlices is f).status = g.status := by
  rw [Group.modSlices_eq]
@[simp] theorem Group.modSlices_gregs (g : Group) (is : List Nat) (f : Nat → Slice → Slice) : (g.modSlices is f).gregs = g.gregs := by
  rw [Group.modSlices_eq]
@[simp] theorem Group.modSlices_prio (g : Group) (is : List Nat) (f : Nat → Slice → Slice) : (g.modSlices is f).prio = g.prio := by
  rw [Group.modSlices_eq]
@[simp] theorem Group.modSlices_retired (g : Group) (is : List Nat) (f : Nat → Slice → Slice) : (g.modSlices is f).retired = g.retired := by
  rw [Group.modSlices_eq]
@[simp] theorem Group.modSlices_priv (g : Group) (is : List Nat) (f : Nat → Slice → Slice) : (g.modSlices is f).priv = g.priv := by
  rw [Group.modSlices_eq]
@[simp] theorem Group.modSlices_saving (g : Group) (is : List Nat) (f : Nat → Slice → Slice) : (g.modSlices is f).saving = g.saving := by
  rw [Group.modSlices_eq]
@[simp] theorem Group.modSlices_ctx (g : Group) (is : List Nat) (f : Nat → Slice → Slice) : (g.modSlices is f).ctx = g.ctx := by
  rw [Group.modSlices_eq]
@[simp] theorem Group.modSlices_area (g : Group) (is : List Nat) (f : Nat → Slice → Slice) : (g.modSlices is f).area = g.area := by
  rw [Group.modSlices_eq]
@[simp] theorem Group.modSlices_chunks (g : Group) (is : List Nat) (f : Nat → Slice → Slice) : (g.modSlices is f).chunks = g.chunks := by
  rw [Group.modSlices_eq]
@[simp] theorem Group.modSlices_latch (g : Group) (is : List Nat) (f : Nat → Slice → Slice) : (g.modSlices is f).latch = g.latch := by
  rw [Group.modSlices_eq]
@[simp] theorem Group.modSlices_waits (g : Group) (is : List Nat) (f : Nat → Slice → Slice) : (g.modSlices is f).waits = g.waits := by
  rw [Group.modSlices_eq]
@[simp] theorem Group.modSlices_wantCheck (g : Group) (is : List Nat) (f : Nat → Slice → Slice) : (g.modSlices is f).wantCheck = g.wantCheck := by
  rw [Group.modSlices_eq]
@[simp] theorem Group.modSlices_wantDebug (g : Group) (is : List Nat) (f : Nat → Slice → Slice) : (g.modSlices is f).wantDebug = g.wantDebug := by
  rw [Group.modSlices_eq]
@[simp] theorem Group.modSlices_wantPreempt (g : Group) (is : List Nat) (f : Nat → Slice → Slice) : (g.modSlices is f).wantPreempt = g.wantPreempt := by
  rw [Group.modSlices_eq]
@[simp] theorem Group.modSlices_preemptSub (g : Group) (is : List Nat) (f : Nat → Slice → Slice) : (g.modSlices is f).preemptSub = g.preemptSub := by
  rw [Group.modSlices_eq]
@[simp] theorem Group.modSlices_stepDone (g : Group) (is : List Nat) (f : Nat → Slice → Slice) : (g.modSlices is f).stepDone = g.stepDone := by
  rw [Group.modSlices_eq]
@[simp] theorem Group.modSlices_gpend (g : Group) (is : List Nat) (f : Nat → Slice → Slice) : (g.modSlices is f).gpend = g.gpend := by
  rw [Group.modSlices_eq]
@[simp] theorem Group.modSlices_gfail (g : Group) (is : List Nat) (f : Nat → Slice → Slice) : (g.modSlices is f).gfail = g.gfail := by
  rw [Group.modSlices_eq]
@[simp] theorem Group.modSlices_spawned (g : Group) (is : List Nat) (f : Nat → Slice → Slice) : (g.modSlices is f).spawned = g.spawned := by
  rw [Group.modSlices_eq]
@[simp] theorem Group.modSlices_held (g : Group) (is : List Nat) (f : Nat → Slice → Slice) : (g.modSlices is f).held = g.held := by
  rw [Group.modSlices_eq]
@[simp] theorem Group.modSlices_heldLast (g : Group) (is : List Nat) (f : Nat → Slice → Slice) : (g.modSlices is f).heldLast = g.heldLast := by
  rw [Group.modSlices_eq]
@[simp] theorem Group.modSlices_wants (g : Group) (is : List Nat) (f : Nat → Slice → Slice) : (g.modSlices is f).wants = g.wants := by
  rw [Group.modSlices_eq]
@[simp] theorem Group.modSlices_wantStamps (g : Group) (is : List Nat) (f : Nat → Slice → Slice) : (g.modSlices is f).wantStamps = g.wantStamps := by
  rw [Group.modSlices_eq]
@[simp] theorem Group.modSlices_unreserved (g : Group) (is : List Nat) (f : Nat → Slice → Slice) : (g.modSlices is f).unreserved = g.unreserved := by
  rw [Group.modSlices_eq]
@[simp] theorem Group.modSlices_laneStamp (g : Group) (is : List Nat) (f : Nat → Slice → Slice) : (g.modSlices is f).laneStamp = g.laneStamp := by
  rw [Group.modSlices_eq]
@[simp] theorem Group.modSlices_uniStamp (g : Group) (is : List Nat) (f : Nat → Slice → Slice) : (g.modSlices is f).uniStamp = g.uniStamp := by
  rw [Group.modSlices_eq]
@[simp] theorem Group.modSlices_holdsIssue (g : Group) (is : List Nat) (f : Nat → Slice → Slice) : (g.modSlices is f).holdsIssue = g.holdsIssue := by
  rw [Group.modSlices_eq]
@[simp] theorem Group.modSlices_issued (g : Group) (is : List Nat) (f : Nat → Slice → Slice) : (g.modSlices is f).issued = g.issued := by
  rw [Group.modSlices_eq]
@[simp] theorem Group.modSlices_refused (g : Group) (is : List Nat) (f : Nat → Slice → Slice) : (g.modSlices is f).refused = g.refused := by
  rw [Group.modSlices_eq]
@[simp] theorem Group.modSlices_rereserve (g : Group) (is : List Nat) (f : Nat → Slice → Slice) : (g.modSlices is f).rereserve = g.rereserve := by
  rw [Group.modSlices_eq]
@[simp] theorem Group.modSlices_payload (g : Group) (is : List Nat) (f : Nat → Slice → Slice) : (g.modSlices is f).payload = g.payload := by
  rw [Group.modSlices_eq]
@[simp] theorem Group.modSlices_formed (g : Group) (is : List Nat) (f : Nat → Slice → Slice) : (g.modSlices is f).formed = g.formed := by
  rw [Group.modSlices_eq]
@[simp] theorem Group.modSlices_boundSeen (g : Group) (is : List Nat) (f : Nat → Slice → Slice) : (g.modSlices is f).boundSeen = g.boundSeen := by
  rw [Group.modSlices_eq]

/-! ### A group after a retry of its gangs; the records of a cycle written -/

@[simp] theorem Group.retried_part (g : Group) (b : Bool) : (g.retried b).part = g.part := rfl
@[simp] theorem Group.retried_grid (g : Group) (b : Bool) : (g.retried b).grid = g.grid := rfl
@[simp] theorem Group.retried_panel (g : Group) (b : Bool) : (g.retried b).panel = g.panel := rfl
@[simp] theorem Group.retried_team (g : Group) (b : Bool) : (g.retried b).team = g.team := rfl
@[simp] theorem Group.retried_core (g : Group) (b : Bool) : (g.retried b).core = g.core := rfl
@[simp] theorem Group.retried_index (g : Group) (b : Bool) : (g.retried b).index = g.index := rfl
@[simp] theorem Group.retried_slot (g : Group) (b : Bool) : (g.retried b).slot = g.slot := rfl
@[simp] theorem Group.retried_admission (g : Group) (b : Bool) : (g.retried b).admission = g.admission := rfl
@[simp] theorem Group.retried_status (g : Group) (b : Bool) : (g.retried b).status = g.status := rfl
@[simp] theorem Group.retried_slices (g : Group) (b : Bool) : (g.retried b).slices = g.slices := rfl
@[simp] theorem Group.retried_gregs (g : Group) (b : Bool) : (g.retried b).gregs = g.gregs := rfl
@[simp] theorem Group.retried_prio (g : Group) (b : Bool) : (g.retried b).prio = g.prio := rfl
@[simp] theorem Group.retried_retired (g : Group) (b : Bool) : (g.retried b).retired = g.retired := rfl
@[simp] theorem Group.retried_priv (g : Group) (b : Bool) : (g.retried b).priv = g.priv := rfl
@[simp] theorem Group.retried_saving (g : Group) (b : Bool) : (g.retried b).saving = g.saving := rfl
@[simp] theorem Group.retried_ctx (g : Group) (b : Bool) : (g.retried b).ctx = g.ctx := rfl
@[simp] theorem Group.retried_area (g : Group) (b : Bool) : (g.retried b).area = g.area := rfl
@[simp] theorem Group.retried_chunks (g : Group) (b : Bool) : (g.retried b).chunks = g.chunks := rfl
@[simp] theorem Group.retried_latch (g : Group) (b : Bool) : (g.retried b).latch = g.latch := rfl
@[simp] theorem Group.retried_waits (g : Group) (b : Bool) : (g.retried b).waits = g.waits := rfl
@[simp] theorem Group.retried_wantCheck (g : Group) (b : Bool) : (g.retried b).wantCheck = g.wantCheck := rfl
@[simp] theorem Group.retried_wantDebug (g : Group) (b : Bool) : (g.retried b).wantDebug = g.wantDebug := rfl
@[simp] theorem Group.retried_wantPreempt (g : Group) (b : Bool) : (g.retried b).wantPreempt = g.wantPreempt := rfl
@[simp] theorem Group.retried_preemptSub (g : Group) (b : Bool) : (g.retried b).preemptSub = g.preemptSub := rfl
@[simp] theorem Group.retried_stepDone (g : Group) (b : Bool) : (g.retried b).stepDone = g.stepDone := rfl
@[simp] theorem Group.retried_gpend (g : Group) (b : Bool) : (g.retried b).gpend = g.gpend := rfl
@[simp] theorem Group.retried_gfail (g : Group) (b : Bool) : (g.retried b).gfail = g.gfail := rfl
@[simp] theorem Group.retried_spawned (g : Group) (b : Bool) : (g.retried b).spawned = g.spawned := rfl
@[simp] theorem Group.retried_wants (g : Group) (b : Bool) : (g.retried b).wants = g.wants := rfl
@[simp] theorem Group.retried_wantStamps (g : Group) (b : Bool) : (g.retried b).wantStamps = g.wantStamps := rfl
@[simp] theorem Group.retried_unreserved (g : Group) (b : Bool) : (g.retried b).unreserved = g.unreserved := rfl
@[simp] theorem Group.retried_laneStamp (g : Group) (b : Bool) : (g.retried b).laneStamp = g.laneStamp := rfl
@[simp] theorem Group.retried_uniStamp (g : Group) (b : Bool) : (g.retried b).uniStamp = g.uniStamp := rfl
@[simp] theorem Group.retried_holdsIssue (g : Group) (b : Bool) : (g.retried b).holdsIssue = g.holdsIssue := rfl
@[simp] theorem Group.retried_issued (g : Group) (b : Bool) : (g.retried b).issued = g.issued := rfl
@[simp] theorem Group.retried_refused (g : Group) (b : Bool) : (g.retried b).refused = g.refused := rfl
@[simp] theorem Group.retried_rereserve (g : Group) (b : Bool) : (g.retried b).rereserve = g.rereserve := rfl
@[simp] theorem Group.retried_payload (g : Group) (b : Bool) : (g.retried b).payload = g.payload := rfl
@[simp] theorem Group.retried_formed (g : Group) (b : Bool) : (g.retried b).formed = g.formed := rfl
@[simp] theorem Group.retried_boundSeen (g : Group) (b : Bool) : (g.retried b).boundSeen = g.boundSeen := rfl
@[simp] theorem Group.retried_held (g : Group) (b : Bool) : (g.retried b).held = 0 := rfl
@[simp] theorem Group.retried_heldLast (g : Group) (b : Bool) :
    (g.retried b).heldLast = if b then g.heldLast ||| g.held else 0 := rfl
@[simp] theorem State.writeRecords_powered (s : State) (p : Nat → Bool) : (s.writeRecords p).powered = s.powered := rfl
@[simp] theorem State.writeRecords_gtime (s : State) (p : Nat → Bool) : (s.writeRecords p).gtime = s.gtime := rfl
@[simp] theorem State.writeRecords_parts (s : State) (p : Nat → Bool) : (s.writeRecords p).parts = s.parts := rfl
@[simp] theorem State.writeRecords_grids (s : State) (p : Nat → Bool) : (s.writeRecords p).grids = s.grids := rfl
@[simp] theorem State.writeRecords_panels (s : State) (p : Nat → Bool) : (s.writeRecords p).panels = s.panels := rfl
@[simp] theorem State.writeRecords_teams (s : State) (p : Nat → Bool) : (s.writeRecords p).teams = s.teams := rfl
@[simp] theorem State.writeRecords_groups (s : State) (p : Nat → Bool) : (s.writeRecords p).groups = s.groups := rfl
@[simp] theorem State.writeRecords_cores (s : State) (p : Nat → Bool) : (s.writeRecords p).cores = s.cores := rfl
@[simp] theorem State.writeRecords_clusters (s : State) (p : Nat → Bool) : (s.writeRecords p).clusters = s.clusters := rfl
@[simp] theorem State.writeRecords_dies (s : State) (p : Nat → Bool) : (s.writeRecords p).dies = s.dies := rfl
@[simp] theorem State.writeRecords_flights (s : State) (p : Nat → Bool) : (s.writeRecords p).flights = s.flights := rfl
@[simp] theorem State.writeRecords_nextFlight (s : State) (p : Nat → Bool) : (s.writeRecords p).nextFlight = s.nextFlight := rfl
@[simp] theorem State.writeRecords_peerTraffic (s : State) (p : Nat → Bool) : (s.writeRecords p).peerTraffic = s.peerTraffic := rfl
@[simp] theorem State.writeRecords_peerReplies (s : State) (p : Nat → Bool) : (s.writeRecords p).peerReplies = s.peerReplies := rfl
@[simp] theorem State.writeRecords_sessions (s : State) (p : Nat → Bool) : (s.writeRecords p).sessions = s.sessions := rfl
@[simp] theorem State.writeRecords_drops (s : State) (p : Nat → Bool) : (s.writeRecords p).drops = s.drops := rfl
@[simp] theorem State.writeRecords_portDrops (s : State) (p : Nat → Bool) : (s.writeRecords p).portDrops = s.portDrops := rfl
@[simp] theorem State.writeRecords_responses (s : State) (p : Nat → Bool) : (s.writeRecords p).responses = s.responses := rfl
@[simp] theorem State.writeRecords_hostEvents (s : State) (p : Nat → Bool) : (s.writeRecords p).hostEvents = s.hostEvents := rfl
@[simp] theorem State.writeRecords_pending (s : State) (p : Nat → Bool) : (s.writeRecords p).pending = s.pending := rfl
@[simp] theorem State.writeRecords_commands (s : State) (p : Nat → Bool) : (s.writeRecords p).commands = s.commands := rfl
@[simp] theorem State.writeRecords_boot (s : State) (p : Nat → Bool) : (s.writeRecords p).boot = s.boot := rfl
@[simp] theorem State.writeRecords_diodes (s : State) (p : Nat → Bool) : (s.writeRecords p).diodes = s.diodes := rfl
@[simp] theorem State.writeRecords_hot (s : State) (p : Nat → Bool) : (s.writeRecords p).hot = s.hot := rfl
@[simp] theorem State.writeRecords_polls (s : State) (p : Nat → Bool) : (s.writeRecords p).polls = s.polls := rfl
@[simp] theorem State.writeRecords_windows (s : State) (p : Nat → Bool) : (s.writeRecords p).windows = s.windows := rfl
@[simp] theorem State.writeRecords_rows (s : State) (p : Nat → Bool) : (s.writeRecords p).rows = s.rows := rfl
@[simp] theorem State.writeRecords_spared (s : State) (p : Nat → Bool) : (s.writeRecords p).spared = s.spared := rfl
@[simp] theorem State.writeRecords_flash (s : State) (p : Nat → Bool) : (s.writeRecords p).flash = s.flash := rfl
@[simp] theorem State.writeRecords_lastSync (s : State) (p : Nat → Bool) : (s.writeRecords p).lastSync = s.lastSync := rfl
@[simp] theorem State.writeRecords_inHoldover (s : State) (p : Nat → Bool) : (s.writeRecords p).inHoldover = s.inHoldover := rfl
@[simp] theorem State.writeRecords_relocking (s : State) (p : Nat → Bool) : (s.writeRecords p).relocking = s.relocking := rfl
@[simp] theorem State.writeRecords_correction (s : State) (p : Nat → Bool) : (s.writeRecords p).correction = s.correction := rfl
@[simp] theorem State.writeRecords_slewCredit (s : State) (p : Nat → Bool) : (s.writeRecords p).slewCredit = s.slewCredit := rfl
@[simp] theorem State.writeRecords_offset (s : State) (p : Nat → Bool) : (s.writeRecords p).offset = s.offset := rfl
@[simp] theorem State.writeRecords_quotes (s : State) (p : Nat → Bool) : (s.writeRecords p).quotes = s.quotes := rfl
@[simp] theorem State.writeRecords_agenda (s : State) (p : Nat → Bool) : (s.writeRecords p).agenda = s.agenda := rfl
@[simp] theorem State.writeRecords_cur (s : State) (p : Nat → Bool) : (s.writeRecords p).cur = s.cur := rfl
@[simp] theorem State.writeRecords_tick (s : State) (p : Nat → Bool) : (s.writeRecords p).tick = s.tick := rfl
@[simp] theorem State.writeRecords_freeCount (s : State) (p : Nat → Bool) : (s.writeRecords p).freeCount = s.freeCount := rfl

end Sys2Proof.Machine
end

