-- ==== Sys2Proof/Laws/Tables.lean ====
section
/-! SUPPORT. Tables and record accessors: what is read after an update of the same key and of another one. -/

namespace Sys2Proof.Machine

theorem tabGet?_tabSet_self {α : Type} (t : Table α) (k : Nat) (v : α) : tabGet? (tabSet t k v) k = some v := by
  induction t with
  | nil => simp [tabSet, tabGet?]
  | cons e r ih =>
    obtain ⟨j, w⟩ := e
    by_cases h : j = k <;> simp [tabSet, tabGet?, h, ih]

theorem tabGet?_tabSet_other {α : Type} (t : Table α) {k j : Nat} (v : α) (h : j ≠ k) :
    tabGet? (tabSet t k v) j = tabGet? t j := by
  induction t with
  | nil => simp [tabSet, tabGet?, Ne.symm h]
  | cons e r ih =>
    obtain ⟨i, w⟩ := e
    by_cases hi : i = k
    · subst hi; simp [tabSet, tabGet?, Ne.symm h]
    · simp only [tabSet, hi, if_false, tabGet?, ih]

theorem tabGet?_tabErase_other {α : Type} (t : Table α) {k j : Nat} (h : j ≠ k) :
    tabGet? (tabErase t k) j = tabGet? t j := by
  induction t with
  | nil => rfl
  | cons e r ih =>
    obtain ⟨i, w⟩ := e
    unfold tabErase at ih ⊢
    by_cases hi : i = k
    · subst hi; simp [List.filter, tabGet?, Ne.symm h, ih]
    · have hb : (i != k) = true := by simpa using hi
      simp [List.filter, tabGet?, hb, ih]

theorem tabGet?_tabErase_self {α : Type} (t : Table α) (k : Nat) : tabGet? (tabErase t k) k = none := by
  induction t with
  | nil => rfl
  | cons e r ih =>
    obtain ⟨i, w⟩ := e
    unfold tabErase at ih ⊢
    by_cases hi : i = k
    · subst hi; simp [List.filter, ih]
    · have hb : (i != k) = true := by simpa using hi
      simp [List.filter, tabGet?, hb, hi, ih]

@[simp] theorem State.core_setCore_self (s : State) (k : Nat) (c : Core) : (s.setCore k c).core k = c := by
  simp [State.core, State.setCore, tabGet, tabGet?_tabSet_self]

theorem State.core_setCore_other (s : State) {k j : Nat} (c : Core) (h : j ≠ k) : (s.setCore k c).core j = s.core j := by
  simp [State.core, State.setCore, tabGet, tabGet?_tabSet_other _ _ h]

@[simp] theorem State.cluster_setCluster_self (s : State) (k : Nat) (c : Cluster) : (s.setCluster k c).cluster k = c := by
  simp [State.cluster, State.setCluster, tabGet, tabGet?_tabSet_self]

theorem State.cluster_setCluster_other (s : State) {k j : Nat} (c : Cluster) (h : j ≠ k) :
    (s.setCluster k c).cluster j = s.cluster j := by
  simp [State.cluster, State.setCluster, tabGet, tabGet?_tabSet_other _ _ h]

@[simp] theorem State.die_setDie_self (s : State) (k : Nat) (d : Die) : (s.setDie k d).die k = d := by
  simp [State.die, State.setDie, tabGet, tabGet?_tabSet_self]

theorem State.die_setDie_other (s : State) {k j : Nat} (d : Die) (h : j ≠ k) : (s.setDie k d).die j = s.die j := by
  simp [State.die, State.setDie, tabGet, tabGet?_tabSet_other _ _ h]

/-! ### What each update leaves of the other accessors -/

@[simp] theorem State.core_modGroup (s : State) (g : Nat) (f : Group → Group) (k : Nat) : (s.modGroup g f).core k = s.core k := rfl
@[simp] theorem State.core_modTeam (s : State) (t : Nat) (f : Team → Team) (k : Nat) : (s.modTeam t f).core k = s.core k := rfl
@[simp] theorem State.core_setMem (s : State) (m : Memory) (k : Nat) : (s.setMem m).core k = s.core k := rfl
@[simp] theorem State.group_setCore (s : State) (k : Nat) (c : Core) (g : Nat) : (s.setCore k c).group g = s.group g := rfl
@[simp] theorem State.group_modCore (s : State) (k : Nat) (f : Core → Core) (g : Nat) : (s.modCore k f).group g = s.group g := rfl
@[simp] theorem State.group_modTeam (s : State) (t : Nat) (f : Team → Team) (g : Nat) : (s.modTeam t f).group g = s.group g := rfl
@[simp] theorem State.group_setMem (s : State) (m : Memory) (g : Nat) : (s.setMem m).group g = s.group g := rfl
@[simp] theorem State.group_setCluster (s : State) (k : Nat) (c : Cluster) (g : Nat) : (s.setCluster k c).group g = s.group g := rfl

@[simp] theorem State.group_modGroup_self (s : State) (g : Nat) (f : Group → Group) :
    (s.modGroup g f).group g = (s.group g).map f := by
  simp [State.group, State.modGroup]

theorem State.group_modGroup_other (s : State) {g j : Nat} (f : Group → Group) (h : j ≠ g) :
    (s.modGroup g f).group j = s.group j := by
  simp [State.group, State.modGroup, Ne.symm h]

/-! ### Slices of a group, lanes of a slice -/

@[simp] theorem Quad.get_set_self {α : Type} (q : Quad α) {i : Nat} (x : α) : (q.set i x).get i = x := by
  match i with
  | 0 => rfl
  | 1 => rfl
  | 2 => rfl
  | _ + 3 => rfl

theorem Quad.get_set_other {α : Type} (q : Quad α) {i j : Nat} (x : α) (h : j ≠ i) (hi : i < 4) (hj : j < 4) :
    (q.set i x).get j = q.get j := by
  have : i = 0 ∨ i = 1 ∨ i = 2 ∨ i = 3 := by omega
  have : j = 0 ∨ j = 1 ∨ j = 2 ∨ j = 3 := by omega
  rcases ‹i = 0 ∨ _› with rfl | rfl | rfl | rfl <;> rcases ‹j = 0 ∨ _› with rfl | rfl | rfl | rfl <;>
    first | rfl | exact absurd rfl h

theorem Quad.get_make {α : Type} (f : Nat → α) {i : Nat} (h : i < 4) : (Quad.make f).get i = f i := by
  have : i = 0 ∨ i = 1 ∨ i = 2 ∨ i = 3 := by omega
  rcases this with rfl | rfl | rfl | rfl <;> rfl

theorem Oct.get_set_self {α : Type} (q : Oct α) {i : Nat} (x : α) : (q.set i x).get i = x := by
  match i with
  | 0 => rfl
  | 1 => rfl
  | 2 => rfl
  | 3 => rfl
  | 4 => rfl
  | 5 => rfl
  | 6 => rfl
  | _ + 7 => rfl

theorem Oct.get_set_other {α : Type} (q : Oct α) {i j : Nat} (x : α) (h : j ≠ i) (hi : i < 8) (hj : j < 8) :
    (q.set i x).get j = q.get j := by
  have hi' : i = 0 ∨ i = 1 ∨ i = 2 ∨ i = 3 ∨ i = 4 ∨ i = 5 ∨ i = 6 ∨ i = 7 := by omega
  have hj' : j = 0 ∨ j = 1 ∨ j = 2 ∨ j = 3 ∨ j = 4 ∨ j = 5 ∨ j = 6 ∨ j = 7 := by omega
  rcases hi' with rfl | rfl | rfl | rfl | rfl | rfl | rfl | rfl <;>
    rcases hj' with rfl | rfl | rfl | rfl | rfl | rfl | rfl | rfl <;> first | rfl | exact absurd rfl h

@[simp] theorem Oct.get_all {α : Type} (x : α) (i : Nat) : (Oct.all x).get i = x := by
  unfold Oct.get Oct.all
  split <;> rfl

@[simp] theorem Quad.get_all {α : Type} (x : α) (i : Nat) : (Quad.all x).get i = x := by
  unfold Quad.get Quad.all
  split <;> rfl

theorem Group.get_modSlice_self (g : Group) (i : Nat) (f : Slice → Slice) :
    (g.modSlice i f).slices.get i = f (g.slices.get i) := by
  simp [Group.modSlice, Oct.get_set_self]

theorem Group.get_modSlice_other (g : Group) {i j : Nat} (f : Slice → Slice) (h : j ≠ i) (hi : i < 8) (hj : j < 8) :
    (g.modSlice i f).slices.get j = g.slices.get j := by
  simp [Group.modSlice, Oct.get_set_other _ _ h hi hj]

/-- Slices changed one after another, each once: every one named holds its change, every other one its old value. -/
theorem Group.get_modSlices (g : Group) (is : List Nat) (f : Nat → Slice → Slice) {j : Nat} (hn : is.Nodup)
    (hb : ∀ i ∈ is, i < 8) (hj : j < 8) :
    (g.modSlices is f).slices.get j = if j ∈ is then f j (g.slices.get j) else g.slices.get j := by
  unfold Group.modSlices
  induction is generalizing g with
  | nil => simp
  | cons i is ih =>
    have hn' := List.nodup_cons.mp hn
    have hi : i < 8 := hb i (by simp)
    simp only [List.foldl_cons]
    rw [ih _ hn'.2 (fun k hk => hb k (by simp [hk]))]
    by_cases hji : j = i
    · subst hji; simp [hn'.1, Group.get_modSlice_self]
    · simp [hji, Group.get_modSlice_other _ _ hji hi hj]

end Sys2Proof.Machine
end

