-- ==== Sys2Proof/Laws/Memory.lean ====
section
/-! SUPPORT. Memory: what is read after a write, and that every memory operation keeps the canonical form. -/

namespace Sys2Proof.Machine

/-! ### Reads after a write -/

/-- Below every listed address memory reads as unlisted. -/
theorem memRead_of_wfFrom {lo : Nat} {m : Memory} (h : wfFrom lo m = true) {a : Nat} (ha : a < lo) :
    memRead m a = unlistedByte := by
  induction m generalizing lo with
  | nil => rfl
  | cons e r ih =>
    obtain ⟨k, v⟩ := e
    simp only [wfFrom, Bool.and_eq_true, decide_eq_true_eq] at h
    have hne : k ≠ a := by omega
    simp only [memRead, hne, if_false]
    exact ih h.2 (by omega)

theorem memRead_memWrite_self {lo : Nat} {m : Memory} (h : wfFrom lo m = true) (a : Nat) (b : Byte) :
    memRead (memWrite m a b) a = b := by
  induction m generalizing lo with
  | nil => by_cases hb : b = unlistedByte <;> simp [memWrite, memRead, hb]
  | cons e r ih =>
    obtain ⟨k, v⟩ := e
    simp only [wfFrom, Bool.and_eq_true, decide_eq_true_eq] at h
    by_cases h1 : a < k
    · by_cases hb : b = unlistedByte
      · subst hb
        have hne : k ≠ a := by omega
        simp only [memWrite, h1, if_true, memRead, hne, if_false]
        exact memRead_of_wfFrom h.2 (by omega)
      · simp [memWrite, h1, hb, memRead]
    · by_cases h2 : a = k
      · subst h2
        by_cases hb : b = unlistedByte
        · subst hb
          simp only [memWrite, Nat.lt_irrefl, if_false, if_true]
          exact memRead_of_wfFrom h.2 (by omega)
        · simp [memWrite, hb, memRead]
      · have hne : k ≠ a := fun x => h2 x.symm
        simp only [memWrite, h1, h2, if_false, memRead, hne]
        exact ih h.2

theorem memRead_memWrite_other (m : Memory) {a x : Nat} (b : Byte) (h : x ≠ a) :
    memRead (memWrite m a b) x = memRead m x := by
  induction m with
  | nil => by_cases hb : b = unlistedByte <;> simp [memWrite, memRead, hb, Ne.symm h]
  | cons e r ih =>
    obtain ⟨k, v⟩ := e
    by_cases h1 : a < k
    · by_cases hb : b = unlistedByte <;> simp [memWrite, h1, hb, memRead, Ne.symm h]
    · by_cases h2 : a = k
      · subst h2
        by_cases hb : b = unlistedByte <;> simp [memWrite, hb, memRead, Ne.symm h]
      · simp only [memWrite, h1, h2, if_false, memRead, ih]

theorem memRead_memWriteN_other (m : Memory) (a n v : Nat) {x : Nat} (h : x < a ∨ a + n ≤ x) :
    memRead (memWriteN m a n v) x = memRead m x := by
  induction n generalizing m a v with
  | zero => rfl
  | succ n ih =>
    rw [memWriteN, ih _ _ _ (by omega), memRead_memWrite_other _ _ (by omega)]

theorem memRead_memWriteBytes_other (m : Memory) (a : Nat) (bs : List Byte) {x : Nat} (h : x < a ∨ a + bs.length ≤ x) :
    memRead (memWriteBytes m a bs) x = memRead m x := by
  induction bs generalizing m a with
  | nil => rfl
  | cons b r ih =>
    simp only [List.length_cons] at h
    rw [memWriteBytes, ih _ _ (by omega), memRead_memWrite_other _ _ (by omega)]

/-! ### The canonical form -/

theorem wfFrom_mono {lo lo' : Nat} {m : Memory} (h : wfFrom lo m = true) (hl : lo' ≤ lo) : wfFrom lo' m = true := by
  cases m with
  | nil => rfl
  | cons e r =>
    obtain ⟨k, v⟩ := e
    simp only [wfFrom, Bool.and_eq_true, decide_eq_true_eq] at h ⊢
    exact ⟨⟨by omega, h.1.2⟩, h.2⟩

theorem wfFrom_memWrite {lo : Nat} {m : Memory} (h : wfFrom lo m = true) {a : Nat} (ha : lo ≤ a) (b : Byte) :
    wfFrom lo (memWrite m a b) = true := by
  induction m generalizing lo with
  | nil => by_cases hb : b = unlistedByte <;> simp [memWrite, wfFrom, hb, ha]
  | cons e r ih =>
    obtain ⟨k, v⟩ := e
    have h0 := h
    simp only [wfFrom, Bool.and_eq_true, decide_eq_true_eq] at h
    by_cases h1 : a < k
    · by_cases hb : b = unlistedByte
      · simpa [memWrite, h1, hb] using h0
      · simp only [memWrite, h1, hb, if_true, if_false, wfFrom, Bool.and_eq_true, decide_eq_true_eq]
        exact ⟨⟨ha, by simpa using hb⟩, ⟨by omega, h.1.2⟩, h.2⟩
    · by_cases h2 : a = k
      · subst h2
        by_cases hb : b = unlistedByte
        · simp only [memWrite, Nat.lt_irrefl, hb, if_true, if_false]
          exact wfFrom_mono h.2 (by omega)
        · simp only [memWrite, Nat.lt_irrefl, hb, if_true, if_false, wfFrom, Bool.and_eq_true, decide_eq_true_eq]
          exact ⟨⟨ha, by simpa using hb⟩, h.2⟩
      · simp only [memWrite, h1, h2, if_false, wfFrom, Bool.and_eq_true, decide_eq_true_eq]
        exact ⟨h.1, ih h.2 (by omega)⟩

theorem Memory.wf_nil : Memory.wf [] = true := rfl

theorem Memory.wf_memWrite {m : Memory} (h : Memory.wf m = true) (a : Nat) (b : Byte) : Memory.wf (memWrite m a b) = true :=
  wfFrom_memWrite h (Nat.zero_le a) b

theorem Memory.wf_memWriteN {m : Memory} (h : Memory.wf m = true) (a n v : Nat) : Memory.wf (memWriteN m a n v) = true := by
  induction n generalizing m a v with
  | zero => exact h
  | succ n ih => exact ih (Memory.wf_memWrite h _ _) _ _

theorem Memory.wf_memWriteBytes {m : Memory} (h : Memory.wf m = true) (a : Nat) (bs : List Byte) :
    Memory.wf (memWriteBytes m a bs) = true := by
  induction bs generalizing m a with
  | nil => exact h
  | cons b r ih => exact ih (Memory.wf_memWrite h _ _) _

theorem wfFrom_filter {lo : Nat} {m : Memory} (h : wfFrom lo m = true) (p : Nat × Byte → Bool) :
    wfFrom lo (m.filter p) = true := by
  induction m generalizing lo with
  | nil => rfl
  | cons e r ih =>
    obtain ⟨k, v⟩ := e
    simp only [wfFrom, Bool.and_eq_true, decide_eq_true_eq] at h
    by_cases hp : p (k, v) = true
    · simp only [List.filter_cons_of_pos hp, wfFrom, Bool.and_eq_true, decide_eq_true_eq]
      exact ⟨h.1, ih h.2⟩
    · rw [List.filter_cons_of_neg hp]
      exact wfFrom_mono (ih h.2) (by omega)

theorem Memory.wf_memClear {m : Memory} (h : Memory.wf m = true) (a n : Nat) : Memory.wf (memClear m a n) = true :=
  wfFrom_filter h _

theorem Memory.wf_foldl {α : Type} (l : List α) (f : Memory → α → Memory)
    (hf : ∀ m x, Memory.wf m = true → Memory.wf (f m x) = true) {m : Memory} (h : Memory.wf m = true) :
    Memory.wf (l.foldl f m) = true := by
  induction l generalizing m with
  | nil => exact h
  | cons x l ih => exact ih (hf _ _ h)

theorem Memory.wf_memPaste {m : Memory} (h : Memory.wf m = true) (a n : Nat) (img : Memory) :
    Memory.wf (memPaste m a n img) = true := by
  refine Memory.wf_foldl _ _ (fun m e hm => ?_) (Memory.wf_memClear h a n)
  by_cases he : e.1 < n
  · simpa [he] using Memory.wf_memWrite hm _ _
  · simpa [he] using hm

theorem memRead_memClear (m : Memory) (a n x : Nat) :
    memRead (memClear m a n) x = if a ≤ x ∧ x < a + n then unlistedByte else memRead m x := by
  unfold memClear
  induction m with
  | nil => simp [memRead]
  | cons e r ih =>
    obtain ⟨k, v⟩ := e
    by_cases hk : a ≤ k ∧ k < a + n
    · rw [List.filter_cons_of_neg (by simpa using hk), ih]
      by_cases hx : a ≤ x ∧ x < a + n
      · simp [hx]
      · have hne : k ≠ x := fun he => hx (he ▸ hk)
        simp [hx, memRead, hne]
    · rw [List.filter_cons_of_pos (by simp; omega)]
      by_cases hkx : k = x
      · subst hkx; simp [memRead, hk]
      · simp only [memRead, hkx, if_false, ih]

/-- A save area's context record written: memory stays canonical (R236). -/
theorem Ctx.wf_store (x : Ctx) (area : Nat) {m : Memory} (h : Memory.wf m = true) : Memory.wf (x.store area m) = true := by
  unfold Ctx.store
  refine Memory.wf_foldl _ _ (fun m i hm => Memory.wf_memWriteN hm _ _ _) ?_
  refine Memory.wf_memWriteN (Memory.wf_memWriteN (Memory.wf_memWriteN ?_ _ _ _) _ _ _) _ _ _
  exact Memory.wf_foldl _ _ (fun m i hm => Memory.wf_memWriteN hm _ _ _) h

end Sys2Proof.Machine
end

