-- ==== Sys2Proof/Laws/Issue.lean ====
section
/-! SUPPORT. What the shared operations of an issue do, said once: Settle, the end of an issue, a hold, a commit, and the frame of a
lane instruction. -/

namespace Sys2Proof.Machine

/-! ### Settle (R113) -/

/-- A slice with where it stands taken from another. -/
def Slice.standing (sl x : Slice) : Slice := { sl with pc := x.pc, mask := x.mask, stack := x.stack, fmt := x.fmt }

theorem Slice.settleLoop_standing (n : Nat) (sl x : Slice) (hm : sl.mark = x.mark) :
    Slice.settleLoop n (sl.standing x) = sl.standing (Slice.settleLoop n x) := by
  induction n generalizing x with
  | zero => rfl
  | succ n ih =>
    obtain ⟨pc, mask, exited, gang, fmt, fflags, stack, mark, floors, names, preds, latched, b1, b2, b3, sp⟩ := x
    subst hm
    cases stack with
    | nil => simp [Slice.settleLoop, Slice.standing]
    | cons e rest =>
      by_cases h1 : rest.length + 1 ≤ sl.mark
      · simp [Slice.settleLoop, Slice.standing, h1]
      by_cases h2 : ¬mask = 0#4 ∧ ¬pc = e.addr
      · simp [Slice.settleLoop, Slice.standing, h1, h2]
      by_cases h3 : ¬e.mask = 0#4
      · have h := ih ({ pc := e.addr, mask := mask ||| e.mask, exited := exited, gang := gang, fmt := fmt, fflags := fflags,
                        stack := rest, mark := sl.mark, floors := floors, names := names, preds := preds, latched := latched,
                        atBar := b1, atPbar := b2, atStep := b3, spawned := sp : Slice }.setFmt24 e.fmt) rfl
        simpa [Slice.settleLoop, Slice.standing, Slice.setFmt24, h1, h2, h3] using h
      have h3' : e.mask = 0#4 := Classical.not_not.mp h3
      cases rest with
      | nil =>
        have h1' : ¬1 ≤ sl.mark := by simpa using h1
        simp [Slice.settleLoop, Slice.standing, h1', h2, h3']
      | cons q rest =>
        have h1' : ¬rest.length + 1 + 1 ≤ sl.mark := by simpa using h1
        have h := ih ({ pc := q.addr, mask := q.mask, exited := exited, gang := gang, fmt := fmt, fflags := fflags,
                        stack := if mask != 0 then ⟨e.addr, mask, e.fmt⟩ :: rest else rest,
                        mark := sl.mark, floors := floors, names := names, preds := preds, latched := latched,
                        atBar := b1, atPbar := b2, atStep := b3, spawned := sp : Slice }.setFmt24 q.fmt) rfl
        simpa [Slice.settleLoop, Slice.standing, Slice.setFmt24, h1', h2, h3'] using h

/-- Settle changes only where the slice stands, and reads nothing else but the mark. -/
theorem Slice.settle_standing (sl x : Slice) (hm : sl.mark = x.mark) : (sl.standing x).settle = sl.standing x.settle := by
  unfold Slice.settle
  exact Slice.settleLoop_standing _ _ _ hm

theorem Slice.standing_self (sl : Slice) : sl.standing sl = sl := rfl

theorem Slice.settle_eq (sl : Slice) : sl.settle = sl.standing sl.settle := by
  have h := Slice.settle_standing sl sl rfl
  rwa [Slice.standing_self] at h

@[simp] theorem Slice.settle_names (sl : Slice) : sl.settle.names = sl.names := by rw [Slice.settle_eq]; rfl
@[simp] theorem Slice.settle_preds (sl : Slice) : sl.settle.preds = sl.preds := by rw [Slice.settle_eq]; rfl
@[simp] theorem Slice.settle_exited (sl : Slice) : sl.settle.exited = sl.exited := by rw [Slice.settle_eq]; rfl
@[simp] theorem Slice.settle_fflags (sl : Slice) : sl.settle.fflags = sl.fflags := by rw [Slice.settle_eq]; rfl
@[simp] theorem Slice.settle_gang (sl : Slice) : sl.settle.gang = sl.gang := by rw [Slice.settle_eq]; rfl
@[simp] theorem Slice.settle_mark (sl : Slice) : sl.settle.mark = sl.mark := by rw [Slice.settle_eq]; rfl
@[simp] theorem Slice.settle_floors (sl : Slice) : sl.settle.floors = sl.floors := by rw [Slice.settle_eq]; rfl
@[simp] theorem Slice.settle_latched (sl : Slice) : sl.settle.latched = sl.latched := by rw [Slice.settle_eq]; rfl
@[simp] theorem Slice.settle_atBar (sl : Slice) : sl.settle.atBar = sl.atBar := by rw [Slice.settle_eq]; rfl
@[simp] theorem Slice.settle_spawned (sl : Slice) : sl.settle.spawned = sl.spawned := by rw [Slice.settle_eq]; rfl

/-- Two slices that stand at the same place under the same mark settle at the same place. -/
theorem Slice.settle_path {a b : Slice} (h : a.path = b.path) (hm : a.mark = b.mark) : a.settle.path = b.settle.path := by
  have hs : a = a.standing b := by
    simp only [Slice.path, Prod.mk.injEq] at h
    obtain ⟨h1, h2, h3, h4⟩ := h
    cases a; cases b
    simp only [Slice.standing] at *
    subst h1 h2 h3 h4; rfl
  rw [hs, Slice.settle_standing a b hm]
  rfl

/-! ### The issuing gang -/

theorem issueOf_some {s : State} {c : Issue} (h : issueOf s = some c) :
    s.group c.gid = some c.g ∧ c.gid = s.cur.group ∧ c.gang = s.cur.gang ∧ c.sls = c.g.gangSlices c.gang ∧ c.sls ≠ [] := by
  unfold issueOf at h
  cases hg : s.group s.cur.group with
  | none => simp [hg] at h
  | some g =>
    simp only [hg] at h
    cases hi : g.gangSlices s.cur.gang with
    | nil => simp [hi] at h
    | cons i r =>
      simp only [hi] at h
      split at h
      · cases h; exact ⟨hg, rfl, rfl, hi.symm, by simp⟩
      · cases h

/-- A gang that issues is of a group that can issue. -/
theorem issueOf_ready {s : State} {c : Issue} (h : issueOf s = some c) : c.g.ready = true := by
  unfold issueOf at h
  split at h
  · cases h
  · simp only at h
    split at h
    · cases h
    · split at h
      · rename_i hr
        cases h
        simp only [Bool.and_eq_true] at hr
        exact hr.1
      · cases h

theorem issueOf_slices {s : State} {c : Issue} (h : issueOf s = some c) :
    c.sls.Nodup ∧ ∀ i ∈ c.sls, i < 8 ∧ (c.g.slices.get i).live = true ∧ (c.g.slices.get i).gang = c.gang ∧
      (c.g.slices.get i).mask ≠ 0 := by
  have hs := (issueOf_some h).2.2.2.1
  rw [hs]
  unfold Group.gangSlices
  refine ⟨List.nodup_range.filter _, fun i hi => ?_⟩
  simp only [List.mem_filter, List.mem_range, Bool.and_eq_true, beq_iff_eq, bne_iff_ne] at hi
  exact ⟨hi.1, hi.2.1.1, hi.2.1.2, hi.2.2⟩

/-! ### The end of an issue -/

@[simp] theorem Group.modSlices_nil (g : Group) (f : Nat → Slice → Slice) : g.modSlices [] f = g := rfl

@[simp] theorem Group.afterIssue_slices (g : Group) (c : Issue) (n : Nat) (p : Price) : (g.afterIssue c n p).slices = g.slices := rfl
@[simp] theorem Group.afterIssue_retired (g : Group) (c : Issue) (n : Nat) (p : Price) :
    (g.afterIssue c n p).retired = if c.g.priv then g.retired else g.retired + 1 := rfl

/-- Regrouping changes only gang numbers, and only of live slices of the gang. -/
theorem Group.regroup_get (g : Group) (is : List Nat) {j : Nat} (hn : is.Nodup) (hb : ∀ i ∈ is, i < 8) (hj : j < 8) :
    ∃ n, (g.regroup is).slices.get j = { g.slices.get j with gang := n } ∧ (j ∉ is → n = (g.slices.get j).gang) := by
  unfold Group.regroup
  simp only
  rw [Group.get_modSlices _ _ _ (hn.filter _) (fun i hi => hb i (List.mem_of_mem_filter hi)) hj]
  split
  · rename_i hm
    exact ⟨_, rfl, fun h => absurd (List.mem_of_mem_filter hm) h⟩
  · exact ⟨(g.slices.get j).gang, rfl, fun _ => rfl⟩

@[simp] theorem Group.regroup_retired (g : Group) (is : List Nat) : (g.regroup is).retired = g.retired := by
  simp [Group.regroup]

/-- A record raised changes recordings only, and the instruction sample the core's sample count besides. -/
theorem State.recordTo_eq (s : State) (sel : Recording → Bool) (gid kind slice : Nat) (pc : Word32) (extra : List (Nat × Nat × Nat)) :
    s.recordTo sel gid kind slice pc extra =
      { s with recordings := (s.recordTo sel gid kind slice pc extra).recordings } := by
  unfold State.recordTo
  cases s.group gid <;> rfl

theorem State.record_eq (s : State) (gid kind slice : Nat) (pc : Word32) (extra : List (Nat × Nat × Nat)) :
    s.record gid kind slice pc extra =
      { s with recordings := (s.record gid kind slice pc extra).recordings } :=
  s.recordTo_eq _ gid kind slice pc extra

/-- The records of a cycle written change recordings and memory only, and nothing where none has been raised. -/
theorem State.writeRecords_eq (s : State) (mine : Nat → Bool) :
    s.writeRecords mine = { s with recordings := (s.writeRecords mine).recordings, mem := (s.writeRecords mine).mem } := rfl

theorem Recording.write_quiet (r : Recording) (m : Memory) {mine : Nat → Bool} (h : ∀ x ∈ r.raised, mine x.core = false) :
    r.write m mine = (r, m) := by
  have h1 : (r.raised.filter fun x => mine x.core) = [] := List.filter_eq_nil_iff.mpr fun x hx => by simp [h x hx]
  have h2 : (r.raised.filter fun x => !mine x.core) = r.raised := List.filter_eq_self.mpr fun x hx => by simp [h x hx]
  simp [Recording.write, h1, h2]

theorem State.writeRecords_quiet (s : State) {mine : Nat → Bool} (h : ∀ r ∈ s.recordings, ∀ x ∈ r.raised, mine x.core = false) :
    s.writeRecords mine = s := by
  have key : ∀ (rs done : List Recording) (m : Memory), (∀ r ∈ rs, ∀ x ∈ r.raised, mine x.core = false) →
      rs.foldl (fun (x : List Recording × Memory) r => let y := r.write x.2 mine; (x.1 ++ [y.1], y.2)) (done, m) = (done ++ rs, m) := by
    intro rs
    induction rs with
    | nil => intro done m _; simp
    | cons r rs ih =>
      intro done m hr
      simp only [List.foldl_cons, Recording.write_quiet r m (hr r (by simp))]
      rw [ih _ _ fun q hq => hr q (by simp [hq])]
      simp
  simp [State.writeRecords, key s.recordings [] s.mem h]

theorem Issue.recordSample_eq (c : Issue) (s : State) (n : Nat) :
    c.recordSample s n = { s with recordings := (c.recordSample s n).recordings } := by
  unfold Issue.recordSample
  rw [State.recordTo_eq]

theorem Issue.tally_eq (c : Issue) (s : State) (p : Price) :
    ∃ n, c.tally s p =
      { s with cores := (c.tally s p).cores, recordings := (c.tally s p).recordings } ∧
      (∀ k, k ≠ c.g.core → (c.tally s p).core k = s.core k) ∧
      (c.tally s p).core c.g.core = { s.core c.g.core with samples := n } := by
  unfold Issue.tally
  split
  · exact ⟨(s.core c.g.core).samples, rfl, fun _ _ => rfl, rfl⟩
  · refine ⟨(s.core c.g.core).samples + 1, ?_⟩
    simp only
    split
    · rw [Issue.recordSample_eq]
      refine ⟨rfl, fun k hk => ?_, ?_⟩
      · show (s.setCore _ _).core k = _
        exact State.core_setCore_other _ _ hk
      · show (s.setCore _ _).core _ = _
        exact State.core_setCore_self _ _ _
    · refine ⟨rfl, fun k hk => ?_, ?_⟩
      · exact State.core_setCore_other _ _ hk
      · exact State.core_setCore_self _ _ _

theorem Issue.tally_unsampled (c : Issue) (s : State) (p : Price) (h : c.sampled s p = false) :
    (c.tally s p).recordings = s.recordings := by
  unfold Issue.tally
  split
  · rfl
  · rename_i hu
    have : s.recordings.any (c.takes s) = false := by
      rw [List.any_eq_false]
      intro r hr
      simp only [Issue.sampled, Issue.takes] at h ⊢
      simp_all
    simp only [this]
    rfl

/-- The group as an issue leaves it that has set its slices' PCs (R113, R115). -/
def Issue.doneGroup (c : Issue) (n : Nat) (g : Group) (p : Price) : Group :=
  ((g.modSlices c.sls fun _ sl => { sl with latched := [] }.settle).regroup c.sls).afterIssue c n p

/-- A slice of it: the old one, with nothing latched, settled, and in a gang of its own PC. -/
theorem Issue.doneGroup_get (c : Issue) (n : Nat) (g : Group) (p : Price) {j : Nat} (hn : c.sls.Nodup)
    (hb : ∀ i ∈ c.sls, i < 8) (hj : j < 8) :
    (j ∉ c.sls → (c.doneGroup n g p).slices.get j = g.slices.get j) ∧
    (j ∈ c.sls → ∃ k, (c.doneGroup n g p).slices.get j =
      { ({ g.slices.get j with latched := [] } : Slice).settle with gang := k }) := by
  obtain ⟨k, hk, hk'⟩ := Group.regroup_get (g.modSlices c.sls fun _ sl => { sl with latched := [] }.settle) c.sls hn hb hj
  have hm := Group.get_modSlices g c.sls (fun _ sl => { sl with latched := [] }.settle) hn hb hj
  constructor
  · intro h
    simp only [h, if_false] at hm
    simp only [Issue.doneGroup, Group.afterIssue_slices, hk, hk' h, hm]
  · intro h
    simp only [h, if_true] at hm
    exact ⟨k, by simp only [Issue.doneGroup, Group.afterIssue_slices, hk, hm]⟩

/-- A state on the way from `s` to the end of the issue: only the group, and its core's stamp, have changed. -/
structure Issue.Working (c : Issue) (s s1 : State) (g1 : Group) : Prop where
  state : s1 = { s with groups := s.groups.set c.gid g1, cores := s1.cores }
  cores : ∀ k, k ≠ c.g.core → s1.core k = s.core k
  core : s1.core c.g.core = { s.core c.g.core with stamp := (s1.core c.g.core).stamp }

theorem Issue.Working.tokens {c : Issue} {s s1 : State} {g1 : Group} (w : c.Working s s1 g1) :
    (s1.core c.g.core).tokens = (s.core c.g.core).tokens := by rw [w.core]

theorem Issue.Working.reservations {c : Issue} {s s1 : State} {g1 : Group} (w : c.Working s s1 g1) :
    (s1.core c.g.core).reservations = (s.core c.g.core).reservations := by rw [w.core]

theorem Issue.working_refl {c : Issue} {s : State} (h : s.group c.gid = some c.g) : c.Working s s c.g where
  state := by
    have hs : s.groups.set c.gid c.g = s.groups := by
      apply List.ext_getElem?
      intro k
      rw [List.getElem?_set]
      split
      · rename_i hk
        subst hk
        have hg : s.groups[c.gid]? = some c.g := h
        rw [List.getElem?_eq_some_iff] at hg
        obtain ⟨hl, he⟩ := hg
        simp [hl, he]
      · rfl
    rw [hs]
  cores _ _ := rfl
  core := rfl

theorem Issue.gid_lt {c : Issue} {s : State} (h : s.group c.gid = some c.g) : c.gid < s.groups.length := by
  have hg : s.groups[c.gid]? = some c.g := h
  rw [List.getElem?_eq_some_iff] at hg
  exact hg.1

theorem Issue.Working.group {c : Issue} {s s1 : State} {g1 : Group} (w : c.Working s s1 g1) (h : s.group c.gid = some c.g) :
    s1.group c.gid = some g1 := by
  have hl := Issue.gid_lt h
  rw [w.state]
  simp [State.group, hl]

theorem List.set_modify {α : Type} (l : List α) (i : Nat) (x : α) (f : α → α) : (l.set i x).modify i f = l.set i (f x) := by
  apply List.ext_getElem?
  intro k
  rw [List.getElem?_modify, List.getElem?_set, List.getElem?_set]
  by_cases hk : i = k
  · subst hk
    by_cases hl : i < l.length <;> simp [hl]
  · simp [hk]

/-- The group changed once more. -/
theorem Issue.Working.modGroup {c : Issue} {s s1 : State} {g1 : Group} (w : c.Working s s1 g1) (f : Group → Group) :
    c.Working s (s1.modGroup c.gid f) (f g1) where
  state := by
    conv_lhs => rw [w.state]
    simp only [State.modGroup, List.set_modify]
  cores k hk := w.cores k hk
  core := w.core

/-- The core changed outside its pool. -/
theorem Issue.Working.setCore {c : Issue} {s s1 : State} {g1 : Group} (w : c.Working s s1 g1) (k : Core)
    (hk : k = { s1.core c.g.core with stamp := k.stamp }) : c.Working s (s1.setCore c.g.core k) g1 where
  state := by
    conv_lhs => rw [w.state]
    rfl
  cores j hj := by rw [State.core_setCore_other _ _ hj]; exact w.cores j hj
  core := by
    rw [State.core_setCore_self, hk, w.core]

theorem Issue.Working.sampled {c : Issue} {s s1 : State} {g1 : Group} (w : c.Working s s1 g1) (p : Price) :
    c.sampled s1 p = c.sampled s p := by
  rw [w.state]
  rfl

theorem Core.pay_tokens_congr {k k' : Core} (ht : k.tokens = k'.tokens) (hr : k.reservations = k'.reservations) (gid gang n : Nat) :
    (k.pay gid gang n).tokens = (k'.pay gid gang n).tokens := by
  unfold Core.pay
  simp only [ht, hr]
  split <;> simp

theorem Core.afterIssue_tokens (k : Core) (c : Issue) (p : Price) :
    (k.afterIssue c p).tokens = if p.uniform then k.tokens else (k.pay c.gid c.gang.toNat p.tokens).tokens := by
  unfold Core.afterIssue
  cases hp : p.uniform <;> simp

/-- The accounts of an issue leave a core's units alone. -/
theorem Core.afterIssue_keeps (k : Core) (c : Issue) (p : Price) : k.KeepsUnits (k.afterIssue c p) := by
  unfold Core.KeepsUnits Core.afterIssue Core.pay
  cases p.uniform <;> simp only [Bool.false_eq_true, if_false, if_true]
  split <;> rfl

theorem Core.KeepsUnits.trans {a b d : Core} (h1 : a.KeepsUnits b) (h2 : b.KeepsUnits d) : a.KeepsUnits d := by
  unfold Core.KeepsUnits at *
  rw [h1] at h2
  exact h2

theorem Issue.Working.units {c : Issue} {s s1 : State} {g1 : Group} (w : c.Working s s1 g1) :
    (s.core c.g.core).KeepsUnits (s1.core c.g.core) := by
  unfold Core.KeepsUnits
  rw [w.core]

theorem Group.regroup_eq (g : Group) (is : List Nat) : g.regroup is = { g with slices := (g.regroup is).slices } := by
  unfold Group.regroup
  exact Group.modSlices_eq _ _ _

/-- The end of an issue changes of the group only its slices and its accounts. -/
theorem Issue.doneGroup_eq (c : Issue) (n : Nat) (g : Group) (p : Price) :
    c.doneGroup n g p =
      { g with slices := (c.doneGroup n g p).slices, retired := (c.doneGroup n g p).retired, issued := true,
               held := (c.doneGroup n g p).held, wants := (c.doneGroup n g p).wants,
               laneStamp := (c.doneGroup n g p).laneStamp, uniStamp := (c.doneGroup n g p).uniStamp } := by
  unfold Issue.doneGroup
  rw [Group.regroup_eq, Group.modSlices_eq]
  rfl

theorem Issue.doneGroup_keeps {c : Issue} {g : Group} {x : Oct Slice} (h : g = { c.g with slices := x }) (n : Nat) (p : Price) :
    c.KeepsGroup (c.doneGroup n g p) := by
  subst h
  exact Issue.doneGroup_eq c n { c.g with slices := x } p

/-- The end of an issue that has set its slices' PCs, from a working state. -/
theorem Issue.done_ends_of {c : Issue} {s s1 : State} {g1 : Group} (hn : c.sls.Nodup) (hb8 : ∀ i ∈ c.sls, i < 8)
    (w : c.Working s s1 g1) (p : Price)
    (ho : ∀ i, i < 8 → i ∉ c.sls → g1.slices.get i = c.g.slices.get i) (hr : g1.retired = c.g.retired) :
    c.Ends s (c.done s1 p) p (c.doneGroup s1.tick g1 p) (fun i => g1.slices.get i) := by
  have hd : c.done s1 p = c.tally ((s1.modGroup c.gid fun g => c.doneGroup s1.tick g p).setCore c.g.core
      ((s1.core c.g.core).afterIssue c p)) p := rfl
  have w2 := w.modGroup (fun g => c.doneGroup s1.tick g p)
  obtain ⟨n, ht, htc, hts⟩ := c.tally_eq ((s1.modGroup c.gid fun g => c.doneGroup s1.tick g p).setCore c.g.core
      ((s1.core c.g.core).afterIssue c p)) p
  rw [← hd] at ht htc hts
  refine ⟨⟨?_, ?_, ?_, ?_, ?_, ?_⟩, ?_, ?_⟩
  · rw [ht]
    conv_lhs => rw [w2.state]
    rfl
  · intro k hk
    rw [htc k hk, State.core_setCore_other _ _ hk]
    exact w.cores k hk
  · rw [hts, State.core_setCore_self]
    exact (w.units.trans (Core.afterIssue_keeps _ c p)).trans rfl
  · rw [hts]
    simp only [State.core_setCore_self, Core.afterIssue_tokens]
    rw [Core.pay_tokens_congr w.tokens w.reservations, w.tokens]
  · intro hu
    have hu' : c.sampled ((s1.modGroup c.gid fun g => c.doneGroup s1.tick g p).setCore c.g.core
      ((s1.core c.g.core).afterIssue c p)) p = false := by
      rw [← hu, ← w.sampled]
      rfl
    rw [hd, Issue.tally_unsampled _ _ _ hu']
    show s1.recordings = _
    rw [w.state]
  · simp only [Issue.doneGroup, Group.afterIssue_retired, Group.regroup_retired, Group.modSlices_retired, hr]
  · intro i h8 hni
    rw [(c.doneGroup_get _ g1 p hn hb8 h8).1 hni]
    exact ho i h8 hni
  · intro i hi'
    obtain ⟨k, hk⟩ := (c.doneGroup_get s1.tick g1 p hn hb8 (hb8 i hi')).2 hi'
    rw [hk]
    exact ⟨Slice.settle_path rfl rfl, by simp⟩

theorem Issue.done_ends {c : Issue} {s s1 : State} {g1 : Group} (hi : issueOf s = some c) (w : c.Working s s1 g1) (p : Price)
    (ho : ∀ i, i < 8 → i ∉ c.sls → g1.slices.get i = c.g.slices.get i) (hr : g1.retired = c.g.retired) :
    c.Ends s (c.done s1 p) p (c.doneGroup s1.tick g1 p) (fun i => g1.slices.get i) :=
  Issue.done_ends_of (issueOf_slices hi).1 (fun i h => ((issueOf_slices hi).2 i h).1) w p ho hr

/-- The group whose gang has moved past an instruction. -/
def Issue.pastGroup (c : Issue) (len : Nat) (g : Group) : Group :=
  g.modSlices c.sls fun _ sl => { sl with pc := sl.pc + BitVec.ofNat 32 len }

/-- The group after an instruction that transfers no control. -/
def Issue.advanced (c : Issue) (n : Nat) (len : Nat) (g : Group) (p : Price) : Group := c.doneGroup n (c.pastGroup len g) p

theorem Issue.pastGroup_get {c : Issue} (len : Nat) (g : Group) {j : Nat} (hn : c.sls.Nodup) (hb : ∀ i ∈ c.sls, i < 8) (hj : j < 8) :
    (c.pastGroup len g).slices.get j =
      if j ∈ c.sls then { g.slices.get j with pc := (g.slices.get j).pc + BitVec.ofNat 32 len } else g.slices.get j :=
  Group.get_modSlices _ _ _ hn hb hj

/-- The end of an issue that transfers no control, from a working state whose slices stand where they stood. -/
theorem Issue.advance_ends_of {c : Issue} {s s1 : State} {g1 : Group} (hn : c.sls.Nodup) (hb : ∀ i ∈ c.sls, i < 8)
    (w : c.Working s s1 g1) (len : Nat) (p : Price) (ho : ∀ i, i < 8 → i ∉ c.sls → g1.slices.get i = c.g.slices.get i)
    (hr : g1.retired = c.g.retired) :
    c.Ends s (c.advance s1 len p) p (c.advanced s1.tick len g1 p)
      (fun i => (c.pastGroup len g1).slices.get i) := by
  refine Issue.done_ends_of hn hb (w.modGroup fun g => c.pastGroup len g) p (fun i h8 hni => ?_) ?_
  · rw [Issue.pastGroup_get len g1 hn hb h8]
    simp only [hni, if_false]
    exact ho i h8 hni
  · simp only [Issue.pastGroup, Group.modSlices_retired, hr]

theorem Issue.advance_ends {c : Issue} {s s1 : State} {g1 : Group} (hi : issueOf s = some c) (w : c.Working s s1 g1) (len : Nat)
    (p : Price) (ho : ∀ i, i < 8 → i ∉ c.sls → g1.slices.get i = c.g.slices.get i) (hr : g1.retired = c.g.retired) :
    c.Ends s (c.advance s1 len p) p (c.advanced s1.tick len g1 p)
      (fun i => (c.pastGroup len g1).slices.get i) :=
  Issue.advance_ends_of (issueOf_slices hi).1 (fun i h => ((issueOf_slices hi).2 i h).1) w len p ho hr

/-- What the end of an issue keeps of a slice of the gang. -/
theorem Issue.advanced_get_of {c : Issue} (hn : c.sls.Nodup) (hb8 : ∀ i ∈ c.sls, i < 8) (n len : Nat) (g : Group) (p : Price)
    {j : Nat} (hj : j ∈ c.sls) :
    ∃ k q, (c.advanced n len g p).slices.get j = { ({ g.slices.get j with latched := [], gang := k } : Slice).standing q with
      names := (g.slices.get j).names } := by
  obtain ⟨k, hk⟩ := (c.doneGroup_get n (c.pastGroup len g) p hn hb8 (hb8 j hj)).2 hj
  refine ⟨k, ({ (c.pastGroup len g).slices.get j with latched := [] } : Slice).settle, ?_⟩
  rw [Issue.advanced, hk, Slice.settle_eq, Issue.pastGroup_get len g hn hb8 (hb8 j hj)]
  simp only [hj, if_true]
  rfl

theorem Issue.advanced_get {c : Issue} {s : State} (hi : issueOf s = some c) (n len : Nat) (g : Group) (p : Price) {j : Nat} (hj : j ∈ c.sls) :
    ∃ k q, (c.advanced n len g p).slices.get j = { ({ g.slices.get j with latched := [], gang := k } : Slice).standing q with
      names := (g.slices.get j).names } :=
  Issue.advanced_get_of (issueOf_slices hi).1 (fun i h => ((issueOf_slices hi).2 i h).1) n len g p hj

end Sys2Proof.Machine
end

