-- ==== Sys2Proof/Laws/Lane.lean ====
section
/-! SUPPORT. Names of a slice: what a use, a write and a commit leave in each cell, and the completion of an instruction that computes
one value per active lane. -/

namespace Sys2Proof.Machine

/-! ### Cells -/

theorem Slice.cell_putCell_other (sl : Slice) {n m : Nat} (c : Cell) (h : m ≠ n) : (sl.putCell n c).cell m = sl.cell m := by
  unfold Slice.putCell Slice.cell
  split
  · exact tabGet?_tabErase_other _ h
  · exact tabGet?_tabSet_other _ _ h

theorem Slice.cell_putCell_self (sl : Slice) (n : Nat) {c : Cell} (h : c.allZero = false) : (sl.putCell n c).cell n = some c := by
  unfold Slice.putCell Slice.cell
  simp only [h, Bool.false_eq_true, if_false]
  exact tabGet?_tabSet_self _ _ _

theorem Slice.cell_writeName_other (sl : Slice) {n m : Nat} (k : BitVec 3) (mask : BitVec 4) (data : Nat → Word32) (full : Bool)
    (stamp : Nat) (h : m ≠ n) : (sl.writeName n k mask data full stamp).cell m = sl.cell m := by
  unfold Slice.writeName
  split
  · rfl
  · exact Slice.cell_putCell_other _ _ h

/-- A written name's cell on a lane of the mask (R35). -/
theorem Slice.cell_writeName_self (sl : Slice) (n : Nat) (k : BitVec 3) {mask : BitVec 4} (data : Nat → Word32) (full : Bool)
    (stamp : Nat) {l : Nat} (hl : l < 4) (hm : mask.getLsbD l = true) :
    ∃ c, (sl.writeName n k mask data full stamp).cell n = some c ∧ c.full = full ∧ c.data.get l = data l ∧ c.count.get l = k ∧
      c.pin.get l = (k == 0) := by
  have h0 : ¬mask = 0 := fun h => by subst h; simp at hm
  unfold Slice.writeName
  simp only [h0, if_false]
  refine ⟨_, Slice.cell_putCell_self _ _ ?_, rfl, ?_, ?_, ?_⟩
  · unfold Cell.allZero
    rw [List.all_eq_false]
    refine ⟨l, List.mem_range.mpr hl, ?_⟩
    simp only [Quad.get_make _ hl, hm, if_true]
    by_cases hk : k = 0 <;> simp [hk]
  all_goals simp only [Quad.get_make _ hl, hm, if_true]

theorem tabGet?_filter {α : Type} (t : Table α) (p : Nat × α → Bool) (k : Nat) (h : ∀ v, p (k, v) = true) :
    tabGet? (t.filter p) k = tabGet? t k := by
  induction t with
  | nil => rfl
  | cons e r ih =>
    obtain ⟨j, v⟩ := e
    by_cases hp : p (j, v) = true
    · rw [List.filter_cons_of_pos hp]
      simp only [tabGet?, ih]
    · rw [List.filter_cons_of_neg hp, ih]
      have hne : j ≠ k := fun he => hp (he ▸ h v)
      simp [tabGet?, hne]

theorem Slice.cell_consume_other (sl : Slice) {n m : Nat} (mask : BitVec 4) (h : m ≠ n) : (sl.consume n mask).cell m = sl.cell m := by
  unfold Slice.consume
  split
  · rfl
  · exact tabGet?_tabSet_other _ _ h

theorem Slice.cell_consumeAll_other (sl : Slice) (rs : List NameRead) {m : Nat} (h : ∀ r ∈ rs, r.src.name.toNat ≠ m) :
    (sl.consumeAll rs).cell m = sl.cell m := by
  have hf : ∀ (l : List NameRead) (x : Slice), (∀ r ∈ l, r.src.name.toNat ≠ m) →
      (l.foldl (fun x r => x.consume r.src.name.toNat (sl.active r.p)) x).cell m = x.cell m := by
    intro l
    induction l with
    | nil => intro x _; rfl
    | cons r l ih =>
      intro x hx
      simp only [List.foldl_cons]
      rw [ih _ (fun q hq => hx q (by simp [hq])), Slice.cell_consume_other _ _ (Ne.symm (hx r (by simp)))]
  rw [← hf rs sl h]
  unfold Slice.consumeAll
  simp only [Slice.cell]
  refine tabGet?_filter _ _ _ fun v => ?_
  have : (rs.any fun r => r.src.name.toNat == m) = false := by
    simp only [List.any_eq_false, beq_iff_eq]
    exact fun r hr => h r hr
  simp [this]

/-! ### What a use and a write leave of the rest of a slice -/

/-- Only the names differ. -/
def Slice.SameButNames (a b : Slice) : Prop := a = { b with names := a.names }

theorem Slice.SameButNames.trans {a b d : Slice} (h1 : a.SameButNames b) (h2 : b.SameButNames d) : a.SameButNames d := by
  obtain ⟨⟩ := d
  cases a; cases b
  simp only [Slice.SameButNames, Slice.mk.injEq] at *
  simp_all

theorem Slice.consume_same (sl : Slice) (n : Nat) (mask : BitVec 4) : (sl.consume n mask).SameButNames sl := by
  unfold Slice.consume Slice.SameButNames
  split <;> rfl

theorem Slice.putCell_same (sl : Slice) (n : Nat) (c : Cell) : (sl.putCell n c).SameButNames sl := by
  unfold Slice.putCell Slice.SameButNames
  split <;> rfl

theorem Slice.writeName_same (sl : Slice) (n : Nat) (k : BitVec 3) (mask : BitVec 4) (data : Nat → Word32) (full : Bool) (stamp : Nat) :
    (sl.writeName n k mask data full stamp).SameButNames sl := by
  unfold Slice.writeName
  split
  · rfl
  · exact Slice.putCell_same _ _ _

theorem Slice.foldl_same {α : Type} (l : List α) (f : Slice → α → Slice) (h : ∀ x a, (f x a).SameButNames x) (sl : Slice) :
    (l.foldl f sl).SameButNames sl := by
  induction l generalizing sl with
  | nil => rfl
  | cons a l ih => exact (ih _).trans (h _ _)

theorem Slice.consumeAll_same (sl : Slice) (rs : List NameRead) : (sl.consumeAll rs).SameButNames sl := by
  have h := Slice.foldl_same rs (fun x r => x.consume r.src.name.toNat (sl.active r.p)) (fun x a => Slice.consume_same x _ _) sl
  unfold Slice.consumeAll
  unfold Slice.SameButNames at *
  simp only
  conv_lhs => rw [h]

/-! ### A commit (R75) -/

/-- A slice after its reads, writes and flags. -/
def Slice.committed (sl : Slice) (rs : List NameRead) (ws : List NameWrite) (i stamp : Nat) (fl : FlagSet) : Slice :=
  (ws.foldl (fun x w => x.writeName w.name w.uses (w.mask i) (w.data i) w.full (stamp + w.name % 16)) (sl.consumeAll rs)).raise fl

theorem Slice.committed_same (sl : Slice) (rs : List NameRead) (ws : List NameWrite) (i stamp : Nat) (fl : FlagSet) :
    sl.committed rs ws i stamp fl =
      { sl with names := (sl.committed rs ws i stamp fl).names, fflags := sl.fflags ||| fl.word } := by
  have h := (Slice.foldl_same ws
    (fun x w => x.writeName w.name w.uses (w.mask i) (w.data i) w.full (stamp + w.name % 16))
    (fun x a => Slice.writeName_same x _ _ _ _ _ _) (sl.consumeAll rs)).trans (Slice.consumeAll_same sl rs)
  unfold Slice.committed Slice.raise
  unfold Slice.SameButNames at h
  simp only
  rw [h]

/-- The names written by none of the writes stand as the reads leave them. -/
theorem Slice.cell_committed_other (sl : Slice) (rs : List NameRead) (ws : List NameWrite) (i stamp : Nat) (fl : FlagSet) {m : Nat}
    (hw : ∀ w ∈ ws, w.name ≠ m) : (sl.committed rs ws i stamp fl).cell m = (sl.consumeAll rs).cell m := by
  have hf : ∀ (l : List NameWrite) (x : Slice), (∀ w ∈ l, w.name ≠ m) →
      (l.foldl (fun x w => x.writeName w.name w.uses (w.mask i) (w.data i) w.full (stamp + w.name % 16)) x).cell m = x.cell m := by
    intro l
    induction l with
    | nil => intro x _; rfl
    | cons w l ih =>
      intro x hx
      simp only [List.foldl_cons]
      rw [ih _ (fun q hq => hx q (by simp [hq])), Slice.cell_writeName_other _ _ _ _ _ _ (Ne.symm (hx w (by simp)))]
  show (ws.foldl _ (sl.consumeAll rs)).cell m = _
  exact hf ws _ hw

/-- The group after a commit in every slice of the gang. -/
theorem Issue.apply_get {c : Issue} (g : Group) (stamp : Nat) (rs : List NameRead) (ws : List NameWrite) (fl : Nat → FlagSet) {j : Nat}
    (hn : c.sls.Nodup) (hb : ∀ i ∈ c.sls, i < 8) (hj : j < 8) :
    (c.apply g stamp (fun _ sl => sl.consumeAll rs) ws fl).slices.get j =
      if j ∈ c.sls then (g.slices.get j).committed rs ws j stamp (fl j) else g.slices.get j :=
  Group.get_modSlices _ _ _ hn hb hj

theorem Issue.apply_eq (c : Issue) (g : Group) (stamp : Nat) (use : Nat → Slice → Slice) (ws : List NameWrite) (fl : Nat → FlagSet) :
    c.apply g stamp use ws fl = { g with slices := (c.apply g stamp use ws fl).slices } := Group.modSlices_eq _ _ _

/-- With the cells at hand a commit answers a working state. -/
theorem Issue.commit_ok {c : Issue} {s : State} (hi : issueOf s = some c) (rs : List NameRead) (ws : List NameWrite) (fl : Nat → FlagSet)
    (h : ∀ i ∈ c.sls, cellsNeeded s c (fun _ sl => sl.consumeAll rs) ws i = 0) :
    ∃ s1, c.commit s rs ws fl = .ok s1 ∧
      c.Working s s1 (c.apply c.g (16 * (s.core c.g.core).stamp) (fun _ sl => sl.consumeAll rs) ws fl) := by
  have hneeds : ((c.sls.map fun i => (i, cellsNeeded s c (fun _ sl => sl.consumeAll rs) ws i)).filter fun n => n.2 != 0) = [] := by
    rw [List.filter_eq_nil_iff]
    intro e he
    obtain ⟨i, hi', rfl⟩ := List.mem_map.mp he
    simp [h i hi']
  unfold Issue.commit Issue.commitWith
  simp only [hneeds, List.isEmpty_nil, if_true]
  refine ⟨_, rfl, ?_⟩
  exact ((Issue.working_refl (issueOf_some hi).1).modGroup _).setCore _ rfl

/-- A gang whose operands are at hand has no name trap, awaits nothing and does what its meaning does (R75). -/
theorem laneStep_operands {c : Issue} {s : State} {rs : List NameRead} {ds : List (Pred × Nat)} {regs : List (BitVec 6)}
    (h : c.Operands s rs ds regs) {entry : Option Trap} (he : entry = none) (act : Unit → Commit) {s' : State}
    (ha : act () = .ok s') : laneStep s c rs ds entry act regs = s' := by
  subst he
  have hf := h.full
  unfold mustWait at hf
  simp only [List.any_eq_false, Bool.or_eq_true, not_or] at hf
  have h1 : mustWait c rs [] = false := by
    unfold mustWait
    simp only [List.any_eq_false, Bool.or_eq_true, not_or]
    exact fun i hi => ⟨(hf i hi).1, by simp [Slice.writing]⟩
  have h2 : mustWait c [] ds = false := by
    unfold mustWait
    simp only [List.any_eq_false, Bool.or_eq_true, not_or]
    exact fun i hi => ⟨by simp [Slice.reading], (hf i hi).2⟩
  unfold laneStep
  simp only [h.noTrap, h.noFailure, h.loaded, h1, h2, ha, Bool.or_self, Bool.false_eq_true, if_false]

theorem laneStep_ready {c : Issue} {s : State} {rs : List NameRead} {ds : List (Pred × Nat)} {regs : List (BitVec 6)}
    (h : c.Ready s rs ds regs) (act : Unit → Commit) {s' : State} (ha : act () = .ok s') :
    laneStep s c rs ds none act regs = s' := laneStep_operands h.toOperands rfl act ha

/-! ### Predicates (R40) -/

theorem Slice.q_setQ_self (sl : Slice) (l : Nat) (n m : BitVec 4) (b : Bool) :
    (sl.setQ l n b).q l m = if m = n then n == 0 || b else sl.q l m := by
  unfold Slice.setQ Slice.q
  by_cases hn : n = 0
  · by_cases hm : m = n
    · simp [hm, hn]
    · subst hn
      have hm' : ¬m = 0#4 := hm
      simp [hm']
  · have ht : ∀ k : BitVec 4, (BitVec.ofNat 16 (2 ^ n.toNat)).getLsbD k.toNat = decide (k = n) := by
      intro k
      have hk : k.toNat < 16 := k.isLt
      rw [BitVec.getLsbD_ofNat]
      simp only [hk, decide_true, Bool.true_and, Nat.testBit_two_pow]
      by_cases h : k = n
      · simp [h]
      · have : n.toNat ≠ k.toNat := fun e => h (BitVec.eq_of_toNat_eq e.symm)
        simp [h, this]
    have hk : m.toNat < 16 := m.isLt
    simp only [hn, if_false, Quad.get_set_self]
    cases b <;> simp only [Bool.false_eq_true, if_false, if_true, BitVec.getLsbD_and, BitVec.getLsbD_or, BitVec.getLsbD_not, ht, hk]
    · by_cases hm : m = n
      · subst hm; simp
      · simp [hm]
    · by_cases hm : m = n
      · subst hm; simp
      · simp [hm]

theorem Slice.preds_setQ_other (sl : Slice) {l k : Nat} (n : BitVec 4) (b : Bool) (h : k ≠ l) (hl : l < 4) (hk : k < 4) :
    (sl.setQ l n b).preds.get k = sl.preds.get k := by
  unfold Slice.setQ
  split
  · rfl
  · exact Quad.get_set_other _ _ h hl hk

theorem Slice.setQ_same (sl : Slice) (l : Nat) (n : BitVec 4) (b : Bool) :
    sl.setQ l n b = { sl with preds := (sl.setQ l n b).preds } := by
  unfold Slice.setQ
  split <;> rfl

theorem Slice.setPreds_same (sl : Slice) (mask n : BitVec 4) (b : Nat → Bool) :
    sl.setPreds mask n b = { sl with preds := (sl.setPreds mask n b).preds } := by
  unfold Slice.setPreds
  have hf : ∀ (is : List Nat) (x : Slice), is.foldl (fun x l => if mask.getLsbD l then x.setQ l n (b l) else x) x =
      { x with preds := (is.foldl (fun x l => if mask.getLsbD l then x.setQ l n (b l) else x) x).preds } := by
    intro is
    induction is with
    | nil => intro x; rfl
    | cons l is ih =>
      intro x
      simp only [List.foldl_cons]
      by_cases hm : mask.getLsbD l = true
      · simp only [hm, if_true]
        rw [ih, Slice.setQ_same]
      · simp only [hm, Bool.false_eq_true, if_false]
        exact ih x
  exact hf _ _

/-- A predicate written on the lanes of a mask (R40): q0 ignores writes. -/
theorem Slice.q_setPreds (sl : Slice) (mask n : BitVec 4) (b : Nat → Bool) (m : BitVec 4) {l : Nat} (hl : l < 4) :
    (sl.setPreds mask n b).q l m = if m = n ∧ mask.getLsbD l = true then n == 0 || b l else sl.q l m := by
  have hf : ∀ (is : List Nat) (x : Slice), is.Nodup → (∀ i ∈ is, i < 4) →
      (is.foldl (fun x l => if mask.getLsbD l then x.setQ l n (b l) else x) x).q l m =
        if l ∈ is ∧ m = n ∧ mask.getLsbD l = true then n == 0 || b l else x.q l m := by
    intro is
    induction is with
    | nil => intro x _ _; simp
    | cons k is ih =>
      intro x hn hb
      have hn' := List.nodup_cons.mp hn
      have hk : k < 4 := hb k (by simp)
      simp only [List.foldl_cons]
      rw [ih _ hn'.2 (fun i hi => hb i (by simp [hi]))]
      by_cases hkl : l = k
      · subst hkl
        by_cases hm : mask.getLsbD l = true
        · simp only [hm, if_true, Slice.q_setQ_self]
          by_cases hmn : m = n <;> simp [hmn, hn'.1]
        · simp [hm]
      · by_cases hm : mask.getLsbD k = true
        · have hq : (x.setQ k n (b k)).q l m = x.q l m := by
            unfold Slice.q
            rw [Slice.preds_setQ_other x n (b k) hkl hk hl]
          simp only [hm, if_true, hq]
          simp [hkl]
        · simp only [hm, Bool.false_eq_true, if_false]
          simp [hkl]
  unfold Slice.setPreds
  rw [hf _ _ List.nodup_range (fun i hi => List.mem_range.mp hi)]
  simp [hl]

/-- With room for its destination an instruction of one result needs no more cells. -/
theorem cellsNeeded_destWrites {c : Issue} {s : State} {rs : List NameRead} {p : Pred} {d : Dst} {wide : Bool}
    (h : c.fits s rs ((destNames wide d).map fun n => (p, n)) = true) (val : Nat → Nat → Nat) (full : Bool) {i : Nat} (hi : i ∈ c.sls) :
    cellsNeeded s c (fun _ sl => sl.consumeAll rs) (destWrites wide d (fun i => (c.g.slices.get i).active p) val full) i = 0 := by
  unfold Issue.fits at h
  have hx := List.all_eq_true.mp h i hi
  simp only [decide_eq_true_eq] at hx
  unfold cellsNeeded
  simp only
  refine Nat.sub_eq_zero_of_le (Nat.le_trans (Nat.le_of_eq ?_) hx)
  congr 2
  unfold Slice.writing destWrites destNames
  cases wide
  · by_cases ha : (c.g.slices.get i).active p = 0#4
    · simp [ha]
    · cases hn : ((c.g.slices.get i).consumeAll rs).cell d.name.toNat <;> simp [ha, hn]
  · by_cases ha : (c.g.slices.get i).active p = 0#4
    · simp [ha]
    · cases hn : ((c.g.slices.get i).consumeAll rs).cell d.name.toNat <;>
        cases hm : ((c.g.slices.get i).consumeAll rs).cell (d.name.toNat + 1) <;> simp [ha, hn, hm]

/-- What a write of a result leaves in the destination's names on an active lane (R35, R38). -/
theorem Slice.committed_dest (sl : Slice) (rs : List NameRead) (d : Dst) (wide : Bool) (mask : Nat → BitVec 4) (val : Nat → Nat → Nat)
    (full : Bool) (i stamp : Nat) (fl : FlagSet) {l : Nat} (hl : l < 4) (hm : (mask i).getLsbD l = true) :
    (∃ k, (sl.committed rs (destWrites wide d mask val full) i stamp fl).cell d.name.toNat = some k ∧ k.full = full ∧
      k.data.get l = BitVec.ofNat 32 (val i l) ∧ k.count.get l = d.uses ∧ k.pin.get l = (d.uses == 0)) ∧
    (wide = true → ∃ k, (sl.committed rs (destWrites wide d mask val full) i stamp fl).cell (d.name.toNat + 1) = some k ∧ k.full = full ∧
      k.data.get l = BitVec.ofNat 32 (val i l / 2 ^ 32) ∧ k.count.get l = d.uses ∧ k.pin.get l = (d.uses == 0)) := by
  cases wide
  · refine ⟨?_, by simp⟩
    exact Slice.cell_writeName_self (sl.consumeAll rs) d.name.toNat d.uses (fun l => BitVec.ofNat 32 (val i l)) full _ hl hm
  · refine ⟨?_, fun _ => ?_⟩
    · obtain ⟨k, h⟩ := Slice.cell_writeName_self (sl.consumeAll rs) d.name.toNat d.uses (fun l => BitVec.ofNat 32 (val i l)) full
        (stamp + d.name.toNat % 16) hl hm
      refine ⟨k, ?_, h.2⟩
      rw [← h.1]
      exact Slice.cell_writeName_other _ _ _ _ _ _ (Nat.ne_of_lt (Nat.lt_succ_self _))
    · exact Slice.cell_writeName_self _ (d.name.toNat + 1) d.uses (fun l => BitVec.ofNat 32 (val i l / 2 ^ 32)) full _ hl hm

theorem destWrites_name {wide : Bool} {d : Dst} {mask : Nat → BitVec 4} {val : Nat → Nat → Nat} {full : Bool} {w : NameWrite}
    (h : w ∈ destWrites wide d mask val full) : w.name ∈ destNames wide d := by
  cases wide
  · simp only [destWrites, Bool.false_eq_true, if_false, List.mem_singleton] at h
    subst h; simp [destNames]
  · simp only [destWrites, if_true, List.mem_cons, List.not_mem_nil, or_false] at h
    rcases h with h | h <;> subst h <;> simp [destNames]

/-- An issue that commits one value per active lane and moves on completes (R75, R35, R64). -/
theorem commit_computes {c : Issue} {s : State} {p : Pred} {d : Dst} {wide : Bool} {rs : List NameRead} {price : Price} {len : Nat}
    {val : Nat → Nat → Nat × FlagSet} {i : Instr} (hi : issueOf s = some c)
    (hr : c.fits s rs ((destNames wide d).map fun n => (p, n)) = true)
    (hx : ∀ s1, c.commit s rs (destWrites wide d (fun i => (c.g.slices.get i).active p) fun j l => (val j l).1)
      (fun j => flagsOn ((c.g.slices.get j).active p) fun l => (val j l).2) = .ok s1 → exec i s = .next (c.advance s1 len price)) :
    c.Computes s i p d wide rs price val len := by
  obtain ⟨hn, hb⟩ := issueOf_slices hi
  have hb8 : ∀ i ∈ c.sls, i < 8 := fun i h => (hb i h).1
  obtain ⟨s1, hc, w⟩ := Issue.commit_ok hi rs
    (destWrites wide d (fun i => (c.g.slices.get i).active p) fun j l => (val j l).1)
    (fun j => flagsOn ((c.g.slices.get j).active p) fun l => (val j l).2)
    (fun i hi' => cellsNeeded_destWrites hr _ _ hi')
  have hget := fun (j : Nat) (hj : j < 8) => Issue.apply_get (c := c) c.g (16 * (s.core c.g.core).stamp) rs
    (destWrites wide d (fun i => (c.g.slices.get i).active p) fun j l => (val j l).1)
    (fun j => flagsOn ((c.g.slices.get j).active p) fun l => (val j l).2) hn hb8 hj
  have heq := Issue.apply_eq c c.g (16 * (s.core c.g.core).stamp) (fun _ sl => sl.consumeAll rs)
    (destWrites wide d (fun i => (c.g.slices.get i).active p) fun j l => (val j l).1)
    (fun j => flagsOn ((c.g.slices.get j).active p) fun l => (val j l).2)
  generalize hg1 : c.apply c.g (16 * (s.core c.g.core).stamp) (fun _ sl => sl.consumeAll rs)
    (destWrites wide d (fun i => (c.g.slices.get i).active p) fun j l => (val j l).1)
    (fun j => flagsOn ((c.g.slices.get j).active p) fun l => (val j l).2) = g1 at w hget heq
  have hE := Issue.advance_ends hi w len price
    (fun j hj hnj => by rw [hget j hj]; simp only [hnj, if_false]) (by rw [heq])
  refine ⟨_, _, hx s1 hc, ⟨hE.toAccounts, hE.others, ?_⟩, ?_, ?_⟩
  · intro j hj
    have := hE.stands j hj
    rw [this.1, this.2, Issue.pastGroup_get len _ hn hb8 (hb8 j hj)]
    simp only [hj, if_true, hget j (hb8 j hj)]
    rw [Slice.committed_same]
    exact ⟨Slice.settle_path rfl rfl, rfl⟩
  · refine Issue.doneGroup_keeps (x := (c.pastGroup len g1).slices) ?_ _ _
    rw [Issue.pastGroup, Group.modSlices_eq, heq]
  · intro j hj
    obtain ⟨k, q, hk⟩ := Issue.advanced_get hi s1.tick len g1 price hj
    rw [hget j (hb8 j hj)] at hk
    simp only [hj, if_true] at hk
    have hcell : ∀ n, ((c.advanced s1.tick len g1 price).slices.get j).cell n =
      ((c.g.slices.get j).committed rs
        (destWrites wide d (fun i => (c.g.slices.get i).active p) fun j l => (val j l).1) j
        (16 * (s.core c.g.core).stamp) (flagsOn ((c.g.slices.get j).active p) fun l => (val j l).2)).cell n := by
      intro n; rw [hk]; rfl
    refine ⟨fun l hl hm => ?_, fun n hnn => ?_, ?_, ?_⟩
    · have := Slice.committed_dest (c.g.slices.get j) rs d wide (fun i => (c.g.slices.get i).active p)
        (fun j l => (val j l).1) true j (16 * (s.core c.g.core).stamp)
        (flagsOn ((c.g.slices.get j).active p) fun l => (val j l).2) hl hm
      simp only [Slice.Holds, hcell]
      exact this
    · rw [hcell]
      refine Slice.cell_committed_other _ _ _ _ _ _ fun w hw he => hnn ?_
      rw [← he]
      exact destWrites_name hw
    · rw [hk, Slice.committed_same]; rfl
    · rw [hk, Slice.committed_same]; rfl

/-- A meaning that computes one value per active lane completes. -/
theorem aluStep_computes {c : Issue} {s : State} {p : Pred} {d : Dst} {wide : Bool} {rs : List NameRead} {price : Price}
    {f : Group → Slice → Nat → Nat × FlagSet} {regs : List (BitVec 6)} {i : Instr}
    (he : exec i s = aluStep s p d wide rs price f regs)
    (h : c.Ready s rs ((destNames wide d).map fun n => (p, n)) regs) :
    c.Computes s i p d wide rs price fun j l => f c.g (c.g.slices.get j) l := by
  refine commit_computes h.issues h.room fun s1 hc => ?_
  rw [he]
  unfold aluStep
  simp only [h.issues]
  congr 1
  refine laneStep_ready h _ ?_
  simp only [hc]

theorem Issue.Working.setPreds_get {c : Issue} (g : Group) (mask : Nat → BitVec 4) (qd : BitVec 4) (b : Nat → Nat → Bool) {j : Nat}
    (hn : c.sls.Nodup) (hb : ∀ i ∈ c.sls, i < 8) (hj : j < 8) :
    (g.modSlices c.sls fun i sl => sl.setPreds (mask i) qd fun l => b i l).slices.get j =
      if j ∈ c.sls then (g.slices.get j).setPreds (mask j) qd (fun l => b j l) else g.slices.get j :=
  Group.get_modSlices _ _ _ hn hb hj

/-- A meaning that decides one predicate per active lane completes (R75, R40, R64). -/
theorem predStep_tests {c : Issue} {s : State} {p : Pred} {qd : BitVec 4} {rs : List NameRead}
    {f : Group → Slice → Nat → Bool × FlagSet} {regs : List (BitVec 6)} {i : Instr}
    (he : exec i s = predStep s p qd rs f regs) (h : c.Ready s rs [] regs) :
    c.Tests s i p qd rs priceLane fun j l => f c.g (c.g.slices.get j) l := by
  have hi := h.issues
  obtain ⟨hn, hb⟩ := issueOf_slices hi
  have hb8 : ∀ i ∈ c.sls, i < 8 := fun i h => (hb i h).1
  obtain ⟨s1, hc, w⟩ := Issue.commit_ok hi rs []
    (fun j => flagsOn ((c.g.slices.get j).active p) fun l => (f c.g (c.g.slices.get j) l).2)
    (fun i hi' => by simp [cellsNeeded])
  let g1 := c.apply c.g (16 * (s.core c.g.core).stamp) (fun _ sl => sl.consumeAll rs) []
    (fun j => flagsOn ((c.g.slices.get j).active p) fun l => (f c.g (c.g.slices.get j) l).2)
  let g2 := g1.modSlices c.sls fun j sl => sl.setPreds ((c.g.slices.get j).active p) qd fun l => (f c.g (c.g.slices.get j) l).1
  have w2 : c.Working s _ g2 := w.modGroup fun g =>
    g.modSlices c.sls fun j sl => sl.setPreds ((c.g.slices.get j).active p) qd fun l => (f c.g (c.g.slices.get j) l).1
  have hx : exec i s = .next (c.advance (s1.modGroup c.gid fun g => g.modSlices c.sls fun j sl =>
      sl.setPreds ((c.g.slices.get j).active p) qd fun l => (f c.g (c.g.slices.get j) l).1) 12 priceLane) := by
    rw [he]
    unfold predStep
    simp only [hi]
    congr 1
    refine laneStep_ready h _ ?_
    simp only [hc]
  have hget : ∀ j, j < 8 → g2.slices.get j = if j ∈ c.sls then
      (((c.g.slices.get j).committed rs [] j (16 * (s.core c.g.core).stamp)
        (flagsOn ((c.g.slices.get j).active p) fun l => (f c.g (c.g.slices.get j) l).2)).setPreds ((c.g.slices.get j).active p) qd
        fun l => (f c.g (c.g.slices.get j) l).1) else c.g.slices.get j := by
    intro j hj
    have h1 := Issue.Working.setPreds_get g1 (fun j => (c.g.slices.get j).active p) qd
      (fun j l => (f c.g (c.g.slices.get j) l).1) hn hb8 hj
    have h2 := Issue.apply_get (c := c) c.g (16 * (s.core c.g.core).stamp) rs []
      (fun j => flagsOn ((c.g.slices.get j).active p) fun l => (f c.g (c.g.slices.get j) l).2) hn hb8 hj
    rw [show g2.slices.get j = _ from h1, show g1.slices.get j = _ from h2]
    split <;> rfl
  have heq : g2 = { c.g with slices := g2.slices } := by
    have h1 : g1 = { c.g with slices := g1.slices } := Issue.apply_eq c c.g _ _ _ _
    have h2 : g2 = { g1 with slices := g2.slices } := Group.modSlices_eq _ _ _
    rw [h1] at h2
    exact h2
  have hE := Issue.advance_ends hi w2 12 priceLane
    (fun j hj hnj => by rw [hget j hj]; simp only [hnj, if_false]) (by rw [heq])
  refine ⟨_, _, hx, ⟨hE.toAccounts, hE.others, ?_⟩, ?_, ?_⟩
  · intro j hj
    have := hE.stands j hj
    rw [this.1, this.2, Issue.pastGroup_get 12 _ hn hb8 (hb8 j hj)]
    simp only [hj, if_true, hget j (hb8 j hj)]
    rw [Slice.setPreds_same, Slice.committed_same]
    exact ⟨Slice.settle_path rfl rfl, rfl⟩
  · refine Issue.doneGroup_keeps (x := (c.pastGroup 12 g2).slices) ?_ _ _
    rw [Issue.pastGroup, Group.modSlices_eq, heq]
  · intro j hj
    obtain ⟨k, q, hk⟩ := Issue.advanced_get hi (s1.modGroup c.gid fun g => g.modSlices c.sls fun j sl =>
      sl.setPreds ((c.g.slices.get j).active p) qd fun l => (f c.g (c.g.slices.get j) l).1).tick 12 g2 priceLane hj
    rw [hget j (hb8 j hj)] at hk
    simp only [hj, if_true] at hk
    rw [hk]
    refine ⟨fun l hl => ?_, fun n l hl hne => ?_, fun n _ => ?_, ?_⟩
    · show Slice.q (Slice.setPreds _ _ _ _) l qd = _
      rw [Slice.q_setPreds _ _ _ _ _ hl]
      simp only [true_and]
      split
      · rfl
      · rw [Slice.committed_same]; rfl
    · show Slice.q (Slice.setPreds _ _ _ _) l n = _
      rw [Slice.q_setPreds _ _ _ _ _ hl]
      simp only [hne, false_and, if_false]
      rw [Slice.committed_same]; rfl
    · show Slice.cell (Slice.setPreds _ _ _ _) n = _
      rw [Slice.setPreds_same]
      exact Slice.cell_committed_other (c.g.slices.get j) rs [] j (16 * (s.core c.g.core).stamp)
        (flagsOn ((c.g.slices.get j).active p) fun l => (f c.g (c.g.slices.get j) l).2) (by simp)
    · rw [Slice.setPreds_same, Slice.committed_same]; rfl

/-! ### The completions by operand shape -/

theorem unStep_one {c : Issue} {s : State} {i : Instr} {p : Pred} {d : Dst} {a : Src} {wideD wideA : Bool} {f : Nat → Nat}
    (he : exec i s = unStep s p d a wideD wideA f) : c.One s i p d a wideD wideA f := fun h =>
  aluStep_computes (f := fun _ sl l => (f (sl.value wideA l a.name), 0)) he h

theorem binStep_two {c : Issue} {s : State} {i : Instr} {p : Pred} {d : Dst} {a : Src} {b : OpB} {wideD wideA wideB : Bool}
    {f : Nat → Nat → Nat} (he : exec i s = binStep s p d a b wideD wideA wideB f) : c.Two s i p d a b wideD wideA wideB f := fun h =>
  aluStep_computes (f := fun g sl l => (f (sl.value wideA l a.name) (opbValue b g sl wideB l), 0)) he h

theorem triStep_three {c : Issue} {s : State} {i : Instr} {p : Pred} {d : Dst} {a : Src} {b : OpB} {x : Src} {wide wideB wideC : Bool}
    {f : Nat → Nat → Nat → Nat} (he : exec i s = triStep s p d a b x wide wideB wideC f) :
    c.Three s i p d a b x wide wideB wideC f := fun h =>
  aluStep_computes
    (f := fun g sl l => (f (sl.value wide l a.name) (opbValue b g sl wideB l) (sl.value wideC l x.name), 0)) he h

theorem floatStep1_one {c : Issue} {s : State} {i : Instr} {p : Pred} {d : Dst} {a : Src} {price : Price}
    {f : Arith → Nat → Nat × FlagSet} (he : exec i s = floatStep1 s p d a price f) : c.FloatOne s i p d a price f := fun h =>
  aluStep_computes (f := fun _ sl l => f (Arith.of sl.fmt) (sl.value false l a.name)) he h

theorem floatStep2_two {c : Issue} {s : State} {i : Instr} {p : Pred} {d : Dst} {a : Src} {b : OpB}
    {f : Arith → Nat → Nat → Nat × FlagSet} (he : exec i s = floatStep2 s p d a b f) : c.FloatTwo s i p d a b f := fun h =>
  aluStep_computes (f := fun g sl l => f (Arith.of sl.fmt) (sl.value false l a.name) (opbValue b g sl false l)) he h

theorem floatStep3_three {c : Issue} {s : State} {i : Instr} {p : Pred} {d : Dst} {a : Src} {b : OpB} {x : Src}
    {f : Arith → Nat → Nat → Nat → Nat × FlagSet} (he : exec i s = floatStep3 s p d a b x f) :
    c.FloatThree s i p d a b x f := fun h =>
  aluStep_computes
    (f := fun g sl l => f (Arith.of sl.fmt) (sl.value false l a.name) (opbValue b g sl false l) (sl.value false l x.name)) he h

end Sys2Proof.Machine
end

