-- ==== Sys2Proof/Laws/Cross.lean ====
section
/-! SUPPORT. Cross-lane instructions: what their commit and the end of their issue leave, and their completion. -/

namespace Sys2Proof.Machine

/-! ### A commit, whatever frees the reads -/

/-- A slice after its writes and flags, from the slice its reads leave. -/
def Slice.finished (x : Slice) (ws : List NameWrite) (i stamp : Nat) (fl : FlagSet) : Slice :=
  (ws.foldl (fun x w => x.writeName w.name w.uses (w.mask i) (w.data i) w.full (stamp + w.name % 16)) x).raise fl

theorem Slice.finished_same (x : Slice) (ws : List NameWrite) (i stamp : Nat) (fl : FlagSet) :
    x.finished ws i stamp fl = { x with names := (x.finished ws i stamp fl).names, fflags := x.fflags ||| fl.word } := by
  have h := Slice.foldl_same ws
    (fun x w => x.writeName w.name w.uses (w.mask i) (w.data i) w.full (stamp + w.name % 16))
    (fun x a => Slice.writeName_same x _ _ _ _ _ _) x
  unfold Slice.finished Slice.raise
  unfold Slice.SameButNames at h
  simp only
  rw [h]

theorem Slice.cell_finished_other (x : Slice) (ws : List NameWrite) (i stamp : Nat) (fl : FlagSet) {m : Nat}
    (hw : ∀ w ∈ ws, w.name ≠ m) : (x.finished ws i stamp fl).cell m = x.cell m := by
  have hf : ∀ (l : List NameWrite) (x : Slice), (∀ w ∈ l, w.name ≠ m) →
      (l.foldl (fun x w => x.writeName w.name w.uses (w.mask i) (w.data i) w.full (stamp + w.name % 16)) x).cell m = x.cell m := by
    intro l
    induction l with
    | nil => intro x _; rfl
    | cons w l ih =>
      intro x hx
      simp only [List.foldl_cons]
      rw [ih _ (fun q hq => hx q (by simp [hq])), Slice.cell_writeName_other _ _ _ _ _ _ (Ne.symm (hx w (by simp)))]
  exact hf ws x hw

/-- What a write of a result leaves in the destination's names on a lane it writes (R35, R38). -/
theorem Slice.finished_dest (x : Slice) (d : Dst) (wide : Bool) (mask : Nat → BitVec 4) (val : Nat → Nat → Nat)
    (full : Bool) (i stamp : Nat) (fl : FlagSet) {l : Nat} (hl : l < 4) (hm : (mask i).getLsbD l = true) :
    (∃ k, (x.finished (destWrites wide d mask val full) i stamp fl).cell d.name.toNat = some k ∧ k.full = full ∧
      k.data.get l = BitVec.ofNat 32 (val i l) ∧ k.count.get l = d.uses ∧ k.pin.get l = (d.uses == 0)) ∧
    (wide = true → ∃ k, (x.finished (destWrites wide d mask val full) i stamp fl).cell (d.name.toNat + 1) = some k ∧ k.full = full ∧
      k.data.get l = BitVec.ofNat 32 (val i l / 2 ^ 32) ∧ k.count.get l = d.uses ∧ k.pin.get l = (d.uses == 0)) := by
  cases wide
  · refine ⟨?_, by simp⟩
    exact Slice.cell_writeName_self x d.name.toNat d.uses (fun l => BitVec.ofNat 32 (val i l)) full _ hl hm
  · refine ⟨?_, fun _ => ?_⟩
    · obtain ⟨k, h⟩ := Slice.cell_writeName_self x d.name.toNat d.uses (fun l => BitVec.ofNat 32 (val i l)) full
        (stamp + d.name.toNat % 16) hl hm
      refine ⟨k, ?_, h.2⟩
      rw [← h.1]
      exact Slice.cell_writeName_other _ _ _ _ _ _ (Nat.ne_of_lt (Nat.lt_succ_self _))
    · exact Slice.cell_writeName_self _ (d.name.toNat + 1) d.uses (fun l => BitVec.ofNat 32 (val i l / 2 ^ 32)) full _ hl hm

/-- The group after a commit of the slices of `c'`. -/
theorem Issue.apply_finished {c : Issue} (g : Group) (stamp : Nat) (use : Nat → Slice → Slice) (ws : List NameWrite)
    (fl : Nat → FlagSet) {j : Nat} (hn : c.sls.Nodup) (hb : ∀ i ∈ c.sls, i < 8) (hj : j < 8) :
    (c.apply g stamp use ws fl).slices.get j =
      if j ∈ c.sls then (use j (g.slices.get j)).finished ws j stamp (fl j) else g.slices.get j :=
  Group.get_modSlices _ _ _ hn hb hj

/-- With the cells at hand a commit over the slices of `c'`, an issue of the same group, answers a working state. -/
theorem Issue.commitWith_ok {c c' : Issue} {s : State} (hg : s.group c.gid = some c.g) (h1 : c'.gid = c.gid)
    (h2 : c'.g.core = c.g.core) (use : Nat → Slice → Slice) (ws : List NameWrite) (fl : Nat → FlagSet)
    (h : ∀ i ∈ c'.sls, cellsNeeded s c' use ws i = 0) :
    ∃ s1, c'.commitWith s use ws fl = .ok s1 ∧ c.Working s s1 (c'.apply c.g (16 * (s.core c.g.core).stamp) use ws fl) := by
  have hneeds : ((c'.sls.map fun i => (i, cellsNeeded s c' use ws i)).filter fun n => n.2 != 0) = [] := by
    rw [List.filter_eq_nil_iff]
    intro e he
    obtain ⟨i, hi', rfl⟩ := List.mem_map.mp he
    simp [h i hi']
  unfold Issue.commitWith
  simp only [hneeds, List.isEmpty_nil, if_true, h1, h2]
  refine ⟨_, rfl, ?_⟩
  exact ((Issue.working_refl hg).modGroup _).setCore _ rfl

/-! ### The end of the issue of several gangs -/

theorem gangList_mem {gangs : List (BitVec 3 × List Nat)} {i : Nat} :
    i ∈ gangList gangs ↔ i < 8 ∧ ∃ g ∈ gangs, i ∈ g.2 := by
  simp [gangList]

theorem gangList_nodup (gangs : List (BitVec 3 × List Nat)) : (gangList gangs).Nodup := List.nodup_range.filter _

/-- The gangs of a meeting name slices in range, each once. -/
theorem Issue.meeting_gangs {c : Issue} {s : State} (hi : issueOf s = some c) {members : Word32} {gangs : List (BitVec 3 × List Nat)}
    (h : c.meeting members = .execute gangs) : ∀ x ∈ gangs, x.2.Nodup ∧ ∀ i ∈ x.2, i < 8 := by
  obtain ⟨hn, hb⟩ := issueOf_slices hi
  have hme : c.sls.Nodup ∧ ∀ i ∈ c.sls, i < 8 := ⟨hn, fun i h => (hb i h).1⟩
  have hw : ∀ w ∈ c.waiters, w.2.1.Nodup ∧ ∀ i ∈ w.2.1, i < 8 := by
    intro w hw
    unfold Issue.waiters Issue.arrived at hw
    obtain ⟨v, -, hv⟩ := List.mem_filterMap.mp (List.mem_of_mem_filter hw)
    split at hv
    · split at hv
      · cases hl : v.list with
        | nil => simp [hl] at hv
        | cons i r =>
          simp only [hl, Option.some.injEq] at hv
          subst hv
          simp only
          rw [← hl]
          refine ⟨List.nodup_range.filter _, fun i hi => ?_⟩
          exact List.mem_range.mp (List.mem_of_mem_filter hi)
      · simp at hv
    · simp at hv
  unfold Issue.meeting at h
  simp only at h
  split at h
  · cases h
  split at h
  · cases h
    intro x hx
    simp only [List.mem_singleton] at hx
    subst hx
    exact hme
  split at h
  · split at h
    · cases h
      intro x hx
      simp only [List.mem_cons, List.mem_map, List.mem_filter] at hx
      rcases hx with rfl | ⟨w, ⟨hw1, -⟩, rfl⟩
      · exact hme
      · exact hw w hw1
    · cases h
  · cases h

/-- The group once every gang has regrouped and made its accounts. -/
def Issue.accounted (c : Issue) (n : Nat) (gangs : List (BitVec 3 × List Nat)) (g : Group) : Group :=
  gangs.foldl (fun g x => (g.regroup x.2).afterIssue { c with gang := x.1, sls := x.2 } n priceLane) g

theorem Issue.accounted_eq (c : Issue) (n : Nat) (gangs : List (BitVec 3 × List Nat)) (g : Group) :
    c.accounted n gangs g =
      { g with slices := (c.accounted n gangs g).slices, retired := (c.accounted n gangs g).retired,
               issued := (c.accounted n gangs g).issued, held := (c.accounted n gangs g).held,
               wants := (c.accounted n gangs g).wants, laneStamp := (c.accounted n gangs g).laneStamp,
               uniStamp := (c.accounted n gangs g).uniStamp } ∧ (gangs ≠ [] → (c.accounted n gangs g).issued = true) := by
  unfold Issue.accounted
  induction gangs generalizing g with
  | nil => exact ⟨rfl, fun h => absurd rfl h⟩
  | cons x gangs ih =>
    simp only [List.foldl_cons]
    obtain ⟨h1, h2⟩ := ih ((g.regroup x.2).afterIssue { c with gang := x.1, sls := x.2 } n priceLane)
    refine ⟨?_, fun _ => ?_⟩
    · conv_lhs => rw [h1]
      rw [Group.regroup_eq]
      rfl
    · cases gangs with
      | nil => rfl
      | cons y ys => exact h2 (by simp)

theorem Issue.accounted_retired (c : Issue) (n : Nat) (gangs : List (BitVec 3 × List Nat)) (g : Group) :
    (c.accounted n gangs g).retired = if c.g.priv then g.retired else g.retired + BitVec.ofNat 64 gangs.length := by
  unfold Issue.accounted
  induction gangs generalizing g with
  | nil => simp
  | cons x gangs ih =>
    simp only [List.foldl_cons]
    rw [ih, Group.afterIssue_retired, Group.regroup_retired]
    cases hp : c.g.priv <;> simp only [Bool.false_eq_true, if_false, if_true, List.length_cons]
    rw [BitVec.ofNat_add, BitVec.add_assoc, BitVec.add_comm 1]
    rfl

theorem Issue.accounted_get (c : Issue) (n : Nat) (gangs : List (BitVec 3 × List Nat)) (g : Group)
    (h : ∀ x ∈ gangs, x.2.Nodup ∧ ∀ i ∈ x.2, i < 8) {j : Nat} (hj : j < 8) :
    ∃ k, (c.accounted n gangs g).slices.get j = { g.slices.get j with gang := k } ∧
      (j ∉ gangList gangs → k = (g.slices.get j).gang) := by
  unfold Issue.accounted
  induction gangs generalizing g with
  | nil => exact ⟨_, rfl, fun _ => rfl⟩
  | cons x gangs ih =>
    simp only [List.foldl_cons]
    obtain ⟨k, h1, h2⟩ := ih ((g.regroup x.2).afterIssue { c with gang := x.1, sls := x.2 } n priceLane)
      (fun y hy => h y (by simp [hy]))
    obtain ⟨k', h1', h2'⟩ := Group.regroup_get g x.2 (h x (by simp)).1 (h x (by simp)).2 hj
    simp only [Group.afterIssue_slices, h1'] at h1 h2
    refine ⟨k, h1, fun hn => ?_⟩
    rw [gangList_mem] at hn
    have hg' : j ∉ gangList gangs := fun hm => hn ⟨hj, by
      obtain ⟨_, y, hy, hyj⟩ := gangList_mem.mp hm
      exact ⟨y, by simp [hy], hyj⟩⟩
    have hx' : j ∉ x.2 := fun hm => hn ⟨hj, x, by simp, hm⟩
    rw [h2 hg', h2' hx']

theorem Issue.share_uniform (c : Issue) (x : BitVec 3) : (c.share x).uniform = false := by
  unfold Issue.share
  split <;> rfl

theorem Core.afterIssue_fold (c : Issue) (gangs : List (BitVec 3 × List Nat)) {k k' : Core} (ht : k.tokens = k'.tokens)
    (hr : k.reservations = k'.reservations) :
    (gangs.foldl (fun k x => k.afterIssue { c with gang := x.1, sls := x.2 } (c.share x.1)) k).tokens =
      (gangs.foldl (fun k x => k.pay c.gid x.1.toNat (c.share x.1).tokens) k').tokens := by
  induction gangs generalizing k k' with
  | nil => exact ht
  | cons x gangs ih =>
    simp only [List.foldl_cons]
    refine ih ?_ ?_
    · rw [Core.afterIssue_tokens, c.share_uniform]
      exact Core.pay_tokens_congr ht hr _ _ _
    · unfold Core.afterIssue Core.pay
      simp only [c.share_uniform, Bool.false_eq_true, if_false, hr]
      split <;> rfl

theorem Core.afterIssue_folds (c : Issue) (gangs : List (BitVec 3 × List Nat)) (k : Core) :
    k.KeepsUnits (gangs.foldl (fun k x => k.afterIssue { c with gang := x.1, sls := x.2 } (c.share x.1)) k) := by
  induction gangs generalizing k with
  | nil => rfl
  | cons x gangs ih =>
    simp only [List.foldl_cons]
    exact (Core.afterIssue_keeps k _ _).trans (ih _)

/-- Tallies of several gangs change recordings and sample counts only. -/
theorem Issue.tallies_eq (c : Issue) (gangs : List (BitVec 3 × List Nat)) (s : State) :
    let t := gangs.foldl (fun s x => ({ c with gang := x.1, sls := x.2 } : Issue).tally s priceLane) s
    t = { s with cores := t.cores, recordings := t.recordings } ∧ (∀ k, k ≠ c.g.core → t.core k = s.core k) ∧
      (t.core c.g.core).tokens = (s.core c.g.core).tokens ∧ (s.core c.g.core).KeepsUnits (t.core c.g.core) ∧
      (c.sampled s priceLane = false → t.recordings = s.recordings) := by
  induction gangs generalizing s with
  | nil => exact ⟨rfl, fun _ _ => rfl, rfl, rfl, fun _ => rfl⟩
  | cons x gangs ih =>
    simp only [List.foldl_cons]
    obtain ⟨n, h1, h2, h3⟩ := Issue.tally_eq { c with gang := x.1, sls := x.2 } s priceLane
    obtain ⟨i1, i2, i3, i5, i4⟩ := ih (({ c with gang := x.1, sls := x.2 } : Issue).tally s priceLane)
    refine ⟨?_, fun k hk => ?_, ?_, ?_, fun hs => ?_⟩
    · conv_lhs => rw [i1]
      rw [h1]
    · rw [i2 k hk]; exact h2 k hk
    · rw [i3]
      have : (({ c with gang := x.1, sls := x.2 } : Issue).tally s priceLane).core c.g.core =
        { s.core c.g.core with samples := n } := h3
      rw [this]
    · have : (({ c with gang := x.1, sls := x.2 } : Issue).tally s priceLane).core c.g.core =
        { s.core c.g.core with samples := n } := h3
      have h0 : (s.core c.g.core).KeepsUnits { s.core c.g.core with samples := n } := rfl
      rw [this] at i5
      exact h0.trans i5
    · have h5 := Issue.tally_unsampled { c with gang := x.1, sls := x.2 } s priceLane hs
      have h7 : c.sampled (({ c with gang := x.1, sls := x.2 } : Issue).tally s priceLane) priceLane = false := by
        rw [← hs, h1, h5]
        rfl
      exact (i4 h7).trans h5

theorem Issue.keeps_of {c : Issue} {a m : Group}
    (h : a = { m with slices := a.slices, retired := a.retired, issued := a.issued, held := a.held, wants := a.wants,
                      laneStamp := a.laneStamp, uniStamp := a.uniStamp })
    (hm : m = { c.g with slices := m.slices, waits := m.waits }) (hi : a.issued = true) :
    c.KeepsGroup { a with waits := c.g.waits } := by
  rw [hm, hi] at h
  exact congrArg (fun g : Group => { g with waits := c.g.waits }) h

/-- The end of the issue of several gangs, from a working state whose slices stand where they stood. -/
theorem Issue.advanceAll_concludes {c : Issue} {s s1 : State} {g1 : Group} {members : Word32} (hi : issueOf s = some c)
    (w : c.Working s s1 g1) {gangs : List (BitVec 3 × List Nat)} (hm : c.meeting members = .execute gangs) (hne : gangs ≠ [])
    (hk : g1 = { c.g with slices := g1.slices })
    (ho : ∀ i, i < 8 → i ∉ gangList gangs → g1.slices.get i = c.g.slices.get i)
    (hp : ∀ i ∈ gangList gangs, (g1.slices.get i).path = (c.g.slices.get i).path ∧ (g1.slices.get i).exited = (c.g.slices.get i).exited ∧
      (g1.slices.get i).mark = (c.g.slices.get i).mark) :
    ∃ g, c.Concludes s (advanceAll s1 c gangs) gangs g ∧ ∀ j ∈ gangList gangs,
      (g.slices.get j).names = (g1.slices.get j).names ∧ (g.slices.get j).preds = (g1.slices.get j).preds ∧
      (g.slices.get j).fflags = (g1.slices.get j).fflags := by
  have hgs := Issue.meeting_gangs hi hm
  let k := s1.core c.g.core
  let mv (g : Group) : Group := (g.endMeeting c.pc (gangList gangs)).modSlices (gangList gangs) fun _ sl =>
      ({ sl with pc := sl.pc + 12, latched := [] } : Slice).settle
  let s2 := s1.modGroup c.gid fun g => c.accounted s1.tick gangs (mv g)
  let s3 := s2.setCore c.g.core (gangs.foldl (fun k x => k.afterIssue { c with gang := x.1, sls := x.2 } (c.share x.1)) k)
  have hd : advanceAll s1 c gangs = gangs.foldl (fun s x => ({ c with gang := x.1, sls := x.2 } : Issue).tally s priceLane) s3 := rfl
  have w2 : c.Working s s2 (c.accounted s1.tick gangs (mv g1)) := w.modGroup _
  obtain ⟨t1, t2, t3, t5, t4⟩ := Issue.tallies_eq c gangs s3
  rw [← hd] at t1 t2 t3 t4 t5
  have hmv : ∀ j, j < 8 → (mv g1).slices.get j = if j ∈ gangList gangs then
      ({ g1.slices.get j with pc := (g1.slices.get j).pc + 12, latched := [] } : Slice).settle else g1.slices.get j := by
    intro j hj
    exact Group.get_modSlices _ _ _ (gangList_nodup gangs) (fun i h => (gangList_mem.mp h).1) hj
  obtain ⟨e1, e2⟩ := Issue.accounted_eq c s1.tick gangs (mv g1)
  have emv : mv g1 = { g1 with slices := (mv g1).slices, waits := (g1.endMeeting c.pc (gangList gangs)).waits } := by
    show Group.modSlices _ _ _ = _
    rw [Group.modSlices_eq]
    rfl
  refine ⟨c.accounted s1.tick gangs (mv g1), ⟨?_, ?_, ?_, ?_, ?_, ?_, ?_, ?_, ?_, ?_⟩, ?_⟩
  · rw [t1]
    show { s3 with cores := _, recordings := _ } = _
    have : s3 = { s with groups := s.groups.set c.gid (c.accounted s1.tick gangs (mv g1)), cores := s3.cores } := by
      have h := w2.state
      show s2.setCore _ _ = _
      unfold State.setCore
      conv_lhs => rw [h]
      rfl
    rw [this]
  · intro j hj
    rw [t2 j hj]
    show (s2.setCore _ _).core j = _
    rw [State.core_setCore_other _ _ hj]
    exact w2.cores j hj
  · refine w.units.trans (Core.KeepsUnits.trans ?_ t5)
    show Core.KeepsUnits _ ((s2.setCore _ _).core _)
    rw [State.core_setCore_self]
    exact Core.afterIssue_folds c gangs _
  · rw [t3]
    show ((s2.setCore _ _).core _).tokens = _
    rw [State.core_setCore_self]
    exact Core.afterIssue_fold c gangs w.tokens w.reservations
  · intro hu
    have hs : c.sampled s3 priceLane = false := by
      rw [← hu, ← w2.sampled]
      rfl
    rw [t4 hs]
    show s1.recordings = _
    rw [w.state]
  · rw [Issue.accounted_retired, emv, hk]
  · rw [e1, emv, hk]
    rfl
  · refine Issue.keeps_of e1 ?_ (e2 hne)
    rw [emv, hk]
  · intro i h8 hni
    obtain ⟨q, h1, h2⟩ := Issue.accounted_get c s1.tick gangs (mv g1) hgs h8
    rw [h1, h2 hni, hmv i h8]
    simp only [hni, if_false]
    exact ho i h8 hni
  · intro i hi'
    have h8 := (gangList_mem.mp hi').1
    obtain ⟨q, h1, -⟩ := Issue.accounted_get c s1.tick gangs (mv g1) hgs h8
    rw [h1, hmv i h8]
    simp only [hi', if_true]
    obtain ⟨p1, p2, p3⟩ := hp i hi'
    constructor
    · show (Slice.settle _).path = _
      refine Slice.settle_path ?_ p3
      simp only [Slice.path, Prod.mk.injEq] at p1 ⊢
      exact ⟨by rw [p1.1]; rfl, p1.2⟩
    · show (Slice.settle _).exited = _
      rw [Slice.settle_exited]
      exact p2
  · intro j hj
    have h8 := (gangList_mem.mp hj).1
    obtain ⟨q, h1, -⟩ := Issue.accounted_get c s1.tick gangs (mv g1) hgs h8
    rw [h1, hmv j h8]
    simp only [hj, if_true]
    exact ⟨Slice.settle_names _, Slice.settle_preds _, Slice.settle_fflags _⟩

/-! ### The completion of the shared meaning -/

/-- A slice of the gathered gang: its own, with the participants active. -/
theorem Issue.gathered_get (c : Issue) (p : Pred) (m : BitVec 6) (gangs : List (BitVec 3 × List Nat)) {j : Nat} (hj : j < 8) :
    (c.gathered p m gangs).g.slices.get j =
      if j ∈ gangList gangs then { c.g.slices.get j with mask := c.takers p m j } else c.g.slices.get j :=
  Group.get_modSlices _ _ _ (gangList_nodup gangs) (fun _ h => (gangList_mem.mp h).1) hj

theorem BitVec.and_and_self4 (a b m : BitVec 4) : (a &&& b &&& m) &&& b = a &&& b &&& m := by
  rw [BitVec.and_assoc, BitVec.and_comm m b, ← BitVec.and_assoc, BitVec.and_assoc a b b, BitVec.and_self]

/-- The participants are the active lanes of the gathered gang. -/
theorem Issue.gathered_active (c : Issue) (p : Pred) (m : BitVec 6) (gangs : List (BitVec 3 × List Nat)) {j : Nat}
    (hj : j ∈ gangList gangs) : ((c.gathered p m gangs).g.slices.get j).active p = c.takers p m j := by
  rw [c.gathered_get p m gangs (gangList_mem.mp hj).1]
  simp only [hj, if_true]
  exact BitVec.and_and_self4 _ _ _

theorem Issue.gathered_value (c : Issue) (p : Pred) (m : BitVec 6) (gangs : List (BitVec 3 × List Nat)) (wide : Bool) (a : BitVec 9)
    {n : Nat} (hn : n < 32) : laneValue (c.gathered p m gangs) wide a n = laneValue c wide a n := by
  unfold laneValue
  rw [c.gathered_get p m gangs (by omega : n / 4 < 8)]
  split <;> rfl

theorem Issue.gathered_q (c : Issue) (p : Pred) (m : BitVec 6) (gangs : List (BitVec 3 × List Nat)) (q : BitVec 4)
    {n : Nat} (hn : n < 32) : laneQ (c.gathered p m gangs) q n = laneQ c q n := by
  unfold laneQ
  rw [c.gathered_get p m gangs (by omega : n / 4 < 8)]
  split <;> rfl

theorem consumeMasked_eq (rs : List NameRead) (part : Nat → BitVec 4) (i : Nat) (sl : Slice) (h : ∀ r ∈ rs, sl.active r.p = part i) :
    consumeMasked rs part i sl = sl.consumeAll rs := by
  have hf : ∀ l : List NameRead, (∀ r ∈ l, sl.active r.p = part i) → ∀ x : Slice,
      l.foldl (fun x r => x.consume r.src.name.toNat (part i)) x =
        l.foldl (fun x r => x.consume r.src.name.toNat (sl.active r.p)) x := by
    intro l
    induction l with
    | nil => intro _ x; rfl
    | cons r l ih =>
      intro hl x
      simp only [List.foldl_cons]
      rw [hl r (by simp), ih (fun q hq => hl q (by simp [hq]))]
  unfold consumeMasked Slice.consumeAll
  rw [hf rs h]

theorem consumeMasked_same (rs : List NameRead) (part : Nat → BitVec 4) (i : Nat) (sl : Slice) :
    (consumeMasked rs part i sl).SameButNames sl := by
  have h := Slice.foldl_same rs (fun x r => x.consume r.src.name.toNat (part i)) (fun x a => Slice.consume_same x _ _) sl
  unfold consumeMasked
  unfold Slice.SameButNames at *
  simp only
  conv_lhs => rw [h]

theorem cell_consumeMasked_other (rs : List NameRead) (part : Nat → BitVec 4) (i : Nat) (sl : Slice) {m : Nat}
    (h : ∀ r ∈ rs, r.src.name.toNat ≠ m) : (consumeMasked rs part i sl).cell m = sl.cell m := by
  have hf : ∀ (l : List NameRead) (x : Slice), (∀ r ∈ l, r.src.name.toNat ≠ m) →
      (l.foldl (fun x r => x.consume r.src.name.toNat (part i)) x).cell m = x.cell m := by
    intro l
    induction l with
    | nil => intro x _; rfl
    | cons r l ih =>
      intro x hx
      simp only [List.foldl_cons]
      rw [ih _ (fun q hq => hx q (by simp [hq])), Slice.cell_consume_other _ _ (Ne.symm (hx r (by simp)))]
  rw [← hf rs sl h]
  unfold consumeMasked
  simp only [Slice.cell]
  refine tabGet?_filter _ _ _ fun v => ?_
  have : (rs.any fun r => r.src.name.toNat == m) = false := by
    simp only [List.any_eq_false, beq_iff_eq]
    exact fun r hr => h r hr
  simp [this]

/-- A meeting that executes, its operands at hand, does what its meaning does, and its gangs move on. -/
theorem crossStep_meets {c : Issue} {s : State} {p : Pred} {m : BitVec 6} {gangs : List (BitVec 3 × List Nat)} {rs : List NameRead}
    {ds : List Nat} {regs : List (BitVec 6)} (h : c.Meets s p m gangs rs ds regs) (act : Issue → (Nat → BitVec 4) → Commit)
    {s1 : State} (ha : act (c.gathered p m gangs) (c.takers p m) = .ok s1) :
    crossStep s p m rs ds act regs = .next (advanceAll s1 c gangs) := by
  have hp : c.pending (if m = 0 then regs else m :: regs) = false := by
    have := h.operands.loaded
    unfold Issue.pending at *
    have hg : (c.gathered p m gangs).g.gpend = c.g.gpend := Group.modSlices_gpend _ _ _
    rw [hg] at this
    exact this
  unfold crossStep
  simp only [h.issues, hp, h.meets, Bool.false_eq_true, if_false]
  congr 1
  refine laneStep_operands h.operands ?_ _ ?_
  · simp [trapIf, h.members]
  · rw [ha]; rfl

theorem Issue.meeting_ne {c : Issue} {members : Word32} {gangs : List (BitVec 3 × List Nat)}
    (h : c.meeting members = .execute gangs) : gangs ≠ [] := by
  unfold Issue.meeting at h
  simp only at h
  split at h
  · cases h
  split at h
  · cases h; simp
  split at h
  · split at h
    · cases h; simp
    · cases h
  · cases h

/-- A cross-lane instruction that writes a name of each participant completes. -/
theorem crossNames_gathers {c : Issue} {s : State} {p : Pred} {m : BitVec 6} {gangs : List (BitVec 3 × List Nat)} {d : Dst}
    {wide : Bool} {rs : List NameRead} {val : Issue → (Nat → BitVec 4) → (Nat → Nat) × FlagSet} {regs : List (BitVec 6)} {i : Instr}
    (he : exec i s = crossNames s p m d wide rs val regs) (h : c.Meets s p m gangs rs (destNames wide d) regs)
    (hrs : ∀ r ∈ rs, r.p = p) :
    c.Gathers s i p m gangs d wide rs (val (c.gathered p m gangs) (c.takers p m)).1 (val (c.gathered p m gangs) (c.takers p m)).2 := by
  have hi := h.issues
  have hg := (issueOf_some hi).1
  generalize hv : (val (c.gathered p m gangs) (c.takers p m)).1 = f
  generalize hfl : (val (c.gathered p m gangs) (c.takers p m)).2 = fl
  let c' := c.gathered p m gangs
  let use := consumeMasked rs (c.takers p m)
  let ws := destWrites wide d (c.takers p m) fun i l => f (4 * i + l)
  let fls (i : Nat) : FlagSet := if c.takers p m i != 0 then fl else 0
  have hc' : c'.g.core = c.g.core := Group.modSlices_core _ _ _
  have hneed : ∀ i ∈ c'.sls, cellsNeeded s c' use ws i = 0 := by
    intro j hj
    have hj' : j ∈ gangList gangs := hj
    have h1 := cellsNeeded_destWrites (c := c') h.operands.room (fun i l => f (4 * i + l)) true hj
    have hact := c.gathered_active p m gangs hj'
    have huse : use j (c'.g.slices.get j) = (c'.g.slices.get j).consumeAll rs :=
      consumeMasked_eq rs _ j _ fun r hr => by rw [hrs r hr]; exact hact
    unfold cellsNeeded at h1 ⊢
    simp only [huse]
    have hw : ((ws.filter fun w => w.mask j != 0 && (((c'.g.slices.get j).consumeAll rs).cell w.name).isNone).map fun w => w.name) =
        ((destWrites wide d (fun i => (c'.g.slices.get i).active p) (fun i l => f (4 * i + l)) true).filter fun w =>
          w.mask j != 0 && (((c'.g.slices.get j).consumeAll rs).cell w.name).isNone).map fun w => w.name := by
      cases wide <;> simp only [ws, destWrites, Bool.false_eq_true, if_false, if_true, List.filter_cons, List.filter_nil, hact, c']
      · split <;> rfl
      · split <;> split <;> rfl
    rw [hw]
    exact h1
  obtain ⟨s1, hc, w⟩ := Issue.commitWith_ok (c' := c') hg rfl hc' use ws fls hneed
  have hx : exec i s = .next (advanceAll s1 c gangs) := by
    rw [he]
    refine crossStep_meets h _ ?_
    rw [← hc]
    simp only [hv, hfl]
    rfl
  generalize hg1 : c'.apply c.g (16 * (s.core c.g.core).stamp) use ws fls = g1 at w
  have hget : ∀ j, j < 8 → g1.slices.get j =
      if j ∈ gangList gangs then (use j (c.g.slices.get j)).finished ws j (16 * (s.core c.g.core).stamp) (fls j) else c.g.slices.get j := by
    intro j hj
    rw [← hg1]
    exact Issue.apply_finished (c := c') c.g _ use ws fls (gangList_nodup gangs) (fun i h => (gangList_mem.mp h).1) hj
  have hsame : ∀ j ∈ gangList gangs, g1.slices.get j =
      { c.g.slices.get j with names := (g1.slices.get j).names, fflags := (c.g.slices.get j).fflags ||| (fls j).word } := by
    intro j hj
    rw [hget j (gangList_mem.mp hj).1]
    simp only [hj, if_true]
    have h2 := consumeMasked_same rs (c.takers p m) j (c.g.slices.get j)
    unfold Slice.SameButNames at h2
    conv_lhs => rw [Slice.finished_same]
    generalize ((use j (c.g.slices.get j)).finished ws j (16 * (s.core c.g.core).stamp) (fls j)).names = nm
    rw [show use j (c.g.slices.get j) = _ from h2]
  obtain ⟨g, hC, hS⟩ := Issue.advanceAll_concludes hi w h.meets (Issue.meeting_ne h.meets)
    (by rw [← hg1]; exact Issue.apply_eq _ _ _ _ _ _)
    (fun j hj hn => by rw [hget j hj]; simp only [hn, if_false])
    (fun j hj => by rw [hsame j hj]; exact ⟨rfl, rfl, rfl⟩)
  refine ⟨_, g, hx, hC, fun j hj => ?_⟩
  obtain ⟨n1, n2, n3⟩ := hS j hj
  have hcell : ∀ n, (g.slices.get j).cell n =
      ((use j (c.g.slices.get j)).finished ws j (16 * (s.core c.g.core).stamp) (fls j)).cell n := by
    intro n
    unfold Slice.cell
    rw [n1, hget j (gangList_mem.mp hj).1]
    simp only [hj, if_true]
  refine ⟨fun l hl hm => ?_, fun n hnn => ?_, ?_, ?_⟩
  · have := Slice.finished_dest (use j (c.g.slices.get j)) d wide (c.takers p m) (fun i l => f (4 * i + l)) true j
      (16 * (s.core c.g.core).stamp) (fls j) hl hm
    simp only [Slice.Holds, hcell]
    exact this
  · rw [hcell, Slice.cell_finished_other _ _ _ _ _ fun w hw e => hnn (by rw [← e]; exact destWrites_name hw)]
  · rw [n2, hsame j hj]
  · rw [n3, hsame j hj]
    simp only [fls]
    split <;> rfl

/-- A vote completes. -/
theorem voteStep_votes {c : Issue} {s : State} {p : Pred} {qd : BitVec 4} {m : BitVec 6} {gangs : List (BitVec 3 × List Nat)}
    {f : Issue → List Nat → Bool} {i : Instr} (he : exec i s = voteStep s p qd m f) (h : c.Meets s p m gangs [] []) :
    c.Votes s i p m gangs qd (f (c.gathered p m gangs) (participants (c.takers p m) (gangList gangs))) := by
  have hi := h.issues
  have hg := (issueOf_some hi).1
  generalize hb : f (c.gathered p m gangs) (participants (c.takers p m) (gangList gangs)) = b
  let g1 := c.g.modSlices (gangList gangs) fun i sl => sl.setPreds (c.takers p m i) qd fun _ => b
  have w : c.Working s _ g1 := (Issue.working_refl hg).modGroup fun g =>
    g.modSlices (gangList gangs) fun i sl => sl.setPreds (c.takers p m i) qd fun _ => b
  have hx : exec i s = .next (advanceAll (s.modGroup c.gid fun g =>
      g.modSlices (gangList gangs) fun i sl => sl.setPreds (c.takers p m i) qd fun _ => b) c gangs) := by
    rw [he]
    refine crossStep_meets h _ ?_
    rw [← hb]
    rfl
  have hget : ∀ j, j < 8 → g1.slices.get j =
      if j ∈ gangList gangs then (c.g.slices.get j).setPreds (c.takers p m j) qd (fun _ => b) else c.g.slices.get j := by
    intro j hj
    exact Group.get_modSlices _ _ _ (gangList_nodup gangs) (fun i h => (gangList_mem.mp h).1) hj
  obtain ⟨g, hC, hS⟩ := Issue.advanceAll_concludes hi w h.meets (Issue.meeting_ne h.meets)
    (Group.modSlices_eq _ _ _)
    (fun j hj hn => by rw [hget j hj]; simp only [hn, if_false])
    (fun j hj => by rw [hget j (gangList_mem.mp hj).1]; simp only [hj, if_true]; rw [Slice.setPreds_same]; exact ⟨rfl, rfl, rfl⟩)
  refine ⟨_, g, hx, hC, fun j hj => ?_⟩
  obtain ⟨n1, n2, n3⟩ := hS j hj
  have hj8 := (gangList_mem.mp hj).1
  refine ⟨fun l n hl => ?_, ?_, ?_⟩
  · have : (g.slices.get j).q l n = (g1.slices.get j).q l n := by unfold Slice.q; rw [n2]
    rw [this, hget j hj8]
    simp only [hj, if_true]
    exact Slice.q_setPreds _ _ _ _ _ hl
  · rw [n1, hget j hj8]
    simp only [hj, if_true]
    rw [Slice.setPreds_same]
  · rw [n3, hget j hj8]
    simp only [hj, if_true]
    rw [Slice.setPreds_same]

end Sys2Proof.Machine
end

