-- ==== Sys2Proof/Laws/Uniform.lean ====
section
/-! SUPPORT. Uniform instructions: a register written and every other kept, and the completion of the shared meaning. -/

namespace Sys2Proof.Machine

theorem getD_setReg (l : List Word64) (n m : Nat) (x : Word64) : (setReg l n x).getD m 0 = if m = n then x else l.getD m 0 := by
  induction n generalizing l m with
  | zero =>
    cases m with
    | zero => simp [setReg]
    | succ m => cases l <;> simp [setReg]
  | succ n ih =>
    cases m with
    | zero => cases l <;> simp [setReg]
    | succ m =>
      have := ih l.tail m
      cases l <;> simp_all [setReg]

/-- A uniform register read after a write (R39): `g0` reads 0 and ignores the write. -/
theorem Group.g_setG (g : Group) (d r : BitVec 6) (x : Word64) :
    (g.setG d x).g r = if r = d then (if d = 0 then 0 else x) else g.g r := by
  unfold Group.setG Group.g
  by_cases hd : d = 0
  · subst hd
    by_cases hr : r = 0
    · simp [hr]
    · have hr' : ¬r = 0#6 := hr
      simp [hr']
  · by_cases hr : r = d
    · subst hr
      rw [if_neg hd, if_neg hd, if_pos rfl, if_neg hd]
      simp only [getD_setReg, if_true]
    · have hne : r.toNat ≠ d.toNat := fun e => hr (BitVec.eq_of_toNat_eq e)
      rw [if_neg hd, if_neg hr]
      simp only [getD_setReg, hne, if_false]

theorem Group.setG_eq (g : Group) (d : BitVec 6) (x : Word64) :
    g.setG d x = { g with gregs := (g.setG d x).gregs, gfail := (g.setG d x).gfail } := by
  unfold Group.setG
  split <;> rfl

/-- A uniform instruction whose registers are at hand and whose entry traps on nothing does what its meaning does. -/
theorem uniFrame_ready {c : Issue} {s : State} {dst regs : List (BitVec 6)} (h : c.UniReady s dst regs)
    (entry : Issue → Option Trap) (he : entry c = none) (act : Issue → State) :
    uniFrame s dst regs entry act = .next (act c) := by
  unfold uniFrame
  simp only [h.issues, h.noFailure, h.loaded, he, Bool.false_eq_true, if_false]

/-- The slices of a gang that has moved past an instruction which left them alone. -/
theorem Issue.advanced_keeps {c : Issue} {s : State} (hi : issueOf s = some c) (n len : Nat) (g : Group) (p : Price)
    (hg : ∀ j ∈ c.sls, g.slices.get j = c.g.slices.get j) : c.KeepsSlices (c.advanced n len g p) (c.past len) := by
  obtain ⟨hn, hb⟩ := issueOf_slices hi
  have hb8 : ∀ i ∈ c.sls, i < 8 := fun i h => (hb i h).1
  intro j hj
  obtain ⟨k, hk⟩ := (c.doneGroup_get n (c.pastGroup len g) p hn hb8 (hb8 j hj)).2 hj
  refine ⟨k, ?_⟩
  rw [Issue.advanced, hk, Issue.pastGroup_get len g hn hb8 (hb8 j hj)]
  simp only [hj, if_true, hg j hj, Issue.past]

/-- An issue that writes one uniform register and moves on completes. -/
theorem advance_sets {c : Issue} {s : State} {len : Nat} {d : BitVec 6} {v : Word64} {i : Instr} (hi : issueOf s = some c)
    (hx : exec i s = .next (c.advance (s.modGroup c.gid fun g => g.setG d v) len priceUniform)) : c.Sets s i len d v := by
  have hg := (issueOf_some hi).1
  have w := (Issue.working_refl hg).modGroup (fun g => g.setG d v)
  have heq := Group.setG_eq c.g d v
  have hE := Issue.advance_ends hi w len priceUniform (fun j _ _ => by rw [heq]) (by rw [heq])
  refine ⟨_, _, hx, ⟨hE.toAccounts, hE.others, ?_⟩, ?_, ?_, ?_⟩
  · intro j hj
    obtain ⟨hn, hb⟩ := issueOf_slices hi
    have := hE.stands j hj
    rw [this.1, this.2, Issue.pastGroup_get len _ hn (fun i h => (hb i h).1) (hb j hj).1]
    simp only [hj, if_true]
    rw [heq]
    exact ⟨rfl, rfl⟩
  · unfold Issue.KeepsButRegs Issue.advanced
    rw [Issue.doneGroup_eq, Issue.pastGroup, Group.modSlices_eq, heq]
  · exact Issue.advanced_keeps hi _ len _ _ fun j _ => by rw [heq]
  · intro r
    rw [← Group.g_setG c.g d r v]
    unfold Group.g Issue.advanced
    rw [Issue.doneGroup_eq, Issue.pastGroup, Group.modSlices_gregs]

/-- The completion of the shared meaning of uniform instructions. -/
theorem uniStep_sets {c : Issue} {s : State} {len : Nat} {d : BitVec 6} {regs : List (BitVec 6)} {f : Group → Word64} {i : Instr}
    (he : exec i s = uniStep s len d regs f) (h : c.UniReady s [d] regs) :
    c.Sets s i len d (f c.g) := by
  refine advance_sets h.issues ?_
  rw [he]
  unfold uniStep
  rw [uniFrame_ready h _ rfl _]
  have hg := (issueOf_some h.issues).1
  have hm : (s.modGroup c.gid fun g => g.setG d (f g)) = s.modGroup c.gid fun g => g.setG d (f c.g) := by
    unfold State.modGroup
    congr 1
    apply List.ext_getElem?
    intro j
    rw [List.getElem?_modify, List.getElem?_modify]
    by_cases e : c.gid = j
    · subst e
      rw [show s.groups[c.gid]? = some c.g from hg]
      rfl
    · simp [e]
  rw [hm]

end Sys2Proof.Machine
end

