-- ==== Sys2Proof/Laws/Effect.lean ====
section
/-! SUPPORT. Effects outside the names: how an instruction that changes slices in place, that only reads names, that leaves names empty
or that begins a wait completes. -/

namespace Sys2Proof.Machine

theorem issueOf_nodup {s : State} {c : Issue} (h : issueOf s = some c) : c.sls.Nodup := (issueOf_slices h).1

theorem issueOf_lt {s : State} {c : Issue} (h : issueOf s = some c) : ∀ i ∈ c.sls, i < 8 := fun i hi => ((issueOf_slices h).2 i hi).1

/-! ### Working states from a changed start -/

/-- A change that touches neither groups nor cores carries a working state along. -/
theorem Issue.Working.lift {c : Issue} {s s1 : State} {g1 : Group} (w : c.Working s s1 g1) (h : State → State)
    (hh : ∀ (s : State) gs cs, h { s with groups := gs, cores := cs } = { h s with groups := gs, cores := cs }) :
    c.Working (h s) (h s1) g1 := by
  have hc : ∀ s : State, (h s).cores = s.cores := fun s => by
    have := congrArg State.cores (hh s s.groups s.cores)
    exact this
  have hg : ∀ s : State, (h s).groups = s.groups := fun s => by
    have := congrArg State.groups (hh s s.groups s.cores)
    exact this
  have hcore : ∀ (s : State) k, (h s).core k = s.core k := fun s k => by unfold State.core; rw [hc]
  refine ⟨?_, fun k hk => ?_, ?_⟩
  · conv_lhs => rw [w.state, hh]
    rw [hg, hc]
  · rw [hcore, hcore]; exact w.cores k hk
  · rw [hcore, hcore]; exact w.core

/-- Memory replaced. -/
theorem Issue.Working.setMem {c : Issue} {s s1 : State} {g1 : Group} (w : c.Working s s1 g1) (m : Memory) :
    c.Working (s.setMem m) (s1.setMem m) g1 := w.lift (fun s => s.setMem m) fun _ _ _ => rfl

/-- So does a change of the core's units. -/
theorem Issue.Working.modCore {c : Issue} {s s1 : State} {g1 : Group} (w : c.Working s s1 g1) (f : Core → Core)
    (hf : ∀ k n, f { k with stamp := n } = { f k with stamp := n }) :
    c.Working (s.modCore c.g.core f) (s1.modCore c.g.core f) g1 := by
  refine ⟨?_, fun k hk => ?_, ?_⟩
  · unfold State.modCore State.setCore
    conv_lhs => rw [w.state]
    rfl
  · unfold State.modCore
    rw [State.core_setCore_other _ _ hk, State.core_setCore_other _ _ hk]
    exact w.cores k hk
  · unfold State.modCore
    rw [State.core_setCore_self, State.core_setCore_self]
    have h3 := (congrArg f w.core).trans (hf (s.core c.g.core) (s1.core c.g.core).stamp)
    have h4 : (f (s1.core c.g.core)).stamp = (s1.core c.g.core).stamp := by simpa using congrArg Core.stamp h3
    rw [h4]
    exact h3

/-- The group's fields changed, slices apart. -/
theorem Issue.Working.on {c : Issue} {s s1 : State} {g1 : Group} (w : c.Working s s1 g1) (g0 : Group) (hc : g0.core = c.g.core) :
    (c.on g0).Working s s1 g1 := by
  obtain ⟨h1, h2, h3⟩ := w
  refine ⟨h1, fun k hk => ?_, ?_⟩
  · exact h2 k (by rw [← hc]; exact hk)
  · have e : (c.on g0).g.core = c.g.core := hc
    rw [e]
    exact h3

/-- The group changed in two ways that agree on it. -/
theorem State.modGroup_congr {s : State} {gid : Nat} {g : Group} (hg : s.group gid = some g) {f f' : Group → Group} (h : f g = f' g) :
    s.modGroup gid f = s.modGroup gid f' := by
  unfold State.modGroup
  congr 1
  apply List.ext_getElem?
  intro j
  rw [List.getElem?_modify, List.getElem?_modify]
  by_cases e : gid = j
  · subst e
    rw [show s.groups[gid]? = some g from hg]
    simp [h]
  · simp [e]

/-- The group's fields changed as `g0` has them. -/
theorem Issue.working_on {c : Issue} {s : State} (hi : issueOf s = some c) (g0 : Group) (hc : g0.core = c.g.core) :
    (c.on g0).Working s (s.modGroup c.gid fun _ => g0) g0 :=
  ((Issue.working_refl (issueOf_some hi).1).modGroup fun _ => g0).on g0 hc

/-! ### Slices changed in place -/

/-- The slices of a gang at the end of an issue. -/
theorem Issue.doneGroup_keepsSlices {c : Issue} (hn : c.sls.Nodup) (hb : ∀ i ∈ c.sls, i < 8) (n : Nat) (g : Group) (p : Price) :
    c.KeepsSlices (c.doneGroup n g p) (fun i => g.slices.get i) := by
  intro j hj
  obtain ⟨k, hk⟩ := (c.doneGroup_get n g p hn hb (hb j hj)).2 hj
  exact ⟨k, hk⟩

/-- An issue that has set its slices in place completes. -/
theorem Issue.moves_done {c : Issue} {s u s1 : State} {i : Instr} {g0 g1 : Group} {p : Price} {f : State → State}
    (hi : issueOf s = some c) (w : (c.on g0).Working u s1 g1) (hx : exec i s = .next (f ((c.on g0).done s1 p)))
    (hk : g1 = { g0 with slices := g1.slices }) (ho : ∀ i, i < 8 → i ∉ c.sls → g1.slices.get i = g0.slices.get i) :
    c.Moves s i u g0 p (fun i => g1.slices.get i) f := by
  have hn : (c.on g0).sls.Nodup := issueOf_nodup (c := c) hi
  have hb : ∀ i ∈ (c.on g0).sls, i < 8 := issueOf_lt (c := c) hi
  exact ⟨_, _, hx, Issue.done_ends_of hn hb w p ho (by rw [hk]; rfl),
    Issue.doneGroup_keeps (c := c.on g0) (x := g1.slices) hk _ _, Issue.doneGroup_keepsSlices hn hb _ _ _⟩

/-- The bases of two descriptions agree on the gang. -/
theorem Issue.Moves.congr {c : Issue} {s u : State} {i : Instr} {g0 : Group} {p : Price} {b b' : Nat → Slice} {f : State → State}
    (h : c.Moves s i u g0 p b f) (hb : ∀ i ∈ c.sls, b i = b' i) : c.Moves s i u g0 p b' f := by
  obtain ⟨t, g, h1, h2, h3, h4⟩ := h
  refine ⟨t, g, h1, ⟨h2.toAccounts, h2.others, fun i hi => ?_⟩, h3, fun i hi => ?_⟩
  · rw [← hb i hi]; exact h2.stands i hi
  · rw [← hb i hi]; exact h4 i hi

/-- An issue that changes its slices by `f`, sets their PCs, and ends there. -/
theorem Issue.moves_slices {c : Issue} {s u s1 : State} {i : Instr} {g0 : Group} {p : Price} {f : State → State}
    {m : Nat → Slice → Slice} (hi : issueOf s = some c) (w : (c.on g0).Working u s1 g0)
    (hx : exec i s = .next (f ((c.on g0).done (s1.modGroup c.gid fun g => g.modSlices c.sls m) p))) :
    c.Moves s i u g0 p (fun i => m i (g0.slices.get i)) f := by
  have hget := fun (j : Nat) (hj : j < 8) => Group.get_modSlices g0 c.sls m (issueOf_nodup hi) (issueOf_lt hi) hj
  refine Issue.Moves.congr (Issue.moves_done hi (w.modGroup fun g => g.modSlices c.sls m) hx (Group.modSlices_eq _ _ _) ?_) ?_
  · intro j hj hn
    rw [hget j hj]
    simp only [hn, if_false]
  · intro j hj
    rw [hget j (issueOf_lt hi j hj)]
    simp only [hj, if_true]

/-- An issue that changes its slices by `m` and moves on. -/
theorem Issue.moves_past {c : Issue} {s u s1 : State} {i : Instr} {g0 : Group} {p : Price} {f : State → State} {len : Nat}
    {m : Nat → Slice → Slice} (hi : issueOf s = some c) (w : (c.on g0).Working u s1 g0)
    (hx : exec i s = .next (f ((c.on g0).advance (s1.modGroup c.gid fun g => g.modSlices c.sls m) len p))) :
    c.Moves s i u g0 p (fun i => { m i (g0.slices.get i) with pc := (m i (g0.slices.get i)).pc + BitVec.ofNat 32 len }) f := by
  have hn := issueOf_nodup hi
  have hb := issueOf_lt hi
  have hget := fun (j : Nat) (hj : j < 8) => Group.get_modSlices g0 c.sls m hn hb hj
  have hpast := fun (g : Group) (j : Nat) (hj : j < 8) => Issue.pastGroup_get (c := c.on g0) len g hn hb hj
  refine Issue.Moves.congr (Issue.moves_done hi
    ((w.modGroup fun g => g.modSlices c.sls m).modGroup fun g => (c.on g0).pastGroup len g) hx ?_ ?_) ?_
  · rw [Issue.pastGroup, Group.modSlices_eq]
    rw [Group.modSlices_eq g0]
  · intro j hj hnj
    rw [hpast _ j hj, hget j hj]
    have : j ∉ (c.on g0).sls := hnj
    simp only [hnj, this, if_false]
  · intro j hj
    rw [hpast _ j (hb j hj), hget j (hb j hj)]
    have : j ∈ (c.on g0).sls := hj
    simp only [hj, this, if_true]

/-- An issue that leaves its slices alone and moves on. -/
theorem Issue.moves_on {c : Issue} {s u s1 : State} {i : Instr} {g0 : Group} {p : Price} {f : State → State} {len : Nat}
    (hi : issueOf s = some c) (w : (c.on g0).Working u s1 g0) (hs : g0.slices = c.g.slices)
    (hx : exec i s = .next (f ((c.on g0).advance s1 len p))) : c.Moves s i u g0 p (c.past len) f := by
  have hn := issueOf_nodup hi
  have hb := issueOf_lt hi
  have hpast := fun (g : Group) (j : Nat) (hj : j < 8) => Issue.pastGroup_get (c := c.on g0) len g hn hb hj
  refine Issue.Moves.congr (Issue.moves_done hi (w.modGroup fun g => (c.on g0).pastGroup len g) hx (Group.modSlices_eq _ _ _) ?_) ?_
  · intro j hj hnj
    rw [hpast _ j hj]
    have : j ∉ (c.on g0).sls := hnj
    simp only [this, if_false]
  · intro j hj
    rw [hpast _ j (hb j hj)]
    have : j ∈ (c.on g0).sls := hj
    simp only [this, if_true, hs]
    rfl

/-! ### Names only read -/

/-- The slices of a gang that has read names and moved on. -/
theorem Issue.lands {c : Issue} {s u s2 : State} {i : Instr} {g0 g2 : Group} {p : Price} {rs : List NameRead} {f : State → State}
    {stamp : Nat} (hi : issueOf s = some c) (w : (c.on g0).Working u s2 g2) (hs : g0.slices = c.g.slices)
    (hx : exec i s = .next (f ((c.on g0).advance s2 12 p))) (hk : g2 = { g0 with slices := g2.slices })
    (hg : ∀ j, j < 8 → g2.slices.get j = if j ∈ c.sls then (c.g.slices.get j).committed rs [] j stamp 0 else c.g.slices.get j) :
    c.Lands s i u g0 p rs f := by
  have hn := issueOf_nodup hi
  have hb := issueOf_lt hi
  have hE := Issue.advance_ends_of (c := c.on g0) hn hb w 12 p
    (fun j hj hnj => by
      rw [hg j hj]
      have : j ∉ c.sls := hnj
      simp only [this, if_false]
      show _ = g0.slices.get j
      rw [hs]) (by rw [hk]; rfl)
  refine ⟨_, _, hx, ⟨hE.toAccounts, hE.others, fun j hj => ?_⟩, ?_, fun j hj => ?_⟩
  · have h1 := hE.stands j hj
    have hj' : j ∈ c.sls := hj
    rw [h1.1, h1.2, Issue.pastGroup_get (c := c.on g0) 12 _ hn hb (hb j hj)]
    simp only [hj, if_true, hg j (hb j hj), hj']
    rw [Slice.committed_same]
    exact ⟨Slice.settle_path rfl rfl, rfl⟩
  · refine Issue.doneGroup_keeps (c := c.on g0) (x := ((c.on g0).pastGroup 12 g2).slices) ?_ _ _
    rw [Issue.pastGroup, Group.modSlices_eq, hk]
    rfl
  · obtain ⟨k, q, hk⟩ := Issue.advanced_get_of (c := c.on g0) hn hb s2.tick 12 g2 p hj
    rw [hg j (hb j hj)] at hk
    simp only [hj, if_true] at hk
    rw [hk]
    refine ⟨fun n _ => ?_, ?_, ?_⟩
    · exact Slice.cell_committed_other (c.g.slices.get j) rs [] j stamp 0 (fun w hw => absurd hw (by simp))
    · show ((c.g.slices.get j).committed rs [] j stamp 0).preds = _
      rw [Slice.committed_same]
    · show ((c.g.slices.get j).committed rs [] j stamp 0).fflags = _
      rw [Slice.committed_same]
      exact BitVec.or_zero

/-- A commit of reads alone. -/
theorem Issue.commit_reads {c : Issue} {s : State} (hi : issueOf s = some c) (rs : List NameRead) :
    ∃ s1, c.commit s rs [] (fun _ => 0) = .ok s1 ∧
      c.Working s s1 (c.apply c.g (16 * (s.core c.g.core).stamp) (fun _ sl => sl.consumeAll rs) [] fun _ => 0) :=
  Issue.commit_ok hi rs [] (fun _ => 0) fun i _ => by simp [cellsNeeded]

/-- An instruction that reads names and then acts on the state by `h`, which touches neither groups nor cores, lands. -/
theorem Issue.lands_lift {c : Issue} {s : State} {i : Instr} {p : Price} {rs : List NameRead} {f h : State → State}
    (hi : issueOf s = some c) (hx : ∀ s1, c.commit s rs [] (fun _ => 0) = .ok s1 → exec i s = .next (f (c.advance (h s1) 12 p)))
    (hh : ∀ (s : State) gs cs, h { s with groups := gs, cores := cs } = { h s with groups := gs, cores := cs }) :
    c.Lands s i (h s) c.g p rs f := by
  obtain ⟨s1, hc, w⟩ := Issue.commit_reads hi rs
  exact Issue.lands (c := c) hi ((w.lift h hh).on c.g rfl) rfl (hx s1 hc) (Issue.apply_eq _ _ _ _ _ _)
    (fun j hj => Issue.apply_get (c := c) c.g _ rs [] (fun _ => 0) (issueOf_nodup hi) (issueOf_lt hi) hj)

/-- The same where it acts on its core's units as well. -/
theorem Issue.lands_core {c : Issue} {s : State} {i : Instr} {p : Price} {rs : List NameRead} {f h : State → State} {k : Core → Core}
    (hi : issueOf s = some c)
    (hx : ∀ s1, c.commit s rs [] (fun _ => 0) = .ok s1 → exec i s = .next (f (c.advance (h (s1.modCore c.g.core k)) 12 p)))
    (hh : ∀ (s : State) gs cs, h { s with groups := gs, cores := cs } = { h s with groups := gs, cores := cs })
    (hk : ∀ q n, k { q with stamp := n } = { k q with stamp := n }) :
    c.Lands s i (h (s.modCore c.g.core k)) c.g p rs f := by
  obtain ⟨s1, hc, w⟩ := Issue.commit_reads hi rs
  exact Issue.lands (c := c) hi (((w.modCore k hk).lift h hh).on c.g rfl) rfl (hx s1 hc) (Issue.apply_eq _ _ _ _ _ _)
    (fun j hj => Issue.apply_get (c := c) c.g _ rs [] (fun _ => 0) (issueOf_nodup hi) (issueOf_lt hi) hj)

/-! ### Names left empty -/

theorem emptyWrites_names (c : Issue) (p : Pred) (names : List Nat) (uses : BitVec 3) (i : Nat) (q : Nat → Bool) :
    (((emptyWrites c p names uses).filter fun w => w.mask i != 0 && q w.name).map fun w => w.name) =
      ((c.g.slices.get i).writing (names.map fun n => (p, n))).filter q := by
  unfold emptyWrites Slice.writing
  induction names with
  | nil => rfl
  | cons n l ih =>
    cases ha : (c.g.slices.get i).active p != 0 <;> cases hq : q n <;>
      simp only [List.map_cons, List.filter_cons, ha, hq, Bool.false_and, Bool.true_and, Bool.false_eq_true, if_false, if_true] at ih ⊢
    all_goals first | exact ih | rw [ih]

/-- Room for the names an instruction writes is room for its empty writes. -/
theorem cellsNeeded_emptyWrites {c : Issue} {s : State} {rs : List NameRead} {p : Pred} {names : List Nat} {uses : BitVec 3}
    (h : c.fits s rs (names.map fun n => (p, n)) = true) {i : Nat} (hi : i ∈ c.sls) :
    cellsNeeded s c (fun _ sl => sl.consumeAll rs) (emptyWrites c p names uses) i = 0 := by
  unfold Issue.fits at h
  have hx := List.all_eq_true.mp h i hi
  simp only [decide_eq_true_eq] at hx
  unfold cellsNeeded
  simp only
  rw [emptyWrites_names c p names uses i fun n => (((c.g.slices.get i).consumeAll rs).cell n).isNone]
  exact Nat.sub_eq_zero_of_le hx

/-- A name of a slice left empty by a write on a lane (R35, R37). -/
def Slice.Empties (sl : Slice) (n l : Nat) (uses : BitVec 3) : Prop :=
  ∃ k, sl.cell n = some k ∧ k.full = false ∧ k.failed = none ∧ k.count.get l = uses ∧ k.pin.get l = (uses == 0)

theorem Slice.empties_writeName (sl : Slice) (n : Nat) (uses : BitVec 3) {mask : BitVec 4} (data : Nat → Word32) (stamp : Nat) {l : Nat}
    (hl : l < 4) (hm : mask.getLsbD l = true) : (sl.writeName n uses mask data false stamp).Empties n l uses := by
  have h0 : ¬mask = 0 := fun h => by subst h; simp at hm
  unfold Slice.writeName
  simp only [h0, if_false]
  refine ⟨_, Slice.cell_putCell_self _ _ ?_, rfl, rfl, ?_, ?_⟩
  · unfold Cell.allZero
    rw [List.all_eq_false]
    refine ⟨l, List.mem_range.mpr hl, ?_⟩
    simp only [Quad.get_make _ hl, hm, if_true]
    by_cases hk : uses = 0 <;> simp [hk]
  all_goals simp only [Quad.get_make _ hl, hm, if_true]

theorem Slice.empties_other {sl : Slice} {n l : Nat} {uses : BitVec 3} (h : sl.Empties n l uses) (m : Nat) {mask : BitVec 4}
    (hm : mask.getLsbD l = true) (hl : l < 4) (data : Nat → Word32) (stamp : Nat) :
    (sl.writeName m uses mask data false stamp).Empties n l uses := by
  by_cases e : n = m
  · subst e
    exact Slice.empties_writeName sl n uses data stamp hl hm
  · obtain ⟨k, h1, h2⟩ := h
    exact ⟨k, by rw [Slice.cell_writeName_other _ _ _ _ _ _ e]; exact h1, h2⟩

/-- The empty writes of a list of names leave each of them empty on an active lane. -/
theorem Slice.empties_committed (c : Issue) (sl : Slice) (rs : List NameRead) (p : Pred) (names : List Nat) (uses : BitVec 3)
    (i stamp : Nat) (fl : FlagSet) {l n : Nat} (hl : l < 4) (hm : ((c.g.slices.get i).active p).getLsbD l = true) (hn : n ∈ names) :
    (sl.committed rs (emptyWrites c p names uses) i stamp fl).Empties n l uses := by
  have hf : ∀ (ns : List Nat) (x : Slice), (n ∈ ns ∨ x.Empties n l uses) →
      ((emptyWrites c p ns uses).foldl
        (fun x w => x.writeName w.name w.uses (w.mask i) (w.data i) w.full (stamp + w.name % 16)) x).Empties n l uses := by
    intro ns
    induction ns with
    | nil =>
      intro x hx
      rcases hx with hx | hx
      · simp at hx
      · exact hx
    | cons m ns ih =>
      intro x hx
      simp only [emptyWrites, List.map_cons, List.foldl_cons] at ih ⊢
      refine ih _ ?_
      by_cases e : n = m
      · subst e
        exact Or.inr (Slice.empties_writeName x n uses _ _ hl hm)
      · rcases hx with hx | hx
        · exact Or.inl (by simpa [e] using hx)
        · exact Or.inr (Slice.empties_other hx m hm hl _ _)
  exact hf names _ (Or.inl hn)

theorem tabGet?_map {α : Type} (t : Table α) (f : Nat × α → α) (k : Nat) :
    tabGet? (t.map fun e => (e.1, f e)) k = (tabGet? t k).map fun v => f (k, v) := by
  induction t with
  | nil => rfl
  | cons e r ih =>
    obtain ⟨j, v⟩ := e
    by_cases h : j = k
    · subst h; simp [tabGet?]
    · simp only [List.map_cons, tabGet?, h, if_false, ih]

theorem Slice.await_same (sl : Slice) (names : List Nat) (mask : BitVec 4) (instr : Nat) :
    (sl.await names mask instr).SameButNames sl := by
  unfold Slice.await Slice.SameButNames
  split <;> rfl

theorem Slice.cell_await (sl : Slice) (names : List Nat) {mask : BitVec 4} (hm : mask ≠ 0) (instr n : Nat) :
    (sl.await names mask instr).cell n =
      (sl.cell n).map fun k => if names.contains n then { k with producer := instr } else k := by
  unfold Slice.await Slice.cell
  have hm' : ¬mask = 0 := hm
  simp only [hm', if_false]
  have : (sl.names.map fun e => if names.contains e.1 then (e.1, { e.2 with producer := instr }) else e) =
      sl.names.map fun e => (e.1, if names.contains e.1 then { e.2 with producer := instr } else e.2) := by
    apply List.map_congr_left
    intro e _
    split <;> rfl
  rw [this, tabGet?_map]

theorem Slice.cell_await_other (sl : Slice) {names : List Nat} (mask : BitVec 4) (instr : Nat) {n : Nat} (h : n ∉ names) :
    (sl.await names mask instr).cell n = sl.cell n := by
  by_cases hm : mask = 0
  · unfold Slice.await; simp only [hm, if_true]
  · rw [Slice.cell_await _ _ hm]
    have : names.contains n = false := by simpa using h
    simp only [this, Bool.false_eq_true, if_false, Option.map_id']

/-- The slices of a gang that has left names empty and moved on. -/
theorem Issue.leaves {c : Issue} {s u s2 : State} {i : Instr} {p : Price} {rs : List NameRead} {q : Pred} {names : List Nat}
    {uses : BitVec 3} {instr stamp : Nat} {g2 : Group} (hi : issueOf s = some c) (w : c.Working u s2 g2)
    (hx : exec i s = .next (c.advance s2 12 p)) (hk : g2 = { c.g with slices := g2.slices })
    (hg : ∀ j, j < 8 → g2.slices.get j = if j ∈ c.sls then
      ((c.g.slices.get j).committed rs (emptyWrites c q names uses) j stamp 0).await names ((c.g.slices.get j).active q) instr
      else c.g.slices.get j) :
    c.Leaves s i u p rs q names uses instr := by
  have hn := issueOf_nodup hi
  have hb := issueOf_lt hi
  have hsame : ∀ j ∈ c.sls, g2.slices.get j = { c.g.slices.get j with names := (g2.slices.get j).names } := by
    intro j hj
    rw [hg j (hb j hj)]
    simp only [hj, if_true]
    have h1 := Slice.await_same ((c.g.slices.get j).committed rs (emptyWrites c q names uses) j stamp 0) names
      ((c.g.slices.get j).active q) instr
    unfold Slice.SameButNames at h1
    have h2 : (c.g.slices.get j).fflags ||| FlagSet.word 0 = (c.g.slices.get j).fflags := BitVec.or_zero
    rw [h1]
    generalize (((c.g.slices.get j).committed rs (emptyWrites c q names uses) j stamp 0).await names
      ((c.g.slices.get j).active q) instr).names = nm
    rw [Slice.committed_same]
    simp only [h2]
  have hE := Issue.advance_ends_of hn hb w 12 p
    (fun j hj hnj => by rw [hg j hj]; simp only [hnj, if_false]) (by rw [hk])
  refine ⟨_, _, hx, ⟨hE.toAccounts, hE.others, fun j hj => ?_⟩, ?_, fun j hj => ?_⟩
  · have h1 := hE.stands j hj
    rw [h1.1, h1.2, Issue.pastGroup_get 12 _ hn hb (hb j hj)]
    simp only [hj, if_true]
    rw [hsame j hj]
    exact ⟨Slice.settle_path rfl rfl, rfl⟩
  · refine Issue.doneGroup_keeps (x := (c.pastGroup 12 g2).slices) ?_ _ _
    rw [Issue.pastGroup, Group.modSlices_eq, hk]
  · obtain ⟨k, z, hz⟩ := Issue.advanced_get_of hn hb s2.tick 12 g2 p hj
    have hcell : ∀ n, ((c.advanced s2.tick 12 g2 p).slices.get j).cell n = (g2.slices.get j).cell n := by
      intro n; rw [hz]; rfl
    have hg' := hg j (hb j hj)
    simp only [hj, if_true] at hg'
    refine ⟨fun l hl hm n hnn => ?_, fun n hnn => ?_, ?_, ?_⟩
    · obtain ⟨k, h1, h2, h3, h4, h5⟩ := Slice.empties_committed c (c.g.slices.get j) rs q names uses j stamp 0 hl hm hnn
      have hne : (c.g.slices.get j).active q ≠ 0 := fun h => by rw [h] at hm; simp at hm
      refine ⟨{ k with producer := instr }, ?_, h2, h3, h4, h5, rfl⟩
      rw [hcell, hg', Slice.cell_await _ _ hne, h1]
      have : names.contains n = true := by simpa using hnn
      simp only [this, if_true, Option.map_some]
    · rw [hcell, hg', Slice.cell_await_other _ _ _ hnn]
      refine Slice.cell_committed_other _ _ (emptyWrites c q names uses) _ _ _ fun w hw => ?_
      unfold emptyWrites at hw
      obtain ⟨m, hm, rfl⟩ := List.mem_map.mp hw
      exact fun e => hnn (e ▸ hm)
    · rw [hz, hsame j hj]; rfl
    · rw [hz, hsame j hj]; rfl

/-- An instruction that leaves names empty, its effect outside its slices being `h`, which touches neither groups nor cores. -/
theorem Issue.leaves_lift {c : Issue} {s : State} {i : Instr} {p : Price} {rs : List NameRead} {q : Pred} {names : List Nat}
    {uses : BitVec 3} {instr : Nat} {h : State → State} (hi : issueOf s = some c)
    (hr : c.fits s rs (names.map fun n => (q, n)) = true)
    (hx : ∀ s1, c.commit s rs (emptyWrites c q names uses) (fun _ => 0) = .ok s1 →
      exec i s = .next (c.advance (h (s1.modGroup c.gid fun g =>
        g.modSlices c.sls fun i sl => sl.await names ((c.g.slices.get i).active q) instr)) 12 p))
    (hh : ∀ (s : State) gs cs, h { s with groups := gs, cores := cs } = { h s with groups := gs, cores := cs }) :
    c.Leaves s i (h s) p rs q names uses instr := by
  obtain ⟨s1, hc, w⟩ := Issue.commit_ok hi rs (emptyWrites c q names uses) (fun _ => 0)
    (fun i hi' => cellsNeeded_emptyWrites hr hi')
  have w2 := (w.modGroup fun g => g.modSlices c.sls fun i sl => sl.await names ((c.g.slices.get i).active q) instr).lift h hh
  refine Issue.leaves (stamp := 16 * (s.core c.g.core).stamp) hi w2 (hx s1 hc) ?_ fun j hj => ?_
  · rw [Group.modSlices_eq, Issue.apply_eq]
  · rw [Group.get_modSlices _ _ _ (issueOf_nodup hi) (issueOf_lt hi) hj,
      Issue.apply_get c.g _ rs _ _ (issueOf_nodup hi) (issueOf_lt hi) hj]
    split <;> rfl

/-! ### Waits begun -/

theorem List.modify_twice {α : Type} (l : List α) (i : Nat) (f g : α → α) : (l.modify i f).modify i g = l.modify i fun x => g (f x) := by
  apply List.ext_getElem?
  intro k
  rw [List.getElem?_modify, List.getElem?_modify, List.getElem?_modify]
  by_cases hk : i = k
  · subst hk; cases l[i]? <;> simp
  · simp [hk]

/-- The accounts of an issue that sets no PC of its own gang, from a working state. -/
theorem Issue.account_accounts {c : Issue} {s s1 : State} {g1 : Group} (w : c.Working s s1 g1) (p : Price)
    (hr : g1.retired = c.g.retired) :
    c.Accounts s (c.account s1 p) p (g1.afterIssue c s1.tick p) := by
  have hd : c.account s1 p = c.tally ((s1.modGroup c.gid fun g => g.afterIssue c s1.tick p).setCore c.g.core
      ((s1.core c.g.core).afterIssue c p)) p := rfl
  have w2 := w.modGroup (fun g => g.afterIssue c s1.tick p)
  obtain ⟨n, ht, htc, hts⟩ := c.tally_eq ((s1.modGroup c.gid fun g => g.afterIssue c s1.tick p).setCore
      c.g.core ((s1.core c.g.core).afterIssue c p)) p
  rw [← hd] at ht htc hts
  refine ⟨?_, ?_, ?_, ?_, ?_, ?_⟩
  · rw [ht]
    conv_lhs => rw [w2.state]
    rfl
  · intro k hk
    rw [htc k hk, State.core_setCore_other _ _ hk]
    exact w.cores k hk
  · rw [hts, State.core_setCore_self]
    exact (w.units.trans (Core.afterIssue_keeps _ c p)).trans rfl
  · rw [hts]
    simp only [State.core_setCore_self, Core.afterIssue_tokens]
    rw [Core.pay_tokens_congr w.tokens w.reservations, w.tokens]
  · intro hu
    have hu' : c.sampled ((s1.modGroup c.gid fun g => g.afterIssue c s1.tick p).setCore c.g.core
      ((s1.core c.g.core).afterIssue c p)) p = false := by
      rw [← hu, ← w.sampled]
      rfl
    rw [hd, Issue.tally_unsampled _ _ _ hu']
    show s1.recordings = _
    rw [w.state]
  · simp only [Group.afterIssue_retired, hr]

/-- A wait begun at the instruction: an account of the group with the wait. -/
theorem Issue.await_eq (c : Issue) (s : State) (kind : WaitKind) (p : Price) (undo : List (Nat × Nat × Cell)) :
    c.await s kind p undo = c.account (s.modGroup c.gid fun g => ({ g with waits := g.waits ++
      [{ slices := sliceBits c.sls, pc := c.pc, next := c.pc + 12, kind := kind, priv := c.g.priv, undo := undo }] } : Group).modSlices c.sls
        fun _ sl => { sl with latched := [] }) p := by
  unfold Issue.await Issue.account State.modGroup
  simp only [List.modify_twice]
  rfl

/-- A gang that begins a wait and leaves its slices alone. -/
theorem Issue.begins_await {c : Issue} {s : State} {i : Instr} {p : Price} {kind : WaitKind} {f : State → State}
    (hi : issueOf s = some c) (hx : exec i s = .next (f (c.await s kind p))) :
    c.Begins s i p [] (fun j => (c.g.slices.get j).pc)
      { slices := sliceBits c.sls, pc := c.pc, next := c.pc + 12, kind := kind, priv := c.g.priv } f := by
  have w := (Issue.working_refl (issueOf_some hi).1).modGroup fun g => ({ g with waits := g.waits ++
      [{ slices := sliceBits c.sls, pc := c.pc, next := c.pc + 12, kind := kind, priv := c.g.priv }] } : Group).modSlices c.sls
        fun _ sl => { sl with latched := [] }
  have h := Issue.account_accounts w p (by rw [Group.modSlices_eq])
  rw [← Issue.await_eq] at h
  have hget := fun (j : Nat) (hj : j < 8) => Group.get_modSlices ({ c.g with waits := c.g.waits ++
      [{ slices := sliceBits c.sls, pc := c.pc, next := c.pc + 12, kind := kind, priv := c.g.priv }] } : Group) c.sls
        (fun _ sl => { sl with latched := [] }) (issueOf_nodup hi) (issueOf_lt hi) hj
  refine ⟨_, _, hx, h, ?_, fun j hj hn => ?_, fun j hj => ?_⟩
  · unfold Issue.KeepsGroup Group.afterIssue
    rw [Group.modSlices_eq]
    rfl
  · show Oct.get (Group.modSlices _ _ _).slices j = _
    rw [hget j hj]
    simp only [hn, if_false]
  · show Slice.path ((Group.modSlices _ _ _).slices.get j) = _ ∧ Slice.exited ((Group.modSlices _ _ _).slices.get j) = _ ∧
      Slice.ReadsNames _ ((Group.modSlices _ _ _).slices.get j) [] [] ∧ Slice.preds ((Group.modSlices _ _ _).slices.get j) = _ ∧
      Slice.fflags ((Group.modSlices _ _ _).slices.get j) = _
    rw [hget j (issueOf_lt hi j hj)]
    simp only [hj, if_true]
    simp only [true_and, and_true]
    exact ⟨rfl, fun n _ => (Slice.cell_consumeAll_other (c.g.slices.get j) [] (m := n) (fun r hr => absurd hr (by simp))).symm⟩

/-- A gang that reads names and begins a wait on what its lanes name. -/
theorem Issue.begins_words {c : Issue} {s : State} {i : Instr} {rs : List NameRead} {kind : WaitKind} {pc next : Word32}
    {f : State → State} (hi : issueOf s = some c)
    (hx : ∀ s1, c.commit s rs [] (fun _ => 0) = .ok s1 → exec i s = .next (f (c.awaitWords s1 kind pc next))) :
    c.Begins s i priceLane rs (fun _ => pc) { slices := sliceBits c.sls, pc := pc, next := next, kind := kind, priv := c.g.priv } f := by
  have hn := issueOf_nodup hi
  have hb := issueOf_lt hi
  obtain ⟨s1, hc, w⟩ := Issue.commit_reads hi rs
  have hget := fun (j : Nat) (hj : j < 8) => Issue.apply_get (c := c) c.g (16 * (s.core c.g.core).stamp) rs [] (fun _ => 0) hn hb hj
  have heq := Issue.apply_eq c c.g (16 * (s.core c.g.core).stamp) (fun _ sl => sl.consumeAll rs) [] (fun _ => 0)
  generalize c.apply c.g (16 * (s.core c.g.core).stamp) (fun _ sl => sl.consumeAll rs) [] (fun _ => 0) = g1 at w hget heq
  have w2 := w.modGroup fun g => { g.modSlices c.sls fun _ sl => { sl with pc := pc } with waits := g.waits ++
    [{ slices := sliceBits c.sls, pc := pc, next := next, kind := kind, priv := c.g.priv }] }
  have hget2 : ∀ j, j < 8 → (g1.modSlices c.sls fun _ sl => { sl with pc := pc }).slices.get j =
      if j ∈ c.sls then { g1.slices.get j with pc := pc } else g1.slices.get j := fun j hj => Group.get_modSlices _ _ _ hn hb hj
  have hsl : ∀ j ∈ c.sls, (g1.modSlices c.sls fun _ sl => { sl with pc := pc }).slices.get j =
      { (c.g.slices.get j).committed rs [] j (16 * (s.core c.g.core).stamp) 0 with pc := pc } := by
    intro j hj
    rw [hget2 j (hb j hj), hget j (hb j hj)]
    simp only [hj, if_true]
  refine ⟨_, _, hx s1 hc, Issue.account_accounts w2 priceLane ?_, ?_, fun j hj hnj => ?_, fun j hj => ?_⟩
  · show (g1.modSlices _ _).retired = _
    rw [Group.modSlices_eq, heq]
  · unfold Issue.KeepsGroup Group.afterIssue
    rw [Group.modSlices_eq, heq]
    rfl
  · show (g1.modSlices _ _).slices.get j = _
    rw [hget2 j hj, hget j hj]
    simp only [hnj, if_false]
  · have h := hsl j hj
    show Slice.path ((g1.modSlices _ _).slices.get j) = _ ∧ Slice.exited ((g1.modSlices _ _).slices.get j) = _ ∧
      Slice.ReadsNames _ ((g1.modSlices _ _).slices.get j) rs [] ∧ Slice.preds ((g1.modSlices _ _).slices.get j) = _ ∧
      Slice.fflags ((g1.modSlices _ _).slices.get j) = _
    rw [h]
    refine ⟨?_, ?_, fun n _ => ?_, ?_, ?_⟩
    · rw [Slice.committed_same]; rfl
    · rw [Slice.committed_same]
    · exact Slice.cell_committed_other (c.g.slices.get j) rs [] j (16 * (s.core c.g.core).stamp) 0 (by simp)
    · rw [Slice.committed_same]
    · rw [Slice.committed_same]
      exact BitVec.or_zero

end Sys2Proof.Machine
end

