-- ==== Sys2Proof/Laws/PerInstr.lean ====
section
/-! SUPPORT. The family `Assigned`: the words of a well-formed instruction carry an assigned opcode and an allowed pairing (R77, R79,
R84), so that checks 2 and 3 of R87 pass on them; an event has no words. -/

/-- What the family says of an instruction. -/
def Sys2Proof.Laws.Assigned.Statement (i : Sys2Proof.Instr) : Prop :=
  Sys2Proof.wellFormed i = true → ∀ r, Sys2Proof.encodeRaw i = some r → r.assigned = true ∧ r.paired = true

namespace Sys2Proof.Laws.Assigned

theorem add p d a b t sat : Statement (.add p d a b t sat) := by rintro _ r ⟨⟩; exact ⟨rfl, rfl⟩
theorem sub p d a b t sat : Statement (.sub p d a b t sat) := by rintro _ r ⟨⟩; exact ⟨rfl, rfl⟩
theorem mul p d a b t : Statement (.mul p d a b t) := by rintro _ r ⟨⟩; exact ⟨rfl, rfl⟩
theorem mulhi p d a b t : Statement (.mulhi p d a b t) := by rintro _ r ⟨⟩; exact ⟨rfl, rfl⟩
theorem mad p d a b c t : Statement (.mad p d a b c t) := by rintro _ r ⟨⟩; exact ⟨rfl, rfl⟩
theorem madhi p d a b c t : Statement (.madhi p d a b c t) := by rintro _ r ⟨⟩; exact ⟨rfl, rfl⟩
theorem div p d a b t : Statement (.div p d a b t) := by rintro _ r ⟨⟩; exact ⟨rfl, rfl⟩
theorem rem p d a b t : Statement (.rem p d a b t) := by rintro _ r ⟨⟩; exact ⟨rfl, rfl⟩
theorem neg p d a t : Statement (.neg p d a t) := by rintro _ r ⟨⟩; exact ⟨rfl, rfl⟩
theorem abs p d a t : Statement (.abs p d a t) := by rintro _ r ⟨⟩; exact ⟨rfl, rfl⟩
theorem min p d a b t : Statement (.min p d a b t) := by rintro _ r ⟨⟩; exact ⟨rfl, rfl⟩
theorem max p d a b t : Statement (.max p d a b t) := by rintro _ r ⟨⟩; exact ⟨rfl, rfl⟩
theorem shl p d a b t : Statement (.shl p d a b t) := by rintro _ r ⟨⟩; exact ⟨rfl, rfl⟩
theorem shr p d a b t : Statement (.shr p d a b t) := by rintro _ r ⟨⟩; exact ⟨rfl, rfl⟩
theorem sar p d a b t : Statement (.sar p d a b t) := by rintro _ r ⟨⟩; exact ⟨rfl, rfl⟩
theorem rot p d a b t : Statement (.rot p d a b t) := by rintro _ r ⟨⟩; exact ⟨rfl, rfl⟩
theorem and p d a b t : Statement (.and p d a b t) := by rintro _ r ⟨⟩; exact ⟨rfl, rfl⟩
theorem or p d a b t : Statement (.or p d a b t) := by rintro _ r ⟨⟩; exact ⟨rfl, rfl⟩
theorem xor p d a b t : Statement (.xor p d a b t) := by rintro _ r ⟨⟩; exact ⟨rfl, rfl⟩
theorem andn p d a b t : Statement (.andn p d a b t) := by rintro _ r ⟨⟩; exact ⟨rfl, rfl⟩
theorem not p d a t : Statement (.not p d a t) := by rintro _ r ⟨⟩; exact ⟨rfl, rfl⟩
theorem bfe p d a b t : Statement (.bfe p d a b t) := by rintro _ r ⟨⟩; exact ⟨rfl, rfl⟩
theorem bfi p d a b c t : Statement (.bfi p d a b c t) := by rintro _ r ⟨⟩; exact ⟨rfl, rfl⟩
theorem pop p d a t : Statement (.pop p d a t) := by rintro _ r ⟨⟩; exact ⟨rfl, rfl⟩
theorem clz p d a t : Statement (.clz p d a t) := by rintro _ r ⟨⟩; exact ⟨rfl, rfl⟩
theorem ctz p d a t : Statement (.ctz p d a t) := by rintro _ r ⟨⟩; exact ⟨rfl, rfl⟩
theorem brev p d a t : Statement (.brev p d a t) := by rintro _ r ⟨⟩; exact ⟨rfl, rfl⟩
theorem lea p d a b t scale : Statement (.lea p d a b t scale) := by rintro _ r ⟨⟩; exact ⟨rfl, rfl⟩
theorem mov p d a t : Statement (.mov p d a t) := by rintro _ r ⟨⟩; exact ⟨rfl, rfl⟩
theorem movi p d t imm : Statement (.movi p d t imm) := by rintro _ r ⟨⟩; exact ⟨rfl, rfl⟩
theorem sel p d a b c t : Statement (.sel p d a b c t) := by rintro _ r ⟨⟩; exact ⟨rfl, rfl⟩
theorem cmp p qd a b t cond : Statement (.cmp p qd a b t cond) := by rintro _ r ⟨⟩; exact ⟨rfl, rfl⟩
theorem fadd p d a b t : Statement (.fadd p d a b t) := by rintro _ r ⟨⟩; exact ⟨rfl, rfl⟩
theorem fsub p d a b t : Statement (.fsub p d a b t) := by rintro _ r ⟨⟩; exact ⟨rfl, rfl⟩
theorem fmul p d a b t : Statement (.fmul p d a b t) := by rintro _ r ⟨⟩; exact ⟨rfl, rfl⟩
theorem fma p d a b c t : Statement (.fma p d a b c t) := by rintro _ r ⟨⟩; exact ⟨rfl, rfl⟩
theorem fmin p d a b t : Statement (.fmin p d a b t) := by rintro _ r ⟨⟩; exact ⟨rfl, rfl⟩
theorem fmax p d a b t : Statement (.fmax p d a b t) := by rintro _ r ⟨⟩; exact ⟨rfl, rfl⟩
theorem fabs p d a t : Statement (.fabs p d a t) := by rintro _ r ⟨⟩; exact ⟨rfl, rfl⟩
theorem fneg p d a t : Statement (.fneg p d a t) := by rintro _ r ⟨⟩; exact ⟨rfl, rfl⟩
theorem fcmp p qd a b t cond : Statement (.fcmp p qd a b t cond) := by rintro _ r ⟨⟩; exact ⟨rfl, rfl⟩
theorem fclass p d a t : Statement (.fclass p d a t) := by rintro _ r ⟨⟩; exact ⟨rfl, rfl⟩
theorem hadd2 p d a b t : Statement (.hadd2 p d a b t) := by rintro _ r ⟨⟩; exact ⟨rfl, rfl⟩
theorem hmul2 p d a b t : Statement (.hmul2 p d a b t) := by rintro _ r ⟨⟩; exact ⟨rfl, rfl⟩
theorem hfma2 p d a b c t : Statement (.hfma2 p d a b c t) := by rintro _ r ⟨⟩; exact ⟨rfl, rfl⟩
theorem frcp p d a t : Statement (.frcp p d a t) := by rintro _ r ⟨⟩; exact ⟨rfl, rfl⟩
theorem frsq p d a t : Statement (.frsq p d a t) := by rintro _ r ⟨⟩; exact ⟨rfl, rfl⟩
theorem fsqrt p d a t : Statement (.fsqrt p d a t) := by rintro _ r ⟨⟩; exact ⟨rfl, rfl⟩
theorem fexp2 p d a t : Statement (.fexp2 p d a t) := by rintro _ r ⟨⟩; exact ⟨rfl, rfl⟩
theorem flog2 p d a t : Statement (.flog2 p d a t) := by rintro _ r ⟨⟩; exact ⟨rfl, rfl⟩
theorem fsinpi p d a t : Statement (.fsinpi p d a t) := by rintro _ r ⟨⟩; exact ⟨rfl, rfl⟩
theorem fcospi p d a t : Statement (.fcospi p d a t) := by rintro _ r ⟨⟩; exact ⟨rfl, rfl⟩
theorem ftanh p d a t : Statement (.ftanh p d a t) := by rintro _ r ⟨⟩; exact ⟨rfl, rfl⟩
theorem cvt p d a dt st rint : Statement (.cvt p d a dt st rint) := by rintro _ r ⟨⟩; exact ⟨rfl, rfl⟩
theorem pack p d a b c t st k : Statement (.pack p d a b c t st k) := by rintro _ r ⟨⟩; exact ⟨rfl, rfl⟩
theorem unpack p d a t k : Statement (.unpack p d a t k) := by rintro _ r ⟨⟩; exact ⟨rfl, rfl⟩
theorem mxq p d a t st : Statement (.mxq p d a t st) := by rintro _ r ⟨⟩; exact ⟨rfl, rfl⟩
theorem mxdq p d a t : Statement (.mxdq p d a t) := by rintro _ r ⟨⟩; exact ⟨rfl, rfl⟩
theorem sp24 p d a t : Statement (.sp24 p d a t) := by rintro _ r ⟨⟩; exact ⟨rfl, rfl⟩
theorem voteAny p qd qs m : Statement (.voteAny p qd qs m) := by rintro _ r ⟨⟩; exact ⟨rfl, rfl⟩
theorem voteAll p qd qs m : Statement (.voteAll p qd qs m) := by rintro _ r ⟨⟩; exact ⟨rfl, rfl⟩
theorem voteBal p d qs m : Statement (.voteBal p d qs m) := by rintro _ r ⟨⟩; exact ⟨rfl, rfl⟩
theorem shflIdx p d a b t m : Statement (.shflIdx p d a b t m) := by rintro _ r ⟨⟩; exact ⟨rfl, rfl⟩
theorem shflUp p d a b t m : Statement (.shflUp p d a b t m) := by rintro _ r ⟨⟩; exact ⟨rfl, rfl⟩
theorem shflDn p d a b t m : Statement (.shflDn p d a b t m) := by rintro _ r ⟨⟩; exact ⟨rfl, rfl⟩
theorem shflXor p d a b t m : Statement (.shflXor p d a b t m) := by rintro _ r ⟨⟩; exact ⟨rfl, rfl⟩
theorem red p d a op t m : Statement (.red p d a op t m) := by rintro _ r ⟨⟩; exact ⟨rfl, rfl⟩
theorem scan p d a op excl t m : Statement (.scan p d a op excl t m) := by rintro _ r ⟨⟩; exact ⟨rfl, rfl⟩
theorem topk p d a b k t m : Statement (.topk p d a b k t m) := by rintro _ r ⟨⟩; exact ⟨rfl, rfl⟩
theorem matchLanes p d a t m : Statement (.matchLanes p d a t m) := by rintro _ r ⟨⟩; exact ⟨rfl, rfl⟩
theorem br p u join disp : Statement (.br p u join disp) := by rintro _ r ⟨⟩; exact ⟨rfl, rfl⟩
theorem call p u d disp : Statement (.call p u d disp) := by rintro _ r ⟨⟩; exact ⟨rfl, rfl⟩
theorem calli p u d a : Statement (.calli p u d a) := by rintro _ r ⟨⟩; exact ⟨rfl, rfl⟩
theorem ret u a : Statement (.ret u a) := by rintro _ r ⟨⟩; exact ⟨rfl, rfl⟩
theorem jmpi p u n a join disp : Statement (.jmpi p u n a join disp) := by rintro _ r ⟨⟩; exact ⟨rfl, rfl⟩
theorem regang tag : Statement (.regang tag) := by rintro _ r ⟨⟩; exact ⟨rfl, rfl⟩
theorem exit p : Statement (.exit p) := by rintro _ r ⟨⟩; exact ⟨rfl, rfl⟩
theorem nop p : Statement (.nop p) := by rintro _ r ⟨⟩; exact ⟨rfl, rfl⟩
theorem drop p a n : Statement (.drop p a n) := by rintro _ r ⟨⟩; exact ⟨rfl, rfl⟩
theorem free p a : Statement (.free p a) := by rintro _ r ⟨⟩; exact ⟨rfl, rfl⟩
theorem patld pat : Statement (.patld pat) := by rintro _ r ⟨⟩; exact ⟨rfl, rfl⟩
theorem weave p d a b c n pat : Statement (.weave p d a b c n pat) := by rintro _ r ⟨⟩; exact ⟨rfl, rfl⟩
theorem lanePair x y : Statement (.lanePair x y) := by
  intro h r e
  have h' : (pairAssigned x y && pairAllowed x y) = true := h
  rw [Bool.and_eq_true] at h'
  cases e
  exact h'
theorem ld p d m n t : Statement (.ld p d m n t) := by rintro _ r ⟨⟩; exact ⟨rfl, rfl⟩
theorem st p m b n t : Statement (.st p m b n t) := by rintro _ r ⟨⟩; exact ⟨rfl, rfl⟩
theorem atom p d m b c op ord t : Statement (.atom p d m b c op ord t) := by rintro _ r ⟨⟩; exact ⟨rfl, rfl⟩
theorem fence scope : Statement (.fence scope) := by rintro _ r ⟨⟩; exact ⟨rfl, rfl⟩
theorem tmove p m : Statement (.tmove p m) := by rintro _ r ⟨⟩; exact ⟨rfl, rfl⟩
theorem tgath p m : Statement (.tgath p m) := by rintro _ r ⟨⟩; exact ⟨rfl, rfl⟩
theorem tscat p m : Statement (.tscat p m) := by rintro _ r ⟨⟩; exact ⟨rfl, rfl⟩
theorem gatom p m res : Statement (.gatom p m res) := by
  cases res <;> rintro _ r ⟨⟩ <;> exact ⟨rfl, rfl⟩
theorem wopen p m w fill ro : Statement (.wopen p m w fill ro) := by rintro _ r ⟨⟩; exact ⟨rfl, rfl⟩
theorem wflush p m w : Statement (.wflush p m w) := by rintro _ r ⟨⟩; exact ⟨rfl, rfl⟩
theorem wclose p m w : Statement (.wclose p m w) := by rintro _ r ⟨⟩; exact ⟨rfl, rfl⟩
theorem bobj p m b wide ext : Statement (.bobj p m b wide ext) := by rintro _ r ⟨⟩; exact ⟨rfl, rfl⟩
theorem arrive p m one n : Statement (.arrive p m one n) := by rintro _ r ⟨⟩; exact ⟨rfl, rfl⟩
theorem wait p m d : Statement (.wait p m d) := by
  cases d <;> rintro _ r ⟨⟩ <;> exact ⟨rfl, rfl⟩
theorem yieldon p m cont : Statement (.yieldon p m cont) := by rintro _ r ⟨⟩; exact ⟨rfl, rfl⟩
theorem bar : Statement .bar := by rintro _ r ⟨⟩; exact ⟨rfl, rfl⟩
theorem pbar : Statement .pbar := by rintro _ r ⟨⟩; exact ⟨rfl, rfl⟩
theorem mzero p ea : Statement (.mzero p ea) := by rintro _ r ⟨⟩; exact ⟨rfl, rfl⟩
theorem mzeroRel p : Statement (.mzeroRel p) := by rintro _ r ⟨⟩; exact ⟨rfl, rfl⟩
theorem mpair p reuse a s base off : Statement (.mpair p reuse a s base off) := by rintro _ r ⟨⟩; exact ⟨rfl, rfl⟩
theorem mdrainNames p d m : Statement (.mdrainNames p d m) := by rintro _ r ⟨⟩; exact ⟨rfl, rfl⟩
theorem mdrainMemory p m : Statement (.mdrainMemory p m) := by rintro _ r ⟨⟩; exact ⟨rfl, rfl⟩
theorem mstadd p m : Statement (.mstadd p m) := by rintro _ r ⟨⟩; exact ⟨rfl, rfl⟩
theorem spawn p qd a entry base n k lane nj off : Statement (.spawn p qd a entry base n k lane nj off) := by rintro _ r ⟨⟩; exact ⟨rfl, rfl⟩
theorem jinit p m lane : Statement (.jinit p m lane) := by rintro _ r ⟨⟩; exact ⟨rfl, rfl⟩
theorem jwait p m lane d : Statement (.jwait p m lane d) := by
  cases d <;> rintro _ r ⟨⟩ <;> exact ⟨rfl, rfl⟩
theorem edgeseed p m : Statement (.edgeseed p m) := by rintro _ r ⟨⟩; exact ⟨rfl, rfl⟩
theorem edgechk p m : Statement (.edgechk p m) := by rintro _ r ⟨⟩; exact ⟨rfl, rfl⟩
theorem edgewait p m : Statement (.edgewait p m) := by rintro _ r ⟨⟩; exact ⟨rfl, rfl⟩
theorem edgeflip p m : Statement (.edgeflip p m) := by rintro _ r ⟨⟩; exact ⟨rfl, rfl⟩
theorem edgepass p m : Statement (.edgepass p m) := by rintro _ r ⟨⟩; exact ⟨rfl, rfl⟩
theorem bcastMin p a sgn j : Statement (.bcastMin p a sgn j) := by rintro _ r ⟨⟩; exact ⟨rfl, rfl⟩
theorem bcastMax p a sgn j : Statement (.bcastMax p a sgn j) := by rintro _ r ⟨⟩; exact ⟨rfl, rfl⟩
theorem trap p n : Statement (.trap p n) := by rintro _ r ⟨⟩; exact ⟨rfl, rfl⟩
theorem rte : Statement .rte := by rintro _ r ⟨⟩; exact ⟨rfl, rfl⟩
theorem vsdump m : Statement (.vsdump m) := by rintro _ r ⟨⟩; exact ⟨rfl, rfl⟩
theorem vsload m : Statement (.vsload m) := by rintro _ r ⟨⟩; exact ⟨rfl, rfl⟩
theorem stepmark : Statement .stepmark := by rintro _ r ⟨⟩; exact ⟨rfl, rfl⟩
theorem halt : Statement .halt := by rintro _ r ⟨⟩; exact ⟨rfl, rfl⟩
theorem sleep p mask : Statement (.sleep p mask) := by rintro _ r ⟨⟩; exact ⟨rfl, rfl⟩
theorem extwait p m d : Statement (.extwait p m d) := by
  cases d <;> rintro _ r ⟨⟩ <;> exact ⟨rfl, rfl⟩
theorem gaddReg d a b : Statement (.gaddReg d a b) := by rintro _ r ⟨⟩; exact ⟨rfl, rfl⟩
theorem gaddImm d a i : Statement (.gaddImm d a i) := by rintro _ r ⟨⟩; exact ⟨rfl, rfl⟩
theorem gaddU2 d a b : Statement (.gaddU2 d a b) := by
  cases b <;> rintro _ r ⟨⟩ <;> exact ⟨rfl, rfl⟩
theorem gsubReg d a b : Statement (.gsubReg d a b) := by rintro _ r ⟨⟩; exact ⟨rfl, rfl⟩
theorem gsubImm d a i : Statement (.gsubImm d a i) := by rintro _ r ⟨⟩; exact ⟨rfl, rfl⟩
theorem gsubU2 d a b : Statement (.gsubU2 d a b) := by
  cases b <;> rintro _ r ⟨⟩ <;> exact ⟨rfl, rfl⟩
theorem gmulReg d a b : Statement (.gmulReg d a b) := by rintro _ r ⟨⟩; exact ⟨rfl, rfl⟩
theorem gmulImm d a i : Statement (.gmulImm d a i) := by rintro _ r ⟨⟩; exact ⟨rfl, rfl⟩
theorem gmulU2 d a b : Statement (.gmulU2 d a b) := by
  cases b <;> rintro _ r ⟨⟩ <;> exact ⟨rfl, rfl⟩
theorem gshlReg d a b : Statement (.gshlReg d a b) := by rintro _ r ⟨⟩; exact ⟨rfl, rfl⟩
theorem gshlImm d a i : Statement (.gshlImm d a i) := by rintro _ r ⟨⟩; exact ⟨rfl, rfl⟩
theorem gshlU2 d a b : Statement (.gshlU2 d a b) := by
  cases b <;> rintro _ r ⟨⟩ <;> exact ⟨rfl, rfl⟩
theorem gshrReg d a b : Statement (.gshrReg d a b) := by rintro _ r ⟨⟩; exact ⟨rfl, rfl⟩
theorem gshrImm d a i : Statement (.gshrImm d a i) := by rintro _ r ⟨⟩; exact ⟨rfl, rfl⟩
theorem gshrU2 d a b : Statement (.gshrU2 d a b) := by
  cases b <;> rintro _ r ⟨⟩ <;> exact ⟨rfl, rfl⟩
theorem gandReg d a b : Statement (.gandReg d a b) := by rintro _ r ⟨⟩; exact ⟨rfl, rfl⟩
theorem gandImm d a i : Statement (.gandImm d a i) := by rintro _ r ⟨⟩; exact ⟨rfl, rfl⟩
theorem gandU2 d a b : Statement (.gandU2 d a b) := by
  cases b <;> rintro _ r ⟨⟩ <;> exact ⟨rfl, rfl⟩
theorem gorReg d a b : Statement (.gorReg d a b) := by rintro _ r ⟨⟩; exact ⟨rfl, rfl⟩
theorem gorImm d a i : Statement (.gorImm d a i) := by rintro _ r ⟨⟩; exact ⟨rfl, rfl⟩
theorem gorU2 d a b : Statement (.gorU2 d a b) := by
  cases b <;> rintro _ r ⟨⟩ <;> exact ⟨rfl, rfl⟩
theorem gxorReg d a b : Statement (.gxorReg d a b) := by rintro _ r ⟨⟩; exact ⟨rfl, rfl⟩
theorem gxorImm d a i : Statement (.gxorImm d a i) := by rintro _ r ⟨⟩; exact ⟨rfl, rfl⟩
theorem gxorU2 d a b : Statement (.gxorU2 d a b) := by
  cases b <;> rintro _ r ⟨⟩ <;> exact ⟨rfl, rfl⟩
theorem gcmp d a b cond : Statement (.gcmp d a b cond) := by
  cases b <;> rintro _ r ⟨⟩ <;> exact ⟨rfl, rfl⟩
theorem gmov d a : Statement (.gmov d a) := by rintro _ r ⟨⟩; exact ⟨rfl, rfl⟩
theorem gli d i : Statement (.gli d i) := by rintro _ r ⟨⟩; exact ⟨rfl, rfl⟩
theorem gliU2 d i : Statement (.gliU2 d i) := by rintro _ r ⟨⟩; exact ⟨rfl, rfl⟩
theorem gliHi d i : Statement (.gliHi d i) := by rintro _ r ⟨⟩; exact ⟨rfl, rfl⟩
theorem gbr a cond disp : Statement (.gbr a cond disp) := by rintro _ r ⟨⟩; exact ⟨rfl, rfl⟩
theorem gld d base sx space size win off : Statement (.gld d base sx space size win off) := by rintro _ r ⟨⟩; exact ⟨rfl, rfl⟩
theorem gst base b space size win off : Statement (.gst base b space size win off) := by rintro _ r ⟨⟩; exact ⟨rfl, rfl⟩
theorem setfmt a : Statement (.setfmt a) := by rintro _ r ⟨⟩; exact ⟨rfl, rfl⟩
theorem setfmtImm i : Statement (.setfmtImm i) := by rintro _ r ⟨⟩; exact ⟨rfl, rfl⟩
theorem setfmtM a mask : Statement (.setfmtM a mask) := by rintro _ r ⟨⟩; exact ⟨rfl, rfl⟩
theorem setprio a i : Statement (.setprio a i) := by rintro _ r ⟨⟩; exact ⟨rfl, rfl⟩
theorem setprioW a i : Statement (.setprioW a i) := by rintro _ r ⟨⟩; exact ⟨rfl, rfl⟩
theorem sread d sel : Statement (.sread d sel) := by rintro _ r ⟨⟩; exact ⟨rfl, rfl⟩
theorem sreadU2 d sel : Statement (.sreadU2 d sel) := by rintro _ r ⟨⟩; exact ⟨rfl, rfl⟩
theorem sreadLane d sel : Statement (.sreadLane d sel) := by rintro _ r ⟨⟩; exact ⟨rfl, rfl⟩
theorem swrite a sel : Statement (.swrite a sel) := by rintro _ r ⟨⟩; exact ⟨rfl, rfl⟩
theorem capq d n : Statement (.capq d n) := by rintro _ r ⟨⟩; exact ⟨rfl, rfl⟩
theorem capqReg d a : Statement (.capqReg d a) := by rintro _ r ⟨⟩; exact ⟨rfl, rfl⟩
theorem capqW d n : Statement (.capqW d n) := by rintro _ r ⟨⟩; exact ⟨rfl, rfl⟩

/-! ### Events -/

theorem trapEntry group cause sub slice arg : Statement (.trapEntry group cause sub slice arg) := by rintro _ r ⟨⟩
theorem quantumExpiry panel : Statement (.quantumExpiry panel) := by rintro _ r ⟨⟩
theorem teamSaveLeave team : Statement (.teamSaveLeave team) := by rintro _ r ⟨⟩
theorem distributorAdmit die : Statement (.distributorAdmit die) := by rintro _ r ⟨⟩
theorem gridStart grid : Statement (.gridStart grid) := by rintro _ r ⟨⟩
theorem teamRetire team : Statement (.teamRetire team) := by rintro _ r ⟨⟩
theorem spillWriteComplete group slice name : Statement (.spillWriteComplete group slice name) := by rintro _ r ⟨⟩
theorem cellRefill group slice name : Statement (.cellRefill group slice name) := by rintro _ r ⟨⟩
theorem floorRaiseGrant group slice : Statement (.floorRaiseGrant group slice) := by rintro _ r ⟨⟩
theorem reReservation core : Statement (.reReservation core) := by rintro _ r ⟨⟩
theorem memoryAccessPerform flight : Statement (.memoryAccessPerform flight) := by rintro _ r ⟨⟩
theorem loadDataArrival flight : Statement (.loadDataArrival flight) := by rintro _ r ⟨⟩
theorem windowFillComplete team win seg bad : Statement (.windowFillComplete team win seg bad) := by rintro _ r ⟨⟩
theorem windowWriteback team win seg : Statement (.windowWriteback team win seg) := by rintro _ r ⟨⟩
theorem windowCloseComplete team win : Statement (.windowCloseComplete team win) := by rintro _ r ⟨⟩
theorem engineOpStart core slot : Statement (.engineOpStart core slot) := by rintro _ r ⟨⟩
theorem engineUnitTransfer core slot idx bad : Statement (.engineUnitTransfer core slot idx bad) := by rintro _ r ⟨⟩
theorem mpairStep core : Statement (.mpairStep core) := by rintro _ r ⟨⟩
theorem drainPerform core bad : Statement (.drainPerform core bad) := by rintro _ r ⟨⟩
theorem addOnStorePerform core bad : Statement (.addOnStorePerform core bad) := by rintro _ r ⟨⟩
theorem ownershipEnd core : Statement (.ownershipEnd core) := by rintro _ r ⟨⟩
theorem translationWalkComplete die page : Statement (.translationWalkComplete die page) := by rintro _ r ⟨⟩
theorem faultTimeout die page : Statement (.faultTimeout die page) := by rintro _ r ⟨⟩
theorem crossDieAccept die origin : Statement (.crossDieAccept die origin) := by rintro _ r ⟨⟩
theorem crossDieReadServe die idx : Statement (.crossDieReadServe die idx) := by rintro _ r ⟨⟩
theorem crossDieReadDeliver die idx : Statement (.crossDieReadDeliver die idx) := by rintro _ r ⟨⟩
theorem spawnOverflowReturn core : Statement (.spawnOverflowReturn core) := by rintro _ r ⟨⟩
theorem gatherTimeout core cls : Statement (.gatherTimeout core cls) := by rintro _ r ⟨⟩
theorem groupFormation core cls : Statement (.groupFormation core cls) := by rintro _ r ⟨⟩
theorem threadSteal core : Statement (.threadSteal core) := by rintro _ r ⟨⟩
theorem payloadArrival group : Statement (.payloadArrival group) := by rintro _ r ⟨⟩
theorem teamPark core cls : Statement (.teamPark core cls) := by rintro _ r ⟨⟩
theorem parkedTeamReturn team : Statement (.parkedTeamReturn team) := by rintro _ r ⟨⟩
theorem boundUnitUpdate cluster : Statement (.boundUnitUpdate cluster) := by rintro _ r ⟨⟩
theorem boundMirrorUpdate core : Statement (.boundMirrorUpdate core) := by rintro _ r ⟨⟩
theorem deadlockWatchdog grid : Statement (.deadlockWatchdog grid) := by rintro _ r ⟨⟩
theorem tokenCycle cluster now : Statement (.tokenCycle cluster now) := by rintro _ r ⟨⟩
theorem thermalPoll d reading : Statement (.thermalPoll d reading) := by rintro _ r ⟨⟩
theorem gateRequest cluster : Statement (.gateRequest cluster) := by rintro _ r ⟨⟩
theorem gtimeResync cluster : Statement (.gtimeResync cluster) := by rintro _ r ⟨⟩
theorem ptpSyncMessage master : Statement (.ptpSyncMessage master) := by rintro _ r ⟨⟩
theorem holdover : Statement (.holdover) := by rintro _ r ⟨⟩
theorem correctedError row : Statement (.correctedError row) := by rintro _ r ⟨⟩
theorem powerGoodAssert stages backup : Statement (.powerGoodAssert stages backup) := by rintro _ r ⟨⟩
theorem powerGoodRemove : Statement (.powerGoodRemove) := by rintro _ r ⟨⟩
theorem sessionOpen target chain : Statement (.sessionOpen target chain) := by rintro _ r ⟨⟩
theorem sessionClose h : Statement (.sessionClose h) := by rintro _ r ⟨⟩
theorem partitionConfigure h cfg : Statement (.partitionConfigure h cfg) := by rintro _ r ⟨⟩
theorem launch h cmd : Statement (.launch h cmd) := by rintro _ r ⟨⟩
theorem signalArrive h grid die addr n : Statement (.signalArrive h grid die addr n) := by rintro _ r ⟨⟩
theorem signalPreempt h grid : Statement (.signalPreempt h grid) := by rintro _ r ⟨⟩
theorem signalDieTarget h grid target : Statement (.signalDieTarget h grid target) := by rintro _ r ⟨⟩
theorem endLaunch h grid : Statement (.endLaunch h grid) := by rintro _ r ⟨⟩
theorem pageMigrateToDevice h page size bytes : Statement (.pageMigrateToDevice h page size bytes) := by rintro _ r ⟨⟩
theorem pageMigrateToHost h page size : Statement (.pageMigrateToHost h page size) := by rintro _ r ⟨⟩
theorem tableUpdate h entries pages : Statement (.tableUpdate h entries pages) := by rintro _ r ⟨⟩
theorem faultAnswerResolve h die page : Statement (.faultAnswerResolve h die page) := by rintro _ r ⟨⟩
theorem faultAnswerReject h die page : Statement (.faultAnswerReject h die page) := by rintro _ r ⟨⟩
theorem readback h items : Statement (.readback h items) := by rintro _ r ⟨⟩
theorem launchTableUpdate h templates entries : Statement (.launchTableUpdate h templates entries) := by rintro _ r ⟨⟩
theorem launchTableSlot part entry : Statement (.launchTableSlot part entry) := by rintro _ r ⟨⟩
theorem debugStop h t : Statement (.debugStop h t) := by rintro _ r ⟨⟩
theorem debugStep h t : Statement (.debugStep h t) := by rintro _ r ⟨⟩
theorem debugResume h t : Statement (.debugResume h t) := by rintro _ r ⟨⟩
theorem debugTrace h t base len mask : Statement (.debugTrace h t base len mask) := by rintro _ r ⟨⟩
theorem debugTimeLoss h t base len n : Statement (.debugTimeLoss h t base len n) := by rintro _ r ⟨⟩
theorem attestationQuote nonce : Statement (.attestationQuote nonce) := by rintro _ r ⟨⟩
theorem peerInboundAccess part peer addr acc : Statement (.peerInboundAccess part peer addr acc) := by rintro _ r ⟨⟩
theorem peerAcknowledge idx data refused : Statement (.peerAcknowledge idx data refused) := by rintro _ r ⟨⟩
theorem peerNoAcknowledgeTimeout idx : Statement (.peerNoAcknowledgeTimeout idx) := by rintro _ r ⟨⟩
theorem powerManagerSetting p : Statement (.powerManagerSetting p) := by rintro _ r ⟨⟩
theorem spareRowCopyComplete row : Statement (.spareRowCopyComplete row) := by rintro _ r ⟨⟩
theorem unreliablePacketReceived port : Statement (.unreliablePacketReceived port) := by rintro _ r ⟨⟩

end Sys2Proof.Laws.Assigned
end

