-- ==== Sys2Proof/Laws/Transfer.lean ====
section
/-! SUPPORT. Transfers of control: what a floor request, a floor push and the growth of deep stacks change, and how the end of a transfer
comes out. -/

namespace Sys2Proof.Machine

/-! ### Floor requests (R147) -/

theorem Slice.setFloor_eq (sl : Slice) (n : Nat) : sl.setFloor n = { sl with floors := n :: sl.floors.tail } := by
  unfold Slice.setFloor
  cases h : sl.floors <;> rfl

/-- One member of a list changed, in a sum over those that a test selects. -/
theorem sum_filter_set {α : Type} (p : α → Bool) (f : α → Nat) {x y : α} (hx : p x = true) (hy : p y = true) :
    ∀ (l : List α) (n : Nat), l[n]? = some x → (((l.set n y).filter p).map f).sum + f x = ((l.filter p).map f).sum + f y
  | [], n, h => by simp at h
  | a :: l, 0, h => by
    obtain rfl : a = x := by simpa using h
    simp only [List.set_cons_zero, List.filter_cons, hx, hy, if_true, List.map_cons, List.sum_cons]
    omega
  | a :: l, n + 1, h => by
    have ih := sum_filter_set p f hx hy l n (by simpa using h)
    simp only [List.set_cons_succ, List.filter_cons]
    split
    · simp only [List.map_cons, List.sum_cons]
      omega
    · exact ih

/-- The group of an issue on its way keeps everything but its slices and its waits. -/
def Issue.OnlySlices (c : Issue) (g1 : Group) : Prop := g1 = { c.g with slices := g1.slices, waits := g1.waits }

/-- What a section of the core has reserved while an issue is on its way: as before it, but for the group's own part. -/
theorem Issue.Working.reservedIn {c : Issue} {s s1 : State} {g1 : Group} (w : c.Working s s1 g1) (hi : issueOf s = some c)
    (hk : c.OnlySlices g1) (j : Nat) (sel : Group → Bool) (h0 : sel c.g = true) (h1 : sel g1 = true) :
    Machine.reservedIn s1 c.g.core j sel + reservationOf s c.g j = Machine.reservedIn s c.g.core j sel + reservationOf s g1 j := by
  have hr : c.g.resident c.g.core = true := by
    have h := issueOf_ready hi
    unfold Group.ready at h
    simp only [Bool.and_eq_true, beq_iff_eq] at h
    simp [Group.resident, h]
  have hr1 : g1.resident c.g.core = true := by rw [hk]; exact hr
  have hs : ∀ g, reservationOf s1 g j = reservationOf s g j := fun g => by
    unfold reservationOf
    rw [show s1.grids = s.grids by rw [w.state]]
  unfold Machine.reservedIn
  rw [show s1.groups = s.groups.set c.gid g1 by rw [w.state]]
  simp only [hs]
  exact sum_filter_set _ _ (by simp [hr, h0]) (by simp [hr1, h1]) _ _ (by simpa [State.group] using (issueOf_some hi).1)

/-- What a raise comes to while the issue is on its way is what it comes to before it, less what the slice has given up (R147). -/
theorem Issue.Working.raise {c : Issue} {s s1 : State} {g1 : Group} (w : c.Working s s1 g1) (hi : issueOf s = some c)
    (hk : c.OnlySlices g1) {j less : Nat}
    (hl : (c.g.slices.get j).floors.sum = less + (g1.slices.get j).floors.sum) (amount : Nat) :
    (raiseCut s1 g1 j amount, raiseFits s1 g1 j amount) = c.raise s j less amount := by
  have hlim : (s1.core c.g.core).vsLimit = (s.core c.g.core).vsLimit := by rw [w.core]
  have hcore : g1.core = c.g.core := by rw [hk]
  have hteam : g1.team = c.g.team := by rw [hk]
  have hun : g1.unreserved = c.g.unreserved := by rw [hk]
  have hgrid : g1.grid = c.g.grid := by rw [hk]
  have hall := w.reservedIn hi hk j (fun _ => true) rfl rfl
  have hown := w.reservedIn hi hk j (fun h => h.team == c.g.team) (by simp) (by simp [hteam])
  have hd : reservationOf s c.g j = (if c.g.unreserved then 0 else less) + reservationOf s g1 j := by
    unfold reservationOf
    simp only [hun, hgrid, hl]
    split <;> omega
  unfold raiseFits raiseCut Issue.raise
  rw [hcore, hteam, hlim]
  simp only [Prod.mk.injEq, decide_eq_decide]
  generalize Machine.reservedIn s1 c.g.core j (fun _ => true) = A1 at *
  generalize Machine.reservedIn s1 c.g.core j (fun h => h.team == c.g.team) = B1 at *
  generalize Machine.reservedIn s c.g.core j (fun _ => true) = A at *
  generalize Machine.reservedIn s c.g.core j (fun h => h.team == c.g.team) = B at *
  generalize (if c.g.unreserved then 0 else less) = d at *
  have hA : A - d = A1 := by omega
  have hB : B - d = B1 := by omega
  rw [hA, hB]
  generalize (s.core c.g.core).vsLimit = L
  have hc : (if L < B1 + amount then L - B1 else amount) = min amount (L - B1) := by split <;> omega
  rw [hc]
  exact ⟨rfl, Iff.rfl⟩

/-- A floor request changes its group alone: the top entry of its slice where it fits, the waits where it does not. -/
theorem Issue.Working.askFloor {c : Issue} {s s1 : State} {g1 : Group} (w : c.Working s s1 g1) (hi : issueOf s = some c)
    (hk : c.OnlySlices g1) {j less : Nat}
    (hl : (c.g.slices.get j).floors.sum = less + (g1.slices.get j).floors.sum) (amount : Nat) :
    c.Working s (askFloor s1 c.gid j amount)
      (if (c.raise s j less amount).2 then g1.modSlice j fun sl => sl.setFloor (c.raise s j less amount).1
       else { g1 with waits := g1.waits ++ [c.raiseWait j (g1.slices.get j).pc amount] }) := by
  have h1 := w.group (issueOf_some hi).1
  have hr := w.raise hi hk hl amount
  unfold Machine.askFloor
  rw [h1, ← hr]
  simp only
  split
  · exact w.modGroup _
  · have hp : g1.priv = c.g.priv := by rw [hk]
    unfold Issue.raiseWait
    rw [← hp]
    exact w.modGroup _

/-- What a run of floor requests leaves of a group: each moved slice's entry is what its raise comes to, or 0 with a wait for it, over
what `rest` leaves of its entries (R147). -/
structure Issue.Floored (c : Issue) (s : State) (g1 g : Group) (moved : List (Nat × Word32)) (amount : Nat × Word32 → Nat)
    (less : List Nat → Nat) (rest : List Nat → List Nat) : Prop where
  eq : g = { g1 with slices := g.slices, waits := g.waits }
  waits : g.waits = g1.waits ++ moved.filterMap fun m =>
    (c.raises s (less (c.g.slices.get m.1).floors) (amount m) m.1).map (c.raiseWait m.1 (g1.slices.get m.1).pc)
  slices : ∀ j, j < 8 → g.slices.get j = { g1.slices.get j with floors := (g.slices.get j).floors } ∧
    (j ∉ (moved.map fun m => m.1) → (g.slices.get j).floors = (g1.slices.get j).floors)
  moved : ∀ m ∈ moved, (g.slices.get m.1).floors =
    (c.raised s (less (c.g.slices.get m.1).floors) (amount m) m.1) :: rest (c.g.slices.get m.1).floors

/-- Each moved slice's entries changed to 0 over `rest`, which gives up `less`, and its request made. -/
theorem Issue.Working.floors {c : Issue} {s s1 : State} {g1 : Group} (w : c.Working s s1 g1) (hi : issueOf s = some c)
    (hk : c.OnlySlices g1) {f : Slice → Slice} {less : List Nat → Nat} {rest : List Nat → List Nat} (amount : Nat × Word32 → Nat)
    (hf : ∀ sl : Slice, f sl = { sl with floors := 0 :: rest sl.floors }) (hl : ∀ l : List Nat, l.sum = less l + (rest l).sum)
    (moved : List (Nat × Word32)) (hn : (moved.map fun m => m.1).Nodup) (hb : ∀ m ∈ moved, m.1 < 8)
    (hs : ∀ m ∈ moved, (g1.slices.get m.1).floors = (c.g.slices.get m.1).floors) :
    ∃ g, c.Working s (moved.foldl (fun s m =>
        Machine.askFloor (s.modGroup c.gid fun g => g.modSlice m.1 f) c.gid m.1 (amount m)) s1) g ∧
      c.Floored s g1 g moved amount less rest := by
  induction moved generalizing s1 g1 with
  | nil =>
    exact ⟨g1, w, rfl, by simp, fun j _ => ⟨rfl, fun _ => rfl⟩, fun m h => by simp at h⟩
  | cons m r ih =>
    have hm8 : m.1 < 8 := hb m (by simp)
    have hsm := hs m (by simp)
    simp only [List.map_cons, List.nodup_cons] at hn
    have hself : (g1.modSlice m.1 f).slices.get m.1 = { g1.slices.get m.1 with floors := 0 :: rest (c.g.slices.get m.1).floors } := by
      rw [Group.get_modSlice_self, hf, hsm]
    have hother : ∀ j, j < 8 → j ≠ m.1 → (g1.modSlice m.1 f).slices.get j = g1.slices.get j := fun j hj hjm =>
      Group.get_modSlice_other _ _ hjm hm8 hj
    have hk1 : c.OnlySlices (g1.modSlice m.1 f) := by
      unfold Issue.OnlySlices Group.modSlice
      conv_lhs => rw [hk]
    have w2 := (w.modGroup fun g => g.modSlice m.1 f).askFloor hi hk1 (j := m.1) (less := less (c.g.slices.get m.1).floors)
      (by rw [hself, hl]; simp) (amount m)
    generalize hg2 : (if (c.raise s m.1 (less (c.g.slices.get m.1).floors) (amount m)).2 = true then _ else _ : Group) = g2 at w2
    have hk2 : c.OnlySlices g2 := by
      rw [← hg2]
      split
      · unfold Issue.OnlySlices Group.modSlice at *
        conv_lhs => rw [hk1]
      · unfold Issue.OnlySlices at *
        conv_lhs => rw [hk1]
    have hget : ∀ j, j < 8 → j ≠ m.1 → g2.slices.get j = g1.slices.get j := by
      intro j hj hjm
      rw [← hg2]
      split
      · rw [Group.get_modSlice_other _ _ hjm hm8 hj, hother j hj hjm]
      · exact hother j hj hjm
    have hgetm : g2.slices.get m.1 = { g1.slices.get m.1 with
        floors := c.raised s (less (c.g.slices.get m.1).floors) (amount m) m.1 :: rest (c.g.slices.get m.1).floors } := by
      rw [← hg2]
      unfold Issue.raised
      split
      · rw [Group.get_modSlice_self, hself, Slice.setFloor_eq]; rfl
      · exact hself
    have hwait : g2.waits = g1.waits ++ ((c.raises s (less (c.g.slices.get m.1).floors) (amount m) m.1).map
        (c.raiseWait m.1 (g1.slices.get m.1).pc)).toList := by
      rw [← hg2]
      unfold Issue.raises
      split
      · simp [Group.modSlice]
      · rw [hself]
        rfl
    have hne : ∀ x ∈ r, x.1 ≠ m.1 := fun x hx h => hn.1 (List.mem_map.mpr ⟨x, hx, h⟩)
    obtain ⟨g, w3, e, hw, hsl, hmv⟩ := ih w2 hk2 hn.2 (fun x hx => hb x (by simp [hx]))
      (fun x hx => by rw [hget _ (hb x (by simp [hx])) (hne x hx)]; exact hs x (by simp [hx]))
    refine ⟨g, w3, ?_, ?_, fun j hj => ?_, fun x hx => ?_⟩
    · rw [hk2] at e
      rw [e]
      conv_rhs => rw [hk]
    · rw [hw, hwait, List.append_assoc]
      congr 1
      rw [List.filterMap_cons]
      have : r.filterMap (fun m => (c.raises s (less (c.g.slices.get m.1).floors) (amount m) m.1).map
            (c.raiseWait m.1 (g2.slices.get m.1).pc)) =
          r.filterMap (fun m => (c.raises s (less (c.g.slices.get m.1).floors) (amount m) m.1).map
            (c.raiseWait m.1 (g1.slices.get m.1).pc)) := by
        refine List.filterMap_congr fun x hx => ?_
        rw [hget _ (hb x (by simp [hx])) (hne x hx)]
      rw [this]
      cases c.raises s (less (c.g.slices.get m.1).floors) (amount m) m.1 <;> rfl
    · obtain ⟨a1, a2⟩ := hsl j hj
      by_cases hjm : j = m.1
      · subst hjm
        refine ⟨?_, fun h => by simp at h⟩
        rw [a1, hgetm]
      · rw [hget j hj hjm] at a1 a2
        refine ⟨a1, fun h => a2 fun h2 => h ?_⟩
        simp only [List.map_cons, List.mem_cons]
        exact Or.inr h2
    · rcases List.mem_cons.mp hx with rfl | hx
      · rw [(hsl _ hm8).2 hn.1, hgetm]
      · exact hmv x hx

/-- Entry by call (R147): each moved slice has one entry more, which records what its raise comes to. -/
theorem Issue.Working.pushFloors {c : Issue} {s s1 : State} {g1 : Group} (w : c.Working s s1 g1) (hi : issueOf s = some c)
    (hk : c.OnlySlices g1) (moved : List (Nat × Word32)) (code : Memory) (size : Nat) (hn : (moved.map fun m => m.1).Nodup)
    (hb : ∀ m ∈ moved, m.1 < 8) (hs : ∀ m ∈ moved, (g1.slices.get m.1).floors = (c.g.slices.get m.1).floors) :
    ∃ g, c.Working s (pushFloors s1 c.gid moved code size) g ∧
      c.Floored s g1 g moved (fun m => extraFloor code size m.2) (fun _ => 0) fun l => l :=
  w.floors hi hk (f := fun sl => { sl with floors := 0 :: sl.floors }) (fun m => extraFloor code size m.2) (fun _ => rfl)
    (fun _ => by simp) moved hn hb hs

/-- Entry by jump table (R147): each moved slice's top entry is replaced. -/
theorem Issue.Working.replaceFloors {c : Issue} {s s1 : State} {g1 : Group} (w : c.Working s s1 g1) (hi : issueOf s = some c)
    (hk : c.OnlySlices g1) (moved : List (Nat × Word32)) (code : Memory) (size : Nat) (hn : (moved.map fun m => m.1).Nodup)
    (hb : ∀ m ∈ moved, m.1 < 8) (hs : ∀ m ∈ moved, (g1.slices.get m.1).floors = (c.g.slices.get m.1).floors) :
    ∃ g, c.Working s (replaceFloors s1 c.gid moved code size) g ∧
      c.Floored s g1 g moved (fun m => extraFloor code size m.2) (fun l => l.headD 0) fun l => l.tail :=
  w.floors hi hk (f := fun sl => sl.setFloor 0) (fun m => extraFloor code size m.2) (fun sl => by rw [Slice.setFloor_eq])
    (fun l => by cases l <;> simp) moved hn hb hs

/-! ### The end of a transfer -/

/-- The end of a transfer whose slices have been set and whose stacks then take their room. -/
theorem Issue.transfers_of {c : Issue} {s s1 : State} {g1 : Group} {i : Instr} {use : Nat → Slice} {ds : List Nat} {base : Nat → Slice}
    {raises : Nat → Option Nat} {extra : Nat → Slice → Prop} (hi : issueOf s = some c) (w : c.Working s s1 g1)
    (hx : exec i s = .next (growChunks (c.done s1 priceLane) c.gid))
    (hk : g1 = { c.g with slices := g1.slices, waits := c.g.waits ++ (c.sls.filterMap fun j =>
      (raises j).map (c.raiseWait j (base j).pc)) })
    (ho : ∀ j, j < 8 → j ∉ c.sls → g1.slices.get j = c.g.slices.get j)
    (hs : ∀ j ∈ c.sls, (g1.slices.get j).path = (base j).path ∧ (g1.slices.get j).mark = (base j).mark ∧
      (g1.slices.get j).exited = (base j).exited ∧ (∀ n, n ∉ ds → (g1.slices.get j).cell n = (use j).cell n) ∧
      (g1.slices.get j).preds = (c.g.slices.get j).preds ∧ (g1.slices.get j).fflags = (c.g.slices.get j).fflags)
    (he : ∀ j ∈ c.sls, ∀ x : Slice, x.names = (g1.slices.get j).names → x.floors = (g1.slices.get j).floors → extra j x) :
    c.Transfers s i use ds base raises extra := by
  generalize hws : (c.sls.filterMap fun j => (raises j).map (c.raiseWait j (base j).pc)) = ws at hk
  have hn := issueOf_nodup hi
  have hb := issueOf_lt hi
  have hg := (issueOf_some hi).1
  have hE := Issue.done_ends_of hn hb w priceLane ho (by rw [hk])
  have hK : (c.doneGroup s1.tick g1 priceLane) = { c.g with
      slices := (c.doneGroup s1.tick g1 priceLane).slices, waits := c.g.waits ++ ws,
      retired := (c.doneGroup s1.tick g1 priceLane).retired, issued := true,
      held := (c.doneGroup s1.tick g1 priceLane).held,
      wants := (c.doneGroup s1.tick g1 priceLane).wants,
      laneStamp := (c.doneGroup s1.tick g1 priceLane).laneStamp,
      uniStamp := (c.doneGroup s1.tick g1 priceLane).uniStamp } := by
    conv_lhs => rw [Issue.doneGroup_eq]
    have : ∀ (x : Group), g1 = x → { g1 with
      slices := (c.doneGroup s1.tick g1 priceLane).slices,
      retired := (c.doneGroup s1.tick g1 priceLane).retired, issued := true,
      held := (c.doneGroup s1.tick g1 priceLane).held,
      wants := (c.doneGroup s1.tick g1 priceLane).wants,
      laneStamp := (c.doneGroup s1.tick g1 priceLane).laneStamp,
      uniStamp := (c.doneGroup s1.tick g1 priceLane).uniStamp } = { x with
      slices := (c.doneGroup s1.tick g1 priceLane).slices,
      retired := (c.doneGroup s1.tick g1 priceLane).retired, issued := true,
      held := (c.doneGroup s1.tick g1 priceLane).held,
      wants := (c.doneGroup s1.tick g1 priceLane).wants,
      laneStamp := (c.doneGroup s1.tick g1 priceLane).laneStamp,
      uniStamp := (c.doneGroup s1.tick g1 priceLane).uniStamp } := fun x h => by rw [← h]
    rw [this _ hk]
  have hget := fun (j : Nat) (hj : j ∈ c.sls) => (c.doneGroup_get s1.tick g1 priceLane hn hb (hb j hj)).2 hj
  generalize hG : c.doneGroup s1.tick g1 priceLane = G at hE hK hget
  have hlt := Issue.gid_lt hg
  refine ⟨growChunks (c.done s1 priceLane) c.gid, { G with chunks := max G.chunks (chunksFor G.spilledEntries) }, hx, ?_⟩
  have hch : G.chunks = c.g.chunks := by rw [hK]
  intro c'
  refine ⟨⟨⟨?_, hE.cores, hE.units, hE.paid, hE.unsampled, hE.retired⟩, hE.others, fun j hj => ?_⟩, ?_, fun j hj => ?_⟩
  · unfold growChunks State.modGroup
    conv_lhs => rw [hE.state]
    simp only [List.set_modify]
    rfl
  · have h1 := hE.stands j hj
    obtain ⟨p1, p2, p3, -⟩ := hs j hj
    exact ⟨h1.1.trans (Slice.settle_path p1 p2), h1.2.trans p3⟩
  · show ({ G with chunks := max G.chunks (chunksFor G.spilledEntries) } : Group) = _
    rw [hch]
    conv_lhs => rw [hK]
    subst hws
    rfl
  · obtain ⟨k, hk'⟩ := hget j hj
    obtain ⟨-, -, -, q1, q2, q3⟩ := hs j hj
    have hnames : (G.slices.get j).names = (g1.slices.get j).names := by
      rw [hk']; exact Slice.settle_names _
    refine ⟨fun n h1 => ?_, ?_, ?_, ?_⟩
    · rw [← q1 n h1]
      unfold Slice.cell
      rw [show ({ G with chunks := max G.chunks (chunksFor G.spilledEntries) } : Group).slices = G.slices from rfl, hnames]
    · show (G.slices.get j).preds = _
      rw [hk', ← q2]; exact Slice.settle_preds _
    · show (G.slices.get j).fflags = _
      rw [hk', ← q3]; exact Slice.settle_fflags _
    · refine he j hj (G.slices.get j) hnames ?_
      rw [hk']; exact Slice.settle_floors _

end Sys2Proof.Machine
end

