-- ==== Sys2Proof/Tests/Slice0.lean ====
section
/-! SUPPORT. The model's own tests: terms that are not well formed, words written out from the encodings, results worked out from the
rules, and for every statement with hypotheses a concrete state and operands that meet them. -/

open Sys2Proof Sys2Proof.Machine

/-! ### Ill-formed instructions are refused (R87, check 5) -/

theorem smoke_integer_types : ∀ i ∈ ([.add .always ⟨8, 1⟩ ⟨1, false⟩ (.name ⟨2, false⟩) .f32 false, .add .always ⟨9, 1⟩ ⟨4, false⟩ (.imm 0) .s64 false,
    .sub .always ⟨8, 1⟩ ⟨5, false⟩ (.imm 0) .s64 true, .mul .always ⟨8, 1⟩ ⟨4, false⟩ (.name ⟨5, false⟩) .n64,
    .mad .always ⟨8, 1⟩ ⟨4, false⟩ (.imm 0) ⟨7, false⟩ .s64, .neg .always ⟨8, 1⟩ ⟨1, false⟩ .n32, .shl .always ⟨8, 1⟩ ⟨1, false⟩ (.imm 0) .s32,
    .and .always ⟨8, 1⟩ ⟨1, false⟩ (.imm 0) .n32, .not .always ⟨8, 1⟩ ⟨1, false⟩ .s32, .bfe .always ⟨8, 1⟩ ⟨1, false⟩ (.imm 0) .b32,
    .bfi .always ⟨8, 1⟩ ⟨1, false⟩ (.imm 0) ⟨2, false⟩ .n32, .pop .always ⟨8, 1⟩ ⟨1, false⟩ .b64, .lea .always ⟨8, 1⟩ ⟨1, false⟩ (.imm 0) .s32 0,
    .mov .always ⟨8, 1⟩ (.imm 0) .b32, .movi .always ⟨8, 1⟩ .f16 0, .sel .always ⟨8, 1⟩ ⟨1, false⟩ (.imm 0) ⟨2, false⟩ .s32,
    .cmp .always 1 ⟨1, false⟩ (.imm 0) .b32 .lt] : List Instr), wellFormed i = false := by decide

theorem smoke_float_types : ∀ i ∈ ([.fadd .always ⟨8, 1⟩ ⟨1, false⟩ (.imm 0) .f32, .fma .always ⟨8, 1⟩ ⟨1, false⟩ (.ureg 1) ⟨2, false⟩ .s32,
    .fabs .always ⟨8, 1⟩ ⟨1, false⟩ .e4m3, .hadd2 .always ⟨8, 1⟩ ⟨1, false⟩ (.ureg 1) .f32, .frcp .always ⟨8, 1⟩ ⟨1, false⟩ .n32,
    .cvt .always ⟨8, 1⟩ ⟨1, false⟩ .f32 .f32 false, .cvt .always ⟨8, 1⟩ ⟨1, false⟩ .f32 .f16 true, .cvt .always ⟨8, 1⟩ ⟨1, false⟩ .b32 .f32 false,
    .pack .always ⟨8, 1⟩ ⟨1, false⟩ ⟨2, false⟩ ⟨3, false⟩ .f16 .f32 0, .pack .always ⟨8, 1⟩ ⟨1, false⟩ ⟨2, false⟩ ⟨3, false⟩ .s8 .s32 2,
    .unpack .always ⟨8, 1⟩ ⟨1, false⟩ .f16 2, .mxq .always ⟨8, 1⟩ ⟨1, false⟩ .f16 .f32, .mxdq .always ⟨8, 1⟩ ⟨1, false⟩ .s8,
    .sp24 .always ⟨8, 1⟩ ⟨1, false⟩ .f16] : List Instr), wellFormed i = false := by decide

theorem smoke_groups : ∀ i ∈ ([.voteBal .always ⟨9, 1⟩ 3 0, .shflIdx .always ⟨8, 1⟩ ⟨1, false⟩ (.imm 0) .s32 0,
    .red .always ⟨8, 1⟩ ⟨1, false⟩ .xor .s32 0, .scan .always ⟨8, 1⟩ ⟨1, false⟩ .add true .b32 0, .topk .always ⟨9, 1⟩ ⟨1, false⟩ ⟨2, false⟩ 0 .f32 0,
    .matchLanes .always ⟨8, 1⟩ ⟨5, false⟩ .b64 0, .br .always true 1 0, .br .always false 1 2, .call .always true ⟨8, 1⟩ 6, .drop .always ⟨1, false⟩ 0,
    .weave .always ⟨8, 1⟩ ⟨1, false⟩ ⟨0, false⟩ ⟨0, false⟩ 0 0, .weave .always ⟨8, 1⟩ ⟨1, false⟩ ⟨2, false⟩ ⟨0, false⟩ 1 0,
    .bcastMin .always ⟨9, false⟩ true 0, .gbr 1 .always 0, .gbr 1 .z 2, .sread 5 0x1C, .sreadU2 5 0x3F, .sreadLane ⟨9, 1⟩ 0x10,
    .swrite 5 0x10, .swrite 5 0x4B] : List Instr), wellFormed i = false := by decide

theorem smoke_accesses : ∀ i ∈ ([.ld .always ⟨8, 1⟩ ⟨0, .gl, 0, none, 0⟩ 0 .b32, .ld .always ⟨8, 1⟩ ⟨0, .core, 1, none, 0⟩ 0 .b32,
    .ld .always ⟨8, 1⟩ ⟨0, .core, 0, none, 0⟩ 3 .b32, .ld .always ⟨8, 1⟩ ⟨0, .core, 0, none, 0⟩ 1 .s16, .ld .always ⟨8, 1⟩ ⟨0, .core, 0, none, 0⟩ 0 .e4m3,
    .ld .always ⟨510, 1⟩ ⟨0, .core, 0, none, 0⟩ 2 .b32, .st .always ⟨0, .core, 0, none, 0⟩ ⟨9, false⟩ 0 .b64,
    .atom .always ⟨8, 1⟩ ⟨0, .core, 0, none, 0⟩ ⟨1, false⟩ ⟨2, false⟩ .add .relaxed .s32, .atom .always ⟨8, 1⟩ ⟨0, .core, 0, none, 0⟩ ⟨1, false⟩ ⟨0, false⟩ .binc .relaxed .s32,
    .tmove .always ⟨0, .win, 1, none, 0⟩, .gatom .always ⟨0, .core, 0, none, 0⟩ (some (⟨9, 1⟩, true)),
    .wopen .always ⟨0, .core, 0, some ⟨1, false⟩, 0⟩ 1 false false, .bobj .always ⟨0, .core, 0, none, 0⟩ ⟨9, false⟩ true false,
    .arrive .always ⟨0, .gl, 0, none, 0⟩ true 0, .mdrainMemory .always ⟨0, .core, 0, some ⟨1, false⟩, 0⟩,
    .spawn .always 1 ⟨0, false⟩ 0 0 5 0 false false 0, .spawn .always 1 ⟨1, false⟩ 0 0 0 0 false false 0,
    .spawn .always 1 ⟨510, false⟩ 0 0 4 0 false false 0, .spawn .always 1 ⟨0, false⟩ 0 0 0 0 false false 4,
    .spawn .always 1 ⟨0, false⟩ 0 5 0 0 false true 0, .jinit .always ⟨0, .core, 0, none, 0⟩ true, .edgepass .always ⟨0, .die, 0, none, 0⟩,
    .gld 5 0 true 0 3 0 0, .gld 5 0 false 0 2 1 0, .gst 5 0 2 2 1 0] : List Instr), wellFormed i = false := by decide

/-- A half of a pair. -/
def tHalf (op : BitVec 7) (dst a b c : BitVec 9) : Half := ⟨op, 0, dst, 1, a, b, c⟩

theorem smoke_pairs : ∀ x ∈ [(tHalf 0x00 8 1 2 0, tHalf 0x40 9 3 4 0)], wellFormed (.lanePair x.1 x.2) = true := by decide

theorem smoke_bad_pairs : ∀ x ∈ [(tHalf 0x7F 8 1 2 0, tHalf 0x40 9 3 4 0), (tHalf 0x00 8 1 2 0, tHalf 0x00 9 3 4 0),
      (tHalf 0x00 8 1 2 0, tHalf 0x40 12 3 4 0), (tHalf 0x00 8 1 5 0, tHalf 0x40 9 13 4 0), (tHalf 0x03 8 1 2 3, tHalf 0x51 9 4 6 7),
      (tHalf 0x00 8 1 2 0, tHalf 0x40 9 1 2 0), (tHalf 0x00 8 1 2 5, tHalf 0x40 9 3 4 0)],
    wellFormed (.lanePair x.1 x.2) = false := by decide

/-! ### Words and their instructions (chapter 04) -/

theorem test_decode_add_sat_pred : decodeTableWord 96 0x10000000D038001800380A8 =
    some (.add ⟨3, true⟩ ⟨5, 2⟩ ⟨6, true⟩ (.name ⟨7, false⟩) .s32 true) := by decide
theorem test_decode_mad_s64 : decodeTableWord 96 0xC04014580400084 =
    some (.mad .always ⟨4, 1⟩ ⟨6, false⟩ (.name ⟨8, false⟩) ⟨10, false⟩ .s64) := by decide
theorem test_decode_lea_uniform : decodeTableWord 96 0x830000090800000681B00044 =
    some (.lea .always ⟨2, 1⟩ ⟨4, false⟩ (.ureg 9) .n64 3) := by decide
theorem test_decode_cmp_ge : decodeTableWord 96 0x50000000201000281F000E0 =
    some (.cmp .always 7 ⟨1, false⟩ (.name ⟨2, false⟩) .n32 .ge) := by decide
theorem test_decode_fma : decodeTableWord 96 0x201006384300124 =
    some (.fma .always ⟨9, 1⟩ ⟨1, false⟩ (.name ⟨2, false⟩) ⟨3, false⟩ .f32) := by decide
theorem test_decode_frsq : decodeTableWord 96 0x8000003881000A4 =
    some (.frsq .always ⟨5, 1⟩ ⟨4, false⟩ .f32) := by decide
theorem test_decode_vote_bal : decodeTableWord 96 0x140000000600000490200104 =
    some (.voteBal .always ⟨8, 1⟩ 3 5) := by decide
theorem test_decode_ret : decodeTableWord 96 0x3C00000094304000 =
    some (.ret true ⟨30, false⟩) := by decide
theorem test_decode_regang : decodeTableWord 96 0x2A0000000094500000 =
    some (.regang 0x2A) := by decide
theorem test_decode_st_die : decodeTableWord 96 0xD042FF80806000398110000 =
    some (.st ⟨1, false⟩ ⟨3, .die, 0, some ⟨4, false⟩, -8⟩ ⟨12, false⟩ 2 .f32) := by decide
theorem test_decode_tmove : decodeTableWord 96 0xC000040000000009C000000 =
    some (.tmove .always ⟨3, .core, 0, none, 64⟩) := by decide
theorem test_decode_arrive_one : decodeTableWord 96 0xC010040000000009C800000 =
    some (.arrive .always ⟨3, .core, 0, none, 64⟩ true 0) := by decide
theorem test_decode_bar : decodeTableWord 96 0x9CB00000 =
    some (.bar) := by decide
theorem test_decode_mzero_rel : decodeTableWord 96 0x8000000000000000A0000000 =
    some (.mzeroRel .always) := by decide
theorem test_decode_edgewait : decodeTableWord 96 0x1480010000000000A4500000 =
    some (.edgewait .always ⟨5, .clu, 0, none, 0x100⟩) := by decide
theorem test_decode_bcast_min : decodeTableWord 96 0x310000005A4800000 =
    some (.bcastMin .always ⟨8, false⟩ true 3) := by decide
theorem test_decode_rte : decodeTableWord 96 0xA8100000 =
    some (.rte) := by decide
theorem test_decode_gadd_example : decodeTableWord 32 0xC50FFC =
    some (.gaddImm 5 3 (-4)) := by decide
theorem test_decode_gadd_wide_example : decodeTableWord 64 0x1000040C61800 =
    some (.gaddU2 6 6 (.imm 0x10000)) := by decide
theorem test_decode_setprio_example : decodeTableWord 32 0xA401C01 =
    some (.setprio 7 1) := by decide
theorem test_decode_sread_example : decodeTableWord 32 0xA850010 =
    some (.sread 5 16) := by decide
theorem test_decode_capq_example : decodeTableWord 32 0xB040009 =
    some (.capq 4 9) := by decide
theorem test_decode_gld_example : decodeTableWord 64 0x4904040A =
    some (.gld 4 1 false 2 2 0 0) := by decide
theorem test_decode_br_example : decodeTableWord 96 0x400000018094010000 =
    some (.br ⟨1, false⟩ false 0x18 0x40) := by decide
theorem test_decode_ld_example : decodeTableWord 96 0xC0400100800000398000288 =
    some (.ld .always ⟨20, 2⟩ ⟨3, .core, 0, some ⟨4, false⟩, 0x10⟩ 0 .f32) := by decide
theorem test_decode_mxq_example : decodeTableWord 96 0x230000001000000F8C300284 =
    some (.mxq .always ⟨20, 1⟩ ⟨8, false⟩ .m4 .f32) := by decide
theorem test_decode_spawn_example : decodeTableWord 96 0x1518004028000800A4030080 =
    some (.spawn ⟨3, false⟩ 4 ⟨20, false⟩ 0x00080 5 2 1 true false 0x0040) := by decide
theorem test_decode_jwait_example : decodeTableWord 96 0x1480104000000000A4200000 =
    some (.jwait .always ⟨5, .clu, 0, none, 0x40⟩ true none) := by decide
theorem test_decode_trap_example : decodeTableWord 96 0x700000000A8000000 =
    some (.trap .always 7) := by decide
theorem test_decode_pbar_example : decodeTableWord 96 0x9CC00000 =
    some (.pbar) := by decide
/-- Words with the instructions they stand for: the fields of the encoding tables placed at their bits, each parcel of 32 bits in turn
(R68, R70, R80). -/
def tReads (xs : List (Nat × Nat × Instr)) : Bool := xs.all fun x => decodeTableWord x.1 x.2.1 == some x.2.2

theorem test_decode_integer_1 : tReads [
    (96, 0x400000070200000280120104, .sub ⟨2, false⟩ ⟨8, 1⟩ ⟨1, false⟩ (.imm 7) .n32 false),
    (96, 0x201400280200104, .mul .always ⟨8, 1⟩ ⟨1, false⟩ (.name ⟨2, true⟩) .n32),
    (96, 0x800000090200000180300104, .mulhi .always ⟨8, 1⟩ ⟨1, false⟩ (.ureg 9) .s32),
    (96, 0x201406280500104, .madhi .always ⟨8, 1⟩ ⟨1, false⟩ (.name ⟨2, true⟩) ⟨3, false⟩ .n32),
    (96, 0x201400180600104, .div .always ⟨8, 1⟩ ⟨1, false⟩ (.name ⟨2, true⟩) .s32),
    (96, 0x201400280700104, .rem .always ⟨8, 1⟩ ⟨1, false⟩ (.name ⟨2, true⟩) .n32),
    (96, 0x200000180800104, .neg .always ⟨8, 1⟩ ⟨1, false⟩ .s32),
    (96, 0x800000580900104, .abs .always ⟨8, 1⟩ ⟨4, false⟩ .s64),
    (96, 0x201400180A00104, .min .always ⟨8, 1⟩ ⟨1, false⟩ (.name ⟨2, true⟩) .s32),
    (96, 0x201400280B00104, .max .always ⟨8, 1⟩ ⟨1, false⟩ (.name ⟨2, true⟩) .n32),
    (96, 0x400000070200000080C00104, .shl .always ⟨8, 1⟩ ⟨1, false⟩ (.imm 7) .b32),
    (96, 0x801400480D00104, .shr .always ⟨8, 1⟩ ⟨4, false⟩ (.name ⟨2, true⟩) .b64)] = true := by decide
theorem test_decode_integer_2 : tReads [
    (96, 0x201400080E00104, .sar .always ⟨8, 1⟩ ⟨1, false⟩ (.name ⟨2, true⟩) .b32),
    (96, 0x800000090200000080F00104, .rot .always ⟨8, 1⟩ ⟨1, false⟩ (.ureg 9) .b32)] = true := by decide
theorem test_decode_bits_1 : tReads [
    (96, 0x201400081000104, .and .always ⟨8, 1⟩ ⟨1, false⟩ (.name ⟨2, true⟩) .b32),
    (96, 0x201400081100104, .or .always ⟨8, 1⟩ ⟨1, false⟩ (.name ⟨2, true⟩) .b32),
    (96, 0x201400081200104, .xor .always ⟨8, 1⟩ ⟨1, false⟩ (.name ⟨2, true⟩) .b32),
    (96, 0x201400081300104, .andn .always ⟨8, 1⟩ ⟨1, false⟩ (.name ⟨2, true⟩) .b32),
    (96, 0x200000081400104, .not .always ⟨8, 1⟩ ⟨1, false⟩ .b32),
    (96, 0x201400181500104, .bfe .always ⟨8, 1⟩ ⟨1, false⟩ (.name ⟨2, true⟩) .s32),
    (96, 0x201406081600104, .bfi .always ⟨8, 1⟩ ⟨1, false⟩ (.name ⟨2, true⟩) ⟨3, false⟩ .b32),
    (96, 0x200000081700104, .pop .always ⟨8, 1⟩ ⟨1, false⟩ .b32),
    (96, 0x200000081800104, .clz .always ⟨8, 1⟩ ⟨1, false⟩ .b32),
    (96, 0x200000081900104, .ctz .always ⟨8, 1⟩ ⟨1, false⟩ .b32),
    (96, 0x200000081A00104, .brev .always ⟨8, 1⟩ ⟨1, false⟩ .b32),
    (96, 0x800000090000000481C00104, .mov .always ⟨8, 1⟩ (.ureg 9) .b64)] = true := by decide
theorem test_decode_bits_2 : tReads [
    (96, 0x3F8000000000000381D00104, .movi .always ⟨8, 1⟩ .f32 0x3F800000),
    (96, 0x201406081E00104, .sel .always ⟨8, 1⟩ ⟨1, false⟩ (.name ⟨2, true⟩) ⟨3, false⟩ .b32)] = true := by decide
theorem test_decode_float_1 : tReads [
    (96, 0x201400384000104, .fadd .always ⟨8, 1⟩ ⟨1, false⟩ (.name ⟨2, true⟩) .f32),
    (96, 0x201400384100104, .fsub .always ⟨8, 1⟩ ⟨1, false⟩ (.name ⟨2, true⟩) .f32),
    (96, 0x201400384200104, .fmul .always ⟨8, 1⟩ ⟨1, false⟩ (.name ⟨2, true⟩) .f32),
    (96, 0x201400384400104, .fmin .always ⟨8, 1⟩ ⟨1, false⟩ (.name ⟨2, true⟩) .f32),
    (96, 0x201400384500104, .fmax .always ⟨8, 1⟩ ⟨1, false⟩ (.name ⟨2, true⟩) .f32),
    (96, 0x200000784600104, .fabs .always ⟨8, 1⟩ ⟨1, false⟩ .f16),
    (96, 0x200000884700104, .fneg .always ⟨8, 1⟩ ⟨1, false⟩ .bf16),
    (96, 0x8600000902000003848000A0, .fcmp .always 5 ⟨1, false⟩ (.ureg 9) .f32 .un),
    (96, 0x200000384900104, .fclass .always ⟨8, 1⟩ ⟨1, false⟩ .f32),
    (96, 0x201400784A00104, .hadd2 .always ⟨8, 1⟩ ⟨1, false⟩ (.name ⟨2, true⟩) .f16),
    (96, 0x201400884B00104, .hmul2 .always ⟨8, 1⟩ ⟨1, false⟩ (.name ⟨2, true⟩) .bf16),
    (96, 0x201406784C00104, .hfma2 .always ⟨8, 1⟩ ⟨1, false⟩ (.name ⟨2, true⟩) ⟨3, false⟩ .f16)] = true := by decide
theorem test_decode_float_2 : tReads [
    (96, 0x200000388000104, .frcp .always ⟨8, 1⟩ ⟨1, false⟩ .f32),
    (96, 0x200000388200104, .fsqrt .always ⟨8, 1⟩ ⟨1, false⟩ .f32),
    (96, 0x200000388300104, .fexp2 .always ⟨8, 1⟩ ⟨1, false⟩ .f32),
    (96, 0x200000388400104, .flog2 .always ⟨8, 1⟩ ⟨1, false⟩ .f32),
    (96, 0x200000388500104, .fsinpi .always ⟨8, 1⟩ ⟨1, false⟩ .f32),
    (96, 0x200000388600104, .fcospi .always ⟨8, 1⟩ ⟨1, false⟩ .f32),
    (96, 0x200000388700104, .ftanh .always ⟨8, 1⟩ ⟨1, false⟩ .f32)] = true := by decide
theorem test_decode_conversion : tReads [
    (96, 0x230000000200000F8C000104, .cvt .always ⟨8, 1⟩ ⟨1, false⟩ .m4 .f32 false),
    (96, 0x3080000020000038C000104, .cvt .always ⟨8, 1⟩ ⟨1, false⟩ .f32 .f32 true),
    (96, 0x34000000201006D8C100104, .pack .always ⟨8, 1⟩ ⟨1, false⟩ ⟨2, false⟩ ⟨3, false⟩ .e4m3 .f32 1),
    (96, 0x30E000000200000F8C200104, .unpack .always ⟨8, 1⟩ ⟨1, false⟩ .i4 7),
    (96, 0x100000000200000F8C400104, .mxdq .always ⟨8, 1⟩ ⟨1, false⟩ .m6b),
    (96, 0x200000B8C500104, .sp24 .always ⟨8, 1⟩ ⟨1, false⟩ .s8)] = true := by decide
theorem test_decode_cross : tReads [
    (96, 0x1400000006000000900000E0, .voteAny .always 7 3 5),
    (96, 0x6000000901000E0, .voteAll .always 7 3 0),
    (96, 0x150000010200000090300104, .shflIdx .always ⟨8, 1⟩ ⟨1, false⟩ (.imm 1) .b32 5),
    (96, 0x150000010200000090400104, .shflUp .always ⟨8, 1⟩ ⟨1, false⟩ (.imm 1) .b32 5),
    (96, 0x150000010200000090500104, .shflDn .always ⟨8, 1⟩ ⟨1, false⟩ (.imm 1) .b32 5),
    (96, 0x150000010200000090600104, .shflXor .always ⟨8, 1⟩ ⟨1, false⟩ (.imm 1) .b32 5),
    (96, 0x142000000200000390700104, .red .always ⟨8, 1⟩ ⟨1, false⟩ .max .f32 5),
    (96, 0x800000200000190800104, .scan .always ⟨8, 1⟩ ⟨1, false⟩ .add true .s32 0),
    (96, 0x30201000390900104, .topk .always ⟨8, 1⟩ ⟨1, false⟩ ⟨2, false⟩ 3 .f32 0),
    (96, 0x200000090A00104, .matchLanes .always ⟨8, 1⟩ ⟨1, false⟩ .b32 0)] = true := by decide
theorem test_decode_control : tReads [
    (96, 0xFFFFFFF40000000094104104, .call .always true ⟨8, 1⟩ (-12)),
    (96, 0x200000094200104, .calli .always false ⟨8, 1⟩ ⟨1, false⟩),
    (96, 0x180200000094417FFC, .jmpi ⟨1, false⟩ true 4095 ⟨1, false⟩ 0 24),
    (96, 0x18020000909440000C, .jmpi .always false 3 ⟨1, false⟩ 9 24),
    (96, 0x94638000, .exit ⟨3, true⟩),
    (96, 0x94730000, .nop ⟨3, false⟩),
    (96, 0x70300000094800000, .drop .always ⟨1, true⟩ 7),
    (96, 0xFE00000094900003, .free .always 511),
    (96, 0x1400000000094A00000, .patld 5),
    (96, 0x1700201006094B00104, .weave .always ⟨8, 1⟩ ⟨1, false⟩ ⟨2, false⟩ ⟨3, false⟩ 3 5)] = true := by decide
theorem test_decode_memory_1 : tReads [
    (96, 0xC81F0400001006098200104, .atom .always ⟨8, 1⟩ ⟨3, .clu, 0, none, 64⟩ ⟨2, false⟩ ⟨3, false⟩ .cas .ar .b32),
    (96, 0x40000000098300000, .fence .sys),
    (96, 0xC000040000000009C100000, .tgath .always ⟨3, .core, 0, none, 64⟩),
    (96, 0xC040040080000009C200000, .tscat .always ⟨3, .core, 0, some ⟨4, false⟩, 64⟩),
    (96, 0xC001040000000049C300104, .gatom .always ⟨3, .core, 0, none, 64⟩ (some (⟨8, 1⟩, true))),
    (96, 0xC000040000000009C300000, .gatom .always ⟨3, .core, 0, none, 64⟩ none),
    (96, 0xC00B040000000009C400000, .wopen .always ⟨3, .core, 0, none, 64⟩ 2 true true),
    (96, 0xC008040000000009C500000, .wflush .always ⟨3, .core, 0, none, 64⟩ 2),
    (96, 0xC03C040000000009C600000, .wclose .always ⟨3, .core, 0, none, 64⟩ 15),
    (96, 0xC001040000100069C700000, .bobj .always ⟨3, .core, 0, none, 64⟩ ⟨2, false⟩ true true),
    (96, 0xC00F040000000009C800000, .arrive .always ⟨3, .core, 0, none, 64⟩ false 15),
    (96, 0xC000040000000029C900104, .wait .always ⟨3, .core, 0, none, 64⟩ (some ⟨8, 1⟩))] = true := by decide
theorem test_decode_memory_2 : tReads [
    (96, 0xC000040000000509CA00000, .yieldon .always ⟨3, .core, 0, none, 64⟩ 5),
    (96, 0xC00004000000000A8700000, .extwait .always ⟨3, .core, 0, none, 64⟩ none)] = true := by decide
theorem test_decode_units : tReads [
    (96, 0xFFF000000000A0000000, .mzero .always (.imm 0xFFF0)),
    (96, 0x2000000900000000A0000000, .mzero .always (.ureg 9)),
    (96, 0xC00010020010000A0104000, .mpair .always true ⟨16, false⟩ ⟨2, false⟩ 3 0x100),
    (96, 0xC00104000000000A0200104, .mdrainNames .always ⟨8, 1⟩ ⟨3, .core, 0, none, 64⟩),
    (96, 0xC00004000000000A0200000, .mdrainMemory .always ⟨3, .core, 0, none, 64⟩),
    (96, 0xC00004000000000A0300000, .mstadd .always ⟨3, .core, 0, none, 64⟩),
    (96, 0x1480104000000000A4100000, .jinit .always ⟨5, .clu, 0, none, 64⟩ true),
    (96, 0x1480004000000000A4300000, .edgeseed .always ⟨5, .clu, 0, none, 64⟩),
    (96, 0x1480004000000000A4400000, .edgechk .always ⟨5, .clu, 0, none, 64⟩),
    (96, 0x1480004000000000A4600000, .edgeflip .always ⟨5, .clu, 0, none, 64⟩),
    (96, 0x1480004000000000A4700000, .edgepass .always ⟨5, .clu, 0, none, 64⟩),
    (96, 0x708000006A4900000, .bcastMax .always ⟨4, false⟩ false 7)] = true := by decide
theorem test_decode_system : tReads [
    (96, 0x100000000A8200000, .vsdump true),
    (96, 0xA8300000, .vsload false),
    (96, 0xA8400000, .stepmark),
    (96, 0xA8100000, .rte),
    (96, 0xA8500000, .halt),
    (96, 0x8100000000A8610000, .sleep ⟨1, false⟩ 0x81)] = true := by decide
theorem test_decode_uniform_1 : tReads [
    (32, 0x850C07, .gaddReg 5 3 7),
    (32, 0xC50FFC, .gaddImm 5 3 (-4)),
    (64, 0x40850C70, .gaddU2 5 3 (.reg 7)),
    (32, 0x1050C07, .gsubReg 5 3 7),
    (32, 0x1450FFC, .gsubImm 5 3 (-4)),
    (64, 0x41050C70, .gsubU2 5 3 (.reg 7)),
    (32, 0x1850C07, .gmulReg 5 3 7),
    (32, 0x1C50FFC, .gmulImm 5 3 (-4)),
    (64, 0x41850C70, .gmulU2 5 3 (.reg 7)),
    (32, 0x2050C07, .gshlReg 5 3 7),
    (32, 0x2450FFC, .gshlImm 5 3 (-4)),
    (64, 0x42050C70, .gshlU2 5 3 (.reg 7))] = true := by decide
theorem test_decode_uniform_2 : tReads [
    (32, 0x2850C07, .gshrReg 5 3 7),
    (32, 0x2C50FFC, .gshrImm 5 3 (-4)),
    (64, 0x42850C70, .gshrU2 5 3 (.reg 7)),
    (32, 0x3050C07, .gandReg 5 3 7),
    (32, 0x3450FFC, .gandImm 5 3 (-4)),
    (64, 0x43050C70, .gandU2 5 3 (.reg 7)),
    (32, 0x3850C07, .gorReg 5 3 7),
    (32, 0x3C50FFC, .gorImm 5 3 (-4)),
    (64, 0x43850C70, .gorU2 5 3 (.reg 7)),
    (32, 0x4050C07, .gxorReg 5 3 7),
    (32, 0x4450FFC, .gxorImm 5 3 (-4)),
    (64, 0x44050C70, .gxorU2 5 3 (.reg 7))] = true := by decide
theorem test_decode_uniform_3 : tReads [
    (64, 0xFFFFFFFF45450C09, .gcmp 5 3 (.imm (-1)) .gen),
    (32, 0x4850C00, .gmov 5 3),
    (32, 0x4C50200, .gli 5 (-512)),
    (64, 0x1234567844C50000, .gliU2 5 0x12345678),
    (64, 0x1234567844C50001, .gliHi 5 0x12345678),
    (64, 0xFFFFFFF048000C01, .gbr 3 .nz (-16)),
    (64, 0x200000084940106F, .gst 4 6 3 3 2 8),
    (32, 0xA000C00, .setfmt 3),
    (64, 0x214A000000, .setfmtImm 0x21),
    (64, 0xFF4A000C01, .setfmtM 3 0xFF),
    (64, 0x2584A400C00, .setprioW 3 600),
    (64, 0x104A850000, .sreadU2 5 0x10)] = true := by decide
theorem test_decode_uniform_4 : tReads [
    (64, 0x102084A800001, .sreadLane ⟨8, 1⟩ 0x10),
    (32, 0xAC00C0B, .swrite 3 0x0B),
    (64, 0x4B050C01, .capqReg 5 3),
    (64, 0x94B050000, .capqW 5 9)] = true := by decide

/-! ### Small states -/

/-- A full cell with one value on all lanes and two uses. -/
def tCell (x : Nat) : Cell := { full := true, data := .all (BitVec.ofNat 32 x), count := .all 2, pin := .all false }

/-- A full cell with a value for each lane. -/
def tCell4 (a b c d : Nat) : Cell :=
  { full := true, data := ⟨BitVec.ofNat 32 a, BitVec.ofNat 32 b, BitVec.ofNat 32 c, BitVec.ofNat 32 d⟩, count := .all 2, pin := .all false }

/-- One group of 32 lanes, about to issue, with some names in every slice. -/
def tLab (names : Table Cell) : State :=
  (State.reset.withFetchWord 96 0).modGroup 0 fun g => g.modSlices (List.range 8) fun _ sl => { sl with names := names }

/-- The same with only lane 0 left. -/
def tOneLane (names : Table Cell) : State :=
  (State.reset.withFetchWord 96 0).modGroup 0 fun g => g.modSlices (List.range 8) fun i sl =>
    if i = 0 then { sl with names := names, mask := 1, exited := 0xE } else { sl with mask := 0, exited := 0xF }

/-- An access of that group in flight, to 4 bytes that hold 0. -/
def tFlying (op : FlightOp) : State :=
  { tLab [] with flights := [(0, { group := 0, instr := 0, addr := 2 ^ 44 + 16, size := 4, op := op })], nextFlight := 1 }

/-- The next state of an outcome. -/
def tNext (r : Result) : State := match r with | .next s => s | _ => {}

/-- Slice 0 of the group after an outcome. -/
def tSlice (r : Result) : Slice := match (tNext r).group 0 with | some g => g.slices.get 0 | none => {}

/-- A name's datum on lane 0. -/
def tDatum (r : Result) (n : Nat) : Nat := ((tSlice r).datum 0 n).toNat
/-- A name's use count on lane 0, where it is bound. -/
def tUses (r : Result) (n : Nat) : Option Nat := ((tSlice r).cell n).map fun c => (c.count.get 0).toNat
/-- Whether a bound name is full. -/
def tFull (r : Result) (n : Nat) : Option Bool := ((tSlice r).cell n).map fun c => c.full
/-- A predicate on lane 0. -/
def tPred (r : Result) (n : BitVec 4) : Bool := (tSlice r).q 0 n
/-- The PC. -/
def tPC (r : Result) : Nat := (tSlice r).pc.toNat
/-- A uniform register. -/
def tReg (r : Result) (n : BitVec 6) : Nat := match (tNext r).group 0 with | some g => (g.g n).toNat | none => 0
/-- The cause of the trap taken. -/
def tCause (r : Result) : Nat := match (tNext r).group 0 with | some g => if g.priv then g.ctx.cause.toNat % 256 else 0 | none => 0
/-- The priority. -/
def tPrio (r : Result) : Nat := match (tNext r).group 0 with | some g => g.prio.toNat | none => 0
/-- The status of the group. -/
def tStatus (r : Result) : Option GroupStatus := ((tNext r).group 0).map fun g => g.status

/-! ### Results -/

theorem test_add_wraps :
    tDatum (exec (.add .always ⟨8, 1⟩ ⟨1, false⟩ (.name ⟨2, false⟩) .s32 false) (tLab [(1, tCell 0x7), (2, tCell 0xFFFFFFFF)])) 8 = 0x6 := by decide
theorem test_add_sat :
    tDatum (exec (.add .always ⟨8, 1⟩ ⟨1, false⟩ (.name ⟨2, false⟩) .s32 true) (tLab [(1, tCell 0x7FFFFFFF), (2, tCell 0x1)])) 8 = 0x7FFFFFFF := by decide
theorem test_sub :
    tDatum (exec (.sub .always ⟨8, 1⟩ ⟨1, false⟩ (.name ⟨2, false⟩) .n32 false) (tLab [(1, tCell 0x3), (2, tCell 0x5)])) 8 = 0xFFFFFFFE := by decide
theorem test_mul :
    tDatum (exec (.mul .always ⟨8, 1⟩ ⟨1, false⟩ (.name ⟨2, false⟩) .n32) (tLab [(1, tCell 0x10001), (2, tCell 0x10000)])) 8 = 0x10000 := by decide
theorem test_mulhi :
    tDatum (exec (.mulhi .always ⟨8, 1⟩ ⟨1, false⟩ (.name ⟨2, false⟩) .s32) (tLab [(1, tCell 0xFFFFFFFF), (2, tCell 0x1)])) 8 = 0xFFFFFFFF := by decide
theorem test_mad :
    tDatum (exec (.mad .always ⟨8, 1⟩ ⟨1, false⟩ (.name ⟨2, false⟩) ⟨3, false⟩ .s32) (tLab [(1, tCell 0x3), (2, tCell 0x4), (3, tCell 0x5)])) 8 = 0x11 := by decide
theorem test_madhi :
    tDatum (exec (.madhi .always ⟨8, 1⟩ ⟨1, false⟩ (.name ⟨2, false⟩) ⟨3, false⟩ .n32) (tLab [(1, tCell 0xFFFFFFFF), (2, tCell 0xFFFFFFFF), (3, tCell 0xFFFFFFFF)])) 8 = 0xFFFFFFFF := by decide
theorem test_div :
    tDatum (exec (.div .always ⟨8, 1⟩ ⟨1, false⟩ (.name ⟨2, false⟩) .s32) (tLab [(1, tCell 0xFFFFFFF9), (2, tCell 0x2)])) 8 = 0xFFFFFFFD := by decide
theorem test_div_min :
    tDatum (exec (.div .always ⟨8, 1⟩ ⟨1, false⟩ (.name ⟨2, false⟩) .s32) (tLab [(1, tCell 0x80000000), (2, tCell 0xFFFFFFFF)])) 8 = 0x80000000 := by decide
theorem test_rem :
    tDatum (exec (.rem .always ⟨8, 1⟩ ⟨1, false⟩ (.name ⟨2, false⟩) .s32) (tLab [(1, tCell 0xFFFFFFF9), (2, tCell 0x2)])) 8 = 0xFFFFFFFF := by decide
theorem test_rem_zero :
    tDatum (exec (.rem .always ⟨8, 1⟩ ⟨1, false⟩ (.name ⟨2, false⟩) .n32) (tLab [(1, tCell 0x9), (2, tCell 0x0)])) 8 = 0x9 := by decide
theorem test_neg : tDatum (exec (.neg .always ⟨8, 1⟩ ⟨1, false⟩ .s32) (tLab [(1, tCell 0x5)])) 8 = 0xFFFFFFFB := by decide
theorem test_abs_min : tDatum (exec (.abs .always ⟨8, 1⟩ ⟨1, false⟩ .s32) (tLab [(1, tCell 0x80000000)])) 8 = 0x80000000 := by decide
theorem test_min :
    tDatum (exec (.min .always ⟨8, 1⟩ ⟨1, false⟩ (.name ⟨2, false⟩) .s32) (tLab [(1, tCell 0xFFFFFFFF), (2, tCell 0x1)])) 8 = 0xFFFFFFFF := by decide
theorem test_max :
    tDatum (exec (.max .always ⟨8, 1⟩ ⟨1, false⟩ (.name ⟨2, false⟩) .n32) (tLab [(1, tCell 0xFFFFFFFF), (2, tCell 0x1)])) 8 = 0xFFFFFFFF := by decide
theorem test_shl_width :
    tDatum (exec (.shl .always ⟨8, 1⟩ ⟨1, false⟩ (.name ⟨2, false⟩) .b32) (tLab [(1, tCell 0x5), (2, tCell 0x20)])) 8 = 0x0 := by decide
theorem test_shr :
    tDatum (exec (.shr .always ⟨8, 1⟩ ⟨1, false⟩ (.name ⟨2, false⟩) .b32) (tLab [(1, tCell 0x80000000), (2, tCell 0x1F)])) 8 = 0x1 := by decide
theorem test_sar :
    tDatum (exec (.sar .always ⟨8, 1⟩ ⟨1, false⟩ (.name ⟨2, false⟩) .b32) (tLab [(1, tCell 0x80000000), (2, tCell 0x28)])) 8 = 0xFFFFFFFF := by decide
theorem test_rot :
    tDatum (exec (.rot .always ⟨8, 1⟩ ⟨1, false⟩ (.name ⟨2, false⟩) .b32) (tLab [(1, tCell 0x80000001), (2, tCell 0x21)])) 8 = 0x3 := by decide
theorem test_and :
    tDatum (exec (.and .always ⟨8, 1⟩ ⟨1, false⟩ (.name ⟨2, false⟩) .b32) (tLab [(1, tCell 0xF0F0), (2, tCell 0xFF00)])) 8 = 0xF000 := by decide
theorem test_or :
    tDatum (exec (.or .always ⟨8, 1⟩ ⟨1, false⟩ (.name ⟨2, false⟩) .b32) (tLab [(1, tCell 0xF0F0), (2, tCell 0xFF00)])) 8 = 0xFFF0 := by decide
theorem test_xor :
    tDatum (exec (.xor .always ⟨8, 1⟩ ⟨1, false⟩ (.name ⟨2, false⟩) .b32) (tLab [(1, tCell 0xF0F0), (2, tCell 0xFF00)])) 8 = 0xFF0 := by decide
theorem test_andn :
    tDatum (exec (.andn .always ⟨8, 1⟩ ⟨1, false⟩ (.name ⟨2, false⟩) .b32) (tLab [(1, tCell 0xF0F0), (2, tCell 0xFF00)])) 8 = 0xF0 := by decide
theorem test_not : tDatum (exec (.not .always ⟨8, 1⟩ ⟨1, false⟩ .b32) (tLab [(1, tCell 0x0)])) 8 = 0xFFFFFFFF := by decide
theorem test_bfe :
    tDatum (exec (.bfe .always ⟨8, 1⟩ ⟨1, false⟩ (.name ⟨2, false⟩) .s32) (tLab [(1, tCell 0xA00), (2, tCell 0x408)])) 8 = 0xFFFFFFFA := by decide
theorem test_bfi :
    tDatum (exec (.bfi .always ⟨8, 1⟩ ⟨1, false⟩ (.name ⟨2, false⟩) ⟨3, false⟩ .b32) (tLab [(1, tCell 0x5), (2, tCell 0x408), (3, tCell 0xFFFFFFFF)])) 8 = 0xFFFFF5FF := by decide
theorem test_pop : tDatum (exec (.pop .always ⟨8, 1⟩ ⟨1, false⟩ .b32) (tLab [(1, tCell 0xF0F1)])) 8 = 0x9 := by decide
theorem test_clz : tDatum (exec (.clz .always ⟨8, 1⟩ ⟨1, false⟩ .b32) (tLab [(1, tCell 0x1)])) 8 = 0x1F := by decide
theorem test_ctz : tDatum (exec (.ctz .always ⟨8, 1⟩ ⟨1, false⟩ .b32) (tLab [(1, tCell 0x8)])) 8 = 0x3 := by decide
theorem test_brev : tDatum (exec (.brev .always ⟨8, 1⟩ ⟨1, false⟩ .b32) (tLab [(1, tCell 0x1)])) 8 = 0x80000000 := by decide
theorem test_lea :
    tDatum (exec (.lea .always ⟨8, 1⟩ ⟨1, false⟩ (.name ⟨2, false⟩) .n32 3) (tLab [(1, tCell 0x64), (2, tCell 0x3)])) 8 = 0x7C := by decide
theorem test_mov : tDatum (exec (.mov .always ⟨8, 1⟩ (.ureg 2) .b32) (tLab [])) 8 = 0x100000 := by decide
theorem test_movi : tDatum (exec (.movi .always ⟨8, 1⟩ .f32 0x40400000) (tLab [])) 8 = 0x40400000 := by decide
theorem test_sel :
    tDatum (exec (.sel .always ⟨8, 1⟩ ⟨1, false⟩ (.name ⟨2, false⟩) ⟨3, false⟩ .b32) (tLab [(1, tCell 0x7), (2, tCell 0x9), (3, tCell 0x0)])) 8 = 0x9 := by decide
theorem test_fadd :
    tDatum (exec (.fadd .always ⟨8, 1⟩ ⟨1, false⟩ (.name ⟨2, false⟩) .f32) (tLab [(1, tCell 0x3F800000), (2, tCell 0x40000000)])) 8 = 0x40400000 := by decide
theorem test_fsub :
    tDatum (exec (.fsub .always ⟨8, 1⟩ ⟨1, false⟩ (.name ⟨2, false⟩) .f32) (tLab [(1, tCell 0x3F800000), (2, tCell 0x40000000)])) 8 = 0xBF800000 := by decide
theorem test_fmul :
    tDatum (exec (.fmul .always ⟨8, 1⟩ ⟨1, false⟩ (.name ⟨2, false⟩) .f32) (tLab [(1, tCell 0x40000000), (2, tCell 0x40400000)])) 8 = 0x40C00000 := by decide
theorem test_fma :
    tDatum (exec (.fma .always ⟨8, 1⟩ ⟨1, false⟩ (.name ⟨2, false⟩) ⟨3, false⟩ .f32) (tLab [(1, tCell 0x40000000), (2, tCell 0x40400000), (3, tCell 0x3F800000)])) 8 = 0x40E00000 := by decide
theorem test_fmin :
    tDatum (exec (.fmin .always ⟨8, 1⟩ ⟨1, false⟩ (.name ⟨2, false⟩) .f32) (tLab [(1, tCell 0x80000000), (2, tCell 0x0)])) 8 = 0x80000000 := by decide
theorem test_fmax :
    tDatum (exec (.fmax .always ⟨8, 1⟩ ⟨1, false⟩ (.name ⟨2, false⟩) .f32) (tLab [(1, tCell 0x3F800000), (2, tCell 0x40000000)])) 8 = 0x40000000 := by decide
theorem test_fabs : tDatum (exec (.fabs .always ⟨8, 1⟩ ⟨1, false⟩ .f32) (tLab [(1, tCell 0xC0000000)])) 8 = 0x40000000 := by decide
theorem test_fneg : tDatum (exec (.fneg .always ⟨8, 1⟩ ⟨1, false⟩ .f32) (tLab [(1, tCell 0x40000000)])) 8 = 0xC0000000 := by decide
theorem test_hadd2 :
    tDatum (exec (.hadd2 .always ⟨8, 1⟩ ⟨1, false⟩ (.name ⟨2, false⟩) .f16) (tLab [(1, tCell 0x3C003C00), (2, tCell 0x40003C00)])) 8 = 0x42004000 := by decide
theorem test_hmul2 :
    tDatum (exec (.hmul2 .always ⟨8, 1⟩ ⟨1, false⟩ (.name ⟨2, false⟩) .f16) (tLab [(1, tCell 0x40003C00), (2, tCell 0x40004000)])) 8 = 0x44004000 := by decide
theorem test_hfma2 :
    tDatum (exec (.hfma2 .always ⟨8, 1⟩ ⟨1, false⟩ (.name ⟨2, false⟩) ⟨3, false⟩ .f16) (tLab [(1, tCell 0x40004000), (2, tCell 0x40003C00), (3, tCell 0x3C003C00)])) 8 = 0x45004200 := by decide
theorem test_frcp : tDatum (exec (.frcp .always ⟨8, 1⟩ ⟨1, false⟩ .f32) (tLab [(1, tCell 0x40000000)])) 8 = 0x3F000000 := by decide
theorem test_frsq : tDatum (exec (.frsq .always ⟨8, 1⟩ ⟨1, false⟩ .f32) (tLab [(1, tCell 0x40800000)])) 8 = 0x3F000000 := by decide +kernel
theorem test_fsqrt :
    tDatum (exec (.fsqrt .always ⟨8, 1⟩ ⟨1, false⟩ .f32) (tLab [(1, tCell 0x40800000)])) 8 = 0x40000000 := by decide +kernel
theorem test_fexp2 :
    tDatum (exec (.fexp2 .always ⟨8, 1⟩ ⟨1, false⟩ .f32) (tLab [(1, tCell 0x40400000)])) 8 = 0x41000000 := by decide +kernel
theorem test_flog2 :
    tDatum (exec (.flog2 .always ⟨8, 1⟩ ⟨1, false⟩ .f32) (tLab [(1, tCell 0x41000000)])) 8 = 0x40400000 := by decide +kernel
theorem test_fsinpi : tDatum (exec (.fsinpi .always ⟨8, 1⟩ ⟨1, false⟩ .f32) (tLab [(1, tCell 0x3F000000)])) 8 = 0x3F800000 := by decide
theorem test_fcospi : tDatum (exec (.fcospi .always ⟨8, 1⟩ ⟨1, false⟩ .f32) (tLab [(1, tCell 0x3F800000)])) 8 = 0xBF800000 := by decide
theorem test_ftanh : tDatum (exec (.ftanh .always ⟨8, 1⟩ ⟨1, false⟩ .f32) (tLab [(1, tCell 0x0)])) 8 = 0x0 := by decide
theorem test_cvt : tDatum (exec (.cvt .always ⟨8, 1⟩ ⟨1, false⟩ .s32 .f32 false) (tLab [(1, tCell 0x40200000)])) 8 = 0x2 := by decide
theorem test_pack :
    tDatum (exec (.pack .always ⟨8, 1⟩ ⟨1, false⟩ ⟨2, false⟩ ⟨0, false⟩ .f16 .f32 0) (tLab [(1, tCell 0x3F800000), (2, tCell 0x40000000)])) 8 = 0x40003C00 := by decide
theorem test_unpack : tDatum (exec (.unpack .always ⟨8, 1⟩ ⟨1, false⟩ .f16 1) (tLab [(1, tCell 0x40003C00)])) 8 = 0x40000000 := by decide
theorem test_shfl_xor :
    tDatum (exec (.shflXor .always ⟨8, 1⟩ ⟨1, false⟩ (.imm 1) .b32 0) (tLab [(1, tCell4 10 11 12 13)])) 8 = 0xB := by decide
theorem test_shfl_idx :
    tDatum (exec (.shflIdx .always ⟨8, 1⟩ ⟨1, false⟩ (.imm 3) .b32 0) (tLab [(1, tCell4 10 11 12 13)])) 8 = 0xD := by decide
theorem test_shfl_up :
    tDatum (exec (.shflUp .always ⟨8, 1⟩ ⟨1, false⟩ (.imm 1) .b32 0) (tLab [(1, tCell4 10 11 12 13)])) 8 = 0xA := by decide
theorem test_shfl_dn :
    tDatum (exec (.shflDn .always ⟨8, 1⟩ ⟨1, false⟩ (.imm 2) .b32 0) (tLab [(1, tCell4 10 11 12 13)])) 8 = 0xC := by decide
theorem test_red : tDatum (exec (.red .always ⟨8, 1⟩ ⟨1, false⟩ .add .s32 0) (tLab [(1, tCell 0x3)])) 8 = 0x60 := by decide
theorem test_scan : tDatum (exec (.scan .always ⟨8, 1⟩ ⟨1, false⟩ .add false .s32 0) (tLab [(1, tCell 0x3)])) 8 = 0x3 := by decide
theorem test_match : tDatum (exec (.matchLanes .always ⟨8, 1⟩ ⟨1, false⟩ .b32 0) (tLab [(1, tCell4 5 6 5 7)])) 8 = 0x55555555 := by decide
theorem test_vote_bal : tDatum (exec (.voteBal .always ⟨8, 1⟩ 0 0) (tLab [])) 8 = 0xFFFFFFFF := by decide
theorem test_sread_lane : tDatum (exec (.sreadLane ⟨8, 1⟩ 1) (tLab [])) 8 = 0x0 := by decide
theorem test_gadd : tReg (exec (.gaddImm 5 2 (-4)) (tLab [])) 5 = 0xFFFFC := by decide
theorem test_gadd_reg : tReg (exec (.gaddReg 5 2 2) (tLab [])) 5 = 0x200000 := by decide
theorem test_gadd_u2 : tReg (exec (.gaddU2 0 2 (.imm 1)) (tLab [])) 0 = 0x0 := by decide
theorem test_gsub : tReg (exec (.gsubImm 5 2 1) (tLab [])) 5 = 0xFFFFF := by decide
theorem test_gsub_reg : tReg (exec (.gsubReg 5 0 2) (tLab [])) 5 = 0xFFFFFFFFFFF00000 := by decide
theorem test_gmul : tReg (exec (.gmulReg 5 2 2) (tLab [])) 5 = 0x10000000000 := by decide
theorem test_gshl : tReg (exec (.gshlImm 5 2 63) (tLab [])) 5 = 0x0 := by decide
theorem test_gshl_64 : tReg (exec (.gshlU2 5 2 (.imm 64)) (tLab [])) 5 = 0x100000 := by decide
theorem test_gshr : tReg (exec (.gshrImm 5 2 20) (tLab [])) 5 = 0x1 := by decide
theorem test_gand : tReg (exec (.gandImm 5 2 (-1)) (tLab [])) 5 = 0x100000 := by decide
theorem test_gor : tReg (exec (.gorImm 5 2 1) (tLab [])) 5 = 0x100001 := by decide
theorem test_gxor : tReg (exec (.gxorReg 5 2 2) (tLab [])) 5 = 0x0 := by decide
theorem test_gcmp : tReg (exec (.gcmp 5 2 (.reg 0) .gts) (tLab [])) 5 = 0x1 := by decide
theorem test_gmov : tReg (exec (.gmov 5 2) (tLab [])) 5 = 0x100000 := by decide
theorem test_gli : tReg (exec (.gli 5 (-1)) (tLab [])) 5 = 0xFFFFFFFFFFFFFFFF := by decide
theorem test_gli_u2 : tReg (exec (.gliU2 5 0x80000000) (tLab [])) 5 = 0xFFFFFFFF80000000 := by decide
theorem test_gli_hi : tReg (exec (.gliHi 2 7) (tLab [])) 2 = 0x700100000 := by decide
theorem test_capq : tReg (exec (.capq 4 9) (tLab [])) 4 = 0x80000000000001FF := by decide
theorem test_capq_w : tReg (exec (.capqW 4 300) (tLab [])) 4 = 0x0 := by decide
theorem test_sread : tReg (exec (.sread 5 1) (tLab [])) 5 = 0x0 := by decide
theorem test_cmp :
    tPred (exec (.cmp .always 7 ⟨1, false⟩ (.name ⟨2, false⟩) .s32 .lt) (tLab [(1, tCell 0xFFFFFFFF), (2, tCell 1)])) 7 = true := by decide
theorem test_cmp_natural :
    tPred (exec (.cmp .always 7 ⟨1, false⟩ (.name ⟨2, false⟩) .n32 .lt) (tLab [(1, tCell 0xFFFFFFFF), (2, tCell 1)])) 7 = false := by decide
theorem test_fcmp_nan :
    tPred (exec (.fcmp .always 7 ⟨1, false⟩ (.name ⟨2, false⟩) .f32 .un) (tLab [(1, tCell 0x7FC00000), (2, tCell 0)])) 7 = true := by decide
theorem test_vote_any : tPred (exec (.voteAny .always 7 3 0) (tLab [])) 7 = false := by decide
theorem test_vote_all : tPred (exec (.voteAll .always 7 0 0) (tLab [])) 7 = true := by decide
theorem test_read_consumes : tUses (exec (.not .always ⟨8, 1⟩ ⟨1, false⟩ .b32) (tLab [(1, tCell 5)])) 1 = some 1 := by decide
theorem test_last_read_frees :
    tUses (exec (.and .always ⟨8, 1⟩ ⟨1, false⟩ (.name ⟨1, false⟩) .b32) (tLab [(1, tCell 5)])) 1 = none := by decide
theorem test_exhausted_traps : tCause (exec (.not .always ⟨8, 1⟩ ⟨9, false⟩ .b32) (tLab [])) = 4 := by decide
theorem test_drop : tUses (exec (.drop .always ⟨1, false⟩ 1) (tLab [(1, tCell 5)])) 1 = some 1 := by decide
theorem test_free : tUses (exec (.free .always 1) (tLab [(1, tCell 5)])) 1 = none := by decide
theorem test_trap : tCause (exec (.trap .always 7) (tLab [])) = 14 := by decide
theorem test_rte_unprivileged : tCause (exec .rte (tLab [])) = 9 := by decide
theorem test_nop_moves_on : tPC (exec (.nop .always) (tLab [])) = 12 := by decide
theorem test_br_taken : tPC (exec (.br .always true 0 0) (tLab [])) = 0 := by decide
theorem test_gbr_not_taken : tPC (exec (.gbr 2 .z 0) (tLab [])) = 8 := by decide
theorem test_call_links : tDatum (exec (.call .always true ⟨8, 1⟩ 0) (tLab [])) 8 = 12 := by decide
theorem test_setprio_saturates : tPrio (exec (.setprio 2 4) (tLab [])) = 15 := by decide
theorem test_exit_retires : tStatus (exec (.exit .always) (tLab [])) = some .retired := by decide
theorem test_bar_alone_passes : tPC (exec .bar (tLab [])) = 12 := by decide
theorem test_st_leaves_an_access :
    ((tNext (exec (.st .always ⟨0, .core, 0, none, 0x10⟩ ⟨1, false⟩ 0 .b32) (tOneLane [(1, tCell 0xAB)]))).flights.map
    fun f => (f.2.addr, f.2.size, f.2.op)) = [(2 ^ 44 + 16, 4, .store 0xAB)] := by decide
theorem test_store_is_performed :
    memReadN (tNext (exec (.memoryAccessPerform 0) (tFlying (.store 0xABCD)))).mem (2 ^ 44 + 16) 4 = 0xABCD := by decide
theorem test_binc_wraps :
    memReadN (tNext (exec (.memoryAccessPerform 0) (tFlying (.atom .binc .n32 3 0 8 0)))).mem (2 ^ 44 + 16) 4 = 1 := by decide
theorem test_ld_empties : tFull (exec (.ld .always ⟨8, 1⟩ ⟨0, .core, 0, none, 0x10⟩ 0 .b32) (tLab [])) 8 = some false := by decide
theorem test_st_out_of_space : tCause (exec (.st .always ⟨2, .core, 0, none, 0⟩ ⟨1, false⟩ 0 .b32) (tLab [(1, tCell 1)])) = 7 := by decide
theorem test_arrive : memReadN (tNext (exec (.arrive .always ⟨0, .core, 0, none, 0x40⟩ true 2)
    { tLab [] with mem := [(2 ^ 44 + 0x40, 10)] })).mem (2 ^ 44 + 0x40) 8 = 7 := by decide
theorem test_bobj : memReadN (tNext (exec (.bobj .always ⟨0, .core, 0, none, 0x40⟩ ⟨1, false⟩ false false) (tLab [(1, tCell 5)]))).mem
    (2 ^ 44 + 0x40) 8 = 5 := by decide
theorem test_halt_unprivileged : tCause (exec .halt (tLab [])) = 9 := by decide
theorem test_vsdump_unprivileged : tCause (exec (.vsdump false) (tLab [])) = 9 := by decide
theorem test_mzero_claims : ((tNext (exec (.mzero .always (.imm 0)) (tLab []))).core 0).owner = some 0 := by decide
theorem test_fence_waits : ((tNext (exec (.fence .core) (tLab []))).flights.map fun f => f.2.op) = [.fence] := by decide
theorem test_spawn_queues :
    ((tNext (exec (.spawn .always 4 ⟨0, false⟩ 0 0 0 1 false true 0) (tLab []))).core 0).threads.length = 32 := by decide +kernel
theorem test_power_good : (tNext (exec .powerGoodRemove (tLab []))).powered = false := by decide
theorem test_token_cycle : ((tNext (exec (.tokenCycle 0 0) (tLab []))).cluster 0).cycles = 1 := by decide
theorem test_plan_issues_the_placed_word : plan (State.reset.withFetchWord 96 0x0000000700000000A8000000) =
    .issue (.trap .always 7) ⟨0, 0⟩ := by decide


/-! ### What meets the statements' hypotheses -/

/-- The issue of a state. -/
def tIssue (s : State) : Issue := (issueOf s).getD ⟨0, {}, 0, [], 0⟩

theorem issue_of {s : State} (h : (issueOf s).isSome = true) : issueOf s = some (tIssue s) := by
  unfold tIssue
  cases hi : issueOf s with
  | none => simp [hi] at h
  | some c => rfl

/-- `Ready` as a check. -/
def tReady (s : State) (rs : List NameRead) (ds : List (Pred × Nat)) (regs : List (BitVec 6)) : Bool :=
  let c := tIssue s
  (issueOf s).isSome && decide (nameTrap c rs ds = none) && decide (c.failedReg regs = none) && !c.pending regs && !mustWait c rs ds &&
    c.fits s rs ds

theorem ready_of {s : State} {rs : List NameRead} {ds : List (Pred × Nat)} {regs : List (BitVec 6)} (h : tReady s rs ds regs = true) :
    (tIssue s).Ready s rs ds regs := by
  simp only [tReady, Bool.and_eq_true, decide_eq_true_eq, Bool.not_eq_true'] at h
  exact { noTrap := h.1.1.1.1.2, noFailure := h.1.1.1.2, loaded := h.1.1.2, full := h.1.2, room := h.2, issues := issue_of h.1.1.1.1.1 }

/-- `UniReady` as a check. -/
def tUni (s : State) (dst regs : List (BitVec 6)) : Bool :=
  (issueOf s).isSome && decide ((tIssue s).failedReg regs = none) && !(tIssue s).pending (dst ++ regs)

theorem uni_of {s : State} {dst regs : List (BitVec 6)} (h : tUni s dst regs = true) : (tIssue s).UniReady s dst regs := by
  simp only [tUni, Bool.and_eq_true, decide_eq_true_eq, Bool.not_eq_true'] at h
  exact ⟨issue_of h.1.1, h.1.2, h.2⟩

/-- Three names, bound and full; names 4 to 11 are pairs as well. -/
def tNames : Table Cell := (List.range 12).map fun n => (n, tCell (n + 1))

/-- The gangs of a cross-lane instruction that needs no other. -/
def tGangs : List (BitVec 3 × List Nat) := [(0, List.range 8)]

/-- The lab in privileged state, its trap context being that of its gang. -/
def tPriv : State := (tLab []).modGroup 0 fun g =>
  { g with priv := true, ctx := { spc := .all 0x1F00000000, gmap := 0 } }

theorem witness_integer : (tIssue (tLab tNames)).Ready (tLab tNames)
      (readsOf .always false ⟨1, false⟩ ++ opbReads (.name ⟨2, false⟩) .always false ++ readsOf .always false ⟨3, true⟩)
      ((destNames false ⟨20, 0⟩).map fun n => (.always, n)) (opbRegs (.name ⟨2, false⟩)) ∧
    (tIssue (tLab tNames)).Ready (tLab tNames) (readsOf .always true ⟨4, false⟩ ++ opbReads (.ureg 63) .always true)
      ((destNames true ⟨510, 7⟩).map fun n => (.always, n)) (opbRegs (.ureg 63)) ∧
    (tIssue (tLab tNames)).Ready (tLab tNames) (readsOf .always false ⟨1, false⟩) ((destNames false ⟨1, 1⟩).map fun n => (.always, n)) [] ∧
    (tIssue (tLab tNames)).Ready (tLab tNames) [] ((destNames false ⟨511, 1⟩).map fun n => (.always, n)) [] :=
  ⟨ready_of (by decide), ready_of (by decide), ready_of (by decide), ready_of (by decide)⟩

theorem witness_float : (tIssue (tLab tNames)).Ready (tLab tNames)
      (readsOf .always false ⟨1, false⟩ ++ opbReads (.name ⟨2, false⟩) .always false ++ readsOf .always false ⟨3, false⟩)
      ((destNames false ⟨3, 1⟩).map fun n => (.always, n)) (opbRegs (.name ⟨2, false⟩)) ∧
    (tIssue (tLab tNames)).Ready (tLab tNames) (readsOf .always false ⟨1, false⟩ ++ opbReads (.imm 0) .always false)
      ((destNames false ⟨3, 1⟩).map fun n => (.always, n)) (opbRegs (.imm 0)) ∧
    (tIssue (tLab tNames)).Ready (tLab tNames) (readsOf .always false ⟨1, false⟩) ((destNames false ⟨9, 1⟩).map fun n => (.always, n)) [] :=
  ⟨ready_of (by decide), ready_of (by decide), ready_of (by decide)⟩

theorem witness_conversion : ((tIssue (tLab tNames)).Ready (tLab tNames) (readsOf .always (Ty.wide .s64) ⟨4, false⟩)
      ((destNames (Ty.wide .f32) ⟨9, 1⟩).map fun n => (.always, n)) []) ∧
    tyCodeBits .s8 ≠ 16 ∧ tyCodeBits .f16 = 16 ∧
    (tIssue (tLab tNames)).Ready (tLab tNames)
      (readsOf .always false ⟨1, false⟩ ++ readsOf .always false ⟨2, false⟩ ++ readsOf .always false ⟨3, false⟩)
      ((destNames false ⟨9, 1⟩).map fun n => (.always, n)) [] ∧
    (tIssue (tLab tNames)).Ready (tLab tNames) (readsOf .always false ⟨1, false⟩ ++ readsOf .always false ⟨2, false⟩)
      ((destNames false ⟨9, 1⟩).map fun n => (.always, n)) [] :=
  ⟨ready_of (by decide), by decide, by decide, ready_of (by decide), ready_of (by decide)⟩

theorem witness_compare : (tIssue (tLab tNames)).Ready (tLab tNames)
      (readsOf .always (Ty.wide .n64) ⟨4, false⟩ ++ opbReads (.name ⟨6, false⟩) .always (Ty.wide .n64)) [] (opbRegs (.name ⟨6, false⟩)) ∧
    (tIssue (tLab tNames)).Ready (tLab tNames) (readsOf .always false ⟨1, false⟩ ++ opbReads (.ureg 2) .always false) []
      (opbRegs (.ureg 2)) :=
  ⟨ready_of (by decide), ready_of (by decide)⟩

theorem witness_uniform : (tIssue (tLab [])).UniReady (tLab []) [0] [2, 63] ∧ (tIssue (tLab [])).UniReady (tLab []) [5] [0] ∧
    (tIssue (tLab [])).UniReady (tLab []) [5] (2 :: uopRegs (.reg 0)) ∧ (tIssue (tLab [])).UniReady (tLab []) [63] [] :=
  ⟨uni_of (by decide), uni_of (by decide), uni_of (by decide), uni_of (by decide)⟩

theorem witness_special_read : (selectorPrivileged 0x40 = true ∧ (tIssue tPriv).g.priv = true ∧ boundWait tPriv (tIssue tPriv) 0x40 = false ∧
      (tIssue tPriv).UniReady tPriv [5] []) ∧
    selectorPrivileged 0x13 = false ∧ boundWait (tLab []) (tIssue (tLab [])) 0x13 = false ∧ boundSelector 0x13 = true ∧
    selectorPrivileged 0x10 = false ∧ boundWait (tLab []) (tIssue (tLab [])) 0x10 = false ∧ (tIssue (tLab [])).UniReady (tLab []) [5] [] ∧
    (tIssue (tLab [])).Ready (tLab []) [] ((destNames (selectorWide 0x10) ⟨6, 1⟩).map fun n => (.always, n)) [] :=
  ⟨⟨by decide, by decide, by decide, uni_of (by decide)⟩, by decide, by decide, by decide, by decide, by decide, uni_of (by decide),
    ready_of (by decide)⟩

theorem witness_uniform_control : let c := tIssue (tLab []);
    c.UniReady (tLab []) [] [0] ∧ fmtLegal ((c.g.g 0).extractLsb' 0 32) = true ∧
    (∀ j ∈ c.sls, fmtLegal (((c.g.slices.get j).fmt &&& ~~~0) ||| ((c.g.g 0).extractLsb' 0 32 &&& 0)) = true) ∧
    gbrTaken .z (c.g.g 0) = true ∧ targetOk ((tLab []).codeOf c.g).2 (c.pc + 8) = true ∧ gbrTaken .nz (c.g.g 0) = false ∧
    c.UniReady (tLab []) [] [] ∧ fmtLegal 0 = true :=
  ⟨uni_of (by decide), by decide, by decide, by decide, by decide, by decide, uni_of (by decide), by decide⟩

theorem witness_special_write : (tIssue tPriv).UniReady tPriv [] [2] ∧ fmtLegal (((tIssue tPriv).g.g 0).extractLsb' 0 32) = true ∧
    (tIssue tPriv).g.priv = true ∧ (tIssue (tLab [])).UniReady (tLab []) [] [0] :=
  ⟨uni_of (by decide), by decide, by decide, uni_of (by decide)⟩

/-- The lab in two gangs, the second waiting at the cross-lane instruction that the first has come to. -/
def tTwoOf (names : Table Cell) : State := (tLab names).modGroup 0 fun g =>
  { g.modSlices [4, 5, 6, 7] fun _ sl => { sl with gang := 1 } with
    waits := [{ slices := 0xF0, pc := 0, next := 0, kind := .rendezvous 0xFFFFFFFF false }] }

/-- Their gangs, the issuing one first. -/
def tBoth : List (BitVec 3 × List Nat) := [(0, [0, 1, 2, 3]), (1, [4, 5, 6, 7])]

/-- `Meets` as a check, for a mask of 0. -/
def tMeets (s : State) (p : Pred) (gangs : List (BitVec 3 × List Nat)) (rs : List NameRead) (ds : List Nat) (regs : List (BitVec 6)) : Bool :=
  let c := tIssue s
  let x := c.gathered p 0 gangs
  let ds := ds.map fun n => (p, n)
  (issueOf s).isSome && !memberFault c.g (gangList gangs) (c.members 0) (fun sl => sl.active p) && decide (nameTrap x rs ds = none) &&
    decide (x.failedReg regs = none) && !x.pending regs && !mustWait x rs ds && x.fits s rs ds

theorem meets_of {s : State} {p : Pred} {gangs : List (BitVec 3 × List Nat)} {rs : List NameRead} {ds : List Nat} {regs : List (BitVec 6)}
    (h : tMeets s p gangs rs ds regs = true) (hm : (tIssue s).meeting ((tIssue s).members 0) = .execute gangs) :
    (tIssue s).Meets s p 0 gangs rs ds regs := by
  simp only [tMeets, Bool.and_eq_true, decide_eq_true_eq, Bool.not_eq_true'] at h
  exact { issues := issue_of h.1.1.1.1.1.1, meets := hm, members := h.1.1.1.1.1.2,
          operands := { noTrap := h.1.1.1.1.2, noFailure := h.1.1.1.2, loaded := h.1.1.2, full := h.1.2, room := h.2 } }

theorem witness_votes : (tIssue (tLab [])).Meets (tLab []) .always 0 tGangs [] [] ∧
    (tIssue (tLab [])).Meets (tLab []) .always 0 tGangs [] (destNames true ⟨8, 1⟩) ∧
    (tIssue (tTwoOf [])).Meets (tTwoOf []) .always 0 tBoth [] [] ∧
    (tIssue (tTwoOf [])).Meets (tTwoOf []) .always 0 tBoth [] (destNames true ⟨8, 1⟩) :=
  ⟨meets_of (by decide) rfl, meets_of (by decide) rfl, meets_of (by decide) rfl, meets_of (by decide) rfl⟩

theorem witness_shuffles : (tIssue (tLab tNames)).Meets (tLab tNames) .always 0 tGangs
      (readsOf .always (Ty.wide .b64) ⟨4, false⟩ ++ opbReads (.name ⟨1, false⟩) .always false) (destNames (Ty.wide .b64) ⟨8, 1⟩)
      (opbRegs (.name ⟨1, false⟩)) ∧
    (tIssue (tTwoOf tNames)).Meets (tTwoOf tNames) .always 0 tBoth
      (readsOf .always (Ty.wide .b32) ⟨4, false⟩ ++ opbReads (.imm 31) .always false) (destNames (Ty.wide .b32) ⟨8, 1⟩) (opbRegs (.imm 31)) :=
  ⟨meets_of (by decide) rfl, meets_of (by decide) rfl⟩

theorem witness_reductions : (tIssue (tLab tNames)).Meets (tLab tNames) .always 0 tGangs (readsOf .always (Ty.wide .s32) ⟨1, false⟩)
      (destNames (Ty.wide .s32) ⟨8, 1⟩) ∧
    (tIssue (tLab tNames)).Meets (tLab tNames) .always 0 tGangs (readsOf .always false ⟨1, false⟩ ++ readsOf .always false ⟨2, false⟩)
      (destNames true ⟨8, 1⟩) ∧
    (tIssue (tLab tNames)).Meets (tLab tNames) .always 0 tGangs (readsOf .always (Ty.wide .b32) ⟨1, false⟩) (destNames false ⟨8, 1⟩) ∧
    (tIssue (tTwoOf tNames)).Meets (tTwoOf tNames) .always 0 tBoth (readsOf .always (Ty.wide .f32) ⟨1, false⟩) (destNames (Ty.wide .f32) ⟨8, 1⟩) ∧
    (tIssue (tTwoOf tNames)).Meets (tTwoOf tNames) .always 0 tBoth (readsOf .always false ⟨1, false⟩ ++ readsOf .always false ⟨2, false⟩)
      (destNames true ⟨8, 1⟩) ∧
    (tIssue (tTwoOf tNames)).Meets (tTwoOf tNames) .always 0 tBoth (readsOf .always (Ty.wide .b32) ⟨1, false⟩) (destNames false ⟨8, 1⟩) :=
  ⟨meets_of (by decide) rfl, meets_of (by decide) rfl, meets_of (by decide) rfl, meets_of (by decide) rfl, meets_of (by decide) rfl,
    meets_of (by decide) rfl⟩

/-- The lab with `q1` true in lanes 0 and 1 of every slice. -/
def tSplit : State := (tLab tNames).modGroup 0 fun g => g.modSlices (List.range 8) fun _ sl => (sl.setQ 0 1 true).setQ 1 1 true

theorem witness_branch : let c := tIssue tSplit;
    issueOf tSplit = some c ∧ (∀ j ∈ c.sls, (c.g.slices.get j).active .always = (c.g.slices.get j).mask) ∧
    (c.sls.any fun j => divides ((c.g.slices.get j).active ⟨1, false⟩) (c.g.slices.get j).mask) = true ∧ (0 : BitVec 20) ≠ 2 ∧
    targetOk (tSplit.codeOf c.g).2 (c.pc + 8) = true ∧ targetOk (tSplit.codeOf c.g).2 (joinAddr c.pc 2) = true ∧
    stackTrap tSplit c (fun j => (if divides ((c.g.slices.get j).active ⟨1, false⟩) (c.g.slices.get j).mask then 2 else 0, 0)) = none :=
  ⟨issue_of (by decide), by decide, by decide, by decide, by decide, by decide, by decide⟩

/-- The lab with a name that holds a code address. -/
def tAddr : State := tLab [(1, tCell 8)]

theorem witness_calls : let c := tIssue tAddr; let sl := fun j => c.g.slices.get j;
    (c.Ready tAddr [] ((destNames false ⟨9, 1⟩).map fun n => (.always, n)) ∧ unequal c .always (fun _ _ => c.pc + 8) = false ∧
      targetOk (tAddr.codeOf c.g).2 (c.pc + 8) = true ∧ stackTrap tAddr c (fun _ => (0, 1)) = none) ∧
    (c.Ready tAddr (readsOf .always false ⟨1, false⟩) ((destNames false ⟨9, 1⟩).map fun n => (.always, n)) ∧
      unequal c .always (fun j l => (sl j).datum l 1) = false ∧
      (∀ j ∈ c.sls, firstTarget ((sl j).active .always) (fun l => (sl j).datum l 1) = some (8, 0xF)) ∧
      targetOk (tAddr.codeOf c.g).2 8 = true ∧ ∀ j ∈ c.sls, cellsNeeded tAddr c (fun _ x => x.consumeOn 1 0xF)
        (destWrites false ⟨9, 1⟩ (fun _ => 0xF) fun _ _ => (c.pc + 12).toNat) j = 0) ∧
    (c.Ready tAddr (readsOf .always false ⟨1, false⟩) [] ∧ ∀ j ∈ c.sls, firstTarget (sl j).mask (fun l => (sl j).datum l 1) = some (8, (sl j).mask)) ∧
    (∀ j ∈ c.sls, ∀ l, l < 4 → (c.pc + 4).toNat + 4 * min ((sl j).datum l 1).toNat 0 + 4 ≤ (tAddr.codeOf c.g).2) ∧
    (let s := tAddr.modCore 0 fun k => { k with vsLimit := 100 };
      (c.raise s 7 0 36, c.raise s 7 0 37, c.raise s 7 5 37) = ((36, true), (36, true), (37, true)) ∧
        (c.raise { s with groups := s.groups ++ [{ c.g with team := 1, slot := 1 }] } 7 0 36 = (36, false))) ∧
    extraFloor [(0, 5), (2, 0xC0), (3, 0x3F)] 12 4 = 5 ∧ extraFloor [(0, 5), (2, 0xC0), (3, 0x7F)] 12 4 = 0 :=
  ⟨⟨ready_of (by decide), by decide, by decide, by decide⟩, ⟨ready_of (by decide), by decide, by decide, by decide, by decide⟩,
    ⟨ready_of (by decide), by decide⟩, by decide, by decide, by decide, by decide⟩

theorem witness_group_control : let c := tIssue (tLab tNames);
    issueOf (tLab tNames) = some c ∧
    (∀ j ∈ c.sls, (c.g.slices.get j).dropExhausted .always 1 2 = false ∧ (c.g.slices.get j).emptyRead [⟨.always, ⟨1, false⟩⟩] = false) ∧
    nameTrap c [] [(.always, 1)] = none ∧ mustWait c [] [(.always, 1)] = false ∧
    ((c.lanes .always).any fun x => (((c.g.slices.get x.1).spawned.get x.2).join).isSome) = false :=
  ⟨issue_of (by decide), by decide, by decide, by decide, by decide⟩

/-- Halves of the example of chapter 4: 0xC1A08402, 0x0201C001, 0xB0100A00. -/
def tPair : Option Instr := decodeTableWord 96 0xB0100A000201C001C1A08402

theorem witness_pairs : (∃ x y, tPair = some (.lanePair x y) ∧ wellFormed (.lanePair x y) = true ∧
      (tIssue (tLab tNames)).Ready (tLab tNames) (halfReads x ++ halfReads y) [(halfPred x, x.dst.toNat), (halfPred y, y.dst.toNat)]) ∧
    (let s := (tLab tNames).modGrid 0 fun d => { d with codeSize := 128, code := [] };
     (tIssue s).Ready s (readsOf .always false ⟨1, false⟩ ++ readsOf .always false ⟨2, false⟩ ++ readsOf .always false ⟨3, false⟩)
       ((destNames false ⟨9, 1⟩).map fun k => (.always, k)) ∧ (patAddr (tIssue s).pc 1).toNat + 64 ≤ (s.codeOf (tIssue s).g).2 ∧
     patOk (patWords (s.codeOf (tIssue s).g).1 (patAddr (tIssue s).pc 1).toNat) = true) :=
  ⟨⟨_, _, rfl, by decide, ready_of (by decide)⟩, ready_of (by decide), by decide, by decide⟩

/-- The lab whose `g5` leads into the panel's SRAM, with an edge of tasks 5 and 6 at 0x100 named by a list of task 5 at 0. -/
def tClu : State :=
  { (tLab tNames).modGroup 0 fun g => g.setG 5 0x3000000 with
    mem := memWriteN (memWriteN (memWriteN (memWriteN [] (2 ^ 45) 4 1) (2 ^ 45 + 4) 4 5) (2 ^ 45 + 8) 4 0x3000100) (2 ^ 45 + 0x100) 8
      (5 + 6 * 2 ^ 24) }

/-- The lab whose `g6` leads to the die allocation. -/
def tDie : State := (tLab tNames).modGroup 0 fun g => g.setG 6 (BitVec.ofNat 64 (paramExtent State.oneLaunch))

/-- The lab with a window descriptor at `core` address 0x20 and window 1 open over the team's upper part. -/
def tWin : State :=
  { (tLab tNames).modTeam 0 fun t => { t with size := 16384 } with
    mem := memWriteN (memWriteN [] (2 ^ 44 + 0x28) 4 4096) (2 ^ 44 + 0x2C) 4 4096 }
/-- The same with window 1 open. -/
def tOpen : State := tWin.modWindow 0 1 fun _ =>
  { isOpen := true, local_ := 8192, length := 4096, segments := [{ present := true, dirty := true }] }

/-- A leader core that owns its accumulator, its follower beside it, with 40 names; a drain descriptor of one element at 0x200. -/
def tMat : State :=
  let s := (tLab ((List.range 40).map fun n => (n, tCell n))).modCore 0 fun k => { k with owner := some 0 }
  { s with
    panels := [{ size := 4096, status := .resident, started := true, teams := [0, 1] }]
    teams := [{ size := 4096, status := .resident, groups := [0], holds := true }, { index := 1, core := 1, size := 4096, status := .resident, holds := true }]
    mem := memWriteN [] (2 ^ 44 + 0x200 + 24) 8 (31 * 2 ^ 11) }

theorem witness_lane_access : (let c := tIssue (tLab tNames);
      c.Ready (tLab tNames) (memReads .always ⟨0, .core, 0, none, 0x10⟩) ((elementNames 20 4 false).map fun k => (.always, k)) [0] ∧
      ∃ xs, laneTargets (tLab tNames) c .always ⟨0, .core, 0, none, 0x10⟩ 16 false = .ok xs ∧ xs.length = 32) ∧
    (let c := tIssue tDie;
      c.Ready tDie (memReads .always ⟨6, .die, 0, none, 0⟩ ++ (elementNames 4 2 true).map fun k => ⟨.always, ⟨BitVec.ofNat 9 k, false⟩⟩) [] [6] ∧
      ∃ xs, laneTargets tDie c .always ⟨6, .die, 0, none, 0⟩ 16 true = .ok xs ∧ ∀ y ∈ xs, storeReady tDie c.g.team y.2.2.win 16 = true) ∧
    (let c := tIssue tOpen;
      c.Ready tOpen (memReads .always ⟨0, .win, 1, none, 0⟩ ++ readsOf .always (Ty.wide .n32) ⟨1, false⟩ ++ readsOf .always (Ty.wide .n32) ⟨2, false⟩)
        ((elementNames 20 1 (Ty.wide .n32)).map fun k => (.always, k)) [0] ∧
      ∃ xs, laneTargets tOpen c .always ⟨0, .win, 1, none, 0⟩ 4 true = .ok xs ∧ ∀ y ∈ xs, storeReady tOpen c.g.team y.2.2.win 4 = true) :=
  ⟨⟨ready_of (by decide), _, rfl, by decide⟩, ⟨ready_of (by decide), _, rfl, by decide⟩, ⟨ready_of (by decide), _, rfl, by decide⟩⟩

/-- The trap of the least participating lane whose access fails. -/
def tFault (s : State) (m : Mem) (n : Nat) (store : Bool) : Option Trap :=
  (tIssue s).lanes .always |>.findSome? fun y => accessFault s (tIssue s).g m.space m.win.toNat (laneAddr (tIssue s).g m y.1 y.2) n store

theorem first_of {s : State} {m : Mem} {n : Nat} {store : Bool} {t : Trap} (h : tFault s m n store = some t) :
    (tIssue s).FirstFault s .always m n store t := by
  obtain ⟨pre, y, post, h, ht, hp⟩ := List.findSome?_eq_some_iff.1 h
  exact ⟨pre, y, post, h, hp, ht⟩

/-- The open window with its only segment failed. -/
def tLost : State := tOpen.modSeg 0 1 0 fun _ => { failed := true }

theorem witness_access_faults :
    ((tIssue (tLab tNames)).FirstFault (tLab tNames) .always ⟨0, .core, 0, none, -16⟩ 4 false { cause := 7, arg := -16 } ∧
      (tIssue (tLab tNames)).FirstFault (tLab tNames) .always ⟨0, .core, 0, none, 0x12⟩ 16 true { cause := 7, arg := 0x12 }) ∧
    (let s := tLab [(1, tCell4 0 8 2 1)];
      (tIssue s).FirstFault s .always ⟨0, .core, 0, some ⟨1, false⟩, 0x10⟩ 4 false { cause := 7, arg := 0x12 } ∧
      (tIssue s).Ready s (memReads .always ⟨0, .core, 0, some ⟨1, false⟩, 0x10⟩ ++ readsOf .always false ⟨1, false⟩ ++ [])
        ((elementNames 20 1 false).map fun k => (.always, k)) [0]) ∧
    (let c := tIssue tOpen; let m : Mem := ⟨0, .win, 1, none, -1⟩;
      c.FirstFault tOpen .always m 2 true { cause := 8, arg := -1 } ∧
      accessFault tOpen c.g .win 1 0xFFF 2 true = some { cause := 8, arg := 0xFFF } ∧ accessFault tOpen c.g .win 1 0xFFE 2 true = none ∧
      accessFault tOpen c.g .win 1 0xFFD 2 true = some { cause := 7, arg := 0xFFD } ∧
      accessFault tOpen c.g .core 0 0x2000 4 false = some { cause := 8, arg := 0x2000 } ∧
      accessFault tLost (tIssue tLost).g .win 1 8 4 false = some { cause := 11, sub := 3, arg := 8 } ∧
      c.UniReady tOpen [5] [0] ∧ accessFault tOpen c.g (uniformSpace 0) 0 0x4000 8 false = some { cause := 7, arg := 0x4000 } ∧
      c.UniReady tOpen [] [0, 2] ∧ accessFault tOpen c.g (uniformSpace 0) 0 0x3FFC 8 true = some { cause := 7, arg := 0x3FFC }) :=
  ⟨⟨first_of (by decide), first_of (by decide)⟩, ⟨first_of (by decide), ready_of (by decide)⟩,
    first_of (by decide), by decide, by decide, by decide, by decide, by decide, uni_of (by decide), by decide, uni_of (by decide), by decide⟩

theorem witness_uniform_access : (let c := tIssue (tLab []);
      c.UniReady (tLab []) [5] [0] ∧ ∃ x, accessTarget (tLab []) c.g (uniformSpace 0) 0 8 8 false = .ok x) ∧
    (let c := tIssue tDie;
      c.UniReady tDie [] [6, 2] ∧ ∃ x, accessTarget tDie c.g (uniformSpace 2) 0 (c.g.g 6).toNat 8 true = .ok x ∧
        storeReady tDie c.g.team x.win 8 = true) :=
  ⟨⟨uni_of (by decide), _, rfl⟩, uni_of (by decide), _, rfl, rfl⟩

theorem witness_engine : let c := tIssue (tLab tNames); let m : Mem := ⟨0, .core, 0, none, 0x40⟩;
    let ws := namedWords (tLab tNames) c .always m fun _ => 0;
    descTrap (tLab tNames) c .always m 64 = none ∧ c.mustFollow (tLab tNames) .load (ws.map fun w => (w.2.1, 64)) = false ∧ ws.length = 1 ∧
    (freeSlots ((tLab tNames).core c.g.core)).length = 64 ∧ c.Ready (tLab tNames) (memReads .always m) [] [m.base] ∧
    c.Ready (tLab tNames) (memReads .always m) ((destNames true ⟨20, 1⟩).map fun k => (.always, k)) [m.base] :=
  ⟨by decide, by decide, by decide, by decide, ready_of (by decide), ready_of (by decide)⟩

theorem witness_windows : let c := tIssue tWin; let m : Mem := ⟨0, .core, 0, none, 0x20⟩;
    c.Ready tWin [] [] [m.base] ∧ c.lanes ⟨1, false⟩ = [] ∧
    (∃ lanes rest, namedAddrs c .always m (fun _ => 0) = (0x20, lanes) :: rest) ∧ reach tWin c.g m.space 0x20 16 false = .at (2 ^ 44 + 0x20) ∧
    windowOk (tWin.team c.g.team) 1 (windowOf tWin.mem (2 ^ 44 + 0x20) false) = true ∧
    c.mustFollow tWin .load [(2 ^ 44 + 0x20, 16)] = false ∧
    (let c := tIssue tOpen;
      c.Ready tOpen [] [] [m.base] ∧ (∃ lanes rest, namedAddrs c .always m (fun _ => 0) = (0x20, lanes) :: rest) ∧
      reach tOpen c.g m.space 0x20 8 true = .at (2 ^ 44 + 0x20) ∧ ((tOpen.team c.g.team).window 1).isOpen = true ∧
      ((tOpen.team c.g.team).window 1).closing = false ∧ freeSlots (tOpen.core c.g.core) ≠ []) :=
  ⟨ready_of (by decide), by decide, ⟨_, _, rfl⟩, by decide, by decide, by decide,
    ready_of (by decide), ⟨_, _, rfl⟩, by decide, by decide, by decide, by decide⟩

theorem witness_barrier_objects : let c := tIssue (tLab tNames); let m : Mem := ⟨0, .core, 0, none, 0x40⟩;
    c.Ready (tLab tNames) (memReads .always m ++ readsOf .always true ⟨4, false⟩) [] [m.base] ∧
    wordTrap (tLab tNames) c .always m (fun _ => 0) 8 true = none ∧
    (∀ k, k = AccessKind.store ∨ k = .rel →
      c.mustFollow (tLab tNames) k ((namedWords (tLab tNames) c .always m fun _ => 0).map fun w => (w.2.1, 8)) = false) ∧
    c.Ready (tLab tNames) (memReads .always m) [(.always, 20)] [m.base] ∧ wordTrap (tLab tNames) c .always m (fun _ => 0) 8 false = none ∧
    c.mustFollow (tLab tNames) .acq [] = false ∧ targetOk ((tLab tNames).codeOf c.g).2 (joinAddr c.pc 1) = true ∧
    c.Ready (tLab tNames) (memReads .always m) [] [m.base] :=
  ⟨ready_of (by decide), by decide, by rintro k (rfl | rfl) <;> decide, ready_of (by decide), by decide, by decide, by decide,
    ready_of (by decide)⟩

theorem witness_group_barriers : let c := tIssue (tLab []);
    issueOf (tLab []) = some c ∧ c.mustFollow (tLab []) .rel [] = false ∧ c.g.spawned = false ∧ c.lanes .always ≠ [] ∧ c.lanes ⟨1, false⟩ = [] :=
  ⟨issue_of (by decide), by decide, by decide, by decide, by decide⟩

theorem witness_matrix : let c := tIssue tMat; let m : Mem := ⟨0, .core, 0, none, 0x200⟩; let desc := drainDesc tMat c m;
    issueOf tMat = some c ∧ c.elected ⟨1, false⟩ = false ∧ c.elected .always = true ∧ c.g.core % 2 = 0 ∧
    c.failedReg [m.base] = none ∧ c.pending [m.base] = false ∧ (anchorOf c.g (.imm 0x8000) = -32768 ∧ anchorOf c.g (.imm 0x7FFF) = 32767) ∧
    (tMat.core c.g.core).owner = some c.g.team ∧ drainTrap tMat c m = none ∧ drainObjTrap tMat c m (desc.1.getD 0 0) = none ∧
    c.mustFollow tMat .load [(desc.2, 32)] = false ∧ namesTrap tMat c 400 (DrainDesc.of desc.1) = none ∧
    c.Ready tMat [] ((elementNames 400 (DrainDesc.of desc.1).cols false).map fun n => (.always, n)) ∧
    mpairTrap tMat c ⟨4, false⟩ ⟨0, false⟩ = none ∧ c.Ready tMat (mpairReads c.electedFmt ⟨4, false⟩ ⟨0, false⟩) [] ∧
    (∃ x, mpairHalves tMat c.g c.electedFmt 0 = .ok x) ∧ queuedPairs (tMat.core c.g.core) = 0 ∧
    ((tLab []).core 0).owner = none ∧ (tIssue (tLab [])).elected .always = true :=
  ⟨issue_of (by decide), by decide, by decide, by decide, by decide, by decide, by decide, by decide, by decide, by decide, by decide,
    by decide, ready_of (by decide), by decide, ready_of (by decide), ⟨_, rfl⟩, by decide, by decide, by decide⟩

theorem witness_spawn : let c := tIssue tClu; let m : Mem := ⟨5, .clu, 0, none, 0x40⟩;
    c.Ready tClu ((List.range 4).map fun e => (⟨.always, ⟨4 + BitVec.ofNat 9 e, false⟩⟩ : NameRead)) [] [5] ∧
    (∀ x ∈ c.lanes .always, counterTrap tClu c.g (joinOf c.g 5 false 0x40 (4 * x.1 + x.2)) true = none) ∧
    targetOk (tClu.codeOf c.g).2 (joinAddr c.pc 0) = true ∧ c.mustFollow tClu .rel [] = false ∧
    c.Ready tClu (memReads .always m) [] [m.base] ∧ joinTrap tClu c .always m true true = none ∧
    c.mustFollow tClu .store ((namedWords tClu c .always m (laneStride true)).map fun w => (w.2.1, 8)) = false ∧
    joinTrap tClu c .always m false false = none ∧ c.Ready tClu (memReads .always m) [(.always, 20)] [m.base] ∧
    c.mustFollow tClu .acq [] = false ∧ tClu.group c.gid = some c.g ∧ MemSafe tClu ∧ placeOf tClu c.g .clu 0x3000200 = some (2 ^ 45 + 0x200) ∧
    objCount (memReadN tClu.mem (2 ^ 45 + 0x200) 8) ≠ 2 ^ 48 - 1 ∧ ((c.g.slices.get 7).spawned.get 3).depth = 0 ∧
    regionFull tClu c.g.part c.g.core = false ∧
    (let s := tClu.setMem (memWriteN tClu.mem (2 ^ 45 + 0x200) 8 (2 ^ 48 - 1)); objCount (memReadN s.mem (2 ^ 45 + 0x200) 8) = 2 ^ 48 - 1) :=
  ⟨ready_of (by decide), by decide, by decide, by decide, ready_of (by decide), by decide, by decide, by decide, ready_of (by decide),
    by decide, by decide, by unfold MemSafe; decide, by decide, by decide, by decide, by decide, by decide⟩

theorem witness_edges : let c := tIssue tClu; let m : Mem := ⟨5, .clu, 0, none, 0⟩; let es := namedEdges tClu c .always m;
    c.Ready tClu (memReads .always m) [] [m.base] ∧ es.length = 1 ∧ listTrap tClu c .always m = none ∧ formTrap tClu c .always m = none ∧
    c.mustFollow tClu .load [(2 ^ 45, 12), (2 ^ 45 + 0x100, 8)] = false ∧ c.mustFollow tClu .store [(2 ^ 45 + 0x100, 8)] = false ∧
    cycleTrap tClu c.g es = none ∧ nameTaskTrap tClu c.g es = none ∧ notHeld tClu c.g es = none ∧ c.mustFollow tClu .acq [] = false ∧
    c.mustFollow tClu .rel [] = false :=
  ⟨ready_of (by decide), by decide, by decide, by decide, by decide, by decide, by decide, by decide, by decide, by decide, by decide⟩

theorem witness_broadcast : let c := tIssue (tLab tNames);
    c.Ready (tLab tNames) (readsOf .always true ⟨4, false⟩) [] ∧ c.mustFollow (tLab tNames) .rel [] = false :=
  ⟨ready_of (by decide), by decide⟩

theorem witness_system : (issueOf (tLab []) = some (tIssue (tLab [])) ∧ (tIssue (tLab [])).lanes .always ≠ [] ∧
      (tIssue (tLab [])).lanes ⟨1, false⟩ = [] ∧ (tIssue (tLab [])).g.priv = false) ∧
    issueOf tPriv = some (tIssue tPriv) ∧ (tIssue tPriv).g.priv = true ∧ (tIssue tPriv).g.pendingName = false ∧
    ∀ j ∈ (tIssue tPriv).g.liveSlices, ((tIssue tPriv).g.slices.get j).names = [] :=
  ⟨⟨issue_of (by decide), by decide, by decide, by decide⟩, issue_of (by decide), by decide, by decide, by decide⟩

theorem witness_lane_addresses : ∃ xs, laneTargets (tLab tNames) (tIssue (tLab tNames)) .always ⟨0, .core, 0, some ⟨1, false⟩, 0x10⟩ 2 false =
    .ok xs ∧ xs.length = 32 := ⟨_, rfl, by decide⟩

/-- The premises of `AccessesArePerformed` as a check. -/
def tPerformable (s : State) (id : Nat) : Bool :=
  s.mem.wf && match tabGet? s.flights id with
  | none => false
  | some f => match s.group f.group with
    | none => false
    | some g => !f.performed && !mustFollow s f.group id f.kinds [(f.addr, f.size)] && !flightFailed s g f && flightPresent s g f

theorem witness_access : ∀ op ∈ [FlightOp.load 20 1 .f32, .gload 5 true, .store 7, .atom .add .n32 1 0 20 0, .fence],
    tPerformable (tFlying op) 0 = true := by decide

/-- An access whose data have come. -/
def tArrived (op : FlightOp) : State :=
  { tFlying op with flights := [(0, { group := 0, instr := 0, addr := 2 ^ 44 + 16, size := 4, op := op, performed := true })] }

theorem witness_arrival : ∀ op ∈ [FlightOp.load 20 1 .f32, .gload 5 true, .gload 0 false], ∃ f g,
    tabGet? (tArrived op).flights 0 = some f ∧ (tArrived op).group f.group = some g ∧ f.performed = true ∧ f.failed = none := by
  intro op h
  simp only [List.mem_cons, List.not_mem_nil, or_false] at h
  rcases h with rfl | rfl | rfl <;> exact ⟨_, _, rfl, rfl, rfl, rfl⟩

/-- The lab in a handler that has laid aside `g60` to `g63`. -/
def tAside (f : Flight) : State := { tPriv with flights := [(0, f)] }

theorem witness_arrival_cases :
    (∀ op ∈ [FlightOp.gload 60 true, .gload 63 false], let f : Flight := { group := 0, instr := 0, op := op, performed := true };
      ∃ g, (tAside f).group 0 = some g ∧ f.slice < 8 ∧ f.aside g 60 = true ∧ f.aside g 59 = false ∧ { f with priv := true }.aside g 60 = false) ∧
    (∀ op ∈ [FlightOp.load 20 4 .n64, .load 1 1 .s8, .atom .add .n32 1 0 20 0], ∃ f g,
      tabGet? (tArrived op).flights 0 = some f ∧ (tArrived op).group f.group = some g ∧ f.performed = true ∧ f.slice < 8 ∧ f.failed = none) ∧
    (∃ g, (tLab [(1, { full := false, producer := 0 })]).group 0 = some g ∧
      ∃ k, (g.slices.get 0).cell 1 = some k) := by
  refine ⟨?_, ?_, ?_⟩
  · decide
  · intro op h
    simp only [List.mem_cons, List.not_mem_nil, or_false] at h
    rcases h with rfl | rfl | rfl <;> exact ⟨_, _, rfl, rfl, rfl, by decide, rfl⟩
  · exact ⟨_, rfl, _, rfl⟩

/-- The lab with name 1 spilled and wanted, waiting for a floor raise, for its reservation and for its payload by turns. -/
def tStore (f : Group → Group) : State :=
  (tLab [(1, { tCell 5 with spilled := true })]).modGroup 0 fun g => f { g with wants := [(0, 1)] }

theorem witness_store_events :
    (MemSafe (tLab []) ∧ ∃ g c, (tLab [(1, { tCell 5 with spilling := true, spillFor := some (0, 0) })]).group 0 = some g ∧
      (g.slices.get 0).cell 1 = some c ∧ c.spilling = true ∧ c.spillFor = some (0, 0)) ∧
    (grantHolds (tLab []) 0 0 = true ∧ grantHolds (tLab []) 0 1 = false ∧
      grantHolds ((tLab []).modGroup 0 fun g => { g with status := .saved }) 0 0 = false) ∧
    (∃ g c, (tLab [(1, { tCell 5 with full := false, spilling := true })]).group 0 = some g ∧ (g.slices.get 7).cell 1 = some c ∧
      c.spilling = true ∧ c.full = false ∧ c.spilled = false) ∧
    (∃ g c, (tLab [(1, { tCell 5 with spilling := true })]).group 0 = some g ∧ (g.slices.get 7).cell 1 = some c ∧ c.spilling = true ∧
      c.spillFor = none ∧ c.failed = none) ∧
    (∃ g c, (tStore id).group 0 = some g ∧ (g.slices.get 0).cell 1 = some c ∧ c.spilled = true ∧ c.full = true ∧ (0, 1) ∈ g.wants ∧
      0 < cellsFor (tStore id) g.core 0 0 ∧ (g.waits.any fun w => w.kind.wakesOn 2) = false) ∧
    (∃ w, let s := tStore fun g => { g with waits := [w] };
      (∃ g, s.group 0 = some g ∧ (g.slices.get 0).floors = [0] ∧ g.status = .live ∧ (g.waits.any fun w => w.kind.wakesOn 6) = false ∧
        g.raiseWait 0 = some w ∧
        min 3009 ((s.core g.core).vsLimit - reservedIn s g.core 0 fun h => h.team == g.team) = 3008) ∧
      w.kind = .floorRaise 3009 ∧ reservedIn s 0 0 (fun _ => true) + 3008 = (s.core 0).vsLimit) ∧
    (let s := tStore fun g => { g with unreserved := true, rereserve := some 0 };
      ∃ g, s.group 0 = some g ∧ g.resident 0 = true ∧ g.rereserve = some 0 ∧ s.groups.length = 1 ∧
        ∀ j, j < 8 → reservedIn s 0 j (fun _ => true) + reservationOf s { g with unreserved := false } j ≤ (s.core 0).vsLimit) ∧
    (let s := (tLab []).modGroup 0 fun g => { g.modSlice 7 fun sl => { sl with names := [(3, { full := false, spilled := true })] } with payload := true };
      ∃ g c, s.group 0 = some g ∧ g.payload = true ∧ g.status = .live ∧ (g.slices.get 7).payloadWaits = [3] ∧
        (g.slices.get 7).cell 3 = some c ∧ (∀ j, j < 8 → j ≠ 7 → (g.slices.get j).payloadWaits = []) ∧ 0 < cellsFor s g.core 0 7 ∧
        (g.waits.any fun w => w.kind.wakesOn 3) = false) :=
  ⟨⟨by unfold MemSafe; decide, _, _, rfl, rfl, by decide, by decide⟩, by decide, ⟨_, _, rfl, rfl, by decide, by decide, by decide⟩,
    ⟨_, _, rfl, rfl, by decide, by decide, by decide⟩,
    ⟨_, _, rfl, rfl, by decide, by decide, by decide, by decide, by decide⟩,
    ⟨{ slices := 1, pc := 0, next := 0, kind := .floorRaise 3009 }, ⟨_, rfl, by decide, by decide, by decide, by decide, by decide⟩, by decide,
      by decide⟩,
    ⟨_, rfl, by decide, by decide, by decide, by decide⟩,
    ⟨_, _, rfl, by decide, by decide, by decide, rfl, by decide, by decide, by decide⟩⟩

theorem witness_trap_events : ∃ g, (tLab []).group 0 = some g ∧ g.status = .live ∧ g.liveSlices ≠ [] ∧ g.priv = false ∧
    requestCause 12 1 = true ∧ requestCause 13 0 = true ∧ requestCause 11 6 = true ∧ requestCause 11 5 = false ∧ requestCause 4 0 = false ∧
    g.gangSlices (g.slices.get 7).gang ≠ [] ∧ teamReady (tLab []) { g with wantDebug := true } 13 = true ∧
    teamReady (tLab []) { g with wantPreempt := true } 12 = true ∧
    teamReady ({ (tLab []).modGroup 0 fun g => { g with priv := true, wantDebug := true } with
      grids := (tLab []).grids.map fun d => { d with cmd := { d.cmd with determ := true } } }) g 13 = false :=
  ⟨_, rfl, by decide, by decide, by decide, by decide, by decide, by decide, by decide, by decide, by decide, by decide, by decide,
    by decide⟩

/-- The lab a second after its panel's quantum began. -/
def tLate : State := { tLab [] with gtime := 1000000000 }

/-- The lab whose group waits on a counter that has come to 0. -/
def tParked : State := ((tClu.modTeam 0 fun t => { t with status := .parked }).modGroup 0 fun g =>
  { g with status := .away, waits := [{ slices := 0xFF, pc := 0, next := 12, kind := .objects [⟨.clu, 0x3000800, 1, false, 0⟩] none true false }] })

theorem witness_distributor :
    (let s := (tLab []).modGrid 0 fun d => { d with status := .waiting, dies := [] };
      ∃ d, s.grids[0]? = some d ∧ d.status = .waiting ∧ d.ended = false ∧ (freeDies s d.part).length = 1 ∧ d.cmd.minDies = 1) ∧
    (let s := ({ tLab [] with groups := [], teams := [] } : State).modPanel 0 fun p => { p with status := .waiting, started := false, teams := [] };
      let t := s.modDie 0 fun d => { d with queue := [0] };
      ((reserveDie t 0).die 0).stopped = false ∧ (coresOf 0).any (leavesFirst (reserveDie t 0)) = false ∧ admitsFirst (reserveDie t 0) 0 = false ∧ (chooseEntry (reserveDie t 0) [] ((reserveDie t 0).die 0).queue).isSome = true) ∧
    (∃ x, tabGet? tLate.parts (tLate.panel 0).part = some x ∧ (tLate.panel 0).status = .resident ∧
      quantumStart tLate 0 + x.cfg.quantum ≤ tLate.gtime.toNat ∧ (tLate.die 0).queue = []) ∧
    (((tLab []).modPanel 0 fun p => { p with status := .saving }).panel 0).status = .saving ∧
    ((tLate.modDie 0 fun d => { d with queue := [1] }).die (tLate.panel 0).die).queue ≠ [] ∧
    (let s := ((tLab []).modGroup 0 fun g => { g with status := .saved }).modTeam 0 fun t => { t with status := .saving };
      ((s.team 0).groups.filterMap s.group).filter Group.counts ≠ [] ∧ (s.team 0).dirty = false ∧ teamQuiet s 0 = true) ∧
    (tOpen.team 0).dirty = true ∧
    (let s := (tLab []).modGroup 0 fun g => { g with status := .retired };
      (∀ g ∈ (s.team 0).groups.filterMap s.group, g.status = .retired) ∧ (s.team 0).groups.filterMap s.group ≠ [] ∧
        (s.team 0).status = .resident ∧ (s.team 0).dirty = false ∧ teamQuiet s 0 = true) ∧
    ((tParked.team 0).status = .parked ∧ (tParked.panel (tParked.team 0).panel).status = .resident ∧ leavesFirst tParked 0 = false ∧
      (∃ g a, tParked.group 0 = some g ∧ placeOf tParked g .clu 0x3000800 = some a ∧ objCount (memReadN tParked.mem a 8) = 0) ∧
      ∃ c, tParked.launchOf (((tParked.team 0).groups.filterMap tParked.group).headD {}) = some c ∧
        (restoreTeam c (tParked.modTeam 0 fun t => { t with holds := false, kept := memCut tParked.mem (coreMem t.core + t.base) t.size })
          (0, (tParked.team 0).core)).isSome = true) :=
  ⟨⟨_, rfl, by decide, by decide, by decide, by decide⟩, ⟨by decide, by decide, by decide⟩, ⟨_, rfl, by decide, by decide, by decide⟩, by decide,
    by decide, ⟨by decide, by decide, by decide⟩, by decide, ⟨by decide, by decide, by decide, by decide, by decide⟩,
    ⟨by decide, by decide, by decide, ⟨_, _, rfl, rfl, by decide⟩, ⟨_, rfl, by decide⟩⟩⟩

/-- A move of 16 bytes from `core` address 0x100 to 0x200, in slot 63 of core 0. -/
def tOp : EngineOp := { kind := .move, group := 0, team := 0, desc := [0x40, 0x100, 0x200, 0, 1 + 16 * 2 ^ 32, 0, 0, 0] }
/-- The lab with an operation in slot 63. -/
def tEngine (o : EngineOp) : State := (tLab []).modCore 0 fun k => { k with engine := [(63, o)] }

/-- The same operation started, its row in two units; the first has what is given of its source. -/
def tMoving (x : Piece) : EngineOp :=
  let dst (n : Nat) : Piece := { isGlobal := false, addr := 2 ^ 44 + 0x200 + n, len := 8 }
  { tOp with started := true, left := 16
             units := [{ row := 0, src := [x], dst := dst 0, count := 8 }, { row := 0, src := [{ x with st := .todo }], dst := dst 8, count := 8 }] }

/-- The open window with its segment 0 in other states; virtual page 0 is physical page 0 on the die. -/
def tSeg (x : Segment) (f : Window → Window) : State :=
  (tOpen.modWindow 0 1 fun w => f { w with segments := [x] }).modDie 0 fun d => { d with tlb := [⟨0, 1, 0, true⟩] }

theorem witness_engine_events :
    (∀ o ∈ [tOp, { tOp with desc := [] }, { tOp with desc := [0x40, 0x100, 0x7FFF8, 0, 1 + 16 * 2 ^ 32, 0, 0, 0] }, { tOp with kind := .wflush },
      { tOp with kind := .wclose }],
      tabGet? ((tEngine o).core 0).engine 63 = some o ∧ o.started = false ∧
      (((tEngine o).core 0).engine.find? fun e => !e.2.started) = some (63, o) ∧ fillsWait (tEngine o) 0 = false ∧
      mustFollow (tEngine o) o.group o.mark [.fence] [] = false) ∧
    (∃ g, (tEngine tOp).group 0 = some g ∧ tOp.valid = true ∧ rangeError (tEngine tOp) g tOp = 0 ∧
      ({ tOp with desc := [] } : EngineOp).valid = false ∧
      rangeError (tEngine tOp) g { tOp with desc := [0x40, 0x100, 0x7FFF8, 0, 1 + 16 * 2 ^ 32, 0, 0, 0] } = 2) ∧
    (∀ x ∈ [({ isGlobal := false, addr := 2 ^ 44 + 0x100, len := 8 } : Piece), { isGlobal := true, addr := 0x100, len := 8 }],
      let o := tMoving x; let s := (tEngine o).modDie 0 fun d => { d with tlb := [⟨0, 1, 0, true⟩] };
      o.started = true ∧ o.stalled = false ∧ o.kind ≠ .gatom ∧
      (∃ g u, s.group o.group = some g ∧ o.units[0]? = some u ∧ u.dst.st = .todo ∧ u.dst.isGlobal = false ∧
        u.src.findIdx? (fun x => x.st == .todo) = some 0 ∧ u.src[0]? = some x ∧ translate s g.part 0 0x100 false = .phys 0x100)) ∧
    (let o := tMoving { isGlobal := false, addr := 2 ^ 44 + 0x100, len := 8, st := .done, got := [1] }; let s := tEngine o;
      ∃ g u v, s.group o.group = some g ∧ o.units[0]? = some u ∧ (∀ x ∈ u.src, x.st = .done) ∧ o.overlaps = false ∧ o.expand = 0 ∧
        o.units[1]? = some v ∧ v.dst.st = .todo ∧ 0 < u.count ∧ (placeOf s g o.objSpace o.objAddr).isSome = true) ∧
    (let s := tSeg { filling := true } id;
      ((s.team 0).window 1).seg 0 = { filling := true } ∧ fillHeld s { filling := true } = false ∧ translate s 0 0 0 false = .phys 0 ∧ homeDie 0 = 0) ∧
    (let s := tSeg { present := true, writing := true } id;
      ((s.team 0).window 1).seg 0 = { present := true, writing := true } ∧ translate s 0 0 0 true = .phys 0 ∧ (s.core 0).engine = [] ∧
      s.flights = [] ∧ (s.core 0).fixups.length < Config.fixupEntries ∧ fillHeld s { present := true, writing := true } = false ∧
      ((s.team 0).window 1).closing = false) ∧
    (let s := (tSeg { present := true } fun w => { w with closing := true }).modCore 0 fun k =>
        { k with engine := [(63, { tOp with kind := .wclose, win := 1, started := true })] };
      ((s.core 0).engine.find? fun e => e.2.team == 0 && e.2.win == 1 && e.2.kind == .wclose) =
        some (63, { tOp with kind := .wclose, win := 1, started := true }) ∧
      ((s.team 0).window 1).closing = true ∧ (∀ g ∈ ((s.team 0).window 1).segments, g.filling = false ∧ g.writing = false) ∧ s.flights = []) :=
  ⟨by decide, ⟨_, rfl, by decide, by decide, by decide, by decide⟩,
    fun x h => by
      simp only [List.mem_cons, List.not_mem_nil, or_false] at h
      rcases h with rfl | rfl <;> exact ⟨by decide, by decide, by decide, ⟨_, _, rfl, rfl, by decide, by decide, by decide, rfl, by decide⟩⟩,
    ⟨_, _, _, rfl, rfl, by decide, by decide, by decide, rfl, by decide, by decide, by decide⟩, by decide, by decide, by decide⟩

/-- The leader core with a matrix instruction in its queue. -/
def tQueue (o : MatOp) : State := tMat.modCore 0 fun k => { k with matrix := [o] }

theorem witness_matrix_events :
    (∃ g, tMat.group 0 = some g ∧ mustFollow tMat 0 0 [.fence] [] = false ∧
      (∀ o ∈ [MatOp.pair 0 0 0 0 [] [] 0 0 1 (0 + 1), .pair 0 0 0 0 [] [] 0 0 1 (1 + 1), .drain 0 0 0 0 [] (some (400, 1)) .core 0,
          .drain 0 0 0 0 [] none .core 0, .add 0 0 0 0 [] .core 0, .release 0],
        ((tQueue o).core 0).matrix = o :: []) ∧
      drainError tMat g (DrainDesc.of [0, 0x400, 0, 0]) (fmtOut 0) (List.range 7) = 0 ∧
      drainError tMat g (DrainDesc.of [0, 0x402, 0, 0]) (fmtOut 0) (List.range 7) = 1 ∧
      drainError tMat g (DrainDesc.of [0, 0x1000, 0, 0]) (fmtOut 0) (List.range 7) = 2 ∧
      drainError tMat g (DrainDesc.of [0, 0x400, 0, 0]) (fmtOut 0) [0, 1, 2, 5, 6] = 0 ∧ outTy (fmtOut 0) ≠ .t96 ∧
      (∃ fmt, outTy (fmtOut fmt) = .t96 ∧ drainError tMat g (DrainDesc.of [0, 0x400, 0, 0]) (fmtOut fmt) [0, 1, 2, 5, 6] = 0)) ∧
    (tMat.core 0).owner = some 0 ∧ ∀ ea, MatOp.zero ea ∉ ([] : List MatOp) :=
  ⟨⟨_, rfl, by decide, by decide, by decide, by decide, by decide, by decide, by decide, BitVec.ofNat 32 (6 * 2 ^ 18), by decide, by decide⟩,
    by decide, by simp⟩

/-- A message of die 1 for die 0, the first of its origin. -/
def tMessage : Message := { origin := 1, home := 0, stamp := (List.replicate 12 0).set 1 1, addr := 64, bytes := [some 7] }
/-- A read of die 1 from die 0. -/
def tRead : CrossRead := { reader := 1, home := 0, clock := (List.replicate 12 0).set 0 5, addr := 0, len := 8, owner := .fill 0 1 0 }

/-- The lab with page 5 being walked at the level of its leaf, which maps it to frame 8. -/
def tWalk (f : Nat) : State :=
  { (tLab []).modDie 0 fun d => { d with walks := [{ page := 5, level := 0, table := 0x3000 }] } with
    mem := memWriteN [] 0x3028 8 0x8007, freeCount := f }

theorem witness_die_events :
    (let s := tWalk 0; let w : PageWalk := { page := 5, level := 0, table := 0x3000 };
      ((s.die 0).walks.find? fun w => w.page == 5) = some w ∧ (partOfDie s 0).isSome = true ∧ w.asleep = false ∧
      walkStart { cfg := State.onePart } 5 = none ∧ walkStart { cfg := State.onePart } (2 ^ 36) = some (.fault 4) ∧
      homeDie (groupAddr 0x3000 5 0) = 0 ∧ homeDie (groupAddr (2 ^ 37) 5 0) = 1 ∧
      walkEntry State.onePart s.walkFirst 5 0 (memBytes s.mem (groupAddr 0x3000 5 0) 128) = .done (.page ⟨5, 1, 8, true⟩) ∧
      ∀ k ∈ knownCores s 0, (s.core k).fixups = []) ∧
    (let s := { (tLab []).modDie 0 fun d => { d with faults := [⟨5, 0, 1, 0⟩] } with
        parts := [(0, { cfg := { State.onePart with faultTimeout := 1000000 } })], gtime := 1000000 };
      ∃ p f, partOfDie s 0 = some p ∧ p.cfg.faultTimeout ≠ 0 ∧ f ∈ (s.die 0).faults ∧ f.page = 5 ∧
        f.since + p.cfg.faultTimeout = s.gtime.toNat ∧ (∀ k ∈ knownCores s 0, (s.core k).fixups = []) ∧ answeredNow s 0 5 = false ∧
        answeredNow { s with agenda := [.faultAnswerResolve { session := 0, seq := 1, tagOk := true, opcode := 0x32 } 0 5] } 0 5 = true) ∧
    (let s := (tLab []).modDie 0 fun d => { d with inbox := [tMessage] };
      ((s.die 0).inbox.find? fun m => m.origin == 1) = some tMessage ∧ tMessage.stamp.getD 1 0 = (s.die 0).clock.getD 1 0 + 1 ∧
      (∀ k, k < 12 → k ≠ 1 → tMessage.stamp.getD k 0 ≤ (s.die 0).clock.getD k 0)) ∧
    (let s := ((tLab []).modDie 0 fun d => { d with requests := [tRead] }).modDie 1 fun d =>
        { d with responses := [{ tRead with clock := (List.replicate 12 0).set 1 9 }] };
      (s.die 0).requests[0]? = some tRead ∧ (∀ k, k < 12 → k ≠ 0 → tRead.clock.getD k 0 ≤ (s.die 0).clock.getD k 0) ∧
      ∃ r, (s.die 1).responses[0]? = some r ∧ ∀ k, k < 12 → k ≠ 1 → r.clock.getD k 0 ≤ (s.die 1).clock.getD k 0) :=
  ⟨⟨by decide, by decide, rfl, by decide, by decide, by decide, by decide, rfl, by decide⟩,
    ⟨_, ⟨5, 0, 1, 0⟩, rfl, by decide, by decide, rfl, by decide, by decide, by decide, by decide⟩, ⟨by decide, by decide, by decide⟩, ⟨by decide, by decide, _, rfl, by decide⟩⟩

/-- A spawned thread of the lab's launch. -/
def tThread : Thread := { grid := 0, panel := 0, entry := 0, prio := 4, depth := 1, join := none, payload := [], uses := 0 }
/-- Its gather class, timed out. -/
def tGather : Gather := { grid := 0, panel := 0, entry := 0, prio := 4, last := 0, expired := true }
/-- The lab with two such threads on core 0, 256 cycles after the later one. -/
def tSpawn : State := ((tLab []).modCore 0 fun k => { k with threads := [tThread, tThread], overflow := 1, gathers := [tGather] }).modCluster 0
  fun k => { k with cycles := 256, boundQueue := [⟨0, 0, 7, false, true, 5⟩], boundLog := [(7, 5)] }
/-- The same with its value store taken up and its group waiting in `jwait`. -/
def tFull0 : State := (tSpawn.modCore 0 fun k => { k with vsLimit := 64 }).modGroup 0 fun g =>
  { g with waits := [{ slices := 0xFF, pc := 0, next := 12, kind := .objects [⟨.clu, 0x3000800, 1, false, 0⟩] none true false }] }

theorem witness_spawn_bound :
    (0 < (tSpawn.core 0).overflow ∧ (tSpawn.core 0).threads.length - (tSpawn.core 0).overflow < 2048) ∧
    ((tSpawn.core 0).gathers[0]? = some tGather ∧ tGather.last + 256 = (tSpawn.cluster (clusterOfCore 0)).cycles.toNat ∧
      nextClass tSpawn 0 = some tGather ∧ (∃ rest, freeGroupSlots tSpawn 0 = 1 :: rest) ∧ admits tSpawn 0 0 = true) ∧
    (parkVictim tFull0 0 = some 0 ∧ canForm tFull0 0 tGather = true ∧ slotsAndCells tFull0 0 0 = false ∧
      atSwitch tFull0 0 0 = true) ∧
    (idleCore tFull0 1 = true ∧ victimOf tFull0 1 = some 0 ∧ nextClass tFull0 0 = some tGather ∧ admits tFull0 0 0 = false ∧
      ∀ k, k < 1 → clusterOfCore k = clusterOfCore 1 → idleCore tFull0 k = true → victimOf tFull0 k ≠ some 0) ∧
    (tSpawn.cluster 0).boundQueue = [⟨0, 0, 7, false, true, 5⟩] ∧
    (tSpawn.cluster (clusterOfCore 95)).boundLog[(tSpawn.core 95).mirrorPos]? = some (7, 5) :=
  ⟨by decide, ⟨by decide, by decide, by decide, ⟨_, rfl⟩, by decide⟩, by decide, by decide, by decide, by decide⟩

theorem witness_token_cycle : (tLab []).powered = true ∧ clockRuns (passTime (tLab []) 5) 0 = true ∧
    clockRuns (passTime ((tLab []).modDie 0 fun d => { d with stopped := true }) 5) 1 = false ∧ ((tLab []).core 0).holding = 256 ∧
    (((tLab []).gtime.toNat : Int) < (5 : BitVec 64).toNat + (tLab []).offset) ∧ (tLab []).correction = 0 ∧
    (((5 : BitVec 64).toNat : Int) + (tLab []).offset + max (tLab []).correction 0 < 2 ^ 64) ∧
    (((5 : BitVec 64).toNat : Int) + ({ tLab [] with gtime := 5 } : State).offset ≤ ({ tLab [] with gtime := 5 } : State).gtime.toNat) ∧
    (0 < (tLab []).cores.length ∧ ∀ k ∈ (tLab []).cores, 3072 ≤ k.2.vsLimit) ∧
    (∀ r ∈ (tLab []).recordings, ∀ x ∈ r.raised, clusterOfCore x.core ≠ 0) := by decide

/-- The lab after a boot that accepted all its signed records. -/
def tBoot : State := { tLab [] with boot := { accepted := List.replicate 5 true } }

/-- The lab whose only group waits for itself since 0, ten milliseconds later. -/
def tStuck : State :=
  { ((tLab []).modGroup 0 fun g => { g with waits := [{ slices := 0xFF, pc := 0, next := 12, kind := .regang 5 }] }).modGrid 0 fun d =>
      { d with stuck := some 0 } with
    parts := [(0, { cfg := { State.onePart with watchdog := 10000000 } })], gtime := 10000000 }

theorem witness_clock_and_power :
    (let s := { (tLab []).modCluster 1 fun k => { k with idle := some 0 } with gtime := 1000000 };
      (s.cluster 1).idle = some 0 ∧ (s.cluster 1).gated = false ∧ clusterIdle s 1 = true ∧
        (∃ p, ownerOf s (dieOfCluster 1) = some 0 ∧ tabGet? s.parts 0 = some p ∧ 0 + p.cfg.idle = s.gtime.toNat) ∧
        ownerOf s (dieOfCluster 2) = none ∧ clusterIdle s 2 = true) ∧
    clockRuns (tLab []) 0 = true ∧ (tBoot.recordOk 2 = true ∧ (tLab []).recordOk 2 = false ∧ tBoot.flash.domain = 0 ∧
      ((1000000 : Nat) : Int) - tBoot.gtime.toNat ≤ 1000000 ∧ 1000000 < ((1000001 : Nat) : Int) - tBoot.gtime.toNat ∧
      tBoot.inHoldover = false ∧ tBoot.relocking = false) ∧
    (let s := { tLab [] with gtime := 2000000000 }; s.inHoldover = false ∧ s.lastSync + 2000000000 = s.gtime.toNat) ∧
    (let s := tLab []; ringDraw (totalRate s - (s.cluster 23).rate + 518417) + totalStacks s + 500000 = 1000 * s.watts ∧
      1000 * s.watts < ringDraw (totalRate s - (s.cluster 23).rate + 518418) + totalStacks s + 500000 ∧
      ringDraw (totalRate s) < ringDraw (totalRate s - (s.cluster 23).rate + 518418) ∧
      ringDraw (totalRate s) + (totalStacks s - stackDraw (tabGet s.windows 16 23) + stackDraw 256) + 500000 ≤ 1000 * s.watts ∧
      0 ∈ s.flash.board.ports ∧ 24 ∉ s.flash.board.ports ∧ s.recordOk 3 = false ∧ tBoot.recordOk 3 = true ∧
      0 ∈ tBoot.flash.board.ports ∧ 24 ∉ tBoot.flash.board.ports) ∧
    (∃ d p, tStuck.grids[0]? = some d ∧ tabGet? tStuck.parts d.part = some p ∧ d.stuck = some 0 ∧ p.cfg.watchdog ≠ 0 ∧
      0 + p.cfg.watchdog = tStuck.gtime.toNat ∧ contextStuck tStuck 0 = true ∧ onStoppedDie tStuck 0 = false) :=
  ⟨⟨by decide, by decide, by decide, ⟨_, by decide, rfl, by decide⟩, by decide, by decide⟩, by decide, by decide, by decide, by decide,
    ⟨_, _, rfl, rfl, by decide, by decide, by decide, by decide, by decide⟩⟩

theorem witness_thermal : (let x := (diodeOf (tLab []) (.cluster 23)).2.2;
      diodeNext x 0 94 = 0 ∧ diodeNext x 0 95 = 1 ∧ diodeNext x 0 115 = 3 ∧ diodeNext x 3 110 = 3 ∧ diodeNext x 3 109 = 2) ∧
    (tLab []).powered = true ∧ (0 : Int) ≤ (Flash.clusterLimits {}).hyst ∧ (tLab []).gtime.toNat < pollDue (tLab []) 23 ∧
    pollDue { tLab [] with gtime := 100000 } 23 = 100000 ∧
    (let s := { (tLab []).modDie 0 fun d => { d with stopped := true } with diodes := [(0, 3), (1, 2)], hot := [1, 0] };
      dieHot (s.poll 0 true ⟨95, 105, 115, 5⟩ 109) 0 = true ∧
        dieHot ((s.poll 0 true ⟨95, 105, 115, 5⟩ 109).poll 1 true ⟨95, 105, 115, 5⟩ 109) 0 = false) := by
  decide

theorem witness_errors_and_boot : (tLab []).powered = true ∧
    (let s := { tLab [] with rows := [(5, { times := [0, 0], copying := true })] }; (tabGet s.rows {} 5).copying = true) ∧
    (tabGet (tLab []).rows {} 5).times = [] ∧ ((tLab []).rows.filter fun r => rowDie r.1 == rowDie 5 && !r.2.times.isEmpty).length = 0 ∧
    (tabGet ({ tLab [] with rows := [(5, { times := [0, 0] })] } : State).rows {} 5).times ≠ [] ∧ 569 ≤ (tLab []).watts ∧
    State.reset.powered = false ∧ (bootFrom State.reset.flash []).failed = true := by decide

/-- The lab with a session of its partition, one of the package, and a page table that maps virtual page 5 to frame 8. -/
def tHost : State :=
  { tLab [] with
    sessions := [{ target := some 0 }, {}]
    mem := memWriteN (memWriteN (memWriteN (memWriteN [] 0 8 0x1001) 0x1000 8 0x2001) 0x2000 8 0x3001) 0x3028 8 0x8007 }
/-- The first message of the partition's session, and of the package's. -/
def tHdr (opcode : Nat) : CmdHdr := { session := 0, seq := 1, tagOk := true, opcode := opcode }
def tPackHdr (opcode : Nat) : CmdHdr := { session := 1, seq := 1, tagOk := true, opcode := opcode }

/-- An opening of a session of that partition, or of the package. -/
def tOpening (part : Option Nat) : CmdHdr := { session := 0, seq := 1, tagOk := true, opcode := 1, part := part }

theorem accepted_host (op : Nat) : ForPartition (tHdr op) tHost { target := some 0 } 0 { cfg := State.onePart } :=
  { up := by decide, session := by rfl, isOpen := rfl, staysOpen := rfl, tagOk := rfl, next := rfl, fresh := by simp, idle := by decide,
    header := by simp [headerOk, tHdr], bound := .inl rfl, target := rfl, partition := by decide }

theorem accepted_package (op : Nat) : Accepted (tPackHdr op) tHost {} :=
  { up := by decide, session := by rfl, isOpen := rfl, staysOpen := rfl, tagOk := rfl, next := rfl, fresh := by simp, idle := by decide,
    header := by simp [headerOk, tPackHdr], bound := .inl rfl }

theorem grid_host (op : Nat) : ∃ d, ForGrid (tHdr op) tHost { target := some 0 } 0 { cfg := State.onePart } 1 0 d :=
  ⟨_, { accepted_host op with live := by rfl, grid := rfl }⟩

theorem witness_sessions : (tHost.up = true ∧ (tHost.sessions.filter fun x => x.isOpen).length = 2 ∧
      (∃ p, tabGet? tHost.parts 0 = some p) ∧ Accepted (tPackHdr 2) tHost {} ∧ tHost.pending = []) ∧
    (let s := { tHost with pending := [⟨0, 0x30, .page 0 5 1 0x8000 4096⟩] };
      Arrives (tHdr 0x22) s { target := some 0 } ∧ busyUnit s (some 0) = some 0 ∧ ∃ p ∈ s.pending, p.session = (tHdr 0x22).session) ∧
    (Arrives (tHdr 0x22) tHost { target := some 0 } ∧ busyUnit tHost (some 0) = none ∧
      (∀ h ∈ [({ tHdr 0x22 with version := 2 } : CmdHdr), tHdr 0x23, { tHdr 0x22 with length := 2 ^ 24 + 1 }], headerOk h 0x22 = false) ∧
      headerOk { tHdr 0x22 with part := some 7 } 0x22 = true) ∧
    (let s := { tHost with sessions := List.replicate 64 {} }; s.up = true ∧ (s.sessions.filter fun x => x.isOpen).length = 64) ∧
    (∀ h ∈ [tOpening none, tOpening (some 0)], h.tagOk = true ∧ h.seq = 1 ∧ headerOk h 1 = true ∧ headerOk { h with version := 2 } 1 = false ∧
      headerOk { h with opcode := 2 } 1 = false ∧ headerOk { h with length := 2 ^ 24 + 1 } 1 = false) ∧
    (tOpening none).part = none ∧ ({ tHost with boot := tBoot.boot } : State).recordOk 2 = true ∧
    (tOpening (some 0)).part = some 0 :=
  ⟨⟨by decide, by decide, ⟨_, rfl⟩, accepted_package 2, rfl⟩,
    ⟨{ accepted_host 0x22 with up := by decide, session := by rfl }, by decide, ⟨_, List.mem_singleton_self _, rfl⟩⟩,
    ⟨(accepted_host 0x22).toArrives, by decide, by decide, by decide⟩, ⟨by decide, by decide⟩, by decide, rfl, by decide, rfl⟩

theorem witness_bad_commands : ∀ h ∈ [({ tHdr 0x20 with tagOk := false } : CmdHdr), { tHdr 0x20 with seq := 2 }, { tHdr 0x20 with seq := 0 }],
    tHost.up = true ∧ tHost.sessions[h.session]? = some { target := some 0 } ∧
      (h.tagOk = false ∨ h.seq ≠ (0 : Nat) + 1 ∧ h.seq ∉ ({} : Session).waiting) := by decide

/-- A partition record of die 11 within the ranges. -/
def tCfg : PartitionCfg :=
  { State.onePart with
    part := 7, dies := [11], root := 11 * 2 ^ 37, poolBase := 11 * 2 ^ 37 + 0x100000, overBase := 11 * 2 ^ 37 + 0x5000000,
    keyDigest := List.replicate 48 0 }

theorem witness_partitions : Accepted (tPackHdr 0x10) tHost {} ∧ tCfg.create = true ∧ configOk tCfg = true ∧
    (tHost.parts.any fun p => p.1 != tCfg.part && p.2.cfg.dies.any tCfg.dies.contains) = false ∧ tCfg.dies.all (dieIdle tHost) = true ∧
    configOk { tCfg with quantum := 99999 } = false ∧ configOk { tCfg with handler := 2 ^ 48 } = false ∧
    (tHost.parts.any fun p => p.1 != 7 && p.2.cfg.dies.any ({ tCfg with dies := [0] } : PartitionCfg).dies.contains) = true ∧
    configOk { tCfg with part := 0, dies := [0], root := 0, poolBase := 0x100000, overBase := 0x5000000 } = true ∧
    (tHost.parts.any fun p => p.1 != 0 && p.2.cfg.dies.any [0].contains) = false ∧ [0].all (dieIdle tHost) = false ∧
    (let s := tHost.modGrid 0 fun d => { d with ended := true };
      Accepted (tPackHdr 0x10) s {} ∧ [0].all (dieIdle s) = true ∧ (tabGet? s.parts 0).isSome = true) :=
  ⟨accepted_package 0x10, by decide, by decide, by decide, by decide, by decide, by decide, by decide, by decide, by decide, by decide,
    { accepted_package 0x10 with up := by decide, session := by rfl, idle := by decide }, by decide, by decide⟩

/-- A launch of an image whose code section stands at virtual page 5. -/
def tLaunch : LaunchBody := { image := { code := 0x5000, codeSize := 12, kernels := [(0, { floor := 64, groups := 1, teamBytes := 4096 })] } }

theorem witness_launch_commands : ForPartition (tHdr 0x20) tHost { target := some 0 } 0 { cfg := State.onePart } ∧
    (let u := fireDue (begun (tHdr 0x20) tHost { target := some 0 } 0) 0 0;
      (acceptLaunch u 0 tLaunch none).2 = some 1 ∧ (acceptLaunch u 0 { tLaunch with changes := { floor := some 513 } } none).2 = none ∧
      (acceptLaunch u 0 { tLaunch with kernel := 1 } none).2 = none ∧ tLaunch.image.kernels[0]? ≠ none ∧
      (acceptLaunch u 0 { tLaunch with changes := { determ := some true, floor := some 512, maxDies := some 1 }, shape := some physicalShape } none).2
        = some 1 ∧
      (acceptLaunch u 0 { tLaunch with changes := { determ := some true }, shape := some (physicalShape + 1) } none).2 = none) ∧
    (∃ d, ForGrid (tHdr 0x22) tHost { target := some 0 } 0 { cfg := State.onePart } 1 0 d) ∧
    (entryOk (255, ⟨0, 100000, 63, 2, true⟩) = true ∧ entryOk (256, ⟨0, 100000, 63, 2, true⟩) = false ∧
      entryOk (255, ⟨0, 99999, 63, 2, true⟩) = false) ∧
    (let s := { tHost with parts := [(0, { cfg := State.onePart, table := [(9, { enable := true }), (5, { enable := true })] })] };
      ∃ p, tabGet? s.parts 0 = some p ∧ dueSlots s p = [(0, 9), (0, 5)] ∧ (0, 5) ∈ dueSlots s p ∧
        ∀ d ∈ dueSlots s p, 0 < d.1 ∨ 0 = d.1 ∧ 5 ≤ d.2) :=
  ⟨accepted_host 0x20, ⟨by decide, by decide, by decide, by decide, by decide, by decide⟩, grid_host 0x22, by decide, ⟨_, rfl, by decide, by decide, by decide⟩⟩

theorem witness_signals : (∃ d, ForGrid (tHdr 0x21) tHost { target := some 0 } 0 { cfg := State.onePart } 1 0 d) ∧
    (∃ d, tHost.grids[0]? = some d ∧ (signalPlace d 0 (paramExtent d.cmd)).isSome = true ∧ d.cmd.minDies = 1 ∧ d.cmd.maxDies = 1) ∧
    liveGrid (begun (tHdr 0x21) tHost { target := some 0 } 0) 0 2 = none :=
  ⟨grid_host 0x21, ⟨_, rfl, by decide, by decide, by decide⟩, by decide⟩

theorem witness_pages : let u := begun (tHdr 0x30) tHost { target := some 0 } 0;
    let moves := u.modDie 0 fun d => { d with inbox := [{ tMessage with page := 5 }] };
    leafOf tHost { cfg := State.onePart } 0x5000 4096 = some (0x3028, 8) ∧
    pageBusy (invalidate (u.setMem (setHost tHost.mem 0x3028 4096 true)) { cfg := State.onePart } 5 1) 0 5 1 = false ∧
    pageBusy moves 0 5 1 = true ∧ pageBusy moves 0 6 1 = false ∧ busyPages moves { cfg := State.onePart } = [5] ∧
    busyPages tHost { cfg := State.onePart } = [] := by decide

theorem witness_tables : (∀ op, ForPartition (tHdr op) tHost { target := some 0 } 0 { cfg := State.onePart }) ∧
    (inPartition State.onePart 0x3028 8 = true ∧ 0x3028 % 8 = 0) ∧ restsOn tHost { cfg := State.onePart } [0x3028] 5 = true ∧
    restsOn tHost { cfg := State.onePart } [0x3030] 5 = false := ⟨accepted_host, by decide, by decide, by decide⟩

theorem witness_faults : (∃ f ∈ ((tHost.modDie 0 fun d => { d with faults := [⟨5, 0, 2, 0⟩] }).die 0).faults, f.page = 5) ∧
    0 ∈ State.onePart.dies ∧ ∀ f ∈ (tHost.die 0).faults, f.page ≠ 5 := by decide

theorem witness_debug : ForPartition (tHdr 0x60) tHost { target := some 0 } 0 { cfg := State.onePart } ∧
    debugTeams (begun (tHdr 0x60) tHost { target := some 0 } 0) 0 ⟨1, 0, 0, false⟩ = some (0, 0, [0]) ∧
    debugTeams (begun (tHdr 0x60) tHost { target := some 0 } 0) 0 ⟨1, 0, 9, true⟩ = some (0, 0, [0]) ∧ tHost.pending = [] ∧
    (let s := { tHost with pending := [⟨1, 0x60, .teams 0 0 [0]⟩] };
      (s.pending.any fun w => match w.what with | .teams _ _ us => us.any [0].contains | _ => false) = true) ∧
    inPartition State.onePart 0x200000 4096 = true :=
  ⟨accepted_host 0x60, by decide, by decide, by decide, by decide, by decide⟩

/-- The host's lab with peer 3 and a write of it on its way. -/
def tPeer : State :=
  { tHost with
    parts := [(0, { cfg := { State.onePart with peers := [3], faultTimeout := 1000000 } })]
    peerTraffic := [{ part := 0, peer := 3, remote := 0, acc := .read 4, owner := .fill 0 1 0, since := 0 }], gtime := 1000000 }

theorem memory_item_length (s : State) (a n : Nat) : ([ReadItem.memory a n].flatMap fun i => itemValue s i).length = n := by
  have h : (memBytes s.mem a n).length = n := by
    induction n generalizing a with
    | zero => rfl
    | succ n ih => simp [memBytes, ih]
  simp [itemValue, h]

theorem witness_readback_quotes_peers : Accepted (tHdr 0x40) tHost { target := some 0 } ∧
    itemOwner (begun (tHdr 0x40) tHost { target := some 0 } 0) (.memory 0 8) = some (some 0) ∧ (∀ i ∈ [ReadItem.memory 0 8, .memory (2 ^ 37 - 1) 1, .tokens 191, .phase 0, .config 0, .translations 0],
      itemOwner tHost i = some (some 0)) ∧ itemOwner tHost .drops = some none ∧
    (∀ i ∈ [ReadItem.memory (2 ^ 37 - 1) 2, .tokens 192, .phase 1, .config 1], itemOwner tHost i = none) ∧
    (List.replicate 32 (0 : Byte)).length = 32 ∧ tHost.powered = true ∧
    (∃ p, tabGet? tPeer.parts 0 = some p ∧ 3 ∈ p.cfg.peers ∧ 4 ∉ p.cfg.peers ∧ p.cfg.faultTimeout ≠ 0) ∧
    peerBytes tPeer 0 0x5FFE 2 true = some [0x8FFE, 0x8FFF] ∧
    (∃ r q, tPeer.peerTraffic[0]? = some r ∧ tabGet? tPeer.parts r.part = some q ∧ r.since + q.cfg.faultTimeout = tPeer.gtime.toNat ∧
      r.reply = none ∧ (tPeer.die (r.owner.die tPeer)).stopped = false ∧
      (let s := tPeer.modDie 0 fun d => { d with stopped := true }; (s.die (r.owner.die s)).stopped = true)) ∧
    ([ReadItem.memory 0 8].flatMap fun i => itemValue tHost i).length ≤ 2 ^ 24 ∧
    2 ^ 24 < ([ReadItem.memory 0 (2 ^ 24 + 1)].flatMap fun i => itemValue tHost i).length :=
  ⟨(accepted_host 0x40).toAccepted, by decide, by decide, by decide, by decide, by decide, by decide, ⟨_, rfl, by decide, by decide, by decide⟩, by decide,
    ⟨_, _, rfl, rfl, by decide, rfl, by decide, by decide⟩, by decide, memory_item_length _ _ _ ▸ by decide⟩

theorem witness_uses : let sl : Slice := { names := [(511, tCell 1), (0, { tCell 2 with pin := .all true })] };
    (sl.names.map fun e => e.1).Nodup ∧ sl.cell 511 = some (tCell 1) ∧ sl.cell 7 = none ∧ (0 : BitVec 4) ≠ 0x8 := by decide

theorem witness_stopped_readers :
    (let s := tLab [];
      (∃ j ∈ (tIssue s).sls, ((tIssue s).g.slices.get j).exhausted [⟨.always, ⟨1, false⟩⟩] = true) ∧ issueOf s = some (tIssue s)) ∧
    (let s := tLab [(1, { tCell 5 with full := false })];
      (∀ j ∈ (tIssue s).sls, ((tIssue s).g.slices.get j).exhausted [⟨.always, ⟨1, true⟩⟩] = false) ∧
      (∃ j ∈ (tIssue s).sls, ((tIssue s).g.slices.get j).emptyRead [⟨.always, ⟨1, true⟩⟩] = true) ∧ issueOf s = some (tIssue s) ∧
      nameTrap (tIssue s) [⟨.always, ⟨1, false⟩⟩] [] = none ∧ mustWait (tIssue s) [⟨.always, ⟨1, false⟩⟩] [] = true) ∧
    (let s := tLab [(1, { tCell 5 with full := false, failed := some ⟨5, 0⟩ })];
      (∃ f, nameTrap (tIssue s) [⟨.always, ⟨1, false⟩⟩] [] = some f) ∧ issueOf s = some (tIssue s)) :=
  ⟨⟨⟨0, by decide, by decide⟩, issue_of (by decide)⟩, ⟨by decide, ⟨0, by decide, by decide⟩, issue_of (by decide), by decide, by decide⟩,
    ⟨⟨_, rfl⟩, issue_of (by decide)⟩⟩

theorem witness_trap_context : ∃ g, (tLab []).group 0 = some g ∧ g.priv = false := ⟨_, rfl, by decide⟩

/-- The group back from a handler: all slices live in the context, slices 0 and 7 in gang 0; slice 7 waits at its PC. -/
def tBack : State := tPriv.modGroup 0 fun g => { g with waits := [{ slices := 0x80, pc := 0, next := 0, kind := .objects [] none false false }] }

theorem witness_return : (∃ g, tBack.group 0 = some g ∧ rteOk g 12 = true ∧ (g.slices.get 0).live = true ∧
      (g.ctx.spc.get 0).getLsbD 36 = true ∧ (∃ w ∈ g.waits, w.priv = false ∧ w.slices.getLsbD 7 = true ∧ w.pc = spcPC (g.ctx.spc.get 7) ∧ w.yields = true) ∧
      (∀ w ∈ g.waits, w.priv = true ∨ ∀ b, w.kind ≠ .over b) ∧
      (∀ w ∈ g.waits, w.priv = true ∨ w.slices.getLsbD 0 = false ∨ w.pc ≠ spcPC (g.ctx.spc.get 0)) ∧ g.priv = true) ∧
    ∃ g, (tPriv.modGroup 0 fun g => { g with ctx := { g.ctx with gmap := 1 } }).group 0 = some g ∧ rteOk g 12 = false :=
  ⟨⟨_, rfl, by decide, by decide, by decide, by decide, by decide, by decide⟩, ⟨_, rfl, by decide⟩⟩

theorem witness_encoding : wellFormed (.ld ⟨15, true⟩ ⟨508, 7⟩ ⟨63, .win, 15, some ⟨511, true⟩, -2048⟩ 2 .b32) = true ∧
    isEvent (.ld ⟨15, true⟩ ⟨508, 7⟩ ⟨63, .win, 15, some ⟨511, true⟩, -2048⟩ 2 .b32) = false := by decide

theorem witness_memory_kept : MemSafe tHost ∧ Steps tHost := ⟨by unfold MemSafe; decide, by unfold Steps; exact ⟨_, rfl⟩⟩

theorem witness_step : (∃ s, s = { tLab [] with agenda := [.gtimeResync 0] } ∧ isEvent (.gtimeResync 0) = true ∧ frozen s (.gtimeResync 0) = false ∧
      frozen (s.modDie 0 fun d => { d with stopped := true }) (.engineOpStart 191 0) = true) ∧
    (let s := State.reset.withFetchWord 96 0x0000000700000000A8000000;
      plan s = .issue (.trap .always 7) ⟨0, 0⟩ ∧ nextRequest s = none ∧ nextCell s = none ∧ nextFormation s = none ∧ s.tick % 2 = 1 ∧
      ∃ c j rest, nextIssue s = some c ∧ c.g.gangSlices c.gang = j :: rest ∧
        fetchAt (s.codeOf c.g).1 (s.codeOf c.g).2 c.g.priv (c.g.slices.get j).pc = .ok (.trap .always 7, 12) ∧ c.payable s = true) ∧
    plan ((State.reset.withFetchWord 96 0x0000000700000000A8000000).modCore 0 fun k => { k with tokens := 1 }) =
      .probe (.trap .always 7) ⟨0, 0⟩ ∧
    (let s := State.reset.withFetchWord 96 0x0000000700000000A8000000;
      frozen s (.tokenCycle 0 0) = false ∧ outOfTurn s (.tokenCycle 0 0) = true ∧ outOfTurn s (.gtimeResync 0) = false) ∧
    ∃ e, plan State.reset = .event e :=
  ⟨⟨_, rfl, by decide⟩, ⟨by decide, by decide, by decide, by decide, by decide, ⟨_, _, _, rfl, rfl, rfl, by decide⟩⟩, by decide, by decide, ⟨_, rfl⟩⟩

theorem witness_float_results :
    (tyFmt .e4m3 = some (tyFloat .e4m3) ∧ (0x7F : Nat) < 2 ^ (tyFloat .e4m3).width ∧ (tyFloat .e4m3).kind = .nanOnly ∧
      tyFmt .m4 = some (tyFloat .m4) ∧ (tyFloat .m4).kind = .finite ∧ tyFmt .bf16 = some (tyFloat .bf16) ∧ (tyFloat .bf16).kind = .ieee) ∧
    (∀ t ∈ [Ty.f32, Ty.f16, Ty.bf16], ∀ fin ∈ [true, false], let s : Arith := ⟨.rup, fin, true, false, false⟩;
      (tyFloat t).isDenormal (1 % 2 ^ (tyFloat t).width) = true ∧ (rdFloat t s ((tyFloat t).canonicalNaN)).isNaN = true ∧
      (rdFloat t s 1).isNaN = false) ∧
    (let s : Arith := ⟨.rne, false, false, false, false⟩;
      (rdFloat .f32 s 0xFF800000).below (rdFloat .f32 s 0x7F800000) = true ∧
      (rdFloat .f32 s 0x7F800000).below (rdFloat .f32 s 0xFF800000) = false) := by decide

theorem witness_conversion_results :
    (Ty.s8 ≠ Ty.e4m3 ∧ tyCodeBits .f16 = 16 ∧ (2 * 0 + 2) * tyCodeBits .f16 = 32 ∧ (2 * 3 + 2) * tyCodeBits .m4 = 32) ∧
    (∀ t ∈ [Ty.e4m3, Ty.e5m2, Ty.m6a, Ty.m6b, Ty.m4], ((tyFloat t).decode 0).isNum = true) ∧ (FVal.inf true).isNum = false ∧
    (0x7F00 / 256 % 256 ≠ 255 ∧ 0xFF00 / 256 % 256 = 255) := by decide

theorem witness_integer_results : ∀ t ∈ [Ty.s32, Ty.n32, Ty.s64, Ty.n64, Ty.b32, Ty.b64], tyIntBits t = 32 ∨ tyIntBits t = 64 := by decide
end

section
/-! Transfers of control (R111 to R118, R147): what an entry's traps, a move of the gang's slices and a commit leave, and from these the
completion of `br`, `call`, `calli`, `ret` and `jmpi`. -/

open Sys2Proof
namespace Sys2Proof.Machine

/-! ### Traps of an entry -/

theorem firstTrap_eq_none {l : List (Option Trap)} (h : ∀ t ∈ l, t = none) : firstTrap l = none := by
  induction l with
  | nil => rfl
  | cons t r ih =>
    rw [h t (by simp)]
    exact ih fun x hx => h x (by simp [hx])

theorem trapIf_eq_none {b : Bool} {cause : Nat} (h : b = false) : trapIf b cause = none := by simp [trapIf, h]

theorem trapIf_and_eq_none {a b : Bool} {cause : Nat} (h : a = true → b = false) : trapIf (a && b) cause = none :=
  trapIf_eq_none (Bool.and_eq_false_imp.mpr h)

theorem trapIf_and_not_eq_none {a b : Bool} {cause : Nat} (h : a = true → b = true) : trapIf (a && !b) cause = none :=
  trapIf_and_eq_none fun ha => by rw [h ha]; rfl

theorem trapIf_any_and_not_eq_none {l : List Nat} {q r : Nat → Bool} {cause : Nat} (h : ∀ j ∈ l, q j = true → r j = true) :
    trapIf (l.any fun j => q j && !r j) cause = none :=
  trapIf_eq_none (List.any_eq_false.mpr fun j hj => by
    rw [Bool.not_eq_true, Bool.and_eq_false_imp]
    exact fun hq => by rw [h j hj hq]; rfl)

/-- A gang that splits needs a join address (R116). -/
theorem trapIf_noJoin_eq_none {u b : Bool} {join : BitVec 20} {cause : Nat} (h : u = false → join = 0 → b = false) :
    trapIf (!u && join == 0 && b) cause = none :=
  trapIf_and_eq_none fun h1 => by
    obtain ⟨hu, hj⟩ := Bool.and_eq_true_iff.mp h1
    exact h (by simpa using hu) (beq_iff_eq.mp hj)

/-! ### Moves of a slice (R112 to R114) -/

/-- A move of slices changes only where they stand, and depends on nothing else of them. -/
structure Stands (move : Nat → Slice → Slice) : Prop where
  same : ∀ j x, move j x = x.standing (move j x)
  path : ∀ j x y, x.path = y.path → (move j x).path = (move j y).path

theorem Slice.path_eq {x y : Slice} (h : x.path = y.path) : x.pc = y.pc ∧ x.mask = y.mask ∧ x.stack = y.stack ∧ x.fmt = y.fmt := by
  simpa only [Slice.path, Prod.mk.injEq] using h

/-- Diverge moves a slice by its mask, stack and `%fmt`. -/
theorem stands_diverge (run held : Nat → BitVec 4 → BitVec 4) (runPC heldPC join : Nat → Word32) :
    Stands fun j x => x.diverge (run j x.mask) (runPC j) (held j x.mask) (heldPC j) (join j) where
  same j x := by
    unfold Slice.diverge
    split
    · rfl
    · split <;> rfl
  path j x y h := by
    obtain ⟨-, hm, hs, hf⟩ := Slice.path_eq h
    unfold Slice.diverge
    rw [hm, hs, hf]
    split
    · rfl
    · split <;> rfl

/-- A slice set to a PC. -/
theorem stands_pc (pc : Nat → Word32) : Stands fun j x => { x with pc := pc j } where
  same _ _ := rfl
  path j x y h := by
    obtain ⟨-, hm, hs, hf⟩ := Slice.path_eq h
    simp only [Slice.path, hm, hs, hf]

/-- A move by cases of the slice. -/
theorem Stands.ite {m n : Nat → Slice → Slice} (hm : Stands m) (hn : Stands n) (p : Nat → Prop) [DecidablePred p] :
    Stands fun j x => if p j then m j x else n j x where
  same j x := by
    by_cases h : p j
    · simp only [h, if_true]; exact hm.same j x
    · simp only [h, if_false]; exact hn.same j x
  path j x y e := by
    by_cases h : p j
    · simp only [h, if_true]; exact hm.path j x y e
    · simp only [h, if_false]; exact hn.path j x y e

/-- The lanes that a transfer takes run at its target, the others are held; a slice it takes no lane of goes past it (R114, R117). -/
def moveTaken (go : Nat → BitVec 4) (addr : Nat → Word32) (past again join : Word32) (j : Nat) (x : Slice) : Slice :=
  if go j = 0 then { x with pc := past } else x.diverge (go j) (addr j) (x.mask &&& ~~~go j) again join

theorem stands_moveTaken (go : Nat → BitVec 4) (addr : Nat → Word32) (past again join : Word32) :
    Stands (moveTaken go addr past again join) :=
  (stands_pc fun _ => past).ite
    (stands_diverge (fun j _ => go j) (fun j m => m &&& ~~~go j) addr (fun _ => again) fun _ => join) fun j => go j = 0

/-! ### A commit and a move -/

theorem Slice.consumeAll_nil (sl : Slice) : sl.consumeAll [] = sl := by
  simp [Slice.consumeAll]

theorem Commit.map_ok {x : Commit} {s : State} (h : x = .ok s) (f : State → State) : x.map f = .ok (f s) := by
  rw [h]
  rfl

/-- A slice of the gang after its reads are used up by `use` and its names are written. -/
def Issue.wrote (c : Issue) (s : State) (use : Nat → Slice → Slice) (ws : List NameWrite) (j : Nat) : Slice :=
  (use j (c.g.slices.get j)).finished ws j (16 * (s.core c.g.core).stamp) 0

/-- It differs from the old one in its names only. -/
theorem Issue.wrote_same {c : Issue} (s : State) {use : Nat → Slice → Slice} (hu : ∀ j x, (use j x).SameButNames x) (ws : List NameWrite)
    (j : Nat) : (c.wrote s use ws j).SameButNames (c.g.slices.get j) := by
  have h0 : ∀ w : Word32, w ||| FlagSet.word 0 = w := fun _ => BitVec.or_zero
  refine Slice.SameButNames.trans ?_ (hu j _)
  unfold Issue.wrote Slice.SameButNames
  conv_lhs => rw [Slice.finished_same, h0]

/-- A commit whose slices are then moved: the group, but for its slices, is the old one. -/
theorem Issue.commit_move {c : Issue} {s : State} (hi : issueOf s = some c) (use : Nat → Slice → Slice) (ws : List NameWrite)
    (h : ∀ i ∈ c.sls, cellsNeeded s c use ws i = 0) (move : Nat → Slice → Slice) :
    ∃ s1 g1, c.commitWith s use ws (fun _ => 0) = .ok s1 ∧
      c.Working s (s1.modGroup c.gid fun g => g.modSlices c.sls move) g1 ∧ g1 = { c.g with slices := g1.slices } ∧
      ∀ j, j < 8 → g1.slices.get j = if j ∈ c.sls then move j (c.wrote s use ws j) else c.g.slices.get j := by
  have hn := issueOf_nodup hi
  have hb := issueOf_lt hi
  obtain ⟨s1, hc, w⟩ := Issue.commitWith_ok (issueOf_some hi).1 rfl rfl use ws (fun _ => 0) h
  refine ⟨s1, _, hc, w.modGroup fun g => g.modSlices c.sls move, ?_, fun j hj => ?_⟩
  · rw [Group.modSlices_eq, Issue.apply_eq]
  · rw [Group.get_modSlices _ _ _ hn hb hj, Issue.apply_finished _ _ _ _ _ hn hb hj]
    split <;> rfl

theorem Slice.consumeOn_same (sl : Slice) (n : Nat) (mask : BitVec 4) : (sl.consumeOn n mask).SameButNames sl := by
  have h := Slice.consume_same sl n mask
  unfold Slice.consumeOn
  simp only
  split
  · split
    · unfold Slice.SameButNames at *
      conv_lhs => rw [h]
    · exact h
  · exact h

/-- The slices that move, each with its target. -/
def Issue.movers (c : Issue) (go : Nat → BitVec 4) (target : Nat → Word32) : List (Nat × Word32) :=
  (c.sls.filter fun i => go i != 0).map fun i => (i, target i)

theorem Issue.movers_fst (c : Issue) (go : Nat → BitVec 4) (target : Nat → Word32) :
    ((c.movers go target).map fun m => m.1) = c.sls.filter fun i => go i != 0 := by
  rw [Issue.movers, List.map_map]
  exact List.map_id _

theorem Issue.mem_movers {c : Issue} {go : Nat → BitVec 4} {target : Nat → Word32} {m : Nat × Word32} :
    m ∈ c.movers go target ↔ m.1 ∈ c.sls ∧ go m.1 ≠ 0 ∧ m.2 = target m.1 := by
  obtain ⟨i, t⟩ := m
  simp only [Issue.movers, List.mem_map, List.mem_filter, bne_iff_ne, Prod.mk.injEq]
  constructor
  · rintro ⟨k, ⟨h1, h2⟩, rfl, rfl⟩
    exact ⟨h1, h2, rfl⟩
  · rintro ⟨h1, h2, h3⟩
    exact ⟨i, ⟨h1, h2⟩, rfl, h3.symm⟩

/-- No request changes nothing. -/
theorem Issue.floored_nil (c : Issue) (s : State) (g1 : Group) (amount : Nat × Word32 → Nat) (less : List Nat → Nat)
    (rest : List Nat → List Nat) : c.Floored s g1 g1 [] amount less rest where
  eq := rfl
  waits := by simp
  slices _ _ := ⟨rfl, fun _ => rfl⟩
  moved _ h := absurd h (by simp)

/-- A transfer completes that has changed its slices' names and moved its slices, once it has changed the floor entries of those it takes
lanes of (R147). -/
theorem Issue.transfers_moved {c : Issue} {s s1 : State} {g1 g : Group} {i : Instr} {use wrote : Nat → Slice}
    {move : Nat → Slice → Slice} {ds : List Nat} {go : Nat → BitVec 4} {target : Nat → Word32} {amount : Nat × Word32 → Nat}
    {less : List Nat → Nat} {rest : List Nat → List Nat} {extra : Nat → Slice → Prop} (hi : issueOf s = some c)
    (hm : Stands move) (hw : ∀ j ∈ c.sls, (wrote j).SameButNames (c.g.slices.get j))
    (hc : ∀ j ∈ c.sls, ∀ n, n ∉ ds → (wrote j).cell n = (use j).cell n) (hk : g1 = { c.g with slices := g1.slices })
    (hget : ∀ j, j < 8 → g1.slices.get j = if j ∈ c.sls then move j (wrote j) else c.g.slices.get j)
    (w : c.Working s s1 g) (hf : c.Floored s g1 g (c.movers go target) amount less rest)
    (hx : exec i s = .next (growChunks (c.done s1 priceLane) c.gid))
    (he : ∀ j ∈ c.sls, ∀ x : Slice, x.names = (wrote j).names →
      x.floors = (if go j = 0 then (c.g.slices.get j).floors else
        c.raised s (less (c.g.slices.get j).floors) (amount (j, target j)) j :: rest (c.g.slices.get j).floors) → extra j x) :
    c.Transfers s i use ds (fun j => move j (c.g.slices.get j))
      (fun j => if go j = 0 then none else c.raises s (less (c.g.slices.get j).floors) (amount (j, target j)) j) extra := by
  have hb := issueOf_lt hi
  obtain ⟨heq, hwaits, hslices, hmoved⟩ := hf
  have hg1 : ∀ j ∈ c.sls, g1.slices.get j =
      { (c.g.slices.get j).standing (move j (c.g.slices.get j)) with names := (wrote j).names } := by
    intro j hj
    have h1 := hw j hj
    unfold Slice.SameButNames at h1
    have h2 := hm.path j (wrote j) (c.g.slices.get j) (by rw [h1]; rfl)
    obtain ⟨p1, p2, p3, p4⟩ := Slice.path_eq h2
    rw [hget j (hb j hj), if_pos hj, hm.same]
    conv_lhs => rw [Slice.standing, p1, p2, p3, p4, h1]
    rfl
  have hg : ∀ j ∈ c.sls, g.slices.get j = { (c.g.slices.get j).standing (move j (c.g.slices.get j)) with
      names := (wrote j).names, floors := (g.slices.get j).floors } := fun j hj => by
    conv_lhs => rw [(hslices j (hb j hj)).1, hg1 j hj]
  have hpc : ∀ j ∈ c.sls, (g1.slices.get j).pc = (move j (c.g.slices.get j)).pc := fun j hj => by rw [hg1 j hj]; rfl
  have hnm : ∀ j, (j ∈ c.sls → go j = 0) → j ∉ (c.movers go target).map fun m => m.1 := fun j h => by
    rw [Issue.movers_fst, List.mem_filter]
    rintro ⟨h1, h2⟩
    exact absurd (h h1) (by simpa using h2)
  refine Issue.transfers_of hi w hx ?_ (fun j hj hnj => ?_) (fun j hj => ?_) fun j hj x hxn hxf => ?_
  · have hl : g.waits = c.g.waits ++ (c.sls.filterMap fun j =>
        (if go j = 0 then none else c.raises s (less (c.g.slices.get j).floors) (amount (j, target j)) j).map
          (c.raiseWait j (move j (c.g.slices.get j)).pc)) := by
      rw [hwaits, show g1.waits = c.g.waits by rw [hk], Issue.movers, List.filterMap_map, List.filterMap_filter]
      refine congrArg _ (List.filterMap_congr fun j hj => ?_)
      by_cases h0 : go j = 0
      · simp [h0]
      · simp only [bne_iff_ne.mpr h0, if_true, h0, if_false, Function.comp, hpc j hj]
    rw [← hl, heq, hk]
  · obtain ⟨h2, h3⟩ := hslices j hj
    rw [h2, h3 (hnm j fun h => absurd h hnj), hget j hj, if_neg hnj]
  · rw [hg j hj]
    refine ⟨rfl, ?_, ?_, fun n hn => hc j hj n hn, rfl, rfl⟩ <;> rw [hm.same] <;> rfl
  · refine he j hj x (by rw [hxn, hg j hj]) ?_
    rw [hxf]
    split
    · rename_i h0
      rw [(hslices j (hb j hj)).2 (hnm j fun _ => h0), hg1 j hj]
      rfl
    · rename_i h0
      exact hmoved (j, target j) (Issue.mem_movers.mpr ⟨hj, h0, rfl⟩)

/-- A transfer completes that reads and writes names, moves its slices and then changes the floor entries of those it takes lanes of
(R117, R118, R147). -/
theorem Issue.transfers_floors {c : Issue} {s : State} {i : Instr} {use move : Nat → Slice → Slice} {used : Nat → Slice}
    {ws : List NameWrite} {ds : List Nat} {go : Nat → BitVec 4} {target : Nat → Word32} {floors : State → State}
    {amount : Nat × Word32 → Nat} {less : List Nat → Nat} {rest : List Nat → List Nat} {extra : Nat → Slice → Prop}
    (hi : issueOf s = some c) (hu : ∀ j x, (use j x).SameButNames x) (hus : ∀ j, used j = use j (c.g.slices.get j))
    (hm : Stands move) (hc : ∀ j ∈ c.sls, cellsNeeded s c use ws j = 0) (hd : ∀ w ∈ ws, w.name ∈ ds)
    (hx : ∀ s1, c.commitWith s use ws (fun _ => 0) = .ok s1 → exec i s = .next (growChunks (c.done
      (floors (s1.modGroup c.gid fun g => g.modSlices c.sls move)) priceLane) c.gid))
    (hf : ∀ s1 g1, c.Working s s1 g1 → c.OnlySlices g1 → ((c.movers go target).map fun m => m.1).Nodup →
      (∀ m ∈ c.movers go target, m.1 < 8) →
      (∀ m ∈ c.movers go target, (g1.slices.get m.1).floors = (c.g.slices.get m.1).floors) →
      ∃ g, c.Working s (floors s1) g ∧ c.Floored s g1 g (c.movers go target) amount less rest)
    (he : ∀ j ∈ c.sls, ∀ x : Slice, x.names = (c.wrote s use ws j).names →
      x.floors = (if go j = 0 then (c.g.slices.get j).floors else
        c.raised s (less (c.g.slices.get j).floors) (amount (j, target j)) j :: rest (c.g.slices.get j).floors) → extra j x) :
    c.Transfers s i used ds (fun j => move j (c.g.slices.get j))
      (fun j => if go j = 0 then none else c.raises s (less (c.g.slices.get j).floors) (amount (j, target j)) j) extra := by
  have hb := issueOf_lt hi
  obtain ⟨s1, g1, h1, w, hk, hget⟩ := Issue.commit_move hi use ws hc move
  have hfl : ∀ m ∈ c.movers go target, (g1.slices.get m.1).floors = (c.g.slices.get m.1).floors := by
    intro m h
    have hj := (Issue.mem_movers.mp h).1
    rw [hget _ (hb _ hj), if_pos hj, hm.same, Issue.wrote_same s hu ws m.1]
    rfl
  obtain ⟨g, w2, hF⟩ := hf _ g1 w (by rw [Issue.OnlySlices, hk]) (by rw [Issue.movers_fst]; exact (issueOf_nodup hi).filter _)
    (fun m h => hb _ (Issue.mem_movers.mp h).1) hfl
  exact Issue.transfers_moved hi hm (fun j _ => Issue.wrote_same s hu ws j)
    (fun j _ n hn => by rw [hus]; exact Slice.cell_finished_other _ ws _ _ _ fun v hv e => hn (e ▸ hd v hv)) hk hget w2 hF (hx s1 h1)
    he

/-! ### `br` (R114) -/

/-- The lanes of a slice of the gang on which a predicate holds. -/
def Issue.taken (c : Issue) (p : Pred) (j : Nat) : BitVec 4 := (c.g.slices.get j).active p

/-- No operand stops an instruction that names none. -/
theorem operands_none (c : Issue) (s : State) : c.Operands s [] [] where
  noTrap := by simp [nameTrap, Slice.exhausted, Slice.emptyRead, Slice.reading, Slice.writing, Slice.failure]
  noFailure := rfl
  loaded := rfl
  full := by simp [mustWait, Slice.reading, Slice.writing]
  room := by simp [Issue.fits, Slice.writing]

/-- `br` where no trap of its entry is due (R114). -/
theorem br_transfers {s : State} {c : Issue} (hi : issueOf s = some c) (p : Pred) (u : Bool) (join : BitVec 20) (disp : BitVec 32)
    (hu : u = true → (c.sls.any fun j => c.taken p j != 0) = true → ∀ j ∈ c.sls, c.taken p j = (c.g.slices.get j).mask)
    (hs : u = false → join = 0 → (c.sls.any fun j => divides (c.taken p j) (c.g.slices.get j).mask) = false)
    (ht : (c.sls.any fun j => c.taken p j != 0) = true → targetOk (s.codeOf c.g).2 (c.pc + disp) = true)
    (hj : (c.sls.any fun j => divides (c.taken p j) (c.g.slices.get j).mask) = true →
      targetOk (s.codeOf c.g).2 (joinAddr c.pc join) = true)
    (hr : stackTrap s c (fun j => (if divides (c.taken p j) (c.g.slices.get j).mask then 2 else 0, 0)) = none) :
    c.Transfers s (.br p u join disp) (fun j => c.g.slices.get j) []
      (fun j => (c.g.slices.get j).diverge ((c.g.slices.get j).mask &&& ~~~c.taken p j) (c.pc + 12) (c.taken p j) (c.pc + disp)
        (joinAddr c.pc join)) (fun _ => none)
      fun j x => x.names = (c.g.slices.get j).names ∧ x.floors = (c.g.slices.get j).floors := by
  have hmv : c.movers (fun _ => 0) (fun _ => 0) = [] := by simp [Issue.movers]
  have w := (Issue.working_refl (issueOf_some hi).1).modGroup fun g => g.modSlices c.sls fun i sl =>
    sl.diverge (sl.mask &&& ~~~c.taken p i) (c.pc + 12) (c.taken p i) (c.pc + disp) (joinAddr c.pc join)
  have h := Issue.transfers_moved (i := .br p u join disp) (use := fun j => c.g.slices.get j) (wrote := fun j => c.g.slices.get j)
    (ds := []) (go := fun _ => 0) (target := fun _ => 0) (amount := fun _ => 0) (less := fun _ => 0) (rest := id)
    (extra := fun j x => x.names = (c.g.slices.get j).names ∧ x.floors = (c.g.slices.get j).floors) hi
    (stands_diverge (fun i m => m &&& ~~~c.taken p i) (fun i _ => c.taken p i) (fun _ => c.pc + 12) (fun _ => c.pc + disp)
      fun _ => joinAddr c.pc join)
    (fun _ _ => rfl) (fun _ _ _ _ => rfl) (Group.modSlices_eq _ _ _)
    (fun j hj => Group.get_modSlices c.g c.sls _ (issueOf_nodup hi) (issueOf_lt hi) hj) w
    (by rw [hmv]; exact c.floored_nil _ _ _ _ _) ?_
    (fun j _ x hn hf => ⟨hn, by simpa using hf⟩)
  · simpa using h
  show execBr p u join disp s = _
  unfold execBr
  simp only [hi]
  refine congrArg Host.Outcome.next (laneStep_operands (operands_none c s) (firstTrap_eq_none ?_) _ rfl)
  simp only [List.forall_mem_cons]
  refine ⟨trapIf_and_eq_none fun h => List.any_eq_false.mpr fun j hj => ?_, trapIf_noJoin_eq_none hs, trapIf_and_not_eq_none ht,
    trapIf_and_not_eq_none hj, hr, by simp⟩
  obtain ⟨h1, h2⟩ := Bool.and_eq_true_iff.mp h
  rw [bne_iff_ne, not_not]
  exact hu h1 h2 j hj

/-! ### `call` and `calli` (R117) -/

/-- What a lane that receives the link holds. -/
theorem Issue.wrote_link {c : Issue} (s : State) (use : Nat → Slice → Slice) (d : Dst) (go : Nat → BitVec 4) (link : Word32) (j : Nat)
    {x : Slice} (hx : x.names = (c.wrote s use (destWrites false d go fun _ _ => link.toNat) j).names) :
    ∀ l, l < 4 → (go j).getLsbD l = true → x.Holds d.name.toNat l d.uses link := by
  intro l hl hg
  obtain ⟨k, hk, hf, hv, hn⟩ := (Slice.finished_dest (use j (c.g.slices.get j)) d false go (fun _ _ => link.toNat) true j
    (16 * (s.core c.g.core).stamp) 0 hl hg).1
  exact ⟨k, by rw [← hk, Slice.cell, hx]; rfl, hf, by simpa using hv, hn⟩

/-- `call` where its link has a place and no trap of its entry is due (R117, R147). -/
theorem call_transfers {s : State} {c : Issue} (p : Pred) (u : Bool) (d : Dst) (disp : BitVec 32)
    (hr : c.Ready s [] ((destNames false d).map fun n => (p, n)))
    (hu : u = true → unequal c p (fun _ _ => c.pc + disp) = false)
    (ht : (∃ j ∈ c.sls, c.taken p j ≠ 0) → targetOk (s.codeOf c.g).2 (c.pc + disp) = true)
    (hst : stackTrap s c (fun j => (if divides (c.taken p j) (c.g.slices.get j).mask then 2 else 0,
      if c.taken p j = 0 then 0 else 1)) = none) :
    let extra := extraFloor (s.codeOf c.g).1 (s.codeOf c.g).2 (c.pc + disp)
    c.Transfers s (.call p u d disp) (fun j => c.g.slices.get j) (destNames false d)
      (fun j => (c.g.slices.get j).diverge (c.taken p j) (c.pc + disp) ((c.g.slices.get j).mask &&& ~~~c.taken p j) (c.pc + 12)
        (c.pc + 12))
      (fun j => if c.taken p j = 0 then none else c.raises s 0 extra j)
      fun j x => (∀ l, l < 4 → (c.taken p j).getLsbD l = true → x.Holds d.name.toNat l d.uses (c.pc + 12)) ∧
        x.floors = if c.taken p j = 0 then (c.g.slices.get j).floors else c.raised s 0 extra j :: (c.g.slices.get j).floors := by
  intro extra
  have hi := hr.issues
  refine Issue.transfers_floors (use := fun _ x => x.consumeAll []) (go := c.taken p) (target := fun _ => c.pc + disp)
    (move := fun j x => x.diverge (c.taken p j) (c.pc + disp) (x.mask &&& ~~~c.taken p j) (c.pc + 12) (c.pc + 12))
    (floors := fun s1 => pushFloors s1 c.gid (c.movers (c.taken p) fun _ => c.pc + disp) (s.codeOf c.g).1 (s.codeOf c.g).2)
    (amount := fun m => extraFloor (s.codeOf c.g).1 (s.codeOf c.g).2 m.2) (less := fun _ => 0) (rest := fun l => l) hi
    (fun _ x => x.consumeAll_same _) (fun _ => (Slice.consumeAll_nil _).symm)
    (stands_diverge (fun i _ => c.taken p i) (fun i m => m &&& ~~~c.taken p i) (fun _ => c.pc + disp) (fun _ => c.pc + 12)
      fun _ => c.pc + 12)
    (fun j hj => cellsNeeded_destWrites hr.room _ _ hj) (fun w hw => destWrites_name hw) (fun s1 h1 => ?_)
    (fun s1 g1 w hk hn hb hs => w.pushFloors hi hk _ _ _ hn hb hs) fun j _ x hxn hxf => ⟨Issue.wrote_link s _ d _ _ j hxn, hxf⟩
  show execCall p u d disp s = _
  unfold execCall
  simp only [hi]
  refine congrArg Host.Outcome.next (laneStep_operands hr.toOperands (firstTrap_eq_none ?_) _ (Commit.map_ok h1 _))
  simp only [List.forall_mem_cons]
  refine ⟨trapIf_and_eq_none hu, trapIf_and_not_eq_none fun h => ?_, hst, by simp⟩
  obtain ⟨j, hj, hn⟩ := List.any_eq_true.mp h
  exact ht ⟨j, hj, bne_iff_ne.mp hn⟩

/-- The lanes of a slice that go to the target of the lowest lane on which the predicate holds (R117). -/
def Issue.going (c : Issue) (p : Pred) (target : Nat → Nat → Word32) (j : Nat) : BitVec 4 :=
  match firstTarget (c.taken p j) (target j) with
  | some f => f.2
  | none => 0

/-- Where they go; past the instruction where there are none. -/
def Issue.goesTo (c : Issue) (p : Pred) (target : Nat → Nat → Word32) (j : Nat) : Word32 :=
  match firstTarget (c.taken p j) (target j) with
  | some f => f.1
  | none => c.pc + 12

/-- The datum of a name on a lane of a slice of the gang. -/
def Issue.datum (c : Issue) (a : Src) (j l : Nat) : Word32 := (c.g.slices.get j).datum l a.name.toNat

/-- `calli` where its link has a place and no trap of its entry is due (R117, R147). -/
theorem calli_transfers {s : State} {c : Issue} (p : Pred) (u : Bool) (d : Dst) (a : Src)
    (hr : c.Ready s (readsOf p false a) ((destNames false d).map fun n => (p, n)))
    (hu : u = true → unequal c p (c.datum a) = false)
    (ht : ∀ j ∈ c.sls, c.going p (c.datum a) j ≠ 0 → targetOk (s.codeOf c.g).2 (c.goesTo p (c.datum a) j) = true)
    (hst : stackTrap s c (fun j => (if divides (c.going p (c.datum a) j) (c.g.slices.get j).mask then 2 else 0,
      if c.going p (c.datum a) j = 0 then 0 else 1)) = none)
    (hc : ∀ j ∈ c.sls, cellsNeeded s c (fun i x => x.consumeOn a.name.toNat (c.going p (c.datum a) i))
      (destWrites false d (c.going p (c.datum a)) fun _ _ => (c.pc + 12).toNat) j = 0) :
    let go := c.going p (c.datum a)
    let extra (j : Nat) : Nat := extraFloor (s.codeOf c.g).1 (s.codeOf c.g).2 (c.goesTo p (c.datum a) j)
    c.Transfers s (.calli p u d a) (fun j => (c.g.slices.get j).consumeOn a.name.toNat (go j)) (destNames false d)
      (fun j => if go j = 0 then { c.g.slices.get j with pc := c.pc + 12 }
        else (c.g.slices.get j).diverge (go j) (c.goesTo p (c.datum a) j) ((c.g.slices.get j).mask &&& ~~~go j) c.pc (c.pc + 12))
      (fun j => if go j = 0 then none else c.raises s 0 (extra j) j)
      fun j x => (∀ l, l < 4 → (go j).getLsbD l = true → x.Holds d.name.toNat l d.uses (c.pc + 12)) ∧
        x.floors = if go j = 0 then (c.g.slices.get j).floors else c.raised s 0 (extra j) j :: (c.g.slices.get j).floors := by
  intro go extra
  have hi := hr.issues
  refine Issue.transfers_floors (use := fun i x => x.consumeOn a.name.toNat (go i)) (go := go) (target := c.goesTo p (c.datum a))
    (move := moveTaken go (c.goesTo p (c.datum a)) (c.pc + 12) c.pc (c.pc + 12))
    (floors := fun s1 => pushFloors s1 c.gid (c.movers go (c.goesTo p (c.datum a))) (s.codeOf c.g).1 (s.codeOf c.g).2)
    (amount := fun m => extraFloor (s.codeOf c.g).1 (s.codeOf c.g).2 m.2) (less := fun _ => 0) (rest := fun l => l) hi
    (fun _ x => x.consumeOn_same _ _) (fun _ => rfl) (stands_moveTaken _ _ _ _ _) hc (fun w hw => destWrites_name hw)
    (fun s1 h1 => ?_) (fun s1 g1 w hk hn hb hs => w.pushFloors hi hk _ _ _ hn hb hs)
    fun j _ x hxn hxf => ⟨Issue.wrote_link s _ d _ _ j hxn, hxf⟩
  show execCalli p u d a s = _
  unfold execCalli
  simp only [hi]
  refine congrArg Host.Outcome.next (laneStep_operands hr.toOperands (firstTrap_eq_none ?_) _ (Commit.map_ok h1 _))
  simp only [List.forall_mem_cons]
  exact ⟨trapIf_and_eq_none hu, trapIf_any_and_not_eq_none fun j hj h => ht j hj (bne_iff_ne.mp h), hst, by simp⟩

/-! ### `jmpi` (R118) -/

/-- Where a lane's entry of a jump table stands: an index beyond the table takes the last one. -/
def Issue.tablePlace (c : Issue) (n : BitVec 12) (a : Src) (disp : BitVec 32) (j l : Nat) : Nat :=
  (c.pc + disp).toNat + 4 * min (c.datum a j l).toNat n.toNat

/-- The target that entry gives. -/
def Issue.tableTarget (c : Issue) (s : State) (n : BitVec 12) (a : Src) (disp : BitVec 32) (j l : Nat) : Word32 :=
  c.pc + disp + codeWord (s.codeOf c.g).1 (c.tablePlace n a disp j l)

/-- `jmpi` where no trap of its entry is due (R118, R147). -/
theorem jmpi_transfers {s : State} {c : Issue} (p : Pred) (u : Bool) (n : BitVec 12) (a : Src) (join : BitVec 20) (disp : BitVec 32)
    (hr : c.Ready s (readsOf p false a) [])
    (hp : ∀ j ∈ c.sls, ∀ l, l < 4 → (c.taken p j).getLsbD l = true →
      c.tablePlace n a disp j l + 4 ≤ (s.codeOf c.g).2)
    (hu : u = true → unequal c p (c.tableTarget s n a disp) = false)
    (hs : u = false → join = 0 →
      (c.sls.any fun j => divides (c.going p (c.tableTarget s n a disp) j) (c.g.slices.get j).mask) = false)
    (ht : ∀ j ∈ c.sls, c.going p (c.tableTarget s n a disp) j ≠ 0 →
      targetOk (s.codeOf c.g).2 (c.goesTo p (c.tableTarget s n a disp) j) = true)
    (hj : (c.sls.any fun j => divides (c.going p (c.tableTarget s n a disp) j) (c.g.slices.get j).mask) = true →
      targetOk (s.codeOf c.g).2 (joinAddr c.pc join) = true)
    (hst : stackTrap s c (fun j =>
      (if divides (c.going p (c.tableTarget s n a disp) j) (c.g.slices.get j).mask then 2 else 0, 0)) = none) :
    let go := c.going p (c.tableTarget s n a disp)
    let addr := c.goesTo p (c.tableTarget s n a disp)
    let extra (j : Nat) : Nat := extraFloor (s.codeOf c.g).1 (s.codeOf c.g).2 (addr j)
    c.Transfers s (.jmpi p u n a join disp) (fun j => (c.g.slices.get j).consumeOn a.name.toNat (go j)) []
      (fun j => if go j = 0 then { c.g.slices.get j with pc := c.pc + 12 }
        else (c.g.slices.get j).diverge (go j) (addr j) ((c.g.slices.get j).mask &&& ~~~go j) c.pc (joinAddr c.pc join))
      (fun j => if go j = 0 then none else c.raises s ((c.g.slices.get j).floors.headD 0) (extra j) j)
      fun j x => x.floors = if go j = 0 then (c.g.slices.get j).floors
        else c.raised s ((c.g.slices.get j).floors.headD 0) (extra j) j :: (c.g.slices.get j).floors.tail := by
  intro go addr extra
  have hi := hr.issues
  refine Issue.transfers_floors (use := fun i x => x.consumeOn a.name.toNat (go i)) (ws := []) (go := go) (target := addr)
    (move := moveTaken go addr (c.pc + 12) c.pc (joinAddr c.pc join))
    (floors := fun s1 => replaceFloors s1 c.gid (c.movers go addr) (s.codeOf c.g).1 (s.codeOf c.g).2)
    (amount := fun m => extraFloor (s.codeOf c.g).1 (s.codeOf c.g).2 m.2) (less := fun l => l.headD 0) (rest := fun l => l.tail) hi
    (fun _ x => x.consumeOn_same _ _) (fun _ => rfl) (stands_moveTaken _ _ _ _ _) (fun j _ => by simp [cellsNeeded]) (by simp)
    (fun s1 h1 => ?_) (fun s1 g1 w hk hn hb hs => w.replaceFloors hi hk _ _ _ hn hb hs) fun j _ x _ hxf => hxf
  show execJmpi p u n a join disp s = _
  unfold execJmpi
  simp only [hi]
  refine congrArg Host.Outcome.next (laneStep_operands hr.toOperands (firstTrap_eq_none ?_) _ (Commit.map_ok h1 _))
  simp only [List.forall_mem_cons]
  refine ⟨trapIf_eq_none (List.any_eq_false.mpr fun j hj => ?_), trapIf_and_eq_none hu, trapIf_noJoin_eq_none hs,
    trapIf_any_and_not_eq_none fun j hj h => ht j hj (bne_iff_ne.mp h), trapIf_and_not_eq_none hj, hst, by simp⟩
  rw [Bool.not_eq_true, List.any_eq_false]
  intro l hl h
  obtain ⟨h1, h2⟩ := Bool.and_eq_true_iff.mp h
  exact absurd (of_decide_eq_true h2) (Nat.not_lt.mpr (hp j hj l (List.mem_range.mp hl) h1))

/-! ### `ret` (R117) -/

theorem Slice.popFloor_eq (sl : Slice) : sl.popFloor = { sl with floors := sl.popFloor.floors } := by
  unfold Slice.popFloor
  split <;> rfl

theorem Slice.popFloor_floors_congr {x y : Slice} (h : x.floors = y.floors) : x.popFloor.floors = y.popFloor.floors := by
  unfold Slice.popFloor
  rcases hy : y.floors with _ | ⟨a, _ | ⟨b, r⟩⟩ <;> simp [h, hy]

/-- Where the lowest active lane of a slice returns to. -/
def Issue.returnsTo (c : Issue) (a : Src) (j : Nat) : Word32 :=
  match firstTarget (c.g.slices.get j).mask (c.datum a j) with
  | some f => f.1
  | none => (c.g.slices.get j).pc

/-- `ret` where no trap of its entry is due (R117, R147). -/
theorem ret_completes {s : State} {c : Issue} (u : Bool) (a : Src) (hr : c.Ready s (readsOf .always false a) [])
    (hu : u = true → unequal c .always (c.datum a) = false)
    (hf : ∀ j ∈ c.sls, ∀ f, firstTarget (c.g.slices.get j).mask (c.datum a j) = some f → f.2 = (c.g.slices.get j).mask)
    (ht : ∀ j ∈ c.sls, targetOk (s.codeOf c.g).2 (c.returnsTo a j) = true) :
    ∃ t g, exec (.ret u a) s = .next t ∧ c.Ends s t priceLane g (fun j => { c.g.slices.get j with pc := c.returnsTo a j }) ∧
      c.KeepsGroup g ∧ ∀ j ∈ c.sls, (c.g.slices.get j).ReadsNames (g.slices.get j) (readsOf .always false a) [] ∧
        (g.slices.get j).preds = (c.g.slices.get j).preds ∧ (g.slices.get j).fflags = (c.g.slices.get j).fflags ∧
        (g.slices.get j).floors = (c.g.slices.get j).popFloor.floors := by
  have hi := hr.issues
  have hn := issueOf_nodup hi
  have hb := issueOf_lt hi
  obtain ⟨s1, g1, h1, w, hk, hget⟩ := Issue.commit_move hi (fun _ x => x.consumeAll (readsOf .always false a)) []
    (fun j _ => by simp [cellsNeeded]) fun j x => { x with pc := c.returnsTo a j }.popFloor
  have hx : exec (.ret u a) s = .next (c.done (s1.modGroup c.gid fun g =>
      g.modSlices c.sls fun i sl => { sl with pc := c.returnsTo a i }.popFloor) priceLane) := by
    show execRet u a s = _
    unfold execRet
    simp only [hi]
    refine congrArg Host.Outcome.next (laneStep_operands hr.toOperands (firstTrap_eq_none ?_) _ (Commit.map_ok h1 _))
    simp only [List.forall_mem_cons]
    refine ⟨trapIf_and_eq_none hu, trapIf_eq_none (List.any_eq_false.mpr fun j hj => ?_),
      trapIf_eq_none (List.any_eq_false.mpr fun j hj => ?_), by simp⟩
    · have h := hf j hj
      unfold Issue.datum at h
      cases hft : firstTarget (c.g.slices.get j).mask fun l => (c.g.slices.get j).datum l a.name.toNat with
      | none => simp
      | some f => simp [h f hft]
    · rw [Bool.not_eq_true, Bool.not_eq_false']
      exact ht j hj
  have hstep : ∀ j ∈ c.sls, g1.slices.get j = { c.g.slices.get j with
      pc := c.returnsTo a j, names := ((c.g.slices.get j).consumeAll (readsOf .always false a)).names,
      floors := (c.g.slices.get j).popFloor.floors } := by
    intro j hj
    have hw := Issue.wrote_same s (c := c) (fun _ x => Slice.consumeAll_same x (readsOf .always false a)) [] j
    unfold Slice.SameButNames at hw
    rw [hget j (hb j hj), if_pos hj, Slice.popFloor_eq, Slice.popFloor_floors_congr (y := c.g.slices.get j) (by rw [hw])]
    conv_lhs => rw [hw]
    rfl
  have hE := Issue.done_ends hi w priceLane (fun j hj hnj => by rw [hget j hj, if_neg hnj]) (by rw [hk])
  refine ⟨_, _, hx, ⟨hE.toAccounts, hE.others, fun j hj => ?_⟩, Issue.doneGroup_keeps hk _ _, fun j hj => ?_⟩
  · obtain ⟨h1, h2⟩ := hE.stands j hj
    rw [h1, h2, hstep j hj]
    exact ⟨Slice.settle_path rfl rfl, rfl⟩
  · obtain ⟨k, hk'⟩ := (c.doneGroup_get (s1.modGroup c.gid fun g => g.modSlices c.sls fun i sl =>
      { sl with pc := c.returnsTo a i }.popFloor).tick g1 priceLane hn hb (hb j hj)).2 hj
    rw [hk', hstep j hj]
    refine ⟨fun m _ => ?_, ?_, ?_, ?_⟩
    · simp only [Slice.cell, Slice.settle_names]
    · exact Slice.settle_preds _
    · exact Slice.settle_fflags _
    · exact Slice.settle_floors _

/-! ### Procedure headers (R23) -/

/-- The extra floor of a target: the low bits of the word before it, where that is a header. -/
theorem extraFloor_eq (code : Memory) (size : Nat) (target : Word32) :
    let w := codeWord code (target.toNat - 4)
    extraFloor code size target = if 4 ≤ target.toNat ∧ target.toNat ≤ size ∧ w.extractLsb' 22 10 = 0xFF ∧ w.extractLsb' 9 13 = 0
      then (w.extractLsb' 0 9).toNat else 0 := by
  intro w
  have hw : (w.extractLsb' 9 23).toNat = 0xFF * 2 ^ 13 ↔ w.extractLsb' 22 10 = 0xFF ∧ w.extractLsb' 9 13 = 0 := by
    have h := w.isLt
    have h1 : (0xFF : BitVec 10).toNat = 255 := rfl
    have h2 : (0 : BitVec 13).toNat = 0 := rfl
    simp only [← BitVec.toNat_inj, BitVec.extractLsb'_toNat, Nat.shiftRight_eq_div_pow, h1, h2]
    omega
  unfold extraFloor
  simp only [Bool.or_eq_true, decide_eq_true_eq]
  change (if _ then 0 else if (w.extractLsb' 9 23).toNat = _ then _ else 0) = _
  simp only [hw]
  by_cases h1 : target.toNat < 4 ∨ size < target.toNat
  · rw [if_pos h1, if_neg (by omega)]
  · rw [if_neg h1]
    obtain ⟨h2, h3⟩ : 4 ≤ target.toNat ∧ target.toNat ≤ size := by omega
    exact if_congr ⟨fun h => ⟨h2, h3, h⟩, fun h => h.2.2⟩ rfl rfl

end Sys2Proof.Machine

open Sys2Proof.Machine

/-- Settles O13: each transfer of control by its own lemma, the extra floor by the fields of the header word. -/
theorem callsAndReturnsComplete : Obligations.CallsAndReturnsComplete := by
  unfold Obligations.CallsAndReturnsComplete
  refine ⟨fun s c p u join disp hi => ?_, fun s c p u d a disp => ?_, fun s c p u n a join disp => ?_, extraFloor_eq⟩
  · exact br_transfers hi p u join disp
  · exact ⟨call_transfers p u d disp, calli_transfers p u d a⟩
  · exact ⟨ret_completes u a, jmpi_transfers p u n a join disp⟩
end

section
/-! Commands of launches (R336, R338, R350 to R355): the answer of a command taken at once, the launch table, and what an accepted launch
must satisfy. -/

open Sys2Proof
namespace Sys2Proof.Machine

/-! ### The frame of a command (R348 to R350) -/

/-- A command taken at once is answered as its meaning answers it. -/
theorem commandFrame_answers {h : CmdHdr} {s v : State} {x : Session} {opcode status : Nat} {cmd : Instr}
    {act : State → Option Nat → Answer} {body : List Nat} (ha : Accepted h s x) (ho : h.opcode = opcode)
    (hv : act (took h s x) x.target = (v, some (status, body))) : commandFrame s h opcode cmd act = replied v h status body := by
  obtain ⟨⟨hup, hses, hopen, hstay, htag, hnext, hfresh⟩, hidle, hhdr, hbound⟩ := ha
  have hc : x.waiting.contains h.seq = false := by simpa using hfresh
  have hf : (x.waiting.filter fun n => n != h.seq) = x.waiting :=
    List.filter_eq_self.mpr fun n hn => bne_iff_ne.mpr fun e => hfresh (e ▸ hn)
  have hb : (h.part.isSome && h.part != x.target) = false := by
    rcases hbound with e | e <;> simp [e]
  rw [ho] at hhdr
  unfold commandFrame
  simp only [hup, hses, hc, hf, hopen, htag, hstay, hidle, hhdr, hb, ← hnext, Bool.not_true, Bool.not_false, Bool.false_and,
    Bool.false_or, Bool.or_self, beq_self_eq_true, Bool.and_self, Bool.false_eq_true, if_false]
  simp only [took, hopen, hstay] at hv
  rw [hv]
  rfl

/-- So is a command to the partition of its session. -/
theorem partCommand_answers {h : CmdHdr} {s v : State} {x : Session} {part : Nat} {p : Partition} {opcode status : Nat} {cmd : Instr}
    {act : State → Nat → Partition → Answer} {body : List Nat} (hp : ForPartition h s x part p) (ho : h.opcode = opcode)
    (hv : act (begun h s x part) part p = (v, some (status, body))) :
    partCommand s h opcode cmd act = replied v h status body := by
  refine commandFrame_answers hp.toAccepted ho ?_
  have ht : tabGet? (took h s x).parts part = some p := hp.partition
  simp only [hp.target, ht]
  exact hv

/-- So is a command to a live grid of the partition. -/
theorem gridCommand_answers {h : CmdHdr} {s v : State} {x : Session} {part : Nat} {p : Partition} {number gid : Nat} {d : Grid}
    {opcode status : Nat} {cmd : Instr} {act : State → Nat → Grid → Answer} {body : List Nat}
    (hg : ForGrid h s x part p number gid d) (ho : h.opcode = opcode)
    (hv : act (begun h s x part) gid d = (v, some (status, body))) :
    gridCommand s h opcode number cmd act = replied v h status body := by
  refine partCommand_answers hg.toForPartition ho ?_
  simp only [hg.live, hg.grid]
  exact hv

/-! ### The launch table (R354, R355) -/

/-- The entry whose slot has come first is the one that the search for it finds. -/
theorem find_dueSlot {due : List (Nat × Nat)} {t entry : Nat} (hm : (t, entry) ∈ due) (hu : ∀ d ∈ due, d.2 = entry → d.1 = t) :
    due.find? (fun d => d.2 == entry) = some (t, entry) := by
  cases hf : due.find? fun d => d.2 == entry with
  | none => exact absurd (beq_self_eq_true entry) (List.find?_eq_none.mp hf (t, entry) hm)
  | some d =>
    have h2 : d.2 = entry := by simpa using List.find?_some hf
    have h1 := hu d (List.mem_of_find?_eq_some hf) h2
    rw [← h1, ← h2]

/-- The slot that has come first fires. -/
theorem launchTableSlot_fires {s : State} {part entry t : Nat} {p : Partition} (hp : tabGet? s.parts part = some p)
    (hm : (t, entry) ∈ dueSlots s p) (hmin : ∀ d ∈ dueSlots s p, t < d.1 ∨ t = d.1 ∧ entry ≤ d.2)
    (hu : ∀ d ∈ dueSlots s p, d.2 = entry → d.1 = t) :
    exec (.launchTableSlot part entry) s = .next (fireSlot s part p entry) := by
  have hall : ((dueSlots s p).all fun d => decide (t < d.1) || (t == d.1 && decide (entry ≤ d.2))) = true :=
    List.all_eq_true.mpr fun d hd => by simpa using hmin d hd
  show execLaunchTableSlot part entry s = _
  unfold execLaunchTableSlot
  simp only [hp, find_dueSlot hm hu, hall, if_true]

/-- A launch-table update whose entries and templates are in range replaces them. -/
theorem launchTableUpdate_replaces {h : CmdHdr} {s : State} {x : Session} {part : Nat} {p : Partition} {ts : List (Nat × LaunchBody)}
    {es : List (Nat × TableEntryCfg)} (hp : ForPartition h s x part p) (ho : h.opcode = 0x50) (he : ∀ e ∈ es, entryOk e = true)
    (ht : ∀ t ∈ ts, t.1 < 64) :
    ∃ q, exec (.launchTableUpdate h ts es) s = .next (replied { begun h s x part with parts := tabSet s.parts part q } h 0 []) ∧
      q.cfg = p.cfg ∧ (∀ i c, ts = [(i, c)] → tabGet? q.templates i = some c) ∧
      ∀ i e, es = [(i, e)] → ∃ f, tabGet? q.table i = some f ∧ f.first = e.first ∧ f.period = e.period ∧ f.template = e.template ∧
        f.overrun = e.overrun ∧ f.enable = e.enable ∧ f.count = (tabGet p.table {} i).count := by
  have hok : (es.all entryOk && ts.all fun t => decide (t.1 < 64)) = true := by
    rw [Bool.and_eq_true, List.all_eq_true, List.all_eq_true]
    exact ⟨he, fun t h => decide_eq_true (ht t h)⟩
  refine ⟨{ p with
    templates := ts.foldl (fun t x => tabSet t x.1 x.2) p.templates
    table := es.foldl (fun t x => tabSet t x.1 { tabGet t {} x.1 with
      first := x.2.first, period := x.2.period, template := x.2.template, overrun := x.2.overrun, enable := x.2.enable,
      slot := firstSlot s.gtime.toNat x.2 }) p.table }, ?_, rfl, ?_, ?_⟩
  · refine congrArg Host.Outcome.next (partCommand_answers hp ho ?_)
    simp only [hok, Bool.not_true, Bool.false_eq_true, if_false]
    rfl
  · rintro i c rfl
    exact tabGet?_tabSet_self _ _ _
  · rintro i e rfl
    exact ⟨_, tabGet?_tabSet_self _ _ _, rfl, rfl, rfl, rfl, rfl, rfl⟩

/-! ### What a launch must satisfy (R24, R336, R338, R352) -/

/-- A field of a shape word between 1 and its most. -/
def FieldWithin (w : BitVec 64) (lo n most : Nat) : Prop := 1 ≤ (w.extractLsb' lo n).toNat ∧ (w.extractLsb' lo n).toNat ≤ most

/-- What a deterministic launch asks of its shape word (R338, R352). -/
def ShapeHolds (c : LaunchCmd) (w : BitVec 64) : Prop :=
  (w.extractLsb' 48 16).toNat = 0 ∧ (w.extractLsb' 0 16).toNat = 0 ∧ FieldWithin w 44 4 12 ∧ FieldWithin w 42 2 2 ∧ FieldWithin w 38 4 8 ∧
  FieldWithin w 34 4 12 ∧ FieldWithin w 28 6 48 ∧ FieldWithin w 16 12 3072 ∧ c.floor * c.groups ≤ (w.extractLsb' 16 12).toNat ∧
  c.groups ≤ (w.extractLsb' 28 6).toNat ∧ c.rows ≤ (w.extractLsb' 38 4).toNat ∧ c.cols ≤ (w.extractLsb' 34 4).toNat ∧
  ((w.extractLsb' 44 4).toNat + c.minDies - 1) / c.minDies * (paramExtent c + c.dieBytes) ≤ 134217728

theorem determOk_iff {c : LaunchCmd} {w : BitVec 64} (hs : c.shape = if c.determ then some w else none) :
    determOk c = true ↔ (c.determ = true → ShapeHolds c w) := by
  cases hd : c.determ
  · simp [determOk, hd]
  · rw [hd, if_pos rfl] at hs
    simp only [determOk, hd, hs, shapeOk, ShapeHolds, FieldWithin, Bool.and_eq_true, beq_iff_eq, decide_eq_true_eq,
      List.all_cons, List.all_nil, and_true, forall_const, and_assoc]
    rfl

/-- The limits of a launch as numbers, `w` the shape word of a deterministic one. -/
def WithinLimits (cfg : PartitionCfg) (c : LaunchCmd) (w : BitVec 64) : Prop :=
  (1 ≤ c.floor ∧ c.floor ≤ 512 ∧ c.floor * 8 * c.groups ≤ 24576) ∧ (1 ≤ c.groups ∧ c.groups ≤ 16) ∧
  (c.teamBytes ≤ 524288 ∧ c.teamBytes % 256 = 0 ∧ c.coreImage.length ≤ c.teamBytes) ∧
  (1 ≤ c.rows ∧ c.rows ≤ 8 ∧ 1 ≤ c.cols ∧ c.cols ≤ 12 ∧ c.rows * c.cols ≤ 12) ∧
  (c.sramBytes ≤ 33554432 ∧ c.sramBytes % 4096 = 0) ∧ (1 ≤ c.panels ∧ c.panels < 2 ^ 32) ∧
  (c.dieBytes % 4096 = 0 ∧ paramExtent c + c.dieBytes ≤ 134217728) ∧
  (1 ≤ c.minDies ∧ c.minDies ≤ c.maxDies ∧ c.maxDies ≤ 12) ∧ c.prio ≤ 15 ∧ (∀ b ∈ c.bounds, b.1 < 8) ∧
  (c.entry + 4 ≤ c.codeSize ∧ c.entry < 2 ^ 32 ∧ c.entry % 4 = 0) ∧
  c.minDies ≤ cfg.dies.length ∧ c.floor * c.groups ≤ cfg.vsLimit ∧ (c.determ = true → ShapeHolds c w)

/-- An entry that an address can name lies in the code where the address does (R112). -/
theorem targetOk_ofNat {size n : Nat} (h : n < 2 ^ 32) : targetOk size (BitVec.ofNat 32 n) = true ↔ n + 4 ≤ size ∧ n % 4 = 0 := by
  simp only [targetOk, BitVec.toNat_ofNat, Nat.mod_eq_of_lt h, Bool.and_eq_true, beq_iff_eq, decide_eq_true_eq]
  exact and_comm

theorem launchOk_iff (cfg : PartitionCfg) {c : LaunchCmd} {w : BitVec 64} (hs : c.shape = if c.determ then some w else none) :
    launchOk cfg c = true ↔ WithinLimits cfg c w := by
  have he : (targetOk c.codeSize (BitVec.ofNat 32 c.entry) = true ∧ c.entry < 2 ^ 32) ↔
      (c.entry + 4 ≤ c.codeSize ∧ c.entry < 2 ^ 32 ∧ c.entry % 4 = 0) := by
    constructor
    · rintro ⟨h1, h2⟩
      exact ⟨((targetOk_ofNat h2).mp h1).1, h2, ((targetOk_ofNat h2).mp h1).2⟩
    · rintro ⟨h1, h2, h3⟩
      exact ⟨(targetOk_ofNat h2).mpr ⟨h1, h3⟩, h2⟩
  simp only [launchOk, attributesOk, WithinLimits, Bool.and_eq_true, decide_eq_true_eq, List.all_eq_true, determOk_iff hs]
  constructor
  · rintro ⟨⟨⟨⟨⟨⟨⟨⟨⟨⟨⟨⟨⟨⟨hfloor, hgroups⟩, hteam⟩, hrows⟩, hsram⟩, hpanels⟩, hdie⟩, hdies⟩, hprio⟩, hbounds⟩, hdet⟩,
      htarget⟩, hentry⟩, hmin⟩, hvs⟩
    exact ⟨hfloor, hgroups, hteam, hrows, hsram, hpanels, hdie, hdies, hprio, hbounds, he.mp ⟨htarget, hentry⟩, hmin, hvs, hdet⟩
  · rintro ⟨hfloor, hgroups, hteam, hrows, hsram, hpanels, hdie, hdies, hprio, hbounds, hentry, hmin, hvs, hdet⟩
    obtain ⟨htarget, hlt⟩ := he.mpr hentry
    exact ⟨⟨⟨⟨⟨⟨⟨⟨⟨⟨⟨⟨⟨⟨hfloor, hgroups⟩, hteam⟩, hrows⟩, hsram⟩, hpanels⟩, hdie⟩, hdies⟩, hprio⟩, hbounds⟩, hdet⟩,
      htarget⟩, hlt⟩, hmin⟩, hvs⟩

/-! ### A launch accepted (R336, R352) -/

theorem resolveShape_eq (c : LaunchCmd) :
    resolveShape c = { c with shape := if c.determ then some (c.shape.getD physicalShape) else none } := by
  unfold resolveShape
  split <;> rfl

/-- A launch of a kernel of the image takes the kernel's values with its overrides, and a shape word where it is deterministic (R24, R338,
R352). -/
theorem resolveLaunch_some (s : State) (part : Nat) {b : LaunchBody} {at_ : Nat} {k : KernelAttrs}
    (hk : b.image.kernels[b.kernel]? = some (at_, k)) :
    ∃ c, resolveLaunch s part b = some c ∧
      let o := b.changes
      (c.floor, c.groups, c.teamBytes, c.rows, c.cols, c.sramBytes, c.panels, c.dieBytes, c.minDies, c.maxDies, c.prio, c.determ) =
        (o.floor.getD k.floor, o.groups.getD k.groups, o.teamBytes.getD k.teamBytes, o.rows.getD k.rows, o.cols.getD k.cols,
         o.sramBytes.getD k.sramBytes, o.panels.getD k.panels, o.dieBytes.getD k.dieBytes, o.minDies.getD k.minDies,
         o.maxDies.getD k.maxDies, o.prio.getD k.prio, o.determ.getD k.determ) ∧
      (c.entry, c.codeSize, c.bounds) = (at_, b.image.codeSize, b.bounds) ∧
      c.shape = if c.determ then some (b.shape.getD physicalShape) else none := by
  unfold resolveLaunch
  simp only [hk, Option.map_some, resolveShape_eq]
  exact ⟨_, rfl, rfl, rfl, rfl⟩

/-- A launch of no kernel of the image is refused. -/
theorem acceptLaunch_noKernel (s : State) (part : Nat) {b : LaunchBody} (entry : Option Nat) (hk : b.image.kernels[b.kernel]? = none) :
    acceptLaunch s part b entry = (s, none) := by
  have hr : resolveLaunch s part b = none := by simp [resolveLaunch, hk]
  unfold acceptLaunch
  rw [hr]
  cases tabGet? s.parts part <;> rfl

/-- So is one outside its limits. -/
theorem acceptLaunch_refused {s : State} {part : Nat} {p : Partition} {b : LaunchBody} {c : LaunchCmd} (entry : Option Nat)
    (hp : tabGet? s.parts part = some p) (hc : resolveLaunch s part b = some c) (hn : launchOk p.cfg c = false) :
    acceptLaunch s part b entry = (s, none) := by
  unfold acceptLaunch
  simp only [hp, hc, hn, Bool.false_eq_true, if_false]

/-- Any other is a waiting grid with the partition's next number, and nothing else of groups or memory changes. -/
theorem acceptLaunch_accepted {s : State} {part : Nat} {p : Partition} {b : LaunchBody} {c : LaunchCmd} (entry : Option Nat)
    (hp : tabGet? s.parts part = some p) (hc : resolveLaunch s part b = some c) (hok : launchOk p.cfg c = true) :
    ∃ v d, acceptLaunch s part b entry = (v, some s.grids.length) ∧ v.grids = s.grids ++ [d] ∧ d.cmd = c ∧ d.part = part ∧
      d.number = p.nextGrid % 2 ^ 32 ∧ d.status = .waiting ∧ d.dies = [] ∧ v.groups = s.groups ∧ v.mem = s.mem ∧
      ∃ q, tabGet? v.parts part = some q ∧ q.nextGrid = p.nextGrid + 1 := by
  unfold acceptLaunch
  simp only [hp, hc, hok, if_true]
  exact ⟨_, _, rfl, rfl, rfl, rfl, rfl, rfl, rfl, rfl, rfl, _, tabGet?_tabSet_self _ _ _, rfl⟩

/-- A launch command is answered with the number of the grid it has started, or with status 4 where it starts none. -/
theorem launch_answers {h : CmdHdr} {s : State} {x : Session} {part : Nat} {p : Partition} (hp : ForPartition h s x part p)
    (cmd : LaunchBody) (ho : h.opcode = 0x20) :
    let u := fireDue (begun h s x part) part p.table.length
    (∀ v g d, acceptLaunch u part cmd none = (v, some g) → v.grids[g]? = some d →
      exec (.launch h cmd) s = .next (replied v h 0 [d.number])) ∧
    ∀ v, acceptLaunch u part cmd none = (v, none) → exec (.launch h cmd) s = .next (replied u h 4 []) := by
  intro u
  constructor
  · intro v g d ha hd
    refine congrArg Host.Outcome.next (partCommand_answers hp ho ?_)
    simp only [u] at ha
    simp only [ha, hd]
    rfl
  · intro v ha
    refine congrArg Host.Outcome.next (partCommand_answers hp ho ?_)
    simp only [u] at ha
    simp only [ha]
    rfl

end Sys2Proof.Machine

open Sys2Proof.Machine

/-- Settles O45: the commands by their frames, acceptance by the limits of a launch as numbers. -/
theorem launchCommandsComplete : Obligations.LaunchCommandsComplete := by
  unfold Obligations.LaunchCommandsComplete
  refine ⟨fun s h x part p hp => ⟨launch_answers hp, fun number gid d ho hg => ?_, fun ts es => launchTableUpdate_replaces hp,
    fun entry t => launchTableSlot_fires hp.partition⟩, fun s part p cmd entry hp => ⟨acceptLaunch_noKernel s part entry,
    fun at_ k hk => ?_⟩⟩
  · exact congrArg Host.Outcome.next (gridCommand_answers hg ho rfl)
  · obtain ⟨c, hc, hattrs, hplace, hshape⟩ := resolveLaunch_some s part hk
    have hok := launchOk_iff p.cfg hshape
    refine ⟨c, hc, hattrs, hplace, fun hbad => ?_, fun hgood => ?_⟩
    · exact acceptLaunch_refused entry hp hc (Bool.eq_false_iff.mpr fun h => hbad (hok.mp h))
    · exact acceptLaunch_accepted entry hp hc (hok.mpr hgood)
end

section
/-! Uniform arithmetic, moves and capability queries (R39, R81, R241): the completion of each operand form, and from these the
settlement of O5. -/

open Sys2Proof
namespace Sys2Proof.Machine

/-- Format U with two registers. -/
theorem uniRR_sets {c : Issue} {s : State} {d a b : BitVec 6} {f : Word64 → Word64 → Word64} {i : Instr}
    (h : c.UniReady s [d] [a, b]) (he : exec i s = uniRR s d a b f) : c.Sets s i 4 d (f (c.g.g a) (c.g.g b)) :=
  uniStep_sets (f := fun g => f (g.g a) (g.g b)) he h

/-- Format U with an immediate. -/
theorem uniRI_sets {c : Issue} {s : State} {d a : BitVec 6} {v : BitVec 10} {f : Word64 → Word64 → Word64} {i : Instr}
    (h : c.UniReady s [d] [a]) (he : exec i s = uniRI s d a v f) : c.Sets s i 4 d (f (c.g.g a) (v.signExtend 64)) :=
  uniStep_sets (f := fun g => f (g.g a) (v.signExtend 64)) he h

/-- Format U2. -/
theorem uniWideOp_sets {c : Issue} {s : State} {d a : BitVec 6} {u : UOp} {f : Word64 → Word64 → Word64} {i : Instr}
    (h : c.UniReady s [d] (a :: uopRegs u)) (he : exec i s = uniWideOp s d a u f) :
    c.Sets s i 8 d (f (c.g.g a) (uopValue c.g u)) :=
  uniStep_sets (f := fun g => f (g.g a) (uopValue g u)) he h

/-- A capability query answers for the group as it stands at the issue (R241). -/
theorem capqStep_sets {c : Issue} {s : State} {len : Nat} {d : BitVec 6} {regs : List (BitVec 6)} {n : Group → Nat} {i : Instr}
    (h : c.UniReady s [d] regs) (he : exec i s = capqStep s len d regs n) :
    c.Sets s i len d (capability s c.g (n c.g)) :=
  advance_sets h.issues (he.trans (uniFrame_ready h _ rfl _))

end Sys2Proof.Machine

open Sys2Proof.Machine

/-- Settles O5: one completion lemma per operand form, applied to each instruction's meaning. -/
theorem uniformInstructionsSet : Obligations.UniformInstructionsSet := by
  unfold Obligations.UniformInstructionsSet
  intro s c d a b i w u cond
  refine ⟨fun h => ?_, fun h => ?_, fun h => ?_, fun h => ?_⟩
  · exact ⟨uniRR_sets h rfl, uniRR_sets h rfl, uniRR_sets h rfl, uniRR_sets (f := resGshl) h rfl, uniRR_sets (f := resGshr) h rfl,
      uniRR_sets h rfl, uniRR_sets h rfl, uniRR_sets h rfl⟩
  · exact ⟨uniRI_sets h rfl, uniRI_sets h rfl, uniRI_sets h rfl, uniRI_sets (f := resGshl) h rfl, uniRI_sets (f := resGshr) h rfl,
      uniRI_sets h rfl, uniRI_sets h rfl, uniRI_sets h rfl, uniStep_sets (f := fun g => g.g a) rfl h,
      capqStep_sets (n := fun g => (g.g a).toNat) h rfl⟩
  · exact ⟨uniWideOp_sets h rfl, uniWideOp_sets h rfl, uniWideOp_sets h rfl, uniWideOp_sets (f := resGshl) h rfl,
      uniWideOp_sets (f := resGshr) h rfl, uniWideOp_sets h rfl, uniWideOp_sets h rfl, uniWideOp_sets h rfl,
      uniWideOp_sets (f := fun x y => if resGcmp cond x y then 1 else 0) h rfl⟩
  · exact ⟨uniStep_sets (f := fun _ => i.signExtend 64) rfl h, uniStep_sets (f := fun _ => w.signExtend 64) rfl h,
      uniStep_sets (f := fun g => w ++ (g.g d).extractLsb' 0 32) rfl h, capqStep_sets (n := fun _ => i.toNat) h rfl,
      capqStep_sets (n := fun _ => w.toNat) h rfl⟩
end

section
/-! Operands that are not at hand (R36, R37, R75, R140, R242): what the frame of a lane instruction answers then, whatever the instruction
would do, and from this the settlement of O52. -/

open Sys2Proof
namespace Sys2Proof.Machine

/-- The reads `rs`, under writes of `names` and the uniform registers `regs`, stop the instruction: exhausted names first, then empty
reads, then failed producers, and an empty or spilled cell holds the gang (R75). -/
def Issue.StoppedBy (c : Issue) (s : State) (p : Pred) (names : List Nat) (rs : List NameRead) (regs : List (BitVec 6))
    (i : Instr) : Prop :=
  let ds := names.map fun n => (p, n)
  ((∃ j ∈ c.sls, (c.g.slices.get j).exhausted rs = true) → exec i s = .next (trapEntry s c.gid { cause := 4 } c.sls)) ∧
  ((∀ j ∈ c.sls, (c.g.slices.get j).exhausted rs = false) → (∃ j ∈ c.sls, (c.g.slices.get j).emptyRead rs = true) →
    exec i s = .next (trapEntry s c.gid { cause := 5 } c.sls)) ∧
  ((∀ j ∈ c.sls, (c.g.slices.get j).exhausted rs = false ∧ (c.g.slices.get j).emptyRead rs = false) →
    (∀ f, nameTrap c rs ds = some f → f.cause = 11 ∧ exec i s = .next (trapEntry s c.gid f c.sls)) ∧
    (nameTrap c rs ds = none → c.failedReg regs = none → mustWait c rs [] = true →
      exec i s = .next (c.hold s (wantsOf c rs []))))

/-! ### The name traps (R75) -/

/-- An exhausted name comes before every other trap of the names. -/
theorem nameTrap_exhausted {c : Issue} {rs : List NameRead} (ds : List (Pred × Nat))
    (h : ∃ j ∈ c.sls, (c.g.slices.get j).exhausted rs = true) : nameTrap c rs ds = some { cause := 4 } := by
  unfold nameTrap
  rw [if_pos (List.any_eq_true.mpr h)]

/-- An empty read comes next. -/
theorem nameTrap_emptyRead {c : Issue} {rs : List NameRead} (ds : List (Pred × Nat))
    (hx : ∀ j ∈ c.sls, (c.g.slices.get j).exhausted rs = false) (h : ∃ j ∈ c.sls, (c.g.slices.get j).emptyRead rs = true) :
    nameTrap c rs ds = some { cause := 5 } := by
  have hx' : (c.sls.any fun j => (c.g.slices.get j).exhausted rs) = false := List.any_eq_false.mpr fun j hj => by simp [hx j hj]
  unfold nameTrap
  rw [if_neg (by simp [hx']), if_pos (List.any_eq_true.mpr h)]

/-- What is left is the machine check of a failed producer. -/
theorem nameTrap_failed {c : Issue} {rs : List NameRead} {ds : List (Pred × Nat)}
    (h : ∀ j ∈ c.sls, (c.g.slices.get j).exhausted rs = false ∧ (c.g.slices.get j).emptyRead rs = false) {f : Trap}
    (hf : nameTrap c rs ds = some f) : f.cause = 11 := by
  have hx : (c.sls.any fun j => (c.g.slices.get j).exhausted rs) = false :=
    List.any_eq_false.mpr fun j hj => by simp [(h j hj).1]
  have he : (c.sls.any fun j => (c.g.slices.get j).emptyRead rs) = false :=
    List.any_eq_false.mpr fun j hj => by simp [(h j hj).2]
  unfold nameTrap at hf
  rw [if_neg (by simp [hx]), if_neg (by simp [he]), Option.map_eq_some_iff] at hf
  obtain ⟨x, _, rfl⟩ := hf
  rfl

/-! ### The frame of a lane instruction -/

/-- A name trap is taken before anything else. -/
theorem laneStep_nameTrap {c : Issue} {s : State} {rs : List NameRead} {ds : List (Pred × Nat)} {f : Trap}
    (h : nameTrap c rs ds = some f) (entry : Option Trap) (act : Unit → Commit) (regs : List (BitVec 6)) :
    laneStep s c rs ds entry act regs = trapEntry s c.gid f c.sls := by
  unfold laneStep
  rw [h]
  rfl

/-- A source that is empty or spilled holds the gang, before the traps of the entry. -/
theorem laneStep_mustWait {c : Issue} {s : State} {rs : List NameRead} {ds : List (Pred × Nat)} {regs : List (BitVec 6)}
    (hn : nameTrap c rs ds = none) (hr : c.failedReg regs = none) (hw : mustWait c rs [] = true) (entry : Option Trap)
    (act : Unit → Commit) : laneStep s c rs ds entry act regs = c.hold s (wantsOf c rs []) := by
  unfold laneStep
  simp only [hn, hr, hw, Bool.or_true, if_true]

/-- An instruction that goes through the frame is stopped by its operands. -/
theorem laneStep_stoppedBy {c : Issue} {s : State} {p : Pred} {names : List Nat} {rs : List NameRead} {regs : List (BitVec 6)} {i : Instr}
    {entry : Option Trap} {act : Unit → Commit}
    (he : exec i s = .next (laneStep s c rs (names.map fun n => (p, n)) entry act regs)) : c.StoppedBy s p names rs regs i := by
  have htrap {f : Trap} (h : nameTrap c rs (names.map fun n => (p, n)) = some f) :
      exec i s = .next (trapEntry s c.gid f c.sls) := by rw [he, laneStep_nameTrap h]
  refine ⟨fun h => htrap (nameTrap_exhausted _ h), fun hx h => htrap (nameTrap_emptyRead _ hx h), fun h => ⟨fun f hf => ?_, ?_⟩⟩
  · exact ⟨nameTrap_failed h hf, htrap hf⟩
  · intro hn hr hw
    rw [he, laneStep_mustWait hn hr hw]

theorem aluStep_stoppedBy {c : Issue} {s : State} (hi : issueOf s = some c) {p : Pred} {d : Dst} {wide : Bool} {rs : List NameRead}
    {price : Price} {f : Group → Slice → Nat → Nat × FlagSet} {regs : List (BitVec 6)} {i : Instr}
    (he : exec i s = aluStep s p d wide rs price f regs) : c.StoppedBy s p (destNames wide d) rs regs i := by
  unfold aluStep at he
  simp only [hi] at he
  exact laneStep_stoppedBy he

theorem predStep_stoppedBy {c : Issue} {s : State} (hi : issueOf s = some c) {p : Pred} {qd : BitVec 4} {rs : List NameRead}
    {f : Group → Slice → Nat → Bool × FlagSet} {regs : List (BitVec 6)} {i : Instr}
    (he : exec i s = predStep s p qd rs f regs) : c.StoppedBy s p [] rs regs i := by
  unfold predStep at he
  simp only [hi] at he
  exact laneStep_stoppedBy (names := []) he

theorem unStep_stoppedBy {c : Issue} {s : State} (hi : issueOf s = some c) {p : Pred} {d : Dst} {a : Src} {wideD wideA : Bool}
    {f : Nat → Nat} {i : Instr} (he : exec i s = unStep s p d a wideD wideA f) :
    c.StoppedBy s p (destNames wideD d) (readsOf p wideA a) [] i := aluStep_stoppedBy hi he

theorem binStep_stoppedBy {c : Issue} {s : State} (hi : issueOf s = some c) {p : Pred} {d : Dst} {a : Src} {b : OpB}
    {wideD wideA wideB : Bool} {f : Nat → Nat → Nat} {i : Instr} (he : exec i s = binStep s p d a b wideD wideA wideB f) :
    c.StoppedBy s p (destNames wideD d) (readsOf p wideA a ++ opbReads b p wideB) (opbRegs b) i := aluStep_stoppedBy hi he

theorem triStep_stoppedBy {c : Issue} {s : State} (hi : issueOf s = some c) {p : Pred} {d : Dst} {a : Src} {b : OpB} {x : Src}
    {wide wideB wideC : Bool} {f : Nat → Nat → Nat → Nat} {i : Instr} (he : exec i s = triStep s p d a b x wide wideB wideC f) :
    c.StoppedBy s p (destNames wide d) (readsOf p wide a ++ opbReads b p wideB ++ readsOf p wideC x) (opbRegs b) i :=
  aluStep_stoppedBy hi he

theorem floatStep1_stoppedBy {c : Issue} {s : State} (hi : issueOf s = some c) {p : Pred} {d : Dst} {a : Src} {price : Price}
    {f : Arith → Nat → Nat × FlagSet} {i : Instr} (he : exec i s = floatStep1 s p d a price f) :
    c.StoppedBy s p (destNames false d) (readsOf p false a) [] i := aluStep_stoppedBy hi he

theorem floatStep2_stoppedBy {c : Issue} {s : State} (hi : issueOf s = some c) {p : Pred} {d : Dst} {a : Src} {b : OpB}
    {f : Arith → Nat → Nat → Nat × FlagSet} {i : Instr} (he : exec i s = floatStep2 s p d a b f) :
    c.StoppedBy s p (destNames false d) (readsOf p false a ++ opbReads b p false) (opbRegs b) i := aluStep_stoppedBy hi he

theorem floatStep3_stoppedBy {c : Issue} {s : State} (hi : issueOf s = some c) {p : Pred} {d : Dst} {a : Src} {b : OpB} {x : Src}
    {f : Arith → Nat → Nat → Nat → Nat × FlagSet} {i : Instr} (he : exec i s = floatStep3 s p d a b x f) :
    c.StoppedBy s p (destNames false d) (readsOf p false a ++ opbReads b p false ++ readsOf p false x) (opbRegs b) i :=
  aluStep_stoppedBy hi he

/-! ### The instructions that go through the frame on their own -/

theorem mxq_stoppedBy {c : Issue} {s : State} (hi : issueOf s = some c) (p : Pred) (d : Dst) (a : Src) (t st : Ty) :
    c.StoppedBy s p (destNames false d) (readsOf p false a) [] (.mxq p d a t st) := by
  have he : exec (.mxq p d a t st) s = execMxq p d a t st s := rfl
  unfold execMxq at he
  simp only [hi] at he
  exact aluStep_stoppedBy hi he

/-- `pack` reads its third source only for a narrow target (R105). -/
theorem pack_stoppedBy {c : Issue} {s : State} (hi : issueOf s = some c) (p : Pred) (d : Dst) (a y x : Src) (t st : Ty) (k : BitVec 2) :
    c.StoppedBy s p (destNames false d)
      (readsOf p false a ++ readsOf p false y ++ if tyCodeBits t = 16 then [] else readsOf p false x) [] (.pack p d a y x t st k) := by
  have he : exec (.pack p d a y x t st k) s = execPack p d a y x t st k s := rfl
  unfold execPack at he
  have hc : (if (tyCodeBits t != 16) = true then readsOf p false x else []) =
      if tyCodeBits t = 16 then [] else readsOf p false x := by
    by_cases h : tyCodeBits t = 16 <;> simp [h]
  simp only [hc] at he
  exact aluStep_stoppedBy hi he

theorem ld_stoppedBy {c : Issue} {s : State} (hi : issueOf s = some c) (p : Pred) (d : Dst) (m : Mem) (n : BitVec 2) (t : Ty) :
    c.StoppedBy s p (elementNames d.name.toNat (2 ^ n.toNat) t.wide) (memReads p m) [m.base] (.ld p d m n t) := by
  have he : exec (.ld p d m n t) s = execLd p d m n t s := rfl
  unfold execLd at he
  simp only [hi] at he
  exact laneStep_stoppedBy he

theorem st_stoppedBy {c : Issue} {s : State} (hi : issueOf s = some c) (p : Pred) (m : Mem) (a : Src) (n : BitVec 2) (t : Ty) :
    c.StoppedBy s p []
      (memReads p m ++ (elementNames a.name.toNat (2 ^ n.toNat) t.wide).map fun k => ⟨p, { a with name := BitVec.ofNat 9 k }⟩) [m.base]
      (.st p m a n t) := by
  have he : exec (.st p m a n t) s = execSt p m a n t s := rfl
  unfold execSt at he
  simp only [hi] at he
  exact laneStep_stoppedBy (names := []) he

theorem atom_stoppedBy {c : Issue} {s : State} (hi : issueOf s = some c) (p : Pred) (d : Dst) (m : Mem) (a x : Src) (op : AtomOp)
    (ord : Order) (t : Ty) :
    c.StoppedBy s p (elementNames d.name.toNat 1 t.wide)
      (memReads p m ++ readsOf p t.wide a ++ if op = .cas then readsOf p t.wide x else []) [m.base] (.atom p d m a x op ord t) := by
  have he : exec (.atom p d m a x op ord t) s = execAtom p d m a x op ord t s := rfl
  unfold execAtom at he
  simp only [hi] at he
  exact laneStep_stoppedBy he

end Sys2Proof.Machine

open Sys2Proof.Machine

/-- Settles O52: every instruction named goes through the frame of a lane instruction with the reads given. -/
theorem namesStopTheirReaders : Obligations.NamesStopTheirReaders := by
  unfold Obligations.NamesStopTheirReaders
  intro s c p d a b x y t st qd m n hi
  simp only [List.forall_mem_cons]
  refine ⟨fun sat => ⟨binStep_stoppedBy hi rfl, binStep_stoppedBy hi rfl, List.forall_mem_nil _⟩, ?_, fun scale => binStep_stoppedBy hi rfl,
    ?_, ⟨triStep_stoppedBy hi rfl, triStep_stoppedBy hi rfl, List.forall_mem_nil _⟩, triStep_stoppedBy hi rfl,
    triStep_stoppedBy hi rfl, aluStep_stoppedBy hi (show _ = execMov p d b t s from rfl), ?_,
    ⟨unStep_stoppedBy hi rfl, unStep_stoppedBy hi rfl, unStep_stoppedBy hi rfl, List.forall_mem_nil _⟩, ?_,
    ⟨floatStep3_stoppedBy hi rfl, floatStep3_stoppedBy hi rfl, List.forall_mem_nil _⟩, ?_,
    fun rint => aluStep_stoppedBy hi (show _ = execCvt p d a t st rint s from rfl),
    fun k => floatStep1_stoppedBy hi (show _ = execUnpack p d a t k s from rfl), pack_stoppedBy hi p d a y x t st,
    fun cond => predStep_stoppedBy hi (show _ = execCmp p qd a b t cond s from rfl),
    fun cond => predStep_stoppedBy hi (show _ = execFcmp p qd a b t cond s from rfl), ld_stoppedBy hi p d m n t,
    st_stoppedBy hi p m a n t, fun op ord => atom_stoppedBy hi p d m a x op ord t⟩
  · exact ⟨binStep_stoppedBy hi rfl, binStep_stoppedBy hi rfl, binStep_stoppedBy hi rfl, binStep_stoppedBy hi rfl,
      binStep_stoppedBy hi rfl, binStep_stoppedBy hi rfl, binStep_stoppedBy hi rfl, binStep_stoppedBy hi rfl,
      binStep_stoppedBy hi rfl, binStep_stoppedBy hi rfl, List.forall_mem_nil _⟩
  · exact ⟨binStep_stoppedBy hi rfl, binStep_stoppedBy hi rfl, binStep_stoppedBy hi rfl, binStep_stoppedBy hi rfl,
      binStep_stoppedBy hi rfl, List.forall_mem_nil _⟩
  · exact ⟨unStep_stoppedBy hi rfl, unStep_stoppedBy hi rfl, unStep_stoppedBy hi rfl, unStep_stoppedBy hi rfl, List.forall_mem_nil _⟩
  · exact ⟨floatStep2_stoppedBy hi rfl, floatStep2_stoppedBy hi rfl, floatStep2_stoppedBy hi rfl, floatStep2_stoppedBy hi rfl,
      floatStep2_stoppedBy hi rfl, floatStep2_stoppedBy hi rfl, floatStep2_stoppedBy hi rfl, List.forall_mem_nil _⟩
  · exact ⟨unStep_stoppedBy hi rfl, unStep_stoppedBy hi rfl, unStep_stoppedBy hi rfl, floatStep1_stoppedBy hi rfl,
      floatStep1_stoppedBy hi rfl, floatStep1_stoppedBy hi rfl, floatStep1_stoppedBy hi rfl, floatStep1_stoppedBy hi rfl,
      floatStep1_stoppedBy hi rfl, floatStep1_stoppedBy hi rfl, floatStep1_stoppedBy hi rfl, mxq_stoppedBy hi p d a t st,
      floatStep1_stoppedBy hi (show _ = execMxdq p d a t s from rfl), unStep_stoppedBy hi rfl, List.forall_mem_nil _⟩
end

section
/-! The life of a name (R34, R35, R36, R144): what the reads of an instruction leave in a name's cell, what a write on some lanes leaves
there, and from these the settlement of O51. -/

open Sys2Proof
namespace Sys2Proof.Machine

/-! ### Tables whose keys differ -/

/-- A key replaced keeps the list of keys. -/
theorem keys_tabSet {α : Type} {t : Table α} {k : Nat} {w : α} (h : tabGet? t k = some w) (v : α) :
    ((tabSet t k v).map fun e => e.1) = t.map fun e => e.1 := by
  induction t with
  | nil => cases h
  | cons e r ih =>
    obtain ⟨j, x⟩ := e
    by_cases hj : j = k
    · simp [tabSet, hj]
    · simp only [tabGet?, hj, if_false] at h
      simp [tabSet, hj, ih h]

theorem tabGet?_eq_none {α : Type} {t : Table α} {k : Nat} (h : k ∉ t.map fun e => e.1) : tabGet? t k = none := by
  induction t with
  | nil => rfl
  | cons e r ih =>
    obtain ⟨j, x⟩ := e
    simp only [List.map_cons, List.mem_cons, not_or] at h
    simp only [tabGet?, Ne.symm h.1, if_false]
    exact ih h.2

/-- With one entry to a key, a filter keeps or drops the record of the key. -/
theorem tabGet?_filter_of_nodup {α : Type} {t : Table α} (hn : (t.map fun e => e.1).Nodup) (q : Nat × α → Bool) (k : Nat) :
    tabGet? (t.filter q) k = (tabGet? t k).filter fun v => q (k, v) := by
  induction t with
  | nil => rfl
  | cons e r ih =>
    obtain ⟨j, x⟩ := e
    obtain ⟨hj, hr⟩ := List.nodup_cons.mp hn
    specialize ih hr
    by_cases hk : j = k
    · subst hk
      rw [tabGet?_eq_none hj] at ih
      cases hq : q (j, x) <;> simp [hq, tabGet?, ih, Option.filter]
    · cases hq : q (j, x) <;> simp [hq, tabGet?, hk, ih]

/-! ### Reads (R36) -/

theorem Quad.make_congr {α : Type} {f g : Nat → α} (h : ∀ l, l < 4 → f l = g l) : Quad.make f = Quad.make g := by
  simp only [Quad.make, h 0 (by decide), h 1 (by decide), h 2 (by decide), h 3 (by decide)]

theorem Quad.make_get {α : Type} (q : Quad α) : Quad.make q.get = q := rfl

/-- How many appearances of a name read on a lane, one read more at the front. -/
theorem Slice.appearances_cons (sl : Slice) (r : NameRead) (rs : List NameRead) (l : Nat) (n : BitVec 9) :
    sl.appearances (r :: rs) l n = sl.appearances rs l n + if r.src.name == n && sl.reads l r then 1 else 0 := by
  unfold Slice.appearances
  cases h : (r.src.name == n && sl.reads l r)
  · rw [List.filter_cons_of_neg (by simp only [h]; decide)]
    rfl
  · rw [List.filter_cons_of_pos (by exact h)]
    rfl

/-- A cell after one read on the lanes of a mask: a use less where no pin keeps it, and a spilled image to write anew (R36, R144). -/
def Cell.readOn (c : Cell) (mask : BitVec 4) : Cell :=
  { c with
    count := Quad.make fun l => if mask.getLsbD l && !c.pin.get l then c.count.get l - 1 else c.count.get l
    spilling := c.spilling || c.spilled }

/-- A name's cell after the reads `rs` of a slice: each lane without its pin has used up as many uses as there are appearances that read
on it, and a spilled cell that is read has its image written anew (R36, R144). -/
def Slice.used (sl : Slice) (rs : List NameRead) (n : BitVec 9) (c : Cell) : Cell :=
  { c with
    count := Quad.make fun l => if c.pin.get l then c.count.get l else c.count.get l - BitVec.ofNat 3 (sl.appearances rs l n)
    spilling := c.spilling || (rs.any fun r => r.src.name == n) && c.spilled }

theorem Slice.used_nil (sl : Slice) (n : BitVec 9) (c : Cell) : sl.used [] n c = c := by
  have h : (Quad.make fun l => if c.pin.get l then c.count.get l else c.count.get l - BitVec.ofNat 3 (sl.appearances [] l n)) = c.count := by
    refine (Quad.make_congr fun l _ => ?_).trans (Quad.make_get c.count)
    simp [Slice.appearances]
  unfold Slice.used
  rw [h]
  simp

/-- A read of another name leaves the cell. -/
theorem Slice.used_cons_other (sl : Slice) {r : NameRead} (rs : List NameRead) {n : BitVec 9} (c : Cell) (h : r.src.name ≠ n) :
    sl.used (r :: rs) n c = sl.used rs n c := by
  have hb : (r.src.name == n) = false := by simpa using h
  simp [Slice.used, Slice.appearances_cons, hb]

/-- A read of the name takes one use on the lanes it reads on, the later reads theirs. -/
theorem Slice.used_cons_self (sl : Slice) {r : NameRead} (rs : List NameRead) {n : BitVec 9} (c : Cell) (h : r.src.name = n) :
    sl.used (r :: rs) n c = sl.used rs n (c.readOn (sl.active r.p)) := by
  have hb : (r.src.name == n) = true := by simpa using h
  have hc (l : Nat) (hl : l < 4) :
      (if c.pin.get l then c.count.get l else c.count.get l - BitVec.ofNat 3 (sl.appearances (r :: rs) l n)) =
        if c.pin.get l then (c.readOn (sl.active r.p)).count.get l
        else (c.readOn (sl.active r.p)).count.get l - BitVec.ofNat 3 (sl.appearances rs l n) := by
    simp only [Cell.readOn, Quad.get_make _ hl, Slice.appearances_cons, hb, Slice.reads, Bool.true_and]
    cases c.pin.get l
    · cases (sl.active r.p).getLsbD l
      · rfl
      · simp only [Bool.false_eq_true, if_false, if_true, Bool.not_false, Bool.and_self, BitVec.ofNat_add]
        exact (sub_sub _ _ _).symm.trans (sub_right_comm _ _ _)
    · simp only [if_true, Bool.not_true, Bool.and_false, Bool.false_eq_true, if_false]
  have hs : (c.spilling || ((r :: rs).any fun r => r.src.name == n) && c.spilled) =
      (c.spilling || c.spilled || (rs.any fun r => r.src.name == n) && c.spilled) := by
    rw [List.any_cons, hb]
    cases c.spilling <;> cases c.spilled <;> simp
  unfold Slice.used
  rw [Quad.make_congr hc, hs]
  rfl

theorem Slice.cell_consume_self (sl : Slice) {n : Nat} {c : Cell} (h : sl.cell n = some c) (mask : BitVec 4) :
    (sl.consume n mask).cell n = some (c.readOn mask) := by
  unfold Slice.consume
  simp only [h]
  exact tabGet?_tabSet_self _ _ _

theorem Slice.cell_consume_none (sl : Slice) {n m : Nat} (h : sl.cell m = none) (mask : BitVec 4) : (sl.consume n mask).cell m = none := by
  by_cases hm : m = n
  · subst hm
    unfold Slice.consume
    simp only [h]
  · rw [Slice.cell_consume_other _ _ hm, h]

/-- A read keeps which names are bound, in their order. -/
theorem Slice.keys_consume (sl : Slice) (n : Nat) (mask : BitVec 4) :
    ((sl.consume n mask).names.map fun e => e.1) = sl.names.map fun e => e.1 := by
  unfold Slice.consume
  cases h : sl.cell n with
  | none => rfl
  | some c => exact keys_tabSet h _

/-- The uses of every read consumed, on the lanes the slice `sl` has active for each, before any cell is freed. -/
def Slice.consumeEach (sl x : Slice) (rs : List NameRead) : Slice :=
  rs.foldl (fun x r => x.consume r.src.name.toNat (sl.active r.p)) x

theorem Slice.cell_consumeEach (sl x : Slice) (rs : List NameRead) {n : BitVec 9} {c : Cell} (h : x.cell n.toNat = some c) :
    (sl.consumeEach x rs).cell n.toNat = some (sl.used rs n c) := by
  induction rs generalizing x c with
  | nil => rw [Slice.used_nil]; exact h
  | cons r rs ih =>
    by_cases hr : r.src.name = n
    · subst hr
      rw [Slice.used_cons_self sl rs c rfl]
      exact ih _ (x.cell_consume_self h _)
    · have hn : n.toNat ≠ r.src.name.toNat := fun e => hr (BitVec.eq_of_toNat_eq e.symm)
      rw [Slice.used_cons_other sl rs c hr]
      exact ih _ (by rw [Slice.cell_consume_other _ _ hn, h])

theorem Slice.cell_consumeEach_none (sl x : Slice) (rs : List NameRead) {m : Nat} (h : x.cell m = none) :
    (sl.consumeEach x rs).cell m = none := by
  induction rs generalizing x with
  | nil => exact h
  | cons r rs ih => exact ih _ (x.cell_consume_none h _)

theorem Slice.keys_consumeEach (sl x : Slice) (rs : List NameRead) :
    ((sl.consumeEach x rs).names.map fun e => e.1) = x.names.map fun e => e.1 := by
  induction rs generalizing x with
  | nil => rfl
  | cons r rs ih => exact (ih _).trans (x.keys_consume _ _)

/-- Reads leave a bound name with its uses counted, or free it when a read has used up the last (R34, R36). -/
theorem Slice.cell_consumeAll {sl : Slice} (hn : (sl.names.map fun e => e.1).Nodup) (rs : List NameRead) {n : BitVec 9} {c : Cell}
    (h : sl.cell n.toNat = some c) :
    (sl.consumeAll rs).cell n.toNat =
      if (sl.used rs n c).allZero && rs.any fun r => r.src.name == n then none else some (sl.used rs n c) := by
  have hk : ((sl.consumeEach sl rs).names.map fun e => e.1).Nodup := by rw [Slice.keys_consumeEach]; exact hn
  have hr : (rs.any fun r => r.src.name.toNat == n.toNat) = rs.any fun r => r.src.name == n := by
    congr 1
    funext r
    rw [Bool.eq_iff_iff, beq_iff_eq, beq_iff_eq, BitVec.toNat_inj]
  have hc : tabGet? (sl.consumeEach sl rs).names n.toNat = some (sl.used rs n c) := Slice.cell_consumeEach sl sl rs h
  refine (tabGet?_filter_of_nodup hk _ _).trans ?_
  rw [hc, Option.filter_some, hr]
  cases (sl.used rs n c).allZero <;> cases rs.any fun r => r.src.name == n <;> rfl

theorem tabGet?_filter_none {α : Type} {t : Table α} {k : Nat} (h : tabGet? t k = none) (q : Nat × α → Bool) :
    tabGet? (t.filter q) k = none := by
  induction t with
  | nil => rfl
  | cons e r ih =>
    obtain ⟨j, x⟩ := e
    by_cases hk : j = k
    · simp [tabGet?, hk] at h
    · simp only [tabGet?, hk, if_false] at h
      cases hq : q (j, x) <;> simp [hq, tabGet?, hk, ih h]

theorem Slice.cell_consumeAll_none {sl : Slice} (rs : List NameRead) {m : Nat} (h : sl.cell m = none) :
    (sl.consumeAll rs).cell m = none :=
  tabGet?_filter_none (t := (sl.consumeEach sl rs).names) (Slice.cell_consumeEach_none sl sl rs h) _

/-! ### Writes (R35) -/

/-- A cell after a write on the lanes of a mask (R35). -/
def Cell.writtenOn (c : Cell) (uses : BitVec 3) (mask : BitVec 4) (data : Nat → Word32) (full : Bool) : Cell :=
  { c with
    data := Quad.make fun l => if mask.getLsbD l then data l else c.data.get l
    pin := Quad.make fun l => if mask.getLsbD l then uses == 0 else c.pin.get l
    count := Quad.make fun l => if mask.getLsbD l then uses else c.count.get l
    full := full
    failed := none }

/-- A cell written on some lane is not used up: use field 0 pins it there. -/
theorem Cell.writtenOn_allZero (c : Cell) (uses : BitVec 3) {mask : BitVec 4} (data : Nat → Word32) (full : Bool) (hm : mask ≠ 0) :
    (c.writtenOn uses mask data full).allZero = false := by
  obtain ⟨l, hl, hb⟩ : ∃ l < 4, mask.getLsbD l = true := by
    by_contra hn
    push Not at hn
    exact hm (BitVec.eq_of_getLsbD_eq fun l hl => by simpa using hn l hl)
  unfold Cell.allZero
  rw [List.all_eq_false]
  refine ⟨l, List.mem_range.mpr hl, ?_⟩
  simp only [Cell.writtenOn, Quad.get_make _ hl, hb, if_true]
  by_cases hu : uses = 0 <;> simp [hu]

/-- What a write leaves in its name: the cell that was bound, or a fresh one, written on the lanes of the mask. -/
theorem Slice.cell_writeName (sl : Slice) (n : Nat) (uses : BitVec 3) {mask : BitVec 4} (data : Nat → Word32) (full : Bool) (stamp : Nat)
    (hm : mask ≠ 0) :
    (sl.writeName n uses mask data full stamp).cell n = some (((sl.cell n).getD { stamp := stamp }).writtenOn uses mask data full) := by
  unfold Slice.writeName
  rw [if_neg hm]
  exact Slice.cell_putCell_self _ _ (Cell.writtenOn_allZero _ _ _ _ hm)

theorem Slice.writeName_zero (sl : Slice) (n : Nat) (uses : BitVec 3) (data : Nat → Word32) (full : Bool) (stamp : Nat) :
    sl.writeName n uses 0 data full stamp = sl := if_pos rfl

/-- A cell's lanes after a write: those of the mask hold what is written, the others what they held. -/
theorem Cell.writtenOn_lane (c : Cell) (uses : BitVec 3) (mask : BitVec 4) (data : Nat → Word32) (full : Bool) {l : Nat} (hl : l < 4) :
    (c.writtenOn uses mask data full).data.get l = (if mask.getLsbD l then data l else c.data.get l) ∧
      (c.writtenOn uses mask data full).count.get l = (if mask.getLsbD l then uses else c.count.get l) ∧
      (c.writtenOn uses mask data full).pin.get l = if mask.getLsbD l then uses == 0 else c.pin.get l :=
  ⟨Quad.get_make _ hl, Quad.get_make _ hl, Quad.get_make _ hl⟩

/-- A name bound by a write holds zeros on the lanes not written, and one that was bound what it held there. -/
theorem Slice.fresh_lane (sl : Slice) (n stamp l : Nat) :
    ((sl.cell n).getD { stamp := stamp }).data.get l = sl.datum l n ∧
      (sl.cell n = none → ((sl.cell n).getD { stamp := stamp }).count.get l = 0 ∧ ((sl.cell n).getD { stamp := stamp }).pin.get l = false) ∧
      ∀ k, sl.cell n = some k → ((sl.cell n).getD { stamp := stamp }).count.get l = k.count.get l ∧
        ((sl.cell n).getD { stamp := stamp }).pin.get l = k.pin.get l := by
  unfold Slice.datum
  cases sl.cell n with
  | none => exact ⟨Quad.get_all 0 l, fun _ => ⟨Quad.get_all 0 l, Quad.get_all false l⟩, by simp⟩
  | some c => exact ⟨rfl, by simp, by rintro k ⟨⟩; exact ⟨rfl, rfl⟩⟩

end Sys2Proof.Machine

open Sys2Proof.Machine

/-- Settles O51: reads by what they leave of a bound and of an unbound name, writes by the cell they leave, lane by lane. -/
theorem usesAreCounted : Obligations.UsesAreCounted := by
  unfold Obligations.UsesAreCounted
  intro sl n
  refine ⟨fun rs c hn hc => Slice.cell_consumeAll hn rs hc, fun rs hc => Slice.cell_consumeAll_none rs hc,
    fun uses mask data full stamp => ⟨?_, fun hm => ?_, fun m hm => Slice.cell_writeName_other sl uses mask data full stamp hm⟩⟩
  · rintro rfl
    exact Slice.writeName_zero sl n.toNat uses data full stamp
  · refine ⟨_, Slice.cell_writeName sl n.toNat uses data full stamp hm, rfl, rfl, fun l hl => ?_⟩
    obtain ⟨hdata, hcount, hpin⟩ :=
      Cell.writtenOn_lane ((sl.cell n.toNat).getD { stamp := stamp }) uses mask data full hl
    rw [hdata, hcount, hpin]
    constructor
    · intro hb
      simp only [hb, if_true, and_self]
    · intro hb
      simp only [hb, Bool.false_eq_true, if_false]
      exact sl.fresh_lane n.toNat stamp l
end

section
/-! Performance at the bank (R41, R42, R157, R191, R192, R249): bytes read after a write of them, what the records beside an access leave of
the state, the performance of each kind of access, and from these the settlement of O29. -/

open Sys2Proof
namespace Sys2Proof.Machine

/-! ### Bytes written and read again (R52) -/

/-- The bytes just written read as the low bytes of the number. -/
theorem memReadN_memWriteN {m : Memory} (h : Memory.wf m = true) (a n v : Nat) : memReadN (memWriteN m a n v) a n = v % 2 ^ (8 * n) := by
  induction n generalizing m a v with
  | zero => simp [memReadN, Nat.mod_one]
  | succ n ih =>
    have hfirst : memRead (memWriteN m a (n + 1) v) a = BitVec.ofNat 8 v := by
      rw [memWriteN, memRead_memWriteN_other _ _ _ _ (.inl (Nat.lt_succ_self a))]
      exact memRead_memWrite_self h a _
    have hrest : memReadN (memWriteN m a (n + 1) v) (a + 1) n = v / 256 % 2 ^ (8 * n) := ih (Memory.wf_memWrite h _ _) _ _
    rw [memReadN, hfirst, hrest, BitVec.toNat_ofNat, show 8 * (n + 1) = 8 + 8 * n by omega, Nat.pow_add]
    exact (Nat.mod_mul).symm

/-! ### The records beside an access -/

/-- A time-loss sample changes the recordings and the count of free values drawn (R371, log 32). -/
theorem State.sampleFlight_eq (s : State) (f : Flight) :
    s.sampleFlight f = { s with recordings := (s.sampleFlight f).recordings, freeCount := (s.sampleFlight f).freeCount } := by
  have hs (gid slice : Nat) (pc : Word32) (since access space addr : Nat) (far : Bool) :
      s.sample gid slice pc since access space addr far =
        { s with recordings := (s.sample gid slice pc since access space addr far).recordings,
                 freeCount := (s.sample gid slice pc since access space addr far).freeCount } := by
    unfold State.sample
    split
    · rfl
    · split <;> rfl
  unfold State.sampleFlight
  split
  · rfl
  · exact hs _ _ _ _ _ _ _ _

@[simp] theorem State.sampleFlight_groups (s : State) (f : Flight) : (s.sampleFlight f).groups = s.groups := by
  rw [State.sampleFlight_eq]
@[simp] theorem State.sampleFlight_flights (s : State) (f : Flight) : (s.sampleFlight f).flights = s.flights := by
  rw [State.sampleFlight_eq]
@[simp] theorem State.sampleFlight_mem (s : State) (f : Flight) : (s.sampleFlight f).mem = s.mem := by
  rw [State.sampleFlight_eq]

/-- The dirty bits of a window lie in its team. -/
theorem markDirty_eq (s : State) (team : Nat) (win : Option (Nat × Nat)) (n : Nat) :
    markDirty s team win n = { s with teams := (markDirty s team win n).teams } := by
  have hf (w : Nat) (js : List Nat) (s : State) :
      js.foldl (fun s j => s.modSeg team w j fun x => { x with dirty := true }) s =
        { s with teams := (js.foldl (fun s j => s.modSeg team w j fun x => { x with dirty := true }) s).teams } := by
    induction js generalizing s with
    | nil => rfl
    | cons j js ih => exact ih _
  unfold markDirty
  split
  · rfl
  · exact hf _ _ _

@[simp] theorem markDirty_groups (s : State) (team : Nat) (win : Option (Nat × Nat)) (n : Nat) :
    (markDirty s team win n).groups = s.groups := by rw [markDirty_eq]
@[simp] theorem markDirty_clusters (s : State) (team : Nat) (win : Option (Nat × Nat)) (n : Nat) :
    (markDirty s team win n).clusters = s.clusters := by rw [markDirty_eq]
@[simp] theorem markDirty_flights (s : State) (team : Nat) (win : Option (Nat × Nat)) (n : Nat) :
    (markDirty s team win n).flights = s.flights := by rw [markDirty_eq]
@[simp] theorem markDirty_mem (s : State) (team : Nat) (win : Option (Nat × Nat)) (n : Nat) :
    (markDirty s team win n).mem = s.mem := by rw [markDirty_eq]

/-! ### The group of the access -/

/-- A group changed in place: the list with that group replaced. -/
theorem State.modGroup_groups_set {s : State} {gid : Nat} {g : Group} (h : s.group gid = some g) (f : Group → Group) :
    (s.modGroup gid f).groups = s.groups.set gid (f g) := by
  have hg : s.groups[gid]? = some g := h
  unfold State.modGroup
  rw [List.modify_eq_set_getElem?, hg]
  rfl

/-- What a group has seen of the bound units once it acquires: all that the unit of its cluster has applied (R195, R260). -/
def State.seenBy (s : State) (g : Group) : Table Nat :=
  tabSet g.boundSeen (clusterOfCore g.core) (s.cluster (clusterOfCore g.core)).boundLog.length

theorem State.seeBounds_groups {s : State} {gid : Nat} {g : Group} (h : s.group gid = some g) :
    (s.seeBounds gid).groups = s.groups.set gid { g with boundSeen := s.seenBy g } := State.modGroup_groups_set h _

theorem State.seeBounds_eq (s : State) (gid : Nat) : s.seeBounds gid = { s with groups := (s.seeBounds gid).groups } := rfl


/-- A group that an atomic has been performed for: its flags raised, late as they are, and an acquire's sight of the bound units. -/
def Group.afterAtomic (g : Group) (f : Flight) (fl : FlagSet) (seen : Table Nat) : Group :=
  if f.acq then { g.raiseLate f.slice fl with boundSeen := seen } else g.raiseLate f.slice fl

theorem Group.afterAtomic_eq (g : Group) (f : Flight) (fl : FlagSet) (seen : Table Nat) :
    let dev := g.ctx.dev.slices.get f.slice
    g.afterAtomic f fl seen = { g with
      slices := (g.afterAtomic f fl seen).slices, boundSeen := if f.acq then seen else g.boundSeen, ctx := { g.ctx with
        dev := { g.ctx.dev with slices := g.ctx.dev.slices.set f.slice { dev with fflags := dev.fflags ||| fl.word } } } } := by
  unfold Group.afterAtomic
  cases f.acq <;> rfl

theorem Group.afterAtomic_slices (g : Group) (f : Flight) (fl : FlagSet) (seen : Table Nat) :
    (g.afterAtomic f fl seen).slices =
      g.slices.set f.slice { g.slices.get f.slice with fflags := (g.slices.get f.slice).fflags ||| fl.word } := by
  unfold Group.afterAtomic
  cases f.acq <;> rfl

/-! ### Performance -/

/-- An access that nothing holds back is performed. -/
theorem memoryAccessPerform_performs {s : State} {id : Nat} {f : Flight} {g : Group} (hf : tabGet? s.flights id = some f)
    (hg : s.group f.group = some g) (hp : f.performed = false) (hm : mustFollow s f.group id f.kinds [(f.addr, f.size)] = false)
    (hx : flightFailed s g f = false) (hs : flightPresent s g f = true) :
    exec (.memoryAccessPerform id) s = .next (settleWaits (performFlight s id g f)) := by
  have he : exec (.memoryAccessPerform id) s = execMemoryAccessPerform id s := rfl
  rw [he]
  unfold execMemoryAccessPerform
  simp only [hf, hg, hp, hm, hx, hs, Bool.or_self, Bool.false_eq_true, if_false, if_true]

theorem performFlight_load {f : Flight} {d n : Nat} {t : Ty} (h : f.op = .load d n t) (s : State) (id : Nat) (g : Group) :
    performFlight s id g f =
      { s with flights := tabSet s.flights id { f with performed := true, data := memReadN s.mem f.addr f.size } } := by
  unfold performFlight
  simp only [h]

theorem performFlight_gload {f : Flight} {d : Nat} {sx : Bool} (h : f.op = .gload d sx) (s : State) (id : Nat) (g : Group) :
    performFlight s id g f =
      { s with flights := tabSet s.flights id { f with performed := true, data := memReadN s.mem f.addr f.size } } := by
  unfold performFlight
  simp only [h]

/-- A store leaves its data in its range, and its own flight is over. -/
theorem performFlight_store {f : Flight} {v : Nat} (h : f.op = .store v) (s : State) (id : Nat) (g : Group) :
    (performFlight s id g f).groups = s.groups ∧ (performFlight s id g f).flights = tabErase s.flights id ∧
      (performFlight s id g f).mem = memWriteN s.mem f.addr f.size v := by
  unfold performFlight
  simp only [h, State.sampleFlight_groups, State.sampleFlight_flights, State.sampleFlight_mem, markDirty_groups, markDirty_flights,
    markDirty_mem, State.setMem_groups, State.setMem_flights, State.setMem_mem, and_self]

/-- The state once an atomic has exchanged the old value for the new one and raised its flags, before an acquire shows in the group. -/
def State.exchanged (s : State) (id : Nat) (g : Group) (f : Flight) (old : Nat) (new : Nat × FlagSet) : State :=
  markDirty ((({ s with flights := tabSet s.flights id { f with performed := true, data := old } } : State).setMem
    (memWriteN s.mem f.addr f.size new.1)).modGroup f.group fun g => g.raiseLate f.slice new.2) g.team f.win f.size

theorem State.exchanged_groups {s : State} {f : Flight} {g : Group} (hg : s.group f.group = some g) (id old : Nat) (new : Nat × FlagSet) :
    (s.exchanged id g f old new).groups = s.groups.set f.group (g.raiseLate f.slice new.2) :=
  (markDirty_groups _ _ _ _).trans (State.modGroup_groups_set
    (s := ({ s with flights := tabSet s.flights id { f with performed := true, data := old } } : State).setMem _) hg _)

@[simp] theorem State.exchanged_clusters (s : State) (id : Nat) (g : Group) (f : Flight) (old : Nat) (new : Nat × FlagSet) :
    (s.exchanged id g f old new).clusters = s.clusters := markDirty_clusters _ _ _ _
@[simp] theorem State.exchanged_flights (s : State) (id : Nat) (g : Group) (f : Flight) (old : Nat) (new : Nat × FlagSet) :
    (s.exchanged id g f old new).flights = tabSet s.flights id { f with performed := true, data := old } := markDirty_flights _ _ _ _
@[simp] theorem State.exchanged_mem (s : State) (id : Nat) (g : Group) (f : Flight) (old : Nat) (new : Nat × FlagSet) :
    (s.exchanged id g f old new).mem = memWriteN s.mem f.addr f.size new.1 := markDirty_mem _ _ _ _

/-- An acquire sees, after the exchange, what it would have seen before it. -/
theorem State.exchanged_seeBounds_groups {s : State} {f : Flight} {g : Group} (hg : s.group f.group = some g) (id old : Nat)
    (new : Nat × FlagSet) : ((s.exchanged id g f old new).seeBounds f.group).groups =
      s.groups.set f.group { g.raiseLate f.slice new.2 with boundSeen := s.seenBy g } := by
  have hgroups := State.exchanged_groups hg id old new
  have hg' : (s.exchanged id g f old new).group f.group = some (g.raiseLate f.slice new.2) := by
    rw [State.group, hgroups, List.getElem?_set_self (List.getElem?_eq_some_iff.mp hg).1]
  have hseen : (s.exchanged id g f old new).seenBy (g.raiseLate f.slice new.2) = s.seenBy g := by
    unfold State.seenBy State.cluster
    rw [State.exchanged_clusters]
    rfl
  rw [State.seeBounds_groups hg', hgroups, List.set_set, hseen]

theorem performFlight_eq_exchanged {f : Flight} {op : AtomOp} {t : Ty} {b c dst : Nat} {fmt : Word32}
    (h : f.op = .atom op t b c dst fmt) (s : State) (id : Nat) (g : Group) :
    let old := memReadN s.mem f.addr f.size
    let u := s.exchanged id g f old (atomNew (Arith.of fmt) op t old b c)
    performFlight s id g f = if f.acq then u.seeBounds f.group else u := by
  cases f
  cases h
  rfl

/-- An atomic leaves the new value in its range and keeps the old one for its lane; its flags are raised. -/
theorem performFlight_atom {f : Flight} {op : AtomOp} {t : Ty} {b c dst : Nat} {fmt : Word32} (h : f.op = .atom op t b c dst fmt) {s : State}
    (id : Nat) {g : Group} (hg : s.group f.group = some g) :
    let old := memReadN s.mem f.addr f.size
    let new := atomNew (Arith.of fmt) op t old b c
    (performFlight s id g f).groups = s.groups.set f.group (g.afterAtomic f new.2 (s.seenBy g)) ∧
      (performFlight s id g f).flights = tabSet s.flights id { f with performed := true, data := old } ∧
      (performFlight s id g f).mem = memWriteN s.mem f.addr f.size new.1 := by
  intro old new
  rw [performFlight_eq_exchanged h, Group.afterAtomic]
  by_cases ha : f.acq = true
  · rw [if_pos ha, if_pos ha]
    exact ⟨State.exchanged_seeBounds_groups hg id old new, State.exchanged_flights s id g f old new,
      State.exchanged_mem s id g f old new⟩
  · rw [if_neg ha, if_neg ha]
    exact ⟨State.exchanged_groups hg id old new, State.exchanged_flights s id g f old new, State.exchanged_mem s id g f old new⟩

theorem performFlight_fence {f : Flight} (h : f.op = .fence) {s : State} (id : Nat) {g : Group} (hg : s.group f.group = some g) :
    performFlight s id g f =
      { s with flights := tabErase s.flights id, groups := s.groups.set f.group { g with boundSeen := s.seenBy g } } := by
  have hs : ({ s with flights := tabErase s.flights id } : State).group f.group = some g := hg
  unfold performFlight
  simp only [h]
  rw [State.seeBounds_eq, State.seeBounds_groups hs]
  rfl

end Sys2Proof.Machine

open Sys2Proof.Machine

/-- Settles O29: the access is performed, and each kind of it by its own lemma; the bytes of a write by the two lemmas on `memWriteN`. -/
theorem accessesArePerformed : Obligations.AccessesArePerformed := by
  unfold Obligations.AccessesArePerformed
  intro s id f g hw hf hg hp hm hx hs
  have he := memoryAccessPerform_performs hf hg hp hm hx hs
  refine ⟨fun d n t h => ?_, fun d sx h => ?_, fun v h => ?_, fun op t b c d fmt h => ?_, fun h => ?_⟩
  · rw [he, performFlight_load h]
  · rw [he, performFlight_gload h]
  · obtain ⟨hgroups, hflights, hmem⟩ := performFlight_store h s id g
    refine ⟨_, he, hgroups, hflights, ?_, fun a ha => ?_⟩
    · rw [hmem, memReadN_memWriteN hw]
    · rw [hmem, memRead_memWriteN_other _ _ _ _ ha]
  · obtain ⟨hgroups, hflights, hmem⟩ := performFlight_atom h id hg
    refine ⟨_, _, he, hgroups, Group.afterAtomic_eq _ _ _ _, Group.afterAtomic_slices _ _ _ _, hflights, ?_, fun a ha => ?_⟩
    · rw [hmem, memReadN_memWriteN hw]
    · rw [hmem, memRead_memWriteN_other _ _ _ _ ha]
  · rw [he, performFlight_fence h id hg]
    rfl
end

section
/-! Data arriving (R37, R157, R159, R243): what one datum leaves in the name that awaits it, the names and data of an access, the arrival
at a lane, a register and a register laid aside, and from these the settlement of O30. -/

open Sys2Proof
namespace Sys2Proof.Machine

/-! ### One datum -/

/-- A cell once an instruction's datum for a lane has reached its name (R37): taken where the cell still awaits that instruction, and full
with the last lane's unless the producer failed. -/
def Cell.taking (k : Cell) (instr l : Nat) (last : Bool) (failed : Option Failure) (v : Word32) : Cell :=
  if k.producer = instr ∧ k.full = false then
    { k with data := k.data.set l v, failed := (k.failed.orElse fun _ => failed),
             full := last && k.failed.isNone && failed.isNone }
  else k

theorem Slice.cell_arrive_self {sl : Slice} {x : Nat × Word32} {k : Cell} (h : sl.cell x.1 = some k) (instr l : Nat) (last : Bool)
    (failed : Option Failure) : (sl.arrive instr l last failed x).cell x.1 = some (k.taking instr l last failed x.2) := by
  unfold Slice.arrive Cell.taking
  simp only [h]
  by_cases hk : k.producer = instr ∧ k.full = false
  · obtain ⟨hp, hl⟩ := hk
    simp only [hp, hl, bne_self_eq_false, Bool.or_self, Bool.false_eq_true, if_false, and_self, if_true]
    refine (tabGet?_tabSet_self _ _ _).trans ?_
    cases k.failed <;> simp
  · rw [if_neg hk, if_pos (by
      rw [Bool.or_eq_true, bne_iff_ne]
      by_contra hn
      push Not at hn
      exact hk ⟨hn.1, by simpa using hn.2⟩)]
    exact h

theorem Slice.cell_arrive_other (sl : Slice) {x : Nat × Word32} {n : Nat} (h : n ≠ x.1) (instr l : Nat) (last : Bool)
    (failed : Option Failure) : (sl.arrive instr l last failed x).cell n = sl.cell n := by
  unfold Slice.arrive
  split
  · rfl
  · split
    · rfl
    · exact tabGet?_tabSet_other _ _ h

theorem Slice.arrive_same (sl : Slice) (instr l : Nat) (last : Bool) (failed : Option Failure) (x : Nat × Word32) :
    (sl.arrive instr l last failed x).SameButNames sl := by
  unfold Slice.arrive
  split
  · rfl
  · split <;> rfl

theorem Slice.cell_arrive_none {sl : Slice} {n : Nat} (h : sl.cell n = none) (instr l : Nat) (last : Bool) (failed : Option Failure)
    (x : Nat × Word32) : (sl.arrive instr l last failed x).cell n = none := by
  by_cases hn : n = x.1
  · subst hn
    unfold Slice.arrive
    simp only [h]
  · rw [Slice.cell_arrive_other sl hn, h]

/-! ### The data of an access -/

/-- The data `xs` of an access, each for its name, arrived one after another. -/
def Slice.arriveAll (sl : Slice) (instr l : Nat) (last : Bool) (failed : Option Failure) (xs : List (Nat × Word32)) : Slice :=
  xs.foldl (fun sl x => sl.arrive instr l last failed x) sl

section
variable (sl : Slice) (instr l : Nat) (last : Bool) (failed : Option Failure) (xs : List (Nat × Word32))

theorem Slice.arriveAll_same : (sl.arriveAll instr l last failed xs).SameButNames sl :=
  Slice.foldl_same _ _ (fun x a => x.arrive_same instr l last failed a) sl

theorem Slice.cell_arriveAll_other {n : Nat} (h : n ∉ xs.map Prod.fst) : (sl.arriveAll instr l last failed xs).cell n = sl.cell n := by
  induction xs generalizing sl with
  | nil => rfl
  | cons x xs ih =>
    simp only [List.map_cons, List.mem_cons, not_or] at h
    exact (ih _ h.2).trans (sl.cell_arrive_other h.1 _ _ _ _)

theorem Slice.cell_arriveAll_none {n : Nat} (h : sl.cell n = none) : (sl.arriveAll instr l last failed xs).cell n = none := by
  induction xs generalizing sl with
  | nil => exact h
  | cons x xs ih => exact ih _ (Slice.cell_arrive_none h _ _ _ _ _)

/-- With one datum to a name, each name takes its own. -/
theorem Slice.cell_arriveAll {n : Nat} {v : Word32} {k : Cell} (hn : (xs.map Prod.fst).Nodup) (hx : (n, v) ∈ xs) (hk : sl.cell n = some k) :
    (sl.arriveAll instr l last failed xs).cell n = some (k.taking instr l last failed v) := by
  induction xs generalizing sl with
  | nil => cases hx
  | cons x xs ih =>
    obtain ⟨hnotin, hrest⟩ := List.nodup_cons.mp hn
    rcases List.mem_cons.mp hx with rfl | hmem
    · exact (Slice.cell_arriveAll_other _ _ _ _ _ xs hnotin).trans (Slice.cell_arrive_self hk _ _ _ _)
    · have hne : n ≠ x.1 := fun e => hnotin (e ▸ List.mem_map.mpr ⟨_, hmem, rfl⟩)
      exact ih _ hrest hmem ((sl.cell_arrive_other hne _ _ _ _).trans hk)
end

/-- `n` bits read as signed and kept to a wider width: the sign extension (R157). -/
theorem ofNat_wrapInt_readInt {w : Nat} (hw : 0 < w) (n v : Nat) :
    BitVec.ofNat n (wrapInt n (readInt true w v)) = (BitVec.ofNat w v).signExtend n := by
  have hr : readInt true w v = (BitVec.ofNat w v).toInt := by
    obtain ⟨m, rfl⟩ : ∃ m, w = m + 1 := ⟨w - 1, by omega⟩
    rw [BitVec.toInt_eq_toNat_cond, BitVec.toNat_ofNat]
    simp only [readInt, Nat.add_sub_cancel, Bool.true_and, decide_eq_true_eq]
    have hp : 2 ^ (m + 1) = 2 * 2 ^ m := by rw [Nat.pow_succ, Nat.mul_comm]
    generalize v % 2 ^ (m + 1) = x
    by_cases hx : 2 ^ m ≤ x
    · rw [if_pos hx, if_neg (by omega)]
    · rw [if_neg hx, if_pos (by omega)]
  have hlt : wrapInt n (readInt true w v) < 2 ^ n := by
    have := Int.emod_lt_of_pos (readInt true w v) (b := ((2 ^ n : Nat) : Int)) (by positivity)
    unfold wrapInt
    omega
  apply BitVec.eq_of_toNat_eq
  rw [BitVec.toNat_ofNat, Nat.mod_eq_of_lt hlt, BitVec.signExtend, BitVec.toNat_ofInt, wrapInt, hr]

/-- Element `e` of a load's data. -/
def Flight.element (f : Flight) (t : Ty) (e : Nat) : Nat := f.data / 2 ^ (8 * t.bytes * e) % 2 ^ (8 * t.bytes)

/-- What a 32-bit name takes of an element: narrow signed ones extended by their type (R157). -/
def loadedWord (t : Ty) (x : Nat) : Word32 :=
  if t = .s8 then (BitVec.ofNat 8 x).signExtend 32 else if t = .s16 then (BitVec.ofNat 16 x).signExtend 32 else BitVec.ofNat 32 x

theorem Flight.results_wide {f : Flight} {dst n : Nat} {t : Ty} (h : f.op = .load dst n t) (hw : t.wide = true) :
    f.results = (List.range n).flatMap fun e =>
      [(dst + 2 * e, BitVec.ofNat 32 (f.element t e)), (dst + 2 * e + 1, BitVec.ofNat 32 (f.element t e / 2 ^ 32))] := by
  unfold Flight.results
  simp only [h, hw, if_true]
  rfl

theorem Flight.results_narrow {f : Flight} {dst n : Nat} {t : Ty} (h : f.op = .load dst n t) (hw : t.wide = false) :
    f.results = (List.range n).map fun e => (dst + e, loadedWord t (f.element t e)) := by
  unfold Flight.results
  simp only [h, hw, Bool.false_eq_true, if_false]
  rw [List.map_eq_flatMap]
  congr 1
  funext e
  by_cases h8 : t = .s8
  · subst h8
    exact congrArg (fun v => [(dst + e, v)]) (ofNat_wrapInt_readInt (w := 8) (by decide) 32 _)
  · by_cases h16 : t = .s16
    · subst h16
      exact congrArg (fun v => [(dst + e, v)]) (ofNat_wrapInt_readInt (w := 16) (by decide) 32 _)
    · simp only [h8, h16, or_self, if_false, loadedWord]
      rfl

theorem flatMap_pairs (dst n : Nat) : ((List.range n).flatMap fun e => [dst + 2 * e, dst + 2 * e + 1]) = List.range' dst (2 * n) := by
  induction n with
  | zero => rfl
  | succ n ih =>
    rw [List.range_succ, List.flatMap_append, ih, show 2 * (n + 1) = 2 * n + 2 by omega, ← List.range'_append]
    simp [List.range'_succ]

/-- A load delivers to names that follow each other, to each once. -/
theorem Flight.results_names_load {f : Flight} {dst n : Nat} {t : Ty} (h : f.op = .load dst n t) :
    f.results.map Prod.fst = List.range' dst (if t.wide then 2 * n else n) := by
  cases hw : t.wide
  · rw [Flight.results_narrow h hw, List.map_map]
    exact List.range'_eq_map_range.symm
  · rw [Flight.results_wide h hw, List.map_flatMap]
    exact flatMap_pairs dst n

theorem Flight.results_atom {f : Flight} {op : AtomOp} {t : Ty} {b c dst : Nat} {fmt : Word32} (h : f.op = .atom op t b c dst fmt) :
    f.results = if t.wide then [(dst, BitVec.ofNat 32 f.data), (dst + 1, BitVec.ofNat 32 (f.data / 2 ^ 32))]
      else [(dst, BitVec.ofNat 32 f.data)] := by
  unfold Flight.results
  simp only [h]

theorem Flight.results_names_atom {f : Flight} {op : AtomOp} {t : Ty} {b c dst : Nat} {fmt : Word32} (h : f.op = .atom op t b c dst fmt) :
    f.results.map Prod.fst = List.range' dst (if t.wide then 2 else 1) := by
  rw [Flight.results_atom h]
  cases t.wide <;> rfl

/-! ### What a delivery leaves -/

/-- The name `n` of a slice takes the datum `v` of the access, where it is bound. -/
def Flight.Takes (f : Flight) (last : Bool) (sl sl' : Slice) (n : Nat) (v : Word32) : Prop :=
  ∀ k, sl.cell n = some k → sl'.cell n = some (k.taking f.instr f.lane last f.failed v)

theorem Flight.takes_of_mem {f : Flight} {first m : Nat} (hm : f.results.map Prod.fst = List.range' first m) (last : Bool) (sl : Slice)
    {n : Nat} {v : Word32} (hx : (n, v) ∈ f.results) :
    f.Takes last sl (sl.arriveAll f.instr f.lane last f.failed f.results) n v := fun _ hk =>
  Slice.cell_arriveAll _ _ _ _ _ _ (hm ▸ List.nodup_range') hx hk

theorem Flight.cell_outside {f : Flight} {first m : Nat} (hm : f.results.map Prod.fst = List.range' first m) (last : Bool) (sl : Slice)
    {k : Nat} (hk : k < first ∨ first + m ≤ k) : (sl.arriveAll f.instr f.lane last f.failed f.results).cell k = sl.cell k := by
  refine Slice.cell_arriveAll_other _ _ _ _ _ _ ?_
  rw [hm, List.mem_range'_1]
  omega

/-- Each name of a load takes its element, the second of a pair the high part (R157). -/
theorem Flight.takes_load {f : Flight} {dst n : Nat} {t : Ty} (h : f.op = .load dst n t) (last : Bool) (sl : Slice) {e : Nat} (he : e < n) :
    let takes := f.Takes last sl (sl.arriveAll f.instr f.lane last f.failed f.results)
    (t.wide = true → takes (dst + 2 * e) (BitVec.ofNat 32 (f.element t e)) ∧
      takes (dst + 2 * e + 1) (BitVec.ofNat 32 (f.element t e / 2 ^ 32))) ∧
    (t.wide = false → takes (dst + e) (loadedWord t (f.element t e))) := by
  have hm := Flight.results_names_load h
  refine ⟨fun hw => ⟨Flight.takes_of_mem hm last sl ?_, Flight.takes_of_mem hm last sl ?_⟩, fun hw => Flight.takes_of_mem hm last sl ?_⟩
  · rw [Flight.results_wide h hw]
    exact List.mem_flatMap.mpr ⟨e, List.mem_range.mpr he, List.mem_cons_self⟩
  · rw [Flight.results_wide h hw]
    exact List.mem_flatMap.mpr ⟨e, List.mem_range.mpr he, List.mem_cons_of_mem _ List.mem_cons_self⟩
  · rw [Flight.results_narrow h hw]
    exact List.mem_map.mpr ⟨e, List.mem_range.mpr he, rfl⟩

/-- The name of an atomic takes the old value, the second of a pair its high part (R191). -/
theorem Flight.takes_atom {f : Flight} {op : AtomOp} {t : Ty} {b c dst : Nat} {fmt : Word32} (h : f.op = .atom op t b c dst fmt)
    (last : Bool) (sl : Slice) :
    let takes := f.Takes last sl (sl.arriveAll f.instr f.lane last f.failed f.results)
    takes dst (BitVec.ofNat 32 f.data) ∧ (t.wide = true → takes (dst + 1) (BitVec.ofNat 32 (f.data / 2 ^ 32))) := by
  have hm := Flight.results_names_atom h
  refine ⟨Flight.takes_of_mem hm last sl ?_, fun hw => Flight.takes_of_mem hm last sl ?_⟩
  · rw [Flight.results_atom h]
    cases t.wide <;> exact List.mem_cons_self
  · rw [Flight.results_atom h, if_pos hw]
    exact List.mem_cons_of_mem _ List.mem_cons_self

/-! ### Arrival -/

/-- Nothing more of the access's instruction is on its way to its slice. -/
def Flight.isLast (f : Flight) (rest : Table Flight) : Bool :=
  !(rest.any fun e => e.2.group == f.group && e.2.slice == f.slice && e.2.instr == f.instr)

/-- The group once the data of an access have reached their lane. -/
def Group.delivered (g : Group) (f : Flight) (last : Bool) : Group :=
  g.modSlice f.slice fun sl => sl.arriveAll f.instr f.lane last f.failed f.results

theorem sampleFlight_group {s : State} {f : Flight} {g : Group} (hg : s.group f.group = some g) (id : Nat) :
    (({ s with flights := tabErase s.flights id } : State).sampleFlight f).group f.group = some g := by
  rw [State.group, State.sampleFlight_groups]
  exact hg

section
variable {s : State} {id : Nat} {f : Flight} {g : Group} (hf : tabGet? s.flights id = some f) (hg : s.group f.group = some g)
  (hp : f.performed = true)
include hf hg hp

theorem loadDataArrival_lane (h : ∀ d sx, f.op ≠ .gload d sx) :
    exec (.loadDataArrival id) s = .next (settleWaits (wakeCore
      ((({ s with flights := tabErase s.flights id } : State).sampleFlight f).modGroup f.group fun _ =>
        g.delivered f (f.isLast (tabErase s.flights id))) g.core 2)) := by
  have he : exec (.loadDataArrival id) s = execLoadDataArrival id s := rfl
  rw [he]
  unfold execLoadDataArrival
  simp only [hf, hg, hp, Bool.not_true, Bool.false_eq_true, if_false, State.sampleFlight_flights]
  exact congrArg (fun u => Host.Outcome.next (settleWaits (wakeCore u g.core 2))) (State.modGroup_congr (sampleFlight_group hg id) rfl)

theorem loadDataArrival_register {d : Nat} {sx : Bool} (h : f.op = .gload d sx) (hn : f.failed = none) (ha : f.aside g d = false) :
    exec (.loadDataArrival id) s = .next (settleWaits (wakeCore
      ((({ s with flights := tabErase s.flights id } : State).sampleFlight f).modGroup f.group fun _ =>
        g.landG d (uniformValue f sx) none) g.core 2)) := by
  have he : exec (.loadDataArrival id) s = execLoadDataArrival id s := rfl
  rw [he]
  unfold execLoadDataArrival
  simp only [hf, hg, hp, h, ha, hn, Bool.not_true, Bool.false_eq_true, if_false]
  exact congrArg (fun u => Host.Outcome.next (settleWaits (wakeCore u g.core 2))) (State.modGroup_congr (sampleFlight_group hg id) rfl)

theorem loadDataArrival_aside {d : Nat} {sx : Bool} (h : f.op = .gload d sx) (hn : f.failed = none) (ha : f.aside g d = true) :
    let u := ({ s with flights := tabErase s.flights id } : State).sampleFlight f
    let g' := g.landAside d (uniformValue f sx) none
    exec (.loadDataArrival id) s = .next (settleWaits (wakeCore
      ((u.modGroup f.group fun _ => g').setMem (g'.ctx.store g.area u.mem)) g.core 2)) := by
  have he : exec (.loadDataArrival id) s = execLoadDataArrival id s := rfl
  rw [he]
  unfold execLoadDataArrival
  simp only [hf, hg, hp, h, ha, hn, Bool.not_true, Bool.false_eq_true, if_false, if_true]

end

/-- A loaded value in its register changes only the uniform registers, which await it no more. -/
theorem Group.landG_eq (g : Group) (d : Nat) (x : Word64) :
    g.landG d x none = { g with gregs := (g.landG d x none).gregs, gfail := (g.landG d x none).gfail, gpend := g.gpend.erase d } :=
  Group.setG_eq _ _ _

theorem Group.g_landG (g : Group) (d : Nat) (x : Word64) (r : BitVec 6) :
    (g.landG d x none).g r = if r = BitVec.ofNat 6 d then (if r = 0 then 0 else x) else g.g r := by
  refine (Group.g_setG _ _ _ _).trans ?_
  by_cases hr : r = BitVec.ofNat 6 d
  · subst hr
    rfl
  · rw [if_neg hr, if_neg hr]
    rfl

end Sys2Proof.Machine

open Sys2Proof.Machine

/-- Settles O30: each way of arriving by its own lemma, the names of a load and of an atomic by what their data leave of each cell. -/
theorem loadedDataArrive : Obligations.LoadedDataArrive := by
  unfold Obligations.LoadedDataArrive
  intro s id f g hf hg hp h8
  refine ⟨fun d sx h hn => ⟨fun ha => ?_, fun ha => ?_⟩, fun h => ?_⟩
  · exact ⟨_, loadDataArrival_register hf hg hp h hn ha, Group.landG_eq _ _ _, Group.g_landG _ _ _⟩
  · exact ⟨_, rfl, rfl, rfl, loadDataArrival_aside hf hg hp h hn ha⟩
  · refine ⟨_, loadDataArrival_lane hf hg hp h, rfl, fun j hj hne => Group.get_modSlice_other _ _ hne h8 hj, ?_⟩
    have hsl : (g.delivered f (f.isLast (tabErase s.flights id))).slices.get f.slice =
        (g.slices.get f.slice).arriveAll f.instr f.lane (f.isLast (tabErase s.flights id)) f.failed f.results :=
      Group.get_modSlice_self g f.slice _
    rw [hsl]
    refine ⟨Slice.arriveAll_same _ _ _ _ _ _, fun n hn => Slice.cell_arriveAll_none _ _ _ _ _ _ hn, fun dst n t hop => ?_,
      fun op t b c dst fmt hop => ?_⟩
    · exact ⟨fun e he => (Flight.takes_load hop _ _ he).1, fun e he => (Flight.takes_load hop _ _ he).2,
        fun k hk => Flight.cell_outside (Flight.results_names_load hop) _ _ hk⟩
    · obtain ⟨hlow, hhigh⟩ := Flight.takes_atom hop (f.isLast (tabErase s.flights id)) (g.slices.get f.slice)
      exact ⟨hlow, hhigh, fun k hk => Flight.cell_outside (Flight.results_names_atom hop) _ _ hk⟩
end

section
/-! The quotient that a rounding mode chooses (R59): powers of two, the integer next to a quotient, and the points of a grid. -/

open Sys2Proof
namespace Sys2Proof.Machine

/-! ### Powers of two -/

theorem zpow_two_pos (k : ℤ) : (0 : ℚ) < 2 ^ k := by positivity

theorem zpow_two_add (j k : ℤ) : (2 : ℚ) ^ (j + k) = 2 ^ j * 2 ^ k := zpow_add₀ two_ne_zero j k

theorem zpow_two_toNat {k : ℤ} (h : 0 ≤ k) : (2 : ℚ) ^ k.toNat = 2 ^ k := by
  rw [← zpow_natCast, Int.toNat_of_nonneg h]

/-- A power of two over a smaller one is a power of two among the naturals. -/
theorem zpow_two_split {j k : ℤ} (h : j ≤ k) : (2 : ℚ) ^ k = ((2 ^ (k - j).toNat : ℕ) : ℚ) * 2 ^ j := by
  rw [Nat.cast_pow, Nat.cast_ofNat, zpow_two_toNat (by omega), ← zpow_two_add, sub_add_cancel]

/-! ### The quotient that a mode chooses (R59) -/

theorem scaleRat_den_pos {d : Nat} (hd : 0 < d) (n : Nat) (k : ℤ) : 0 < (scaleRat n d k).2 := by
  cases k with
  | ofNat k => exact hd
  | negSucc k => exact Nat.mul_pos hd (Nat.two_pow_pos _)

theorem scaleRat_value (n d : Nat) (k : ℤ) : ((scaleRat n d k).1 : ℚ) / (scaleRat n d k).2 = n / d * 2 ^ k := by
  cases k with
  | ofNat k =>
    simp only [scaleRat, Int.ofNat_eq_natCast, zpow_natCast, Nat.cast_mul, Nat.cast_pow, Nat.cast_ofNat]
    ring
  | negSucc k =>
    simp only [scaleRat, zpow_negSucc, Nat.cast_mul, Nat.cast_pow, Nat.cast_ofNat]
    rw [div_mul_eq_div_div, div_eq_mul_inv]

/-- The exponent that `ratLog` finds is that of the quotient's leading bit. -/
theorem ratLog_spec {n d : Nat} (hn : 0 < n) (hd : 0 < d) :
    (2 : ℚ) ^ ratLog n d ≤ n / d ∧ (n / d : ℚ) < 2 ^ (ratLog n d + 1) := by
  have hdq : (0 : ℚ) < d := by exact_mod_cast hd
  have hnlo : (2 : ℚ) ^ Nat.log2 n ≤ n := by exact_mod_cast Nat.log2_self_le hn.ne'
  have hnhi : (n : ℚ) < 2 ^ (Nat.log2 n + 1) := by exact_mod_cast Nat.lt_log2_self
  have hdlo : (2 : ℚ) ^ Nat.log2 d ≤ d := by exact_mod_cast Nat.log2_self_le hd.ne'
  have hdhi : (d : ℚ) < 2 ^ (Nat.log2 d + 1) := by exact_mod_cast Nat.lt_log2_self
  set k : ℤ := (Nat.log2 n : ℤ) - Nat.log2 d with hk
  have hpow (i j : Nat) (l : ℤ) (h : (i : ℤ) = l + j) : (2 : ℚ) ^ i = 2 ^ l * 2 ^ j := by
    rw [← zpow_natCast, h, zpow_two_add, zpow_natCast]
  have hlow : (2 : ℚ) ^ (k - 1) ≤ n / d := by
    rw [le_div_iff₀ hdq]
    calc (2 : ℚ) ^ (k - 1) * d ≤ 2 ^ (k - 1) * 2 ^ (Nat.log2 d + 1) := by gcongr
      _ = 2 ^ Nat.log2 n := (hpow _ _ _ (by push_cast; omega)).symm
      _ ≤ n := hnlo
  have hhigh : (n / d : ℚ) < 2 ^ (k + 1) := by
    rw [div_lt_iff₀ hdq]
    calc (n : ℚ) < 2 ^ (Nat.log2 n + 1) := hnhi
      _ = 2 ^ (k + 1) * 2 ^ Nat.log2 d := hpow _ _ _ (by push_cast; omega)
      _ ≤ 2 ^ (k + 1) * d := by gcongr
  have hcmp : (scaleRat n d (-k)).2 ≤ (scaleRat n d (-k)).1 ↔ (2 : ℚ) ^ k ≤ n / d := by
    have hpos : (0 : ℚ) < (scaleRat n d (-k)).2 := by exact_mod_cast scaleRat_den_pos hd n (-k)
    rw [← Nat.cast_le (α := ℚ), ← one_le_div hpos, scaleRat_value, zpow_neg, ← div_eq_mul_inv,
      one_le_div (zpow_two_pos k)]
  have hdef : ratLog n d = if (scaleRat n d (-k)).2 ≤ (scaleRat n d (-k)).1 then k else k - 1 := rfl
  rw [hdef]
  split
  next h => exact ⟨hcmp.1 h, hhigh⟩
  next h => exact ⟨hlow, by rw [sub_add_cancel]; exact not_le.1 fun hc => h (hcmp.2 hc)⟩

theorem roundQuotient_inexact (mode : RMode) (neg : Bool) (n d : Nat) : (roundQuotient mode neg n d).2 = (n % d != 0) := rfl


/-- A magnitude `q + ρ` between two integers: the lower one is chosen where the mode does not go up from it. -/
theorem chosen_floor {mode : RMode} {neg : Bool} {q : Nat} {ρ : ℚ} (h0 : 0 ≤ ρ) (h1 : ρ < 1)
    (h : match mode with
      | .rne => 2 * ρ ≤ 1 ∧ (2 * ρ = 1 → q % 2 = 0)
      | .rna => 2 * ρ < 1
      | .rtz => True
      | .rup => neg = false → ρ = 0
      | .rdn => neg = true → ρ = 0) : Chosen mode neg (q + ρ) 1 q := by
  have habs : |(q : ℚ) - (q + ρ)| = ρ := by rw [sub_add_cancel_left, abs_neg, abs_of_nonneg h0]
  refine ⟨q, (mul_one _).symm, by rwa [habs], ?_⟩
  rw [habs]
  cases mode with
  | rne => exact h
  | rna => exact ⟨h.le, fun he => absurd he h.ne⟩
  | rtz => exact le_add_of_nonneg_right h0
  | rup => cases neg <;> simp_all
  | rdn => cases neg <;> simp_all

/-- A magnitude `q + ρ` between two integers: the upper one is chosen where the mode goes up to it. -/
theorem chosen_ceil {mode : RMode} {neg : Bool} {q : Nat} {ρ : ℚ} (h0 : 0 < ρ) (h1 : ρ < 1)
    (h : match mode with
      | .rne => 1 ≤ 2 * ρ ∧ (2 * ρ = 1 → q % 2 = 1)
      | .rna => 1 ≤ 2 * ρ
      | .rtz => False
      | .rup => neg = false
      | .rdn => neg = true) : Chosen mode neg (q + ρ) 1 (q + 1 : Nat) := by
  have habs : |((q + 1 : Nat) : ℚ) - (q + ρ)| = 1 - ρ := by
    rw [Nat.cast_succ, add_sub_add_left_eq_sub, abs_of_pos (sub_pos.2 h1)]
  have hlt : (q : ℚ) + ρ < (q + 1 : Nat) := by push_cast; linarith
  refine ⟨q + 1, (mul_one _).symm, by rw [habs]; linarith, ?_⟩
  rw [habs]
  cases mode with
  | rne => exact ⟨by linarith [h.1], fun he => by have := h.2 (by linarith); omega⟩
  | rna => exact ⟨by linarith [show 1 ≤ 2 * ρ from h], fun _ => hlt⟩
  | rtz => exact h.elim
  | rup => cases neg <;> simp_all [le_of_lt]
  | rdn => cases neg <;> simp_all [le_of_lt]

/-- The integer that `roundQuotient` takes is the one the mode chooses. -/
theorem chosen_one_roundQuotient (mode : RMode) (neg : Bool) (n : Nat) {d : Nat} (hd : 0 < d) :
    Chosen mode neg (n / d : ℚ) 1 (roundQuotient mode neg n d).1 := by
  have hdq : (0 : ℚ) < d := by exact_mod_cast hd
  have hlt : n % d < d := Nat.mod_lt n hd
  set q := n / d with hq
  set r := n % d with hr
  set ρ : ℚ := r / d with hρ
  have hn : (n / d : ℚ) = q + ρ := by
    rw [hρ, div_eq_iff hdq.ne', add_mul, div_mul_cancel₀ _ hdq.ne']
    exact_mod_cast (Nat.div_add_mod' n d).symm
  have h0 : 0 ≤ ρ := by positivity
  have h1 : ρ < 1 := (div_lt_one hdq).2 (by exact_mod_cast hlt)
  have hz : ρ = 0 ↔ r = 0 := by simp [hρ, hd.ne']
  have hpos : r ≠ 0 → 0 < ρ := fun h => h0.lt_of_ne fun he => h (hz.1 he.symm)
  have hgt : 1 < 2 * ρ ↔ d < 2 * r := by
    rw [hρ, ← mul_div_assoc, one_lt_div hdq]; exact_mod_cast Iff.rfl
  have heq : 2 * ρ = 1 ↔ 2 * r = d := by
    rw [hρ, ← mul_div_assoc, div_eq_one_iff_eq hdq.ne']; exact_mod_cast Iff.rfl
  have hle : 1 ≤ 2 * ρ ↔ d ≤ 2 * r := by
    rw [hρ, ← mul_div_assoc, one_le_div hdq]; exact_mod_cast Iff.rfl
  have hup (b : Bool) (hb : (roundQuotient mode neg n d).1 = if b then q + 1 else q)
      (hceil : b = true → Chosen mode neg (q + ρ) 1 (q + 1 : Nat)) (hfloor : b = false → Chosen mode neg (q + ρ) 1 q) :
      Chosen mode neg (q + ρ) 1 (roundQuotient mode neg n d).1 := by
    rw [hb]
    cases b with
    | false => exact hfloor rfl
    | true => exact hceil rfl
  rw [hn]
  cases mode with
  | rne =>
    refine hup _ rfl (fun h => ?_) fun h => ?_
    · have h : d < 2 * r ∨ 2 * r = d ∧ q % 2 = 1 := by simpa using h
      exact chosen_ceil (hpos (by omega)) h1 ⟨hle.2 (by omega), fun he => by have := heq.1 he; omega⟩
    · have h : ¬ d < 2 * r ∧ (2 * r = d → ¬ q % 2 = 1) := by simpa using h
      exact chosen_floor h0 h1 ⟨not_lt.1 fun hc => h.1 (hgt.1 hc), fun he => by have := h.2 (heq.1 he); omega⟩
  | rna =>
    refine hup _ rfl (fun h => ?_) fun h => ?_
    · have h : d ≤ 2 * r := by simpa using h
      exact chosen_ceil (hpos (by omega)) h1 (hle.2 h)
    · have h : ¬ d ≤ 2 * r := by simpa using h
      exact chosen_floor h0 h1 (not_le.1 fun hc => h (hle.1 hc))
  | rtz => exact hup false rfl (fun h => absurd h (by decide)) fun _ => chosen_floor h0 h1 trivial
  | rup =>
    refine hup _ rfl (fun h => ?_) fun h => ?_
    · have h : neg = false ∧ r ≠ 0 := by simpa using h
      exact chosen_ceil (hpos h.2) h1 h.1
    · have h : neg = false → r = 0 := by simpa using h
      exact chosen_floor h0 h1 fun hneg => hz.2 (h hneg)
  | rdn =>
    refine hup _ rfl (fun h => ?_) fun h => ?_
    · have h : neg = true ∧ r ≠ 0 := by simpa using h
      exact chosen_ceil (hpos h.2) h1 h.1
    · have h : neg = true → r = 0 := by simpa using h
      exact chosen_floor h0 h1 fun hneg => hz.2 (h hneg)

/-- The inexact mark of `roundQuotient`: the integer is not the quotient itself. -/
theorem roundQuotient_exact_iff (mode : RMode) (neg : Bool) (n : Nat) {d : Nat} (hd : 0 < d) :
    ((roundQuotient mode neg n d).1 : ℚ) = n / d ↔ (roundQuotient mode neg n d).2 = false := by
  have hdq : (0 : ℚ) < d := by exact_mod_cast hd
  rw [roundQuotient_inexact, bne_eq_false_iff_eq, eq_div_iff hdq.ne']
  constructor
  · intro h
    have h : (roundQuotient mode neg n d).1 * d = n := by exact_mod_cast h
    exact Nat.mod_eq_zero_of_dvd ⟨_, by rw [Nat.mul_comm]; exact h.symm⟩
  · intro h
    have hq : (roundQuotient mode neg n d).1 = n / d := by
      cases mode <;> simp [roundQuotient, h, hd.ne, hd.ne']
    rw [hq]
    exact_mod_cast Nat.div_mul_cancel (Nat.dvd_of_mod_eq_zero h)

/-! ### Points of a grid (R59) -/

/-- A choice among the integers is one among the points of any grid. -/
theorem Chosen.scale {mode : RMode} {neg : Bool} {x k : ℚ} (h : Chosen mode neg x 1 k) {s : ℚ} (hs : 0 < s) :
    Chosen mode neg (x * s) s (k * s) := by
  obtain ⟨j, hj, hlt, hm⟩ := h
  have habs : |k * s - x * s| = |k - x| * s := by rw [← sub_mul, abs_mul, abs_of_pos hs]
  refine ⟨j, by rw [hj, mul_one], by rw [habs]; exact mul_lt_of_lt_one_left hs hlt, ?_⟩
  have hhalf : 2 * (|k - x| * s) ≤ s ↔ 2 * |k - x| ≤ 1 := by
    rw [← mul_assoc, mul_le_iff_le_one_left hs]
  have htie : 2 * (|k - x| * s) = s ↔ 2 * |k - x| = 1 := by
    rw [← mul_assoc, mul_eq_right₀ hs.ne']
  rw [habs]
  cases mode <;> simpa only [hhalf, htie, mul_lt_mul_iff_left₀ hs, mul_le_mul_iff_left₀ hs] using hm

/-- A magnitude as `roundQuotient` takes it, in steps of a grid: the point it gives is the one the mode chooses. -/
theorem chosen_roundQuotient {x s : ℚ} (hs : 0 < s) {n d : Nat} (hd : 0 < d) (hx : (n / d : ℚ) * s = x) (mode : RMode) (neg : Bool) :
    Chosen mode neg x s ((roundQuotient mode neg n d).1 * s) ∧
      (((roundQuotient mode neg n d).1 * s = x) ↔ (roundQuotient mode neg n d).2 = false) := by
  subst hx
  exact ⟨(chosen_one_roundQuotient mode neg n hd).scale hs,
    by rw [mul_right_cancel_iff_of_pos hs, roundQuotient_exact_iff mode neg n hd]⟩

/-- Some point is chosen for every magnitude. -/
theorem Chosen.exists {x s : ℚ} (hx : 0 ≤ x) (hs : 0 < s) (mode : RMode) (neg : Bool) : ∃ y, Chosen mode neg x s y := by
  obtain ⟨c, hc⟩ : ∃ c : ℚ, c = x / s := ⟨_, rfl⟩
  have h0 : 0 ≤ c := hc ▸ div_nonneg hx hs.le
  refine ⟨_, (chosen_roundQuotient hs c.den_pos (n := c.num.toNat) ?_ mode neg).1⟩
  have hnum : ((c.num.toNat : ℕ) : ℚ) = c.num := by
    exact_mod_cast Int.toNat_of_nonneg (Rat.num_nonneg.2 h0)
  rw [hnum, Rat.num_div_den, hc, div_mul_cancel₀ _ hs.ne']

section
variable {mode : RMode} {neg : Bool} {x s y : ℚ}

/-- A magnitude up to a grid point is not rounded past it. -/
theorem Chosen.le_point (h : Chosen mode neg x s y) (hs : 0 < s) {j : Nat} (hx : x ≤ j * s) : y ≤ j * s := by
  obtain ⟨k, rfl, hlt, -⟩ := h
  have hk : (k : ℚ) * s < (j + 1 : Nat) * s := by push_cast; linarith [(abs_lt.1 hlt).2]
  have hk : k < j + 1 := by exact_mod_cast lt_of_mul_lt_mul_right hk hs.le
  gcongr
  omega

/-- A magnitude from a grid point on is not rounded below it. -/
theorem Chosen.point_le (h : Chosen mode neg x s y) (hs : 0 < s) {j : Nat} (hx : j * s ≤ x) : j * s ≤ y := by
  obtain ⟨k, rfl, hlt, -⟩ := h
  have hk : (j : ℚ) * s < (k + 1 : Nat) * s := by push_cast; linarith [(abs_lt.1 hlt).1]
  have hk : j < k + 1 := by exact_mod_cast lt_of_mul_lt_mul_right hk hs.le
  gcongr
  omega

/-- A point of the grid is chosen for itself. -/
theorem Chosen.eq_of_point (h : Chosen mode neg x s y) (hs : 0 < s) {j : Nat} (hx : x = j * s) : y = x := by
  rw [hx]
  exact le_antisymm (h.le_point hs hx.le) (h.point_le hs hx.ge)

end

/-- All magnitudes below a quarter of the step round alike, and never to themselves. -/
theorem Chosen.transfer {mode : RMode} {neg : Bool} {x x' s z : ℚ} (h : Chosen mode neg x' s z) (hx' : 0 < x') (hx : 0 < x)
    (hs' : 4 * x' < s) (hs : 4 * x < s) : Chosen mode neg x s z ∧ z ≠ x := by
  obtain ⟨k, rfl, hlt, hm⟩ := h
  have hk : k < 2 := by
    have : (k : ℚ) * s < (2 : Nat) * s := by push_cast; linarith [(abs_lt.1 hlt).2]
    exact_mod_cast lt_of_mul_lt_mul_right this (by linarith)
  obtain rfl | rfl : k = 0 ∨ k = 1 := by omega
  · have habs (v : ℚ) (hv : 0 < v) : |((0 : Nat) : ℚ) * s - v| = v := by
      rw [Nat.cast_zero, zero_mul, zero_sub, abs_neg, abs_of_pos hv]
    rw [habs x' hx'] at hm
    refine ⟨⟨0, rfl, by rw [habs x hx]; linarith, ?_⟩, by rw [Nat.cast_zero, zero_mul]; exact hx.ne⟩
    rw [habs x hx]
    rw [Nat.cast_zero, zero_mul] at hm ⊢
    cases mode with
    | rne => exact ⟨by linarith, fun he => by linarith⟩
    | rna => exact ⟨by linarith, fun he => by linarith⟩
    | rtz => exact hx.le
    | rup => cases neg <;> simp_all [le_of_lt, not_lt_of_ge]
    | rdn => cases neg <;> simp_all [le_of_lt, not_lt_of_ge]
  · have habs (v : ℚ) (hv : 4 * v < s) (hv0 : 0 < v) : |((1 : Nat) : ℚ) * s - v| = s - v := by
      rw [Nat.cast_one, one_mul, abs_of_pos (by linarith)]
    rw [habs x' hs' hx'] at hm
    refine ⟨⟨1, rfl, by rw [habs x hs hx]; linarith, ?_⟩, by rw [Nat.cast_one, one_mul]; linarith⟩
    rw [habs x hs hx]
    rw [Nat.cast_one, one_mul] at hm ⊢
    have hlt : x < s := by linarith
    have hlt' : x' < s := by linarith
    cases mode with
    | rne => linarith [hm.1]
    | rna => linarith [hm.1]
    | rtz => exact absurd hm (not_le.2 hlt')
    | rup => cases neg <;> simp_all [le_of_lt, not_le_of_gt]
    | rdn => cases neg <;> simp_all [le_of_lt, not_le_of_gt]

end Sys2Proof.Machine
end

section
/-! The floating formats and their codes (R47, R49, R50): a code by its sign, exponent field and fraction, and what it stands for. -/

open Sys2Proof
namespace Sys2Proof.Machine

/-! ### Formats (R47, R49, R50) -/

/-- What every format of R47, R49 and R50 has: a binade of normals and a fraction bit. -/
structure FloatFmt.Regular (f : FloatFmt) : Prop where
  ebits : 2 ≤ f.ebits
  fbits : 1 ≤ f.fbits

theorem tyFmt_regular {t : Ty} {f : FloatFmt} (h : tyFmt t = some f) : f.Regular := by
  cases t <;> cases h <;> exact ⟨by decide, by decide⟩

theorem fmt32_regular : fmt32.Regular := ⟨by decide, by decide⟩

theorem tyFloat_eq {t : Ty} {f : FloatFmt} (h : tyFmt t = some f) : tyFloat t = f := by rw [tyFloat, h, Option.getD_some]

theorem tyFloat_regular (t : Ty) : (tyFloat t).Regular := by
  cases h : tyFmt t with
  | none => rw [tyFloat, h]; exact fmt32_regular
  | some f => rw [tyFloat_eq h]; exact tyFmt_regular h

theorem FloatFmt.width_eq (f : FloatFmt) : f.width = f.ebits + f.fbits + 1 := by unfold FloatFmt.width; omega

/-! ### Codes by their fields -/

/-- The code of a sign, an exponent field and a fraction. -/
def FloatFmt.code (f : FloatFmt) (neg : Bool) (E F : Nat) : Nat := f.signBit neg + E * 2 ^ f.fbits + F

section
variable {f : FloatFmt} {neg : Bool} {E F : Nat}

theorem FloatFmt.code_eq (f : FloatFmt) (neg : Bool) (E F : Nat) : f.code neg E F = (neg.toNat * 2 ^ f.ebits + E) * 2 ^ f.fbits + F := by
  cases neg <;> simp [code, signBit, pow_add, Nat.add_mul]

theorem FloatFmt.code_frac (hF : F < 2 ^ f.fbits) : f.code neg E F % 2 ^ f.fbits = F := by
  rw [code_eq, Nat.mul_add_mod', Nat.mod_eq_of_lt hF]

theorem FloatFmt.code_div (hF : F < 2 ^ f.fbits) : f.code neg E F / 2 ^ f.fbits = neg.toNat * 2 ^ f.ebits + E := by
  rw [code_eq, Nat.mul_comm, Nat.mul_add_div (Nat.two_pow_pos _), Nat.div_eq_of_lt hF, Nat.add_zero]

theorem FloatFmt.code_field (hE : E < 2 ^ f.ebits) (hF : F < 2 ^ f.fbits) : f.code neg E F / 2 ^ f.fbits % 2 ^ f.ebits = E := by
  rw [code_div hF, Nat.mul_add_mod', Nat.mod_eq_of_lt hE]

theorem FloatFmt.code_sign (hE : E < 2 ^ f.ebits) (hF : F < 2 ^ f.fbits) :
    (f.code neg E F / 2 ^ (f.ebits + f.fbits) % 2 == 1) = neg := by
  rw [Nat.add_comm f.ebits, Nat.pow_add, ← Nat.div_div_eq_div_mul, code_div hF, Nat.mul_comm neg.toNat,
    Nat.mul_add_div (Nat.two_pow_pos _), Nat.div_eq_of_lt hE]
  cases neg <;> rfl

theorem FloatFmt.code_lt (hE : E < 2 ^ f.ebits) (hF : F < 2 ^ f.fbits) : f.code neg E F < 2 ^ f.width := by
  have hb : neg.toNat ≤ 1 := Bool.toNat_le neg
  have h1 : neg.toNat * 2 ^ f.ebits + E + 1 ≤ 2 * 2 ^ f.ebits := by nlinarith
  calc f.code neg E F < (neg.toNat * 2 ^ f.ebits + E + 1) * 2 ^ f.fbits := by rw [code_eq]; nlinarith
    _ ≤ 2 * 2 ^ f.ebits * 2 ^ f.fbits := Nat.mul_le_mul_right _ h1
    _ = 2 ^ f.width := by rw [width_eq]; ring

/-- Every code is that of its fields. -/
theorem FloatFmt.exists_code {x : Nat} (hx : x < 2 ^ f.width) :
    ∃ neg E F, E < 2 ^ f.ebits ∧ F < 2 ^ f.fbits ∧ x = f.code neg E F := by
  refine ⟨x / 2 ^ f.fbits / 2 ^ f.ebits == 1, x / 2 ^ f.fbits % 2 ^ f.ebits, x % 2 ^ f.fbits, Nat.mod_lt _ (Nat.two_pow_pos _),
    Nat.mod_lt _ (Nat.two_pow_pos _), ?_⟩
  have hlt : x / 2 ^ f.fbits / 2 ^ f.ebits < 2 := by
    rw [Nat.div_div_eq_div_mul, Nat.div_lt_iff_lt_mul (by positivity)]
    calc x < 2 ^ f.width := hx
      _ = 2 * (2 ^ f.fbits * 2 ^ f.ebits) := by rw [width_eq]; ring
  have hb : (x / 2 ^ f.fbits / 2 ^ f.ebits == 1).toNat = x / 2 ^ f.fbits / 2 ^ f.ebits := by
    obtain h | h := Nat.le_one_iff_eq_zero_or_eq_one.1 (Nat.lt_succ_iff.1 hlt) <;> rw [h] <;> rfl
  rw [code_eq, hb, Nat.div_add_mod', Nat.div_add_mod']

theorem FloatFmt.isDenormal_code (hE : E < 2 ^ f.ebits) (hF : F < 2 ^ f.fbits) : f.isDenormal (f.code neg E F) = (E == 0 && F != 0) := by
  rw [isDenormal, code_field hE hF, code_frac hF]

/-- What a sign, an exponent field and a fraction stand for. -/
def FloatFmt.ofFields (f : FloatFmt) (neg : Bool) (E F : Nat) : FVal :=
  if E = 0 then .num neg F (f.emin - f.fbits)
  else if E + 1 = 2 ^ f.ebits then
    match f.kind with
    | .ieee => if F = 0 then .inf neg else .nan neg F f.fbits (decide (F < 2 ^ (f.fbits - 1)))
    | .nanOnly => if F + 1 = 2 ^ f.fbits then .nan neg 0 f.fbits false else .num neg (2 ^ f.fbits + F) (E - f.bias - f.fbits)
    | .finite => .num neg (2 ^ f.fbits + F) (E - f.bias - f.fbits)
  else .num neg (2 ^ f.fbits + F) (E - f.bias - f.fbits)

theorem FloatFmt.decode_eq_ofFields (f : FloatFmt) (x : Nat) : f.decode x =
    f.ofFields (x / 2 ^ (f.ebits + f.fbits) % 2 == 1) (x / 2 ^ f.fbits % 2 ^ f.ebits) (x % 2 ^ f.fbits) := rfl

theorem FloatFmt.decode_code (hE : E < 2 ^ f.ebits) (hF : F < 2 ^ f.fbits) : f.decode (f.code neg E F) = f.ofFields neg E F := by
  rw [decode_eq_ofFields, code_field hE hF, code_frac hF, code_sign hE hF]

theorem FloatFmt.decode_denormal (hF : F < 2 ^ f.fbits) : f.decode (f.code neg 0 F) = .num neg F (f.emin - f.fbits) := by
  rw [decode_code (Nat.two_pow_pos _) hF, ofFields, if_pos rfl]

/-- The exponent fields and fractions of normal numbers: below the top exponent, and at it what the format does not take for infinities
and NaNs. -/
def FloatFmt.NormalFields (f : FloatFmt) (E F : Nat) : Prop :=
  0 < E ∧ (E + 1 < 2 ^ f.ebits ∨ E + 1 = 2 ^ f.ebits ∧ (f.kind = .finite ∨ f.kind = .nanOnly ∧ F + 1 ≠ 2 ^ f.fbits))

theorem FloatFmt.decode_normal (hF : F < 2 ^ f.fbits) (h : f.NormalFields E F) :
    f.decode (f.code neg E F) = .num neg (2 ^ f.fbits + F) (E - f.bias - f.fbits) := by
  obtain ⟨h0, h⟩ := h
  rw [decode_code (by omega) hF, ofFields, if_neg h0.ne']
  split
  next ht =>
    obtain h | ⟨-, hk | ⟨hk, hne⟩⟩ := h
    · omega
    · simp only [hk]
    · simp only [hk, if_neg hne]
  next => rfl

theorem FloatFmt.Regular.top_field (hf : f.Regular) : 0 < 2 ^ f.ebits - 1 ∧ 2 ^ f.ebits - 1 < 2 ^ f.ebits ∧ 2 ^ f.ebits - 1 + 1 = 2 ^ f.ebits := by
  have : 2 ^ 2 ≤ 2 ^ f.ebits := Nat.pow_le_pow_right (by decide) hf.ebits
  omega

theorem FloatFmt.decode_infinity (hf : f.Regular) (hk : f.kind = .ieee) : f.decode (f.code neg (2 ^ f.ebits - 1) 0) = .inf neg := by
  obtain ⟨h0, hlt, hs⟩ := hf.top_field
  rw [decode_code hlt (Nat.two_pow_pos _), ofFields, if_neg h0.ne', if_pos hs]
  simp only [hk, if_pos]

theorem FloatFmt.decode_nan (hf : f.Regular) (hk : f.kind = .ieee) (hF : F < 2 ^ f.fbits) (h : F ≠ 0) :
    f.decode (f.code neg (2 ^ f.ebits - 1) F) = .nan neg F f.fbits (decide (F < 2 ^ (f.fbits - 1))) := by
  obtain ⟨h0, hlt, hs⟩ := hf.top_field
  rw [decode_code hlt hF, ofFields, if_neg h0.ne', if_pos hs]
  simp only [hk, if_neg h]

theorem FloatFmt.decode_nanOnly (hf : f.Regular) (hk : f.kind = .nanOnly) (hF : F + 1 = 2 ^ f.fbits) :
    f.decode (f.code neg (2 ^ f.ebits - 1) F) = .nan neg 0 f.fbits false := by
  obtain ⟨h0, hlt, hs⟩ := hf.top_field
  rw [decode_code hlt (by omega), ofFields, if_neg h0.ne', if_pos hs]
  simp only [hk, if_pos hF]

/-- The fields of a code decide what it stands for. -/
theorem FloatFmt.fields_cases (hE : E < 2 ^ f.ebits) : E = 0 ∨ f.NormalFields E F ∨ E = 2 ^ f.ebits - 1 ∧ f.kind = .ieee ∨
    E = 2 ^ f.ebits - 1 ∧ f.kind = .nanOnly ∧ F + 1 = 2 ^ f.fbits := by
  unfold NormalFields
  cases f.kind <;> simp <;> omega

end

end Sys2Proof.Machine
end

section
/-! Exact values of numbers, and the codes of the numbers, infinities, NaNs and overflow results of a format (R47 to R50, R60). -/

open Sys2Proof
namespace Sys2Proof.Machine

/-! ### Exact values -/

@[simp] theorem FVal.value_num (neg : Bool) (m : Nat) (e : ℤ) : (FVal.num neg m e).value = (if neg then -1 else 1) * m * 2 ^ e := rfl

theorem FVal.abs_value_num (neg : Bool) (m : Nat) (e : ℤ) : |(FVal.num neg m e).value| = m * 2 ^ e := by
  have h : (0 : ℚ) ≤ m * 2 ^ e := by positivity
  cases neg <;> simp [abs_of_nonneg h]

theorem FVal.value_num_eq_zero {neg : Bool} {m : Nat} {e : ℤ} : (FVal.num neg m e).value = 0 ↔ m = 0 := by
  rw [← abs_eq_zero, abs_value_num, mul_eq_zero, or_iff_left (zpow_two_pos e).ne', Nat.cast_eq_zero]

/-- The value of a normal number by its fields. -/
theorem FVal.value_normal (neg : Bool) (fb F E : Nat) (bias : ℤ) :
    (FVal.num neg (2 ^ fb + F) (E - bias - fb)).value = (if neg then -1 else 1) * (1 + F / 2 ^ fb) * 2 ^ ((E : ℤ) - bias) := by
  rw [value_num, zpow_sub₀ two_ne_zero _ (fb : ℤ), zpow_natCast]
  push_cast
  field_simp

/-- The value of a denormal number by its fraction. -/
theorem FVal.value_denormal (neg : Bool) (fb F : Nat) (e : ℤ) :
    (FVal.num neg F (e - fb)).value = (if neg then -1 else 1) * F / 2 ^ fb * 2 ^ e := by
  rw [value_num, zpow_sub₀ two_ne_zero _ (fb : ℤ), zpow_natCast]
  ring

/-! ### The ends of a format's range -/

section
variable {f : FloatFmt} {neg : Bool}

theorem FloatFmt.Regular.emin_le_emax (hf : f.Regular) : f.emin ≤ f.emax := by
  have h : ((2 ^ 2 : ℕ) : ℤ) ≤ (2 ^ f.ebits : ℕ) := by exact_mod_cast Nat.pow_le_pow_right (by decide) hf.ebits
  unfold emin emax
  cases f.kind <;> simp only <;> omega

theorem FloatFmt.Regular.maxSig_bounds (hf : f.Regular) : 2 ^ f.fbits ≤ f.maxSig ∧ f.maxSig < 2 ^ (f.fbits + 1) := by
  have h : 2 ^ 1 ≤ 2 ^ f.fbits := Nat.pow_le_pow_right (by decide) hf.fbits
  unfold maxSig
  rw [Nat.pow_succ]
  cases f.kind <;> simp only <;> omega

theorem FloatFmt.top_pos (hf : f.Regular) : 0 < f.top := by
  have h : 0 < f.maxSig := (Nat.two_pow_pos _).trans_le hf.maxSig_bounds.1
  unfold top
  positivity

/-! ### Codes of numbers, infinities and NaNs -/

/-- The code of a significand and an exponent in the format's range stands for their value. -/
theorem FloatFmt.stands_normal {r : Nat} {T : ℤ} (hlo : 2 ^ f.fbits ≤ r) (hhi : r < 2 ^ (f.fbits + 1)) (hmin : f.emin ≤ T)
    (hmax : T ≤ f.emax) (hsig : T = f.emax → r ≤ f.maxSig) :
    f.Stands (f.signBit neg + (T + f.bias).toNat * 2 ^ f.fbits + (r - 2 ^ f.fbits)) neg (r * 2 ^ (T - f.fbits)) := by
  have hpow : 2 ^ (f.fbits + 1) = 2 * 2 ^ f.fbits := by rw [Nat.pow_succ, Nat.mul_comm]
  have hE : ((T + f.bias).toNat : ℤ) = T + f.bias := Int.toNat_of_nonneg (by unfold emin at hmin; omega)
  have hF : r - 2 ^ f.fbits < 2 ^ f.fbits := by omega
  have hfields : f.NormalFields (T + f.bias).toNat (r - 2 ^ f.fbits) := by
    unfold emin at hmin
    unfold emax at hmax hsig
    unfold maxSig at hsig
    have hcast : ((2 ^ f.ebits : ℕ) : ℤ) = 2 ^ f.ebits := by push_cast; rfl
    refine ⟨by omega, ?_⟩
    cases hk : f.kind <;> simp only [hk] at hmax hsig
    · exact .inl (by omega)
    · by_cases hT : (T + f.bias).toNat + 1 = 2 ^ f.ebits
      · have := hsig (by omega)
        exact .inr ⟨hT, .inr ⟨rfl, by omega⟩⟩
      · exact .inl (by omega)
    · by_cases hT : (T + f.bias).toNat + 1 = 2 ^ f.ebits
      · exact .inr ⟨hT, .inl rfl⟩
      · exact .inl (by omega)
  have hlt : (T + f.bias).toNat < 2 ^ f.ebits := by
    obtain ⟨-, h | ⟨h, -⟩⟩ := hfields <;> omega
  refine ⟨code_lt hlt hF, _, _, decode_normal hF hfields, ?_⟩
  rw [hE, Nat.add_sub_cancel' hlo, add_sub_cancel_right]

/-- The code of a point of the denormal grid up to the smallest normal stands for it. -/
theorem FloatFmt.stands_denormal (hf : f.Regular) {r : Nat} (h : r ≤ 2 ^ f.fbits) :
    f.Stands (f.signBit neg + r) neg (r * 2 ^ (f.emin - f.fbits)) := by
  obtain h | rfl := Nat.lt_or_eq_of_le h
  · refine ⟨?_, r, _, ?_, rfl⟩
    · simpa [code] using code_lt (f := f) (neg := neg) (Nat.two_pow_pos _) h
    · simpa [code] using decode_denormal (f := f) (neg := neg) h
  · have hE : (f.emin + f.bias).toNat = 1 := by unfold emin; omega
    have hs := stands_normal (f := f) (neg := neg) le_rfl (Nat.pow_lt_pow_right (by decide) (Nat.lt_succ_self _)) le_rfl
      hf.emin_le_emax fun _ => hf.maxSig_bounds.1
    rwa [hE, one_mul, Nat.sub_self, Nat.add_zero] at hs

theorem FloatFmt.stands_zero (hf : f.Regular) (neg : Bool) : f.Stands (f.signBit neg) neg 0 := by
  simpa using stands_denormal (neg := neg) hf (Nat.zero_le _)

theorem FloatFmt.stands_largest (hf : f.Regular) (neg : Bool) : f.Stands (f.largest neg) neg f.top := by
  obtain ⟨hlo, hhi⟩ := hf.maxSig_bounds
  exact stands_normal hlo hhi hf.emin_le_emax le_rfl fun _ => le_rfl

theorem FloatFmt.infinite_infinity (hf : f.Regular) (hk : f.kind = .ieee) (neg : Bool) : f.Infinite (f.infinity neg) neg :=
  ⟨code_lt hf.top_field.2.1 (Nat.two_pow_pos _), decode_infinity hf hk⟩

/-- All bits below the sign set are the top exponent field and fraction. -/
theorem FloatFmt.signBit_ones (f : FloatFmt) (neg : Bool) :
    f.signBit neg + (2 ^ (f.ebits + f.fbits) - 1) = f.code neg (2 ^ f.ebits - 1) (2 ^ f.fbits - 1) := by
  have he := Nat.two_pow_pos f.ebits
  have hf := Nat.two_pow_pos f.fbits
  have h : 2 ^ f.fbits ≤ 2 ^ f.ebits * 2 ^ f.fbits := Nat.le_mul_of_pos_left _ he
  rw [code, Nat.pow_add, Nat.sub_mul, one_mul]
  omega

theorem FloatFmt.notNumber_ones (hf : f.Regular) (hk : f.kind = .nanOnly) (neg : Bool) :
    f.NotNumber (f.signBit neg + (2 ^ (f.ebits + f.fbits) - 1)) neg := by
  have h := Nat.two_pow_pos f.fbits
  have hd := decode_nanOnly (neg := neg) (F := 2 ^ f.fbits - 1) hf hk (by omega)
  rw [signBit_ones]
  exact ⟨code_lt hf.top_field.2.1 (by omega), by rw [hd]; rfl, by rw [hd]; rfl⟩

/-- The overflow result is that of the table of R60. -/
theorem FloatFmt.overflowed_overflow (hf : f.Regular) (a : Arith) (neg : Bool) : f.Overflowed a neg (f.overflow a neg) := by
  have hl := stands_largest hf neg
  unfold Overflowed overflow
  cases hk : f.kind with
  | finite => simpa using hl
  | ieee =>
    have hi := infinite_infinity hf hk neg
    cases a.sat with
    | true => simpa using hl
    | false => cases a.mode <;> cases neg <;> simpa using by assumption
  | nanOnly =>
    have hi := notNumber_ones hf hk neg
    cases a.sat with
    | true => simpa using hl
    | false => cases a.mode <;> cases neg <;> simpa using by assumption

end
end Sys2Proof.Machine
end

section
/-! The one rounding of every floating result (R59 to R61): that the model's rounding by the exponent of the leading bit is the rule's. -/

open Sys2Proof
namespace Sys2Proof.Machine

/-! ### The one rounding (R59 to R61) -/

/-- The rounding of a nonzero magnitude whose leading bit has the weight `2 ^ top`. -/
def FloatFmt.roundAt (f : FloatFmt) (a : Arith) (neg : Bool) (n d : Nat) (e top : Int) : Nat × FlagSet :=
  let p := scaleRat n d (e - (top - f.fbits))
  let q := roundQuotient a.mode neg p.1 p.2
  let w := if q.1 = 2 ^ (f.fbits + 1) then (2 ^ f.fbits, top + 1) else (q.1, top)
  if f.emax < w.2 || (decide (w.2 = f.emax) && decide (f.maxSig < w.1)) then (f.overflow a neg, flagOverflow ||| flagInexact)
  else if w.2 < f.emin then
    if a.fout then (f.signBit neg, flagUnderflow ||| flagInexact)
    else
      let p := scaleRat n d (e - (f.emin - f.fbits))
      let q := roundQuotient a.mode neg p.1 p.2
      (f.signBit neg + q.1, flagIf q.2 (flagUnderflow ||| flagInexact))
  else (f.signBit neg + (w.2 + f.bias).toNat * 2 ^ f.fbits + (w.1 - 2 ^ f.fbits), flagIf q.2 flagInexact)

theorem FloatFmt.round_eq_roundAt (f : FloatFmt) (a : Arith) (neg : Bool) {n : Nat} (hn : n ≠ 0) (d : Nat) (e : ℤ) :
    f.round a neg n d e =
      let top := ratLog n d + e
      let low := f.emin - f.fbits - 4
      f.roundAt a neg n d (if top < low then e + (low - top) else e) (if top < low then low else top) := by
  unfold round
  rw [if_neg hn]
  rfl

section
variable {f : FloatFmt} {a : Arith} {neg : Bool} {r : Nat} {T : ℤ}

/-- A power of two as a point of the grid of a smaller one. -/
theorem two_pow_mul_grid {j : Nat} {k : ℤ} (T : ℤ) (h : (j : ℤ) + k = T) : ((2 ^ j : ℕ) : ℚ) * 2 ^ k = 2 ^ T := by
  rw [← h, zpow_two_add, zpow_natCast, Nat.cast_pow, Nat.cast_ofNat]

theorem significand_bounds {fb : Nat} (hlo : 2 ^ fb ≤ r) (hhi : r < 2 ^ (fb + 1)) :
    (2 : ℚ) ^ T ≤ r * 2 ^ (T - fb) ∧ (r : ℚ) * 2 ^ (T - fb) < 2 ^ (T + 1) := by
  constructor
  · rw [← two_pow_mul_grid (j := fb) (k := T - fb) T (by ring)]
    gcongr
  · rw [← two_pow_mul_grid (j := fb + 1) (k := T - fb) (T + 1) (by push_cast; ring)]
    gcongr

/-- A value lies above the format's range when its exponent does, or its significand at the greatest exponent. -/
theorem FloatFmt.top_lt_iff (hf : f.Regular) (hlo : 2 ^ f.fbits ≤ r) (hhi : r < 2 ^ (f.fbits + 1)) :
    f.top < r * 2 ^ (T - f.fbits) ↔ f.emax < T ∨ T = f.emax ∧ f.maxSig < r := by
  obtain ⟨hmlo, hmhi⟩ := hf.maxSig_bounds
  obtain ⟨htlo, hthi⟩ := significand_bounds (T := f.emax) hmlo hmhi
  obtain ⟨hrlo, hrhi⟩ := significand_bounds (T := T) hlo hhi
  rw [FloatFmt.top]
  obtain h | rfl | h := lt_trichotomy T f.emax
  · refine iff_of_false (not_lt.2 ?_) (by omega)
    exact hrhi.le.trans ((zpow_le_zpow_right₀ one_le_two (by omega)).trans htlo)
  · rw [mul_lt_mul_iff_left₀ (zpow_two_pos _), Nat.cast_lt]
    simp
  · exact iff_of_true (hthi.trans_le ((zpow_le_zpow_right₀ one_le_two (by omega)).trans hrlo)) (.inl h)

/-- A value is tiny when its exponent lies below that of the smallest normal. -/
theorem FloatFmt.lt_emin_iff (hlo : 2 ^ f.fbits ≤ r) (hhi : r < 2 ^ (f.fbits + 1)) :
    (r : ℚ) * 2 ^ (T - f.fbits) < 2 ^ f.emin ↔ T < f.emin := by
  obtain ⟨hrlo, hrhi⟩ := significand_bounds (T := T) hlo hhi
  constructor
  · exact fun h => (zpow_lt_zpow_iff_right₀ one_lt_two).1 (hrlo.trans_lt h)
  · exact fun h => hrhi.trans_le (zpow_le_zpow_right₀ one_le_two (by omega))

/-- A point of a binade's grid as a significand of the format and its exponent. -/
theorem significand_normalised {fb : Nat} (hlo : 2 ^ fb ≤ r) (hhi : r ≤ 2 ^ (fb + 1)) (T : ℤ) :
    let w := if r = 2 ^ (fb + 1) then (2 ^ fb, T + 1) else (r, T)
    2 ^ fb ≤ w.1 ∧ w.1 < 2 ^ (fb + 1) ∧ T ≤ w.2 ∧ (r : ℚ) * 2 ^ (T - fb) = w.1 * 2 ^ (w.2 - fb) := by
  by_cases h : r = 2 ^ (fb + 1)
  · rw [if_pos h, h]
    refine ⟨le_rfl, Nat.pow_lt_pow_right (by decide) (Nat.lt_succ_self _), by simp, ?_⟩
    rw [show T + 1 - fb = 1 + (T - fb) by ring, zpow_two_add]
    push_cast
    ring
  · rw [if_neg h]
    exact ⟨hlo, hhi.lt_of_ne h, le_rfl, rfl⟩

theorem flagIf_eq {b : Bool} {fl : FlagSet} {p : Prop} [Decidable p] (h : p ↔ b = false) : flagIf b fl = if p then 0 else fl := by
  cases b <;> simp_all [flagIf]

/-- A magnitude in steps of `fb` bits below its leading one: how many the mode chooses. -/
theorem Chosen.steps_bounds {mode : RMode} {x : ℚ} {fb q : Nat} (h : Chosen mode neg x (2 ^ (T - fb)) (q * 2 ^ (T - fb)))
    (hlo : 2 ^ T ≤ x) (hhi : x < 2 ^ (T + 1)) : 2 ^ fb ≤ q ∧ q ≤ 2 ^ (fb + 1) := by
  have hs := zpow_two_pos (T - fb)
  have hl := h.point_le hs ((two_pow_mul_grid (j := fb) T (by ring)).trans_le hlo)
  have hh := h.le_point hs (hhi.le.trans_eq (two_pow_mul_grid (j := fb + 1) (T + 1) (by push_cast; ring)).symm)
  exact ⟨Nat.cast_le.1 (le_of_mul_le_mul_right hl hs), Nat.cast_le.1 (le_of_mul_le_mul_right hh hs)⟩

/-- The rounding is that of R59 to R61 where the leading weight given is that of the magnitude. -/
theorem FloatFmt.rounds_roundAt (hf : f.Regular) {n d : Nat} (hd : 0 < d) {e top : ℤ} {x : ℚ} (hx : (n / d : ℚ) * 2 ^ e = x)
    (hlo : (2 : ℚ) ^ top ≤ x) (hhi : x < 2 ^ (top + 1)) : f.Rounds a neg x (f.roundAt a neg n d e top) := by
  have hgrid (k : ℤ) : ((scaleRat n d (e - k)).1 / (scaleRat n d (e - k)).2 : ℚ) * 2 ^ k = x := by
    rw [scaleRat_value, mul_assoc, ← zpow_two_add, sub_add_cancel, hx]
  have hchosen (k : ℤ) := chosen_roundQuotient (zpow_two_pos k) (scaleRat_den_pos hd n (e - k)) (hgrid k) a.mode neg
  unfold roundAt
  extract_lets p q w p' q'
  obtain ⟨hy, hexact⟩ : Chosen a.mode neg x (2 ^ (top - f.fbits)) (q.1 * 2 ^ (top - f.fbits)) ∧
    ((q.1 * 2 ^ (top - f.fbits) : ℚ) = x ↔ q.2 = false) := hchosen _
  obtain ⟨hqlo, hqhi⟩ := hy.steps_bounds hlo hhi
  obtain ⟨hwlo, hwhi, htop, hw⟩ : 2 ^ f.fbits ≤ w.1 ∧ w.1 < 2 ^ (f.fbits + 1) ∧ top ≤ w.2 ∧
    (q.1 : ℚ) * 2 ^ (top - f.fbits) = w.1 * 2 ^ (w.2 - f.fbits) := significand_normalised hqlo hqhi top
  have hover : (decide (f.emax < w.2) || (decide (w.2 = f.emax) && decide (f.maxSig < w.1))) = true ↔ f.top < q.1 * 2 ^ (top - f.fbits) := by
    rw [hw, top_lt_iff hf hwlo hwhi]
    simp
  have htiny : w.2 < f.emin ↔ (q.1 : ℚ) * 2 ^ (top - f.fbits) < 2 ^ f.emin := by rw [hw, lt_emin_iff hwlo hwhi]
  refine ⟨top, _, hlo, hhi, hy, ?_⟩
  by_cases h1 : f.top < (q.1 : ℚ) * 2 ^ (top - f.fbits)
  · rw [if_pos h1, if_pos (hover.2 h1)]
    exact ⟨overflowed_overflow hf a neg, rfl⟩
  rw [if_neg h1, if_neg (hover.not.2 h1)]
  by_cases h2 : (q.1 : ℚ) * 2 ^ (top - f.fbits) < 2 ^ f.emin
  · rw [if_pos h2, if_pos (htiny.2 h2)]
    by_cases h3 : a.fout = true
    · rw [if_pos h3, if_pos h3]
      exact ⟨stands_zero hf neg, rfl⟩
    · rw [if_neg h3, if_neg h3]
      obtain ⟨hz, hzexact⟩ : Chosen a.mode neg x (2 ^ (f.emin - f.fbits)) (q'.1 * 2 ^ (f.emin - f.fbits)) ∧
        ((q'.1 * 2 ^ (f.emin - f.fbits) : ℚ) = x ↔ q'.2 = false) := hchosen _
      have hs' := zpow_two_pos (f.emin - f.fbits)
      have hxmin : x ≤ 2 ^ f.emin := hhi.le.trans (zpow_le_zpow_right₀ one_le_two (by have := htiny.2 h2; omega))
      have hle := Nat.cast_le.1 (le_of_mul_le_mul_right
        (hz.le_point hs' (hxmin.trans_eq (two_pow_mul_grid (j := f.fbits) f.emin (by ring)).symm)) hs')
      exact ⟨_, hz, stands_denormal hf hle, flagIf_eq hzexact⟩
  · rw [if_neg h2, if_neg (htiny.not.2 h2), hw]
    have hrange := (top_lt_iff hf hwlo hwhi).not.1 (hw ▸ h1)
    refine ⟨stands_normal hwlo hwhi (not_lt.1 (htiny.not.2 h2)) (by omega) (by omega), ?_⟩
    rw [← hw]
    exact flagIf_eq hexact

/-- A magnitude is not rounded past the power of two above it. -/
theorem Chosen.le_next {mode : RMode} {x y : ℚ} {fb : Nat} (h : Chosen mode neg x (2 ^ (T - fb)) y) (hhi : x < 2 ^ (T + 1)) :
    y ≤ 2 ^ (T + 1) := by
  have hp := two_pow_mul_grid (j := fb + 1) (k := T - fb) (T + 1) (by push_cast; ring)
  exact hp ▸ h.le_point (zpow_two_pos _) (hhi.le.trans_eq hp.symm)

theorem FloatFmt.Regular.emin_le_top (hf : f.Regular) : 2 ^ f.emin ≤ f.top := by
  obtain ⟨hlo, hhi⟩ := hf.maxSig_bounds
  exact (zpow_le_zpow_right₀ one_le_two hf.emin_le_emax).trans (significand_bounds hlo hhi).1

/-- Magnitudes far below the denormal grid round alike. -/
theorem FloatFmt.Rounds.of_tiny (hf : f.Regular) {x x' : ℚ} {v : Nat × FlagSet} (h : f.Rounds a neg x' v) (hlo : 2 ^ T ≤ x)
    (hhi : x < 2 ^ (T + 1)) (hT : T ≤ f.emin - f.fbits - 4) (hx' : x' < 2 ^ (f.emin - f.fbits - 3)) : f.Rounds a neg x v := by
  obtain ⟨E, y', hlo', hhi', hy', hv⟩ := h
  have hE : E < f.emin - f.fbits - 3 := (zpow_lt_zpow_iff_right₀ one_lt_two).1 (hlo'.trans_lt hx')
  have hx0 : 0 < x := (zpow_two_pos T).trans_le hlo
  have hx0' : 0 < x' := (zpow_two_pos E).trans_le hlo'
  obtain ⟨y, hy⟩ := Chosen.exists hx0.le (zpow_two_pos (T - f.fbits)) a.mode neg
  have htiny {E : ℤ} {x y : ℚ} (h : Chosen a.mode neg x (2 ^ (E - f.fbits)) y) (hhi : x < 2 ^ (E + 1)) (hE : E < f.emin - f.fbits - 3) :
      y < 2 ^ f.emin := (h.le_next hhi).trans_lt (zpow_lt_zpow_right₀ one_lt_two (by omega))
  have hys := htiny hy hhi (by omega)
  have hys' := htiny hy' hhi' hE
  rw [if_neg (hys'.trans_le hf.emin_le_top).not_gt, if_pos hys'] at hv
  refine ⟨T, y, hlo, hhi, hy, ?_⟩
  rw [if_neg (hys.trans_le hf.emin_le_top).not_gt, if_pos hys]
  by_cases hfout : a.fout = true
  · rwa [if_pos hfout] at hv ⊢
  · rw [if_neg hfout] at hv ⊢
    obtain ⟨z, hz, hstands, hflags⟩ := hv
    have hquarter {x : ℚ} (h : x < 2 ^ (f.emin - f.fbits - 3)) : 4 * x < 2 ^ (f.emin - f.fbits) := by
      calc 4 * x < 2 ^ (2 : ℤ) * 2 ^ (f.emin - f.fbits - 3) := by norm_num; linarith
        _ = 2 ^ (2 + (f.emin - f.fbits - 3)) := (zpow_two_add _ _).symm
        _ ≤ 2 ^ (f.emin - f.fbits) := zpow_le_zpow_right₀ one_le_two (by omega)
    have hx : x < 2 ^ (f.emin - f.fbits - 3) := hhi.trans_le (zpow_le_zpow_right₀ one_le_two (by omega))
    obtain ⟨hzx, hne⟩ := hz.transfer hx0' hx0 (hquarter hx') (hquarter hx)
    obtain ⟨-, hne'⟩ := hz.transfer hx0' hx0' (hquarter hx') (hquarter hx')
    exact ⟨z, hzx, hstands, by rw [hflags, if_neg hne, if_neg hne']⟩

/-- Every nonzero exact value is rounded by R59 to R61. -/
theorem FloatFmt.rounds_round (hf : f.Regular) {n d : Nat} (hn : 0 < n) (hd : 0 < d) (e : ℤ) :
    f.Rounds a neg (n / d * 2 ^ e) (f.round a neg n d e) := by
  obtain ⟨hlo, hhi⟩ := ratLog_spec hn hd
  have hlo' : (2 : ℚ) ^ (ratLog n d + e) ≤ n / d * 2 ^ e := by rw [zpow_two_add]; gcongr
  have hhi' : (n / d : ℚ) * 2 ^ e < 2 ^ (ratLog n d + e + 1) := by rw [add_right_comm, zpow_two_add _ e]; gcongr
  rw [round_eq_roundAt f a neg hn.ne']
  extract_lets top low
  by_cases h : top < low
  · rw [if_pos h, if_pos h]
    have hshift (k : ℤ) : (2 : ℚ) ^ (k + (low - top)) = 2 ^ k * 2 ^ (low - top) := zpow_two_add _ _
    have hx : (n / d : ℚ) * 2 ^ (e + (low - top)) < 2 ^ (low + 1) := by
      rw [show low + 1 = top + 1 + (low - top) by ring, hshift, hshift, ← mul_assoc]
      gcongr
    refine Rounds.of_tiny hf (rounds_roundAt hf hd rfl ?_ hx) hlo' hhi' h.le (hx.trans_eq (congrArg _ (by ring)))
    rw [show (2 : ℚ) ^ low = 2 ^ (top + (low - top)) by congr 1; ring, hshift, hshift, ← mul_assoc]
    gcongr
  · rw [if_neg h, if_neg h]
    exact rounds_roundAt hf hd rfl hlo' hhi'

end
end Sys2Proof.Machine
end

section
/-! What a rounded value gives (R59 to R61), the values that are rounded to themselves, the tables of R47, R49 and R50, and from these the
settlement of O12. -/

open Sys2Proof
namespace Sys2Proof.Machine

section
variable {f : FloatFmt} {a : Arith} {neg : Bool}

/-- A rounded quotient is what R59 to R61 give for its value. -/
theorem FloatFmt.gives_round (hf : f.Regular) {n d : Nat} (hd : 0 < d) {e : ℤ} {v : ℚ}
    (hv : v = (if neg then -1 else 1) * (n / d * 2 ^ e)) : f.Gives a v neg (f.round a neg n d e) := by
  have hd' : (0 : ℚ) < d := by exact_mod_cast hd
  obtain rfl | hn := Nat.eq_zero_or_pos n
  · have h0 : v = 0 := by rw [hv, Nat.cast_zero, zero_div, zero_mul, mul_zero]
    exact ⟨fun _ => ⟨stands_zero hf neg, rfl⟩, fun h => absurd h0 h⟩
  · have hpos : (0 : ℚ) < n / d * 2 ^ e := by positivity
    have habs : |v| = n / d * 2 ^ e := by
      rw [hv, abs_mul, abs_of_pos hpos]
      cases neg <;> simp
    have hneg : decide (v < 0) = neg := by
      rw [hv]
      cases neg
      · rw [if_neg (by decide), one_mul, decide_eq_false hpos.not_gt]
      · rw [if_pos rfl, neg_one_mul, decide_eq_true (neg_neg_of_pos hpos)]
    refine ⟨fun h => absurd (abs_eq_zero.2 h) (habs ▸ hpos.ne'), fun _ => ?_⟩
    rw [habs, hneg]
    exact rounds_round hf hn hd e

/-- A rounded number is what R59 to R61 give for it. -/
theorem FloatFmt.gives_round_num (hf : f.Regular) (m : Nat) (e : ℤ) :
    f.Gives a (FVal.num neg m e).value neg (f.round a neg m 1 e) :=
  gives_round hf one_pos (by rw [FVal.value_num, Nat.cast_one, div_one, mul_assoc])

theorem FloatFmt.Gives.zero_sign {v : ℚ} {z z' : Bool} {r : Nat × FlagSet} (h : f.Gives a v z r) (hz : v = 0 → z = z') :
    f.Gives a v z' r :=
  ⟨fun h0 => hz h0 ▸ h.1 h0, h.2⟩

/-- A magnitude that the format holds, and that no flush takes, is rounded to itself. -/
theorem FloatFmt.Rounds.exact {x : ℚ} {r : Nat × FlagSet} (h : f.Rounds a neg x r) {m : Nat} {g : ℤ} (hx : x = m * 2 ^ g)
    (hm : m < 2 ^ (f.fbits + 1)) (htop : x ≤ f.top) (hmin : 2 ^ f.emin ≤ x ∨ a.fout = false ∧ f.emin - f.fbits ≤ g) :
    f.Stands r.1 neg x ∧ r.2 = 0 := by
  obtain ⟨E, y, hlo, -, hy, hr⟩ := h
  have hpoint {k : ℤ} (hk : k ≤ g) : x = (m * 2 ^ (g - k).toNat : ℕ) * 2 ^ k := by
    rw [hx, zpow_two_split hk, Nat.cast_mul, mul_assoc]
  have hE : E < f.fbits + 1 + g := by
    refine (zpow_lt_zpow_iff_right₀ (one_lt_two (α := ℚ))).1 (hlo.trans_lt ?_)
    rw [hx, ← two_pow_mul_grid (j := f.fbits + 1) (k := g) (f.fbits + 1 + g) (by push_cast; ring)]
    gcongr
  obtain rfl := hy.eq_of_point (zpow_two_pos _) (hpoint (by omega))
  rw [if_neg htop.not_gt] at hr
  by_cases htiny : y < 2 ^ f.emin
  · obtain ⟨hfout, hg⟩ := hmin.resolve_left htiny.not_ge
    rw [if_pos htiny, if_neg (by simp [hfout])] at hr
    obtain ⟨z, hz, hs, hfl⟩ := hr
    obtain rfl := hz.eq_of_point (zpow_two_pos _) (hpoint hg)
    exact ⟨hs, by rw [hfl, if_pos rfl]⟩
  · rw [if_neg htiny, if_pos rfl] at hr
    exact hr

/-! ### What codes stand for (R47, R49, R50) -/

theorem FloatFmt.sign_iff {x : Nat} (hx : x < 2 ^ f.width) : decide (2 ^ (f.width - 1) ≤ x) = (x / 2 ^ (f.ebits + f.fbits) % 2 == 1) := by
  have hw : f.width - 1 = f.ebits + f.fbits := by unfold width; omega
  have h2 : 2 ^ f.width = 2 * 2 ^ (f.ebits + f.fbits) := by rw [width_eq, Nat.pow_succ, Nat.mul_comm]
  rw [hw]
  by_cases h : 2 ^ (f.ebits + f.fbits) ≤ x
  · rw [decide_eq_true h, Nat.div_eq_of_lt_le (k := 1) (by omega) (by omega)]
    rfl
  · rw [decide_eq_false h, Nat.div_eq_of_lt (by omega)]
    rfl

/-- The sign of what a code stands for is its top bit. -/
theorem FloatFmt.decode_neg (f : FloatFmt) (x : Nat) : (f.decode x).neg = (x / 2 ^ (f.ebits + f.fbits) % 2 == 1) := by
  simp only [decode]
  split
  · rfl
  · split
    · cases f.kind with
      | finite => rfl
      | ieee => dsimp only; split <;> rfl
      | nanOnly => dsimp only; split <;> rfl
    · rfl

end

theorem finite_decode_isNum {f : FloatFmt} (hk : f.kind = .finite) (x : Nat) : (f.decode x).isNum = true := by
  unfold FloatFmt.decode
  simp only [hk]
  split_ifs <;> rfl


section
variable {f : FloatFmt}

/-- The tables of R47, R49 and R50: what a code stands for by its sign, exponent field and fraction. -/
theorem FloatFmt.decode_table (hf : f.Regular) {x : Nat} (hx : x < 2 ^ f.width) :
    let top := 2 ^ f.ebits - 1
    let field := x / 2 ^ f.fbits % 2 ^ f.ebits
    let frac := x % 2 ^ f.fbits
    let neg := decide (2 ^ (f.width - 1) ≤ x)
    let v := f.decode x
    v.neg = neg ∧
    (field = 0 → v.isNum = true ∧ v.value = (if neg then -1 else 1) * frac / 2 ^ f.fbits * 2 ^ (1 - f.bias)) ∧
    (0 < field → field < top ∨ f.kind = .finite ∨ f.kind = .nanOnly ∧ frac ≠ 2 ^ f.fbits - 1 →
      v.isNum = true ∧ v.value = (if neg then -1 else 1) * (1 + frac / 2 ^ f.fbits) * 2 ^ (field - f.bias)) ∧
    (field = top → f.kind = .nanOnly → frac = 2 ^ f.fbits - 1 → v.isNaN = true ∧ v.isSNaN = false) ∧
    (field = top → f.kind = .ieee → (frac = 0 → v = .inf neg) ∧
      (frac ≠ 0 → v.isNaN = true ∧ (v.isSNaN = true ↔ frac < 2 ^ (f.fbits - 1)))) := by
  rw [sign_iff hx, ← decode_neg]
  obtain ⟨neg, E, F, hE, hF, rfl⟩ := exists_code hx
  have hneg : (f.decode (f.code neg E F)).neg = neg := by rw [decode_neg, code_sign hE hF]
  rw [hneg, code_field hE hF, code_frac hF]
  have hpos := Nat.two_pow_pos f.fbits
  refine ⟨hneg, ?_, ?_, ?_, ?_⟩
  · rintro rfl
    rw [decode_denormal hF]
    exact ⟨rfl, FVal.value_denormal neg _ _ _⟩
  · intro h0 h
    have hfields : f.NormalFields E F := by
      obtain hlt | hge := Nat.lt_or_ge (E + 1) (2 ^ f.ebits)
      · exact ⟨h0, .inl hlt⟩
      · obtain h | hk | ⟨hk, hne⟩ := h
        · omega
        · exact ⟨h0, .inr ⟨by omega, .inl hk⟩⟩
        · exact ⟨h0, .inr ⟨by omega, .inr ⟨hk, by omega⟩⟩⟩
    rw [decode_normal hF hfields]
    exact ⟨rfl, FVal.value_normal neg _ _ _ _⟩
  · rintro rfl hk hfrac
    rw [decode_nanOnly hf hk (by omega)]
    exact ⟨rfl, rfl⟩
  · rintro rfl hk
    constructor
    · rintro rfl
      exact decode_infinity hf hk
    · intro h
      rw [decode_nan hf hk hF h]
      exact ⟨rfl, decide_eq_true_iff⟩

/-- What a code stands for, with the range of its magnitude where it is a number. -/
theorem FloatFmt.decode_cases (hf : f.Regular) {x : Nat} (hx : x < 2 ^ f.width) :
    (∃ neg m, f.decode x = .num neg m (f.emin - f.fbits) ∧ m < 2 ^ f.fbits ∧ f.isDenormal x = (m != 0)) ∨
    (∃ neg m T, f.decode x = .num neg m (T - f.fbits) ∧ 2 ^ f.fbits ≤ m ∧ m < 2 ^ (f.fbits + 1) ∧ f.emin ≤ T ∧ T ≤ f.emax ∧
      (T = f.emax → m ≤ f.maxSig) ∧ f.isDenormal x = false) ∨
    (∃ neg, f.decode x = .inf neg) ∨ ∃ neg fr sn, f.decode x = .nan neg fr f.fbits sn := by
  obtain ⟨neg, E, F, hE, hF, rfl⟩ := exists_code hx
  rw [isDenormal_code hE hF]
  obtain rfl | hn | ⟨rfl, hk⟩ | ⟨rfl, hk, hF1⟩ := fields_cases (F := F) hE
  · exact .inl ⟨neg, F, decode_denormal hF, hF, rfl⟩
  · have hcast : ((2 ^ f.ebits : ℕ) : ℤ) = 2 ^ f.ebits := by push_cast; rfl
    have hd := decode_normal (neg := neg) hF hn
    obtain ⟨h0, hn⟩ := hn
    refine .inr (.inl ⟨neg, 2 ^ f.fbits + F, E - f.bias, hd, Nat.le_add_right _ _, by rw [Nat.pow_succ]; omega,
      by unfold emin; omega, ?_, ?_, by simp [h0.ne']⟩)
    · unfold emax
      obtain h | ⟨h, hk | ⟨hk, -⟩⟩ := hn
      · cases f.kind <;> dsimp only <;> omega
      · simp only [hk]; omega
      · simp only [hk]; omega
    · unfold emax maxSig
      rw [Nat.pow_succ]
      intro hT
      obtain h | ⟨h, hk | ⟨hk, hne⟩⟩ := hn
      · cases hk : f.kind <;> simp only [hk] at hT ⊢ <;> omega
      · simp only [hk]; omega
      · simp only [hk]; omega
  · obtain rfl | h0 := eq_or_ne F 0
    · exact .inr (.inr (.inl ⟨neg, decode_infinity hf hk⟩))
    · exact .inr (.inr (.inr ⟨neg, F, _, decode_nan hf hk hF h0⟩))
  · exact .inr (.inr (.inr ⟨neg, 0, false, decode_nanOnly hf hk hF1⟩))

theorem FloatFmt.value_smallest_normal (hf : f.Regular) : (f.decode (2 ^ f.fbits)).value = 2 ^ (1 - f.bias) := by
  have h4 : 2 ^ 2 ≤ 2 ^ f.ebits := Nat.pow_le_pow_right (by decide) hf.ebits
  have hc : 2 ^ f.fbits = f.code false 1 0 := by simp [code, signBit]
  rw [hc, decode_normal (Nat.two_pow_pos _) ⟨one_pos, .inl (by omega)⟩, FVal.value_normal]
  simp

theorem FloatFmt.value_smallest_denormal (hf : f.Regular) : (f.decode 1).value = 2 ^ (1 - f.bias - f.fbits) := by
  have hc : 1 = f.code false 0 1 := by simp [code, signBit]
  rw [hc, decode_denormal (Nat.one_lt_two_pow (by have := hf.fbits; omega)), FVal.value_num]
  simp [emin]

end

/-- The formats of R47, R49 and R50 by their types: their widths of exponent and fraction, their bias and what their top exponent holds. -/
theorem tyFmt_table {t : Ty} {f : FloatFmt} (h : tyFmt t = some f) :
    (t, f.ebits, f.fbits, f.bias) ∈ [(Ty.f32, 8, 23, (127 : Int)), (.f16, 5, 10, 15), (.bf16, 8, 7, 127), (.e4m3, 4, 3, 7), (.e5m2, 5, 2, 15),
      (.m6a, 2, 3, 1), (.m6b, 3, 2, 3), (.m4, 2, 1, 1)] ∧
    (f.kind = .finite ↔ t ∈ [Ty.m6a, .m6b, .m4]) ∧ (f.kind = .nanOnly ↔ t = .e4m3) := by
  cases t <;> cases h <;> decide

/-- The eight non-negative `.m4` values of R50. -/
theorem m4_values : (List.range 8).map (fun x => ((tyFloat .m4).decode x).value) = [0, 1 / 2, 1, 3 / 2, 2, 3, 4, 6] := by
  decide +kernel

theorem tops_of_tables :
    ((tyFloat .e4m3).top, (tyFloat .e5m2).top, (tyFloat .m6a).top, (tyFloat .m6b).top, (tyFloat .m4).top) =
      (448, 57344, 15 / 2, 28, 6) := by
  decide +kernel

end Sys2Proof.Machine

open Sys2Proof.Machine

/-- Settles O12: the rounding by the exponent of its leading bit, the codes by their fields. -/
theorem roundingIsTheRule : Obligations.RoundingIsTheRule := by
  unfold Obligations.RoundingIsTheRule
  refine ⟨fun t f a neg n d e ht hd => ⟨fun hn => ?_, ?_⟩, fun t f x ht hx => ?_, by decide, by decide, tops_of_tables, fun t f ht => ?_,
    m4_values⟩
  · exact FloatFmt.rounds_round (tyFmt_regular ht) hn hd e
  · rintro rfl
    exact ⟨FloatFmt.stands_zero (tyFmt_regular ht) neg, rfl⟩
  · exact FloatFmt.decode_table (tyFmt_regular ht) hx
  · obtain ⟨htab, hfin, hnan⟩ := tyFmt_table ht
    exact ⟨htab, rfl, hfin, hnan, FloatFmt.value_smallest_normal (tyFmt_regular ht), FloatFmt.value_smallest_denormal (tyFmt_regular ht),
      fun x hk => finite_decode_isNum hk x⟩
end

section
/-! NaN operands of the floating operations (R48, R62, R66): the operand that selects the NaN, and its quieted code. -/

open Sys2Proof
namespace Sys2Proof.Machine

/-- The types of the lane floating operations have formats with infinities and NaNs. -/
theorem tyFloat_ieee {t : Ty} (h : t ∈ [Ty.f32, Ty.f16, Ty.bf16]) : (tyFloat t).kind = .ieee := by
  simp only [List.mem_cons, List.not_mem_nil, or_false] at h
  obtain rfl | rfl | rfl := h <;> rfl

section
variable {f : FloatFmt}

/-! ### Operands under fin (R61) -/

theorem FloatFmt.operand_of_flushed {a : Arith} {x : Nat} (h : a.fin = true ∧ f.isDenormal x = true) :
    f.operand a x = .num (f.decode x).neg 0 0 := by
  rw [operand, h.1, h.2, decode_neg]
  rfl

theorem FloatFmt.operand_of_not_flushed {a : Arith} {x : Nat} (h : ¬ (a.fin = true ∧ f.isDenormal x = true)) :
    f.operand a x = f.decode x := by
  rw [operand, if_neg (by rwa [Bool.and_eq_true])]

theorem FloatFmt.decode_of_isDenormal {x : Nat} (h : f.isDenormal x = true) : ∃ neg m e, f.decode x = .num neg m e := by
  have h0 : x / 2 ^ f.fbits % 2 ^ f.ebits = 0 := by
    rw [isDenormal, Bool.and_eq_true, beq_iff_eq] at h
    exact h.1
  exact ⟨_, _, _, by rw [decode_eq_ofFields, ofFields, if_pos h0]⟩

/-- An operand that fin flushes is no NaN before or after. -/
theorem FloatFmt.operand_isNaN (f : FloatFmt) (a : Arith) (x : Nat) : (f.operand a x).isNaN = (f.decode x).isNaN := by
  by_cases h : a.fin = true ∧ f.isDenormal x = true
  · obtain ⟨neg, m, e, hd⟩ := decode_of_isDenormal h.2
    rw [operand_of_flushed h, hd]
    rfl
  · rw [operand_of_not_flushed h]

theorem FloatFmt.operand_of_isNaN {a : Arith} {x : Nat} (h : (f.decode x).isNaN = true) : f.operand a x = f.decode x := by
  refine operand_of_not_flushed fun hx => ?_
  obtain ⟨neg, m, e, hd⟩ := decode_of_isDenormal hx.2
  rw [hd] at h
  exact Bool.noConfusion h

theorem FVal.isSNaN_of_not_isNaN {v : FVal} (h : v.isNaN = false) : v.isSNaN = false := by
  cases v with
  | nan => exact Bool.noConfusion h
  | inf => rfl
  | num => rfl

theorem FloatFmt.operand_isSNaN (f : FloatFmt) (a : Arith) (x : Nat) : (f.operand a x).isSNaN = (f.decode x).isSNaN := by
  cases h : (f.decode x).isNaN with
  | true => rw [operand_of_isNaN h]
  | false => rw [FVal.isSNaN_of_not_isNaN h, FVal.isSNaN_of_not_isNaN (by rw [operand_isNaN, h])]

/-! ### The NaN that is selected (R62) -/

/-- The quiet bit set in a code whose fraction is given. -/
theorem FloatFmt.code_or_quiet (hf : f.Regular) {neg : Bool} {E F : Nat} (hF : F < 2 ^ f.fbits) :
    f.code neg E F ||| 2 ^ (f.fbits - 1) = f.code neg E (2 ^ (f.fbits - 1) + F % 2 ^ (f.fbits - 1)) := by
  have hfb : f.fbits = f.fbits - 1 + 1 := (Nat.sub_add_cancel hf.fbits).symm
  have h2 : 2 ^ f.fbits = 2 ^ (f.fbits - 1) * 2 := by rw [← pow_succ, ← hfb]
  have hq := Nat.two_pow_pos (f.fbits - 1)
  have hlow := Nat.mod_lt F hq
  have hbit : 2 ^ (f.fbits - 1) + F % 2 ^ (f.fbits - 1) = F ||| 2 ^ (f.fbits - 1) := by
    have hsplit (j : Nat) : 2 ^ (f.fbits - 1) * j + F % 2 ^ (f.fbits - 1) = 2 ^ (f.fbits - 1) * j ||| F % 2 ^ (f.fbits - 1) :=
      Nat.two_pow_add_eq_or_of_lt hlow j
    have hdiv : F / 2 ^ (f.fbits - 1) < 2 := Nat.div_lt_of_lt_mul (by omega)
    have hone := hsplit 1
    rw [mul_one] at hone
    rw [hone]
    conv_rhs => rw [← Nat.div_add_mod F (2 ^ (f.fbits - 1)), hsplit]
    obtain h | h := Nat.le_one_iff_eq_zero_or_eq_one.1 (Nat.lt_succ_iff.1 hdiv)
    · rw [h, mul_zero, Nat.zero_or, Nat.or_comm]
    · rw [h, mul_one, Nat.or_assoc, Nat.or_comm (F % _), ← Nat.or_assoc, Nat.or_self]
  rw [hbit, code_eq, code_eq, Nat.mul_comm, Nat.two_pow_add_eq_or_of_lt hF,
    Nat.two_pow_add_eq_or_of_lt (Nat.or_lt_two_pow hF (by omega)), Nat.or_assoc]

/-- A NaN operand kept as R62 has it is its own code, quieted. -/
theorem FloatFmt.nanCode_decode (hf : f.Regular) (hk : f.kind = .ieee) {c : Nat} (hc : c < 2 ^ f.width) (h : (f.decode c).isNaN = true)
    (keep : Bool) : f.nanCode keep (f.decode c) = if keep then c ||| 2 ^ (f.fbits - 1) else f.canonicalNaN := by
  obtain ⟨neg, E, F, hE, hF, rfl⟩ := exists_code hc
  obtain rfl | hn | ⟨rfl, -⟩ | ⟨-, hk', -⟩ := fields_cases (F := F) hE
  · rw [decode_denormal hF] at h
    exact Bool.noConfusion h
  · rw [decode_normal hF hn] at h
    exact Bool.noConfusion h
  · obtain rfl | h0 := eq_or_ne F 0
    · rw [decode_infinity hf hk] at h
      exact Bool.noConfusion h
    · rw [decode_nan hf hk hF h0]
      cases keep with
      | false => rfl
      | true =>
        rw [if_pos rfl, code_or_quiet hf hF]
        simp [nanCode, hk, code]
  · rw [hk] at hk'
    exact absurd hk' (by decide)

theorem firstNaN_map_operand (a : Arith) (cs : List Nat) :
    firstNaN (cs.map (f.operand a)) = (cs.find? fun c => (f.decode c).isNaN).map f.decode := by
  induction cs with
  | nil => rfl
  | cons c cs ih =>
    rw [List.map_cons, firstNaN, f.operand_isNaN, List.find?_cons]
    cases h : (f.decode c).isNaN with
    | true => rw [if_pos rfl, FloatFmt.operand_of_isNaN h]; rfl
    | false => exact ih

/-- The code of the NaN that R62 selects among some operands. -/
theorem FloatFmt.nanCode_firstNaN (hf : f.Regular) (hk : f.kind = .ieee) (a : Arith) (keep : Bool) {cs : List Nat}
    (hcs : ∀ c ∈ cs, c < 2 ^ f.width) :
    f.nanCode keep ((firstNaN (cs.map (f.operand a))).getD (.inf false)) = f.picked keep cs := by
  rw [firstNaN_map_operand, picked]
  cases h : cs.find? fun c => (f.decode c).isNaN with
  | none => rfl
  | some c =>
    have hnan : (f.decode c).isNaN = true := List.find?_some (p := fun c => (f.decode c).isNaN) h
    exact nanCode_decode hf hk (hcs c (List.mem_of_find?_eq_some h)) hnan keep

end
end Sys2Proof.Machine
end

section
/-! Sums, products and fused sums (R62, R66, R97): the exact sum of two numbers, and the results with and without a NaN operand. -/

open Sys2Proof
namespace Sys2Proof.Machine

/-! ### Magnitudes at a common exponent -/

theorem shift_value (m : Nat) {e g : ℤ} (h : g ≤ e) : ((m * 2 ^ (e - g).toNat : ℕ) : ℚ) * 2 ^ g = m * 2 ^ e := by
  rw [zpow_two_split h]
  push_cast
  ring

/-- The exact sum of two numbers, and the sign of a zero sum (R66). -/
theorem addExact_spec (mode : RMode) (n1 : Bool) (m1 : Nat) (e1 : ℤ) (n2 : Bool) (m2 : Nat) (e2 : ℤ) :
    let r := addExact mode n1 m1 e1 n2 m2 e2
    (FVal.num r.1 r.2.1 r.2.2).value = (FVal.num n1 m1 e1).value + (FVal.num n2 m2 e2).value ∧
      ((FVal.num r.1 r.2.1 r.2.2).value = 0 → r.1 = if n1 = n2 then n1 else decide (mode = .rdn)) := by
  set g := min e1 e2 with hg
  set b1 := m1 * 2 ^ (e1 - g).toNat with hb1
  set b2 := m2 * 2 ^ (e2 - g).toNat with hb2
  have h1 : ((b1 : ℕ) : ℚ) * 2 ^ g = m1 * 2 ^ e1 := shift_value m1 (min_le_left _ _)
  have h2 : ((b2 : ℕ) : ℚ) * 2 ^ g = m2 * 2 ^ e2 := shift_value m2 (min_le_right _ _)
  have hdef : addExact mode n1 m1 e1 n2 m2 e2 =
      if n1 = n2 then (n1, b1 + b2, g) else if b1 = b2 then (decide (mode = .rdn), 0, g)
      else if b2 < b1 then (n1, b1 - b2, g) else (n2, b2 - b1, g) := rfl
  rw [hdef]
  simp only [FVal.value_num, mul_assoc, ← h1, ← h2]
  by_cases hn : n1 = n2
  · subst hn
    rw [if_pos rfl, if_pos rfl]
    exact ⟨by push_cast; ring, fun _ => rfl⟩
  have hs : (if n2 = true then (-1 : ℚ) else 1) = -(if n1 = true then -1 else 1) := by cases n1 <;> cases n2 <;> simp_all
  rw [if_neg hn, if_neg hn, hs]
  obtain hlt | heq | hgt := lt_trichotomy b1 b2
  · rw [if_neg hlt.ne, if_neg hlt.not_gt]
    refine ⟨by rw [hs, Nat.cast_sub hlt.le]; ring, fun h0 => ?_⟩
    have : (FVal.num n2 (b2 - b1) g).value = 0 := by rw [FVal.value_num, mul_assoc]; exact h0
    have := FVal.value_num_eq_zero.1 this
    omega
  · rw [if_pos heq, heq]
    exact ⟨by push_cast; ring, fun _ => rfl⟩
  · rw [if_neg hgt.ne', if_pos hgt]
    refine ⟨by rw [Nat.cast_sub hgt.le]; ring, fun h0 => ?_⟩
    have : (FVal.num n1 (b1 - b2) g).value = 0 := by rw [FVal.value_num, mul_assoc]; exact h0
    have := FVal.value_num_eq_zero.1 this
    omega

section
variable {f : FloatFmt} {a : Arith}

theorem FloatFmt.gives_sum (hf : f.Regular) (n1 : Bool) (m1 : Nat) (e1 : ℤ) (n2 : Bool) (m2 : Nat) (e2 : ℤ) :
    let s := addExact a.mode n1 m1 e1 n2 m2 e2
    f.Gives a ((FVal.num n1 m1 e1).value + (FVal.num n2 m2 e2).value) (if n1 = n2 then n1 else decide (a.mode = .rdn))
      (f.round a s.1 s.2.1 1 s.2.2) := by
  obtain ⟨hv, hz⟩ := addExact_spec a.mode n1 m1 e1 n2 m2 e2
  exact hv ▸ (gives_round_num hf _ _).zero_sign hz

/-- The sum of two operands that are no NaN. -/
theorem FloatFmt.sumIs_addV (hf : f.Regular) (hk : f.kind = .ieee) {x y : FVal} (hx : x.isNaN = false) (hy : y.isNaN = false) :
    f.SumIs a x y (f.addV a x y) := by
  have hinf (n : Bool) : f.Infinite (f.infinity n) n ∧ (0 : FlagSet) = 0 := ⟨infinite_infinity hf hk n, rfl⟩
  cases x with
  | nan => exact Bool.noConfusion hx
  | inf m =>
    cases y with
    | nan => exact Bool.noConfusion hy
    | num => exact hinf m
    | inf n =>
      simp only [SumIs, addV]
      split
      · exact hinf m
      · rfl
  | num n1 m1 e1 =>
    cases y with
    | nan => exact Bool.noConfusion hy
    | inf n => exact hinf n
    | num n2 m2 e2 => exact gives_sum hf n1 m1 e1 n2 m2 e2

theorem FVal.sign_mul (n1 n2 : Bool) :
    (if (n1 != n2) = true then (-1 : ℚ) else 1) = (if n1 = true then -1 else 1) * (if n2 = true then -1 else 1) := by
  cases n1 <;> cases n2 <;> norm_num

theorem FVal.value_mul (n1 : Bool) (m1 : Nat) (e1 : ℤ) (n2 : Bool) (m2 : Nat) (e2 : ℤ) :
    (FVal.num (n1 != n2) (m1 * m2) (e1 + e2)).value = (FVal.num n1 m1 e1).value * (FVal.num n2 m2 e2).value := by
  rw [value_num, value_num, value_num, sign_mul, zpow_two_add]
  push_cast
  ring

/-- The product of two operands that are no NaN. -/
theorem FloatFmt.productIs_mulV (hf : f.Regular) (hk : f.kind = .ieee) {x y : FVal} (hx : x.isNaN = false) (hy : y.isNaN = false) :
    f.ProductIs a x y (f.mulV a x y) := by
  have hinf (n : Bool) : f.Infinite (f.infinity n) n ∧ (0 : FlagSet) = 0 := ⟨infinite_infinity hf hk n, rfl⟩
  have hzero (n1 n2 : Bool) (m : Nat) (hv : firstNaN [x, y] = none) :
      if (m == 0) = true then (if m = 0 then f.invalidResult a [x, y] else (f.infinity (n1 != n2), 0)) = (f.canonicalNaN, flagInvalid)
      else f.Infinite (if m = 0 then f.invalidResult a [x, y] else (f.infinity (n1 != n2), 0)).1 (n1 != n2) ∧
        (if m = 0 then f.invalidResult a [x, y] else (f.infinity (n1 != n2), 0)).2 = 0 := by
    by_cases hm : m = 0
    · rw [if_pos (beq_iff_eq.2 hm), if_pos hm, invalidResult, hv]
    · rw [if_neg (mt beq_iff_eq.1 hm), if_neg hm]
      exact hinf _
  cases x with
  | nan => exact Bool.noConfusion hx
  | inf m =>
    cases y with
    | nan => exact Bool.noConfusion hy
    | inf n => exact hinf _
    | num n2 m2 e2 => exact hzero m n2 m2 rfl
  | num n1 m1 e1 =>
    cases y with
    | nan => exact Bool.noConfusion hy
    | inf n => exact hzero n1 n m1 rfl
    | num n2 m2 e2 =>
      change f.Gives a ((FVal.num n1 m1 e1).value * (FVal.num n2 m2 e2).value) (n1 != n2) (f.round a (n1 != n2) (m1 * m2) 1 (e1 + e2))
      rw [← FVal.value_mul]
      exact gives_round_num hf _ _

/-! ### The fused sum -/

theorem badProduct_iff (x y : FVal) : badProduct x y = true ↔ mulExact x y = none := by
  cases x <;> cases y <;> simp [badProduct, mulExact]

/-- The product of two operands that are no NaN and no invalid product, unrounded: that of two numbers, or an infinity. -/
theorem mulExact_of_not_isNaN {x y : FVal} (hx : x.isNaN = false) (hy : y.isNaN = false) (hb : badProduct x y = false) :
    ((x.isNum && y.isNum) = true ∧ ∃ m e, mulExact x y = some (.num (x.neg != y.neg) m e) ∧
      (FVal.num (x.neg != y.neg) m e).value = x.value * y.value) ∨
    ((x.isNum && y.isNum) = false ∧ mulExact x y = some (.inf (x.neg != y.neg))) := by
  cases x with
  | nan => exact Bool.noConfusion hx
  | inf n1 =>
    cases y with
    | nan => exact Bool.noConfusion hy
    | inf n2 => exact .inr ⟨rfl, rfl⟩
    | num n2 m2 e2 => exact .inr ⟨rfl, if_neg (beq_eq_false_iff_ne.1 hb)⟩
  | num n1 m1 e1 =>
    cases y with
    | nan => exact Bool.noConfusion hy
    | inf n2 => exact .inr ⟨rfl, if_neg (beq_eq_false_iff_ne.1 hb)⟩
    | num n2 m2 e2 => exact .inl ⟨rfl, _, _, rfl, FVal.value_mul n1 m1 e1 n2 m2 e2⟩

/-- The fused sum of three operands that are no NaN. -/
theorem FloatFmt.fusedIs_fmaV (hf : f.Regular) (hk : f.kind = .ieee) {x y z : FVal} (hx : x.isNaN = false) (hy : y.isNaN = false)
    (hz : z.isNaN = false) : f.FusedIs a x y z (f.fmaV a x y z) := by
  have hinf (n : Bool) : f.Infinite (f.infinity n) n ∧ (0 : FlagSet) = 0 := ⟨infinite_infinity hf hk n, rfl⟩
  have hnan : ¬ (x.isNaN || y.isNaN || z.isNaN) = true := by simp [hx, hy, hz]
  unfold FusedIs fmaV
  extract_lets neg
  by_cases hb : badProduct x y = true
  · have hfirst : firstNaN [x, y, z] = none := by simp [firstNaN, hx, hy, hz]
    rw [if_pos hb, (badProduct_iff x y).1 hb]
    simp only [invalidResult, hfirst]
  rw [if_neg hb]
  obtain ⟨hnum, m, e, hp, hv⟩ | ⟨hnum, hp⟩ := mulExact_of_not_isNaN hx hy (Bool.eq_false_iff.2 hb)
  · rw [if_pos hnum, hp]
    simp only [if_neg hnan]
    cases z with
    | nan => exact Bool.noConfusion hz
    | inf n => exact hinf n
    | num n3 m3 e3 =>
      rw [← hv]
      exact gives_sum hf _ m e n3 m3 e3
  · rw [if_neg (by rw [hnum]; decide), hp]
    simp only [if_neg hnan]
    cases z with
    | nan => exact Bool.noConfusion hz
    | num => exact hinf _
    | inf n =>
      simp only [SumIs]
      split
      · exact hinf _
      · rfl

/-! ### With a NaN operand -/

theorem FVal.eq_nan_of_isNaN {v : FVal} (h : v.isNaN = true) : ∃ neg fr fb sn, v = .nan neg fr fb sn := by
  cases v with
  | nan neg fr fb sn => exact ⟨neg, fr, fb, sn, rfl⟩
  | inf => exact Bool.noConfusion h
  | num => exact Bool.noConfusion h

theorem FloatFmt.addV_of_isNaN {x y : FVal} (h : (x.isNaN || y.isNaN) = true) : f.addV a x y = f.nanResult a [x, y] := by
  obtain h | h := Bool.or_eq_true_iff.1 h
  · obtain ⟨_, _, _, _, rfl⟩ := FVal.eq_nan_of_isNaN h
    cases y <;> rfl
  · obtain ⟨_, _, _, _, rfl⟩ := FVal.eq_nan_of_isNaN h
    cases x <;> rfl

theorem FloatFmt.mulV_of_isNaN {x y : FVal} (h : (x.isNaN || y.isNaN) = true) : f.mulV a x y = f.nanResult a [x, y] := by
  obtain h | h := Bool.or_eq_true_iff.1 h
  · obtain ⟨_, _, _, _, rfl⟩ := FVal.eq_nan_of_isNaN h
    cases y <;> rfl
  · obtain ⟨_, _, _, _, rfl⟩ := FVal.eq_nan_of_isNaN h
    cases x <;> rfl

theorem FVal.isNaN_negate (v : FVal) : v.negate.isNaN = v.isNaN := by cases v <;> rfl

theorem FVal.isSNaN_negate (v : FVal) : v.negate.isSNaN = v.isSNaN := by cases v <;> rfl

/-- A NaN operand of a difference keeps its sign. -/
theorem FloatFmt.nanResult_negate (x y : FVal) : f.nanResult a [x, y.negate] = f.nanResult a [x, y] := by
  have hfirst : firstNaN [x, y.negate] = firstNaN [x, y] := by
    cases y <;> rfl
  rw [nanResult, nanResult, hfirst]
  simp only [List.any_cons, FVal.isSNaN_negate]

theorem FloatFmt.fmaV_of_isNaN {x y z : FVal} (h : (x.isNaN || y.isNaN || z.isNaN) = true) :
    f.fmaV a x y z = (f.nanCode a.nan ((firstNaN [x, y, z]).getD (.inf false)),
      flagIf (badProduct x y || [x, y, z].any FVal.isSNaN) flagInvalid) := by
  unfold fmaV
  by_cases hb : badProduct x y = true
  · have hsome : ∃ v, firstNaN [x, y, z] = some v := by
      simp only [firstNaN]
      split_ifs with h1 h2 h3
      · exact ⟨_, rfl⟩
      · exact ⟨_, rfl⟩
      · exact ⟨_, rfl⟩
      · simp [h1, h2, h3] at h
    obtain ⟨v, hv⟩ := hsome
    rw [(badProduct_iff x y).1 hb, hb, Bool.true_or]
    simp only [invalidResult, hv]
    rfl
  · obtain ⟨p, hp⟩ := Option.ne_none_iff_exists'.1 (mt (badProduct_iff x y).2 hb)
    rw [hp, Bool.eq_false_iff.2 hb, Bool.false_or]
    simp only [if_pos h]
    rfl

end
end Sys2Proof.Machine
end

section
/-! The orders of values (R67, R99), minima and maxima, classes, and the bits of `fabs` and `fneg` (R98). -/

open Sys2Proof
namespace Sys2Proof.Machine

/-! ### Order -/

theorem cmpMag_eq (m1 : Nat) (e1 : ℤ) (m2 : Nat) (e2 : ℤ) : cmpMag m1 e1 m2 e2 = compare ((m1 : ℚ) * 2 ^ e1) (m2 * 2 ^ e2) := by
  rw [← shift_value m1 (min_le_left e1 e2), ← shift_value m2 (min_le_right e1 e2)]
  have hpos := zpow_two_pos (min e1 e2)
  rw [show cmpMag m1 e1 m2 e2 = compare (m1 * 2 ^ (e1 - min e1 e2).toNat) (m2 * 2 ^ (e2 - min e1 e2).toNat) from rfl]
  obtain h | h | h := lt_trichotomy (m1 * 2 ^ (e1 - min e1 e2).toNat) (m2 * 2 ^ (e2 - min e1 e2).toNat)
  · rw [compare_lt_iff_lt.2 h, eq_comm, compare_lt_iff_lt, mul_lt_mul_iff_left₀ hpos, Nat.cast_lt]
    exact h
  · rw [compare_eq_iff_eq.2 h, h, compare_eq_iff_eq.2 rfl]
  · rw [compare_gt_iff_gt.2 h, eq_comm, compare_gt_iff_gt, mul_lt_mul_iff_left₀ hpos, Nat.cast_lt]
    exact h

/-- Numbers compare by their values. -/
theorem FVal.cmp_num (n1 : Bool) (m1 : Nat) (e1 : ℤ) (n2 : Bool) (m2 : Nat) (e2 : ℤ) :
    (FVal.num n1 m1 e1).cmp (.num n2 m2 e2) = compare (FVal.num n1 m1 e1).value (FVal.num n2 m2 e2).value := by
  have hpos1 (h : m1 ≠ 0) : (0 : ℚ) < m1 * 2 ^ e1 := by have := Nat.pos_of_ne_zero h; positivity
  have hpos2 (h : m2 ≠ 0) : (0 : ℚ) < m2 * 2 ^ e2 := by have := Nat.pos_of_ne_zero h; positivity
  have hlt {u v : ℚ} (h : u < v) : Ordering.lt = compare u v := (compare_lt_iff_lt.2 h).symm
  have hgt {u v : ℚ} (h : v < u) : Ordering.gt = compare u v := (compare_gt_iff_gt.2 h).symm
  simp only [cmp, Bool.and_eq_true, decide_eq_true_eq, value_num, mul_assoc, cmpMag_eq]
  by_cases h1 : m1 = 0
  · subst h1
    by_cases h2 : m2 = 0
    · simp [h2]
    · have hp := hpos2 h2
      cases n2 <;> simp only [h2, Nat.cast_zero, zero_mul, mul_zero, and_false, if_true, if_false, Bool.false_eq_true, one_mul, neg_one_mul]
      · exact hlt hp
      · exact hgt (neg_neg_of_pos hp)
  · by_cases h2 : m2 = 0
    · subst h2
      have hp := hpos1 h1
      cases n1 <;> simp only [h1, Nat.cast_zero, zero_mul, mul_zero, false_and, if_true, if_false, Bool.false_eq_true, one_mul, neg_one_mul]
      · exact hgt hp
      · exact hlt (neg_neg_of_pos hp)
    · have hp := hpos1 h1
      have hq := hpos2 h2
      simp only [h1, h2, and_self, if_false]
      generalize (m1 : ℚ) * 2 ^ e1 = x at *
      generalize (m2 : ℚ) * 2 ^ e2 = y at *
      cases n1 <;> cases n2 <;> simp only [bne_self_eq_false, if_true, if_false, Bool.false_eq_true, one_mul, neg_one_mul]
      · exact hgt (by linarith)
      · exact hlt (by linarith)
      · obtain h | h | h := lt_trichotomy x y
        · rw [← hlt h, ← hgt (neg_lt_neg h)]
          rfl
        · rw [h, compare_eq_iff_eq.2 rfl, compare_eq_iff_eq.2 rfl]
          rfl
        · rw [← hgt h, ← hlt (neg_lt_neg h)]
          rfl

/-- The comparison of two values that are no NaN, by the order of R99. -/
theorem FVal.cmp_eq {x y : FVal} (hx : x.isNaN = false) (hy : y.isNaN = false) :
    x.cmp y = if x.less y then .lt else if y.less x then .gt else .eq := by
  cases x with
  | nan => exact Bool.noConfusion hx
  | inf a =>
    cases y with
    | nan => exact Bool.noConfusion hy
    | inf b => cases a <;> cases b <;> rfl
    | num => cases a <;> rfl
  | num n1 m1 e1 =>
    cases y with
    | nan => exact Bool.noConfusion hy
    | inf b => cases b <;> rfl
    | num n2 m2 e2 =>
      rw [cmp_num]
      simp only [less, decide_eq_true_eq]
      split_ifs with h1 h2
      · exact compare_lt_iff_lt.2 h1
      · exact compare_gt_iff_gt.2 h2
      · exact compare_eq_iff_eq.2 (le_antisymm (not_lt.1 h2) (not_lt.1 h1))

/-- The order of R67 puts the second of two values that are no NaN below the first. -/
theorem FVal.order_gt_iff {x y : FVal} (hx : x.isNaN = false) (hy : y.isNaN = false) : x.order y = .gt ↔ y.below x = true := by
  cases x with
  | nan => exact Bool.noConfusion hx
  | inf a =>
    cases y with
    | nan => exact Bool.noConfusion hy
    | inf b => cases a <;> cases b <;> decide
    | num n m e => cases a <;> simp [order, cmp, below]
  | num n1 m1 e1 =>
    cases y with
    | nan => exact Bool.noConfusion hy
    | inf b => cases b <;> simp [order, cmp, below]
    | num n2 m2 e2 =>
      rw [order, cmp_num]
      simp only [below, Bool.or_eq_true, Bool.and_eq_true, decide_eq_true_eq, Bool.not_eq_true']
      generalize (FVal.num n1 m1 e1).value = v1
      generalize (FVal.num n2 m2 e2).value = v2
      obtain h | h | h := lt_trichotomy v1 v2
      · rw [compare_lt_iff_lt.2 h]
        simp [h.not_gt, h.ne']
      · rw [compare_eq_iff_eq.2 h, h]
        cases n1 <;> cases n2 <;> simp [neg]
      · rw [compare_gt_iff_gt.2 h]
        simp [h]

theorem FVal.less_num (n1 : Bool) (m1 : Nat) (e1 : ℤ) (n2 : Bool) (m2 : Nat) (e2 : ℤ) :
    (FVal.num n1 m1 e1).less (.num n2 m2 e2) = decide ((FVal.num n1 m1 e1).value < (FVal.num n2 m2 e2).value) := rfl

theorem FVal.less_asymm {x y : FVal} (hx : x.isNaN = false) (hy : y.isNaN = false) (h : x.less y = true) : y.less x = false := by
  cases x with
  | nan => exact Bool.noConfusion hx
  | inf a =>
    cases y with
    | nan => exact Bool.noConfusion hy
    | inf b => cases a <;> cases b <;> simp_all [less]
    | num => simpa [less] using h
  | num n1 m1 e1 =>
    cases y with
    | nan => exact Bool.noConfusion hy
    | inf b => simpa [less] using h
    | num n2 m2 e2 =>
      rw [less_num, decide_eq_true_eq] at h
      rw [less_num, decide_eq_false h.not_gt]

/-! ### Minima, maxima and comparisons -/

/-- The code that a minimum or maximum takes of the operand it chooses: its own, or the zero that fin makes of a denormal (R61, R98). -/
def FloatFmt.chosenCode (f : FloatFmt) (a : Arith) (c : Nat) : Nat :=
  if a.fin && f.isDenormal c then f.signBit (f.decode c).neg else c

section
variable {f : FloatFmt} {a : Arith}

theorem FloatFmt.chosenCode_of_not_flushed {c : Nat} (h : ¬ (a.fin = true ∧ f.isDenormal c = true)) : (f.chosenCode a c, (0 : FlagSet)) = (c, 0) := by
  rw [chosenCode, if_neg (by rwa [Bool.and_eq_true])]

theorem FloatFmt.chosenCode_of_flushed {c : Nat} (h : a.fin = true ∧ f.isDenormal c = true) :
    (f.chosenCode a c, (0 : FlagSet)) = (f.signBit (f.decode c).neg, 0) := by
  rw [chosenCode, if_pos (by rwa [Bool.and_eq_true])]

theorem FloatFmt.minMax_of_isNaN {x y : Nat} (h : ((f.operand a x).isNaN || (f.operand a y).isNaN) = true) (wantMax : Bool) :
    f.minMax a wantMax x y =
      (f.canonicalNaN, flagIf ((f.operand a x).isSNaN || (f.operand a y).isSNaN) flagInvalid) := by
  rw [minMax, if_pos h]

theorem FloatFmt.minMax_of_not_isNaN {x y : Nat} (hx : (f.operand a x).isNaN = false) (hy : (f.operand a y).isNaN = false)
    (wantMax : Bool) : f.minMax a wantMax x y =
      (f.chosenCode a (if (f.operand a y).below (f.operand a x) = wantMax then x else y), 0) := by
  have hgt := FVal.order_gt_iff hx hy
  unfold minMax
  rw [if_neg (by simp [hx, hy])]
  cases hb : (f.operand a y).below (f.operand a x) with
  | true =>
    rw [hgt.2 hb]
    cases wantMax <;> rfl
  | false =>
    have hne : (f.operand a x).order (f.operand a y) ≠ .gt := fun h => by simp [hgt.1 h] at hb
    cases ho : (f.operand a x).order (f.operand a y) with
    | gt => exact absurd ho hne
    | lt => cases wantMax <;> rfl
    | eq => cases wantMax <;> rfl

/-- The truth of a condition by the order of R99, and invalid as its column says. -/
theorem resFcmp_eq (t : Ty) (s : Arith) (cond : FCond) (a b : Nat) :
    let x := rdFloat t s a
    let y := rdFloat t s b
    let unordered := x.isNaN || y.isNaN
    let signals := x.isSNaN || y.isSNaN
    resFcmp t s cond a b =
      (match cond with
        | .eq => !unordered && !x.less y && !y.less x
        | .ne => unordered || x.less y || y.less x
        | .lt => !unordered && x.less y
        | .le => !unordered && !y.less x
        | .gt => !unordered && y.less x
        | .ge => !unordered && !x.less y
        | .un => unordered
        | .ord => !unordered,
       flagIf (match cond with | .lt | .le | .gt | .ge => unordered | _ => signals) flagInvalid) := by
  extract_lets x y unordered signals
  change (match cond with
    | .eq => (!unordered && x.cmp y == Ordering.eq, flagIf signals flagInvalid)
    | .ne => (unordered || x.cmp y != Ordering.eq, flagIf signals flagInvalid)
    | .lt => (!unordered && x.cmp y == Ordering.lt, flagIf unordered flagInvalid)
    | .le => (!unordered && x.cmp y != Ordering.gt, flagIf unordered flagInvalid)
    | .gt => (!unordered && x.cmp y == Ordering.gt, flagIf unordered flagInvalid)
    | .ge => (!unordered && x.cmp y != Ordering.lt, flagIf unordered flagInvalid)
    | .un => (unordered, flagIf signals flagInvalid)
    | .ord => (!unordered, flagIf signals flagInvalid)) = _
  cases hun : unordered using Bool.casesOn with
  | true => cases cond <;> rfl
  | false =>
    obtain ⟨hx, hy⟩ := Bool.or_eq_false_iff.1 hun
    have hasymm := FVal.less_asymm hx hy
    rw [FVal.cmp_eq hx hy]
    generalize x.less y = p at *
    generalize y.less x = q at *
    cases p with
    | true =>
      rw [hasymm rfl]
      cases cond <;> rfl
    | false => cases q <;> cases cond <;> rfl

/-! ### Classes (R98) -/

/-- Bit `k` of `fclass` is that of the class of `v`. -/
def FloatFmt.ClassBit (f : FloatFmt) (v : FVal) (k : Nat) : Prop :=
  k < 10 ∧ (k = 0 ↔ v = .inf true) ∧ (k = 7 ↔ v = .inf false) ∧
    (k = 8 ↔ v.isSNaN = true) ∧ (k = 9 ↔ v.isNaN = true ∧ v.isSNaN = false) ∧
    (k = 3 ↔ v.isNum = true ∧ v.value = 0 ∧ v.neg = true) ∧ (k = 4 ↔ v.isNum = true ∧ v.value = 0 ∧ v.neg = false) ∧
    (k = 2 ↔ v.value < 0 ∧ -2 ^ f.emin < v.value) ∧ (k = 5 ↔ 0 < v.value ∧ v.value < 2 ^ f.emin) ∧
    (k = 1 ↔ v.value ≤ -2 ^ f.emin) ∧ (k = 6 ↔ 2 ^ f.emin ≤ v.value)

/-- The class of a number by its sign and magnitude. -/
theorem FloatFmt.classBit_num (f : FloatFmt) (neg : Bool) (m : Nat) (e : ℤ) : f.ClassBit (.num neg m e)
    (if m = 0 then (if neg then 3 else 4) else if (m : ℚ) * 2 ^ e < 2 ^ f.emin then (if neg then 2 else 5) else if neg then 1 else 6) := by
  have hmin := zpow_two_pos f.emin
  have hv : (FVal.num neg m e).value = (if neg then -1 else 1) * (m * 2 ^ e) := by rw [FVal.value_num, mul_assoc]
  have hpos : m ≠ 0 → (0 : ℚ) < m * 2 ^ e := fun h => by have := Nat.pos_of_ne_zero h; positivity
  unfold ClassBit
  rw [hv]
  simp only [FVal.isSNaN, FVal.isNaN, FVal.isNum, FVal.neg]
  by_cases hm : m = 0
  · rw [if_pos hm, hm]
    cases neg <;> simp [hmin, hmin.not_ge]
  have h0 := hpos hm
  rw [if_neg hm]
  generalize (m : ℚ) * 2 ^ e = x at *
  by_cases hx : x < 2 ^ f.emin
  · rw [if_pos hx]
    cases neg <;> simp [h0, h0.ne', h0.not_gt, hx, hx.not_ge] <;> linarith
  · rw [if_neg hx]
    have hx := not_lt.1 hx
    cases neg <;> simp [h0, h0.ne', h0.not_gt, hx, hx.not_gt] <;> linarith

theorem FloatFmt.classBit_inf (f : FloatFmt) (neg : Bool) : f.ClassBit (.inf neg) (if neg then 0 else 7) := by
  have hmin := zpow_two_pos f.emin
  cases neg <;> simp [ClassBit, FVal.isSNaN, FVal.isNaN, FVal.isNum, FVal.value, hmin, hmin.not_ge]

theorem FloatFmt.classBit_nan (f : FloatFmt) (neg : Bool) (fr fb : Nat) (sn : Bool) :
    f.ClassBit (.nan neg fr fb sn) (if sn then 8 else 9) := by
  have hmin := zpow_two_pos f.emin
  cases sn <;> simp [ClassBit, FVal.isSNaN, FVal.isNaN, FVal.isNum, FVal.value, hmin, hmin.not_ge]

/-- The bit of `fclass` is that of the class of its operand. -/
theorem resFclass_eq (t : Ty) (a : Nat) :
    ∃ k, resFclass t a = 2 ^ k ∧ (tyFloat t).ClassBit ((tyFloat t).decode (a % 2 ^ (tyFloat t).width)) k := by
  have hf := tyFloat_regular t
  refine ⟨_, rfl, ?_⟩
  have hx := Nat.mod_lt a (Nat.two_pow_pos (tyFloat t).width)
  generalize a % 2 ^ (tyFloat t).width = x at *
  generalize tyFloat t = f at *
  obtain ⟨neg, m, hd, hm, hden⟩ | ⟨neg, m, T, hd, hlo, -, hT, -, -, hden⟩ | ⟨neg, hd⟩ | ⟨neg, fr, sn, hd⟩ := FloatFmt.decode_cases hf hx
  · rw [hd, hden]
    have hlt : (m : ℚ) * 2 ^ (f.emin - f.fbits) < 2 ^ f.emin := by
      rw [← two_pow_mul_grid (j := f.fbits) (k := f.emin - f.fbits) f.emin (by ring)]
      gcongr
    have h := f.classBit_num neg m (f.emin - f.fbits)
    rw [if_pos hlt] at h
    by_cases h0 : m = 0
    · simpa [h0] using h
    · simpa [h0] using h
  · rw [hd, hden]
    have hge : (2 : ℚ) ^ f.emin ≤ m * 2 ^ (T - f.fbits) := by
      refine (zpow_le_zpow_right₀ one_le_two hT).trans ?_
      rw [← two_pow_mul_grid (j := f.fbits) (k := T - f.fbits) T (by ring)]
      gcongr
    have h := f.classBit_num neg m (T - f.fbits)
    rw [if_neg hge.not_gt] at h
    simpa using h
  · rw [hd]
    exact f.classBit_inf neg
  · rw [hd]
    exact f.classBit_nan neg fr _ sn

/-! ### Sign bits (R98) -/

theorem testBit_resFabs (t : Ty) (a i : Nat) : (resFabs t a).testBit i = (decide (i + 1 < (tyFloat t).width) && a.testBit i) := by
  rw [resFabs, Nat.testBit_mod_two_pow]
  congr 2
  exact propext (by omega)

theorem testBit_resFneg (t : Ty) (a i : Nat) : (resFneg t a).testBit i =
    (decide (i < (tyFloat t).width) && (a.testBit i != decide (i + 1 = (tyFloat t).width))) := by
  have hw : (tyFloat t).width = (tyFloat t).width - 1 + 1 := by rw [FloatFmt.width_eq]; rfl
  rw [resFneg, Nat.testBit_xor, Nat.testBit_mod_two_pow, Nat.testBit_two_pow]
  by_cases hi : i < (tyFloat t).width
  · rw [decide_eq_true hi, Bool.true_and, Bool.true_and]
    congr 2
    exact propext (by omega)
  · rw [decide_eq_false hi, decide_eq_false (by omega)]
    rfl

end
end Sys2Proof.Machine
end

section
/-! The floating results (R97 to R100): their codes fit the format, packed halves stay apart, and from the lemmas on sums, orders and
classes the settlement of O17. -/

open Sys2Proof
namespace Sys2Proof.Machine

/-! ### Results fit their format -/

section
variable {f : FloatFmt} {a : Arith} {neg z : Bool} {x v : ℚ} {r : Nat × FlagSet}

theorem FloatFmt.Overflowed.lt {c : Nat} (h : f.Overflowed a neg c) : c < 2 ^ f.width := by
  unfold Overflowed at h
  extract_lets away at h
  split at h
  · exact h.1
  · split at h <;> exact h.1
  · split at h <;> exact h.1

theorem FloatFmt.Rounds.lt (h : f.Rounds a neg x r) : r.1 < 2 ^ f.width := by
  obtain ⟨E, y, -, -, -, h⟩ := h
  split at h
  · exact h.1.lt
  · split at h
    · split at h
      · exact h.1.1
      · obtain ⟨z, -, hs, -⟩ := h
        exact hs.1
    · exact h.1.1

theorem FloatFmt.Gives.lt (h : f.Gives a v z r) : r.1 < 2 ^ f.width := by
  by_cases hv : v = 0
  · exact (h.1 hv).1.1
  · exact (h.2 hv).lt

theorem FloatFmt.canonicalNaN_lt (hf : f.Regular) (hk : f.kind = .ieee) : f.canonicalNaN < 2 ^ f.width := by
  have hq : 2 ^ (f.fbits - 1) < 2 ^ f.fbits := Nat.pow_lt_pow_right (by decide) (by have := hf.fbits; omega)
  have hc : f.canonicalNaN = f.code false (2 ^ f.ebits - 1) (2 ^ (f.fbits - 1)) := by simp [canonicalNaN, hk, code, signBit]
  rw [hc]
  exact code_lt hf.top_field.2.1 hq

theorem FloatFmt.picked_lt (hf : f.Regular) (hk : f.kind = .ieee) (keep : Bool) {cs : List Nat} (hcs : ∀ c ∈ cs, c < 2 ^ f.width) :
    f.picked keep cs < 2 ^ f.width := by
  have hc := canonicalNaN_lt hf hk
  unfold picked
  cases h : cs.find? fun c => (f.decode c).isNaN with
  | none => exact hc
  | some c =>
    cases keep with
    | false => exact hc
    | true =>
      have hq : 2 ^ (f.fbits - 1) < 2 ^ f.width := Nat.pow_lt_pow_right (by decide) (by rw [width_eq]; omega)
      exact Nat.or_lt_two_pow (hcs c (List.mem_of_find?_eq_some h)) hq

theorem FloatFmt.SumIs.lt (hf : f.Regular) (hk : f.kind = .ieee) {u w : FVal} (h : f.SumIs a u w r) : r.1 < 2 ^ f.width := by
  unfold SumIs at h
  split at h
  · split at h
    · exact h.1.1
    · rw [h]
      exact canonicalNaN_lt hf hk
  · exact h.1.1
  · exact h.1.1
  · exact h.lt

theorem FloatFmt.ProductIs.lt (hf : f.Regular) (hk : f.kind = .ieee) {u w : FVal} (h : f.ProductIs a u w r) : r.1 < 2 ^ f.width := by
  unfold ProductIs at h
  dsimp only at h
  split at h
  · rw [h]
    exact canonicalNaN_lt hf hk
  · split at h
    · exact h.lt
    · exact h.1.1

theorem FloatFmt.FusedIs.lt (hf : f.Regular) (hk : f.kind = .ieee) {u v w : FVal} (h : f.FusedIs a u v w r) : r.1 < 2 ^ f.width := by
  unfold FusedIs at h
  dsimp only at h
  split at h
  · rw [h]
    exact canonicalNaN_lt hf hk
  · split at h
    · split at h
      · exact h.1.1
      · exact h.lt
    · exact h.lt hf hk

end

/-! ### The results of the instructions -/

section
variable {t : Ty} (ht : t ∈ [Ty.f32, Ty.f16, Ty.bf16]) (s : Arith) (a b c : Nat)

/-- The low bits of an operand that a type reads. -/
def tyBits (t : Ty) (v : Nat) : Nat := v % 2 ^ (tyFloat t).width

theorem tyBits_lt (t : Ty) (v : Nat) : tyBits t v < 2 ^ (tyFloat t).width := Nat.mod_lt _ (Nat.two_pow_pos _)

/-- The result of an operation with a NaN among its operands. -/
def nanOf (t : Ty) (s : Arith) (cs : List Nat) (bad : Bool) : Nat × FlagSet :=
  ((tyFloat t).picked s.nan (cs.map (tyBits t)), flagIf (bad || cs.any fun v => ((tyFloat t).decode (tyBits t v)).isSNaN) flagInvalid)

include ht

theorem nanCode_rdFloat (cs : List Nat) (bad : Bool) :
    (tyFloat t).nanCode s.nan ((firstNaN (cs.map (rdFloat t s))).getD (.inf false)) = (nanOf t s cs bad).1 := by
  have hcs : ∀ c ∈ cs.map (tyBits t), c < 2 ^ (tyFloat t).width := by
    simp only [List.mem_map, forall_exists_index, and_imp, forall_apply_eq_imp_iff₂]
    exact fun v _ => tyBits_lt t v
  have h := FloatFmt.nanCode_firstNaN (tyFloat_regular t) (tyFloat_ieee ht) s s.nan hcs
  rwa [List.map_map] at h

omit ht in
theorem any_isSNaN_rdFloat (cs : List Nat) :
    (cs.map (rdFloat t s)).any FVal.isSNaN = cs.any fun v => ((tyFloat t).decode (tyBits t v)).isSNaN := by
  rw [List.any_map]
  congr 1
  funext v
  exact FloatFmt.operand_isSNaN _ s (tyBits t v)

theorem nanResult_rdFloat (cs : List Nat) : (tyFloat t).nanResult s.unsat (cs.map (rdFloat t s)) = nanOf t s cs false :=
  Prod.ext (nanCode_rdFloat ht s cs false) (by
    rw [nanOf, Bool.false_or, ← any_isSNaN_rdFloat]
    rfl)

theorem nanOf_lt (cs : List Nat) (bad : Bool) : (nanOf t s cs bad).1 < 2 ^ (tyFloat t).width := by
  refine FloatFmt.picked_lt (tyFloat_regular t) (tyFloat_ieee ht) s.nan ?_
  simp only [List.mem_map, forall_exists_index, and_imp, forall_apply_eq_imp_iff₂]
  exact fun v _ => tyBits_lt t v

theorem resFadd_rule : if (rdFloat t s a).isNaN || (rdFloat t s b).isNaN then resFadd t s a b = nanOf t s [a, b] false
    else (tyFloat t).SumIs s.unsat (rdFloat t s a) (rdFloat t s b) (resFadd t s a b) := by
  split
  next h => exact (FloatFmt.addV_of_isNaN h).trans (nanResult_rdFloat ht s [a, b])
  next h =>
    obtain ⟨hx, hy⟩ := Bool.or_eq_false_iff.1 (Bool.eq_false_iff.2 h)
    exact FloatFmt.sumIs_addV (tyFloat_regular t) (tyFloat_ieee ht) hx hy

theorem resFsub_rule : if (rdFloat t s a).isNaN || (rdFloat t s b).isNaN then resFsub t s a b = nanOf t s [a, b] false
    else (tyFloat t).SumIs s.unsat (rdFloat t s a) (rdFloat t s b).negate (resFsub t s a b) := by
  split
  next h =>
    exact (FloatFmt.addV_of_isNaN (by rwa [FVal.isNaN_negate])).trans
      ((FloatFmt.nanResult_negate _ _).trans (nanResult_rdFloat ht s [a, b]))
  next h =>
    obtain ⟨hx, hy⟩ := Bool.or_eq_false_iff.1 (Bool.eq_false_iff.2 h)
    exact FloatFmt.sumIs_addV (tyFloat_regular t) (tyFloat_ieee ht) hx (by rwa [FVal.isNaN_negate])

theorem resFmul_rule : if (rdFloat t s a).isNaN || (rdFloat t s b).isNaN then resFmul t s a b = nanOf t s [a, b] false
    else (tyFloat t).ProductIs s.unsat (rdFloat t s a) (rdFloat t s b) (resFmul t s a b) := by
  split
  next h => exact (FloatFmt.mulV_of_isNaN h).trans (nanResult_rdFloat ht s [a, b])
  next h =>
    obtain ⟨hx, hy⟩ := Bool.or_eq_false_iff.1 (Bool.eq_false_iff.2 h)
    exact FloatFmt.productIs_mulV (tyFloat_regular t) (tyFloat_ieee ht) hx hy

theorem resFma_rule : if (rdFloat t s a).isNaN || (rdFloat t s b).isNaN || (rdFloat t s c).isNaN then
      resFma t s a b c = nanOf t s [a, b, c] (badProduct (rdFloat t s a) (rdFloat t s b))
    else (tyFloat t).FusedIs s.unsat (rdFloat t s a) (rdFloat t s b) (rdFloat t s c) (resFma t s a b c) := by
  split
  next h =>
    refine (FloatFmt.fmaV_of_isNaN h).trans (Prod.ext (nanCode_rdFloat ht s [a, b, c] _) ?_)
    rw [nanOf, ← any_isSNaN_rdFloat]
    rfl
  next h =>
    obtain ⟨hxy, hz⟩ := Bool.or_eq_false_iff.1 (Bool.eq_false_iff.2 h)
    obtain ⟨hx, hy⟩ := Bool.or_eq_false_iff.1 hxy
    exact FloatFmt.fusedIs_fmaV (tyFloat_regular t) (tyFloat_ieee ht) hx hy hz

theorem resFadd_lt : (resFadd t s a b).1 < 2 ^ (tyFloat t).width := by
  have h := resFadd_rule ht s a b
  split at h
  · rw [h]
    exact nanOf_lt ht s _ _
  · exact h.lt (tyFloat_regular t) (tyFloat_ieee ht)

theorem resFmul_lt : (resFmul t s a b).1 < 2 ^ (tyFloat t).width := by
  have h := resFmul_rule ht s a b
  split at h
  · rw [h]
    exact nanOf_lt ht s _ _
  · exact h.lt (tyFloat_regular t) (tyFloat_ieee ht)

theorem resFma_lt : (resFma t s a b c).1 < 2 ^ (tyFloat t).width := by
  have h := resFma_rule ht s a b c
  split at h
  · rw [h]
    exact nanOf_lt ht s _ _
  · exact h.lt (tyFloat_regular t) (tyFloat_ieee ht)

/-! ### Minima and maxima (R98) -/

omit ht in
theorem minMax_rule (t : Ty) {a b : Nat} (h : ((rdFloat t s a).isNaN || (rdFloat t s b).isNaN) = false) :
    resFmin t s a b = ((tyFloat t).chosenCode s (tyBits t (if (rdFloat t s b).below (rdFloat t s a) then b else a)), 0) ∧
      resFmax t s a b = ((tyFloat t).chosenCode s (tyBits t (if (rdFloat t s b).below (rdFloat t s a) then a else b)), 0) := by
  obtain ⟨hx, hy⟩ := Bool.or_eq_false_iff.1 h
  have hcode (wantMax : Bool) : (tyFloat t).minMax s wantMax (tyBits t a) (tyBits t b) =
      ((tyFloat t).chosenCode s (if (rdFloat t s b).below (rdFloat t s a) = wantMax then tyBits t a else tyBits t b), 0) :=
    FloatFmt.minMax_of_not_isNaN hx hy wantMax
  generalize (rdFloat t s b).below (rdFloat t s a) = w at hcode ⊢
  refine ⟨(hcode false).trans ?_, (hcode true).trans ?_⟩ <;> cases w <;> rfl

/-! ### Packed halves (R100) -/

omit ht in
/-- Two results of 16 bits in one word stay apart. -/
theorem packed2_halves {r : Nat → Nat × FlagSet} (h : (r 0).1 < 65536) :
    (packed2 r).1 % 65536 = (r 0).1 ∧ (packed2 r).1 / 65536 = (r 1).1 ∧ (packed2 r).2 = (r 0).2 ||| (r 1).2 := by
  have hdef : packed2 r = ((r 0).1 + 65536 * (r 1).1, (r 0).2 ||| (r 1).2) := rfl
  rw [hdef]
  exact ⟨by omega, by omega, rfl⟩

omit ht in
theorem half_zero (x : Nat) : half x 0 = x % 65536 := by simp [half]

omit ht in
theorem half_one (x : Nat) : half x 1 = x / 65536 % 65536 := by simp [half]

theorem width_of_packed (h32 : t ≠ .f32) : 2 ^ (tyFloat t).width = 65536 := by
  simp only [List.mem_cons, List.not_mem_nil, or_false] at ht
  obtain rfl | rfl | rfl := ht
  · exact absurd rfl h32
  · rfl
  · rfl

end
end Sys2Proof.Machine

open Sys2Proof.Machine

/-- Settles O17: each instruction by its own rule, a NaN operand apart from the others. -/
theorem floatResultsAreTheRules : Obligations.FloatResultsAreTheRules := by
  unfold Obligations.FloatResultsAreTheRules
  intro t s a b c ht
  extract_lets f code flushed x y z u nan unordered signals
  refine ⟨fun v => ⟨fun h => FloatFmt.operand_of_flushed h, fun h => FloatFmt.operand_of_not_flushed h⟩, ?_, resFma_rule ht s a b c, ?_,
    fun i => ⟨testBit_resFabs t a i, testBit_resFneg t a i⟩, resFclass_eq t a, fun cond => resFcmp_eq t s cond a b, fun h32 => ?_⟩
  · have hadd := resFadd_rule ht s a b
    have hsub := resFsub_rule ht s a b
    have hmul := resFmul_rule ht s a b
    by_cases h : unordered = true
    · rw [if_pos h] at hadd hsub hmul ⊢
      exact ⟨hadd, hsub, hmul⟩
    · rw [if_neg h] at hadd hsub hmul ⊢
      exact ⟨hadd, hsub, hmul⟩
  · by_cases h : unordered = true
    · rw [if_pos h]
      exact ⟨FloatFmt.minMax_of_isNaN h false, FloatFmt.minMax_of_isNaN h true⟩
    · rw [if_neg h]
      obtain ⟨hmin, hmax⟩ := minMax_rule s t (Bool.eq_false_iff.2 h)
      rw [hmin, hmax]
      exact ⟨FloatFmt.chosenCode_of_not_flushed, FloatFmt.chosenCode_of_flushed, FloatFmt.chosenCode_of_not_flushed,
        FloatFmt.chosenCode_of_flushed⟩
  · have hw := width_of_packed ht h32
    refine ⟨?_, ?_, ?_⟩
    · have h := packed2_halves (r := fun i => resFadd t s (half a i) (half b i)) (hw ▸ resFadd_lt ht s _ _)
      simp only [half_zero, half_one] at h
      exact h
    · have h := packed2_halves (r := fun i => resFmul t s (half a i) (half b i)) (hw ▸ resFmul_lt ht s _ _)
      simp only [half_zero, half_one] at h
      exact h
    · have h := packed2_halves (r := fun i => resFma t s (half a i) (half b i) (half c i)) (hw ▸ resFma_lt ht s _ _ _)
      simp only [half_zero, half_one] at h
      exact h
end

section
/-! Conversions (R60 to R63, R104): a floating operand in another floating format, exact where that holds every number of its own, or as
an integer; an integer as a floating code or another integer. -/

open Sys2Proof
namespace Sys2Proof.Machine

/-! ### Operands by their range -/

section
variable {f : FloatFmt} {a : Arith}

/-- What an operand stands for: a number of the format's range, an infinity or a NaN with the format's fraction. -/
theorem FloatFmt.operand_cases (hf : f.Regular) (a : Arith) {x : Nat} (hx : x < 2 ^ f.width) :
    (∃ neg m e, f.operand a x = .num neg m e ∧ m < 2 ^ (f.fbits + 1) ∧ (m ≠ 0 → f.emin - f.fbits ≤ e) ∧ (m : ℚ) * 2 ^ e ≤ f.top) ∨
    (∃ neg, f.operand a x = .inf neg) ∨ ∃ neg fr sn, f.operand a x = .nan neg fr f.fbits sn := by
  by_cases h : a.fin = true ∧ f.isDenormal x = true
  · refine .inl ⟨_, 0, 0, operand_of_flushed h, Nat.two_pow_pos _, fun h => absurd rfl h, ?_⟩
    rw [Nat.cast_zero, zero_mul]
    exact (top_pos hf).le
  rw [operand_of_not_flushed h]
  obtain ⟨neg, m, hd, hm, -⟩ | ⟨neg, m, T, hd, hlo, hhi, hmin, hmax, hsig, -⟩ | h := decode_cases hf hx
  · refine .inl ⟨neg, m, _, hd, hm.trans (Nat.pow_lt_pow_right (by decide) (Nat.lt_succ_self _)), fun _ => le_rfl, ?_⟩
    refine le_trans ?_ hf.emin_le_top
    rw [← two_pow_mul_grid (j := f.fbits) (k := f.emin - f.fbits) f.emin (by ring)]
    gcongr
  · exact .inl ⟨neg, m, _, hd, hhi, fun _ => by omega, not_lt.1 ((top_lt_iff hf hlo hhi).not.2 (by omega))⟩
  · exact .inr h

end

/-! ### Conversion of a format's numbers (R63) -/

section
variable {d s : FloatFmt} {a : Arith}

/-- The eight floating formats. -/
def floatFormats : List FloatFmt := [Ty.f32, .f16, .bf16, .e5m2, .e4m3, .m6a, .m6b, .m4].map tyFloat

theorem tyFmt_mem {t : Ty} {f : FloatFmt} (h : tyFmt t = some f) : f ∈ floatFormats := by
  cases t <;> cases h <;> decide

/-- A format that holds the numbers of another one has a greater exponent range, or the same with a largest significand as great. -/
theorem within_range : ∀ d ∈ floatFormats, ∀ s ∈ floatFormats, s.within d = true → s.fbits ≤ d.fbits ∧
    (s.emax < d.emax ∨ s.emax = d.emax ∧ s.maxSig * 2 ^ (d.fbits - s.fbits) ≤ d.maxSig) := by decide

/-- The greatest number of a format lies within the range of each format that holds its numbers. -/
theorem top_le_top {dt st : Ty} (hd : tyFmt dt = some d) (hs : tyFmt st = some s) (h : s.within d = true) : s.top ≤ d.top := by
  obtain ⟨hfb, hlt | ⟨heq, hsig⟩⟩ := within_range d (tyFmt_mem hd) s (tyFmt_mem hs) h
  · obtain ⟨hlo, hhi⟩ := (tyFmt_regular hs).maxSig_bounds
    obtain ⟨hlo', hhi'⟩ := (tyFmt_regular hd).maxSig_bounds
    calc s.top ≤ 2 ^ (s.emax + 1) := (significand_bounds hlo hhi).2.le
      _ ≤ 2 ^ d.emax := zpow_le_zpow_right₀ one_le_two (by omega)
      _ ≤ d.top := (significand_bounds hlo' hhi').1
  · have hgrid := zpow_two_split (j := d.emax - d.fbits) (k := d.emax - s.fbits) (by omega)
    have hexp : (d.emax - s.fbits - (d.emax - d.fbits)).toNat = d.fbits - s.fbits := by omega
    rw [FloatFmt.top, FloatFmt.top, heq, hgrid, hexp, ← mul_assoc, ← Nat.cast_mul]
    gcongr

/-- A number of a format that another one holds becomes its code there, exactly, unless a denormal is flushed. -/
theorem FloatFmt.stands_round_of_within (hd : d.Regular) (h : s.within d = true) (htop : s.top ≤ d.top) (hfout : a.fout = false)
    {neg : Bool} {m : Nat} {e : ℤ} (hm : m < 2 ^ (s.fbits + 1)) (he : m ≠ 0 → s.emin - s.fbits ≤ e) (hv : (m : ℚ) * 2 ^ e ≤ s.top) :
    d.Stands (d.round a neg m 1 e).1 neg (m * 2 ^ e) ∧ (d.round a neg m 1 e).2 = 0 := by
  obtain ⟨⟨hfb, hmin⟩, -⟩ : (s.fbits ≤ d.fbits ∧ d.emin - d.fbits ≤ s.emin - s.fbits) ∧ s.emax ≤ d.emax := by simpa [within] using h
  obtain rfl | h0 := eq_or_ne m 0
  · rw [Nat.cast_zero, zero_mul]
    exact ⟨stands_zero hd neg, rfl⟩
  · have hr := rounds_round (a := a) (neg := neg) hd (Nat.pos_of_ne_zero h0) one_pos e
    rw [Nat.cast_one, div_one] at hr
    exact hr.exact rfl (hm.trans_le (Nat.pow_le_pow_right (by decide) (by omega))) (hv.trans htop) (.inr ⟨hfout, hmin.trans (he h0)⟩)

/-- A NaN kept in a format with NaN payloads: its sign, its most significant fraction bits, and the quiet bit (R62). -/
theorem FloatFmt.nanCode_keeps (hd : d.Regular) (hk : d.kind = .ieee) (neg : Bool) (fr fb : Nat) (sn : Bool) :
    ∃ g, d.nanCode true (.nan neg fr fb sn) < 2 ^ d.width ∧ d.decode (d.nanCode true (.nan neg fr fb sn)) = .nan neg g d.fbits false ∧
      ∀ i, i + 1 < d.fbits → g.testBit i = (decide (d.fbits ≤ i + fb) && fr.testBit (i + fb - d.fbits)) := by
  set top := if d.fbits ≤ fb then fr / 2 ^ (fb - d.fbits) else fr * 2 ^ (d.fbits - fb) with htop
  have hq : 2 ^ d.fbits = 2 ^ (d.fbits - 1) * 2 := by rw [← pow_succ, Nat.sub_add_cancel hd.fbits]
  have hlt := Nat.mod_lt top (Nat.two_pow_pos (d.fbits - 1))
  have hF : 2 ^ (d.fbits - 1) + top % 2 ^ (d.fbits - 1) < 2 ^ d.fbits := by omega
  have hcode : d.nanCode true (.nan neg fr fb sn) = d.code neg (2 ^ d.ebits - 1) (2 ^ (d.fbits - 1) + top % 2 ^ (d.fbits - 1)) := by
    simp [nanCode, hk, code, htop]
  refine ⟨2 ^ (d.fbits - 1) + top % 2 ^ (d.fbits - 1), ?_, ?_, fun i hi => ?_⟩
  · rw [hcode]
    exact code_lt hd.top_field.2.1 hF
  · have hpos := Nat.two_pow_pos (d.fbits - 1)
    rw [hcode, decode_nan hd hk hF (by omega), decide_eq_false (by omega)]
  · rw [Nat.testBit_two_pow_add_gt (by omega), Nat.testBit_mod_two_pow, decide_eq_true (by omega), Bool.true_and, htop]
    split
    next h =>
      rw [Nat.testBit_div_two_pow, decide_eq_true (by omega), Bool.true_and]
      congr 1
      omega
    next h =>
      rw [Nat.testBit_mul_two_pow]
      congr 2
      · exact propext (by omega)
      · omega

/-- The conversion of an operand follows R60 to R63. -/
theorem FloatFmt.converts_convert (hd : d.Regular) {v : FVal} {b : Arith}
    (hb : b = if s.within d then { a with fout := false } else a)
    (hnan : ∀ neg fr fb sn, v = .nan neg fr fb sn → fb = s.fbits)
    (hnum : ∀ neg m e, v = .num neg m e → s.within d = true → d.Stands (d.round b neg m 1 e).1 neg (m * 2 ^ e) ∧ (d.round b neg m 1 e).2 = 0) :
    d.Converts s a v (d.convert b v) := by
  have hsat : b.sat = a.sat := by rw [hb]; split <;> rfl
  have hkeep : b.nan = a.nan := by rw [hb]; split <;> rfl
  cases v with
  | nan neg fr fb sn =>
    obtain rfl := hnan _ _ _ _ rfl
    simp only [Converts, convert]
    cases hk : d.kind with
    | finite => rfl
    | nanOnly =>
      refine Prod.ext ?_ rfl
      rw [hkeep]
      cases a.nan <;> simp [nanCode, hk, canonicalNaN, signBit]
    | ieee =>
      rw [hkeep]
      refine ⟨rfl, fun h => by rw [h]; rfl, fun h => ?_⟩
      rw [h]
      exact nanCode_keeps hd hk neg fr s.fbits sn
  | inf neg =>
    have hl := stands_largest hd neg
    simp only [Converts, convert]
    cases hk : d.kind with
    | finite => exact ⟨hl, rfl⟩
    | ieee => exact ⟨infinite_infinity hd hk neg, rfl⟩
    | nanOnly =>
      simp only [hsat]
      split
      · exact ⟨hl, rfl⟩
      · exact ⟨notNumber_ones hd hk neg, rfl⟩
  | num neg m e =>
    simp only [Converts, convert]
    split
    next h =>
      rw [FVal.abs_value_num]
      exact hnum neg m e rfl h
    next h =>
      rw [hb, if_neg h]
      exact gives_round_num hd m e

/-- The conversion of an operand from one floating type to another follows R60 to R63. -/
theorem converts_convertFrom {dt st : Ty} (hd : tyFmt dt = some d) (hs : tyFmt st = some s) {x : Nat} (hx : x < 2 ^ s.width) :
    d.Converts s a (s.operand a x) (d.convertFrom s a (s.operand a x)) := by
  have hcases := FloatFmt.operand_cases (tyFmt_regular hs) a hx
  refine FloatFmt.converts_convert (tyFmt_regular hd) rfl (fun neg fr fb sn hv => ?_) fun neg m e hv h => ?_
  · rw [hv] at hcases
    obtain ⟨_, _, _, he, -⟩ | ⟨_, he⟩ | ⟨_, _, _, he⟩ := hcases
    · cases he
    · cases he
    · cases he
      rfl
  · rw [hv] at hcases
    obtain ⟨_, _, _, he, hm, hmin, htop⟩ | ⟨_, he⟩ | ⟨_, _, _, he⟩ := hcases
    · cases he
      exact FloatFmt.stands_round_of_within (tyFmt_regular hd) h (top_le_top hd hs h) (by rw [if_pos h]) hm hmin htop
    · cases he
    · cases he

end

/-! ### Integers of a type (R53, R92) -/

theorem wrapInt_lt (n : Nat) (v : ℤ) : wrapInt n v < 2 ^ n := by
  have h := Int.emod_lt_of_pos v (b := ((2 ^ n : Nat) : ℤ)) (by positivity)
  have h0 := Int.emod_nonneg v (b := ((2 ^ n : Nat) : ℤ)) (by positivity)
  unfold wrapInt
  omega

theorem wrapInt_eq (n : Nat) (v : ℤ) : wrapInt n v = (BitVec.ofInt n v).toNat := (BitVec.toNat_ofInt v).symm

theorem readInt_unsigned (n x : Nat) : readInt false n x = (BitVec.ofNat n x).toNat := by
  simp [readInt, BitVec.toNat_ofNat]

theorem readInt_signed {n : Nat} (hn : 0 < n) (x : Nat) : readInt true n x = (BitVec.ofNat n x).toInt := by
  obtain ⟨k, rfl⟩ := Nat.exists_eq_succ_of_ne_zero hn.ne'
  have hp : 2 ^ (k + 1) = 2 * 2 ^ k := by rw [Nat.pow_succ, Nat.mul_comm]
  rw [BitVec.toInt_eq_toNat_cond, BitVec.toNat_ofNat]
  simp only [readInt, Nat.succ_eq_add_one, Nat.add_sub_cancel, Bool.true_and, decide_eq_true_eq]
  generalize x % 2 ^ (k + 1) = y
  split_ifs <;> omega

theorem readInt_eq {n : Nat} (hn : 0 < n) (sgn : Bool) (x : Nat) :
    readInt sgn n x = if sgn then (BitVec.ofNat n x).toInt else (BitVec.ofNat n x).toNat := by
  cases sgn with
  | true => exact readInt_signed hn x
  | false => exact readInt_unsigned n x

theorem tyIntBits_pos (t : Ty) : 0 < tyIntBits t := by cases t <;> decide

theorem intRange_eq (sgn : Bool) (w : Nat) :
    intRange sgn w = (if sgn then -2 ^ (w - 1) else 0, if sgn then 2 ^ (w - 1) - 1 else 2 ^ w - 1) := by
  cases sgn <;> simp [intRange]

theorem intRange_bounds (sgn : Bool) (w : Nat) : (intRange sgn w).1 ≤ 0 ∧ 0 ≤ (intRange sgn w).2 := by
  have h1 : (0 : ℤ) < 2 ^ (w - 1) := by positivity
  have h2 : (0 : ℤ) < 2 ^ w := by positivity
  rw [intRange_eq]
  cases sgn <;> simp <;> omega

theorem clamp_eq {lo hi : ℤ} (h : lo ≤ hi) (v : ℤ) : (if v < lo then lo else if hi < v then hi else v) = max lo (min hi v) := by
  split_ifs <;> omega

/-! ### Conversion to an integer (R63) -/

/-- A floating value as an integer of a type. -/
theorem integral_toIntV (a : Arith) (sgn : Bool) (w : Nat) (v : FVal) :
    Integral a (intRange sgn w).1 (intRange sgn w).2 v (toIntV a sgn w v).1 (toIntV a sgn w v).2 := by
  obtain ⟨hlo, hhi⟩ := intRange_bounds sgn w
  unfold toIntV
  generalize intRange sgn w = p at *
  obtain ⟨lo, hi⟩ := p
  cases v with
  | nan => exact ⟨rfl, rfl⟩
  | inf neg => exact ⟨rfl, rfl⟩
  | num neg m e =>
    have hgrid : ((scaleRat m 1 e).1 / (scaleRat m 1 e).2 : ℚ) * 1 = m * 2 ^ e := by rw [scaleRat_value, Nat.cast_one, div_one, mul_one]
    obtain ⟨hc, hexact⟩ := chosen_roundQuotient one_pos (scaleRat_den_pos one_pos m e) hgrid a.mode neg
    rw [mul_one] at hc hexact
    refine ⟨(roundQuotient a.mode neg (scaleRat m 1 e).1 (scaleRat m 1 e).2).1, by rwa [FVal.abs_value_num], ?_⟩
    extract_lets x
    change (if x < lo then (lo, flagInvalid) else if hi < x then (hi, flagInvalid) else (x, flagIf _ flagInexact)).1 = _ ∧
      (if x < lo then (lo, flagInvalid) else if hi < x then (hi, flagInvalid) else (x, flagIf _ flagInexact)).2 = _
    rw [FVal.abs_value_num, ← flagIf_eq hexact]
    by_cases h1 : x < lo
    · rw [if_pos h1, if_pos (.inl h1)]
      exact ⟨by omega, rfl⟩
    · by_cases h2 : hi < x
      · rw [if_neg h1, if_pos h2, if_pos (.inr h2)]
        exact ⟨by omega, rfl⟩
      · rw [if_neg h1, if_neg h2, if_neg (by omega)]
        exact ⟨by omega, rfl⟩

/-! ### Conversion of one value (R104) -/

/-- An integer as a floating code. -/
theorem gives_ofInt {d : FloatFmt} (hd : d.Regular) {a : Arith} (v : ℤ) : d.Gives a v false (d.ofInt a v) := by
  refine (FloatFmt.gives_round (neg := decide (v < 0)) hd one_pos ?_).zero_sign fun h => ?_
  · have hcast : ((v.natAbs : ℕ) : ℚ) = |(v : ℚ)| := by rw [Nat.cast_natAbs, Int.cast_abs]
    rw [hcast, Nat.cast_one, div_one, zpow_zero, mul_one]
    by_cases h : v < 0
    · have h' : (v : ℚ) < 0 := by exact_mod_cast h
      rw [if_pos (decide_eq_true h), abs_of_neg h']
      ring
    · have h' : (0 : ℚ) ≤ v := by exact_mod_cast not_lt.1 h
      rw [if_neg (by simpa using h), abs_of_nonneg h', one_mul]
  · have h : v = 0 := by exact_mod_cast h
    rw [h]
    rfl

/-- The conversion of one value follows R60 to R63. -/
theorem converted_convertCode (a : Arith) (dt st : Ty) (x : Nat) : Converted a dt st x (convertCode a dt st x) := by
  have hn := tyIntBits_pos st
  unfold Converted convertCode
  extract_lets w n lo hi v v'
  have hv : readInt st.signed (tyIntBits st) x = v := readInt_eq hn _ x
  have hrange : intRange dt.signed w = (lo, hi) := intRange_eq _ _
  obtain ⟨hlo, hhi⟩ := intRange_bounds dt.signed w
  cases hd : tyFmt dt with
  | some d =>
    cases hs : tyFmt st with
    | some s => exact converts_convertFrom hd hs (Nat.mod_lt _ (Nat.two_pow_pos _))
    | none =>
      simp only
      rw [hv]
      exact gives_ofInt (tyFmt_regular hd) v
  | none =>
    cases hs : tyFmt st with
    | some s =>
      have h := integral_toIntV a dt.signed w (s.operand a (x % 2 ^ s.width))
      rw [hrange] at h
      exact ⟨_, h, wrapInt_eq _ _⟩
    | none =>
      have hclamp : clampInt dt.signed w v = max lo (min hi v) := by
        rw [hrange] at hlo hhi
        unfold clampInt
        rw [hrange]
        exact clamp_eq (hlo.trans hhi) v
      simp only [show v' = v from hv, ← wrapInt_eq, ← hclamp, w, n]
      cases hnarrow : (decide (tyIntBits dt < tyIntBits st) || (tyIntBits dt == tyIntBits st && dt.signed != st.signed)) with
      | true =>
        rw [if_pos rfl, Bool.and_true]
        exact ⟨rfl, rfl⟩
      | false =>
        rw [if_neg (by decide), Bool.and_false, if_neg (by decide)]
        exact ⟨rfl, rfl⟩

end Sys2Proof.Machine
end

section
/-! `cvt`, `pack` and `unpack` (R104 to R106): codes in their lane words, integral values, elements of packed words. -/

open Sys2Proof
namespace Sys2Proof.Machine

/-! ### Codes in lane words (R104) -/

/-- A code of a type as it stands in a lane word: narrow signed integers are extended. -/
def narrowWord (t : Ty) (x : Nat) : Nat :=
  if t ∈ [Ty.s8, Ty.s16, Ty.i4] then ((BitVec.ofNat (tyIntBits t) x).signExtend 32).toNat else x

theorem wrapInt_readInt_signed {w : Nat} (hw : 0 < w) (x : Nat) :
    wrapInt 32 (readInt true w x) = ((BitVec.ofNat w x).signExtend 32).toNat := by
  rw [← ofNat_wrapInt_readInt hw, BitVec.toNat_ofNat, Nat.mod_eq_of_lt (wrapInt_lt _ _)]

/-- A narrow integer code read by its type and kept to a lane word. -/
theorem wrapInt_readInt_narrow {t : Ty} (ht : t ∈ [Ty.s8, .n8, .s16, .n16, .i4]) {x : Nat} (hx : x < 2 ^ tyIntBits t) :
    wrapInt 32 (readInt t.signed (tyIntBits t) x) = narrowWord t x := by
  have hunsigned {n : Nat} (hn : n ≤ 32) (h : x < 2 ^ n) : wrapInt 32 (readInt false n x) = x := by
    have hlt : x < 2 ^ 32 := h.trans_le (Nat.pow_le_pow_right (by decide) hn)
    rw [readInt, Bool.false_and, if_neg (by decide), Nat.mod_eq_of_lt h, wrapInt]
    omega
  simp only [List.mem_cons, List.not_mem_nil, or_false] at ht
  obtain rfl | rfl | rfl | rfl | rfl := ht
  · exact wrapInt_readInt_signed (by decide) x
  · exact hunsigned (by decide) hx
  · exact wrapInt_readInt_signed (by decide) x
  · exact hunsigned (by decide) hx
  · exact wrapInt_readInt_signed (by decide) x

theorem tyLayout_eq (t : Ty) (x : Nat) : tyLayout t x = narrowWord t x := by
  unfold tyLayout narrowWord
  split
  · exact wrapInt_readInt_signed (by decide) x
  · exact wrapInt_readInt_signed (by decide) x
  · exact wrapInt_readInt_signed (by decide) x
  next h1 h2 h3 => exact (if_neg (by simpa using ⟨h1, h2, h3⟩)).symm

theorem resCvt_eq (dt st : Ty) (s : Arith) (x : Nat) :
    resCvt s dt st false x = (narrowWord dt (convertCode s dt st x).1, (convertCode s dt st x).2) := by
  rw [← tyLayout_eq]
  rfl

/-! ### Integral values (R104) -/

/-- An integral value next to a number of a format is itself a number of the format, where that holds every integer of its significand. -/
theorem FloatFmt.stands_integral {f : FloatFmt} (hf : f.Regular) (hmax : (f.fbits : ℤ) ≤ f.emax) (hmin : f.emin ≤ 0) {a : Arith} {neg : Bool}
    {m k : Nat} {e : ℤ} (hm : m < 2 ^ (f.fbits + 1)) (htop : (m : ℚ) * 2 ^ e ≤ f.top) (hk : Chosen a.mode neg (m * 2 ^ e) 1 k) :
    f.Stands (f.round a neg k 1 0).1 neg k := by
  obtain rfl | h0 := Nat.eq_zero_or_pos k
  · exact Nat.cast_zero (R := ℚ) ▸ stands_zero hf neg
  have hr := rounds_round (a := a) (neg := neg) hf h0 one_pos 0
  rw [Nat.cast_one, div_one, zpow_zero, mul_one] at hr
  have hge : (2 : ℚ) ^ f.emin ≤ k := by
    calc (2 : ℚ) ^ f.emin ≤ 2 ^ (0 : ℤ) := zpow_le_zpow_right₀ one_le_two hmin
      _ ≤ k := by rw [zpow_zero]; exact_mod_cast h0
  obtain he | he := le_or_gt 0 e
  · have hx : (k : ℚ) = m * 2 ^ e := hk.eq_of_point one_pos (j := m * 2 ^ e.toNat) (by
      rw [Nat.cast_mul, Nat.cast_pow, Nat.cast_ofNat, zpow_two_toNat he, mul_one])
    exact (hr.exact hx hm (hx ▸ htop) (.inl hge)).1
  · have hsmall : (m : ℚ) * 2 ^ e ≤ (2 ^ f.fbits : ℕ) * 1 := by
      calc (m : ℚ) * 2 ^ e ≤ (2 ^ (f.fbits + 1) : ℕ) * 2 ^ (-1 : ℤ) := by
            gcongr
            · exact one_le_two
            · omega
        _ = (2 ^ f.fbits : ℕ) * 1 := by push_cast; ring
    have hk' : k ≤ 2 ^ f.fbits := by
      have h := hk.le_point one_pos hsmall
      rw [mul_one] at h
      exact_mod_cast h
    have htop' : (k : ℚ) ≤ f.top := by
      obtain ⟨hlo, hhi⟩ := hf.maxSig_bounds
      calc (k : ℚ) ≤ ((2 ^ f.fbits : ℕ) : ℚ) := by exact_mod_cast hk'
        _ = 2 ^ (f.fbits : ℤ) := by rw [Nat.cast_pow, Nat.cast_ofNat, zpow_natCast]
        _ ≤ 2 ^ f.emax := zpow_le_zpow_right₀ one_le_two hmax
        _ ≤ f.top := (significand_bounds hlo hhi).1
    have hlt : k < 2 ^ (f.fbits + 1) := hk'.trans_lt (Nat.pow_lt_pow_right (by decide) (Nat.lt_succ_self _))
    exact (hr.exact (g := 0) (by rw [zpow_zero, mul_one]) hlt htop' (.inl hge)).1

/-- `cvt.rint` of an operand. -/
theorem rint_rule {t : Ty} (ht : t ∈ [Ty.f32, Ty.f16, Ty.bf16]) (s : Arith) (x : Nat) :
    let f := tyFloat t
    let r := resCvt s t t true x
    match rdFloat t s x with
    | .nan _ _ _ sn => r = (f.picked s.nan [x % 2 ^ f.width], flagIf sn flagInvalid)
    | .inf neg => f.Infinite r.1 neg ∧ r.2 = 0
    | .num neg m e => ∃ k : Nat, Chosen s.mode neg (m * 2 ^ e) 1 k ∧ f.Stands r.1 neg k ∧ r.2 = if (k : ℚ) = m * 2 ^ e then 0 else flagInexact := by
  intro f r
  have hf := tyFloat_regular t
  have hr : r = f.rint s (rdFloat t s x) := rfl
  have hcases := FloatFmt.operand_cases hf s (tyBits_lt t x)
  have hcode := nanCode_rdFloat ht s [x] false
  have hrange : ((tyFloat t).fbits : ℤ) ≤ (tyFloat t).emax ∧ (tyFloat t).emin ≤ 0 := by
    simp only [List.mem_cons, List.not_mem_nil, or_false] at ht
    obtain rfl | rfl | rfl := ht <;> decide
  change (∃ neg m e, rdFloat t s x = _ ∧ _) ∨ (∃ neg, rdFloat t s x = _) ∨ (∃ neg fr sn, rdFloat t s x = _) at hcases
  rw [List.map_cons, List.map_nil] at hcode
  rw [hr]
  generalize rdFloat t s x = v at *
  cases v with
  | nan neg fr fb sn => exact Prod.ext hcode (by simp [FloatFmt.rint, FloatFmt.nanResult, FVal.isSNaN])
  | inf neg => exact ⟨FloatFmt.infinite_infinity hf (tyFloat_ieee ht) neg, rfl⟩
  | num neg m e =>
    obtain ⟨_, _, _, he, hm, -, htop⟩ | ⟨_, he⟩ | ⟨_, _, _, he⟩ := hcases
    · cases he
      have hgrid : ((scaleRat m 1 e).1 / (scaleRat m 1 e).2 : ℚ) * 1 = m * 2 ^ e := by rw [scaleRat_value, Nat.cast_one, div_one, mul_one]
      obtain ⟨hc, hexact⟩ := chosen_roundQuotient one_pos (scaleRat_den_pos one_pos m e) hgrid s.mode neg
      rw [mul_one] at hc hexact
      exact ⟨_, hc, FloatFmt.stands_integral hf hrange.1 hrange.2 hm htop hc, flagIf_eq hexact⟩
    · cases he
    · cases he

/-! ### Elements of packed words (R52, R105, R106) -/

theorem testBit_element (x n i j : Nat) : (element x n i).testBit j = (decide (j < n) && x.testBit (i * n + j)) := by
  rw [element, Nat.testBit_mod_two_pow, Nat.testBit_div_two_pow, Nat.add_comm j]

/-- A word with two elements of `n` bits from bit `p` on replaced, bit by bit. -/
theorem testBit_replaced {x y c n p : Nat} (hx : x < 2 ^ n) (hy : y < 2 ^ n) (i : Nat) :
    (c % 2 ^ p + x * 2 ^ p + y * 2 ^ (p + n) + c / 2 ^ (p + n + n) * 2 ^ (p + n + n)).testBit i =
      if i < p then c.testBit i else if i < p + n then x.testBit (i - p) else if i < p + n + n then y.testBit (i - (p + n)) else c.testBit i := by
  have hlow : c % 2 ^ p < 2 ^ p := Nat.mod_lt _ (Nat.two_pow_pos _)
  have hsum : c % 2 ^ p + x * 2 ^ p + y * 2 ^ (p + n) + c / 2 ^ (p + n + n) * 2 ^ (p + n + n) =
      2 ^ p * (2 ^ n * (2 ^ n * (c / 2 ^ (p + n + n)) + y) + x) + c % 2 ^ p := by ring
  rw [hsum, Nat.testBit_two_pow_mul_add _ hlow, Nat.testBit_two_pow_mul_add _ hx, Nat.testBit_two_pow_mul_add _ hy, Nat.testBit_mod_two_pow,
    Nat.testBit_div_two_pow]
  by_cases h1 : i < p
  · rw [if_pos h1, if_pos h1, decide_eq_true h1, Bool.true_and]
  · rw [if_neg h1, if_neg h1]
    by_cases h2 : i < p + n
    · rw [if_pos h2, if_pos (by omega)]
    · rw [if_neg h2, if_neg (by omega)]
      by_cases h3 : i < p + n + n
      · rw [if_pos h3, if_pos (by omega)]
        congr 1
        omega
      · rw [if_neg h3, if_neg (by omega)]
        congr 1
        omega

theorem FloatFmt.Converts.lt {d s : FloatFmt} (hd : d.Regular) {a : Arith} {v : FVal} {r : Nat × FlagSet} (h : d.Converts s a v r) :
    r.1 < 2 ^ d.width := by
  cases v with
  | nan neg fr fb sn =>
    unfold Converts at h
    cases hk : d.kind with
    | finite =>
      simp only [hk] at h
      rw [h]
      exact Nat.two_pow_pos _
    | nanOnly =>
      simp only [hk] at h
      rw [h, signBit_ones]
      exact code_lt hd.top_field.2.1 (Nat.sub_lt (Nat.two_pow_pos _) one_pos)
    | ieee =>
      simp only [hk] at h
      obtain ⟨-, hcanon, hkept⟩ := h
      cases hn : a.nan with
      | false =>
        rw [hcanon hn]
        exact canonicalNaN_lt hd hk
      | true =>
        obtain ⟨g, hlt, -⟩ := hkept hn
        exact hlt
  | inf neg =>
    unfold Converts at h
    cases hk : d.kind <;> simp only [hk] at h
    · exact h.1.1
    · split at h <;> exact h.1.1
    · exact h.1.1
  | num neg m e =>
    have h : if s.within d then d.Stands r.1 neg |(FVal.num neg m e).value| ∧ r.2 = 0 else d.Gives a (FVal.num neg m e).value neg r := h
    split at h
    · exact h.1.1
    · exact FloatFmt.Gives.lt h

theorem convertCode_lt (a : Arith) (dt st : Ty) (x : Nat) : (convertCode a dt st x).1 < 2 ^ tyCodeBits dt := by
  have h := converted_convertCode a dt st x
  unfold Converted at h
  extract_lets w n lo hi v at h
  unfold tyCodeBits
  cases hd : tyFmt dt with
  | some d =>
    have hreg := tyFmt_regular hd
    rw [hd] at h
    cases hs : tyFmt st with
    | some s =>
      rw [hs] at h
      exact FloatFmt.Converts.lt hreg h
    | none =>
      rw [hs] at h
      exact FloatFmt.Gives.lt h
  | none =>
    rw [hd] at h
    cases hs : tyFmt st with
    | some s =>
      rw [hs] at h
      obtain ⟨i, -, hi⟩ := h
      rw [hi]
      exact BitVec.isLt _
    | none =>
      rw [hs] at h
      rw [h.2]
      exact BitVec.isLt _

section
variable (t st : Ty) (s : Arith) (k a b c : Nat)

/-- The word that `pack` makes, bit by bit. -/
theorem testBit_resPack {i : Nat} (hi : i < 32) : (resPack s t st k a b c).1.testBit i =
    let n := tyCodeBits t
    if i < 2 * k * n then c.testBit i
    else if i < 2 * k * n + n then (convertCode s t st a).1.testBit (i - 2 * k * n)
    else if i < 2 * k * n + n + n then (convertCode s t st b).1.testBit (i - (2 * k * n + n))
    else c.testBit i := by
  have h1 : (2 * k + 1) * tyCodeBits t = 2 * k * tyCodeBits t + tyCodeBits t := by ring
  have h2 : (2 * k + 2) * tyCodeBits t = 2 * k * tyCodeBits t + tyCodeBits t + tyCodeBits t := by ring
  unfold resPack
  dsimp only
  rw [Nat.testBit_mod_two_pow, decide_eq_true hi, Bool.true_and, h1, h2,
    testBit_replaced (convertCode_lt s t st a) (convertCode_lt s t st b)]

/-- `pack` converts both operands into elements of the word and keeps the rest of it. -/
theorem pack_rule (hn : (2 * k + 2) * tyCodeBits t ≤ 32) :
    let n := tyCodeBits t
    let r := resPack s t st k a b c
    ∃ x y, Converted s t st a x ∧ Converted s t st b y ∧ r.2 = x.2 ||| y.2 ∧ r.1 < 2 ^ 32 ∧
      element r.1 n (2 * k) = x.1 ∧ element r.1 n (2 * k + 1) = y.1 ∧
      ∀ i, i < 32 → i < 2 * k * n ∨ (2 * k + 2) * n ≤ i → r.1.testBit i = c.testBit i := by
  intro n r
  have hbit {i : Nat} (hi : i < 32) : r.1.testBit i = if i < 2 * k * n then c.testBit i
      else if i < 2 * k * n + n then (convertCode s t st a).1.testBit (i - 2 * k * n)
      else if i < 2 * k * n + n + n then (convertCode s t st b).1.testBit (i - (2 * k * n + n))
      else c.testBit i := testBit_resPack t st s k a b c hi
  have h1 : (2 * k + 1) * n = 2 * k * n + n := by ring
  have h2 : (2 * k + 2) * n = 2 * k * n + n + n := by ring
  have hn : (2 * k + 2) * n ≤ 32 := hn
  rw [h2] at hn ⊢
  have hlow {x : Nat} (hx : x < 2 ^ n) (i : Nat) : x.testBit i = (decide (i < n) && x.testBit i) := by
    rw [← Nat.testBit_mod_two_pow, Nat.mod_eq_of_lt hx]
  refine ⟨_, _, converted_convertCode s t st a, converted_convertCode s t st b, rfl, Nat.mod_lt _ (Nat.two_pow_pos 32),
    Nat.eq_of_testBit_eq fun i => ?_, Nat.eq_of_testBit_eq fun i => ?_, fun i hi ho => ?_⟩
  · rw [testBit_element, hlow (convertCode_lt s t st a) i]
    generalize 2 * k * n = p at *
    by_cases hi : i < n
    · rw [hbit (by omega), if_neg (by omega), if_pos (by omega), Nat.add_sub_cancel_left]
    · rw [decide_eq_false hi, Bool.false_and, Bool.false_and]
  · rw [testBit_element, hlow (convertCode_lt s t st b) i, h1]
    generalize 2 * k * n = p at *
    by_cases hi : i < n
    · rw [hbit (by omega), if_neg (by omega), if_neg (by omega), if_pos (by omega), Nat.add_sub_cancel_left]
    · rw [decide_eq_false hi, Bool.false_and, Bool.false_and]
  · rw [hbit hi]
    generalize 2 * k * n = p at *
    obtain h | h := ho
    · exact if_pos h
    · rw [if_neg (by omega), if_neg (by omega), if_neg (by omega)]

/-- `unpack` of one element. -/
theorem unpack_rule {t : Ty} (ht : t ∈ [Ty.f16, .bf16, .e4m3, .e5m2, .m6a, .m6b, .m4, .s8, .n8, .s16, .n16, .i4]) (s : Arith) (k a : Nat) :
    let x := element a (tyCodeBits t) k
    match tyFmt t with
    | some f => fmt32.Converts f s (f.operand s x) (resUnpack s t k a)
    | none => resUnpack s t k a = (narrowWord t x, 0) := by
  intro x
  have hx : x < 2 ^ tyCodeBits t := Nat.mod_lt _ (Nat.two_pow_pos _)
  unfold resUnpack
  dsimp only
  cases hf : tyFmt t with
  | some f =>
    refine converts_convertFrom (dt := .f32) rfl hf ?_
    rwa [tyCodeBits, hf] at hx
  | none =>
    have hbits : tyCodeBits t = tyIntBits t := by rw [tyCodeBits, hf]
    have hint : t ∈ [Ty.s8, .n8, .s16, .n16, .i4] := by
      revert ht hf
      clear * -
      cases t <;> decide
    have hword : narrowWord t x = wrapInt 32 (readInt t.signed (tyCodeBits t) x) := by
      rw [hbits, wrapInt_readInt_narrow hint (hbits ▸ hx)]
    simp only [hword]
    rfl

end

end Sys2Proof.Machine
end

section
/-! MX scales and elements (R107, R108) and `sp24` (R109), and from these and the conversions the settlement of O27. -/

open Sys2Proof
namespace Sys2Proof.Machine

/-! ### The scale of a block (R107) -/

theorem floorLog2_spec {m : Nat} (hm : m ≠ 0) (e : ℤ) : (2 : ℚ) ^ floorLog2 m e ≤ m * 2 ^ e ∧ (m : ℚ) * 2 ^ e < 2 ^ (floorLog2 m e + 1) := by
  have hlo : (2 ^ Nat.log2 m : ℕ) ≤ m := Nat.log2_self_le hm
  have hhi : m < (2 ^ (Nat.log2 m + 1) : ℕ) := Nat.lt_log2_self
  unfold floorLog2
  constructor
  · rw [← two_pow_mul_grid (j := Nat.log2 m) (k := e) (Nat.log2 m + e) rfl]
    gcongr
  · rw [← two_pow_mul_grid (j := Nat.log2 m + 1) (k := e) (Nat.log2 m + e + 1) (by push_cast; ring)]
    gcongr

/-- The exponent of a nonzero number's leading bit. -/
def FVal.leading : FVal → Option ℤ
  | .num _ m e => if m = 0 then none else some (floorLog2 m e)
  | _ => none

theorem mxScale_of_not_num {t : Ty} {vs : List FVal} (h : ∃ x ∈ vs, x.isNum = false) : mxScale t vs = (255, true) := by
  obtain ⟨x, hx, hn⟩ := h
  refine if_pos (List.any_eq_true.2 ⟨x, hx, ?_⟩)
  cases x with
  | num => exact Bool.noConfusion hn
  | inf => rfl
  | nan => rfl

theorem mxScale_of_num {t : Ty} {vs : List FVal} (h : ∀ x ∈ vs, x.isNum = true) : mxScale t vs =
    match vs.filterMap FVal.leading with
    | [] => (127, false)
    | l :: ls =>
      let e := ls.foldl max l - mxEmax t
      (((if e < -127 then -127 else if 127 < e then 127 else e) + 127).toNat, false) := by
  refine (if_neg fun hany => ?_).trans rfl
  obtain ⟨x, hx, hn⟩ := List.any_eq_true.1 hany
  have := h x hx
  cases x with
  | num => exact Bool.noConfusion hn
  | inf => exact Bool.noConfusion this
  | nan => exact Bool.noConfusion this

theorem foldl_max_eq {E : ℤ} {ls : List ℤ} {l : ℤ} (hle : ∀ y ∈ l :: ls, y ≤ E) (hmem : E ∈ l :: ls) : ls.foldl max l = E := by
  induction ls generalizing l with
  | nil => exact (List.mem_singleton.1 hmem).symm
  | cons y ys ih =>
    have hl := hle l (by simp)
    have hy := hle y (by simp)
    refine ih (fun z hz => ?_) ?_
    · obtain rfl | hz := List.mem_cons.1 hz
      · exact max_le hl hy
      · exact hle z (by simp [hz])
    · obtain rfl | hm := List.mem_cons.1 hmem
      · rw [max_eq_left hy]
        exact List.mem_cons_self
      · obtain rfl | hm := List.mem_cons.1 hm
        · rw [max_eq_right hl]
          exact List.mem_cons_self
        · exact List.mem_cons_of_mem _ hm

theorem mxScale_of_zeros {t : Ty} {vs : List FVal} (h : ∀ x ∈ vs, x.isNum = true ∧ x.value = 0) : mxScale t vs = (127, false) := by
  have hnil : vs.filterMap FVal.leading = [] := by
    refine List.filterMap_eq_nil_iff.2 fun x hx => ?_
    obtain ⟨hn, hv⟩ := h x hx
    cases x with
    | num neg m e => exact if_pos (FVal.value_num_eq_zero.1 hv)
    | inf => rfl
    | nan => rfl
  rw [mxScale_of_num fun x hx => (h x hx).1, hnil]

/-- The scale of a block of numbers whose greatest magnitude has the exponent `E`. -/
theorem mxScale_of_greatest {t : Ty} {vs : List FVal} {E : ℤ} (hlt : ∀ x ∈ vs, x.isNum = true ∧ |x.value| < 2 ^ (E + 1))
    (hge : ∃ x ∈ vs, 2 ^ E ≤ |x.value|) : mxScale t vs = ((max (-127) (min 127 (E - mxEmax t)) + 127).toNat, false) := by
  have hle : ∀ y ∈ vs.filterMap FVal.leading, y ≤ E := by
    intro y hy
    obtain ⟨x, hx, hl⟩ := List.mem_filterMap.1 hy
    obtain ⟨hn, hv⟩ := hlt x hx
    cases x with
    | inf => exact Bool.noConfusion hn
    | nan => exact Bool.noConfusion hn
    | num neg m e =>
      by_cases hm : m = 0
      · simp [FVal.leading, hm] at hl
      · have hy : floorLog2 m e = y := by simpa [FVal.leading, hm] using hl
        rw [FVal.abs_value_num] at hv
        have := (zpow_lt_zpow_iff_right₀ one_lt_two).1 ((floorLog2_spec hm e).1.trans_lt hv)
        omega
  have hmem : E ∈ vs.filterMap FVal.leading := by
    obtain ⟨x, hx, hv⟩ := hge
    have hn := (hlt x hx).1
    refine List.mem_filterMap.2 ⟨x, hx, ?_⟩
    cases x with
    | inf => exact Bool.noConfusion hn
    | nan => exact Bool.noConfusion hn
    | num neg m e =>
      rw [FVal.abs_value_num] at hv
      have hm : m ≠ 0 := by
        rintro rfl
        rw [Nat.cast_zero, zero_mul] at hv
        exact hv.not_gt (zpow_two_pos E)
      have hlow := (zpow_lt_zpow_iff_right₀ one_lt_two).1 (hv.trans_lt (floorLog2_spec hm e).2)
      have hhigh := hle (floorLog2 m e) (List.mem_filterMap.2 ⟨_, hx, if_neg hm⟩)
      exact (if_neg hm).trans (congrArg some (by omega))
  rw [mxScale_of_num fun x hx => (hlt x hx).1]
  cases hl : vs.filterMap FVal.leading with
  | nil => simp [hl] at hmem
  | cons l ls =>
    rw [hl] at hle hmem
    simp only [foldl_max_eq hle hmem, clamp_eq (show (-127 : ℤ) ≤ 127 by decide)]

/-! ### Elements under a scale (R107, R108) -/

theorem mxCode_gives {t : Ty} {s : Arith} {sc : Nat} {v : FVal} (h : v.isNum = true) :
    (tyFloat t).Gives s (v.value * 2 ^ (127 - (sc : ℤ))) v.neg (mxCode t s sc v) := by
  cases v with
  | inf => exact Bool.noConfusion h
  | nan => exact Bool.noConfusion h
  | num neg m e =>
    refine FloatFmt.gives_round (neg := neg) (tyFloat_regular t) one_pos ?_
    rw [FVal.value_num, Nat.cast_one, div_one, show e - ((sc : ℤ) - 127) = e + (127 - sc) by ring, zpow_two_add]
    ring

theorem resMxdq_of_nan {t : Ty} {s : Arith} {a : Nat} (h : a / 256 % 256 = 255) : resMxdq s t a = (0x7FC00000, 0) := by
  rw [resMxdq]
  simp only [h, if_true]
  rfl

theorem resMxdq_rule {t : Ty} (s : Arith) {a : Nat} (h : a / 256 % 256 ≠ 255) :
    match (tyFloat t).operand s (a % 2 ^ (tyFloat t).width) with
    | .num neg m e =>
      fmt32.Gives s ((FVal.num neg m e).value * 2 ^ (((a / 256 % 256 : ℕ) : ℤ) - 127)) neg (resMxdq s t a)
    | x => fmt32.Converts (tyFloat t) s x (resMxdq s t a) := by
  have hdef : resMxdq s t a = match (tyFloat t).operand s (a % 2 ^ (tyFloat t).width) with
      | .num neg m e => fmt32.round s neg m 1 (e + (a / 256 % 256 : ℕ) - 127)
      | v => fmt32.convert s v := by
    unfold resMxdq
    exact if_neg h
  rw [hdef]
  have hcases := FloatFmt.operand_cases (tyFloat_regular t) s (tyBits_lt t a)
  rw [tyBits] at hcases
  have hconv (v : FVal) (hv : v.isNum = false) (hfb : ∀ neg fr fb sn, v = .nan neg fr fb sn → fb = (tyFloat t).fbits) :
      fmt32.Converts (tyFloat t) s v (fmt32.convert s v) := by
    have h := FloatFmt.converts_convert (a := s) fmt32_regular rfl hfb fun neg m e he => by rw [he] at hv; exact Bool.noConfusion hv
    cases v with
    | num => exact Bool.noConfusion hv
    | inf => split at h <;> exact h
    | nan => split at h <;> exact h
  generalize (tyFloat t).operand s (a % 2 ^ (tyFloat t).width) = v at *
  cases v with
  | num neg m e =>
    refine FloatFmt.gives_round fmt32_regular one_pos ?_
    rw [FVal.value_num, Nat.cast_one, div_one, add_sub_assoc, zpow_two_add]
    ring
  | inf neg => exact hconv _ rfl fun _ _ _ _ h => by cases h
  | nan neg fr fb sn =>
    refine hconv _ rfl fun _ _ _ _ h => ?_
    cases h
    obtain ⟨_, _, _, h, -⟩ | ⟨_, h⟩ | ⟨_, _, _, h⟩ := hcases
    · cases h
    · cases h
    · cases h
      rfl

/-! ### Ranks of four elements (R109) -/

/-- The kept two of four positions under an order: those that at most one other precedes. -/
def keptBy (before : Nat → Nat → Bool) : Nat × Nat :=
  match (List.range 4).filter fun i => decide (((List.range 4).filter fun j => before j i).length < 2) with
  | i :: j :: _ => (i, j)
  | _ => (0, 1)

/-- An order of four positions by its six comparisons. -/
def orderTable (b01 b02 b03 b12 b13 b23 : Bool) (p q : Nat) : Bool :=
  match p, q with
  | 0, 1 => b01 | 0, 2 => b02 | 0, 3 => b03 | 1, 2 => b12 | 1, 3 => b13 | 2, 3 => b23
  | 1, 0 => !b01 | 2, 0 => !b02 | 3, 0 => !b03 | 2, 1 => !b12 | 3, 1 => !b13 | 3, 2 => !b23
  | _, _ => false

/-- An order of four positions is transitive. -/
def transitiveBy (b : Nat → Nat → Bool) : Bool :=
  (List.range 4).all fun p => (List.range 4).all fun q => (List.range 4).all fun r => !(b p q && b q r) || b p r

/-- What an order of four positions keeps precedes the others. -/
def keepsFirst (b : Nat → Nat → Bool) : Bool :=
  decide ((keptBy b).1 < (keptBy b).2) && decide ((keptBy b).2 < 4) &&
    (List.range 4).all fun p => (List.range 4).all fun q =>
      !((p == (keptBy b).1 || p == (keptBy b).2) && (q != (keptBy b).1 && q != (keptBy b).2)) || b p q

theorem keepsFirst_orderTable : ∀ b01 b02 b03 b12 b13 b23 : Bool, transitiveBy (orderTable b01 b02 b03 b12 b13 b23) = true →
    keepsFirst (orderTable b01 b02 b03 b12 b13 b23) = true := by
  decide +kernel

theorem keptBy_congr {b b' : Nat → Nat → Bool} (h : ∀ p < 4, ∀ q < 4, b p q = b' p q) : keptBy b = keptBy b' := by
  have hin (i : Nat) (hi : i < 4) : ((List.range 4).filter fun j => b j i) = (List.range 4).filter fun j => b' j i :=
    List.filter_congr fun j hj => h j (List.mem_range.1 hj) i hi
  have hout : ((List.range 4).filter fun i => decide (((List.range 4).filter fun j => b j i).length < 2)) =
      (List.range 4).filter fun i => decide (((List.range 4).filter fun j => b' j i).length < 2) :=
    List.filter_congr fun i hi => by rw [hin i (List.mem_range.1 hi)]
  rw [keptBy, keptBy, hout]

/-- A strict total order of four positions keeps the two that precede the others. -/
theorem keptBy_spec {b : Nat → Nat → Bool} (hirr : ∀ p, b p p = false) (hanti : ∀ p q, p ≠ q → b q p = !b p q)
    (htrans : ∀ p q r, b p q = true → b q r = true → b p r = true) :
    (keptBy b).1 < (keptBy b).2 ∧ (keptBy b).2 < 4 ∧
      ∀ p q, p = (keptBy b).1 ∨ p = (keptBy b).2 → q < 4 → q ≠ (keptBy b).1 → q ≠ (keptBy b).2 → b p q = true := by
  have htable : ∀ p < 4, ∀ q < 4, b p q = orderTable (b 0 1) (b 0 2) (b 0 3) (b 1 2) (b 1 3) (b 2 3) p q := by
    have hbelow : ∀ p q, p < q → q < 4 → b p q = orderTable (b 0 1) (b 0 2) (b 0 3) (b 1 2) (b 1 3) (b 2 3) p q := by
      intro p q hpq hq
      interval_cases q <;> interval_cases p <;> rfl
    intro p hp q hq
    obtain h | rfl | h := lt_trichotomy p q
    · exact hbelow p q h hq
    · rw [hirr]
      interval_cases p <;> rfl
    · rw [hanti q p h.ne, hbelow q p h hp]
      interval_cases p <;> interval_cases q <;> rfl
  have hspec := keepsFirst_orderTable (b 0 1) (b 0 2) (b 0 3) (b 1 2) (b 1 3) (b 2 3) (by
    simp only [transitiveBy, List.all_eq_true, List.mem_range, Bool.or_eq_true, Bool.not_eq_true', Bool.and_eq_false_iff]
    intro p hp q hq r hr
    rw [← htable _ hp _ hq, ← htable _ hq _ hr, ← htable _ hp _ hr]
    cases hpq : b p q with
    | false => exact .inl (.inl rfl)
    | true =>
      cases hqr : b q r with
      | false => exact .inl (.inr rfl)
      | true => exact .inr (htrans p q r hpq hqr))
  simp only [keepsFirst, ← keptBy_congr htable, Bool.and_eq_true, decide_eq_true_eq, List.all_eq_true, List.mem_range, Bool.or_eq_true,
    Bool.not_eq_true', Bool.and_eq_false_iff, Bool.or_eq_false_iff, beq_eq_false_iff_ne, bne_eq_false_iff_eq] at hspec
  obtain ⟨⟨hij, hj⟩, hkept⟩ := hspec
  refine ⟨hij, hj, fun p q hp hq h1 h2 => ?_⟩
  have hp4 : p < 4 := by omega
  rw [htable _ hp4 _ hq]
  exact (hkept p hp4 q hq).resolve_left (by tauto)

/-! ### The order of `sp24` (R109) -/

/-- The magnitude of a value, a NaN above every number. -/
def FVal.mag : FVal → Mag
  | .nan .. => .nan
  | .inf _ => .inf
  | .num _ m e => .num m e

/-- A magnitude as a pair that orders it: what it is, then its value. -/
def Mag.key : Mag → ℕ ×ₗ ℚ
  | .num m e => toLex (0, m * 2 ^ e)
  | .inf => toLex (1, 0)
  | .nan => toLex (2, 0)

theorem Mag.above_iff (x y : Mag) : x.above y = true ↔ y.key < x.key := by
  cases x <;> cases y <;> simp [above, key, Prod.Lex.toLex_lt_toLex, cmpMag_eq, compare_gt_iff_gt]

/-- One position of a group is kept before another (R109). -/
def keptBefore (m : Nat → Mag) (p q : Nat) : Bool := (m p).above (m q) || (!(m q).above (m p) && decide (p < q))

theorem keptBefore_iff (m : Nat → Mag) (p q : Nat) :
    keptBefore m p q = true ↔ (m q).key < (m p).key ∨ (m q).key = (m p).key ∧ p < q := by
  have hnot : (!(m q).above (m p)) = true ↔ (m q).key ≤ (m p).key := by
    rw [Bool.not_eq_true', ← Bool.not_eq_true, Mag.above_iff, not_lt]
  rw [keptBefore, Bool.or_eq_true, Bool.and_eq_true, Mag.above_iff, hnot, decide_eq_true_eq]
  constructor
  · rintro (h | ⟨h, hpq⟩)
    · exact .inl h
    · exact h.lt_or_eq.imp_right fun he => ⟨he, hpq⟩
  · rintro (h | ⟨h, hpq⟩)
    · exact .inl h
    · exact .inr ⟨h.le, hpq⟩

/-- The kept positions precede the others. -/
theorem keptBefore_spec (m : Nat → Mag) : let k := keptBy (keptBefore m)
    k.1 < k.2 ∧ k.2 < 4 ∧ ∀ p q, p = k.1 ∨ p = k.2 → q < 4 → q ≠ k.1 → q ≠ k.2 → keptBefore m p q = true := by
  refine keptBy_spec (fun p => ?_) (fun p q hpq => ?_) fun p q r hpq hqr => ?_
  · rw [← Bool.not_eq_true, keptBefore_iff]
    simp
  · rw [Bool.eq_not_iff, ne_eq, Bool.eq_iff_iff, keptBefore_iff, keptBefore_iff]
    obtain h | h | h := lt_trichotomy (m p).key (m q).key
    · simp [h, h.not_gt, h.ne']
    · simp only [h, lt_irrefl, false_or, true_and]
      omega
    · simp [h, h.not_gt, h.ne']
  · rw [keptBefore_iff] at hpq hqr ⊢
    obtain h | ⟨h, hlt⟩ := hpq
    · obtain h' | ⟨h', hlt'⟩ := hqr
      · exact .inl (h'.trans h)
      · exact .inl (h' ▸ h)
    · obtain h' | ⟨h', hlt'⟩ := hqr
      · exact .inl (h ▸ h')
      · exact .inr ⟨h'.trans h, hlt.trans hlt'⟩

theorem FVal.outranks_of_key {u v : FVal} {p q : Nat} (h : v.mag.key < u.mag.key ∨ v.mag.key = u.mag.key ∧ p < q) : u.Outranks v p q := by
  cases u with
  | nan => cases v <;> simp_all [Outranks, mag, Mag.key, Prod.Lex.toLex_lt_toLex]
  | inf => cases v <;> simp_all [Outranks, mag, Mag.key, Prod.Lex.toLex_lt_toLex]
  | num n1 m1 e1 =>
    cases v with
    | nan => simp [mag, Mag.key, Prod.Lex.toLex_lt_toLex] at h
    | inf => simp [mag, Mag.key, Prod.Lex.toLex_lt_toLex] at h
    | num n2 m2 e2 =>
      change |(num n2 m2 e2).value| < |(num n1 m1 e1).value| ∨ |(num n2 m2 e2).value| = |(num n1 m1 e1).value| ∧ p < q
      rw [abs_value_num, abs_value_num]
      simpa [mag, Mag.key, Prod.Lex.toLex_lt_toLex] using h

theorem keptOf_eq (t : Ty) (el : Nat → Nat) : keptOf t el = keptBy (keptBefore fun i => magOf t (el i)) := rfl

/-- What an element of `sp24` stands for. -/
def sparseValue (t : Ty) (x : Nat) : FVal :=
  match tyFmt t with
  | some f => f.decode x
  | none => .num false (if t.signed then (BitVec.ofNat (tyCodeBits t) x).toInt.natAbs else x) 0

theorem magOf_eq (t : Ty) {x : Nat} (hx : x < 2 ^ tyCodeBits t) : magOf t x = (sparseValue t x).mag := by
  unfold magOf sparseValue
  cases hf : tyFmt t with
  | some f =>
    simp only
    cases f.decode x <;> rfl
  | none =>
    have hbits : tyCodeBits t = tyIntBits t := by rw [tyCodeBits, hf]
    rw [hbits] at hx ⊢
    simp only [readInt_eq (tyIntBits_pos t), FVal.mag]
    split
    · rfl
    · rw [BitVec.toNat_ofNat, Nat.mod_eq_of_lt hx]
      rfl

theorem element_lt (x n i : Nat) : element x n i < 2 ^ n := Nat.mod_lt _ (Nat.two_pow_pos n)

/-- The kept positions of a group of four elements, and that they outrank the others. -/
theorem keptOf_spec (t : Ty) (a g : Nat) :
    let n := tyCodeBits t
    let k := keptOf t fun i => element a n (4 * g + i)
    k.1 < k.2 ∧ k.2 < 4 ∧ ∀ p q, p = k.1 ∨ p = k.2 → q < 4 → q ≠ k.1 → q ≠ k.2 →
      (sparseValue t (element a n (4 * g + p))).Outranks (sparseValue t (element a n (4 * g + q))) p q := by
  intro n k
  have hmag : (fun i => magOf t (element a n (4 * g + i))) = fun i => (sparseValue t (element a n (4 * g + i))).mag := by
    funext i
    exact magOf_eq t (element_lt _ _ _)
  have hk : k = keptBy (keptBefore fun i => (sparseValue t (element a n (4 * g + i))).mag) := by rw [← hmag]; exact keptOf_eq _ _
  obtain ⟨hij, hj, hkept⟩ := keptBefore_spec fun i => (sparseValue t (element a n (4 * g + i))).mag
  rw [← hk] at hij hj hkept
  exact ⟨hij, hj, fun p q hp hq h1 h2 => FVal.outranks_of_key ((keptBefore_iff _ _ _).1 (hkept p q hp hq h1 h2))⟩

/-- The groups of four elements in a word of 32 bits. -/
def sparseGroups (t : Ty) : Nat := if tyCodeBits t = 8 then 1 else 2

/-- The word of `sp24`: the kept elements of each group, then their positions. -/
theorem resSp24_layout {t : Ty} (ht : t ∈ [Ty.e4m3, .e5m2, .s8, .n8, .m4, .i4]) (a : Nat) :
    let n := tyCodeBits t
    let k (g : Nat) := keptOf t fun i => element a n (4 * g + i)
    resSp24 t a < 2 ^ (20 * sparseGroups t - 16 * (sparseGroups t - 1)) ∧ ∀ g, g < sparseGroups t →
      element (resSp24 t a) n (2 * g) = element a n (4 * g + (k g).1) ∧
      element (resSp24 t a) n (2 * g + 1) = element a n (4 * g + (k g).2) ∧
      element (resSp24 t a) 4 (4 + g) = (k g).1 + 4 * (k g).2 := by
  intro n k
  have hk (g : Nat) : (k g).1 < (k g).2 ∧ (k g).2 < 4 := ⟨(keptOf_spec t a g).1, (keptOf_spec t a g).2.1⟩
  have hel (g p : Nat) : element a n (4 * g + p) < 2 ^ n := element_lt _ _ _
  have hbits : tyCodeBits t = 8 ∨ tyCodeBits t = 4 := by
    revert ht
    clear * -
    cases t <;> decide
  obtain h8 | h4 := hbits
  · have hdef : resSp24 t a = element a n (4 * 0 + (k 0).1) + 2 ^ 8 * element a n (4 * 0 + (k 0).2) + 2 ^ 16 * ((k 0).1 + 4 * (k 0).2) := by
      unfold resSp24
      exact if_pos h8
    have hg : sparseGroups t = 1 := if_pos h8
    have hn : n = 8 := h8
    have hi := hel 0 (k 0).1
    have hj := hel 0 (k 0).2
    have hkk := hk 0
    rw [hg, hdef]
    rw [hn] at hi hj ⊢
    refine ⟨by omega, fun g hg => ?_⟩
    obtain rfl : g = 0 := by omega
    generalize element a 8 (4 * 0 + (k 0).1) = x at *
    generalize element a 8 (4 * 0 + (k 0).2) = y at *
    unfold element
    exact ⟨by omega, by omega, by omega⟩
  · have hdef : resSp24 t a = element a n (4 * 0 + (k 0).1) + 2 ^ 4 * element a n (4 * 0 + (k 0).2) +
        2 ^ 8 * element a n (4 * 1 + (k 1).1) + 2 ^ 12 * element a n (4 * 1 + (k 1).2) +
        2 ^ 16 * ((k 0).1 + 4 * (k 0).2) + 2 ^ 20 * ((k 1).1 + 4 * (k 1).2) := by
      unfold resSp24
      exact if_neg (by rw [h4]; decide)
    have hg : sparseGroups t = 2 := if_neg (by rw [h4]; decide)
    have hn : n = 4 := h4
    have hi := hel 0 (k 0).1
    have hj := hel 0 (k 0).2
    have hi' := hel 1 (k 1).1
    have hj' := hel 1 (k 1).2
    have hkk := hk 0
    have hkk' := hk 1
    rw [hg, hdef]
    rw [hn] at hi hj hi' hj' ⊢
    refine ⟨by omega, fun g hg => ?_⟩
    obtain rfl | rfl : g = 0 ∨ g = 1 := by omega
    all_goals
      generalize element a 4 (4 * 0 + (k 0).1) = x at *
      generalize element a 4 (4 * 0 + (k 0).2) = y at *
      generalize element a 4 (4 * 1 + (k 1).1) = z at *
      generalize element a 4 (4 * 1 + (k 1).2) = w at *
      unfold element
      exact ⟨by omega, by omega, by omega⟩

end Sys2Proof.Machine

open Sys2Proof.Machine

/-- Settles O27: the conversions by their values, each instruction by its layout, `mxq` by the leading bits of its block, `sp24` by the order
of its elements. -/
theorem conversionResultsAreTheRules : Obligations.ConversionResultsAreTheRules := by
  unfold Obligations.ConversionResultsAreTheRules
  intro narrow
  refine ⟨fun dt st s x _ _ _ => ⟨_, converted_convertCode s dt st x, resCvt_eq dt st s x⟩, fun t s x ht => rint_rule ht s x,
    fun t st s k a b c _ => pack_rule t st s k a b c, fun t s k a ht => unpack_rule ht s k a, fun t s a sc v vs ht => ?_, fun t a ht => ?_⟩
  · intro f emax
    have hemax : emax = mxEmax t := by cases t <;> rfl
    refine ⟨mxScale_of_not_num, mxScale_of_zeros, fun E hlt hge => hemax ▸ mxScale_of_greatest hlt hge, mxCode_gives, ?_⟩
    intro scale
    exact ⟨resMxdq_of_nan, resMxdq_rule s⟩
  · intro n groups val
    obtain ⟨hlt, hlayout⟩ := resSp24_layout ht a
    refine ⟨hlt, fun g hg => ?_⟩
    obtain ⟨hij, hj, hkept⟩ := keptOf_spec t a g
    obtain ⟨h1, h2, h3⟩ := hlayout g hg
    exact ⟨_, _, hij, hj, hkept, h1, h2, h3⟩
end

section
/-! The kernel points that are roots and quotients (R101, R102): what the integer roots compute, and that these points are rounded to the
nearest. -/

open Sys2Proof
namespace Sys2Proof.Machine

/-! ### Integer roots by bits -/

theorem sqrtBits_spec (b : Nat) {n acc : Nat} (hlo : acc * acc ≤ n) (hhi : n < (acc + 2 ^ b) * (acc + 2 ^ b)) :
    sqrtBits b n acc * sqrtBits b n acc ≤ n ∧ n < (sqrtBits b n acc + 1) * (sqrtBits b n acc + 1) := by
  induction b generalizing acc with
  | zero => exact ⟨hlo, hhi⟩
  | succ b ih =>
    rw [pow_succ, mul_two, ← add_assoc] at hhi
    unfold sqrtBits
    dsimp only
    split
    next h => exact ih h hhi
    next h => exact ih hlo (not_le.1 h)

theorem isqrt_spec (n : Nat) : isqrt n * isqrt n ≤ n ∧ n < (isqrt n + 1) * (isqrt n + 1) := by
  refine sqrtBits_spec _ (Nat.zero_le _) ?_
  rw [Nat.zero_add, ← pow_add]
  exact Nat.lt_log2_self.trans_le (Nat.pow_le_pow_right (by decide) (by omega))

theorem root256_spec (b : Nat) {n acc : Nat} (hlo : acc ^ 256 ≤ n) (hhi : n < (acc + 2 ^ b) ^ 256) :
    root256 b n acc ^ 256 ≤ n ∧ n < (root256 b n acc + 1) ^ 256 := by
  induction b generalizing acc with
  | zero => exact ⟨hlo, hhi⟩
  | succ b ih =>
    rw [pow_succ 2, mul_two, ← add_assoc] at hhi
    unfold root256
    dsimp only
    split
    next h => exact ih h hhi
    next h => exact ih hlo (not_le.1 h)

/-! ### Nearest integers -/

/-- The integer `y` is within half a unit of the `k`-th root of `num / den`. -/
def NearRoot (y k num den : Nat) : Prop := (2 * y - 1) ^ k * den ≤ 2 ^ k * num ∧ 2 ^ k * num ≤ (2 * y + 1) ^ k * den

/-- Half of a root of the quadrupled (in general, `2 ^ k`-fold) value, rounded up, is nearest to the root. -/
theorem nearRoot_half {r k num den : Nat} (hlo : r ^ k * den ≤ 2 ^ k * num) (hhi : 2 ^ k * num ≤ (r + 1) ^ k * den) :
    NearRoot ((r + 1) / 2) k num den := by
  constructor
  · exact (Nat.mul_le_mul_right _ (Nat.pow_le_pow_left (by omega) k)).trans hlo
  · exact hhi.trans (Nat.mul_le_mul_right _ (Nat.pow_le_pow_left (by omega) k))

theorem nearRoot_nearestSqrt {n d : Nat} (hd : 0 < d) : NearRoot (nearestSqrt n d) 2 n d := by
  obtain ⟨hlo, hhi⟩ := isqrt_spec (4 * n / d)
  refine nearRoot_half ?_ ?_
  · rw [pow_two (isqrt _)]
    exact (Nat.mul_le_mul_right d hlo).trans (Nat.div_mul_le_self _ _)
  · rw [pow_two (isqrt _ + 1)]
    exact ((Nat.div_lt_iff_lt_mul hd).1 hhi).le

theorem nearRoot_nearest {n d : Nat} (hd : 0 < d) : NearRoot (nearest n d) 1 n d := by
  have hdq : (0 : ℚ) < d := by exact_mod_cast hd
  obtain ⟨-, -, -, hhalf, -⟩ := chosen_one_roundQuotient .rne false n hd
  have habs : |(nearest n d : ℚ) - n / d| ≤ 1 / 2 := by
    have h : 2 * |(nearest n d : ℚ) - n / d| ≤ 1 := hhalf
    linarith
  obtain ⟨hl, hu⟩ := abs_le.1 habs
  have hlo : (2 * (nearest n d : ℚ) - 1) * d ≤ 2 * n := by
    have : 2 * (nearest n d : ℚ) - 1 ≤ 2 * (n / d) := by linarith
    calc (2 * (nearest n d : ℚ) - 1) * d ≤ 2 * (n / d) * d := by gcongr
      _ = 2 * n := by rw [mul_assoc, div_mul_cancel₀ _ hdq.ne']
  have hhi : (2 * n : ℚ) ≤ (2 * nearest n d + 1) * d := by
    have : 2 * (n / d : ℚ) ≤ 2 * nearest n d + 1 := by linarith
    calc (2 * n : ℚ) = 2 * (n / d) * d := by rw [mul_assoc, div_mul_cancel₀ _ hdq.ne']
      _ ≤ (2 * nearest n d + 1) * d := by gcongr
  refine ⟨?_, ?_⟩
  · rw [pow_one, pow_one]
    obtain h0 | h0 := Nat.eq_zero_or_pos (nearest n d)
    · simp [h0]
    · have h1 : ((2 * nearest n d - 1 : ℕ) : ℚ) = 2 * nearest n d - 1 := by
        rw [Nat.cast_sub (by omega)]
        push_cast
        rfl
      exact_mod_cast h1 ▸ hlo
  · rw [pow_one, pow_one]
    exact_mod_cast hhi

/-! ### The points -/

theorem two_pow_lt_pow {a j k : Nat} (h : a < j * k) : 2 ^ a < (2 ^ j) ^ k := by
  rw [← pow_mul]
  exact Nat.pow_lt_pow_right (by decide) h

theorem two_pow_le_pow {a j k : Nat} (h : a ≤ j * k) : 2 ^ a ≤ (2 ^ j) ^ k := by
  rw [← pow_mul]
  exact Nat.pow_le_pow_right (by decide) h

theorem pow_le_two_pow {a j k : Nat} (h : j * k ≤ a) : (2 ^ j) ^ k ≤ 2 ^ a := by
  rw [← pow_mul]
  exact Nat.pow_le_pow_right (by decide) h

/-- The points of the kernels that are roots and quotients are the nearest integers. -/
theorem kernPoint_near {i : Nat} (hi : i ≤ 256) :
    NearRoot (kernPoint .rcp i) 1 (2 ^ 38) (256 + i) ∧
    NearRoot (kernPoint .rsqEven i) 2 (2 ^ 68) (256 + i) ∧ NearRoot (kernPoint .rsqOdd i) 2 (2 ^ 67) (256 + i) ∧
    NearRoot (kernPoint .sqrtEven i) 2 (2 ^ 52 * (256 + i)) 1 ∧ NearRoot (kernPoint .sqrtOdd i) 2 (2 ^ 53 * (256 + i)) 1 ∧
    NearRoot (kernPoint .exp2 i) 256 (2 ^ (30 * 256 + i)) 1 := by
  have hpos : 0 < 256 + i := by omega
  refine ⟨nearRoot_nearest hpos, nearRoot_nearestSqrt hpos, nearRoot_nearestSqrt hpos, nearRoot_nearestSqrt one_pos,
    nearRoot_nearestSqrt one_pos, ?_⟩
  have hpow : 2 ^ 256 * 2 ^ (30 * 256 + i) = 2 ^ (31 * 256 + i) := by rw [← pow_add]; congr 1; omega
  have hlt : 2 ^ (31 * 256 + i) < (0 + 2 ^ 33) ^ 256 := by
    rw [Nat.zero_add]
    exact two_pow_lt_pow (by omega)
  obtain ⟨hlo, hhi⟩ := root256_spec 33 (n := 2 ^ (31 * 256 + i)) (acc := 0) (by simp) hlt
  change NearRoot ((root256 33 (2 ^ (31 * 256 + i)) 0 + 1) / 2) 256 (2 ^ (30 * 256 + i)) 1
  exact nearRoot_half (by rw [mul_one, hpow]; exact hlo) (by rw [mul_one, hpow]; exact hhi.le)

/-- The points of `exp2` lie between 1 and 2. -/
theorem kernPoint_exp2_bounds {i : Nat} (hi : i ≤ 256) : 2 ^ 30 ≤ kernPoint .exp2 i ∧ kernPoint .exp2 i ≤ 2 ^ 31 := by
  obtain ⟨-, -, -, -, -, hlo, hhi⟩ := kernPoint_near hi
  have hpow : 2 ^ 256 * 2 ^ (30 * 256 + i) = 2 ^ (31 * 256 + i) := by rw [← pow_add]; congr 1; omega
  rw [mul_one, hpow] at hlo hhi
  have h1 : 2 * kernPoint .exp2 i - 1 ≤ 2 ^ 32 := by
    exact (Nat.pow_le_pow_iff_left (n := 256) (by decide)).1 (hlo.trans (two_pow_le_pow (by omega)))
  have h2 : 2 ^ 31 ≤ 2 * kernPoint .exp2 i + 1 := by
    exact (Nat.pow_le_pow_iff_left (n := 256) (by decide)).1 ((pow_le_two_pow (by omega)).trans hhi)
  omega

/-- The points with an exact value: the limits at 0 and the ends. -/
theorem kernPoint_ends :
    (kernPoint .log2 0, kernPoint .log2 256, kernPoint .sin 0, kernPoint .sin 256, kernPoint .cos 0, kernPoint .cos 256, kernPoint .tanh 0) =
      (1549082005, 2 ^ 30, 1686629713, 2 ^ 30, 2 ^ 30, 0, 2 ^ 30) := by
  have hsin0 : kernPoint .sin 0 = 1686629713 := by decide +kernel
  have hsin : kernPoint .sin 256 = 2 ^ 30 := by decide +kernel
  have hcos : kernPoint .cos 0 = 2 ^ 30 := by decide +kernel
  have hrest : kernPoint .log2 0 = 1549082005 ∧ kernPoint .log2 256 = 2 ^ 30 ∧ kernPoint .cos 256 = 0 ∧ kernPoint .tanh 0 = 2 ^ 30 :=
    ⟨rfl, rfl, rfl, rfl⟩
  obtain ⟨hlog0, hlog, hcos1, htanh⟩ := hrest
  rw [hlog0, hlog, hsin0, hsin, hcos, hcos1, htanh]

/-! ### The quadratic (R101) -/

/-- The kernel is the quadratic through its three points. -/
theorem kernel_eq (k : Kern) {m n : Nat} (hm : m < 2 ^ n) :
    let U := m * 2 ^ 23 / 2 ^ n
    let h : Int := ((U % 65536 : Nat) : Int)
    let y (i : Nat) : Int := kernPoint k (2 * (U / 65536) + i)
    U < 2 ^ 23 ∧ kernel k m n = y 0 * 2 ^ 32 + (4 * y 1 - 3 * y 0 - y 2) * h * 2 ^ 16 + (2 * y 0 - 4 * y 1 + 2 * y 2) * h * h := by
  intro U h y
  constructor
  · rw [Nat.div_lt_iff_lt_mul (Nat.two_pow_pos n), Nat.mul_comm]
    exact Nat.mul_lt_mul_of_pos_left hm (by decide)
  · have h16 : (2 : ℤ) ^ 16 = 65536 := by norm_num
    have hy0 : y 0 = kernPoint k (2 * (U / 65536)) := congrArg (fun i => (kernPoint k i : ℤ)) (Nat.add_zero _)
    rw [h16, hy0]
    rfl

/-- The quadratic through three points between 1 and 2 stays positive between them. -/
theorem quadratic_nonneg {a b c h : ℤ} (ha : 2 ^ 30 ≤ a ∧ a ≤ 2 ^ 31) (hb : 2 ^ 30 ≤ b) (hc : 2 ^ 30 ≤ c ∧ c ≤ 2 ^ 31) (h0 : 0 ≤ h)
    (h1 : h ≤ 2 ^ 16) : 0 ≤ a * 2 ^ 32 + (4 * b - 3 * a - c) * h * 2 ^ 16 + (2 * a - 4 * b + 2 * c) * h * h := by
  have hform : a * 2 ^ 32 + (4 * b - 3 * a - c) * h * 2 ^ 16 + (2 * a - 4 * b + 2 * c) * h * h =
      a * ((2 ^ 16 - h) * (2 ^ 16 - 2 * h)) + 4 * b * (h * (2 ^ 16 - h)) + c * (h * (2 * h - 2 ^ 16)) := by ring
  have hmid : 2 ^ 32 * (h * (2 ^ 16 - h)) ≤ 4 * b * (h * (2 ^ 16 - h)) := by
    have : 0 ≤ h * (2 ^ 16 - h) := mul_nonneg h0 (by linarith)
    nlinarith
  rw [hform]
  obtain hhalf | hhalf := le_total (2 * h) (2 ^ 16)
  · have hleft : 0 ≤ a * ((2 ^ 16 - h) * (2 ^ 16 - 2 * h)) := mul_nonneg (by linarith [ha.1]) (mul_nonneg (by linarith) (by linarith))
    have hright : -(2 ^ 31 * (h * (2 ^ 16 - 2 * h))) ≤ c * (h * (2 * h - 2 ^ 16)) := by
      have : 0 ≤ h * (2 ^ 16 - 2 * h) := mul_nonneg h0 (by linarith)
      nlinarith [hc.2]
    linarith
  · have hright : 0 ≤ c * (h * (2 * h - 2 ^ 16)) := mul_nonneg (by linarith [hc.1]) (mul_nonneg h0 (by linarith))
    have hleft : -(2 ^ 31 * ((2 ^ 16 - h) * (2 * h - 2 ^ 16))) ≤ a * ((2 ^ 16 - h) * (2 ^ 16 - 2 * h)) := by
      have : 0 ≤ (2 ^ 16 - h) * (2 * h - 2 ^ 16) := mul_nonneg (by linarith) (by linarith)
      nlinarith [ha.2]
    linarith

/-- The kernel of `exp2` is positive. -/
theorem kernel_exp2_nonneg {m n : Nat} (hm : m < 2 ^ n) : 0 ≤ kernel .exp2 m n := by
  have hk := kernel_eq .exp2 hm
  extract_lets U h y at hk
  obtain ⟨hU, hk⟩ := hk
  have hy (i : Nat) (hi : i ≤ 2) : 2 ^ 30 ≤ y i ∧ y i ≤ 2 ^ 31 := by
    have hb := kernPoint_exp2_bounds (i := 2 * (U / 65536) + i) (by omega)
    exact ⟨Int.ofNat_le.2 hb.1, Int.ofNat_le.2 hb.2⟩
  have hh : 0 ≤ h ∧ h < 2 ^ 16 := by omega
  rw [hk]
  exact quadratic_nonneg (hy 0 (by decide)) (hy 1 (by decide)).1 (hy 2 (by decide)) hh.1 hh.2.le

end Sys2Proof.Machine
end

section
/-! The kernel points of `log2` (R101, R102): what repeated squaring in fixed point computes of the logarithm, and that the points are
rounded to the nearest. -/

open Sys2Proof
namespace Sys2Proof.Machine

/-! ### Logarithms of fixed point -/

/-- The logarithm of a number in the fixed point of the series. -/
noncomputable def fxLog (y : Nat) : ℝ := Real.logb 2 (y / 2 ^ fxBits)

theorem half_le_log_two : (1 / 2 : ℝ) ≤ Real.log 2 := by
  have := Real.log_two_gt_d9
  linarith

/-- A relative error in the argument, seen in the logarithm. -/
theorem logb_le_of_le_mul {v w ε : ℝ} (hv : 0 < v) (hw : 0 < w) (hε : 0 ≤ ε) (h : w ≤ v * (1 + ε)) :
    Real.logb 2 w ≤ Real.logb 2 v + 2 * ε := by
  have h2 : Real.logb 2 (1 + ε) ≤ 2 * ε := by
    have hlog := Real.log_le_sub_one_of_pos (show 0 < 1 + ε by linarith)
    have hhalf := half_le_log_two
    rw [Real.logb, div_le_iff₀ (by linarith)]
    nlinarith
  calc Real.logb 2 w ≤ Real.logb 2 (v * (1 + ε)) := Real.logb_le_logb_of_le one_lt_two hw h
    _ = Real.logb 2 v + Real.logb 2 (1 + ε) := Real.logb_mul hv.ne' (by linarith)
    _ ≤ Real.logb 2 v + 2 * ε := by linarith

/-- A truncated square over `c`: what it leaves of twice the logarithm. -/
theorem fxLog_square {y y' c : Nat} (hy : 0 < y) (hc : 0 < c) (hy' : 2 ^ fxBits ≤ y') (hlo : c * y' * 2 ^ fxBits ≤ y * y)
    (hhi : y * y ≤ c * (y' + 1) * 2 ^ fxBits) :
    fxLog y' + Real.logb 2 c ≤ 2 * fxLog y ∧ 2 * fxLog y ≤ fxLog y' + Real.logb 2 c + 2 / 2 ^ fxBits := by
  have hF : (0 : ℝ) < 2 ^ fxBits := by positivity
  have hyr : (0 : ℝ) < y := by exact_mod_cast hy
  have hcr : (0 : ℝ) < c := by exact_mod_cast hc
  have hy'r : (2 : ℝ) ^ fxBits ≤ y' := by exact_mod_cast hy'
  have hy'0 : (0 : ℝ) < y' := hF.trans_le hy'r
  have hlo : (c : ℝ) * y' * 2 ^ fxBits ≤ y * y := by exact_mod_cast hlo
  have hhi : (y : ℝ) * y ≤ c * (y' + 1) * 2 ^ fxBits := by exact_mod_cast hhi
  have hdouble : 2 * fxLog y = Real.logb 2 (y / 2 ^ fxBits * (y / 2 ^ fxBits)) := by
    rw [Real.logb_mul (by positivity) (by positivity), ← two_mul]
    rfl
  have hsum : fxLog y' + Real.logb 2 c = Real.logb 2 (y' / 2 ^ fxBits * c) :=
    (Real.logb_mul (by positivity) hcr.ne').symm
  have hv : (0 : ℝ) < y' / 2 ^ fxBits * c := by positivity
  have hw : (0 : ℝ) < y / 2 ^ fxBits * (y / 2 ^ fxBits) := by positivity
  rw [hdouble, hsum]
  generalize (2 : ℝ) ^ fxBits = F at *
  constructor
  · refine Real.logb_le_logb_of_le one_lt_two hv ?_
    rw [div_mul_div_comm, div_mul_eq_mul_div, div_le_div_iff₀ hF (by positivity)]
    nlinarith
  · have h := logb_le_of_le_mul (ε := 1 / F) hv hw (by positivity) ?_
    · calc _ ≤ _ := h
        _ = _ := by ring
    · have hF1 : c * (y' + 1) * F ≤ c * (y' * F + y') := by nlinarith
      rw [div_mul_div_comm, div_le_iff₀ (by positivity)]
      calc (y : ℝ) * y ≤ c * (y' * F + y') := hhi.trans hF1
        _ = y' / F * c * (1 + 1 / F) * (F * F) := by field_simp

/-- The bits of the logarithm, and what truncation leaves of it. -/
theorem log2Bits_spec (k : Nat) {y : Nat} (acc : Nat) (hlo : 2 ^ fxBits ≤ y) (hhi : y < 2 ^ (fxBits + 1)) :
    (log2Bits k y acc : ℝ) ≤ acc * 2 ^ k + 2 ^ k * fxLog y ∧
      acc * 2 ^ k + 2 ^ k * fxLog y ≤ log2Bits k y acc + 1 + (2 ^ k - 1) * (2 / 2 ^ fxBits) := by
  have hF : (0 : ℝ) < 2 ^ fxBits := by positivity
  induction k generalizing y acc with
  | zero =>
    have hlor : (2 : ℝ) ^ fxBits ≤ y := by exact_mod_cast hlo
    have hhir : (y : ℝ) ≤ 2 ^ (fxBits + 1) := by exact_mod_cast hhi.le
    have h0 : 0 ≤ fxLog y := Real.logb_nonneg one_lt_two ((one_le_div hF).2 hlor)
    have h1 : fxLog y ≤ 1 := by
      refine (Real.logb_le_iff_le_rpow one_lt_two (div_pos (hF.trans_le hlor) hF)).2 ?_
      rw [Real.rpow_one, div_le_iff₀ hF]
      rwa [pow_succ'] at hhir
    rw [log2Bits]
    constructor <;> linarith
  | succ k ih =>
    have hstep {c y' b : Nat} (hb : Real.logb 2 c = b) (hc : 0 < c) (hy' : 2 ^ fxBits ≤ y') (hy'' : y' < 2 ^ (fxBits + 1))
        (h1 : c * y' * 2 ^ fxBits ≤ y * y) (h2 : y * y ≤ c * (y' + 1) * 2 ^ fxBits) :
        (log2Bits k y' (2 * acc + b) : ℝ) ≤ acc * 2 ^ (k + 1) + 2 ^ (k + 1) * fxLog y ∧
          acc * 2 ^ (k + 1) + 2 ^ (k + 1) * fxLog y ≤ log2Bits k y' (2 * acc + b) + 1 + (2 ^ (k + 1) - 1) * (2 / 2 ^ fxBits) := by
      obtain ⟨hl, hu⟩ := fxLog_square ((Nat.two_pow_pos _).trans_le hlo) hc hy' h1 h2
      obtain ⟨ihl, ihu⟩ := ih (2 * acc + b) hy' hy''
      rw [hb] at hl hu
      push_cast at ihl ihu
      have hk : (0 : ℝ) < 2 ^ k := by positivity
      have hl' := mul_le_mul_of_nonneg_left hl hk.le
      have hu' := mul_le_mul_of_nonneg_left hu hk.le
      rw [pow_succ]
      constructor <;> nlinarith
    have hpos := Nat.two_pow_pos fxBits
    have hz := Nat.div_add_mod (y * y) (2 ^ fxBits)
    have hzm := Nat.mod_lt (y * y) hpos
    have hzlo : 2 ^ fxBits ≤ y * y / 2 ^ fxBits := (Nat.le_div_iff_mul_le hpos).2 (Nat.mul_le_mul hlo hlo)
    have hzhi : y * y / 2 ^ fxBits < 4 * 2 ^ fxBits := by
      rw [Nat.div_lt_iff_lt_mul hpos]
      rw [pow_succ] at hhi
      nlinarith
    unfold log2Bits
    dsimp only
    generalize y * y / 2 ^ fxBits = z at *
    rw [pow_succ] at hhi hstep ⊢
    split
    next h =>
      refine hstep (c := 2) (b := 1) (by simp) (by decide) (by omega) (by omega) ?_ ?_
      · calc 2 * (z / 2) * 2 ^ fxBits ≤ z * 2 ^ fxBits := Nat.mul_le_mul_right _ (by omega)
          _ ≤ y * y := by rw [← hz, Nat.mul_comm]; omega
      · calc y * y ≤ (z + 1) * 2 ^ fxBits := by rw [← hz]; nlinarith
          _ ≤ 2 * (z / 2 + 1) * 2 ^ fxBits := Nat.mul_le_mul_right _ (by omega)
    next h =>
      refine hstep (c := 1) (b := 0) (by simp) (by decide) hzlo (by omega) ?_ ?_
      · rw [one_mul, ← hz, Nat.mul_comm]
        omega
      · rw [one_mul, ← hz]
        nlinarith

/-! ### The points -/

/-- The bits of the logarithm at a point of `log2`. -/
def log2At (i : Nat) : Nat := log2Bits 80 ((256 + i) * 2 ^ fxBits / 256) 0

/-- The upper end of what the bits leave open rounds as the bits do. -/
theorem log2At_decides : ((List.range 256).all fun i => i == 0 ||
    decide (2 * ((log2At i + 2) * 256) ≤ (2 * kernPoint .log2 i + 1) * (i * 2 ^ 50))) = true := by
  decide +kernel

/-- An integer is within half a unit of a real value. -/
def NearReal (y : Nat) (v : ℝ) : Prop := |(y : ℝ) - 2 ^ 30 * v| ≤ 1 / 2

theorem nearReal_of_scaled {y : Nat} {v D w : ℝ} (hD : 0 < D) (hw : 2 ^ 30 * v * D = w) (hlo : (2 * (y : ℝ) - 1) * D ≤ 2 * w)
    (hhi : 2 * w ≤ (2 * y + 1) * D) : NearReal y v := by
  subst hw
  have h1 : 2 * (y : ℝ) - 1 ≤ 2 * (2 ^ 30 * v) := le_of_mul_le_mul_right (by rwa [← mul_assoc 2 _ D] at hlo) hD
  have h2 : 2 * (2 ^ 30 * v) ≤ 2 * (y : ℝ) + 1 := le_of_mul_le_mul_right (by rwa [← mul_assoc 2 _ D] at hhi) hD
  rw [NearReal, abs_le]
  constructor <;> linarith

/-- The bits of the logarithm at a point between the ends, and the logarithm itself. -/
theorem log2At_bounds {i : Nat} (hi : i < 256) :
    (log2At i : ℝ) ≤ 2 ^ 80 * Real.logb 2 (1 + i / 256) ∧ 2 ^ 80 * Real.logb 2 (1 + i / 256) ≤ log2At i + 2 := by
  have hsplit : 2 ^ fxBits = 256 * 2 ^ 152 := by rw [fxBits]; norm_num
  have hy : (256 + i) * 2 ^ fxBits / 256 = (256 + i) * 2 ^ 152 := by
    rw [hsplit, Nat.mul_left_comm, Nat.mul_div_cancel_left _ (by decide)]
  have hlog : fxLog ((256 + i) * 2 ^ fxBits / 256) = Real.logb 2 (1 + i / 256) := by
    have hsplit' : (2 : ℝ) ^ fxBits = 256 * 2 ^ 152 := by exact_mod_cast hsplit
    rw [hy, fxLog, hsplit']
    congr 1
    rw [Nat.cast_mul, Nat.cast_pow, Nat.cast_ofNat, mul_div_mul_right _ _ (by positivity)]
    push_cast
    ring
  have hlt : (256 + i) * 2 ^ 152 < 2 ^ fxBits * 2 := by rw [hsplit]; omega
  obtain ⟨hl, hu⟩ := log2Bits_spec 80 (y := (256 + i) * 2 ^ fxBits / 256) 0 (by rw [hy, hsplit]; omega) (by rw [hy, pow_succ]; exact hlt)
  rw [hlog, Nat.cast_zero, zero_mul, zero_add] at hl hu
  refine ⟨hl, hu.trans ?_⟩
  have herr : ((2 : ℝ) ^ 80 - 1) * (2 / 2 ^ fxBits) ≤ 1 := by
    rw [fxBits]
    norm_num
  rw [log2At]
  linarith

/-- The points of `log2` away from 0 are the nearest integers. -/
theorem kernPoint_log2_near {i : Nat} (h0 : 0 < i) (hi : i ≤ 256) :
    NearReal (kernPoint .log2 i) (Real.logb 2 (1 + i / 256) / (i / 256)) := by
  obtain rfl | hlt := hi.eq_or_lt
  · have hp : kernPoint .log2 256 = 2 ^ 30 := rfl
    have h2 : (1 : ℝ) + (256 : ℕ) / 256 = 2 := by norm_num
    rw [NearReal, hp, h2]
    norm_num
  have hir : (0 : ℝ) < i := by exact_mod_cast h0
  obtain ⟨hl, hu⟩ := log2At_bounds hlt
  have hp : kernPoint .log2 i = nearest (log2At i * 256) (i * 2 ^ 50) := by
    unfold kernPoint
    exact (if_neg h0.ne').trans (if_neg hlt.ne)
  have hlow := (nearRoot_nearest (n := log2At i * 256) (d := i * 2 ^ 50) (by omega)).1
  have hhigh := List.all_eq_true.1 log2At_decides i (List.mem_range.2 hlt)
  rw [Bool.or_eq_true, beq_iff_eq, or_iff_right h0.ne', decide_eq_true_eq] at hhigh
  rw [← hp, pow_one, pow_one] at hlow
  have hlow : (2 * (kernPoint .log2 i : ℝ) - 1) * (i * 2 ^ 50) ≤ 2 * (log2At i * 256) := by
    have hsub : 2 * (kernPoint .log2 i : ℝ) - 1 ≤ (2 * kernPoint .log2 i - 1 : ℕ) := by
      have : 2 * kernPoint .log2 i ≤ 2 * kernPoint .log2 i - 1 + 1 := by omega
      rw [sub_le_iff_le_add]
      exact_mod_cast this
    calc _ ≤ ((2 * kernPoint .log2 i - 1 : ℕ) : ℝ) * (i * 2 ^ 50) := by gcongr
      _ ≤ 2 * (log2At i * 256) := by exact_mod_cast hlow
  have hhigh : 2 * (((log2At i : ℝ) + 2) * 256) ≤ (2 * kernPoint .log2 i + 1) * (i * 2 ^ 50) := by exact_mod_cast hhigh
  refine nearReal_of_scaled (D := i * 2 ^ 50) (w := 2 ^ 80 * Real.logb 2 (1 + i / 256) * 256) (by positivity) ?_ ?_ ?_
  · field_simp
  · linarith
  · linarith

end Sys2Proof.Machine
end

section
/-! The kernel points of `sin` and `cos` (R101, R102): what the alternating series in fixed point computes, and that the points are rounded
to the nearest. -/

open Sys2Proof
namespace Sys2Proof.Machine

/-! ### Partial sums of the sine and the cosine -/

/-- The first `k` terms of the series of alternating sign from `x ^ i / i!` on, in steps of two. -/
noncomputable def altTaylor : Nat → ℝ → Nat → ℝ
  | 0, _, _ => 0
  | k + 1, x, i => x ^ i / i.factorial - altTaylor k x (i + 2)

/-- The finite sums of the exponential on the imaginary axis. -/
theorem sum_exp_imaginary (k i : Nat) (x : ℝ) :
    ∑ m ∈ Finset.range (2 * k), (x * Complex.I) ^ (i + m) / ((i + m).factorial : ℂ) =
      Complex.I ^ i * (altTaylor k x i + altTaylor k x (i + 1) * Complex.I) := by
  induction k generalizing i with
  | zero => simp [altTaylor]
  | succ k ih =>
    rw [show 2 * (k + 1) = 2 * k + 1 + 1 by ring, Finset.sum_range_succ', Finset.sum_range_succ']
    have hshift : ∑ m ∈ Finset.range (2 * k), (x * Complex.I) ^ (i + (m + 1 + 1)) / ((i + (m + 1 + 1)).factorial : ℂ) =
        ∑ m ∈ Finset.range (2 * k), (x * Complex.I) ^ (i + 2 + m) / ((i + 2 + m).factorial : ℂ) :=
      Finset.sum_congr rfl fun m _ => by rw [show i + (m + 1 + 1) = i + 2 + m by omega]
    have h0 : ((x : ℂ) * Complex.I) ^ (i + 0) = x ^ i * Complex.I ^ i := mul_pow _ _ i
    have h1 : ((x : ℂ) * Complex.I) ^ (i + (0 + 1)) = x ^ (i + 1) * (Complex.I ^ i * Complex.I) := by
      rw [zero_add, mul_pow, pow_succ Complex.I]
    have h2 : Complex.I ^ (i + 2) = -Complex.I ^ i := by rw [pow_add, Complex.I_sq, mul_neg_one]
    rw [hshift, ih, altTaylor, altTaylor, h0, h1, h2, show i + 1 + 2 = i + 2 + 1 by omega]
    push_cast
    simp only [add_zero]
    ring

/-- What the finite sums leave of the cosine and the sine. -/
theorem altTaylor_error {x : ℝ} {k : Nat} (h : |x| / (2 * k).succ ≤ 1 / 2) :
    |Real.cos x - altTaylor k x 0| ≤ |x| ^ (2 * k) / (2 * k).factorial * 2 ∧
      |Real.sin x - altTaylor k x 1| ≤ |x| ^ (2 * k) / (2 * k).factorial * 2 := by
  have hnorm : ‖(x : ℂ) * Complex.I‖ = |x| := by simp
  have hexp := Complex.exp_bound' (x := x * Complex.I) (n := 2 * k) (by rwa [hnorm])
  have hsum := sum_exp_imaginary k 0 x
  simp only [zero_add, pow_zero, one_mul] at hsum
  rw [hsum, hnorm, Complex.exp_mul_I] at hexp
  set z := Complex.cos x + Complex.sin x * Complex.I - (altTaylor k x 0 + altTaylor k x 1 * Complex.I) with hz
  have hre : z.re = Real.cos x - altTaylor k x 0 := by
    simp [hz, ← Complex.ofReal_cos, ← Complex.ofReal_sin]
  have him : z.im = Real.sin x - altTaylor k x 1 := by
    simp [hz, ← Complex.ofReal_cos, ← Complex.ofReal_sin]
  exact ⟨hre ▸ (Complex.abs_re_le_norm z).trans hexp, him ▸ (Complex.abs_im_le_norm z).trans hexp⟩

/-! ### The series in fixed point -/

theorem nat_div_bounds (n : Nat) {d : Nat} (hd : 0 < d) : (n / d : ℝ) - 1 ≤ (n / d : ℕ) ∧ ((n / d : ℕ) : ℝ) ≤ n / d := by
  have hd0 : (0 : ℝ) < d := by exact_mod_cast hd
  refine ⟨?_, Nat.cast_div_le⟩
  rw [sub_le_iff_le_add, div_le_iff₀ hd0]
  exact_mod_cast (Nat.lt_div_mul_add hd (a := n)).le.trans_eq (by ring)

/-- The error of a term made of the one before, each division truncated. -/
theorem next_term_error {t x2 d : Nat} {T X η ε : ℝ} (hd : 0 < d) (ht : |(t : ℝ) - T| ≤ ε) (hx : |(x2 : ℝ) / 2 ^ fxBits - X| ≤ η)
    (hT : 0 ≤ T) (hx3 : (x2 : ℝ) / 2 ^ fxBits ≤ 3) :
    |((t * x2 / 2 ^ fxBits / d : ℕ) : ℝ) - T * X / d| ≤ (3 * ε + T * η) / d + 2 := by
  have hdr : (1 : ℝ) ≤ d := by exact_mod_cast hd
  have hd0 : (0 : ℝ) < d := by linarith
  have hF : (0 : ℝ) < 2 ^ fxBits := by positivity
  set q : ℝ := x2 / 2 ^ fxBits with hq
  have hq0 : 0 ≤ q := by positivity
  have hprod : |t * q - T * X| ≤ 3 * ε + T * η := by
    calc |t * q - T * X| = |(t - T) * q + T * (q - X)| := by congr 1; ring
      _ ≤ |(t - T) * q| + |T * (q - X)| := abs_add_le _ _
      _ = |t - T| * q + T * |q - X| := by rw [abs_mul, abs_mul, abs_of_nonneg hq0, abs_of_nonneg hT]
      _ ≤ ε * 3 + T * η := by
          have hε : 0 ≤ ε := (abs_nonneg _).trans ht
          gcongr
      _ = 3 * ε + T * η := by ring
  have hq' : (t * q : ℝ) = ((t * x2 : ℕ) : ℝ) / (2 ^ fxBits : ℕ) := by rw [hq]; push_cast; ring
  obtain ⟨hl1, hu1⟩ := nat_div_bounds (t * x2) (Nat.two_pow_pos fxBits)
  obtain ⟨hl2, hu2⟩ := nat_div_bounds (t * x2 / 2 ^ fxBits) hd
  rw [← hq'] at hl1 hu1
  have hdiv : |t * q / d - T * X / d| ≤ (3 * ε + T * η) / d := by
    rw [← sub_div, abs_div, abs_of_pos hd0]
    gcongr
  have hlow : (t * q : ℝ) / d - 1 ≤ ((t * x2 / 2 ^ fxBits : ℕ) : ℝ) / d := by
    have hone : 1 / (d : ℝ) ≤ 1 := (div_le_one hd0).2 hdr
    calc (t * q : ℝ) / d - 1 ≤ (t * q - 1) / d := by rw [sub_div]; linarith
      _ ≤ _ := by gcongr
  have hupp : ((t * x2 / 2 ^ fxBits : ℕ) : ℝ) / d ≤ t * q / d := by gcongr
  obtain ⟨hd1, hd2⟩ := abs_le.1 hdiv
  rw [abs_le]
  constructor <;> linarith

/-- The ideal term of a series in fixed point. -/
noncomputable def fxTerm (x : ℝ) (i : Nat) : ℝ := 2 ^ fxBits * (x ^ i / i.factorial)

theorem fxTerm_nonneg {x : ℝ} (hx : 0 ≤ x) (i : Nat) : 0 ≤ fxTerm x i := by unfold fxTerm; positivity

theorem fxTerm_next (x : ℝ) (i : Nat) : fxTerm x (i + 2) = fxTerm x i * x ^ 2 / ((i + 1) * (i + 2) : ℕ) := by
  unfold fxTerm
  rw [Nat.factorial_succ, Nat.factorial_succ, pow_add]
  push_cast
  field_simp
  ring

section
variable {x η ε : ℝ} {x2 : Nat}

/-- One more term of the series: its own error and that of the terms after it. -/
theorem altSeries_step {k t i : Nat} {sgn : ℤ} {E : ℝ} (hs : |(sgn : ℝ)| = 1) (ht : |(t : ℝ) - fxTerm x i| ≤ ε)
    (hrest : |(altSeries k (t * x2 / 2 ^ fxBits / ((i + 1) * (i + 2))) (-sgn) x2 (i + 2) : ℝ) -
      (-sgn : ℤ) * (2 ^ fxBits * altTaylor k x (i + 2))| ≤ E) :
    |(altSeries (k + 1) t sgn x2 i : ℝ) - sgn * (2 ^ fxBits * altTaylor (k + 1) x i)| ≤ ε + E := by
  have hsplit : (altSeries (k + 1) t sgn x2 i : ℝ) - sgn * (2 ^ fxBits * altTaylor (k + 1) x i) =
      sgn * (t - fxTerm x i) + ((altSeries k (t * x2 / 2 ^ fxBits / ((i + 1) * (i + 2))) (-sgn) x2 (i + 2) : ℝ) -
        (-sgn : ℤ) * (2 ^ fxBits * altTaylor k x (i + 2))) := by
    rw [altSeries, altTaylor, fxTerm]
    push_cast
    ring
  rw [hsplit]
  refine (abs_add_le _ _).trans (add_le_add ?_ hrest)
  rwa [abs_mul, hs, one_mul]

variable (hx0 : 0 ≤ x) (hx2 : x ^ 2 ≤ 5 / 2) (hη : |(x2 : ℝ) / 2 ^ fxBits - x ^ 2| ≤ η) (hη1 : η ≤ 1 / 2)
include hx0 hx2 hη hη1

/-- What the series in fixed point makes of the finite sums, from the first power on. -/
theorem altSeries_error (k : Nat) {t i : Nat} {sgn : ℤ} (hi : 1 ≤ i) (hs : |(sgn : ℝ)| = 1) (ht : |(t : ℝ) - fxTerm x i| ≤ ε) :
    |(altSeries k t sgn x2 i : ℝ) - sgn * (2 ^ fxBits * altTaylor k x i)| ≤ 2 * ε + fxTerm x i * η + 4 * k := by
  have hη0 : 0 ≤ η := (abs_nonneg _).trans hη
  have hq3 : (x2 : ℝ) / 2 ^ fxBits ≤ 3 := by linarith [(abs_le.1 hη).2]
  induction k generalizing t i sgn ε with
  | zero =>
    have hε : 0 ≤ ε := (abs_nonneg _).trans ht
    have hT := mul_nonneg (fxTerm_nonneg hx0 i) hη0
    simp only [altSeries, altTaylor, Int.cast_zero, mul_zero, sub_self, abs_zero, Nat.cast_zero, add_zero]
    linarith
  | succ k ih =>
    have hT := fxTerm_nonneg hx0 i
    have hε : 0 ≤ ε := (abs_nonneg _).trans ht
    have hd : (6 : ℝ) ≤ ((i + 1) * (i + 2) : ℕ) := by
      have : 2 * 3 ≤ (i + 1) * (i + 2) := Nat.mul_le_mul (by omega) (by omega)
      exact_mod_cast this
    have hnext : fxTerm x (i + 2) ≤ fxTerm x i / 2 := by
      rw [fxTerm_next, div_le_iff₀ (by linarith)]
      nlinarith
    have hterm := next_term_error (d := (i + 1) * (i + 2)) (by positivity) ht hη hT hq3
    rw [← fxTerm_next] at hterm
    have hterm' : (3 * ε + fxTerm x i * η) / ((i + 1) * (i + 2) : ℕ) ≤ (3 * ε + fxTerm x i * η) / 6 :=
      div_le_div_of_nonneg_left (add_nonneg (by linarith) (mul_nonneg hT hη0)) (by norm_num) hd
    have hrest := ih (ε := (3 * ε + fxTerm x i * η) / 6 + 2) (i := i + 2) (sgn := -sgn) (by omega) (by rwa [Int.cast_neg, abs_neg])
      (hterm.trans (by linarith))
    refine (altSeries_step hs ht hrest).trans ?_
    have hnext' := mul_le_mul_of_nonneg_right hnext hη0
    have hTη := mul_nonneg hT hη0
    push_cast
    linarith

/-- What it makes of them from the constant term on. -/
theorem altSeries_error_zero (k : Nat) : |(altSeries (k + 1) (2 ^ fxBits) 1 x2 0 : ℝ) - 2 ^ fxBits * altTaylor (k + 1) x 0| ≤
    3 * 2 ^ fxBits * η + 4 * (k + 1) := by
  have hη0 : 0 ≤ η := (abs_nonneg _).trans hη
  have hq3 : (x2 : ℝ) / 2 ^ fxBits ≤ 3 := by linarith [(abs_le.1 hη).2]
  have hT0 : fxTerm x 0 = 2 ^ fxBits := by simp [fxTerm]
  have ht : |((2 ^ fxBits : ℕ) : ℝ) - fxTerm x 0| ≤ 0 := by rw [hT0]; simp
  have hterm := next_term_error (d := (0 + 1) * (0 + 2)) (by decide) ht hη (fxTerm_nonneg hx0 0) hq3
  have hn := fxTerm_next x 0
  rw [← hn, hT0] at hterm
  rw [hT0] at hn
  have hrest := altSeries_error (ε := (3 * 0 + 2 ^ fxBits * η) / ((0 + 1) * (0 + 2) : ℕ) + 2) hx0 hx2 hη hη1 k (i := 0 + 2) (sgn := -1)
    (by decide) (by norm_num) hterm
  have h := altSeries_step (sgn := 1) (by norm_num) ht hrest
  rw [Int.cast_one, one_mul] at h
  refine h.trans ?_
  have hF : (0 : ℝ) < 2 ^ fxBits := by positivity
  have hT2 : fxTerm x (0 + 2) ≤ 5 / 4 * 2 ^ fxBits := by
    rw [hn]
    push_cast
    nlinarith
  have := mul_le_mul_of_nonneg_right hT2 hη0
  push_cast
  nlinarith

end

end Sys2Proof.Machine
end

section
/-! The kernel points of `sin` and `cos` (R101, R102) are rounded to the nearest: how far the series in fixed point is from the function,
and that no point lies that near to the middle between two integers. -/

open Sys2Proof
namespace Sys2Proof.Machine

/-! ### The argument in fixed point -/

/-- The argument of the points of `sin` and `cos`. -/
noncomputable def angle (i : Nat) : ℝ := Real.pi * i / 512

/-- The argument in fixed point. -/
def angleFx (i : Nat) : Nat := piFx * i / 512

theorem angle_nonneg (i : Nat) : 0 ≤ angle i := by
  unfold angle
  have := Real.pi_pos
  positivity

theorem angle_le {i : Nat} (hi : i ≤ 256) : angle i ≤ 1571 / 1000 := by
  have hir : (i : ℝ) ≤ 256 := by exact_mod_cast hi
  have hpi := Real.pi_lt_d4
  have hpi0 := Real.pi_pos
  unfold angle
  nlinarith

theorem piFx_near : |(piFx : ℝ) / 2 ^ fxBits - Real.pi| ≤ 1 / 2 ^ 66 := by
  have hlo := Real.pi_gt_d20
  have hhi := Real.pi_lt_d20
  have hfx : (3.14159265358979323846 : ℝ) ≤ piFx / 2 ^ fxBits ∧ (piFx : ℝ) / 2 ^ fxBits ≤ 3.14159265358979323847 := by
    norm_num [piFx, fxBits]
  have h66 : (3.14159265358979323847 : ℝ) - 3.14159265358979323846 ≤ 1 / 2 ^ 66 := by norm_num
  rw [abs_le]
  constructor <;> linarith [hfx.1, hfx.2]

theorem angleFx_near {i : Nat} (hi : i ≤ 256) : |(angleFx i : ℝ) / 2 ^ fxBits - angle i| ≤ 1 / 2 ^ 66 := by
  have hir : (i : ℝ) / 512 ≤ 1 / 2 := by
    have : (i : ℝ) ≤ 256 := by exact_mod_cast hi
    linarith
  have hi0 : (0 : ℝ) ≤ i / 512 := by positivity
  obtain ⟨hp1, hp2⟩ := abs_le.1 piFx_near
  obtain ⟨hd1, hd2⟩ := nat_div_bounds (piFx * i) (d := 512) (by decide)
  have hF : (0 : ℝ) < 2 ^ fxBits := by positivity
  have hsmall : 1 / (2 : ℝ) ^ fxBits ≤ 1 / 2 / 2 ^ 66 := by norm_num [fxBits]
  have hexact : ((piFx * i : ℕ) : ℝ) / (512 : ℕ) / 2 ^ fxBits = piFx / 2 ^ fxBits * (i / 512) := by push_cast; ring
  have hlo : (piFx : ℝ) / 2 ^ fxBits * (i / 512) - 1 / 2 ^ fxBits ≤ angleFx i / 2 ^ fxBits := by
    rw [← hexact, ← sub_div]
    exact div_le_div_of_nonneg_right hd1 hF.le
  have hhi : (angleFx i : ℝ) / 2 ^ fxBits ≤ piFx / 2 ^ fxBits * (i / 512) := by
    rw [← hexact]
    exact div_le_div_of_nonneg_right hd2 hF.le
  have ha : angle i = Real.pi * (i / 512) := by unfold angle; ring
  rw [ha, abs_le]
  generalize (piFx : ℝ) / 2 ^ fxBits = p at *
  constructor <;> nlinarith

theorem angleFx_square_near {i : Nat} (hi : i ≤ 256) : |((angleFx i * angleFx i / 2 ^ fxBits : ℕ) : ℝ) / 2 ^ fxBits - angle i ^ 2| ≤ 1 / 2 ^ 64 := by
  obtain ⟨hn1, hn2⟩ := abs_le.1 (angleFx_near hi)
  have ha := angle_le hi
  have ha0 := angle_nonneg i
  obtain ⟨hd1, hd2⟩ := nat_div_bounds (angleFx i * angleFx i) (d := 2 ^ fxBits) (Nat.two_pow_pos _)
  have hF : (0 : ℝ) < 2 ^ fxBits := by positivity
  have hsmall : 1 / (2 : ℝ) ^ fxBits ≤ 1 / 2 ^ 70 := by norm_num [fxBits]
  have hexact : ((angleFx i * angleFx i : ℕ) : ℝ) / (2 ^ fxBits : ℕ) / 2 ^ fxBits = (angleFx i / 2 ^ fxBits) ^ 2 := by push_cast; ring
  have hlo : (angleFx i / 2 ^ fxBits : ℝ) ^ 2 - 1 / 2 ^ fxBits ≤ ((angleFx i * angleFx i / 2 ^ fxBits : ℕ) : ℝ) / 2 ^ fxBits := by
    rw [← hexact, ← sub_div]
    exact div_le_div_of_nonneg_right hd1 hF.le
  have hhi : ((angleFx i * angleFx i / 2 ^ fxBits : ℕ) : ℝ) / 2 ^ fxBits ≤ (angleFx i / 2 ^ fxBits : ℝ) ^ 2 := by
    rw [← hexact]
    exact div_le_div_of_nonneg_right hd2 hF.le
  have hq0 : (0 : ℝ) ≤ angleFx i / 2 ^ fxBits := by positivity
  generalize (angleFx i : ℝ) / 2 ^ fxBits = q at *
  generalize angle i = x at *
  have hdiff : |q ^ 2 - x ^ 2| ≤ 1 / 2 ^ 66 * (32 / 10) := by
    rw [sq_sub_sq, mul_comm, abs_mul, abs_of_nonneg (show 0 ≤ q + x by linarith)]
    exact mul_le_mul (abs_le.2 ⟨hn1, hn2⟩) (by linarith) (by linarith) (by positivity)
  obtain ⟨h1, h2⟩ := abs_le.1 hdiff
  rw [abs_le]
  constructor <;> linarith

/-! ### The series at the points -/

/-- The series of `sin` at a point. -/
def sinAt (i : Nat) : Int := altSeries 24 (angleFx i) 1 (angleFx i * angleFx i / 2 ^ fxBits) 1

/-- The series of `cos` at a point. -/
def cosAt (i : Nat) : Int := altSeries 24 (2 ^ fxBits) 1 (angleFx i * angleFx i / 2 ^ fxBits) 0

theorem angle_sq_le {i : Nat} (hi : i ≤ 256) : angle i ^ 2 ≤ 5 / 2 := by
  have ha := angle_le hi
  have ha0 := angle_nonneg i
  nlinarith

/-- What 24 terms of the Taylor series leave, in fixed point. -/
theorem altTaylor_angle {i : Nat} (hi : i ≤ 256) :
    |2 ^ fxBits * altTaylor 24 (angle i) 0 - 2 ^ fxBits * Real.cos (angle i)| ≤ 1 ∧
      |2 ^ fxBits * altTaylor 24 (angle i) 1 - 2 ^ fxBits * Real.sin (angle i)| ≤ 1 := by
  have ha := angle_le hi
  have ha0 := angle_nonneg i
  have habs : |angle i| = angle i := abs_of_nonneg ha0
  obtain ⟨hc, hs⟩ := altTaylor_error (x := angle i) (k := 24) (by rw [habs]; push_cast; linarith)
  have hF : (0 : ℝ) < 2 ^ fxBits := by positivity
  have hrem : 2 ^ fxBits * (|angle i| ^ (2 * 24) / (2 * 24).factorial * 2) ≤ 1 := by
    calc 2 ^ fxBits * (|angle i| ^ (2 * 24) / (2 * 24).factorial * 2) ≤ 2 ^ fxBits * ((1571 / 1000) ^ (2 * 24) / (2 * 24).factorial * 2) := by
          rw [habs]
          gcongr
      _ ≤ 1 := by norm_num [fxBits, Nat.factorial]
  rw [abs_sub_comm] at hc hs
  constructor
  · rw [← mul_sub, abs_mul, abs_of_pos hF]
    exact (mul_le_mul_of_nonneg_left hc hF.le).trans hrem
  · rw [← mul_sub, abs_mul, abs_of_pos hF]
    exact (mul_le_mul_of_nonneg_left hs hF.le).trans hrem

theorem sinAt_near {i : Nat} (hi : i ≤ 256) : |(sinAt i : ℝ) - 2 ^ fxBits * Real.sin (angle i)| ≤ 2 ^ 105 := by
  have hF : (0 : ℝ) < 2 ^ fxBits := by positivity
  have hterm : fxTerm (angle i) 1 = 2 ^ fxBits * angle i := by simp [fxTerm]
  have ht : |(angleFx i : ℝ) - fxTerm (angle i) 1| ≤ 2 ^ 94 := by
    have h := mul_le_mul_of_nonneg_left (angleFx_near hi) hF.le
    rw [← abs_of_pos hF, ← abs_mul, abs_of_pos hF, mul_sub, mul_div_cancel₀ _ hF.ne'] at h
    rw [hterm]
    exact h.trans (by norm_num [fxBits])
  have hser := altSeries_error (angle_nonneg i) (angle_sq_le hi) (angleFx_square_near hi) (by norm_num) 24 (sgn := 1) le_rfl (by simp) ht
  have htay := (altTaylor_angle hi).2
  rw [Int.cast_one, one_mul] at hser
  have hbound : fxTerm (angle i) 1 * (1 / 2 ^ 64) ≤ 2 ^ 97 := by
    rw [hterm, fxBits]
    linarith [angle_le hi]
  calc |(sinAt i : ℝ) - 2 ^ fxBits * Real.sin (angle i)| ≤ _ := abs_sub_le _ (2 ^ fxBits * altTaylor 24 (angle i) 1) _
    _ ≤ (2 * 2 ^ 94 + fxTerm (angle i) 1 * (1 / 2 ^ 64) + 4 * (24 : ℕ)) + 1 := add_le_add hser htay
    _ ≤ 2 ^ 105 := by
      push_cast
      linarith

theorem cosAt_near {i : Nat} (hi : i ≤ 256) : |(cosAt i : ℝ) - 2 ^ fxBits * Real.cos (angle i)| ≤ 2 ^ 105 := by
  have hser := altSeries_error_zero (angle_nonneg i) (angle_sq_le hi) (angleFx_square_near hi) (by norm_num) 23
  have htay := (altTaylor_angle hi).1
  have hbound : 3 * (2 : ℝ) ^ fxBits * (1 / 2 ^ 64) ≤ 2 ^ 98 := by norm_num [fxBits]
  calc |(cosAt i : ℝ) - 2 ^ fxBits * Real.cos (angle i)| ≤ _ := abs_sub_le _ (2 ^ fxBits * altTaylor 24 (angle i) 0) _
    _ ≤ (3 * 2 ^ fxBits * (1 / 2 ^ 64) + 4 * ((23 : ℕ) + 1)) + 1 := add_le_add hser htay
    _ ≤ 2 ^ 105 := by
      push_cast
      linarith

/-! ### The points -/

/-- All that is within `2 ^ 105` of the series of `sin` rounds to the point. -/
theorem sinAt_decides : ((List.range 257).all fun i => i == 0 ||
    decide ((2 * (kernPoint .sin i : Int) - 1) * (i * 2 ^ 130) ≤ 512 * (sinAt i - 2 ^ 105)) &&
    decide (512 * (sinAt i + 2 ^ 105) ≤ (2 * (kernPoint .sin i : Int) + 1) * (i * 2 ^ 130))) = true := by
  decide +kernel

/-- All that is within `2 ^ 105` of the series of `cos` rounds to the point. -/
theorem cosAt_decides : ((List.range 257).all fun i => i == 0 ||
    decide ((2 * (kernPoint .cos i : Int) - 1) * 2 ^ 130 ≤ 2 * (cosAt i - 2 ^ 105)) &&
    decide (2 * (cosAt i + 2 ^ 105) ≤ (2 * (kernPoint .cos i : Int) + 1) * 2 ^ 130)) = true := by
  decide +kernel

theorem angle_eq (i : Nat) : Real.pi * (i / 256) / 2 = angle i := by unfold angle; ring

theorem kernPoint_sin_near {i : Nat} (h0 : 0 < i) (hi : i ≤ 256) :
    NearReal (kernPoint .sin i) (Real.sin (Real.pi * (i / 256) / 2) / (i / 256)) := by
  have hir : (0 : ℝ) < i := by exact_mod_cast h0
  have hdec := List.all_eq_true.1 sinAt_decides i (List.mem_range.2 (by omega))
  rw [Bool.or_eq_true, beq_iff_eq, or_iff_right h0.ne', Bool.and_eq_true, decide_eq_true_eq, decide_eq_true_eq] at hdec
  obtain ⟨hlo, hhi⟩ := hdec
  have hlo : (2 * (kernPoint .sin i : ℝ) - 1) * (i * 2 ^ 130) ≤ 512 * (sinAt i - 2 ^ 105) := by exact_mod_cast hlo
  have hhi : 512 * ((sinAt i : ℝ) + 2 ^ 105) ≤ (2 * kernPoint .sin i + 1) * (i * 2 ^ 130) := by exact_mod_cast hhi
  obtain ⟨hn1, hn2⟩ := abs_le.1 (sinAt_near hi)
  rw [angle_eq]
  refine nearReal_of_scaled (D := i * 2 ^ 130) (w := 2 ^ fxBits * Real.sin (angle i) * 256) (by positivity) ?_ ?_ ?_
  · rw [fxBits]
    field_simp
  · linarith
  · linarith

theorem kernPoint_cos_near {i : Nat} (h0 : 0 < i) (hi : i ≤ 256) : NearReal (kernPoint .cos i) (Real.cos (Real.pi * (i / 256) / 2)) := by
  have hdec := List.all_eq_true.1 cosAt_decides i (List.mem_range.2 (by omega))
  rw [Bool.or_eq_true, beq_iff_eq, or_iff_right h0.ne', Bool.and_eq_true, decide_eq_true_eq, decide_eq_true_eq] at hdec
  obtain ⟨hlo, hhi⟩ := hdec
  have hlo : (2 * (kernPoint .cos i : ℝ) - 1) * 2 ^ 130 ≤ 2 * (cosAt i - 2 ^ 105) := by exact_mod_cast hlo
  have hhi : 2 * ((cosAt i : ℝ) + 2 ^ 105) ≤ (2 * kernPoint .cos i + 1) * 2 ^ 130 := by exact_mod_cast hhi
  obtain ⟨hn1, hn2⟩ := abs_le.1 (cosAt_near hi)
  rw [angle_eq]
  refine nearReal_of_scaled (D := 2 ^ 130) (w := 2 ^ fxBits * Real.cos (angle i)) (by positivity) ?_ ?_ ?_
  · rw [fxBits]
    ring
  · linarith
  · linarith

end Sys2Proof.Machine
end

section
/-! The kernel points of `tanh` (R101, R102): what the exponential series in fixed point computes, and that the points are rounded to the
nearest. -/

open Sys2Proof
namespace Sys2Proof.Machine

/-! ### The exponential in fixed point -/

/-- The first `k` terms of the exponential series from the `i`-th on. -/
noncomputable def expTaylor (k : Nat) (u : ℝ) (i : Nat) : ℝ := ∑ m ∈ Finset.range k, u ^ (i + m) / (i + m).factorial

theorem expTaylor_succ (k : Nat) (u : ℝ) (i : Nat) : expTaylor (k + 1) u i = u ^ i / i.factorial + expTaylor k u (i + 1) := by
  rw [expTaylor, Finset.sum_range_succ', add_comm, add_zero, expTaylor]
  refine congrArg _ (Finset.sum_congr rfl fun m _ => ?_)
  rw [show i + (m + 1) = i + 1 + m by omega]

theorem fxTerm_succ (u : ℝ) (i : Nat) : fxTerm u (i + 1) = fxTerm u i * u / (i + 1 : ℕ) := by
  unfold fxTerm
  rw [Nat.factorial_succ, pow_succ]
  push_cast
  field_simp

/-- A term made of the one before, each division truncated: never too great, and too small by two more at most. -/
theorem expTerm_bounds {t U i : Nat} {T ε u : ℝ} (hU : (U : ℝ) / 2 ^ fxBits = u) (hu : u ≤ 1) (hlo : (t : ℝ) ≤ T) (hhi : T ≤ t + ε) :
    ((t * U / 2 ^ fxBits / (i + 1) : ℕ) : ℝ) ≤ T * u / (i + 1 : ℕ) ∧
      T * u / (i + 1 : ℕ) ≤ ((t * U / 2 ^ fxBits / (i + 1) : ℕ) : ℝ) + (ε + 2) := by
  have hu0 : 0 ≤ u := by rw [← hU]; positivity
  have hd : (1 : ℝ) ≤ (i + 1 : ℕ) := by exact_mod_cast Nat.succ_le_succ (Nat.zero_le i)
  have hd0 : (0 : ℝ) < (i + 1 : ℕ) := by linarith
  obtain ⟨hl1, hu1⟩ := nat_div_bounds (t * U) (Nat.two_pow_pos fxBits)
  obtain ⟨hl2, hu2⟩ := nat_div_bounds (t * U / 2 ^ fxBits) (Nat.succ_pos i)
  have hprod : ((t * U : ℕ) : ℝ) / (2 ^ fxBits : ℕ) = t * u := by rw [← hU]; push_cast; ring
  rw [hprod] at hl1 hu1
  have htu : (t : ℝ) * u ≤ T * u := mul_le_mul_of_nonneg_right hlo hu0
  have hTu : T * u ≤ t * u + ε := by nlinarith
  constructor
  · exact hu2.trans (div_le_div_of_nonneg_right (hu1.trans htu) hd0.le)
  · have hε : (0 : ℝ) ≤ ε := by linarith
    have hstep : T * u / (i + 1 : ℕ) ≤ ((t * U / 2 ^ fxBits : ℕ) : ℝ) / (i + 1 : ℕ) + (ε + 1) := by
      rw [div_add' _ _ _ hd0.ne']
      refine div_le_div_of_nonneg_right ?_ hd0.le
      nlinarith
    linarith

/-- What the series in fixed point leaves of the finite sums. -/
theorem expSeries_bounds (k : Nat) {t U i : Nat} {ε u : ℝ} (hU : (U : ℝ) / 2 ^ fxBits = u) (hu : u ≤ 1) (hlo : (t : ℝ) ≤ fxTerm u i)
    (hhi : fxTerm u i ≤ t + ε) :
    (expSeries k t U i : ℝ) ≤ 2 ^ fxBits * expTaylor k u i ∧ 2 ^ fxBits * expTaylor k u i ≤ expSeries k t U i + (k * ε + k ^ 2) := by
  induction k generalizing t i ε with
  | zero => simp [expSeries, expTaylor]
  | succ k ih =>
    obtain ⟨hl, hh⟩ := expTerm_bounds (i := i) hU hu hlo hhi
    rw [← fxTerm_succ] at hl hh
    obtain ⟨ihl, ihh⟩ := ih hl hh
    rw [expSeries, expTaylor_succ, mul_add]
    change (t : ℝ) ≤ 2 ^ fxBits * (u ^ i / i.factorial) at hlo
    change 2 ^ fxBits * (u ^ i / i.factorial) ≤ (t : ℝ) + ε at hhi
    push_cast at ihl ihh ⊢
    constructor <;> linarith

/-! ### The points -/

/-- The exponential series at a point. -/
def expAt (i : Nat) : Nat := expSeries 40 (2 ^ fxBits) (i * 2 ^ fxBits / 256) 0

theorem expAt_bounds {i : Nat} (hi : i ≤ 256) :
    (expAt i : ℝ) ≤ 2 ^ fxBits * Real.exp (i / 256) ∧ 2 ^ fxBits * Real.exp (i / 256) ≤ expAt i + 2 ^ 100 := by
  have hu0 : (0 : ℝ) ≤ i / 256 := by positivity
  have hu : (i : ℝ) / 256 ≤ 1 := by
    rw [div_le_one (by norm_num)]
    exact_mod_cast hi
  have hU : ((i * 2 ^ fxBits / 256 : ℕ) : ℝ) / 2 ^ fxBits = i / 256 := by
    have hdvd : 256 ∣ i * 2 ^ fxBits := Dvd.dvd.mul_left (pow_dvd_pow 2 (show 8 ≤ fxBits by decide)) i
    rw [Nat.cast_div hdvd (by norm_num)]
    push_cast
    field_simp
  have hF : (0 : ℝ) < 2 ^ fxBits := by positivity
  obtain ⟨hlo, hhi⟩ := expSeries_bounds 40 (t := 2 ^ fxBits) (i := 0) (ε := 0) hU hu (by simp [fxTerm]) (by simp [fxTerm])
  have hsum : expTaylor 40 (i / 256) 0 = ∑ m ∈ Finset.range 40, ((i : ℝ) / 256) ^ m / m.factorial :=
    Finset.sum_congr rfl fun m _ => by rw [zero_add]
  rw [hsum] at hlo hhi
  have hexp := Real.exp_bound' hu0 hu (n := 40) (by decide)
  have hrem : 2 ^ fxBits * (((i : ℝ) / 256) ^ 40 * ((40 : ℕ) + 1) / ((Nat.factorial 40) * (40 : ℕ))) ≤ 2 ^ 10 := by
    calc 2 ^ fxBits * (((i : ℝ) / 256) ^ 40 * ((40 : ℕ) + 1) / ((Nat.factorial 40) * (40 : ℕ)))
        ≤ 2 ^ fxBits * (1 ^ 40 * ((40 : ℕ) + 1) / ((Nat.factorial 40) * (40 : ℕ))) := by gcongr
      _ ≤ 2 ^ 10 := by norm_num [fxBits, Nat.factorial]
  constructor
  · exact hlo.trans (mul_le_mul_of_nonneg_left (Real.sum_le_exp_of_nonneg hu0 40) hF.le)
  · calc 2 ^ fxBits * Real.exp (i / 256) ≤ _ := mul_le_mul_of_nonneg_left hexp hF.le
      _ ≤ (expAt i + ((40 : ℕ) * 0 + (40 : ℕ) ^ 2)) + 2 ^ 10 := by
          rw [mul_add]
          exact add_le_add hhi hrem
      _ ≤ expAt i + 2 ^ 100 := by
          push_cast
          linarith

/-- All that is within `2 ^ 100` above the series rounds to the point. -/
theorem expAt_decides : ((List.range 257).all fun i => i == 0 ||
    decide (2 * kernPoint .tanh i * (i * (expAt i + 2 ^ 160)) + 2 ^ 200 ≤ 2 ^ 40 * expAt i + i * (expAt i + 2 ^ 160)) &&
    decide (2 ^ 40 * (expAt i + 2 ^ 100) ≤ (2 * kernPoint .tanh i + 1) * (i * (expAt i + 2 ^ 100 + 2 ^ 160)) + 2 ^ 200) &&
    decide ((2 * kernPoint .tanh i + 1) * i ≤ 2 ^ 40)) = true := by
  decide +kernel

theorem tanh_half (u : ℝ) : Real.tanh (u / 2) = (Real.exp u - 1) / (Real.exp u + 1) := by
  have hsq : Real.exp u = Real.exp (u / 2) * Real.exp (u / 2) := by rw [← Real.exp_add, add_halves]
  have hne := Real.exp_pos (u / 2)
  rw [Real.tanh_eq_sinh_div_cosh, Real.sinh_eq, Real.cosh_eq, Real.exp_neg, hsq]
  field_simp

theorem kernPoint_tanh_near {i : Nat} (h0 : 0 < i) (hi : i ≤ 256) :
    NearReal (kernPoint .tanh i) (Real.tanh (i / 256 / 2) / (i / 256 / 2)) := by
  have hir : (0 : ℝ) < i := by exact_mod_cast h0
  have hdec := List.all_eq_true.1 expAt_decides i (List.mem_range.2 (by omega))
  rw [Bool.or_eq_true, beq_iff_eq, or_iff_right h0.ne', Bool.and_eq_true, Bool.and_eq_true, decide_eq_true_eq, decide_eq_true_eq,
    decide_eq_true_eq] at hdec
  obtain ⟨⟨hlo, hhi⟩, hslope⟩ := hdec
  have hlo : 2 * (kernPoint .tanh i : ℝ) * (i * (expAt i + 2 ^ 160)) + 2 ^ 200 ≤ 2 ^ 40 * expAt i + i * (expAt i + 2 ^ 160) := by
    exact_mod_cast hlo
  have hhi : 2 ^ 40 * ((expAt i : ℝ) + 2 ^ 100) ≤ (2 * kernPoint .tanh i + 1) * (i * (expAt i + 2 ^ 100 + 2 ^ 160)) + 2 ^ 200 := by
    exact_mod_cast hhi
  have hslope : (2 * (kernPoint .tanh i : ℝ) + 1) * i ≤ 2 ^ 40 := by exact_mod_cast hslope
  obtain ⟨he1, he2⟩ := expAt_bounds hi
  have hE := Real.exp_pos ((i : ℝ) / 256)
  rw [tanh_half]
  refine nearReal_of_scaled (D := i * (2 ^ fxBits * Real.exp (i / 256) + 2 ^ 160))
    (w := 2 ^ 39 * (2 ^ fxBits * Real.exp (i / 256) - 2 ^ 160)) (by positivity) ?_ ?_ ?_
  · rw [fxBits]
    field_simp
    ring
  · generalize 2 ^ fxBits * Real.exp ((i : ℝ) / 256) = G at *
    have hslope' : (2 * (kernPoint .tanh i : ℝ) - 1) * i ≤ 2 ^ 40 := by linarith
    have := mul_le_mul_of_nonneg_right hslope' (sub_nonneg.2 he1)
    linarith
  · generalize 2 ^ fxBits * Real.exp ((i : ℝ) / 256) = G at *
    have := mul_le_mul_of_nonneg_right hslope (sub_nonneg.2 he2)
    linarith

/-- The points of the kernels that are functions of the reals are the nearest integers. -/
theorem kernPoint_real_near {i : Nat} (h0 : 0 < i) (hi : i ≤ 256) :
    NearReal (kernPoint .log2 i) (Real.logb 2 (1 + i / 256) / (i / 256)) ∧
    NearReal (kernPoint .sin i) (Real.sin (Real.pi * (i / 256) / 2) / (i / 256)) ∧
    NearReal (kernPoint .cos i) (Real.cos (Real.pi * (i / 256) / 2)) ∧
    NearReal (kernPoint .tanh i) (Real.tanh (i / 256 / 2) / (i / 256 / 2)) :=
  ⟨kernPoint_log2_near h0 hi, kernPoint_sin_near h0 hi, kernPoint_cos_near h0 hi, kernPoint_tanh_near h0 hi⟩

end Sys2Proof.Machine
end

section
/-! The reduced arguments of the transcendentals (R102): each value that the model rounds, over the kernel. -/

open Sys2Proof
namespace Sys2Proof.Machine

/-! ### Exact values -/

/-- The rational number of an exact value of the model. -/
def ExactZ.value (z : ExactZ) : ℚ := z.num / z.den * 2 ^ z.exp

theorem FloatFmt.gives_exact {f : FloatFmt} (hf : f.Regular) (a : Arith) {z : ExactZ} (hd : 0 < z.den) :
    f.Gives a z.value false (f.round a (decide (z.num < 0)) z.num.natAbs z.den z.exp) := by
  have hdq : (0 : ℚ) < z.den := by exact_mod_cast hd
  have habs : (z.num : ℚ) = (if decide (z.num < 0) then -1 else 1) * z.num.natAbs := by
    obtain h | h := lt_or_ge z.num 0
    · rw [decide_eq_true h, if_pos rfl, neg_one_mul, Nat.cast_natAbs, abs_of_neg h]
      push_cast
      ring
    · rw [decide_eq_false (not_lt.2 h), if_neg Bool.false_ne_true, one_mul, Nat.cast_natAbs, abs_of_nonneg h]
  refine (gives_round hf hd (v := z.value) ?_).zero_sign fun hz => ?_
  · rw [ExactZ.value, habs]
    ring
  · have hnum : z.num = 0 := by
      rw [ExactZ.value, mul_eq_zero, or_iff_left (zpow_two_pos _).ne', div_eq_zero_iff, or_iff_left hdq.ne'] at hz
      exact_mod_cast hz
    rw [hnum]
    rfl

/-- The kernel as a rational number (R101). -/
def kernelAt (k : Kern) (m n : Nat) : ℚ := kernel k m n / 2 ^ 62

theorem value_scaled (c : ℤ) (e : ℤ) : (⟨c, 1, e - 62⟩ : ExactZ).value = c / 2 ^ 62 * 2 ^ e := by
  have h62 : (2 : ℚ) ^ (62 : ℤ) = 2 ^ 62 := zpow_ofNat 2 62
  rw [ExactZ.value, zpow_sub₀ two_ne_zero, h62, Nat.cast_one]
  ring

theorem value_kernel (k : Kern) (r n : Nat) (e : ℤ) : (⟨kernel k r n, 1, e - 62⟩ : ExactZ).value = kernelAt k r n * 2 ^ e :=
  value_scaled _ e

theorem value_mul_kernel (c : ℤ) (k : Kern) (r n : Nat) (e : ℤ) :
    (⟨c * kernel k r n, 1, e - 62⟩ : ExactZ).value = c * kernelAt k r n * 2 ^ e := by
  rw [value_scaled, kernelAt, Int.cast_mul, mul_div_assoc]

/-! ### The arguments -/

/-- A magnitude as `(1 + u) * 2 ^ e`. -/
theorem normalise_spec {m : Nat} (hm : m ≠ 0) (g : ℤ) :
    (normalise m g).1 < 2 ^ (normalise m g).2.1 ∧
      (m : ℚ) * 2 ^ g = (1 + (normalise m g).1 / 2 ^ (normalise m g).2.1) * 2 ^ (normalise m g).2.2 := by
  have hlo : 2 ^ Nat.log2 m ≤ m := Nat.log2_self_le hm
  have hhi : m < 2 ^ (Nat.log2 m + 1) := Nat.lt_log2_self
  rw [pow_succ] at hhi
  change m - 2 ^ Nat.log2 m < 2 ^ Nat.log2 m ∧
    (m : ℚ) * 2 ^ g = (1 + ((m - 2 ^ Nat.log2 m : ℕ) : ℚ) / 2 ^ Nat.log2 m) * 2 ^ (g + (Nat.log2 m : ℤ))
  refine ⟨by omega, ?_⟩
  rw [Nat.cast_sub hlo, zpow_two_add, zpow_natCast]
  push_cast
  field_simp
  ring

/-- A number by its floor and its fraction. -/
theorem floorFrac_spec (neg : Bool) (m : Nat) (e : ℤ) :
    (floorFrac neg m e).2.1 < 2 ^ (floorFrac neg m e).2.2 ∧
      (FVal.num neg m e).value = (floorFrac neg m e).1 + (floorFrac neg m e).2.1 / 2 ^ (floorFrac neg m e).2.2 := by
  have hsign : ((if neg then -(m : ℤ) else m : ℤ) : ℚ) = (if neg then -1 else 1) * m := by cases neg <;> simp
  cases e with
  | ofNat e =>
    refine ⟨Nat.two_pow_pos _, ?_⟩
    rw [FVal.value_num, floorFrac, Int.ofNat_eq_natCast, zpow_natCast]
    cases neg <;> simp
  | negSucc e =>
    have hd : (0 : ℤ) < 2 ^ (e + 1) := by positivity
    rw [FVal.value_num, ← hsign, floorFrac]
    generalize (if neg = true then -(m : ℤ) else m) = v
    rw [Int.fdiv_eq_ediv_of_nonneg _ hd.le]
    have hr : v - v / 2 ^ (e + 1) * 2 ^ (e + 1) = v % 2 ^ (e + 1) := by
      rw [mul_comm, ← Int.emod_def]
    have hr0 := Int.emod_nonneg v hd.ne'
    have hr1 := Int.emod_lt_of_pos v hd
    have hcast : ((v % 2 ^ (e + 1)).toNat : ℤ) = v % 2 ^ (e + 1) := Int.toNat_of_nonneg hr0
    simp only [hr]
    constructor
    · zify
      rwa [hcast]
    · have hv : (v : ℚ) = v / 2 ^ (e + 1) * 2 ^ (e + 1) := by field_simp
      have hq : (((v % 2 ^ (e + 1)).toNat : ℕ) : ℚ) = (v % 2 ^ (e + 1) : ℤ) := by exact_mod_cast congrArg (Int.cast (R := ℚ)) hcast
      have hdecomp : (v : ℚ) = (v / 2 ^ (e + 1) : ℤ) * 2 ^ (e + 1) + (v % 2 ^ (e + 1) : ℤ) := by
        exact_mod_cast (Int.ediv_mul_add_emod v (2 ^ (e + 1))).symm
      rw [hq, zpow_negSucc]
      field_simp
      linarith

/-! ### The functions -/

/-- The value `z` is the two's power of `v` over its kernel (R102). -/
def Exp2Is (v z : ℚ) : Prop := ∃ (i : ℤ) (m n : Nat), m < 2 ^ n ∧ v = i + m / 2 ^ n ∧ z = kernelAt .exp2 m n * 2 ^ i

theorem exp2Is_zExp2 (neg : Bool) (m : Nat) (e : ℤ) : Exp2Is (FVal.num neg m e).value (zExp2 neg m e).value := by
  obtain ⟨hlt, hv⟩ := floorFrac_spec neg m e
  refine ⟨_, _, _, hlt, hv, value_kernel .exp2 _ _ _⟩

theorem zExp2_num_nonneg (neg : Bool) (m : Nat) (e : ℤ) : 0 ≤ (zExp2 neg m e).num := kernel_exp2_nonneg (floorFrac_spec neg m e).1

/-- The quadrant table of R102. -/
def QuadrantIs (q i w : Nat) (z : ℚ) : Prop :=
  let sin := i / 2 ^ w * kernelAt .sin i w
  let cos := kernelAt .cos i w
  match q % 4 with
  | 0 => z = sin
  | 1 => z = cos
  | 2 => z = -sin
  | _ => z = -cos

theorem ExactZ.value_neg (n : ℤ) (d : Nat) (e : ℤ) : (⟨-n, d, e⟩ : ExactZ).value = -(⟨n, d, e⟩ : ExactZ).value := by
  simp only [ExactZ.value]
  push_cast
  ring

theorem value_sin (r k : Nat) : (⟨kernel .sin r k * r, 1, -62 - (k : ℤ)⟩ : ExactZ).value = r / 2 ^ k * kernelAt .sin r k := by
  have hexp : -62 - (k : ℤ) = -(k : ℤ) - 62 := by ring
  rw [hexp, mul_comm (kernel .sin r k), value_mul_kernel, zpow_neg, zpow_natCast, Int.cast_natCast]
  ring

theorem value_cos (r k : Nat) : (⟨kernel .cos r k, 1, -62⟩ : ExactZ).value = kernelAt .cos r k := by
  have h := value_kernel .cos r k 0
  rwa [zpow_zero, mul_one, zero_sub] at h

theorem quadrantIs_quadrant (isCos : Bool) (q r k : Nat) : QuadrantIs (if isCos then q + 1 else q) r k (quadrant isCos q r k).value := by
  unfold QuadrantIs quadrant
  have hlt : (if isCos then q + 1 else q) % 4 < 4 := Nat.mod_lt _ (by decide)
  generalize (if isCos then q + 1 else q) % 4 = j at *
  match j, hlt with
  | 0, _ => exact value_sin r k
  | 1, _ => exact value_cos r k
  | 2, _ => exact (ExactZ.value_neg _ _ _).trans (congrArg Neg.neg (value_sin r k))
  | 3, _ => exact (ExactZ.value_neg _ _ _).trans (congrArg Neg.neg (value_cos r k))

theorem quadrant_den (isCos : Bool) (q r k : Nat) : (quadrant isCos q r k).den = 1 := by
  unfold quadrant
  split <;> exact rfl

theorem zSinCos_den_pos (isCos neg : Bool) (m : Nat) (e : ℤ) : 0 < (zSinCos isCos neg m e).den := by
  unfold zSinCos
  rw [quadrant_den]
  exact one_pos

theorem zSinCos_spec (isCos neg : Bool) (m : Nat) (e : ℤ) : ∃ (j : ℤ) (q i w : Nat), q < 4 ∧ i < 2 ^ w ∧
    2 * (FVal.num neg m e).value = 4 * j + q + i / 2 ^ w ∧ QuadrantIs (if isCos then q + 1 else q) i w (zSinCos isCos neg m e).value := by
  obtain ⟨hlt, hv⟩ := floorFrac_spec neg m (e + 1)
  have hdouble : (FVal.num neg m (e + 1)).value = 2 * (FVal.num neg m e).value := by
    rw [FVal.value_num, FVal.value_num, zpow_two_add, zpow_one]
    ring
  set n := (floorFrac neg m (e + 1)).1 with hn
  have hq : ((n % 4).toNat : ℤ) = n % 4 := Int.toNat_of_nonneg (Int.emod_nonneg _ (by decide))
  have hsplit : (n : ℚ) = 4 * (n / 4 : ℤ) + ((n % 4).toNat : ℕ) := by
    have h : n = 4 * (n / 4) + ((n % 4).toNat : ℤ) := by rw [hq]; exact (Int.mul_ediv_add_emod n 4).symm
    exact_mod_cast congrArg (Int.cast (R := ℚ)) h
  refine ⟨n / 4, (n % 4).toNat, _, _, by omega, hlt, ?_, quadrantIs_quadrant isCos _ _ _⟩
  rw [← hdouble, hv, hsplit]

end Sys2Proof.Machine
end

section
/-! The value that each transcendental rounds (R102), function by function. -/

open Sys2Proof
namespace Sys2Proof.Machine

/-! ### `tanh` -/

/-- A magnitude below a power of two in the format's range is not rounded to an overflow. -/
theorem FloatFmt.Rounds.stands {f : FloatFmt} (hf : f.Regular) {a : Arith} {neg : Bool} {x : ℚ} {r : Nat × FlagSet} (h : f.Rounds a neg x r)
    {T : ℤ} (hx : x < 2 ^ T) (hT : T ≤ f.emax) : ∃ y, f.Stands r.1 neg y := by
  obtain ⟨E, y, hlo, hhi, hy, hr⟩ := h
  have hE : E + 1 ≤ T := (zpow_lt_zpow_iff_right₀ one_lt_two).1 (hlo.trans_lt hx)
  have htop : (2 : ℚ) ^ f.emax ≤ f.top := (significand_bounds hf.maxSig_bounds.1 hf.maxSig_bounds.2).1
  have hyt : y ≤ f.top := ((hy.le_next hhi).trans (zpow_le_zpow_right₀ one_le_two (hE.trans hT))).trans htop
  rw [if_neg (not_lt.2 hyt)] at hr
  split at hr
  · split at hr
    · exact ⟨0, hr.1⟩
    · obtain ⟨z, -, hz, -⟩ := hr
      exact ⟨z, hz⟩
  · exact ⟨y, hr.1⟩

/-- The argument of the exponential of `tanh`, rounded to the nearest in `.f32`. -/
def tanhArgument (m : Nat) (e : ℤ) : Nat × FlagSet := fmt32.round ⟨.rne, false, false, false, false⟩ false (m * 0xB8AA3B) 1 (e - 22)

theorem tanhArgument_gives (m : Nat) (e : ℤ) :
    fmt32.Gives ⟨.rne, false, false, false, false⟩ (m * 2 ^ e * (0xB8AA3B / 2 ^ 22)) false (tanhArgument m e) := by
  refine FloatFmt.gives_round fmt32_regular one_pos ?_
  have h22 : (2 : ℚ) ^ (22 : ℤ) = 2 ^ 22 := zpow_ofNat 2 22
  rw [zpow_sub₀ two_ne_zero, h22, if_neg Bool.false_ne_true]
  push_cast
  ring

/-- Below 9 the argument is a number. -/
theorem tanhArgument_num {m : Nat} (hm : m ≠ 0) {e : ℤ} (h9 : (m : ℚ) * 2 ^ e < 9) :
    ∃ km ke, fmt32.decode (tanhArgument m e).1 = .num false km ke := by
  have hpos : (0 : ℚ) < m * 2 ^ e := by
    have := Nat.pos_of_ne_zero hm
    positivity
  have hx : (0 : ℚ) < m * 2 ^ e * (0xB8AA3B / 2 ^ 22) := by positivity
  have hr := (tanhArgument_gives m e).2 hx.ne'
  rw [abs_of_pos hx, decide_eq_false (not_lt.2 hx.le)] at hr
  have hlt : (m : ℚ) * 2 ^ e * (0xB8AA3B / 2 ^ 22) < 2 ^ (5 : ℤ) := by
    norm_num
    linarith
  obtain ⟨y, -, km, ke, hdec, -⟩ := hr.stands fmt32_regular hlt (by decide)
  exact ⟨km, ke, hdec⟩

/-- The value `z` of `tanh` (R102). -/
def TanhIs (neg : Bool) (v z : ℚ) : Prop :=
  if |v| < 1 / 2 then ∃ i w : Nat, i < 2 ^ w ∧ 2 * |v| = i / 2 ^ w ∧ z = v * kernelAt .tanh i w
  else ∃ (c : Nat × FlagSet) (E : ℚ), fmt32.Gives ⟨.rne, false, false, false, false⟩ (|v| * (0xB8AA3B / 2 ^ 22)) false c ∧
    Exp2Is (-(fmt32.decode c.1).value) E ∧ z = (if neg then -1 else 1) * ((1 - E) / (1 + E))

theorem cmpMag_lt (m1 : Nat) (e1 : ℤ) (m2 : Nat) (e2 : ℤ) : (cmpMag m1 e1 m2 e2 == .lt) = decide ((m1 : ℚ) * 2 ^ e1 < m2 * 2 ^ e2) := by
  rw [cmpMag_eq, Bool.eq_iff_iff, beq_iff_eq, decide_eq_true_eq, compare_lt_iff_lt]

/-- The branches of `tanh`. -/
theorem zTanh_small {neg : Bool} {m : Nat} {e : ℤ} (h : (m : ℚ) * 2 ^ e < 1 / 2) : zTanh neg m e =
    (⟨(if neg then -1 else 1) * kernel .tanh (floorFrac false m (e + 1)).2.1 (floorFrac false m (e + 1)).2.2 * m, 1, e - 62⟩, false) := by
  have hc : (cmpMag m e 1 (-1) == .lt) = true := by
    rw [cmpMag_lt, decide_eq_true_eq]
    simpa using h
  unfold zTanh
  rw [if_pos hc]

theorem zTanh_large {neg : Bool} {m : Nat} {e : ℤ} (h : ¬ (m : ℚ) * 2 ^ e < 9) : zTanh neg m e = (⟨if neg then -1 else 1, 1, 0⟩, true) := by
  have hc : ¬ (cmpMag m e 1 (-1) == .lt) = true := by
    rw [cmpMag_lt, decide_eq_true_eq]
    intro hlt
    norm_num at hlt
    linarith
  have hc9 : ¬ (cmpMag m e 9 0 == .lt) = true := by
    rw [cmpMag_lt, decide_eq_true_eq]
    simpa using h
  unfold zTanh
  rw [if_neg hc, if_neg hc9]

/-- The quotient of `tanh` over the rounded argument. -/
def tanhQuotient (neg : Bool) (km : Nat) (ke : ℤ) : ExactZ :=
  let p := scaleRat (zExp2 true km ke).num.toNat 1 (zExp2 true km ke).exp
  ⟨(if neg then -1 else 1) * ((p.2 : ℤ) - p.1), p.2 + p.1, 0⟩

theorem zTanh_middle {neg : Bool} {m : Nat} {e : ℤ} (h : ¬ (m : ℚ) * 2 ^ e < 1 / 2) (h9 : (m : ℚ) * 2 ^ e < 9) {kn : Bool} {km : Nat} {ke : ℤ}
    (hk : fmt32.decode (tanhArgument m e).1 = .num kn km ke) :
    zTanh neg m e = (tanhQuotient neg km ke, false) := by
  have hc : ¬ (cmpMag m e 1 (-1) == .lt) = true := by
    rw [cmpMag_lt, decide_eq_true_eq]
    simpa using h
  have hc9 : (cmpMag m e 9 0 == .lt) = true := by
    rw [cmpMag_lt, decide_eq_true_eq]
    simpa using h9
  have harg : fmt32.round ⟨.rne, false, false, false, false⟩ false (m * 0xB8AA3B) 1 (e - 22) = tanhArgument m e := rfl
  unfold zTanh
  rw [if_neg hc, if_pos hc9, harg]
  clear harg
  generalize tanhArgument m e = c at hk ⊢
  obtain ⟨kc, fl⟩ := c
  simp only [hk]
  unfold tanhQuotient
  generalize scaleRat (zExp2 true km ke).num.toNat 1 (zExp2 true km ke).exp = p
  exact rfl

theorem tanhQuotient_spec (neg : Bool) (km : Nat) (ke : ℤ) : 0 < (tanhQuotient neg km ke).den ∧ ∃ E,
    Exp2Is (-(FVal.num false km ke).value) E ∧ (tanhQuotient neg km ke).value = (if neg then -1 else 1) * ((1 - E) / (1 + E)) := by
  have hneg : (FVal.num true km ke).value = -(FVal.num false km ke).value := by simp
  have hexp := exp2Is_zExp2 true km ke
  rw [hneg] at hexp
  have hnum : (((zExp2 true km ke).num.toNat : ℕ) : ℚ) = (zExp2 true km ke).num := by
    exact_mod_cast congrArg (Int.cast (R := ℚ)) (Int.toNat_of_nonneg (zExp2_num_nonneg true km ke))
  have hden : (zExp2 true km ke).den = 1 := rfl
  have hE : (zExp2 true km ke).value = (zExp2 true km ke).num.toNat / (1 : ℕ) * 2 ^ (zExp2 true km ke).exp := by
    rw [ExactZ.value, hnum, hden]
  have hs := scaleRat_value (zExp2 true km ke).num.toNat 1 (zExp2 true km ke).exp
  have hpos := scaleRat_den_pos one_pos (zExp2 true km ke).num.toNat (zExp2 true km ke).exp
  rw [← hE] at hs
  unfold tanhQuotient ExactZ.value
  generalize scaleRat (zExp2 true km ke).num.toNat 1 (zExp2 true km ke).exp = p at *
  have hb : (0 : ℚ) < p.2 := by exact_mod_cast hpos
  have ha : (0 : ℚ) ≤ p.1 := by positivity
  refine ⟨Nat.add_pos_left hpos _, _, hexp, ?_⟩
  rw [← hs, zpow_zero, mul_one]
  have hsum : (p.2 : ℚ) + p.1 ≠ 0 := by positivity
  have hsum' : 1 + (p.1 : ℚ) / p.2 ≠ 0 := by positivity
  push_cast
  field_simp

theorem zTanh_spec {neg : Bool} {m : Nat} {e : ℤ} (hm : m ≠ 0) (h9 : (m : ℚ) * 2 ^ e < 9) :
    (zTanh neg m e).2 = false ∧ 0 < (zTanh neg m e).1.den ∧ TanhIs neg (FVal.num neg m e).value (zTanh neg m e).1.value := by
  unfold TanhIs
  rw [FVal.abs_value_num]
  by_cases h : (m : ℚ) * 2 ^ e < 1 / 2
  · rw [if_pos h, zTanh_small h]
    refine ⟨rfl, one_pos, _, _, (floorFrac_spec false m (e + 1)).1, ?_, ?_⟩
    · obtain ⟨hlt, hv⟩ := floorFrac_spec false m (e + 1)
      have hdouble : (FVal.num false m (e + 1)).value = 2 * (m * 2 ^ e) := by
        rw [FVal.value_num, if_neg Bool.false_ne_true, zpow_two_add, zpow_one]
        ring
      rw [hdouble] at hv
      generalize (floorFrac false m (e + 1)).1 = n at *
      generalize (floorFrac false m (e + 1)).2.1 = i at *
      generalize (floorFrac false m (e + 1)).2.2 = w at *
      have hi0 : (0 : ℚ) ≤ i / 2 ^ w := by positivity
      have hi1 : (i : ℚ) / 2 ^ w < 1 := by
        rw [div_lt_one (by positivity)]
        exact_mod_cast hlt
      have hpos : (0 : ℚ) ≤ m * 2 ^ e := by positivity
      have hlo : (-1 : ℚ) < n := by linarith
      have hhi : (n : ℚ) < 1 := by linarith
      have hn : n = 0 := by
        have h1 : -1 < n := by exact_mod_cast hlo
        have h2 : n < 1 := by exact_mod_cast hhi
        omega
      rw [hv, hn, Int.cast_zero, zero_add]
    · rw [value_scaled, FVal.value_num, kernelAt]
      push_cast
      ring
  · rw [if_neg h]
    obtain ⟨km, ke, hdec⟩ := tanhArgument_num hm h9
    obtain ⟨hd, E, hE, hz⟩ := tanhQuotient_spec neg km ke
    rw [zTanh_middle h h9 hdec]
    exact ⟨rfl, hd, _, E, tanhArgument_gives m e, by rw [hdec]; exact hE, hz⟩

/-! ### All functions -/

/-- The value `z` that a transcendental rounds for the operand `v` (R102). -/
def ReducedIs (k : Trans) (neg : Bool) (v z : ℚ) : Prop :=
  ∃ (m n : Nat) (e : ℤ), m < 2 ^ n ∧ |v| = (1 + m / 2 ^ n) * 2 ^ e ∧
    match k with
    | .rcp => z = (if neg then -1 else 1) * kernelAt .rcp m n * 2 ^ (-e)
    | .rsq => z = kernelAt (if e % 2 = 0 then .rsqEven else .rsqOdd) m n * 2 ^ (-(e / 2))
    | .sqrt => z = kernelAt (if e % 2 = 0 then .sqrtEven else .sqrtOdd) m n * 2 ^ (e / 2)
    | .exp2 => Exp2Is v z
    | .log2 => z = e + m / 2 ^ n * kernelAt .log2 m n
    | .sinpi | .cospi => ∃ (j : ℤ) (q i w : Nat), q < 4 ∧ i < 2 ^ w ∧ 2 * v = 4 * j + q + i / 2 ^ w ∧
        QuadrantIs (if k = .sinpi then q else q + 1) i w z
    | .tanh => TanhIs neg v z

theorem value_log2 (e : ℤ) (r k : Nat) : (⟨e * 2 ^ (62 + k) + r * kernel .log2 r k, 1, -62 - (k : ℤ)⟩ : ExactZ).value =
    e + r / 2 ^ k * kernelAt .log2 r k := by
  have hexp : -62 - (k : ℤ) = -(k : ℤ) - 62 := by ring
  rw [hexp, value_scaled, zpow_neg, zpow_natCast, kernelAt]
  generalize kernel .log2 r k = K
  push_cast
  rw [pow_add]
  field_simp

theorem transZ_spec {k : Trans} {neg : Bool} {m : Nat} {g : ℤ} (hm : m ≠ 0) (h9 : k = .tanh → (m : ℚ) * 2 ^ g < 9) :
    (transZ k neg m g).2 = false ∧ 0 < (transZ k neg m g).1.den ∧ ReducedIs k neg (FVal.num neg m g).value (transZ k neg m g).1.value := by
  obtain ⟨hlt, hv⟩ := normalise_spec hm g
  have hsign : ((if neg then -1 else 1 : ℤ) : ℚ) = if neg then -1 else 1 := by cases neg <;> simp
  have habs := (FVal.abs_value_num neg m g).trans hv
  have hhalf : Int.fdiv (normalise m g).2.2 2 = (normalise m g).2.2 / 2 := Int.fdiv_eq_ediv_of_nonneg _ (by decide)
  have hparity (a b : Kern) : (if (normalise m g).2.2 % 2 == 0 then a else b) = if (normalise m g).2.2 % 2 = 0 then a else b := by simp
  cases k with
  | rcp =>
    refine ⟨rfl, one_pos, _, _, _, hlt, habs, ?_⟩
    have hexp : -62 - (normalise m g).2.2 = -(normalise m g).2.2 - 62 := by ring
    have h := value_mul_kernel (if neg then -1 else 1) .rcp (normalise m g).1 (normalise m g).2.1 (-(normalise m g).2.2)
    rwa [hsign, ← hexp] at h
  | rsq =>
    refine ⟨rfl, one_pos, _, _, _, hlt, habs, ?_⟩
    have hexp : -62 - Int.fdiv (normalise m g).2.2 2 = -((normalise m g).2.2 / 2) - 62 := by rw [hhalf]; ring
    have h := value_kernel (if (normalise m g).2.2 % 2 == 0 then .rsqEven else .rsqOdd) (normalise m g).1 (normalise m g).2.1
      (-((normalise m g).2.2 / 2))
    rw [← hexp] at h
    exact h.trans (congrArg (fun K => kernelAt K _ _ * _) (hparity _ _))
  | sqrt =>
    refine ⟨rfl, one_pos, _, _, _, hlt, habs, ?_⟩
    have hexp : -62 + Int.fdiv (normalise m g).2.2 2 = (normalise m g).2.2 / 2 - 62 := by rw [hhalf]; ring
    have h := value_kernel (if (normalise m g).2.2 % 2 == 0 then .sqrtEven else .sqrtOdd) (normalise m g).1 (normalise m g).2.1
      ((normalise m g).2.2 / 2)
    rw [← hexp] at h
    exact h.trans (congrArg (fun K => kernelAt K _ _ * _) (hparity _ _))
  | exp2 => exact ⟨rfl, one_pos, _, _, _, hlt, habs, exp2Is_zExp2 neg m g⟩
  | log2 => exact ⟨rfl, one_pos, _, _, _, hlt, habs, value_log2 _ _ _⟩
  | sinpi => exact ⟨rfl, zSinCos_den_pos false neg m g, _, _, _, hlt, habs, zSinCos_spec false neg m g⟩
  | cospi => exact ⟨rfl, zSinCos_den_pos true neg m g, _, _, _, hlt, habs, zSinCos_spec true neg m g⟩
  | tanh =>
    obtain ⟨h1, h2, h3⟩ := zTanh_spec (neg := neg) hm (h9 rfl)
    exact ⟨h1, h2, _, _, _, hlt, habs, h3⟩

end Sys2Proof.Machine
end

section
/-! The results of the transcendentals (R101 to R103): special operands, and the reduced value rounded once. -/

open Sys2Proof
namespace Sys2Proof.Machine

/-- The arithmetic of a transcendental: to the nearest even whatever the mode, without saturation (R101). -/
def Arith.nearest (s : Arith) : Arith := { s with mode := .rne, sat := false }

/-! ### Special operands (R103) -/

/-- The table of R103 for an infinite operand. -/
def FloatFmt.InfiniteRule (f : FloatFmt) (k : Trans) (neg : Bool) (r : Nat × FlagSet) : Prop :=
  match k with
  | .rcp => f.Stands r.1 neg 0 ∧ r.2 = 0
  | .rsq => if neg then r = (f.canonicalNaN, flagInvalid) else f.Stands r.1 false 0 ∧ r.2 = 0
  | .sqrt | .log2 => if neg then r = (f.canonicalNaN, flagInvalid) else f.Infinite r.1 false ∧ r.2 = 0
  | .exp2 => if neg then f.Stands r.1 false 0 ∧ r.2 = 0 else f.Infinite r.1 false ∧ r.2 = 0
  | .sinpi | .cospi => r = (f.canonicalNaN, flagInvalid)
  | .tanh => f.Stands r.1 neg 1 ∧ r.2 = 0

/-- The table of R103 for a zero operand. -/
def FloatFmt.ZeroRule (f : FloatFmt) (k : Trans) (neg : Bool) (r : Nat × FlagSet) : Prop :=
  match k with
  | .rcp | .rsq => f.Infinite r.1 neg ∧ r.2 = flagDivZero
  | .sqrt | .sinpi | .tanh => f.Stands r.1 neg 0 ∧ r.2 = 0
  | .exp2 | .cospi => f.Stands r.1 false 1 ∧ r.2 = 0
  | .log2 => f.Infinite r.1 true ∧ r.2 = flagDivZero

section
variable {k : Trans} {t : Ty} {s : Arith} {a : Nat} (ht : t ∈ [Ty.f32, Ty.f16, Ty.bf16])
include ht

theorem round_one (neg : Bool) : (tyFloat t).Stands ((tyFloat t).round s.nearest neg 1 1 0).1 neg 1 ∧
    ((tyFloat t).round s.nearest neg 1 1 0).2 = 0 := by
  have hf := tyFloat_regular t
  have hrange : (tyFloat t).emin ≤ 0 ∧ 0 ≤ (tyFloat t).emax := by
    simp only [List.mem_cons, List.not_mem_nil, or_false] at ht
    obtain rfl | rfl | rfl := ht <;> decide
  have h := FloatFmt.rounds_round (a := s.nearest) (neg := neg) hf one_pos one_pos 0
  rw [Nat.cast_one, div_one, zpow_zero, mul_one] at h
  have hemin : (2 : ℚ) ^ (tyFloat t).emin ≤ 1 := by
    have := zpow_le_zpow_right₀ (one_le_two (α := ℚ)) hrange.1
    rwa [zpow_zero] at this
  have htop : 1 ≤ (tyFloat t).top := by
    have hmax := zpow_le_zpow_right₀ (one_le_two (α := ℚ)) hrange.2
    rw [zpow_zero] at hmax
    exact hmax.trans (significand_bounds hf.maxSig_bounds.1 hf.maxSig_bounds.2).1
  exact h.exact (m := 1) (g := 0) (by norm_num) (Nat.one_lt_two_pow (Nat.succ_ne_zero _)) htop (.inl hemin)

theorem resTrans_nan {neg : Bool} {fr fb : Nat} {sn : Bool} (h : rdFloat t s a = .nan neg fr fb sn) :
    resTrans k t s a = ((tyFloat t).picked s.nan [a % 2 ^ (tyFloat t).width], flagIf sn flagInvalid) := by
  have hcode := nanCode_rdFloat ht s [a] false
  rw [List.map_cons, List.map_nil, h] at hcode
  have hv : (tyFloat t).operand s (a % 2 ^ (tyFloat t).width) = .nan neg fr fb sn := h
  unfold resTrans
  simp only [hv]
  exact Prod.ext hcode (by simp [FloatFmt.nanResult, FVal.isSNaN])

theorem resTrans_inf {neg : Bool} (h : rdFloat t s a = .inf neg) : (tyFloat t).InfiniteRule k neg (resTrans k t s a) := by
  have hf := tyFloat_regular t
  have hzero := FloatFmt.stands_zero hf (f := tyFloat t)
  have hinf := FloatFmt.infinite_infinity hf (tyFloat_ieee ht)
  have hv : (tyFloat t).operand s (a % 2 ^ (tyFloat t).width) = .inf neg := h
  unfold resTrans
  simp only [hv]
  cases k with
  | rcp => exact ⟨hzero neg, rfl⟩
  | rsq => cases neg with
    | false => exact ⟨hzero false, rfl⟩
    | true => exact rfl
  | sqrt | log2 => cases neg with
    | false => exact ⟨hinf false, rfl⟩
    | true => exact rfl
  | exp2 => cases neg with
    | false => exact ⟨hinf false, rfl⟩
    | true => exact ⟨hzero false, rfl⟩
  | sinpi | cospi => exact rfl
  | tanh => exact ⟨(round_one ht neg).1, rfl⟩

theorem resTrans_zero {neg : Bool} {e : ℤ} (h : rdFloat t s a = .num neg 0 e) : (tyFloat t).ZeroRule k neg (resTrans k t s a) := by
  have hf := tyFloat_regular t
  have hzero := FloatFmt.stands_zero hf (f := tyFloat t)
  have hinf := FloatFmt.infinite_infinity hf (tyFloat_ieee ht)
  have hv : (tyFloat t).operand s (a % 2 ^ (tyFloat t).width) = .num neg 0 e := h
  unfold resTrans
  simp only [hv, if_pos]
  cases k with
  | rcp | rsq => exact ⟨hinf neg, rfl⟩
  | sqrt | sinpi | tanh => exact ⟨hzero neg, rfl⟩
  | exp2 | cospi => exact ⟨(round_one ht false).1, rfl⟩
  | log2 => exact ⟨hinf true, rfl⟩

/-! ### The reduced value (R102) -/

omit ht in
/-- A nonzero operand: out of the domain of the function, or the value of `transZ` rounded. -/
theorem resTrans_num {neg : Bool} {m : Nat} {e : ℤ} (hm : m ≠ 0) (h : rdFloat t s a = .num neg m e) :
    resTrans k t s a = if neg = true ∧ k ∈ [Trans.rsq, .sqrt, .log2] then ((tyFloat t).canonicalNaN, flagInvalid)
      else
        let z := (transZ k neg m e).1
        let c := (tyFloat t).round s.nearest (decide (z.num < 0)) z.num.natAbs z.den z.exp
        (c.1, c.2 ||| flagIf (transZ k neg m e).2 flagInexact) := by
  have hv : (tyFloat t).operand s (a % 2 ^ (tyFloat t).width) = .num neg m e := h
  have hdom : (neg && (k == .rsq || k == .sqrt || k == .log2)) = true ↔ neg = true ∧ k ∈ [Trans.rsq, .sqrt, .log2] := by
    simp [or_assoc]
  unfold resTrans
  simp only [hv, if_neg hm, hdom]
  generalize transZ k neg m e = z
  exact rfl

theorem resTrans_num_rule {neg : Bool} {m : Nat} {e : ℤ} (h : rdFloat t s a = .num neg m e) :
    if (FVal.num neg m e).value = 0 then (tyFloat t).ZeroRule k neg (resTrans k t s a)
    else if neg = true ∧ k ∈ [Trans.rsq, .sqrt, .log2] then resTrans k t s a = ((tyFloat t).canonicalNaN, flagInvalid)
    else if k = .tanh ∧ 9 ≤ |(FVal.num neg m e).value| then
      (tyFloat t).Stands (resTrans k t s a).1 neg 1 ∧ (resTrans k t s a).2 = flagInexact
    else ∃ z : ℚ, (tyFloat t).Gives s.nearest z false (resTrans k t s a) ∧ ReducedIs k neg (FVal.num neg m e).value z := by
  by_cases hm : m = 0
  · rw [if_pos (FVal.value_num_eq_zero.2 hm)]
    subst hm
    exact resTrans_zero ht h
  rw [if_neg (fun h0 => hm (FVal.value_num_eq_zero.1 h0)), resTrans_num hm h]
  by_cases hdom : neg = true ∧ k ∈ [Trans.rsq, .sqrt, .log2]
  · rw [if_pos hdom, if_pos hdom]
  rw [if_neg hdom, if_neg hdom, FVal.abs_value_num]
  by_cases h9 : k = .tanh ∧ (9 : ℚ) ≤ m * 2 ^ e
  · obtain ⟨rfl, h9'⟩ := h9
    have hz : transZ .tanh neg m e = (⟨if neg then -1 else 1, 1, 0⟩, true) := zTanh_large (not_lt.2 h9')
    have hone := round_one (s := s) ht neg
    rw [if_pos ⟨rfl, h9'⟩, hz]
    cases neg with
    | false => exact ⟨hone.1, congrArg (· ||| flagInexact) hone.2⟩
    | true => exact ⟨hone.1, congrArg (· ||| flagInexact) hone.2⟩
  · rw [if_neg h9]
    obtain ⟨hexact, hden, hred⟩ := transZ_spec (k := k) (neg := neg) (g := e) hm fun hk => not_le.1 fun hle => h9 ⟨hk, hle⟩
    have hgives := FloatFmt.gives_exact (tyFloat_regular t) s.nearest hden
    rw [hexact]
    refine ⟨_, ?_, hred⟩
    have hor (r : Nat × FlagSet) : (r.1, r.2 ||| flagIf false flagInexact) = r := Prod.ext rfl (BitVec.or_zero)
    exact hor _ ▸ hgives

end

end Sys2Proof.Machine

open Sys2Proof.Machine

/-- Settles O43: the points of the kernels are rounded to the nearest, those of the transcendental functions by an error bound on their
series in fixed point and a margin around every point; each result is the value of `transZ`, rounded once. -/
theorem transcendentalResultsAreTheRules : Obligations.TranscendentalResultsAreTheRules := by
  unfold Obligations.TranscendentalResultsAreTheRules
  refine ⟨fun k m n hm => kernel_eq k hm, fun i hi => kernPoint_near hi, kernPoint_ends, fun i h0 hi => kernPoint_real_near h0 hi,
    fun k t s a ht => ?_⟩
  intro f r ne zero one inf bad P exp2
  cases h : rdFloat t s a with
  | nan neg fr fb sn => exact resTrans_nan ht h
  | inf neg => exact resTrans_inf ht h
  | num neg m e => exact resTrans_num_rule ht h

end

section
/-! Words of the four formats (R68, R70, R76, R80): a field of a concatenation, the fields read back from a word's bits, and a word
read back from its parcels and their bytes. -/

open Sys2Proof
namespace Sys2Proof

/-! ### Fields of a concatenation -/

/-- A field above the last part of a concatenation. -/
theorem field_skip {m w a n : Nat} {x : BitVec m} {y : BitVec n} (z : BitVec w) (h : x.extractLsb' a n = y) :
    (x ++ z).extractLsb' (a + w) n = y := by
  rw [BitVec.extractLsb'_append_eq_of_le (by omega), Nat.add_sub_cancel, h]

/-- The last part. -/
theorem field_last {m n : Nat} (x : BitVec m) (y : BitVec n) : (x ++ y).extractLsb' 0 n = y :=
  BitVec.extractLsb'_append_eq_right

/-- A vector as its own one field. -/
theorem field_all {n : Nat} (x : BitVec n) : x.extractLsb' 0 n = x := BitVec.extractLsb'_eq_self

/-- A field of a field. -/
theorem extract_extract {n a b c d : Nat} (x : BitVec n) (h : c + d ≤ b) :
    (x.extractLsb' a b).extractLsb' c d = x.extractLsb' (a + c) d := by
  ext i hi
  simp only [BitVec.getElem_extractLsb', BitVec.getLsbD_extractLsb', Nat.add_assoc, Bool.and_eq_right_iff_imp, decide_eq_true_eq]
  omega

theorem extract_of_field {n a b : Nat} {x : BitVec n} {y : BitVec b} (hf : x.extractLsb' a b = y) (c d : Nat) (h : c + d ≤ b) :
    x.extractLsb' (a + c) d = y.extractLsb' c d := by
  rw [← hf, extract_extract x h]

@[simp] theorem bit1_eq_one (b : Bool) : (bit1 b == 1#1) = b := by cases b <;> rfl

theorem bit_of_field {n a : Nat} {x : BitVec n} {b : Bool} (hf : x.extractLsb' a 1 = bit1 b) : x.getLsbD a = b := by
  rw [BitVec.getLsbD_eq_extractLsb', hf]
  exact bit1_eq_one b

/-! ### The four formats -/

theorem LWord.ofBits_bits (w : LWord) : LWord.ofBits w.bits = w := by
  unfold LWord.ofBits LWord.bits
  cases w
  rw [LWord.mk.injEq]
  and_intros <;> repeat rw [BitVec.extractLsb'_append_eq_of_le (by decide)]
  all_goals exact field_last _ _

theorem Half.ofBits_bits (h : Half) : Half.ofBits h.bits = h := by
  unfold Half.ofBits Half.bits
  cases h
  rw [Half.mk.injEq]
  and_intros <;> repeat rw [BitVec.extractLsb'_append_eq_of_le (by decide)]
  · exact field_all _
  all_goals exact field_last _ _

theorem UWord.ofBits_bits (w : UWord) : UWord.ofBits w.bits = w := by
  unfold UWord.ofBits UWord.bits
  cases w
  rw [UWord.mk.injEq]
  and_intros <;> repeat rw [BitVec.extractLsb'_append_eq_of_le (by decide)]
  all_goals exact field_last _ _

theorem U2Word.ofBits_bits (w : U2Word) : U2Word.ofBits w.bits = w := by
  unfold U2Word.ofBits U2Word.bits
  cases w
  rw [U2Word.mk.injEq]
  and_intros <;> repeat rw [BitVec.extractLsb'_append_eq_of_le (by decide)]
  all_goals exact field_last _ _

theorem parcels_join2 (x : BitVec 64) : x.extractLsb' 32 32 ++ x.extractLsb' 0 32 = x :=
  BitVec.extractLsb'_append_extractLsb'

theorem parcels_join3 (x : BitVec 96) : x.extractLsb' 64 32 ++ x.extractLsb' 32 32 ++ x.extractLsb' 0 32 = x := by
  rw [BitVec.extractLsb'_append_extractLsb'_eq_extractLsb' (show 64 = 32 + 32 from rfl)]
  exact BitVec.extractLsb'_append_extractLsb'

theorem UWord.bits_format (w : UWord) : w.bits.extractLsb' 30 2 = 0#2 := by
  unfold UWord.bits
  repeat rw [BitVec.extractLsb'_append_eq_of_le (by decide)]
  exact field_all _

theorem U2Word.bits_format (w : U2Word) : (w.bits.extractLsb' 32 32).extractLsb' 30 2 = 1#2 := by
  rw [extract_extract _ (by decide)]
  unfold U2Word.bits
  repeat rw [BitVec.extractLsb'_append_eq_of_le (by decide)]
  exact field_all _

theorem LWord.bits_format (w : LWord) : (w.bits.extractLsb' 64 32).extractLsb' 30 2 = 2#2 := by
  rw [extract_extract _ (by decide)]
  unfold LWord.bits
  repeat rw [BitVec.extractLsb'_append_eq_of_le (by decide)]
  exact field_all _

theorem pair_bits_format (x y : BitVec 47) : ((3#2 ++ x ++ y : BitVec 96).extractLsb' 64 32).extractLsb' 30 2 = 3#2 := by
  rw [extract_extract _ (by decide)]
  repeat rw [BitVec.extractLsb'_append_eq_of_le (by decide)]
  exact field_all _

/-! ### Parcels and bytes (R68) -/

/-- Reading the parcels of a word gives the word, and its first parcel announces their number. -/
theorem Raw.parcels_spec (r : Raw) : ∃ p rest, r.parcels = p :: rest ∧ Raw.ofParcels r.parcels = some r ∧
    parcelCount p = r.parcels.length := by
  cases r with
  | u w =>
    refine ⟨_, _, rfl, ?_, ?_⟩
    · simp [Raw.parcels, Raw.ofParcels, w.bits_format, w.ofBits_bits]
    · simp [Raw.parcels, parcelCount, w.bits_format]
  | u2 w =>
    refine ⟨_, _, rfl, ?_, ?_⟩
    · simp [Raw.parcels, Raw.ofParcels, w.bits_format, w.ofBits_bits, parcels_join2]
    · simp [Raw.parcels, parcelCount, w.bits_format]
  | l w =>
    refine ⟨_, _, rfl, ?_, ?_⟩
    · simp [Raw.parcels, Raw.ofParcels, w.bits_format, w.ofBits_bits, parcels_join3]
    · simp [Raw.parcels, parcelCount, w.bits_format]
  | lp x y =>
    have hx : (3#2 ++ x.bits ++ y.bits : BitVec 96).extractLsb' 47 47 = x.bits := by
      rw [BitVec.extractLsb'_append_eq_of_le (by decide)]
      exact field_last _ _
    have hy : (3#2 ++ x.bits ++ y.bits : BitVec 96).extractLsb' 0 47 = y.bits := field_last _ _
    refine ⟨_, _, rfl, ?_, ?_⟩
    · simp [Raw.parcels, Raw.ofParcels, pair_bits_format, x.ofBits_bits, y.ofBits_bits, parcels_join3, hx, hy]
    · simp [Raw.parcels, parcelCount, pair_bits_format]

theorem parcelsOf_parcelBytes (ps : List Word32) : parcelsOf (ps.flatMap parcelBytes) = ps := by
  induction ps with
  | nil => rfl
  | cons p ps ih =>
    rw [List.flatMap_cons]
    have h : p.extractLsb' 24 8 ++ p.extractLsb' 16 8 ++ p.extractLsb' 8 8 ++ p.extractLsb' 0 8 = p := by
      rw [BitVec.extractLsb'_append_extractLsb'_eq_extractLsb' (show 24 = 16 + 8 from rfl),
        BitVec.extractLsb'_append_extractLsb'_eq_extractLsb' (show 16 = 8 + 8 from rfl)]
      exact BitVec.extractLsb'_append_extractLsb'
    show (_ ++ _ ++ _ ++ _) :: parcelsOf (ps.flatMap parcelBytes) = _
    rw [ih, h]

theorem length_parcelBytes (ps : List Word32) : (ps.flatMap parcelBytes).length = 4 * ps.length := by
  induction ps with
  | nil => rfl
  | cons p ps ih =>
    rw [List.flatMap_cons, List.length_append, ih, List.length_cons]
    show 4 + 4 * ps.length = 4 * (ps.length + 1)
    omega

/-- A word whose parse is a well-formed instruction with that encoding passes the checks (R87). -/
theorem decode_encodeBytes {i : Instr} {r : Raw} (hw : wellFormed i = true) (he : encodeRaw i = some r) (hp : parseRaw r = some i)
    (ha : r.assigned = true ∧ r.paired = true) : decode true (encodeBytes i) = .ok (i, (encodeBytes i).length) := by
  obtain ⟨p, rest, hps, hr, hn⟩ := r.parcels_spec
  have hd : decodeRaw true r = .ok i := by simp [decodeRaw, ha, hp, hw, he]
  have henc : encode i = r.parcels := by simp [encode, he]
  unfold decode encodeBytes
  rw [parcelsOf_parcelBytes, length_parcelBytes, henc]
  unfold decodeParcels
  rw [← hn]
  rw [hps] at hr ⊢
  simp [hr, hd]

end Sys2Proof
end

section
/-! Codes, operands and immediates (R70 to R73, R89, R111, R125): the fields that the decoder reads from a word are those that the encoder
wrote there. -/

open Sys2Proof
namespace Sys2Proof

/-! ### Codes -/

theorem Ty.ofCode_code (t : Ty) : Ty.ofCode t.code t.ext = some t := by cases t <;> rfl

/-- The types of R72. -/
theorem Ty.extended {t : Ty} (h : t.code = 15) : t = .m6a ∨ t = .m6b ∨ t = .m4 ∨ t = .i4 ∨ t = .x8 ∨ t = .t96 := by
  cases t <;> revert h <;> decide

/-- Every other type is read from the table of R71. -/
theorem Ty.ofCode_plain {t : Ty} (h : t.code ≠ 15) : (if t.code = 15 then none else Ty.ofCode t.code 0) = some t := by
  rw [if_neg h]
  cases t <;> revert h <;> decide

theorem RedOp.ofCode_code (o : RedOp) : RedOp.ofCode o.code = some o := by cases o <;> rfl
theorem AtomOp.ofCode_code (o : AtomOp) : AtomOp.ofCode o.code = some o := by cases o <;> rfl
theorem Order.ofCode_code (o : Order) : Order.ofCode o.code = o := by cases o <;> rfl
theorem Space.ofCode_code (o : Space) : Space.ofCode o.code = some o := by cases o <;> rfl
theorem Cond.ofCode_code (o : Cond) : Cond.ofCode o.code = some o := by cases o <;> rfl
theorem FCond.ofCode_code (o : FCond) : FCond.ofCode o.code = some o := by cases o <;> rfl

theorem packOk_plain {t st : Ty} {k : BitVec 2} (h : packOk t st k = true) : st.code ≠ 15 := by
  intro hc
  rcases Ty.extended hc with rfl | rfl | rfl | rfl | rfl | rfl <;> cases t <;> exact Bool.false_ne_true h

theorem AtomOp.allows_plain {op : AtomOp} {t : Ty} (h : op.allows t = true) : t.code ≠ 15 := by
  intro hc
  rcases Ty.extended hc with rfl | rfl | rfl | rfl | rfl | rfl <;> cases op <;> exact Bool.false_ne_true h

theorem RedOp.allows_plain {op : RedOp} {t : Ty} (h : op.allows t = true) : t.code ≠ 15 := by
  intro hc
  rcases Ty.extended hc with rfl | rfl | rfl | rfl | rfl | rfl <;> cases op <;> exact Bool.false_ne_true h

/-! ### Immediates -/

/-- The selector of the operand of R89. -/
def OpB.sel : OpB → BitVec 2
  | .name _ => 0
  | .imm _ => 1
  | .ureg _ => 2

/-- Its low bits. -/
def OpB.low : OpB → BitVec 24
  | .name _ => 0
  | .imm v => v
  | .ureg g => 0#18 ++ g

theorem OpB.immediate_eq (b : OpB) (mods : BitVec 6) : b.immediate mods = b.sel ++ mods ++ b.low := by
  cases b with
  | name _ | imm _ => rfl
  | ureg g => exact BitVec.append_assoc (x₁ := 2#2 ++ mods) (x₂ := 0#18) (x₃ := g)

theorem OpB.cross_eq (b : OpB) (m : BitVec 6) : b.cross m = m ++ b.sel ++ b.low := by
  cases b with
  | name _ | imm _ => rfl
  | ureg g => exact BitVec.append_assoc (x₁ := m ++ 2#2) (x₂ := 0#18) (x₃ := g)

theorem OpB.of_sel (b : OpB) : OpB.of b.sel b.src b.low = some b := by
  cases b with
  | name _ | imm _ => rfl
  | ureg g => exact congrArg (fun g => some (OpB.ureg g)) (field_last 0#18 g)

theorem OpB.immediate_mods (x : OpB) (mods : BitVec 6) : (x.immediate mods).extractLsb' 24 6 = mods := by
  rw [x.immediate_eq]
  exact field_skip _ (field_last _ _)

theorem OpB.immediate_bit (x : OpB) (s : Bool) : (x.immediate (0#5 ++ bit1 s)).getLsbD 24 = s :=
  bit_of_field ((extract_of_field (x.immediate_mods _) 0 1 (by decide)).trans (field_last _ _))

theorem OpB.immediate_low3 (x : OpB) (s : BitVec 3) : (x.immediate (0#3 ++ s)).extractLsb' 24 3 = s :=
  (extract_of_field (x.immediate_mods _) 0 3 (by decide)).trans (field_last _ _)

theorem OpB.cross_mask (x : OpB) (m : BitVec 6) : (x.cross m).extractLsb' 26 6 = m := by
  rw [x.cross_eq]
  exact field_skip _ (field_skip _ (field_all _))

theorem crossImm_mask (m : BitVec 6) (low : BitVec 24) : (crossImm m low).extractLsb' 26 6 = m :=
  field_skip _ (field_skip _ (field_all _))

theorem crossImm_low (m : BitVec 6) (low : BitVec 24) : (crossImm m low).extractLsb' 0 24 = low := field_last _ _

theorem Mem.immediate_mods (m : Mem) (mods : BitVec 6) : (m.immediate mods).extractLsb' 12 6 = mods := field_skip _ (field_last _ _)

/-- The modifiers of a memory shape, field by field. -/
theorem Mem.immediate_field (m : Mem) (mods : BitVec 6) (c d : Nat) (h : c + d ≤ 6) :
    (m.immediate mods).extractLsb' (12 + c) d = mods.extractLsb' c d := extract_of_field (m.immediate_mods mods) c d h

theorem Mem.immediate_bit {m : Mem} {mods : BitVec 6} {c : Nat} {b : Bool} (h : c + 1 ≤ 6) (hb : mods.extractLsb' c 1 = bit1 b) :
    (m.immediate mods).getLsbD (12 + c) = b := bit_of_field ((m.immediate_field mods c 1 h).trans hb)

theorem cvt_fields (e c x : BitVec 4) (r : Bool) :
    (e ++ c ++ x ++ bit1 r ++ 0#19).extractLsb' 28 4 = e ∧ (e ++ c ++ x ++ bit1 r ++ 0#19).extractLsb' 24 4 = c ∧
      (e ++ c ++ x ++ bit1 r ++ 0#19).extractLsb' 20 4 = x ∧ (e ++ c ++ x ++ bit1 r ++ 0#19).getLsbD 19 = r :=
  ⟨field_skip _ (field_skip _ (field_skip _ (field_skip _ (field_all _)))), field_skip _ (field_skip _ (field_skip _ (field_last _ _))),
    field_skip _ (field_skip _ (field_last _ _)), bit_of_field (field_skip _ (field_last _ _))⟩

theorem pack_fields (e c : BitVec 4) (k : BitVec 2) :
    (e ++ c ++ k ++ 0#22).extractLsb' 28 4 = e ∧ (e ++ c ++ k ++ 0#22).extractLsb' 24 4 = c ∧
      (e ++ c ++ k ++ 0#22).extractLsb' 22 2 = k :=
  ⟨field_skip _ (field_skip _ (field_skip _ (field_all _))), field_skip _ (field_skip _ (field_last _ _)),
    field_skip _ (field_last _ _)⟩

theorem spawn_fields (base : BitVec 6) (n k : BitVec 3) (lane nj : Bool) (off : BitVec 16) :
    let imm := base ++ n ++ k ++ bit1 lane ++ bit1 nj ++ 0#2 ++ off
    imm.extractLsb' 26 6 = base ∧ imm.extractLsb' 23 3 = n ∧ imm.extractLsb' 20 3 = k ∧ imm.getLsbD 19 = lane ∧
      imm.getLsbD 18 = nj ∧ imm.extractLsb' 0 16 = off :=
  ⟨field_skip _ (field_skip _ (field_skip _ (field_skip _ (field_skip _ (field_skip _ (field_all _)))))),
    field_skip _ (field_skip _ (field_skip _ (field_skip _ (field_skip _ (field_last _ _))))),
    field_skip _ (field_skip _ (field_skip _ (field_skip _ (field_last _ _)))),
    bit_of_field (field_skip _ (field_skip _ (field_skip _ (field_last _ _)))),
    bit_of_field (field_skip _ (field_skip _ (field_last _ _))), field_last _ _⟩

/-! ### The fields of a lane word -/

/-- A lane word (R70): the value of `laneWord`. -/
abbrev LWord.lane (op : BitVec 10) (p : Pred) (d : Dst) (a b c : Src) (ty : BitVec 4) (imm : BitVec 32) : LWord :=
  { op := op, q := p.q, neg := bit1 p.neg, f := 0, dst := d.name, uses := d.uses, a := a.name, ta := bit1 a.trap, b := b.name,
    tb := bit1 b.trap, c := c.name, tc := bit1 c.trap, ty := ty, imm := imm }

section
variable {op : BitVec 10} {p : Pred} {d : Dst} {a b c : Src} {ty : BitVec 4} {imm : BitVec 32}

theorem laneWord_eq : laneWord op p d a b c ty imm = some (.l (.lane op p d a b c ty imm)) := rfl

section
variable {q : BitVec 4} {neg f ta tb tc : BitVec 1} {dst a b c : BitVec 9} {uses : BitVec 3}

@[simp] theorem LWord.pred_mk {n : Bool} :
    (⟨op, q, bit1 n, f, dst, uses, a, ta, b, tb, c, tc, ty, imm⟩ : LWord).pred = ⟨q, n⟩ := congrArg (Pred.mk q) (bit1_eq_one n)

@[simp] theorem LWord.dest_mk :
    (⟨op, q, neg, f, dst, uses, a, ta, b, tb, c, tc, ty, imm⟩ : LWord).dest = ⟨dst, uses⟩ := rfl

@[simp] theorem LWord.predDest_mk {qd : BitVec 4} :
    (⟨op, q, neg, f, (predDst qd).name, uses, a, ta, b, tb, c, tc, ty, imm⟩ : LWord).predDest = qd := field_last 0#5 qd

@[simp] theorem LWord.srcA_mk {t : Bool} :
    (⟨op, q, neg, f, dst, uses, a, bit1 t, b, tb, c, tc, ty, imm⟩ : LWord).srcA = ⟨a, t⟩ := congrArg (Src.mk a) (bit1_eq_one t)

@[simp] theorem LWord.srcB_mk {t : Bool} :
    (⟨op, q, neg, f, dst, uses, a, ta, b, bit1 t, c, tc, ty, imm⟩ : LWord).srcB = ⟨b, t⟩ := congrArg (Src.mk b) (bit1_eq_one t)

@[simp] theorem LWord.srcC_mk {t : Bool} :
    (⟨op, q, neg, f, dst, uses, a, ta, b, tb, c, bit1 t, ty, imm⟩ : LWord).srcC = ⟨c, t⟩ := congrArg (Src.mk c) (bit1_eq_one t)

@[simp] theorem LWord.join_mk {j : BitVec 20} :
    (⟨op, q, neg, f, dst, uses, a, ta, j.extractLsb' 11 9, j.extractLsb' 10 1, j.extractLsb' 1 9, j.extractLsb' 0 1, ty, imm⟩ :
      LWord).join = j := by
  show j.extractLsb' 11 9 ++ j.extractLsb' 10 1 ++ j.extractLsb' 1 9 ++ j.extractLsb' 0 1 = j
  rw [BitVec.extractLsb'_append_extractLsb'_eq_extractLsb' (show 11 = 10 + 1 from rfl),
    BitVec.extractLsb'_append_extractLsb'_eq_extractLsb' (show 10 = 1 + 9 from rfl)]
  exact BitVec.extractLsb'_append_extractLsb'

end

theorem LWord.type_lane {t : Ty} (ht : t.code ≠ 15) : (LWord.lane op p d a b c t.code imm).type = some t := Ty.ofCode_plain ht

theorem LWord.typeExt_lane {t : Ty} (h : imm.extractLsb' 28 4 = t.ext) : (LWord.lane op p d a b c t.code imm).typeExt = some t :=
  (congrArg (Ty.ofCode t.code) h).trans t.ofCode_code

theorem LWord.srcType_lane {t : Ty} (hc : imm.extractLsb' 24 4 = t.code) (hx : imm.extractLsb' 20 4 = t.ext) :
    (LWord.lane op p d a b c ty imm).srcType = some t := (congrArg₂ Ty.ofCode hc hx).trans t.ofCode_code

theorem LWord.srcTypePlain_lane {t : Ty} (hc : imm.extractLsb' 24 4 = t.code) (ht : t.code ≠ 15) :
    (LWord.lane op p d a b c ty imm).srcTypePlain = some t := by
  unfold LWord.srcTypePlain
  rw [hc]
  exact Ty.ofCode_plain ht

theorem LWord.opB_lane {x : OpB} {mods : BitVec 6} : (LWord.lane op p d a x.src c ty (x.immediate mods)).opB = some x := by
  unfold LWord.opB
  rw [LWord.srcB_mk, ← x.of_sel]
  show OpB.of ((x.immediate mods).extractLsb' 30 2) _ ((x.immediate mods).extractLsb' 0 24) = _
  rw [x.immediate_eq]
  congr 1
  · exact field_skip _ (field_skip _ (field_all _))
  · exact field_last _ _

theorem LWord.opA_lane {x : OpB} {mods : BitVec 6} : (LWord.lane op p d x.src b c ty (x.immediate mods)).opA = some x := by
  unfold LWord.opA
  rw [LWord.srcA_mk, ← x.of_sel]
  show OpB.of ((x.immediate mods).extractLsb' 30 2) _ ((x.immediate mods).extractLsb' 0 24) = _
  rw [x.immediate_eq]
  congr 1
  · exact field_skip _ (field_skip _ (field_all _))
  · exact field_last _ _

theorem LWord.crossB_lane {x : OpB} {m : BitVec 6} : (LWord.lane op p d a x.src c ty (x.cross m)).crossB = some x := by
  unfold LWord.crossB
  rw [LWord.srcB_mk, ← x.of_sel]
  show OpB.of ((x.cross m).extractLsb' 24 2) _ ((x.cross m).extractLsb' 0 24) = _
  rw [x.cross_eq]
  congr 1
  · exact field_skip _ (field_last _ _)
  · exact field_last _ _

theorem LWord.mods_lane {x : OpB} {mods : BitVec 6} : (LWord.lane op p d a b c ty (x.immediate mods)).mods = mods :=
  x.immediate_mods mods

theorem LWord.mem_eq {w : LWord} {m : Mem} {mods : BitVec 6} (hs : w.srcA = m.src) (hi : w.imm = m.immediate mods) :
    w.mem = some m := by
  have hbase : (m.immediate mods).extractLsb' 26 6 = m.base :=
    field_skip _ (field_skip _ (field_skip _ (field_skip _ (field_skip _ (field_all _)))))
  have hspace : (m.immediate mods).extractLsb' 23 3 = m.space.code :=
    field_skip _ (field_skip _ (field_skip _ (field_skip _ (field_last _ _))))
  have hwin : (m.immediate mods).extractLsb' 19 4 = m.win := field_skip _ (field_skip _ (field_skip _ (field_last _ _)))
  have hidx : (m.immediate mods).extractLsb' 18 1 = bit1 m.idx.isSome := field_skip _ (field_skip _ (field_last _ _))
  have hoff : (m.immediate mods).extractLsb' 0 12 = m.off := field_last _ _
  unfold LWord.mem
  rw [hi, hspace, m.space.ofCode_code, hbase, hwin, hidx, hoff, hs]
  obtain ⟨base, space, win, idx, off⟩ := m
  cases idx <;> rfl

theorem LWord.mem_lane {m : Mem} {mods : BitVec 6} : (LWord.lane op p d m.src b c ty (m.immediate mods)).mem = some m :=
  LWord.mem_eq LWord.srcA_mk rfl

/-! ### The shapes -/

theorem LWord.one_lane {t : Ty} {k : Pred → Dst → Src → Ty → Instr} {i : Instr}
    (ht : t.code ≠ 15) (hk : k p d a t = i) : (LWord.lane op p d a b c t.code imm).one k = some i := by
  simp [LWord.one, LWord.type_lane ht, hk]

theorem LWord.two_lane {x : OpB} {mods : BitVec 6} {t : Ty} {k : Pred → Dst → Src → OpB → Ty → Instr} {i : Instr}
    (ht : t.code ≠ 15) (hk : k p d a x t = i) :
    (LWord.lane op p d a x.src c t.code (x.immediate mods)).two k = some i := by
  simp [LWord.two, LWord.opB_lane, LWord.type_lane ht, hk]

theorem LWord.three_lane {x : OpB} {mods : BitVec 6} {t : Ty} {k : Pred → Dst → Src → OpB → Src → Ty → Instr} {i : Instr}
    (ht : t.code ≠ 15) (hk : k p d a x c t = i) : (LWord.lane op p d a x.src c t.code (x.immediate mods)).three k = some i := by
  simp [LWord.three, LWord.opB_lane, LWord.type_lane ht, hk]

theorem LWord.onMem_eq {w : LWord} {m : Mem} {k : Mem → Instr} {i : Instr} (hm : w.mem = some m) (hk : k m = i) :
    w.onMem k = some i := by
  simp [LWord.onMem, hm, hk]

theorem LWord.onMem_lane {m : Mem} {mods : BitVec 6} {k : Mem → Instr} {i : Instr} (hk : k m = i) :
    (LWord.lane op p d m.src b c ty (m.immediate mods)).onMem k = some i := LWord.onMem_eq LWord.mem_lane hk

end

end Sys2Proof
end

section
/-! Decoding (R80 to R90): each instruction is read back from the word that encodes it, and from this the settlement of O57. -/

open Sys2Proof
namespace Sys2Proof

/-- A word is read as the well-formed instruction that it encodes: its opcode gives the arm, and the fields are those that were written. -/
theorem parseRaw_encodeRaw {i : Instr} {r : Raw} (hw : wellFormed i = true) (he : encodeRaw i = some r) : parseRaw r = some i := by
  cases i with
  -- the integer and floating shapes (R89)
  | mul p d a b t | mulhi p d a b t | div p d a b t | rem p d a b t | min p d a b t | max p d a b t | shl p d a b t | shr p d a b t
  | sar p d a b t | rot p d a b t | and p d a b t | or p d a b t | xor p d a b t | andn p d a b t | bfe p d a b t | fadd p d a b t
  | fsub p d a b t | fmul p d a b t | fmin p d a b t | fmax p d a b t | hadd2 p d a b t | hmul2 p d a b t =>
    cases he
    refine LWord.two_lane (fun h => ?_) rfl
    rcases Ty.extended h with rfl | rfl | rfl | rfl | rfl | rfl <;> exact Bool.false_ne_true hw
  | mad p d a b c t | madhi p d a b c t | bfi p d a b c t | sel p d a b c t | fma p d a b c t | hfma2 p d a b c t =>
    cases he
    refine LWord.three_lane (fun h => ?_) rfl
    rcases Ty.extended h with rfl | rfl | rfl | rfl | rfl | rfl <;> exact Bool.false_ne_true hw
  | neg p d a t | abs p d a t | not p d a t | pop p d a t | clz p d a t | ctz p d a t | brev p d a t | fabs p d a t | fneg p d a t
  | fclass p d a t | frcp p d a t | frsq p d a t | fsqrt p d a t | fexp2 p d a t | flog2 p d a t | fsinpi p d a t | fcospi p d a t
  | ftanh p d a t =>
    cases he
    refine LWord.one_lane (fun h => ?_) rfl
    rcases Ty.extended h with rfl | rfl | rfl | rfl | rfl | rfl <;> exact Bool.false_ne_true hw
  | add p d a b t sat =>
    cases he
    refine LWord.two_lane (k := fun p d a b t => .add p d a b t _) (fun h => ?_) (congrArg (Instr.add p d a b t) (b.immediate_bit sat))
    rcases Ty.extended h with rfl | rfl | rfl | rfl | rfl | rfl <;> exact Bool.false_ne_true hw
  | sub p d a b t sat =>
    cases he
    refine LWord.two_lane (k := fun p d a b t => .sub p d a b t _) (fun h => ?_) (congrArg (Instr.sub p d a b t) (b.immediate_bit sat))
    rcases Ty.extended h with rfl | rfl | rfl | rfl | rfl | rfl <;> exact Bool.false_ne_true hw
  | lea p d a b t scale =>
    cases he
    refine LWord.two_lane (k := fun p d a b t => .lea p d a b t _) (fun h => ?_) (congrArg (Instr.lea p d a b t) (b.immediate_low3 scale))
    rcases Ty.extended h with rfl | rfl | rfl | rfl | rfl | rfl <;> exact Bool.false_ne_true hw
  | cmp p q a b t cond =>
    cases he
    conv_lhs => whnf
    rw [LWord.mods_lane, cond.ofCode_code]
    refine LWord.two_lane (fun h => ?_) (congrArg (fun q => Instr.cmp p q a b t cond) LWord.predDest_mk)
    rcases Ty.extended h with rfl | rfl | rfl | rfl | rfl | rfl <;> exact Bool.false_ne_true hw
  | fcmp p q a b t cond =>
    cases he
    conv_lhs => whnf
    rw [LWord.mods_lane, cond.ofCode_code]
    refine LWord.two_lane (fun h => ?_) (congrArg (fun q => Instr.fcmp p q a b t cond) LWord.predDest_mk)
    rcases Ty.extended h with rfl | rfl | rfl | rfl | rfl | rfl <;> exact Bool.false_ne_true hw
  | mov p d a t =>
    cases he
    have ht : t.code ≠ 15 := fun h => by
      rcases Ty.extended h with rfl | rfl | rfl | rfl | rfl | rfl <;> exact Bool.false_ne_true hw
    conv_lhs => whnf
    rw [LWord.opA_lane, LWord.type_lane ht]
    exact congrArg some (by simp)
  | movi p d t imm =>
    cases he
    have ht : t.code ≠ 15 := fun h => by
      rcases Ty.extended h with rfl | rfl | rfl | rfl | rfl | rfl <;> exact Bool.false_ne_true hw
    conv_lhs => whnf
    rw [LWord.type_lane ht]
    exact congrArg some (by simp)
  -- conversion and packing (R104 to R108)
  | cvt p d a dt st rint =>
    cases he
    obtain ⟨hd, hs, hx, hr⟩ := cvt_fields dt.ext st.code st.ext rint
    conv_lhs => whnf
    rw [LWord.typeExt_lane hd, LWord.srcType_lane hs hx]
    exact congrArg some (by simp [hr, -BitVec.getLsbD_eq_getElem])
  | pack p d a b c t st k =>
    cases he
    obtain ⟨ht, hs, hk⟩ := pack_fields t.ext st.code k
    have hst : st.code ≠ 15 := packOk_plain (Bool.and_eq_true_iff.mp hw).1
    conv_lhs => whnf
    rw [LWord.typeExt_lane ht, LWord.srcTypePlain_lane hs hst]
    exact congrArg some (by simp [hk])
  | unpack p d a t k =>
    cases he
    have ht : (t.ext ++ 0#4 ++ k ++ 0#21).extractLsb' 28 4 = t.ext := field_skip _ (field_skip _ (field_skip _ (field_all _)))
    have hk : (t.ext ++ 0#4 ++ k ++ 0#21).extractLsb' 21 3 = k := field_skip _ (field_last _ _)
    conv_lhs => whnf
    rw [LWord.typeExt_lane ht]
    exact congrArg some (by simp [hk])
  | mxq p d a t st =>
    cases he
    have ht : (t.ext ++ st.code ++ 0#24).extractLsb' 28 4 = t.ext := field_skip _ (field_skip _ (field_all _))
    have hs : (t.ext ++ st.code ++ 0#24).extractLsb' 24 4 = st.code := field_skip _ (field_last _ _)
    have hw : st.ieee = true := (Bool.and_eq_true_iff.mp hw).2
    have hst : st.code ≠ 15 := fun h => by
      rcases Ty.extended h with rfl | rfl | rfl | rfl | rfl | rfl <;> exact Bool.false_ne_true hw
    conv_lhs => whnf
    rw [LWord.typeExt_lane ht, LWord.srcTypePlain_lane hs hst]
    exact congrArg some (by simp)
  | mxdq p d a t | sp24 p d a t =>
    cases he
    have ht : (t.ext ++ 0#28).extractLsb' 28 4 = t.ext := field_skip _ (field_all _)
    conv_lhs => whnf
    rw [LWord.typeExt_lane ht]
    exact congrArg some (by simp)
  -- cross-lane instructions (R125)
  | shflIdx p d a b t m | shflUp p d a b t m | shflDn p d a b t m | shflXor p d a b t m =>
    cases he
    have ht : t.code ≠ 15 := fun h => by
      rcases Ty.extended h with rfl | rfl | rfl | rfl | rfl | rfl <;> exact Bool.false_ne_true hw
    conv_lhs => whnf
    rw [LWord.crossB_lane, LWord.type_lane ht]
    exact congrArg some (by simp [LWord.mask, b.cross_mask m])
  | voteAny p q s m | voteAll p q s m | voteBal p q s m =>
    cases he
    have hs : (0#5 ++ s).extractLsb' 0 4 = s := field_last _ _
    exact congrArg some (by simp [LWord.mask, crossImm_mask, hs])
  | red p d a op t m =>
    cases he
    have ho : (crossImm m (op.code ++ 0#20)).extractLsb' 20 4 = op.code :=
      (extract_of_field (crossImm_low m _) 20 4 (by decide)).trans (field_skip _ (field_all _))
    have ht : op.allows t = true := (Bool.and_eq_true_iff.mp (Bool.and_eq_true_iff.mp hw).1).1
    conv_lhs => whnf
    rw [ho, op.ofCode_code, LWord.type_lane (RedOp.allows_plain ht)]
    exact congrArg some (by simp [LWord.mask, crossImm_mask])
  | scan p d a op e t m =>
    cases he
    have ho : (crossImm m (op.code ++ bit1 e ++ 0#19)).extractLsb' 20 4 = op.code :=
      (extract_of_field (crossImm_low m _) 20 4 (by decide)).trans (field_skip _ (field_skip _ (field_all _)))
    have hx : (crossImm m (op.code ++ bit1 e ++ 0#19)).getLsbD 19 = e :=
      bit_of_field ((extract_of_field (crossImm_low m _) 19 1 (by decide)).trans (field_skip _ (field_last _ _)))
    have ht : op.allows t = true := (Bool.and_eq_true_iff.mp (Bool.and_eq_true_iff.mp hw).1).1
    conv_lhs => whnf
    rw [ho, op.ofCode_code, LWord.type_lane (RedOp.allows_plain ht)]
    exact congrArg some (by simp [LWord.mask, crossImm_mask, hx, -BitVec.getLsbD_eq_getElem])
  | topk p d a b k t m =>
    cases he
    have hk : (crossImm m (0#19 ++ k)).extractLsb' 0 5 = k :=
      (extract_of_field (crossImm_low m _) 0 5 (by decide)).trans (field_last _ _)
    have ht : t.code ≠ 15 := fun h => by
      rcases Ty.extended h with rfl | rfl | rfl | rfl | rfl | rfl <;> exact Bool.false_ne_true hw
    conv_lhs => whnf
    rw [LWord.type_lane ht]
    exact congrArg some (by simp [LWord.mask, crossImm_mask, hk])
  | matchLanes p d a t m =>
    cases he
    have ht : t.code ≠ 15 := fun h => by
      rcases Ty.extended h with rfl | rfl | rfl | rfl | rfl | rfl <;> exact Bool.false_ne_true hw
    conv_lhs => whnf
    rw [LWord.type_lane ht]
    exact congrArg some (by simp [LWord.mask, crossImm_mask])
  -- control and patterns (R111, R134)
  | br p u join disp | call p u d disp | calli p u d a | ret u a =>
    cases he
    exact congrArg some (by simp)
  | jmpi p u n a join disp =>
    cases he
    have hn : n.extractLsb' 3 9 ++ n.extractLsb' 0 3 = n := BitVec.extractLsb'_append_extractLsb'
    exact congrArg some (by simp [hn])
  | bar | pbar | rte | stepmark | halt =>
    cases he
    rfl
  | exit p | nop p | free p a =>
    cases he
    exact congrArg some (by simp)
  | regang tag =>
    cases he
    exact congrArg some (congrArg Instr.regang (field_last _ _))
  | patld pat =>
    cases he
    exact congrArg some (congrArg Instr.patld (field_skip _ (field_all _)))
  | vsdump m =>
    cases he
    exact congrArg some (congrArg Instr.vsdump (bit_of_field (field_last _ _)))
  | vsload m =>
    cases he
    exact congrArg some (congrArg Instr.vsload (bit_of_field (field_last _ _)))
  | drop p a n =>
    cases he
    have hn : (0#29 ++ n).extractLsb' 0 3 = n := field_last _ _
    exact congrArg some (by simp [hn])
  | trap p n =>
    cases he
    exact congrArg some (congrArg₂ Instr.trap LWord.pred_mk (field_last _ _))
  | sleep p mask =>
    cases he
    exact congrArg some (congrArg₂ Instr.sleep LWord.pred_mk (field_last _ _))
  | weave p d a b c n pat =>
    cases he
    have hn : (pat ++ n ++ 0#4).extractLsb' 4 2 = n := field_skip _ (field_last _ _)
    have hp : (pat ++ n ++ 0#4).extractLsb' 6 26 = pat := field_skip _ (field_skip _ (field_all _))
    exact congrArg some (by simp [hn, hp])
  | lanePair x y =>
    cases he
    rfl
  | fence scope => cases scope <;> cases he <;> rfl
  -- accesses, engines and barrier objects (R73)
  | ld p d m n t =>
    cases he
    have hw := (Bool.and_eq_true_iff.mp hw).2
    have hn : (m.immediate (0#4 ++ n)).extractLsb' 12 2 = n := (m.immediate_field _ 0 2 (by decide)).trans (field_last _ _)
    have ht : t.code ≠ 15 := fun h => by
      rcases Ty.extended h with rfl | rfl | rfl | rfl | rfl | rfl <;> exact Bool.false_ne_true hw
    conv_lhs => whnf
    rw [LWord.mem_lane, LWord.type_lane ht]
    exact congrArg some (by simp [hn])
  | st p m b n t =>
    cases he
    have hw := (Bool.and_eq_true_iff.mp hw).2
    have hn : (m.immediate (0#4 ++ n)).extractLsb' 12 2 = n := (m.immediate_field _ 0 2 (by decide)).trans (field_last _ _)
    have ht : t.code ≠ 15 := fun h => by
      rcases Ty.extended h with rfl | rfl | rfl | rfl | rfl | rfl <;> exact Bool.false_ne_true hw
    conv_lhs => whnf
    rw [LWord.mem_lane, LWord.type_lane ht]
    exact congrArg some (by simp [hn])
  | atom p d m b c op ord t =>
    cases he
    have ho : (m.immediate (op.code ++ ord.code)).extractLsb' 14 4 = op.code :=
      (m.immediate_field _ 2 4 (by decide)).trans (field_skip _ (field_all _))
    have hr : (m.immediate (op.code ++ ord.code)).extractLsb' 12 2 = ord.code :=
      (m.immediate_field _ 0 2 (by decide)).trans (field_last _ _)
    have ht : op.allows t = true := by
      have h : (m.lane && op.allows t && nameOk t d.name && nameOk t b.name &&
        (if op == .cas then nameOk t c.name else c.unused)) = true := hw
      simp only [Bool.and_eq_true] at h
      obtain ⟨⟨⟨⟨-, h⟩, -⟩, -⟩, -⟩ := h
      exact h
    conv_lhs => whnf
    rw [LWord.mem_lane, LWord.type_lane (AtomOp.allows_plain ht), ho, op.ofCode_code]
    exact congrArg some (by simp [hr, ord.ofCode_code])
  | tmove p m | tgath p m | tscat p m | mstadd p m | edgeseed p m | edgechk p m | edgewait p m | edgeflip p m | edgepass p m =>
    cases he
    exact LWord.onMem_lane (by simp)
  | gatom p m res =>
    cases res with
    | none =>
      cases he
      have h : (m.immediate 0#6).getLsbD 12 = false := m.immediate_bit (c := 0) (by decide) rfl
      exact LWord.onMem_lane (by simp [h, -BitVec.getLsbD_eq_getElem])
    | some x =>
      obtain ⟨d, wide⟩ := x
      cases he
      have h : (m.immediate 1#6).getLsbD 12 = true := m.immediate_bit (c := 0) (by decide) rfl
      exact LWord.onMem_lane (by cases wide <;> simp [h, Ty.code, -BitVec.getLsbD_eq_getElem])
  | wopen p m w fill ro =>
    cases he
    have hn : (m.immediate (w ++ bit1 fill ++ bit1 ro)).extractLsb' 14 4 = w :=
      (m.immediate_field _ 2 4 (by decide)).trans (field_skip _ (field_skip _ (field_all _)))
    have hf : (m.immediate (w ++ bit1 fill ++ bit1 ro)).getLsbD 13 = fill :=
      m.immediate_bit (c := 1) (by decide) (field_skip _ (field_last _ _))
    have hr : (m.immediate (w ++ bit1 fill ++ bit1 ro)).getLsbD 12 = ro :=
      m.immediate_bit (c := 0) (by decide) (field_last _ _)
    exact LWord.onMem_lane (by simp [hn, hf, hr, -BitVec.getLsbD_eq_getElem])
  | wflush p m w | wclose p m w =>
    cases he
    have hn : (m.immediate (w ++ 0#2)).extractLsb' 14 4 = w := (m.immediate_field _ 2 4 (by decide)).trans (field_skip _ (field_all _))
    exact LWord.onMem_lane (by simp [hn])
  | bobj p m b wide ext =>
    cases he
    have hx : (m.immediate (0#5 ++ bit1 ext)).getLsbD 12 = ext := m.immediate_bit (c := 0) (by decide) (field_last _ _)
    exact LWord.onMem_lane (by cases wide <;> simp [hx, Ty.code, -BitVec.getLsbD_eq_getElem])
  | arrive p m one n =>
    cases he
    have hn : (m.immediate (0#1 ++ bit1 one ++ n)).extractLsb' 12 4 = n := (m.immediate_field _ 0 4 (by decide)).trans (field_last _ _)
    have ho : (m.immediate (0#1 ++ bit1 one ++ n)).getLsbD 16 = one :=
      m.immediate_bit (c := 4) (by decide) (field_skip _ (field_last _ _))
    exact LWord.onMem_lane (by simp [hn, ho, -BitVec.getLsbD_eq_getElem])
  | wait p m d | extwait p m d =>
    cases d <;> cases he <;> exact LWord.onMem_lane (by simp [LWord.optDest, Ty.code])
  | jinit p m lane =>
    cases he
    have hl : (m.immediate (0#5 ++ bit1 lane)).getLsbD 12 = lane := m.immediate_bit (c := 0) (by decide) (field_last _ _)
    exact LWord.onMem_lane (by simp [hl, -BitVec.getLsbD_eq_getElem])
  | jwait p m lane d =>
    have hl : (m.immediate (0#5 ++ bit1 lane)).getLsbD 12 = lane := m.immediate_bit (c := 0) (by decide) (field_last _ _)
    cases d <;> cases he <;> exact LWord.onMem_lane (by simp [LWord.optDest, Ty.code, hl, -BitVec.getLsbD_eq_getElem])
  | yieldon p m cont =>
    cases he
    exact LWord.onMem_eq (LWord.mem_eq LWord.srcA_mk rfl) (by simp)
  | mdrainNames p d m =>
    cases he
    have h : (m.immediate 1#6).getLsbD 12 = true := m.immediate_bit (c := 0) (by decide) rfl
    exact LWord.onMem_lane (by simp [h, -BitVec.getLsbD_eq_getElem])
  | mdrainMemory p m =>
    cases he
    have h : (m.immediate 0#6).getLsbD 12 = false := m.immediate_bit (c := 0) (by decide) rfl
    exact LWord.onMem_lane (by simp [h, -BitVec.getLsbD_eq_getElem])
  | mpair p reuse a s base off =>
    cases he
    have hb : (base ++ 0#14 ++ off).extractLsb' 26 6 = base := field_skip _ (field_skip _ (field_all _))
    have ho : (base ++ 0#14 ++ off).extractLsb' 0 12 = off := field_last _ _
    exact congrArg some (by simp [hb, ho])
  | mzero p ea =>
    cases ea with
    | imm v =>
      cases he
      have hr : ¬(0#16 ++ v).getLsbD 31 = true := by
        rw [bit_of_field (b := false) (field_skip v rfl)]
        exact Bool.false_ne_true
      have hs : (0#16 ++ v).extractLsb' 29 2 = 0#2 := field_skip v rfl
      refine (if_neg hr).trans ?_
      rw [hs]
      exact congrArg some (congrArg₂ Instr.mzero LWord.pred_mk (congrArg EaSrc.imm (field_last _ _)))
    | ureg g =>
      cases he
      have hr : ¬(0#1 ++ 1#2 ++ 0#23 ++ g).getLsbD 31 = true := by
        rw [bit_of_field (a := 31) (b := false) (field_skip g (field_skip _ (field_skip _ (field_all 0#1))))]
        exact Bool.false_ne_true
      have hs : (0#1 ++ 1#2 ++ 0#23 ++ g).extractLsb' 29 2 = 1#2 := field_skip g (field_skip _ (field_last _ _))
      refine (if_neg hr).trans ?_
      rw [hs]
      exact congrArg some (congrArg₂ Instr.mzero LWord.pred_mk (congrArg EaSrc.ureg (field_last _ _)))
  | mzeroRel p =>
    cases he
    have hr : (1#1 ++ 0#31).getLsbD 31 = true := rfl
    exact (if_pos hr).trans (congrArg some (congrArg Instr.mzeroRel LWord.pred_mk))
  | spawn p qd a entry base n k lane nj off =>
    cases he
    obtain ⟨hb, hn, hk, hl, hj, ho⟩ := spawn_fields base n k lane nj off
    exact congrArg some (by simp [hb, hn, hk, hl, hj, ho, -BitVec.getLsbD_eq_getElem])
  | bcastMin p a sgn j | bcastMax p a sgn j =>
    cases he
    have hj : (0#29 ++ j).extractLsb' 0 3 = j := field_last _ _
    exact congrArg some (by cases sgn <;> simp [hj, Ty.code])
  -- uniform instructions (R80, R81, R85)
  | gaddReg d a b | gsubReg d a b | gmulReg d a b | gshlReg d a b | gshrReg d a b | gandReg d a b | gorReg d a b | gxorReg d a b =>
    cases he
    exact congrArg some (congrArg _ (field_last 0#4 b))
  | gaddU2 d a b | gsubU2 d a b | gmulU2 d a b | gshlU2 d a b | gshrU2 d a b | gandU2 d a b | gorU2 d a b | gxorU2 d a b =>
    cases b <;> cases he <;> rfl
  | gcmp d a b cond => cases b <;> cases cond <;> cases he <;> rfl
  | gbr a cond disp => cases cond <;> cases he <;> rfl
  | gld d base sx space size win off =>
    cases he
    have hx : (0#5 ++ bit1 sx).getLsbD 0 = sx := bit_of_field (field_last _ _)
    have hs : (space ++ size).extractLsb' 2 2 = space := field_skip _ (field_all _)
    have hz : (space ++ size).extractLsb' 0 2 = size := field_last _ _
    have hw : (win ++ off).extractLsb' 28 4 = win := field_skip _ (field_all _)
    have ho : (win ++ off).extractLsb' 0 28 = off := field_last _ _
    exact congrArg some (by simp [hx, hs, hz, hw, ho, -BitVec.getLsbD_eq_getElem])
  | gst base b space size win off =>
    cases he
    have hs : (space ++ size).extractLsb' 2 2 = space := field_skip _ (field_all _)
    have hz : (space ++ size).extractLsb' 0 2 = size := field_last _ _
    have hw : (win ++ off).extractLsb' 28 4 = win := field_skip _ (field_all _)
    have ho : (win ++ off).extractLsb' 0 28 = off := field_last _ _
    exact congrArg some (by simp [hs, hz, hw, ho])
  | sreadU2 d sel =>
    cases he
    exact congrArg some (congrArg (Instr.sreadU2 d) (field_last _ _))
  | sreadLane d sel =>
    cases he
    have hn : (0#10 ++ sel ++ d.uses ++ d.name).extractLsb' 0 9 = d.name := field_last _ _
    have hu : (0#10 ++ sel ++ d.uses ++ d.name).extractLsb' 9 3 = d.uses := field_skip _ (field_last _ _)
    have hs : (0#10 ++ sel ++ d.uses ++ d.name).extractLsb' 12 10 = sel := field_skip _ (field_skip _ (field_last _ _))
    exact congrArg some (by simp [hn, hu, hs])
  | gaddImm d a i | gsubImm d a i | gmulImm d a i | gshlImm d a i | gshrImm d a i | gandImm d a i | gorImm d a i | gxorImm d a i
  | gmov d a | gli d i | gliU2 d i | gliHi d i | setfmt a | setfmtImm i | setfmtM a mask | setprio a i | setprioW a i | sread d sel
  | swrite a sel | capq d n | capqReg d a | capqW d n =>
    cases he
    rfl
  | _ => cases he

/-- The family `Assigned`, of every instruction. -/
theorem Laws.Assigned.holds (i : Instr) : Laws.Assigned.Statement i := by
  cases i with
  | lanePair x y => exact Laws.Assigned.lanePair x y
  | gatom p m res => exact Laws.Assigned.gatom p m res
  | wait p m d => exact Laws.Assigned.wait p m d
  | extwait p m d => exact Laws.Assigned.extwait p m d
  | jwait p m lane d => exact Laws.Assigned.jwait p m lane d
  | gaddU2 d a b | gsubU2 d a b | gmulU2 d a b | gshlU2 d a b | gshrU2 d a b | gandU2 d a b | gorU2 d a b | gxorU2 d a b
  | gcmp d a b cond => cases b <;> rintro _ r ⟨⟩ <;> exact ⟨rfl, rfl⟩
  | _ => rintro _ r ⟨⟩ <;> exact ⟨rfl, rfl⟩

open Machine in
/-- Every instruction of a program has an encoding. -/
theorem isEvent_or_encodes (i : Instr) : (isEvent i || (encodeRaw i).isSome) = true := by
  cases i with
  | gatom p m res => cases res <;> rfl
  | wait p m d | extwait p m d | jwait p m lane d => cases d <;> rfl
  | gaddU2 d a b | gsubU2 d a b | gmulU2 d a b | gshlU2 d a b | gshrU2 d a b | gandU2 d a b | gorU2 d a b | gxorU2 d a b
  | gcmp d a b cond => cases b <;> rfl
  | _ => rfl

end Sys2Proof

/-- Settles O57: each instruction is read back from its word, and each word from its parcels and bytes; the checks of R87 pass. -/
theorem decodingInvertsEncoding : Obligations.DecodingInvertsEncoding := by
  unfold Obligations.DecodingInvertsEncoding
  intro i hw hi
  obtain ⟨r, he⟩ : ∃ r, encodeRaw i = some r := by
    simpa [hi, Option.isSome_iff_exists] using isEvent_or_encodes i
  exact decode_encodeBytes hw he (parseRaw_encodeRaw hw he) (Laws.Assigned.holds i hw r he)
end

section
/-- Settles O56: the eight words, decoded. -/
theorem wordsDecode : Obligations.WordsDecode := by
  unfold Obligations.WordsDecode
  exact ⟨by decide, by decide, by decide, by decide, by decide, by decide, by decide, by decide⟩
end

section
/-! The schedule (R87, R140, R141, log 1): what `plan` chooses is a gang that can issue, and its instruction is what the bytes at its PC
decode to. -/

open Sys2Proof
namespace Sys2Proof

/-! ### Code words and their bytes (R68, R69) -/

/-- A word of a code section, from its four bytes. -/
theorem codeWord_eq (code : Machine.Memory) (a : Nat) :
    Machine.codeWord code a =
      Machine.memRead code (a + 3) ++ Machine.memRead code (a + 2) ++ Machine.memRead code (a + 1) ++ Machine.memRead code a := by
  apply BitVec.eq_of_toNat_eq
  have hsum (x3 x2 x1 x0 : Byte) : (x3 ++ x2 ++ x1 ++ x0).toNat = x0.toNat + 256 * (x1.toNat + 256 * (x2.toNat + 256 * x3.toNat)) := by
    rw [BitVec.toNat_append, BitVec.toNat_append, BitVec.toNat_append, ← Nat.shiftLeft_add_eq_or_of_lt x0.isLt,
      ← Nat.shiftLeft_add_eq_or_of_lt x1.isLt, ← Nat.shiftLeft_add_eq_or_of_lt x2.isLt, Nat.shiftLeft_eq, Nat.shiftLeft_eq,
      Nat.shiftLeft_eq]
    omega
  rw [hsum, Machine.codeWord, BitVec.toNat_ofNat]
  simp only [Machine.memReadN, Nat.add_assoc, Nat.reduceAdd, Nat.mul_zero, Nat.add_zero]
  omega

/-- The bytes of three words. -/
theorem parcelsOf_code (code : Machine.Memory) (a : Nat) :
    parcelsOf ((List.range 12).map fun k => Machine.memRead code (a + k)) =
      [Machine.codeWord code a, Machine.codeWord code (a + 4), Machine.codeWord code (a + 8)] := by
  rw [codeWord_eq, codeWord_eq, codeWord_eq]
  rfl

theorem decodeRaw_checks {priv : Bool} {r : Raw} {i : Instr} (h : decodeRaw priv r = .ok i) :
    wellFormed i = true ∧ encodeRaw i = some r := by
  unfold decodeRaw at h
  split_ifs at h
  split at h
  · split_ifs at h with hc
    cases h
    exact (Bool.and_eq_true_iff.mp hc).imp_right of_decide_eq_true
  · cases h

theorem decodeParcels_checks {priv : Bool} {ps : List Word32} {i : Instr} {n : Nat} (h : decodeParcels priv ps = .ok (i, n)) :
    wellFormed i = true ∧ ∃ r, encodeRaw i = some r := by
  cases ps with
  | nil => cases h
  | cons p rest =>
    simp only [decodeParcels] at h
    cases hr : Raw.ofParcels (p :: rest) with
    | none =>
      rw [hr] at h
      cases h
    | some r =>
      cases hd : decodeRaw priv r with
      | error e => simp [hr, hd] at h
      | ok j =>
        obtain ⟨rfl, -⟩ : j = i ∧ _ := by simpa [hr, hd] using h
        exact (decodeRaw_checks hd).imp_right fun he => ⟨r, he⟩

end Sys2Proof

namespace Sys2Proof.Machine

/-- What a fetch that passes the checks of R87 finds: a well-formed instruction with an encoding, decoded from the bytes at the PC. -/
theorem fetchAt_checks {code : Memory} {size n : Nat} {priv : Bool} {pc : Word32} {i : Instr} (h : fetchAt code size priv pc = .ok (i, n)) :
    wellFormed i = true ∧ (∃ r, encodeRaw i = some r) ∧
      decode priv ((List.range 12).map fun k => memRead code (pc.toNat + k)) = .ok (i, n) := by
  unfold fetchAt at h
  dsimp only at h
  split_ifs at h
  obtain ⟨hw, he⟩ := decodeParcels_checks h
  exact ⟨hw, he, by rw [decode, parcelsOf_code, h]⟩

/-- No event has an encoding: only memory holds programs. -/
theorem isEvent_and_encodes_eq_false (i : Instr) : (isEvent i && (encodeRaw i).isSome) = false := by
  cases i with
  | _ => rfl

/-! ### The choice of a gang -/

section
variable {s : State} {c : Candidate} {core port : Nat}

theorem firstByKey_mem {cs : List Candidate} (h : firstByKey s cs = some c) : c ∈ cs := by
  have hfold (r : List Candidate) (b : Candidate) :
      r.foldl (fun a b => if keyBefore (b.key s) (a.key s) then b else a) b ∈ b :: r := by
    induction r generalizing b with
    | nil => exact List.mem_cons_self
    | cons x r ih =>
      rw [List.foldl_cons]
      rcases List.mem_cons.1 (ih (if keyBefore (x.key s) (b.key s) then x else b)) with hm | hm
      · rw [hm]
        split <;> simp
      · exact List.mem_cons_of_mem _ (List.mem_cons_of_mem _ hm)
  cases cs with
  | nil => cases h
  | cons b r =>
    cases h
    exact hfold r b

theorem portChoice_mem (h : portChoice s core port = some c) : c ∈ candidates s core port := by
  unfold portChoice at h
  simp only at h
  split at h
  case _ x hx =>
    cases h
    split_ifs at hx
    rcases Option.or_eq_some_iff.1 hx with hx | ⟨-, hx⟩
    · exact List.mem_of_mem_filter (List.mem_of_mem_filter (firstByKey_mem hx))
    · exact List.mem_of_mem_filter (List.mem_of_mem_filter (firstByKey_mem hx))
  case _ =>
    split_ifs at h
    exact List.mem_of_mem_filter (firstByKey_mem h)

theorem nextIssue_mem (h : nextIssue s = some c) : ∃ core port, c ∈ candidates s core port := by
  obtain ⟨core, -, hc⟩ := List.exists_of_findSome?_eq_some h
  cases h0 : portChoice s core 0 with
  | some x =>
    rw [h0] at hc
    cases hc
    exact ⟨core, 0, portChoice_mem h0⟩
  | none =>
    rw [h0] at hc
    exact ⟨core, 1, portChoice_mem hc⟩

/-- A candidate is a gang of a group that is ready, which does not wait, with the instruction it holds. -/
theorem candidates_spec (h : c ∈ candidates s core port) :
    s.group c.gid = some c.g ∧ c.g.ready = true ∧ c.g.waiting (c.g.gangSlices c.gang) = false ∧
      heldInstr s c.g c.gang = some c.instr := by
  obtain ⟨⟨g, gid⟩, hx, hc⟩ := List.mem_flatMap.1 h
  obtain ⟨n, hn, hi⟩ := List.mem_filterMap.1 hc
  obtain ⟨i, hheld, rfl⟩ := Option.map_eq_some_iff.1 hi
  obtain ⟨hmem, hready⟩ := List.mem_filter.1 hx
  obtain ⟨-, hwait⟩ := List.mem_filter.1 hn
  simp only [Bool.and_eq_true, Bool.not_eq_true'] at hready hwait
  obtain ⟨⟨⟨-, hready⟩, -⟩, -⟩ := hready
  obtain ⟨⟨hwait, -⟩, -⟩ := hwait
  exact ⟨List.mem_zipIdx_iff_getElem?.1 hmem, hready, hwait, hheld⟩

/-- The instruction a gang holds is what the fetch at the PC of its first slice finds. -/
theorem heldInstr_eq {g : Group} {gang : BitVec 3} {j : Nat} {rest : List Nat} (h : g.gangSlices gang = j :: rest) :
    heldInstr s g gang =
      some ((fetchAt (s.codeOf g).1 (s.codeOf g).2 g.priv (g.slices.get j).pc).map fun x => x.1) := by
  simp only [heldInstr, h]

theorem plan_of_nextIssue (hr : nextRequest s = none) (hc : nextCell s = none) (hf : nextFormation s = none)
    (ht : s.tick % 2 = 1 ∨ dueEvents s = []) (h : nextIssue s = some c) : plan s = c.plan s := by
  have he : (if s.tick % 2 = 0 then dueEvents s else []) = [] := by
    rcases ht with ht | ht
    · rw [if_neg (by omega)]
    · rw [ht, ite_self]
  simp [plan, hr, hc, hf, he, h]

theorem Candidate.plan_of_ok {i : Instr} (h : c.instr = .ok i) (hp : c.payable s = true) : c.plan s = .issue i ⟨c.gid, c.gang⟩ := by
  simp [Candidate.plan, h, hp]

/-- What `plan` lets a gang try is the next choice of a port, and that candidate's instruction. -/
theorem plan_candidate {i : Instr} {cur : Issuer} (h : plan s = .issue i cur ∨ plan s = .probe i cur) :
    ∃ c, nextIssue s = some c ∧ c.instr = .ok i ∧ cur = ⟨c.gid, c.gang⟩ := by
  unfold plan at h
  dsimp only at h
  split at h
  · simp at h
  split at h
  · simp at h
  split at h
  · simp at h
  split at h
  case _ c hc =>
    refine ⟨c, hc, ?_⟩
    unfold Candidate.plan at h
    split at h
    · simp at h
    case _ j hj =>
      rw [hj]
      split_ifs at h <;> simp_all
  · simp at h

/-- Rousing a core changes cores alone. -/
theorem State.roused_eq (s : State) : s.roused = { s with cores := s.roused.cores } := by
  unfold State.roused
  split
  · split <;> rfl
  · rfl

@[simp] theorem State.roused_group (s : State) (n : Nat) : s.roused.group n = s.group n := by
  rw [State.roused_eq]
  rfl

@[simp] theorem State.roused_cur (s : State) : s.roused.cur = s.cur := by rw [State.roused_eq]

/-- A candidate's gang can issue, from the PC of its first slice, and its instruction passed the checks of R87. -/
theorem candidate_issues {i : Instr} (h : c ∈ candidates s core port) (hi : c.instr = .ok i) :
    ∃ x n, issueOf (s.ticked ⟨c.gid, c.gang⟩).roused = some x ∧ x.gid = c.gid ∧ x.gang = c.gang ∧
      fetchAt (s.codeOf x.g).1 (s.codeOf x.g).2 x.g.priv x.pc = .ok (i, n) := by
  obtain ⟨hg, hready, hwait, hheld⟩ := candidates_spec h
  cases hs : c.g.gangSlices c.gang with
  | nil => simp [heldInstr, hs] at hheld
  | cons j rest =>
    rw [heldInstr_eq hs, hi] at hheld
    cases hf : fetchAt (s.codeOf c.g).1 (s.codeOf c.g).2 c.g.priv (c.g.slices.get j).pc with
    | error e => simp [hf, Except.map] at hheld
    | ok x =>
      obtain ⟨i', n⟩ := x
      obtain rfl : i' = i := by simpa [hf, Except.map] using hheld
      have hg' : (s.ticked ⟨c.gid, c.gang⟩).group c.gid = some c.g := hg
      have hcur : (s.ticked ⟨c.gid, c.gang⟩).cur = ⟨c.gid, c.gang⟩ := rfl
      rw [hs] at hwait
      have hissue : issueOf (s.ticked ⟨c.gid, c.gang⟩).roused = some ⟨c.gid, c.g, c.gang, j :: rest, (c.g.slices.get j).pc⟩ := by
        simp [issueOf, hcur, hg', hs, hready, hwait]
      exact ⟨_, n, hissue, rfl, rfl, hf⟩
end

/-! ### A step -/

section
variable {s : State} {e : Instr} {rest : List Instr}

/-- What is on the agenda comes first, unless the cycle's issues come before it. -/
theorem step_of_agenda (h : s.agenda = e :: rest) (he : isEvent e = true) (hf : frozen s e = false) (ho : outOfTurn s e = false) :
    step s = onNext (exec e { s with agenda := rest }) fixTurns := by
  simp [step, h, he, hf, ho]

/-- An entry of the agenda that cannot happen is dropped. -/
theorem step_drops (h : s.agenda = e :: rest) (hd : isEvent e = false ∨ frozen s e = true) :
    step s = .next { s with agenda := rest } := by
  simp [step, h, hd]

/-- Otherwise the machine chooses. -/
theorem step_chooses
    (h : s.agenda = [] ∨ ∃ e rest, s.agenda = e :: rest ∧ isEvent e = true ∧ frozen s e = false ∧ outOfTurn s e = true) :
    step s = planned s := by
  rcases h with h | ⟨e, rest, h, he, hf, ho⟩
  · simp [step, h]
  · simp [step, h, he, hf, ho]
end

end Sys2Proof.Machine

open Sys2Proof.Machine

/-- Settles O60: a step is what the agenda or `plan` names; what `plan` names for a gang is a candidate of a port, whose instruction was
fetched at the gang's PC. -/
theorem stepsRunDecodedInstructions : Obligations.StepsRunDecodedInstructions := by
  unfold Obligations.StepsRunDecodedInstructions
  intro s
  refine ⟨fun e rest t h he hf ho ht => ?_, fun e rest h hd => step_drops h hd, fun h => ?_, fun i cur h => ?_⟩
  · rw [step_of_agenda h he hf ho, ht]
    rfl
  · rw [step_chooses h, planned]
    refine ⟨fun e t hp ht => ?_, fun i cur t hp ht => ?_, fun i cur t hp ht => ?_, ?_⟩
    · simp only [hp, ht, onNext]
    · simp only [hp, ht, onNext]
    · simp only [hp, ht, onNext]
    · intro c i n j rest t hr hc hf htick hn hs hfetch hpay ht
      obtain ⟨core, port, hmem⟩ := nextIssue_mem hn
      obtain ⟨-, -, -, hheld⟩ := candidates_spec hmem
      have hi : c.instr = .ok i := by
        rw [heldInstr_eq hs, hfetch] at hheld
        exact (Option.some.inj hheld).symm
      have hp := (plan_of_nextIssue hr hc hf htick hn).trans (Candidate.plan_of_ok hi hpay)
      simp only [hp, ht, onNext]
  · obtain ⟨c, hn, hi, rfl⟩ := plan_candidate h
    obtain ⟨core, port, hmem⟩ := nextIssue_mem hn
    obtain ⟨x, n, hx, hgid, hgang, hfetch⟩ := candidate_issues hmem hi
    obtain ⟨hw, ⟨r, he⟩, hdec⟩ := fetchAt_checks hfetch
    have hev : isEvent i = false := by simpa [he] using isEvent_and_encodes_eq_false i
    exact ⟨x, n, hx, hgid, hgang, hw, hev, hfetch, hdec⟩
end

section
/-! Lane pairs and weaves (R75 to R79, R136): an instruction that writes several words per lane completes. -/

open Sys2Proof
namespace Sys2Proof.Machine

/-! ### Several words written -/

/-- Room for the names an instruction writes is room for writes of those names. -/
theorem cellsNeeded_of_fits {c : Issue} {s : State} {rs : List NameRead} {ds : List (Pred × Nat)} {ws : List NameWrite}
    (h : c.fits s rs ds = true) {i : Nat} (hi : i ∈ c.sls)
    (hw : ws.map (fun w => (w.mask i, w.name)) = ds.map fun d => ((c.g.slices.get i).active d.1, d.2)) :
    cellsNeeded s c (fun _ sl => sl.consumeAll rs) ws i = 0 := by
  have hx := of_decide_eq_true (List.all_eq_true.mp h i hi)
  have hnames (q : Nat → Bool) : (ws.filter fun w => w.mask i != 0 && q w.name).map (fun w => w.name) =
      ((c.g.slices.get i).writing ds).filter q :=
    calc (ws.filter fun w => w.mask i != 0 && q w.name).map (fun w => w.name)
      _ = ((ws.map fun w => (w.mask i, w.name)).filter fun x => x.1 != 0 && q x.2).map Prod.snd := by
        rw [List.filter_map, List.map_map]
        rfl
      _ = (ds.filter fun d => (c.g.slices.get i).active d.1 != 0 && q d.2).map Prod.snd := by
        rw [hw, List.filter_map, List.map_map]
        rfl
      _ = ((c.g.slices.get i).writing ds).filter q := by
        rw [Slice.writing, List.filter_map, List.filter_filter]
        exact congrArg (List.map Prod.snd) (List.filter_congr fun d _ => Bool.and_comm _ _)
  unfold cellsNeeded
  simp only
  rw [hnames fun n => (((c.g.slices.get i).consumeAll rs).cell n).isNone]
  exact Nat.sub_eq_zero_of_le hx

/-- Of several words written to different names, each holds on the lanes of its mask what was written there (R35). -/
theorem Slice.holds_committed (sl : Slice) (rs : List NameRead) {ws : List NameWrite} {w : NameWrite} {i l : Nat} (stamp : Nat)
    (fl : FlagSet) (hw : w ∈ ws) (hn : (ws.map fun w => w.name).Nodup) (hfull : w.full = true) (hl : l < 4)
    (hm : (w.mask i).getLsbD l = true) : (sl.committed rs ws i stamp fl).Holds w.name l w.uses (w.data i l) := by
  have hother (vs : List NameWrite) (x : Slice) (h : ∀ v ∈ vs, v.name ≠ w.name) :
      (vs.foldl (fun x w => x.writeName w.name w.uses (w.mask i) (w.data i) w.full (stamp + w.name % 16)) x).cell w.name =
        x.cell w.name := by
    induction vs generalizing x with
    | nil => rfl
    | cons v vs ih =>
      rw [List.foldl_cons, ih _ fun u hu => h u (List.mem_cons_of_mem _ hu),
        Slice.cell_writeName_other _ _ _ _ _ _ (h v List.mem_cons_self).symm]
  obtain ⟨pre, post, rfl⟩ := List.append_of_mem hw
  have hpost : ∀ v ∈ post, v.name ≠ w.name := by
    rw [List.map_append, List.map_cons] at hn
    have hnot := (List.nodup_cons.1 (List.nodup_append.1 hn).2.1).1
    exact fun v hv he => hnot (he ▸ List.mem_map_of_mem hv)
  obtain ⟨k, hk, hf, hd⟩ := Slice.cell_writeName_self
    (pre.foldl (fun x w => x.writeName w.name w.uses (w.mask i) (w.data i) w.full (stamp + w.name % 16)) (sl.consumeAll rs))
    w.name w.uses (w.data i) w.full (stamp + w.name % 16) hl hm
  refine ⟨k, ?_, hf.trans hfull, hd⟩
  show ((pre ++ w :: post).foldl _ (sl.consumeAll rs)).cell w.name = some k
  rw [List.foldl_append, List.foldl_cons, hother post _ hpost, hk]

theorem Slice.Holds.of_cell {sl sl' : Slice} {n l : Nat} {uses : BitVec 3} {v : Word32} (h : sl'.Holds n l uses v)
    (he : sl.cell n = sl'.cell n) : sl.Holds n l uses v := by
  obtain ⟨k, hk, hd⟩ := h
  exact ⟨k, he.trans hk, hd⟩

/-- A commit completes: the gang moves on, and the names, predicates and flags of its slices are those that the commit left. -/
theorem Issue.advance_committed {c : Issue} {s u s2 : State} {rs : List NameRead} {ws : List NameWrite} {fl : Nat → FlagSet}
    {stamp : Nat} (len : Nat) (price : Price) (hi : issueOf s = some c)
    (w : c.Working u s2 (c.apply c.g stamp (fun _ sl => sl.consumeAll rs) ws fl)) :
    ∃ g, c.Ends u (c.advance s2 len price) price g (c.past len) ∧ c.KeepsGroup g ∧
      ∀ j ∈ c.sls, (∀ n, (g.slices.get j).cell n = ((c.g.slices.get j).committed rs ws j stamp (fl j)).cell n) ∧
        (g.slices.get j).preds = (c.g.slices.get j).preds ∧
        (g.slices.get j).fflags = (c.g.slices.get j).fflags ||| (fl j).word := by
  have hn := issueOf_nodup hi
  have hb := issueOf_lt hi
  have hget := fun (j : Nat) (hj : j < 8) => Issue.apply_get (c := c) c.g stamp rs ws fl hn hb hj
  have heq := Issue.apply_eq c c.g stamp (fun _ sl => sl.consumeAll rs) ws fl
  generalize c.apply c.g stamp (fun _ sl => sl.consumeAll rs) ws fl = g1 at w hget heq
  have hE := Issue.advance_ends_of hn hb w len price
    (fun j hj hnj => by rw [hget j hj, if_neg hnj]) (by rw [heq])
  refine ⟨_, ⟨hE.toAccounts, hE.others, fun j hj => ?_⟩, ?_, fun j hj => ?_⟩
  · obtain ⟨hpath, hexited⟩ := hE.stands j hj
    rw [hpath, hexited, Issue.pastGroup_get len _ hn hb (hb j hj), if_pos hj, hget j (hb j hj), if_pos hj, Slice.committed_same]
    exact ⟨Slice.settle_path rfl rfl, rfl⟩
  · refine Issue.doneGroup_keeps (x := (c.pastGroup len g1).slices) ?_ _ _
    rw [Issue.pastGroup, Group.modSlices_eq, heq]
  · obtain ⟨k, q, hk⟩ := Issue.advanced_get hi s2.tick len g1 price hj
    rw [hget j (hb j hj), if_pos hj] at hk
    rw [hk]
    refine ⟨fun n => rfl, ?_, ?_⟩
    · rw [Slice.committed_same]
      rfl
    · rw [Slice.committed_same]
      rfl

/-! ### Lane pairs -/

/-- The write of a half's result (R79). -/
def halfWrite (c : Issue) (h : Half) : NameWrite where
  name := h.dst.toNat
  uses := (halfDest h).uses
  mask i := (c.g.slices.get i).active (halfPred h)
  data i l := BitVec.ofNat 32 (halfResult h (c.g.slices.get i) l).1

/-- The flags a half raises in a slice (R64). -/
def halfFlags (c : Issue) (h : Half) (i : Nat) : FlagSet :=
  flagsOn ((c.g.slices.get i).active (halfPred h)) fun l => (halfResult h (c.g.slices.get i) l).2

theorem execLanePair_ready {c : Issue} {s s1 : State} {x y : Half}
    (h : c.Ready s (halfReads x ++ halfReads y) [(halfPred x, x.dst.toNat), (halfPred y, y.dst.toNat)])
    (hc : c.commit s (halfReads x ++ halfReads y) [halfWrite c x, halfWrite c y] (fun i => halfFlags c x i ||| halfFlags c y i) = .ok s1) :
    exec (.lanePair x y) s = .next (c.advance s1 12 pricePair) := by
  show execLanePair x y s = _
  unfold execLanePair
  simp only [h.issues]
  exact congrArg _ (laneStep_ready h _ (congrArg (Commit.map · fun s => c.advance s 12 pricePair) hc))

/-- The halves of a pair write different names (R77). -/
theorem lanePair_dst_ne {x y : Half} (h : wellFormed (.lanePair x y) = true) : x.dst.toNat ≠ y.dst.toNat := by
  have h' : (pairAssigned x y && pairAllowed x y) = true := h
  simp only [pairAllowed, Bool.and_eq_true, bne_iff_ne] at h'
  obtain ⟨-, ⟨⟨⟨⟨⟨-, hne⟩, -⟩, -⟩, -⟩, -⟩, -⟩ := h'
  exact fun he => hne (by rw [he])

/-! ### Weaves -/

theorem Core.prick_stamp (key : Nat) (k : Core) (n : Nat) : Core.prick { k with stamp := n } key = { k.prick key with stamp := n } := rfl

theorem Issue.Working.patKey {c : Issue} {s s1 : State} {g1 : Group} (w : c.Working s s1 g1) (g : Group) (a : Word32) :
    Machine.patKey s1 g a = Machine.patKey s g a := by
  rw [w.state]
  rfl

/-- What a slice's lanes compute by a pattern (R136). -/
def Issue.weaveRun (c : Issue) (s : State) (p : Pred) (a b e : Src) (n : BitVec 2) (pat : BitVec 26) (j : Nat) : Temps × FlagSet :=
  patRun (c.arithOf j) ((c.g.slices.get j).active p) (patWords (s.codeOf c.g).1 (patAddr c.pc pat).toNat)
    (Quad.make fun l => [(c.g.slices.get j).value false l a.name, if 2 ≤ n.toNat then (c.g.slices.get j).value false l b.name else 0,
      if n.toNat = 3 then (c.g.slices.get j).value false l e.name else 0, 0, 0, 0, 0, 0], 0)

/-- The names a weave reads (R134). -/
def weaveReads (p : Pred) (a b e : Src) (n : BitVec 2) : List NameRead :=
  readsOf p false a ++ (if 2 ≤ n.toNat then readsOf p false b else []) ++ (if n.toNat = 3 then readsOf p false e else [])

theorem execWeave_ready {c : Issue} {s s1 : State} {p : Pred} {d : Dst} {a b e : Src} {n : BitVec 2} {pat : BitVec 26}
    (h : c.Ready s (weaveReads p a b e n) ((destNames false d).map fun k => (p, k)))
    (hsize : (patAddr c.pc pat).toNat + 64 ≤ (s.codeOf c.g).2)
    (hok : patOk (patWords (s.codeOf c.g).1 (patAddr c.pc pat).toNat) = true)
    (hc : c.commit s (weaveReads p a b e n)
      (destWrites false d (fun j => (c.g.slices.get j).active p) fun j l => temp (c.weaveRun s p a b e n pat j).1 l 0)
      (fun j => (c.weaveRun s p a b e n pat j).2) = .ok s1) :
    exec (.weave p d a b e n pat) s =
      .next (c.advance (s1.modCore c.g.core fun k => k.prick (patKey s1 c.g (patAddr c.pc pat))) 12 priceLane) := by
  have hentry : trapIf (decide ((s.codeOf c.g).2 < (patAddr c.pc pat).toNat + 64) ||
      !patOk (patWords (s.codeOf c.g).1 (patAddr c.pc pat).toNat)) 1 = none := by
    simp [hok, trapIf, Nat.not_lt.2 hsize]
  show execWeave p d a b e n pat s = _
  unfold execWeave
  simp only [h.issues]
  refine congrArg _ (laneStep_operands h.toOperands hentry _ ?_)
  exact congrArg (Commit.map · fun s =>
    c.advance (s.modCore c.g.core fun k => k.prick (patKey s c.g (patAddr c.pc pat))) 12 priceLane) hc

end Sys2Proof.Machine

open Sys2Proof.Machine

/-- Settles O15: both instructions commit their reads and writes at once and move on; the halves of a pair write different names. -/
theorem pairsAndWeavesComplete : Obligations.PairsAndWeavesComplete := by
  unfold Obligations.PairsAndWeavesComplete
  intro s c x y p d a b e n pat sl flags
  refine ⟨fun hw h => ?_, ?_⟩
  · obtain ⟨s1, hc, w⟩ := Issue.commit_ok h.issues (halfReads x ++ halfReads y) [halfWrite c x, halfWrite c y]
      (fun i => halfFlags c x i ||| halfFlags c y i) fun i hi => cellsNeeded_of_fits h.room hi rfl
    obtain ⟨g, hends, hkeeps, hsl⟩ := Issue.advance_committed 12 pricePair h.issues w
    refine ⟨_, g, execLanePair_ready h hc, hends, hkeeps, fun j hj => ?_⟩
    obtain ⟨hcell, hpreds, hflags⟩ := hsl j hj
    refine ⟨fun k hk l hl hm => ?_, fun m hm => ?_, hpreds, hflags⟩
    · have hmem : halfWrite c k ∈ [halfWrite c x, halfWrite c y] := by
        rcases hk with rfl | rfl <;> simp
      have hnodup : ([halfWrite c x, halfWrite c y].map fun w => w.name).Nodup := by
        simpa [halfWrite] using lanePair_dst_ne hw
      exact (Slice.holds_committed _ _ _ _ hmem hnodup rfl hl hm).of_cell (hcell _)
    · rw [hcell]
      refine Slice.cell_committed_other _ _ _ _ _ _ fun w hw he => hm ?_
      rcases List.mem_pair.1 hw with rfl | rfl <;> simp [← he, halfWrite]
  · intro rs addr ws run h hsize hok
    obtain ⟨s1, hc, w⟩ := Issue.commit_ok h.issues rs
      (destWrites false d (fun j => (sl j).active p) fun j l => temp (run j).1 l 0) (fun j => (run j).2)
      fun i hi => cellsNeeded_destWrites h.room _ true hi
    have w' := w.modCore (fun k => k.prick (patKey s c.g addr)) (Core.prick_stamp _)
    obtain ⟨g, hends, hkeeps, hsl⟩ := Issue.advance_committed 12 priceLane h.issues w'
    have hx : exec (.weave p d a b e n pat) s =
        .next (c.advance (s1.modCore c.g.core fun k => k.prick (patKey s c.g addr)) 12 priceLane) := by
      rw [← w.patKey]
      exact execWeave_ready h hsize hok hc
    refine ⟨_, g, hx, hends, hkeeps, fun j hj => ?_⟩
    obtain ⟨hcell, hpreds, hflags⟩ := hsl j hj
    refine ⟨fun l hl hm => ?_, fun m hm => ?_, hpreds, hflags⟩
    · refine Slice.Holds.of_cell ?_ (hcell _)
      exact (Slice.committed_dest _ _ d false (fun j => (sl j).active p) _ true _ _ _ hl hm).1
    · rw [hcell]
      exact Slice.cell_committed_other _ _ _ _ _ _ fun w hw he => hm (he ▸ destWrites_name hw)
end

section
/-! Lane accesses (R73, R88, R156, R157, R190 to R192): each participating lane's access is resolved at its own address, and what an access
does outside its names touches neither groups nor cores. -/

open Sys2Proof
namespace Sys2Proof.Machine

/-! ### Effects outside groups and cores -/

/-- A change of the state that touches neither groups nor cores, and takes nothing from them. -/
def ApartFromGroups (h : State → State) : Prop :=
  ∀ (s : State) gs cs, h { s with groups := gs, cores := cs } = { h s with groups := gs, cores := cs }

theorem ApartFromGroups.comp {h k : State → State} (hh : ApartFromGroups h) (hk : ApartFromGroups k) :
    ApartFromGroups fun s => h (k s) := fun s gs cs => (congrArg h (hk s gs cs)).trans (hh (k s) gs cs)

theorem ApartFromGroups.foldl {α : Type} {f : State → α → State} (xs : List α) (h : ∀ x, ApartFromGroups fun s => f s x) :
    ApartFromGroups fun s => xs.foldl f s := by
  induction xs with
  | nil => exact fun s gs cs => rfl
  | cons x xs ih => exact ih.comp (h x)

theorem apartFromGroups_startFills (gid team : Nat) (win : Option (Nat × Nat)) (n : Nat) :
    ApartFromGroups fun s => startFills s gid team win n := by
  cases win with
  | none => exact fun s gs cs => rfl
  | some w => exact ApartFromGroups.foldl (segmentsAt w.2 n) fun j s gs cs => rfl

theorem apartFromGroups_markDirty (team : Nat) (win : Option (Nat × Nat)) (n : Nat) :
    ApartFromGroups fun s => markDirty s team win n := by
  cases win with
  | none => exact fun s gs cs => rfl
  | some w => exact ApartFromGroups.foldl (segmentsAt w.2 n) fun j s gs cs => rfl

theorem apartFromGroups_launchFlights (c : Issue) (m : Mem) (n : Nat) (xs : List ((Nat × Nat) × Nat × Target))
    (op : Nat × Nat → FlightOp) (acq rel : Bool) : ApartFromGroups fun s => launchFlights s c m n xs op acq rel := fun _ _ _ => rfl

/-- The accesses of a load begun, and the fills of the absent segments they touch (R156, R161). -/
def Issue.launchLoads (c : Issue) (m : Mem) (n : Nat) (xs : List ((Nat × Nat) × Nat × Target)) (op : Nat × Nat → FlightOp)
    (s : State) : State :=
  xs.foldl (fun s x => startFills s c.gid c.g.team x.2.2.win n) (launchFlights s c m n xs op false false)

theorem apartFromGroups_launchLoads (c : Issue) (m : Mem) (n : Nat) (xs : List ((Nat × Nat) × Nat × Target))
    (op : Nat × Nat → FlightOp) : ApartFromGroups (c.launchLoads m n xs op) :=
  (ApartFromGroups.foldl xs fun x => apartFromGroups_startFills c.gid c.g.team x.2.2.win n).comp
    (apartFromGroups_launchFlights c m n xs op false false)

/-- The accesses of a store or an atomic begun, and the segments they write marked (R157, R161, R191). -/
def Issue.launchStores (c : Issue) (m : Mem) (n : Nat) (xs : List ((Nat × Nat) × Nat × Target)) (op : Nat × Nat → FlightOp)
    (acq rel : Bool) (s : State) : State :=
  xs.foldl (fun s x => markDirty s c.g.team x.2.2.win n) (launchFlights s c m n xs op acq rel)

theorem apartFromGroups_launchStores (c : Issue) (m : Mem) (n : Nat) (xs : List ((Nat × Nat) × Nat × Target))
    (op : Nat × Nat → FlightOp) (acq rel : Bool) : ApartFromGroups (c.launchStores m n xs op acq rel) :=
  (ApartFromGroups.foldl xs fun x => apartFromGroups_markDirty c.g.team x.2.2.win n).comp
    (apartFromGroups_launchFlights c m n xs op acq rel)

/-- A commit numbers no flight. -/
theorem Issue.commit_nextFlight {c : Issue} {s s1 : State} {rs : List NameRead} {ws : List NameWrite} {fl : Nat → FlagSet}
    (h : c.commit s rs ws fl = .ok s1) : s1.nextFlight = s.nextFlight := by
  unfold Issue.commit Issue.commitWith at h
  dsimp only at h
  split_ifs at h
  cases h
  rfl

/-! ### Where the lanes' accesses go -/

theorem targetList_ok {α : Type} (xs : List α) : targetList (.ok xs) = xs := rfl

theorem accessTarget_aligned {s : State} {g : Group} {space : Space} {win a n : Nat} {store : Bool} {x : Target}
    (h : accessTarget s g space win a n store = .ok x) : a % min n 16 = 0 := by
  unfold accessTarget at h
  dsimp only at h
  split at h
  · cases h
  · split_ifs at h with ha
    exact ha

/-- The resolved accesses are those of the participating lanes in turn, each at its own address. -/
theorem laneTargets_spec {s : State} {c : Issue} {p : Pred} {m : Mem} {n : Nat} {store : Bool} {xs : List ((Nat × Nat) × Nat × Target)}
    (h : laneTargets s c p m n store = .ok xs) :
    xs.map (fun x => x.1) = c.lanes p ∧ ∀ x ∈ xs, x.2.1 = laneAddr c.g m x.1.1 x.1.2 ∧
      accessTarget s c.g m.space m.win.toNat x.2.1 n store = .ok x.2.2 := by
  unfold laneTargets at h
  generalize c.lanes p = ls at h ⊢
  induction ls generalizing xs with
  | nil =>
    cases h
    simp
  | cons l ls ih =>
    rw [List.foldr_cons] at h
    dsimp only at h
    split at h
    · cases h
    case _ t ht =>
      split at h
      · cases h
      case _ ys hys =>
        cases h
        obtain ⟨hmap, hall⟩ := ih hys
        refine ⟨congrArg (l :: ·) hmap, fun x hx => ?_⟩
        rcases List.mem_cons.1 hx with rfl | hx
        · exact ⟨rfl, ht⟩
        · exact hall x hx

/-! ### The instructions -/

section
variable {s : State} {c : Issue} {p : Pred} {d : Dst} {m : Mem} {t : Ty} {xs : List ((Nat × Nat) × Nat × Target)}

theorem ld_leaves {n : BitVec 2}
    (h : c.Ready s (memReads p m) ((elementNames d.name.toNat (2 ^ n.toNat) t.wide).map fun k => (p, k)) [m.base])
    (hx : laneTargets s c p m (2 ^ n.toNat * t.bytes) false = .ok xs) :
    c.Leaves s (.ld p d m n t)
      (c.launchLoads m (2 ^ n.toNat * t.bytes) xs (fun _ => .load d.name.toNat (2 ^ n.toNat) t) s)
      priceLane (memReads p m) p (elementNames d.name.toNat (2 ^ n.toNat) t.wide) d.uses s.nextFlight := by
  refine Issue.leaves_lift h.issues h.room (fun s1 hc => ?_) (apartFromGroups_launchLoads c m _ xs _)
  rw [← Issue.commit_nextFlight hc]
  show execLd p d m n t s = _
  unfold execLd
  simp only [h.issues, hx]
  refine congrArg _ (laneStep_operands h.toOperands rfl _ ?_)
  rw [hc]
  rfl

theorem st_lands {b : Src} {n : BitVec 2}
    (h : c.Ready s (memReads p m ++
      (elementNames b.name.toNat (2 ^ n.toNat) t.wide).map fun k => ⟨p, { b with name := BitVec.ofNat 9 k }⟩) [] [m.base])
    (hx : laneTargets s c p m (2 ^ n.toNat * t.bytes) true = .ok xs)
    (hready : ∀ y ∈ xs, storeReady s c.g.team y.2.2.win (2 ^ n.toNat * t.bytes) = true) :
    c.Lands s (.st p m b n t)
      (c.launchStores m (2 ^ n.toNat * t.bytes) xs
        (fun y => .store (storeData (c.g.slices.get y.1) y.2 b.name.toNat (2 ^ n.toNat) t)) false false s)
      c.g priceLane (memReads p m ++
        (elementNames b.name.toNat (2 ^ n.toNat) t.wide).map fun k => ⟨p, { b with name := BitVec.ofNat 9 k }⟩) := by
  refine Issue.lands_lift (f := id) h.issues (fun s1 hc => ?_) (apartFromGroups_launchStores c m _ xs _ _ _)
  show execSt p m b n t s = _
  unfold execSt
  simp only [h.issues, hx]
  refine congrArg _ (laneStep_operands h.toOperands rfl _ ?_)
  rw [targetList_ok, if_pos (List.all_eq_true.2 hready), hc]
  rfl

theorem atom_leaves {b x : Src} {op : AtomOp} {ord : Order}
    (h : c.Ready s (memReads p m ++ readsOf p t.wide b ++ (if op = .cas then readsOf p t.wide x else []))
      ((elementNames d.name.toNat 1 t.wide).map fun k => (p, k)) [m.base])
    (hx : laneTargets s c p m t.bytes true = .ok xs) (hready : ∀ y ∈ xs, storeReady s c.g.team y.2.2.win t.bytes = true) :
    c.Leaves s (.atom p d m b x op ord t)
      (c.launchStores m t.bytes xs (fun y => .atom op t ((c.g.slices.get y.1).value t.wide y.2 b.name)
        ((c.g.slices.get y.1).value t.wide y.2 x.name) d.name.toNat (c.g.slices.get y.1).fmt)
        (ord == .acq || ord == .ar) (ord == .rel || ord == .ar) s)
      priceLane (memReads p m ++ readsOf p t.wide b ++ (if op = .cas then readsOf p t.wide x else [])) p
      (elementNames d.name.toNat 1 t.wide) d.uses s.nextFlight := by
  refine Issue.leaves_lift h.issues h.room (fun s1 hc => ?_) (apartFromGroups_launchStores c m _ xs _ _ _)
  rw [← Issue.commit_nextFlight hc]
  show execAtom p d m b x op ord t s = _
  unfold execAtom
  simp only [h.issues, hx]
  refine congrArg _ (laneStep_operands h.toOperands rfl _ ?_)
  rw [targetList_ok, if_pos (List.all_eq_true.2 hready), hc]
  rfl
end

/-- The place of a fence among the accesses of its group (R192). -/
def Issue.fenceFlight (c : Issue) (s : State) : State :=
  { s with flights := s.flights ++ [(s.nextFlight, { group := c.gid, pc := c.pc, instr := s.nextFlight, op := .fence })],
           nextFlight := s.nextFlight + 1 }

theorem fence_moves {s : State} {c : Issue} (scope : Scope) (h : issueOf s = some c) :
    c.Moves s (.fence scope) (c.fenceFlight s) c.g priceLane (c.past 12) := by
  have w := ((Issue.working_refl (issueOf_some h).1).lift c.fenceFlight fun _ _ _ => rfl).on c.g rfl
  refine Issue.moves_on h w rfl ?_
  show execFence scope s = _
  unfold execFence
  simp only [h]
  rfl

end Sys2Proof.Machine

open Sys2Proof.Machine

/-- Settles O16: each instruction commits its names and then acts by `launchFlights`, which touches neither groups nor cores. -/
theorem laneAccessesComplete : Obligations.LaneAccessesComplete := by
  unfold Obligations.LaneAccessesComplete
  intro s c p d m b x n t op ord scope xs count size
  refine ⟨ld_leaves, st_lands, atom_leaves, fence_moves scope, fun n store hx => ?_⟩
  obtain ⟨hmap, hall⟩ := laneTargets_spec hx
  refine ⟨hmap, fun y hy => ?_⟩
  obtain ⟨haddr, htarget⟩ := hall y hy
  exact ⟨haddr, htarget, accessTarget_aligned htarget⟩
end

section
/-! The integer results (R92, R93): operands read by type, results written modulo 2^w, shifts and fields bit by bit, and from these the
settlement of O50. -/

open Sys2Proof
namespace Sys2Proof.Machine

/-! ### Operands and results modulo 2^w (R92) -/

/-- An operand of the type's width is read as a signed or natural number. -/
theorem rdInt_toNat {t : Ty} (x : BitVec (tyIntBits t)) : rdInt t x.toNat = if t.signed then x.toInt else x.toNat := by
  rw [rdInt, readInt_eq (tyIntBits_pos t), BitVec.ofNat_toNat, BitVec.setWidth_eq]

theorem readInt_signed_toNat {t : Ty} (x : BitVec (tyIntBits t)) : readInt true (tyIntBits t) x.toNat = x.toInt := by
  rw [readInt_signed (tyIntBits_pos t), BitVec.ofNat_toNat, BitVec.setWidth_eq]

theorem wrapSat_false (t : Ty) (v : ℤ) : wrapSat t false v = (BitVec.ofInt (tyIntBits t) v).toNat := wrapInt_eq _ _

theorem clampInt_eq (sgn : Bool) (w : Nat) (v : ℤ) : clampInt sgn w v = max (intRange sgn w).1 (min (intRange sgn w).2 v) :=
  clamp_eq ((intRange_bounds sgn w).1.trans (intRange_bounds sgn w).2) v

/-- With `.sat` a result is clamped to its type's range before it is written. -/
theorem wrapSat_true (t : Ty) (v : ℤ) : wrapSat t true v = (BitVec.ofInt (tyIntBits t)
    (max (if t.signed then -2 ^ (tyIntBits t - 1) else 0)
      (min (if t.signed then 2 ^ (tyIntBits t - 1) - 1 else 2 ^ tyIntBits t - 1) v))).toNat := by
  rw [wrapSat, if_pos rfl, wrapInt_eq, clampInt_eq, intRange_eq]

/-- The high half of a product or sum is its quotient by 2^w, rounded down. -/
theorem fdiv_two_pow (v : ℤ) (n : Nat) : v.fdiv ((2 ^ n : Nat) : ℤ) = v / 2 ^ n := by
  rw [Int.fdiv_eq_ediv_of_nonneg v (Int.natCast_nonneg _), Nat.cast_pow, Nat.cast_ofNat]

section
variable {t : Ty} (x y z : BitVec (tyIntBits t))

theorem resDiv_toNat : resDiv t x.toNat y.toNat = (if t.signed then x.sdiv y else x / y).toNat := by
  rw [resDiv, wrapSat_false, rdInt_toNat, rdInt_toNat]
  refine congrArg BitVec.toNat ?_
  cases t.signed with
  | true => exact BitVec.eq_of_toInt_eq (by rw [BitVec.toInt_ofInt, if_pos rfl, if_pos rfl, if_pos rfl, BitVec.toInt_sdiv])
  | false =>
    rw [if_neg Bool.false_ne_true, if_neg Bool.false_ne_true, if_neg Bool.false_ne_true, ← Int.ofNat_tdiv, BitVec.ofInt_natCast,
      ← BitVec.toNat_udiv, BitVec.ofNat_toNat, BitVec.setWidth_eq]

theorem resRem_toNat : resRem t x.toNat y.toNat = (if t.signed then x.srem y else x % y).toNat := by
  rw [resRem, wrapSat_false, rdInt_toNat, rdInt_toNat]
  refine congrArg BitVec.toNat ?_
  cases t.signed with
  | true => rw [if_pos rfl, if_pos rfl, if_pos rfl, ← BitVec.toInt_srem, BitVec.ofInt_toInt]
  | false =>
    rw [if_neg Bool.false_ne_true, if_neg Bool.false_ne_true, if_neg Bool.false_ne_true, ← Int.ofNat_tmod, BitVec.ofInt_natCast,
      ← BitVec.toNat_umod, BitVec.ofNat_toNat, BitVec.setWidth_eq]

/-! ### Shifts and complements (R92) -/

theorem resShl_toNat (n : Nat) : resShl t x.toNat n = (x <<< n).toNat := by
  rw [BitVec.toNat_shiftLeft, Nat.shiftLeft_eq, resShl]
  split_ifs with h
  · exact (Nat.mod_eq_zero_of_dvd ((pow_dvd_pow 2 h).mul_left _)).symm
  · rfl

theorem resShr_toNat (n : Nat) : resShr t x.toNat n = (x >>> n).toNat := by
  rw [BitVec.toNat_ushiftRight, Nat.shiftRight_eq_div_pow, resShr]
  split_ifs with h
  · exact (Nat.div_eq_of_lt (x.isLt.trans_le (Nat.pow_le_pow_right two_pos h))).symm
  · rfl

/-- Of a signed number of `m + 1` bits only the sign is left when `m` bits or more are shifted out. -/
theorem ediv_two_pow_of_le {v : ℤ} {m n : Nat} (hlo : -2 ^ m ≤ v) (hhi : v < 2 ^ m) (h : m ≤ n) : v / 2 ^ n = v / 2 ^ m := by
  have hle : (2 : ℤ) ^ m ≤ 2 ^ n := pow_le_pow_right₀ one_le_two h
  have hpos : (0 : ℤ) < 2 ^ m := by positivity
  rcases lt_or_ge v 0 with hv | hv
  · rw [Int.ediv_eq_neg_one_of_neg_of_le hv (by omega), Int.ediv_eq_neg_one_of_neg_of_le hv (by omega)]
  · rw [Int.ediv_eq_zero_of_lt hv (by omega), Int.ediv_eq_zero_of_lt hv hhi]

theorem resSar_toNat (n : Nat) : resSar t x.toNat n = (x.sshiftRight n).toNat := by
  have hshift : x.toInt / 2 ^ min n (tyIntBits t - 1) = x.toInt >>> n := by
    rw [Int.shiftRight_eq_div_pow, Nat.cast_pow, Nat.cast_ofNat]
    rcases le_total n (tyIntBits t - 1) with h | h
    · rw [min_eq_left h]
    · rw [min_eq_right h, ediv_two_pow_of_le x.le_toInt x.toInt_lt h]
  show wrapInt (tyIntBits t) ((readInt true (tyIntBits t) x.toNat).fdiv ((2 ^ min n (tyIntBits t - 1) : Nat) : ℤ)) = _
  rw [fdiv_two_pow, readInt_signed_toNat, hshift, wrapInt_eq]
  rfl

theorem resRot_toNat (n : Nat) : resRot t x.toNat n = (x.rotateLeft n).toNat := by
  show (x.toNat * 2 ^ (n % tyIntBits t) + x.toNat / 2 ^ (tyIntBits t - n % tyIntBits t)) % 2 ^ tyIntBits t = _
  rw [BitVec.toNat_rotateLeft, Nat.shiftLeft_eq, Nat.shiftRight_eq_div_pow]
  have hk : n % tyIntBits t < tyIntBits t := Nat.mod_lt _ (tyIntBits_pos t)
  generalize n % tyIntBits t = k at *
  have hwrapped : x.toNat / 2 ^ (tyIntBits t - k) < 2 ^ k := by
    refine Nat.div_lt_of_lt_mul ?_
    rw [← pow_add, Nat.sub_add_cancel hk.le]
    exact x.isLt
  rw [Nat.mul_comm, Nat.two_pow_add_eq_or_of_lt hwrapped, Nat.or_mod_two_pow,
    Nat.mod_eq_of_lt (hwrapped.trans_le (Nat.pow_le_pow_right two_pos hk.le))]

theorem resNot_toNat : resNot t x.toNat = (~~~x).toNat := by rw [resNot, Nat.mod_eq_of_lt x.isLt, BitVec.toNat_not]

theorem resAndn_toNat : resAndn t x.toNat y.toNat = (x &&& ~~~y).toNat := by rw [resAndn, resNot_toNat, BitVec.toNat_and]

end

/-! ### Counts and reversal of bits (R92) -/

theorem countOnes_eq (n x : Nat) : countOnes n x = ((List.range n).filter fun i => x.testBit i).length := by
  induction n generalizing x with
  | zero => rfl
  | succ n ih =>
    have hrest : ((List.range n).filter fun i => (x / 2).testBit i).length =
        (((List.range n).map Nat.succ).filter fun i => x.testBit i).length := by
      rw [List.filter_map, List.length_map]
      exact congrArg List.length (List.filter_congr fun i _ => (Nat.testBit_add_one x i).symm)
    rw [countOnes, ih, hrest, List.range_succ_eq_map, List.filter_cons, Nat.testBit_zero]
    rcases Nat.mod_two_eq_zero_or_one x with h | h <;> simp [h, Nat.add_comm]

/-- The lowest 1 bit among the low `n` bits, or `n` where they are 0. -/
theorem countZeros_spec (n x : Nat) : countZeros n x ≤ n ∧ (∀ i, i < countZeros n x → x.testBit i = false) ∧
    (countZeros n x < n → x.testBit (countZeros n x) = true) := by
  induction n generalizing x with
  | zero => exact ⟨le_rfl, fun i h => absurd h (Nat.not_lt_zero i), fun h => absurd h (Nat.lt_irrefl 0)⟩
  | succ n ih =>
    obtain ⟨hle, hbelow, hat⟩ := ih (x / 2)
    rw [countZeros]
    split_ifs with h
    · exact ⟨Nat.zero_le _, fun i hi => absurd hi (Nat.not_lt_zero i), fun _ => by rw [Nat.testBit_zero, decide_eq_true h]⟩
    · rw [Nat.add_comm 1]
      refine ⟨Nat.succ_le_succ hle, fun i hi => ?_, fun hlt => ?_⟩
      · cases i with
        | zero => rw [Nat.testBit_zero, decide_eq_false h]
        | succ i => rw [Nat.testBit_add_one, hbelow i (Nat.lt_of_succ_lt_succ hi)]
      · rw [Nat.testBit_add_one, hat (Nat.lt_of_succ_lt_succ hlt)]

theorem testBit_reverseBits (n x acc i : Nat) :
    (reverseBits n x acc).testBit i = if i < n then x.testBit (n - 1 - i) else acc.testBit (i - n) := by
  induction n generalizing x acc with
  | zero => rfl
  | succ n ih =>
    have hacc : (2 * acc + x % 2) / 2 = acc := by omega
    rw [reverseBits, ih]
    rcases lt_trichotomy i n with h | rfl | h
    · rw [if_pos h, if_pos (by omega), ← Nat.testBit_add_one]
      congr 1
      omega
    · have hlow : (2 * acc + x % 2) % 2 = x % 2 := by omega
      rw [if_neg (by omega), if_pos (by omega), Nat.sub_self, Nat.add_sub_cancel, Nat.sub_self, Nat.testBit_zero, Nat.testBit_zero, hlow]
    · obtain ⟨j, rfl⟩ := Nat.exists_eq_add_of_lt h
      rw [if_neg (by omega), if_neg (by omega), show n + j + 1 - n = j + 1 by omega, Nat.testBit_add_one, hacc]
      congr 1
      omega

section
variable {t : Ty} (x : BitVec (tyIntBits t))

theorem resPop_toNat : resPop t x.toNat = ((List.range (tyIntBits t)).filter fun i => x.getLsbD i).length := by
  rw [resPop, countOnes_eq]
  simp only [BitVec.testBit_toNat]

theorem resClz_spec : resClz t x.toNat ≤ tyIntBits t ∧ (∀ i, tyIntBits t - resClz t x.toNat ≤ i → x.getLsbD i = false) ∧
    (resClz t x.toNat < tyIntBits t → x.getLsbD (tyIntBits t - 1 - resClz t x.toNat) = true) := by
  unfold resClz
  split_ifs with h0
  · refine ⟨le_rfl, fun i _ => ?_, fun h => absurd h (Nat.lt_irrefl _)⟩
    rw [← BitVec.testBit_toNat, h0, Nat.zero_testBit]
  · have hlog : x.toNat.log2 < tyIntBits t := (Nat.log2_lt h0).2 x.isLt
    refine ⟨by omega, fun i hi => ?_, fun _ => ?_⟩
    · rw [← BitVec.testBit_toNat]
      exact Nat.testBit_lt_two_pow (Nat.lt_log2_self.trans_le (Nat.pow_le_pow_right two_pos (by omega)))
    · rw [← BitVec.testBit_toNat, show tyIntBits t - 1 - (tyIntBits t - 1 - x.toNat.log2) = x.toNat.log2 by omega, Nat.testBit_log2 h0]

theorem resCtz_spec : resCtz t x.toNat ≤ tyIntBits t ∧ (∀ i, i < resCtz t x.toNat → x.getLsbD i = false) ∧
    (resCtz t x.toNat < tyIntBits t → x.getLsbD (resCtz t x.toNat) = true) := by
  simp only [← BitVec.testBit_toNat]
  exact countZeros_spec _ _

theorem testBit_resBrev {i : Nat} (hi : i < tyIntBits t) :
    (resBrev t x.toNat).testBit i = x.getLsbD (tyIntBits t - 1 - i) := by
  rw [resBrev, testBit_reverseBits, if_pos hi, BitVec.testBit_toNat]

/-! ### Fields (R93) -/

/-- The position of the field that a B operand of `bfe` or `bfi` gives. -/
def fieldPos (n : Nat) : Nat := n % 256

/-- The length of the field that a B operand of `bfe` or `bfi` gives, cut to the width. -/
def fieldLen (w n : Nat) : Nat := min (n / 256 % 256) w

theorem resBfe_eq (t : Ty) (a n : Nat) : resBfe t a n =
    if fieldLen (tyIntBits t) n = 0 then 0
    else if t.signed then wrapInt (tyIntBits t) (readInt true (fieldLen (tyIntBits t) n)
      (a / 2 ^ fieldPos n % 2 ^ fieldLen (tyIntBits t) n))
    else a / 2 ^ fieldPos n % 2 ^ fieldLen (tyIntBits t) n := rfl

theorem testBit_field (a pos len i : Nat) : (a / 2 ^ pos % 2 ^ len).testBit i = (decide (i < len) && a.testBit (pos + i)) := by
  rw [Nat.testBit_mod_two_pow, Nat.testBit_div_two_pow, Nat.add_comm]

/-- A signed field of `bfe` is extended by its top bit. -/
theorem testBit_wrapInt_readInt {w len f i : Nat} (hlen : 0 < len) (hi : i < w) :
    (wrapInt w (readInt true len f)).testBit i = if i < len then f.testBit i else f.testBit (len - 1) := by
  rw [readInt_signed hlen, wrapInt_eq, BitVec.testBit_toNat]
  show ((BitVec.ofNat len f).signExtend w).getLsbD i = _
  rw [BitVec.getLsbD_signExtend, decide_eq_true hi, Bool.true_and, BitVec.msb_eq_getLsbD_last, BitVec.getLsbD_ofNat,
    BitVec.getLsbD_ofNat, decide_eq_true (Nat.sub_lt hlen one_pos), Bool.true_and]
  split_ifs with h
  · rw [decide_eq_true h, Bool.true_and]
  · rfl

theorem testBit_resBfe (n : Nat) {i : Nat} (hi : i < tyIntBits t) : (resBfe t x.toNat n).testBit i =
    if i < fieldLen (tyIntBits t) n then x.getLsbD (fieldPos n + i)
    else t.signed && decide (0 < fieldLen (tyIntBits t) n) && x.getLsbD (fieldPos n + fieldLen (tyIntBits t) n - 1) := by
  rw [resBfe_eq]
  generalize fieldPos n = pos
  generalize fieldLen (tyIntBits t) n = len
  rcases Nat.eq_zero_or_pos len with rfl | hlen
  · rw [if_pos rfl, if_neg (Nat.not_lt_zero i), Nat.zero_testBit, decide_eq_false (Nat.lt_irrefl 0), Bool.and_false, Bool.false_and]
  rw [if_neg hlen.ne', decide_eq_true hlen, Bool.and_true]
  cases t.signed with
  | true =>
    rw [if_pos rfl, testBit_wrapInt_readInt hlen hi, testBit_field, testBit_field, BitVec.testBit_toNat, BitVec.testBit_toNat, Bool.true_and,
      decide_eq_true (Nat.sub_lt hlen one_pos), Bool.true_and, Nat.add_sub_assoc hlen]
    split_ifs with h
    · rw [decide_eq_true h, Bool.true_and]
    · rfl
  | false =>
    rw [if_neg Bool.false_ne_true, testBit_field, BitVec.testBit_toNat, Bool.false_and]
    split_ifs with h
    · rw [decide_eq_true h, Bool.true_and]
    · rw [decide_eq_false h, Bool.false_and]

theorem resBfe_lt (t : Ty) (a n : Nat) : resBfe t a n < 2 ^ tyIntBits t := by
  rw [resBfe_eq]
  split_ifs
  · exact Nat.two_pow_pos _
  · exact wrapInt_lt _ _
  · exact (Nat.mod_lt _ (Nat.two_pow_pos _)).trans_le (Nat.pow_le_pow_right two_pos (Nat.min_le_right _ _))

/-- A field of `len` bits from bit `pos` on replaced, bit by bit. -/
theorem testBit_fieldReplaced {a c pos len : Nat} (i : Nat) :
    (c % 2 ^ pos + a % 2 ^ len * 2 ^ pos + c / 2 ^ (pos + len) * 2 ^ (pos + len)).testBit i =
      if pos ≤ i ∧ i < pos + len then a.testBit (i - pos) else c.testBit i := by
  have hlow : c % 2 ^ pos < 2 ^ pos := Nat.mod_lt _ (Nat.two_pow_pos _)
  have hmid : a % 2 ^ len < 2 ^ len := Nat.mod_lt _ (Nat.two_pow_pos _)
  have hsum : c % 2 ^ pos + a % 2 ^ len * 2 ^ pos + c / 2 ^ (pos + len) * 2 ^ (pos + len) =
      2 ^ pos * (2 ^ len * (c / 2 ^ (pos + len)) + a % 2 ^ len) + c % 2 ^ pos := by ring
  rw [hsum, Nat.testBit_two_pow_mul_add _ hlow, Nat.testBit_two_pow_mul_add _ hmid, Nat.testBit_mod_two_pow, Nat.testBit_mod_two_pow,
    Nat.testBit_div_two_pow]
  by_cases hbelow : i < pos
  · rw [if_pos hbelow, if_neg (by omega), decide_eq_true hbelow, Bool.true_and]
  · rw [if_neg hbelow]
    by_cases hin : i - pos < len
    · rw [if_pos hin, if_pos (by omega), decide_eq_true hin, Bool.true_and]
    · rw [if_neg hin, if_neg (by omega), show i - pos - len + (pos + len) = i by omega]

theorem resBfi_eq (t : Ty) (a n c : Nat) : resBfi t a n c =
    (c % 2 ^ fieldPos n + a % 2 ^ fieldLen (tyIntBits t) n * 2 ^ fieldPos n +
      c / 2 ^ (fieldPos n + fieldLen (tyIntBits t) n) * 2 ^ (fieldPos n + fieldLen (tyIntBits t) n)) % 2 ^ tyIntBits t := rfl

theorem testBit_resBfi (z : BitVec (tyIntBits t)) (n : Nat) {i : Nat} (hi : i < tyIntBits t) : (resBfi t x.toNat n z.toNat).testBit i =
    if fieldPos n ≤ i ∧ i < fieldPos n + fieldLen (tyIntBits t) n then x.getLsbD (i - fieldPos n) else z.getLsbD i := by
  rw [resBfi_eq, Nat.testBit_mod_two_pow, decide_eq_true hi, Bool.true_and, testBit_fieldReplaced, BitVec.testBit_toNat, BitVec.testBit_toNat]

theorem resBfi_lt (t : Ty) (a n c : Nat) : resBfi t a n c < 2 ^ tyIntBits t := by
  rw [resBfi_eq]
  exact Nat.mod_lt _ (Nat.two_pow_pos _)

end

/-! ### Selections (R95) -/

theorem resSel_toNat {w : Nat} (x y : BitVec w) (k : BitVec 32) : resSel x.toNat y.toNat k.toNat = (if k = 0 then y else x).toNat := by
  have hzero : k.toNat = 0 ↔ k = 0 := by rw [BitVec.toNat_eq]; rfl
  rw [resSel, apply_ite BitVec.toNat]
  exact if_congr hzero rfl rfl

theorem resMovi_eq (t : Ty) (k : BitVec 32) :
    resMovi t k = if t = .s64 ∨ t = .b64 then (k.signExtend 64).toNat else k.toNat := by
  cases t <;> rfl

end Sys2Proof.Machine

open Sys2Proof.Machine

/-- Settles O50: the operands are read as the rule reads them, so that each result is the rule's value modulo 2^w, or has its bits. -/
theorem integerResultsAreTheRules : Obligations.IntegerResultsAreTheRules := by
  unfold Obligations.IntegerResultsAreTheRules
  refine ⟨fun _ => rfl, fun t ht => ?_⟩
  intro w x y z k scale signed val W lo hi a b n pos len
  have hwidth : w = 32 ∨ w = 64 := witness_integer_results t ht
  have hsigned : t.signed = signed :=
    (by decide : ∀ t ∈ [Ty.s32, Ty.n32, Ty.s64, Ty.n64, Ty.b32, Ty.b64], t.signed = (t == .s32 || t == .s64)) t ht
  have hread (v : BitVec w) : rdInt t v.toNat = val v := by rw [rdInt_toNat, hsigned]
  have ha : rdInt t x.toNat = a := hread x
  have hb : rdInt t y.toNat = b := hread y
  have hW {u v : ℤ} (h : u = v) : wrapSat t false u = W v := h ▸ wrapSat_false t u
  have hsat {u v : ℤ} (h : u = v) : wrapSat t true u = W (max lo (min hi v)) := by rw [wrapSat_true, hsigned, h]
  have hmin : resMin t x.toNat y.toNat = (if a ≤ b then x else y).toNat := by rw [resMin, ha, hb, apply_ite BitVec.toNat]
  have hmax : resMax t x.toNat y.toNat = (if a ≤ b then y else x).toNat := by rw [resMax, ha, hb, apply_ite BitVec.toNat]
  refine ⟨hwidth, hW ?add, hsat ?add, hW ?sub, hsat ?sub, hW ?mul, hW ?mulhi, hW ?mad, hW ?madhi,
    hsigned ▸ resDiv_toNat x y, hsigned ▸ resRem_toNat x y, hW ?neg, hW ?abs, hmin, hmax,
    resShl_toNat x n, resShr_toNat x n, resSar_toNat x n, resRot_toNat x n,
    (BitVec.toNat_and ..).symm, (BitVec.toNat_or ..).symm, (BitVec.toNat_xor ..).symm, resAndn_toNat x y, resNot_toNat x,
    resPop_toNat x, resClz_spec x, resCtz_spec x, fun i => testBit_resBrev x, hW ?lea,
    fun i hi => hsigned ▸ testBit_resBfe x n hi, resBfe_lt t _ n, fun i => testBit_resBfi x z n, resBfi_lt t _ n _,
    resSel_toNat x y k, resMovi_eq t k, fun cond => ?cmp⟩
  case add => rw [ha, hb]
  case sub => rw [ha, hb]
  case mul => rw [ha, hb]
  case mulhi => rw [ha, hb, fdiv_two_pow]
  case mad => rw [ha, hb, hread]
  case madhi => rw [ha, hb, hread, fdiv_two_pow]
  case neg => rw [ha]
  case abs => rw [ha, Int.natCast_natAbs]
  case lea => rw [ha, hb, Nat.cast_pow, Nat.cast_ofNat]
  case cmp => cases cond <;> simp only [resCmp, ha, hb]
end

section
/-! The completion of the lane arithmetic (R91 to R109): the moves, conversions and compares, which are no plain meaning of one, two or three
operands, and from these and the completions by operand shape the settlement of O1 to O4. -/

open Sys2Proof
namespace Sys2Proof.Machine

section
variable {s : State} {c : Issue} {p : Pred} {d : Dst}

/-! ### Moves (R95) -/

theorem mov_computes {b : OpB} {t : Ty} (h : c.Ready s (opbReads b p t.wide) ((destNames t.wide d).map fun n => (p, n)) (opbRegs b)) :
    c.Computes s (.mov p d b t) p d t.wide (opbReads b p t.wide) priceLane fun j l => (c.opbOf t.wide b j l, 0) :=
  aluStep_computes (f := fun g sl l => (opbValue b g sl t.wide l, 0)) rfl h

theorem movi_computes {t : Ty} {imm : BitVec 32} (h : c.Ready s [] ((destNames t.wide d).map fun n => (p, n))) :
    c.Computes s (.movi p d t imm) p d t.wide [] priceLane fun _ _ => (resMovi t imm, 0) :=
  aluStep_computes (f := fun _ _ _ => (resMovi t imm, 0)) rfl h

/-! ### Conversion and packing (R104, R105, R107) -/

theorem cvt_computes {a : Src} {t st : Ty} {rint : Bool}
    (h : c.Ready s (readsOf p st.wide a) ((destNames t.wide d).map fun n => (p, n))) :
    c.Computes s (.cvt p d a t st rint) p d t.wide (readsOf p st.wide a) priceLane
      fun j l => resCvt (c.arithOf j) t st rint (c.srcOf st.wide a j l) :=
  aluStep_computes (f := fun _ sl l => resCvt (Arith.of sl.fmt) t st rint (sl.value st.wide l a.name)) rfl h

/-- A target of other than 16 bits leaves room in the word, so `pack` reads C for the rest of it. -/
theorem exec_pack_of_bits_ne {a b x : Src} {t : Ty} (st : Ty) (k : BitVec 2) (ht : tyCodeBits t ≠ 16) :
    exec (.pack p d a b x t st k) s = aluStep s p d false (readsOf p false a ++ readsOf p false b ++ readsOf p false x) priceLane
      fun _ sl l => resPack (Arith.of sl.fmt) t st k.toNat (sl.value false l a.name) (sl.value false l b.name)
        (sl.value false l x.name) := by
  have hread : (tyCodeBits t != 16) = true := bne_iff_ne.2 ht
  show execPack p d a b x t st k s = _
  simp only [execPack, hread, if_true]

/-- Two elements of 16 bits fill the word, so `pack` reads no C. -/
theorem exec_pack_of_bits_eq {a b x : Src} {t : Ty} (st : Ty) (k : BitVec 2) (ht : tyCodeBits t = 16) :
    exec (.pack p d a b x t st k) s = aluStep s p d false (readsOf p false a ++ readsOf p false b) priceLane
      fun _ sl l => resPack (Arith.of sl.fmt) t st k.toNat (sl.value false l a.name) (sl.value false l b.name) 0 := by
  have hread : (tyCodeBits t != 16) = false := by rw [ht]; rfl
  show execPack p d a b x t st k s = _
  simp only [execPack, hread, Bool.false_eq_true, if_false, List.append_nil]

theorem pack_computes_of_bits_ne {a b x : Src} {t st : Ty} {k : BitVec 2} (ht : tyCodeBits t ≠ 16)
    (h : c.Ready s (readsOf p false a ++ readsOf p false b ++ readsOf p false x) ((destNames false d).map fun n => (p, n))) :
    c.Computes s (.pack p d a b x t st k) p d false (readsOf p false a ++ readsOf p false b ++ readsOf p false x) priceLane
      fun j l => resPack (c.arithOf j) t st k.toNat (c.srcOf false a j l) (c.srcOf false b j l) (c.srcOf false x j l) :=
  aluStep_computes (exec_pack_of_bits_ne st k ht) h

theorem pack_computes_of_bits_eq {a b x : Src} {t st : Ty} {k : BitVec 2} (ht : tyCodeBits t = 16)
    (h : c.Ready s (readsOf p false a ++ readsOf p false b) ((destNames false d).map fun n => (p, n))) :
    c.Computes s (.pack p d a b x t st k) p d false (readsOf p false a ++ readsOf p false b) priceLane
      fun j l => resPack (c.arithOf j) t st k.toNat (c.srcOf false a j l) (c.srcOf false b j l) 0 :=
  aluStep_computes (exec_pack_of_bits_eq st k ht) h

/-- The code and flags that `mxq` gives a lane's value `v`: its element under the block's scale, or the code of a block that holds a NaN
or an infinity (R107). -/
def mxqResult (t : Ty) (block : Nat × Bool) (f : Arith) (v : FVal) : Nat × FlagSet :=
  if block.2 then (0xFF00, match v with | .num .. => 0 | _ => flagInvalid)
  else (256 * block.1 + (mxCode t f block.1 v).1, (mxCode t f block.1 v).2)

/-- The lanes of `mxq` share the scale of the block that the gang's active lanes form. -/
theorem exec_mxq {a : Src} (t st : Ty) (hi : issueOf s = some c) :
    exec (.mxq p d a t st) s = aluStep s p d false (readsOf p false a) priceLane fun _ sl l =>
      mxqResult t (mxScale t (mxBlock c p a st)) (Arith.of sl.fmt) (rdFloat st (Arith.of sl.fmt) (sl.value false l a.name)) := by
  show execMxq p d a t st s = _
  unfold execMxq
  simp only [hi]
  obtain ⟨scale, bad⟩ := mxScale t (mxBlock c p a st)
  cases bad with
  | true => rfl
  | false =>
    refine congrArg (aluStep s p d false (readsOf p false a) priceLane ·) (funext fun _ => funext fun sl => funext fun l => ?_)
    exact congrArg (· + _, _) (Nat.mul_comm scale 256)

theorem mxq_computes {a : Src} {t st : Ty} (h : c.Ready s (readsOf p false a) ((destNames false d).map fun n => (p, n))) :
    c.Computes s (.mxq p d a t st) p d false (readsOf p false a) priceLane fun j l =>
      mxqResult t (mxScale t (mxBlock c p a st)) (c.arithOf j) (rdFloat st (c.arithOf j) (c.srcOf false a j l)) :=
  aluStep_computes (exec_mxq t st h.issues) h

/-! ### Compares (R94, R99) -/

theorem cmp_tests {qd : BitVec 4} {a : Src} {b : OpB} {t : Ty} {cond : Cond}
    (h : c.Ready s (readsOf p t.wide a ++ opbReads b p t.wide) [] (opbRegs b)) :
    c.Tests s (.cmp p qd a b t cond) p qd (readsOf p t.wide a ++ opbReads b p t.wide) priceLane
      fun j l => (resCmp t cond (c.srcOf t.wide a j l) (c.opbOf t.wide b j l), 0) :=
  predStep_tests (f := fun g sl l => (resCmp t cond (sl.value t.wide l a.name) (opbValue b g sl t.wide l), 0)) rfl h

theorem fcmp_tests {qd : BitVec 4} {a : Src} {b : OpB} {t : Ty} {cond : FCond}
    (h : c.Ready s (readsOf p false a ++ opbReads b p false) [] (opbRegs b)) :
    c.Tests s (.fcmp p qd a b t cond) p qd (readsOf p false a ++ opbReads b p false) priceLane
      fun j l => resFcmp t (c.arithOf j) cond (c.srcOf false a j l) (c.opbOf false b j l) :=
  predStep_tests (f := fun g sl l => resFcmp t (Arith.of sl.fmt) cond (sl.value false l a.name) (opbValue b g sl false l)) rfl h

end

end Sys2Proof.Machine

open Sys2Proof.Machine

/-- Settles O1: each row is a meaning of one, two or three operands, the moves apart. -/
theorem integerInstructionsCompute : Obligations.IntegerInstructionsCompute := by
  unfold Obligations.IntegerInstructionsCompute
  intro s c p d a b x t
  exact ⟨fun _ => binStep_two rfl, fun _ => binStep_two rfl, -- add, sub
    binStep_two rfl, binStep_two rfl, triStep_three rfl, triStep_three rfl, -- mul, mulhi, mad, madhi
    binStep_two rfl, binStep_two rfl, unStep_one rfl, unStep_one rfl, -- div, rem, neg, abs
    binStep_two rfl, binStep_two rfl, -- min, max
    binStep_two rfl, binStep_two rfl, binStep_two rfl, binStep_two rfl, -- shl, shr, sar, rot
    binStep_two rfl, binStep_two rfl, binStep_two rfl, binStep_two rfl, unStep_one rfl, -- and, or, xor, andn, not
    binStep_two rfl, triStep_three rfl, -- bfe, bfi
    unStep_one rfl, unStep_one rfl, unStep_one rfl, unStep_one rfl, -- pop, clz, ctz, brev
    fun _ => binStep_two rfl, mov_computes, fun _ => movi_computes, triStep_three rfl⟩ -- lea, mov, movi, sel

/-- Settles O2: each row is a floating meaning of one, two or three operands; `fabs`, `fneg` and `fclass` work on codes and raise no flag. -/
theorem floatInstructionsCompute : Obligations.FloatInstructionsCompute := by
  unfold Obligations.FloatInstructionsCompute
  intro s c p d a b x t
  exact ⟨floatStep2_two rfl, floatStep2_two rfl, floatStep2_two rfl, floatStep3_three rfl, -- fadd, fsub, fmul, fma
    floatStep2_two rfl, floatStep2_two rfl, unStep_one rfl, unStep_one rfl, unStep_one rfl, -- fmin, fmax, fabs, fneg, fclass
    floatStep2_two rfl, floatStep2_two rfl, floatStep3_three rfl, -- hadd2, hmul2, hfma2
    floatStep1_one rfl, floatStep1_one rfl, floatStep1_one rfl, floatStep1_one rfl, -- frcp, frsq, fsqrt, fexp2
    floatStep1_one rfl, floatStep1_one rfl, floatStep1_one rfl, floatStep1_one rfl⟩ -- flog2, fsinpi, fcospi, ftanh

/-- Settles O3: `pack` reads C only where its target leaves room, and the lanes of `mxq` share one scale. -/
theorem conversionInstructionsCompute : Obligations.ConversionInstructionsCompute := by
  unfold Obligations.ConversionInstructionsCompute
  intro s c p d a b x t st
  exact ⟨fun _ => cvt_computes, fun _ ht => pack_computes_of_bits_ne ht, fun _ ht => pack_computes_of_bits_eq ht,
    fun _ => floatStep1_one rfl, mxq_computes, floatStep1_one rfl, unStep_one rfl⟩

/-- Settles O4: both compares are meanings that decide one predicate per active lane. -/
theorem comparesSetPredicates : Obligations.ComparesSetPredicates := by
  unfold Obligations.ComparesSetPredicates
  intro s c p qd a b t
  exact ⟨fun _ => cmp_tests, fun _ => fcmp_tests⟩
end

section
/-! Cross-lane instructions (R125 to R133): what the gathered gang keeps of the group, and from these the settlement of O9 to O11. -/

open Sys2Proof
namespace Sys2Proof.Machine

/-! ### What the gathered gang keeps -/

section
variable (c : Issue) (p : Pred) (m : BitVec 6) (gangs : List (BitVec 3 × List Nat))

/-- Gathering changes of a slice only its active mask. -/
theorem Issue.gathered_slice {j : Nat} (hj : j < 8) :
    ∃ k, (c.gathered p m gangs).g.slices.get j = { c.g.slices.get j with mask := k } := by
  rw [c.gathered_get p m gangs hj]
  split
  · exact ⟨_, rfl⟩
  · exact ⟨(c.g.slices.get j).mask, rfl⟩

theorem Issue.gathered_g (r : BitVec 6) : (c.gathered p m gangs).g.g r = c.g.g r := by
  unfold Group.g
  rw [show (c.gathered p m gangs).g.gregs = c.g.gregs from Group.modSlices_gregs _ _ _]

theorem Issue.gathered_arrived : (c.gathered p m gangs).arrived = c.arrived := by
  have hpriv : (c.gathered p m gangs).g.priv = c.g.priv := Group.modSlices_priv _ _ _
  unfold Issue.arrived
  rw [show (c.gathered p m gangs).g.waits = c.g.waits from Group.modSlices_waits _ _ _, hpriv]
  refine List.filterMap_congr fun w _ => ?_
  cases w.kind with
  | rendezvous mask go =>
    cases hl : w.list with
    | nil => rfl
    | cons i r =>
      have hi : i < 8 := List.mem_range.mp (List.mem_of_mem_filter (show i ∈ w.list by simp [hl]))
      obtain ⟨k, hk⟩ := c.gathered_slice p m gangs hi
      simp only [hk]
      rfl
  | _ => rfl

/-- The member mask of the issue is the one its gang came with. -/
theorem Issue.gathered_members (r : BitVec 6) : (c.gathered p m gangs).members r = c.members r := by
  unfold Issue.members memberMask
  rw [c.gathered_arrived, c.gathered_g]
  rfl

theorem Issue.gathered_exitedMembers (members : Word32) :
    exitedMembers (c.gathered p m gangs).g members = exitedMembers c.g members := by
  unfold exitedMembers
  refine congrArg List.sum (List.map_congr_left fun n hn => ?_)
  obtain ⟨k, hk⟩ := c.gathered_slice p m gangs (by have := List.mem_range.mp hn; omega : n / 4 < 8)
  rw [hk]

/-- Operand B of a lane (R90). -/
theorem Issue.gathered_opb (wide : Bool) (b : OpB) {j : Nat} (hj : j < 8) (l : Nat) :
    opbValue b (c.gathered p m gangs).g ((c.gathered p m gangs).g.slices.get j) wide l = c.opbOf wide b j l := by
  obtain ⟨k, hk⟩ := c.gathered_slice p m gangs hj
  cases b with
  | name a => rw [hk]; rfl
  | imm v => rfl
  | ureg r => exact congrArg (·.toNat % _) (c.gathered_g p m gangs r)

end

theorem mem_participants {part : Nat → BitVec 4} {sls : List Nat} {n : Nat} (h : n ∈ participants part sls) : n < 32 :=
  List.mem_range.mp (List.mem_of_mem_filter h)

/-! ### The names of an operand (R38, R89) -/

theorem readsOf_pred {p : Pred} {wide : Bool} {a : Src} : ∀ r ∈ readsOf p wide a, r.p = p := by
  unfold readsOf
  split <;> simp

theorem opbReads_pred {p : Pred} {wide : Bool} {b : OpB} : ∀ r ∈ opbReads b p wide, r.p = p := by
  cases b with
  | name a => exact readsOf_pred
  | imm v => simp [opbReads]
  | ureg r => simp [opbReads]

/-! ### The completions -/

section
variable {c : Issue} {s : State} {i : Instr} {p : Pred} {m : BitVec 6} {gangs : List (BitVec 3 × List Nat)}

/-- What a lane beyond the group's 32 would receive is of no account. -/
theorem Issue.Gathers.congr {d : Dst} {wide : Bool} {rs : List NameRead} {val val' : Nat → Nat} {fl : FlagSet}
    (h : c.Gathers s i p m gangs d wide rs val fl) (hv : ∀ n, n < 32 → val n = val' n) :
    c.Gathers s i p m gangs d wide rs val' fl := by
  obtain ⟨t, g, hx, hends, hsl⟩ := h
  refine ⟨t, g, hx, hends, fun j hj => ?_⟩
  obtain ⟨hdest, hrest⟩ := hsl j hj
  refine ⟨fun l hl hm => ?_, hrest⟩
  have hj8 := (gangList_mem.mp hj).1
  rw [← hv (4 * j + l) (by omega)]
  exact hdest l hl hm

/-- The lane value a shuffle gives `%lane` number `l`, `j` naming each lane's source (R128). -/
def Issue.shuffled (c : Issue) (p : Pred) (m : BitVec 6) (gangs : List (BitVec 3 × List Nat)) (wide : Bool) (a : BitVec 9)
    (j : Nat → Int) (l : Nat) : Nat :=
  if 0 ≤ j l ∧ j l < 32 ∧ takesPart (c.takers p m) (gangList gangs) (j l).toNat then laneValue c wide a (j l).toNat
  else laneValue c wide a l

/-- A shuffle completes, `j` naming a lane's source by its number and its operand B. -/
theorem shflStep_gathers {d : Dst} {a : Src} {b : OpB} {t : Ty} {j : Nat → Nat → Int} (he : exec i s = shflStep s p d a b t m j)
    (h : c.Meets s p m gangs (readsOf p t.wide a ++ opbReads b p false) (destNames t.wide d) (opbRegs b)) :
    c.Gathers s i p m gangs d t.wide (readsOf p t.wide a ++ opbReads b p false)
      (c.shuffled p m gangs t.wide a.name fun l => j l (c.opbOf false b (l / 4) (l % 4))) 0 := by
  refine (crossNames_gathers he h fun r hr => ?_).congr fun l hl => ?_
  · rcases List.mem_append.mp hr with hr | hr
    · exact readsOf_pred r hr
    · exact opbReads_pred r hr
  · dsimp only
    rw [c.gathered_opb p m gangs false b (by omega : l / 4 < 8), c.gathered_value p m gangs t.wide a.name hl]
    refine if_ctx_congr Iff.rfl (fun hj => ?_) fun _ => rfl
    obtain ⟨hlo, hhi, -⟩ := hj
    exact c.gathered_value p m gangs t.wide a.name ((Int.toNat_lt hlo).mpr hhi)

/-- `vote.bal` completes with the ballot of the participants and the exited members. -/
theorem voteBal_gathers {d : Dst} {qs : BitVec 4} (h : c.Meets s p m gangs [] (destNames true d)) :
    c.Gathers s (.voteBal p d qs m) p m gangs d true [] (fun _ =>
      ((participants (c.takers p m) (gangList gangs)).map fun n => if laneQ c qs n then 2 ^ n else 0).sum +
        2 ^ 32 * exitedMembers c.g (c.members m)) 0 := by
  have hx := crossNames_gathers (show exec (.voteBal p d qs m) s = execVoteBal p d qs m s from rfl) h (by simp)
  have hballot : ((participants (c.takers p m) (gangList gangs)).map fun n =>
      if laneQ (c.gathered p m gangs) qs n then 2 ^ n else 0) =
        (participants (c.takers p m) (gangList gangs)).map fun n => if laneQ c qs n then 2 ^ n else 0 :=
    List.map_congr_left fun n hn => by rw [c.gathered_q p m gangs qs (mem_participants hn)]
  rw [← hballot, ← c.gathered_exitedMembers p m gangs, ← c.gathered_members p m gangs]
  exact hx

end

end Sys2Proof.Machine

open Sys2Proof.Machine

/-- Settles O9: the gathered gang shows a vote each participant's own predicate. -/
theorem votesComplete : Obligations.VotesComplete := by
  unfold Obligations.VotesComplete
  intro s c p qd qs d m gangs ns
  have hq : ns.map (laneQ (c.gathered p m gangs) qs) = ns.map (laneQ c qs) :=
    List.map_congr_left fun n hn => c.gathered_q p m gangs qs (mem_participants hn)
  refine ⟨fun h => ⟨?any, ?all⟩, voteBal_gathers⟩
  case any =>
    have hany := congrArg (List.any · id) hq
    simp only [List.any_map, Function.id_comp] at hany
    rw [← hany]
    exact voteStep_votes (f := fun c ns => ns.any (laneQ c qs)) rfl h
  case all =>
    have hall := congrArg (List.all · id) hq
    simp only [List.all_map, Function.id_comp] at hall
    rw [← hall]
    exact voteStep_votes (f := fun c ns => ns.all (laneQ c qs)) rfl h

/-- Settles O10: the four shuffles differ in the source they name for each lane. -/
theorem shufflesComplete : Obligations.ShufflesComplete := by
  unfold Obligations.ShufflesComplete
  intro s c p d a b t m gangs h
  exact ⟨shflStep_gathers (j := fun _ x => x) rfl h, shflStep_gathers (j := fun l x => (l : Int) - x) rfl h,
    shflStep_gathers (j := fun l x => (l : Int) + x) rfl h, shflStep_gathers (j := fun l x => ((l ^^^ x : Nat) : Int)) rfl h⟩

/-- Settles O11: each instruction's result is stated over the gathered gang, as its meaning computes it. -/
theorem reductionsComplete : Obligations.ReductionsComplete := by
  unfold Obligations.ReductionsComplete
  intro s c p d a b op excl k t m gangs x ns f leaf
  refine ⟨fun h => ⟨?red, ?scan⟩, fun h => ?topk, fun h => ?matchLanes⟩
  case red =>
    have hx := crossNames_gathers (show exec (.red p d a op t m) s = execRed p d a op t m s from rfl) h readsOf_pred
    exact hx
  case scan =>
    have hx := crossNames_gathers (show exec (.scan p d a op excl t m) s = execScan p d a op excl t m s from rfl) h readsOf_pred
    exact hx
  case topk =>
    have hx := crossNames_gathers (show exec (.topk p d a b k t m) s = execTopk p d a b k t m s from rfl) h
      (List.forall_mem_append.mpr ⟨readsOf_pred, readsOf_pred⟩)
    exact hx
  case matchLanes =>
    have hx := crossNames_gathers (show exec (.matchLanes p d a t m) s = execMatchLanes p d a t m s from rfl) h readsOf_pred
    exact hx
end

section
/-! Uniform control (R123, R142, R143), control of the group (R119, R121, R122, R135) and the waits of barriers (R189, R239, R240, R255):
the completion of each instruction, and from these the settlement of O7, O14 and O23. -/

open Sys2Proof
namespace Sys2Proof.Machine

section
variable {s : State} {c : Issue}

/-- An issue begins as a working state of itself. -/
theorem Issue.working_self (hi : issueOf s = some c) : (c.on c.g).Working s s c.g := Issue.working_refl (issueOf_some hi).1

/-! ### `%fmt` and `%prio` (R142, R143) -/

/-- A write of `%fmt` completes whose value is legal in every slice of the gang. -/
theorem fmtStep_moves {i : Instr} {len : Nat} {regs : List (BitVec 6)} {f : Group → Word32 → Word32}
    (he : exec i s = fmtStep s len regs f) (h : c.UniReady s [] regs)
    (hl : ∀ j ∈ c.sls, fmtLegal (f c.g (c.g.slices.get j).fmt) = true) :
    c.Moves s i s c.g priceUniform fun j => { c.past len j with fmt := f c.g (c.g.slices.get j).fmt } := by
  refine Issue.moves_past (f := id) (m := fun _ sl => { sl with fmt := f c.g sl.fmt }) h.issues (Issue.working_self h.issues) ?_
  rw [he]
  refine uniFrame_ready h _ (trapIf_and_eq_none fun _ => ?_) _
  exact List.any_eq_false.mpr fun j hj => by simp [hl j hj]

theorem prioStep_moves {i : Instr} {len : Nat} {a : BitVec 6} {n : Int} (he : exec i s = prioStep s len a n)
    (h : c.UniReady s [] [a]) :
    c.Moves s i s { c.g with prio := prioOf (c.g.g a) n } priceUniform (c.past len) := by
  refine Issue.moves_on (f := id) h.issues (Issue.working_on h.issues { c.g with prio := prioOf (c.g.g a) n } rfl) rfl ?_
  rw [he, prioStep, uniFrame_ready h _ rfl,
    State.modGroup_congr (issueOf_some h.issues).1 (f' := fun _ => { c.g with prio := prioOf (c.g.g a) n }) rfl]
  rfl

/-! ### `gbr` (R123) -/

theorem gbr_moves {a : BitVec 6} {cond : GCond} {disp : Word32} (h : c.UniReady s [] [a])
    (ht : gbrTaken cond (c.g.g a) = true → targetOk (s.codeOf c.g).2 (c.pc + disp) = true) :
    c.Moves s (.gbr a cond disp) s c.g priceUniform fun j =>
      { c.g.slices.get j with pc := if gbrTaken cond (c.g.g a) then c.pc + disp else c.pc + 8 } := by
  refine Issue.moves_slices (f := id) (m := fun _ sl => { sl with pc := if gbrTaken cond (c.g.g a) then c.pc + disp else c.pc + 8 })
    h.issues (Issue.working_self h.issues) ?_
  refine uniFrame_ready h _ (trapIf_and_not_eq_none fun hg => ht ?_) _
  exact (Bool.and_eq_true_iff.mp hg).2

/-! ### `nop` and `patld` (R121, R135) -/

theorem nop_moves (hi : issueOf s = some c) (p : Pred) : c.Moves s (.nop p) s c.g priceLane (c.past 12) := by
  refine Issue.moves_on (f := id) hi (Issue.working_self hi) rfl ?_
  show execNop p s = _
  unfold execNop
  rw [hi]
  rfl

theorem patld_moves (hi : issueOf s = some c) (pat : BitVec 26) :
    c.Moves s (.patld pat) (if (patAddr c.pc pat).toNat + 64 ≤ (s.codeOf c.g).2 then
      s.modCore c.g.core fun k => k.prick (patKey s c.g (patAddr c.pc pat)) else s) c.g priceLane (c.past 12) := by
  have w := Issue.working_self hi
  refine Issue.moves_on (f := id) (s1 := if (patAddr c.pc pat).toNat + 64 ≤ (s.codeOf c.g).2 then
      s.modCore c.g.core fun k => k.prick (patKey s c.g (patAddr c.pc pat)) else s) hi ?_ rfl ?_
  · split
    · exact w.modCore _ (Core.prick_stamp _)
    · exact w
  · show execPatld pat s = _
    unfold execPatld
    simp only [hi]
    rfl

/-! ### `drop` and `free` (R122) -/

/-- An instruction that reads no name and whose destinations are at hand does what its meaning does, wanting no cells. -/
theorem laneStep_full {ds : List (Pred × Nat)} (ht : nameTrap c [] ds = none) (hw : mustWait c [] ds = false)
    (act : Unit → Commit) {s' : State} (ha : act () = .ok s') : laneStep s c [] ds none act = s' := by
  unfold laneStep
  simp only [ht, hw, ha, (operands_none c s).full, (operands_none c s).noFailure, (operands_none c s).loaded, Bool.or_self,
    Bool.false_eq_true, if_false]

theorem drop_moves (hi : issueOf s = some c) {p : Pred} {a : Src} {n : BitVec 3}
    (hd : ∀ j ∈ c.sls, (c.g.slices.get j).dropExhausted p a.name.toNat n = false ∧ (c.g.slices.get j).emptyRead [⟨p, a⟩] = false)
    (ht : nameTrap c [] [(p, a.name.toNat)] = none) (hw : mustWait c [] [(p, a.name.toNat)] = false) :
    let dropped (j : Nat) : Slice :=
      (c.g.slices.get j).changeCount a.name.toNat ((c.g.slices.get j).active p) (fun k => k - n) false
    c.Moves s (.drop p a n) s c.g priceLane fun j => { dropped j with pc := (dropped j).pc + 12 } := by
  have hex : (c.sls.any fun j => (c.g.slices.get j).dropExhausted p a.name.toNat n) = false :=
    List.any_eq_false.mpr fun j hj => by simp [(hd j hj).1]
  have hem : (c.sls.any fun j => (c.g.slices.get j).emptyRead [⟨p, a⟩]) = false :=
    List.any_eq_false.mpr fun j hj => by simp [(hd j hj).2]
  refine Issue.moves_past (f := id) (len := 12)
    (m := fun j x => x.changeCount a.name.toNat ((c.g.slices.get j).active p) (fun k => k - n) false) hi (Issue.working_self hi) ?_
  show execDrop p a n s = _
  unfold execDrop
  simp only [hi, hex, hem, Bool.false_eq_true, if_false]
  exact congrArg _ (laneStep_full ht hw _ rfl)

theorem free_moves (hi : issueOf s = some c) {p : Pred} {b : BitVec 9} (ht : nameTrap c [] [(p, b.toNat)] = none)
    (hw : mustWait c [] [(p, b.toNat)] = false) :
    let freed (j : Nat) : Slice := (c.g.slices.get j).changeCount b.toNat ((c.g.slices.get j).active p) (fun _ => 0) true
    c.Moves s (.free p b) s c.g priceLane fun j => { freed j with pc := (freed j).pc + 12 } := by
  refine Issue.moves_past (f := id) (len := 12)
    (m := fun j x => x.changeCount b.toNat ((c.g.slices.get j).active p) (fun _ => 0) true) hi (Issue.working_self hi) ?_
  show execFree p b s = _
  unfold execFree
  simp only [hi]
  exact congrArg _ (laneStep_full ht hw _ rfl)

/-! ### `regang` and `exit` (R119, R121) -/

theorem regang_begins (hi : issueOf s = some c) (tag : BitVec 8) :
    c.Begins s (.regang tag) priceLane [] (fun j => (c.g.slices.get j).pc)
      { slices := sliceBits c.sls, pc := c.pc, next := c.pc + 12, kind := .regang tag, priv := c.g.priv }
      (fun t => settleGroup t c.gid) := by
  refine Issue.begins_await hi ?_
  show execRegang tag s = _
  unfold execRegang
  simp only [hi]
  exact congrArg _ (laneStep_operands (operands_none c s) rfl _ rfl)

/-- `exit` where nothing done before holds up the release it is (R189, R280). -/
theorem exit_moves (hi : issueOf s = some c) (p : Pred)
    (hm : ((∃ x ∈ c.lanes p, (((c.g.slices.get x.1).spawned.get x.2).join).isSome = true) ∨
        (∃ j ∈ c.sls, ((c.g.slices.get j).exitLanes ((c.g.slices.get j).active p)).ends c.g.priv = true)) →
      c.mustFollow s .rel [] = false) :
    let left (j : Nat) : Slice := (c.g.slices.get j).exitLanes ((c.g.slices.get j).active p)
    c.Moves s (.exit p) (exitJoins s c.g (c.lanes p)) c.g priceLane (fun j => { left j with pc := (left j).pc + 12 })
      fun t => checkBarriers (afterChange (t.modGroup c.gid fun g => (g.bury c.sls).reexamine) c) c.g := by
  refine Issue.moves_slices (m := fun _ sl => { sl.exitLanes (sl.active p) with pc := sl.pc + 12 }) hi
    (Issue.working_refl (issueOf_some hi).1) ?_
  show execExit p s = _
  unfold execExit
  simp only [hi]
  refine congrArg _ (if_neg fun hh => ?_)
  obtain ⟨hrel, hfollow⟩ := Bool.and_eq_true_iff.mp hh
  rw [Bool.or_eq_true, List.any_eq_true, List.any_eq_true] at hrel
  exact absurd hfollow (by simp [hm hrel])

/-! ### Barriers and `sleep` (R189, R239, R240, R255) -/

/-- A barrier whose entry traps on nothing begins its wait once what the group did before is performed. -/
theorem barrierStep_begins {i : Instr} {entry : Issue → Option Trap} {kind : WaitKind} {mark : Slice → Slice}
    {check : State → Group → State} (he : exec i s = barrierStep s entry kind mark check) (hi : issueOf s = some c)
    (hn : entry c = none) (hm : c.mustFollow s .rel [] = false) :
    c.Begins s i priceLane [] (fun j => (c.g.slices.get j).pc)
      { slices := sliceBits c.sls, pc := c.pc, next := c.pc + 12, kind := kind, priv := c.g.priv }
      (fun t => check (t.modGroup c.gid fun g => g.modSlices c.sls fun _ sl => mark sl) c.g) := by
  refine Issue.begins_await hi ?_
  rw [he]
  unfold barrierStep
  simp only [hi, hn, hm, Bool.false_eq_true, if_false]

/-- No lane takes part where the predicate holds on no active lane of a slice of the gang. -/
theorem Issue.lanes_eq_nil_iff {p : Pred} : c.lanes p = [] ↔ (c.sls.any fun j => (c.g.slices.get j).active p != 0) = false := by
  have hz : ∀ x : BitVec 4, ((List.range 4).filter fun l => x.getLsbD l) = [] ↔ x = 0 := by decide
  simp [Issue.lanes, List.flatMap_eq_nil_iff, hz]

theorem sleep_begins (hi : issueOf s = some c) {p : Pred} (mask : BitVec 8) (hl : c.lanes p ≠ []) :
    c.Begins s (.sleep p mask) priceLane [] (fun j => (c.g.slices.get j).pc)
      { slices := sliceBits c.sls, pc := c.pc, next := c.pc + 12, kind := .sleep mask, priv := c.g.priv } := by
  refine Issue.begins_await (f := id) hi ?_
  show execSleep p mask s = _
  unfold execSleep
  simp only [hi]
  exact congrArg _ (if_pos (by simpa [Issue.lanes_eq_nil_iff] using hl))

theorem sleep_moves (hi : issueOf s = some c) {p : Pred} (mask : BitVec 8) (hl : c.lanes p = []) :
    c.Moves s (.sleep p mask) s c.g priceLane (c.past 12) := by
  refine Issue.moves_on (f := id) hi (Issue.working_self hi) rfl ?_
  show execSleep p mask s = _
  unfold execSleep
  simp only [hi, Issue.lanes_eq_nil_iff.mp hl, Bool.false_eq_true, if_false]
  rfl

end

end Sys2Proof.Machine

open Sys2Proof.Machine

/-- Settles O7: both forms of `setfmt` are one write of `%fmt` and both forms of `setprio` one write of `%prio`. -/
theorem uniformControlCompletes : Obligations.UniformControlCompletes := by
  unfold Obligations.UniformControlCompletes
  intro s c a i w cond
  refine ⟨fun h => ⟨fun hl => ?fmt, fun hl => ?fmtM, prioStep_moves rfl h, prioStep_moves rfl h, gbr_moves h⟩, fun h hl => ?fmtImm⟩
  case fmt => exact fmtStep_moves (f := fun g _ => (g.g a).extractLsb' 0 32) rfl h fun _ _ => hl
  case fmtM => exact fmtStep_moves (f := fun g x => (x &&& ~~~w) ||| ((g.g a).extractLsb' 0 32 &&& w)) rfl h hl
  case fmtImm => exact fmtStep_moves (f := fun _ _ => w) rfl h fun _ _ => hl

/-- Settles O14: each instruction by its own lemma. -/
theorem groupControlCompletes : Obligations.GroupControlCompletes := by
  unfold Obligations.GroupControlCompletes
  intro s c p a b n tag pat hi sl past
  exact ⟨nop_moves hi p, patld_moves hi pat, drop_moves hi, free_moves hi, regang_begins hi tag, exit_moves hi p⟩

/-- Settles O23: the three barriers are one meaning, and `sleep` waits only where a lane takes part. -/
theorem groupBarriersBegin : Obligations.GroupBarriersBegin := by
  unfold Obligations.GroupBarriersBegin
  intro s c p mask hi waiting marked
  refine ⟨fun hm => ⟨?bar, fun hs => ?pbar, ?stepmark⟩, sleep_begins hi mask, sleep_moves hi mask⟩
  case bar => exact barrierStep_begins (show exec .bar s = execBar s from rfl) hi rfl hm
  case pbar => exact barrierStep_begins (show exec .pbar s = execPbar s from rfl) hi (trapIf_eq_none hs) hm
  case stepmark => exact barrierStep_begins (show exec .stepmark s = execStepmark s from rfl) hi rfl hm
end

section
/-! The distributor's events (R148, R181, R225, R238, R251 to R253, R278, R317, R336): the work that ends a team's stay, a parked team's
return, and from these the settlement of O33. -/

open Sys2Proof
namespace Sys2Proof.Machine

/-- The counters that a group's waits in `jwait` await (R271). -/
def Group.joinItems (g : Group) : List WaitItem :=
  g.waits.flatMap fun w => match w.kind with | .objects xs _ true _ => xs | _ => []

/-- A team of which one group awaits counters, all of them 0, is due to return (R278). -/
theorem parkedDue_of_counters {s : State} {t : Team} {gid : Nat} {g : Group} (hmem : gid ∈ t.groups) (hg : s.group gid = some g)
    (hne : g.joinItems ≠ [])
    (hzero : ∀ x ∈ g.joinItems, ∃ a, placeOf s g .clu x.addr = some a ∧ objCount (memReadN s.mem a 8) = 0) : parkedDue s t = true := by
  unfold parkedDue
  rw [List.any_eq_true]
  refine ⟨gid, hmem, ?_⟩
  simp only [hg, Bool.and_eq_true, Bool.not_eq_true', List.isEmpty_eq_false_iff, List.all_eq_true]
  refine ⟨hne, fun x hx => ?_⟩
  obtain ⟨a, ha, h0⟩ := hzero x hx
  simp only [ha, h0, beq_self_eq_true]

/-- A parked team whose counters read 0 is restored to the core it left, its scratchpad bytes taken along (R278). -/
theorem returnParked_eq_restoreTeam {s : State} {n : Nat} (hp : (s.team n).status = .parked) (hd : parkedDue s (s.team n) = true)
    (hr : (s.panel (s.team n).panel).status = .resident) {c : LaunchCmd}
    (hc : s.launchOf (((s.team n).groups.filterMap s.group).headD {}) = some c) :
    returnParked s n = restoreTeam c (s.modTeam n fun t =>
      { t with holds := false, kept := memCut s.mem (coreMem t.core + t.base) t.size }) (n, (s.team n).core) := by
  simp only [returnParked, hp, hd, hr, hc, beq_self_eq_true, Bool.and_self, if_true]

section
variable {s : State} {n : Nat} (act : State → State)

/-- A quiet team with a dirty segment begins its write-backs before it does what ends its stay (R181). -/
theorem endStay_of_dirty (hq : teamQuiet s n = true) (hd : (s.team n).dirty = true) :
    endStay s n act = s.modTeam n fun t => { t with windows := t.windows.map Window.startWriteback } := by
  simp [endStay, hq, hd]

/-- A quiet team with no dirty segment ends its stay (R181). -/
theorem endStay_of_clean (hq : teamQuiet s n = true) (hd : (s.team n).dirty = false) : endStay s n act = act s := by
  simp [endStay, hq, hd]
end

/-- A saving team each of whose groups still on its core has halted (R238). -/
theorem teamHalted_iff (s : State) (t : Team) : teamHalted s t = true ↔
    t.status = .saving ∧ (t.groups.filterMap s.group).filter Group.counts ≠ [] ∧
      ∀ g ∈ (t.groups.filterMap s.group).filter Group.counts, g.status = .saved := by
  simp only [teamHalted, Bool.and_eq_true, beq_iff_eq, Bool.not_eq_true', List.isEmpty_eq_false_iff, List.all_eq_true, and_assoc]

/-- A team on its core each of whose groups has retired (R139). -/
theorem teamOver_iff (s : State) (t : Team) : teamOver s t = true ↔
    (t.status = .resident ∨ t.status = .saving) ∧ t.groups.filterMap s.group ≠ [] ∧
      ∀ g ∈ t.groups.filterMap s.group, g.status = .retired := by
  simp only [teamOver, Bool.and_eq_true, Bool.or_eq_true, beq_iff_eq, Bool.not_eq_true', List.isEmpty_eq_false_iff, List.all_eq_true,
    and_assoc]

end Sys2Proof.Machine

open Sys2Proof.Machine

/-- Settles O33: each event by the guards of its meaning; the two ends of a stay share `endStay`. -/
theorem distributorEventsComplete : Obligations.DistributorEventsComplete := by
  unfold Obligations.DistributorEventsComplete
  intro s n
  refine ⟨?start, ?admission, ?saving, ?quantum, ?leave, ?retire, ?back⟩
  case start =>
    intro d hd hw he h1 hmin
    show execGridStart n s = _
    simp [execGridStart, hd, hw, he, h1, hmin]
  case admission =>
    intro p t passed hs hl ha hc
    show execDistributorAdmit n s = _
    simp only [execDistributorAdmit, hs, hl, ha, hc, Bool.or_self, Bool.false_eq_true, if_false]
  case saving =>
    intro hp
    show execQuantumExpiry n s = _
    simp [execQuantumExpiry, hp]
  case quantum =>
    intro x hx hp hq
    have he : exec (.quantumExpiry n) s = execQuantumExpiry n s := rfl
    rw [he]
    refine ⟨fun hempty => ?_, fun hne => ?_⟩
    · simp [execQuantumExpiry, hp, hx, hq, hempty]
    · simp [execQuantumExpiry, hp, hx, hq, hne]
  case leave =>
    intro hst hne hall hq
    have he : exec (.teamSaveLeave n) s = .next (endStay s n fun s => panelLeaves (teamLeaves s n) (s.team n).panel) := by
      show execTeamSaveLeave n s = _
      rw [execTeamSaveLeave, if_pos ((teamHalted_iff s (s.team n)).mpr ⟨hst, hne, hall⟩)]
    rw [he]
    exact ⟨fun hd => congrArg _ (endStay_of_dirty _ hq hd), fun hd => congrArg _ (endStay_of_clean _ hq hd)⟩
  case retire =>
    intro hst hne hall hq
    have he : exec (.teamRetire n) s = .next (endStay s n fun s => teamRetires s n) := by
      show execTeamRetire n s = _
      rw [execTeamRetire, if_pos ((teamOver_iff s (s.team n)).mpr ⟨hst, hne, hall⟩)]
    rw [he]
    exact ⟨fun hd => congrArg _ (endStay_of_dirty _ hq hd), fun hd => congrArg _ (endStay_of_clean _ hq hd)⟩
  case back =>
    rintro hst hp hl ⟨gid, g, hmem, hg, hne, hzero⟩ c u hc hu
    have hret := returnParked_eq_restoreTeam hst (parkedDue_of_counters hmem hg hne hzero) hp hc
    show execParkedTeamReturn n s = _
    simp only [execParkedTeamReturn, hl, Bool.false_eq_true, if_false, hret, hu, Option.getD_some]
end

section
/-! A cluster's cycle (R140, R297, R299, R301, R302): the state that refutes O38. -/

open Sys2Proof
namespace Sys2Proof.Machine

/-- A powered part with one group on core 0, whose gang 0 was refused in this cycle (R299). Its core holds 256 tokens, set aside in the
first of two reservations of that gang. -/
def State.twiceReserved : State :=
  { powered := true
    groups := [{ refused := 1 }]
    cores := [(0, { reservations := [{ group := 0, gang := 0, gathered := 256 }, { group := 0, gang := 0 }] })] }

/-- Counting a refusal copies the gang's first reservation, with the tokens set aside in it, over each of its reservations. -/
theorem twiceReserved_tokenCycle :
    ∃ t, exec (.tokenCycle 0 0) State.twiceReserved = .next t ∧ (t.core 0).holding = 512 := ⟨_, rfl, by decide⟩

end Sys2Proof.Machine

open Sys2Proof.Machine

/-- Refutes O38 in its bound of 256 tokens: in `State.twiceReserved` core 0 holds 256 tokens before the cycle and 512 after it. `Core.refuse`
gives a gang a reservation only where it has none, so no run should come to a second one; but the statement speaks of every state. -/
theorem not_tokenCyclesComplete : ¬ Obligations.TokenCyclesComplete := by
  unfold Obligations.TokenCyclesComplete
  intro h
  obtain ⟨-, -, hruns⟩ := h State.twiceReserved 0 0 rfl
  obtain ⟨t, ht, -, -, -, -, -, -, hpool, -⟩ := hruns (by decide)
  obtain ⟨t', ht', hheld⟩ := twiceReserved_tokenCycle
  obtain rfl : t = t' := Host.Outcome.next.inj (ht.symm.trans ht')
  have hbound : (t.core 0).holding ≤ 256 := hpool 0 (by decide)
  omega
end

section
/-! The value store's own events (R144, R145, R147, R265, R277): the image of a cell in its slot, a wake's effect on a group it does not
release, one cell of a group replaced, what each event comes to, and from these the settlement of O31. -/

open Sys2Proof
namespace Sys2Proof.Machine

/-! ### The image of a cell (R144, R235) -/

theorem memReadN_memWriteN_other (m : Memory) (a n v : Nat) {b k : Nat} (h : b + k ≤ a ∨ a + n ≤ b) :
    memReadN (memWriteN m a n v) b k = memReadN m b k := by
  induction k generalizing b with
  | zero => rfl
  | succ k ih => rw [memReadN, memReadN, memRead_memWriteN_other _ _ _ _ (by omega), ih (by omega)]

/-- The metadata word as a sum of its fields: three bits of count and one of pin to a lane, then the bound, full and failed bits. -/
theorem cellMeta_eq (c : Cell) : cellMeta c =
    (c.count.get 0).toNat + 8 * (c.count.get 1).toNat + 64 * (c.count.get 2).toNat + 512 * (c.count.get 3).toNat +
      4096 * (c.pin.get 0).toNat + 8192 * (c.pin.get 1).toNat + 16384 * (c.pin.get 2).toNat + 32768 * (c.pin.get 3).toNat +
      65536 + 131072 * c.full.toNat + 262144 * c.failed.isSome.toNat := by
  have hbit (b : Bool) (x : Nat) : (if b = true then x else 0) = x * b.toNat := by cases b <;> simp
  simp only [cellMeta, hbit, List.range, List.range.loop, List.map_cons, List.map_nil, List.sum_cons, List.sum_nil]
  omega

/-- Each field of a cell is read back from its metadata word, which fills four bytes at most. -/
theorem cellMeta_fields (c : Cell) : cellMeta c < 2 ^ 32 ∧
    (∀ l, l < 4 → cellMeta c / 8 ^ l % 8 = (c.count.get l).toNat ∧ cellMeta c / 2 ^ (12 + l) % 2 = (c.pin.get l).toNat) ∧
    cellMeta c / 2 ^ 17 % 2 = c.full.toNat ∧ cellMeta c / 2 ^ 18 % 2 = c.failed.isSome.toNat := by
  have hcount (l : Nat) : (c.count.get l).toNat < 8 := (c.count.get l).isLt
  have hpin (l : Nat) : (c.pin.get l).toNat ≤ 1 := Bool.toNat_le _
  have hfull := Bool.toNat_le c.full
  have hfailed := Bool.toNat_le c.failed.isSome
  have h0 := hcount 0; have h1 := hcount 1; have h2 := hcount 2; have h3 := hcount 3
  have p0 := hpin 0; have p1 := hpin 1; have p2 := hpin 2; have p3 := hpin 3
  rw [cellMeta_eq]
  refine ⟨by omega, fun l hl => ?_, by omega, by omega⟩
  have : l = 0 ∨ l = 1 ∨ l = 2 ∨ l = 3 := by omega
  rcases this with rfl | rfl | rfl | rfl <;> constructor <;> omega

section
variable {m : Memory} (a : Nat) (c : Cell)

/-- The slot's first sixteen bytes are the four lanes' data. -/
theorem memReadN_storeCell_data (h : Memory.wf m = true) {l : Nat} (hl : l < 4) :
    memReadN (storeCell m a c) (a + 4 * l) 4 = (c.data.get l).toNat := by
  have hread : memReadN ((List.range (l + 1)).foldl (fun m l => memWriteN m (a + 4 * l) 4 (c.data.get l).toNat) m) (a + 4 * l) 4 =
      (c.data.get l).toNat := by
    rw [List.range_succ, List.foldl_append, List.foldl_cons, List.foldl_nil,
      memReadN_memWriteN (Memory.wf_foldl _ _ (fun _ _ hm => Memory.wf_memWriteN hm _ _ _) h)]
    exact Nat.mod_eq_of_lt (c.data.get l).isLt
  have : l = 0 ∨ l = 1 ∨ l = 2 ∨ l = 3 := by omega
  rcases this with rfl | rfl | rfl | rfl <;>
    simpa (disch := omega) only [storeCell, List.range, List.range.loop, List.foldl_cons, List.foldl_nil, memReadN_memWriteN_other]
      using hread

/-- The next four are its metadata word. -/
theorem memReadN_storeCell_meta (h : Memory.wf m = true) : memReadN (storeCell m a c) (a + 16) 4 = cellMeta c := by
  have hlanes : Memory.wf ((List.range 4).foldl (fun m l => memWriteN m (a + 4 * l) 4 (c.data.get l).toNat) m) = true :=
    Memory.wf_foldl _ _ (fun _ _ hm => Memory.wf_memWriteN hm _ _ _) h
  rw [storeCell, memReadN_memWriteN_other _ _ _ _ (by omega), memReadN_memWriteN hlanes]
  exact Nat.mod_eq_of_lt (cellMeta_fields c).1

/-- A cell's image lies in the 32 bytes of its slot. -/
theorem memRead_storeCell_other (m : Memory) {x : Nat} (h : x < a ∨ a + 32 ≤ x) : memRead (storeCell m a c) x = memRead m x := by
  simp (disch := omega) only [storeCell, List.range, List.range.loop, List.foldl_cons, List.foldl_nil, memRead_memWriteN_other]

/-- What is read back from the slot is the cell: its data, counts and pins, full as it was; a failed one is empty for good (R237). -/
theorem loadCell_storeCell (h : Memory.wf m = true) : loadCell (storeCell m a c) a =
    { data := c.data, count := c.count, pin := c.pin, full := c.full && c.failed.isNone, failed := c.failed.map fun _ => ⟨7, 0⟩,
      spilled := true } := by
  obtain ⟨-, hlanes, hfull, hfailed⟩ := cellMeta_fields c
  have hdata : (Quad.make fun l => BitVec.ofNat 32 (memReadN (storeCell m a c) (a + 4 * l) 4)) = c.data :=
    (Quad.make_congr fun l hl => by rw [memReadN_storeCell_data a c h hl, BitVec.ofNat_toNat, BitVec.setWidth_eq]).trans (Quad.make_get _)
  have hcount : (Quad.make fun l => BitVec.ofNat 3 (cellMeta c / 8 ^ l)) = c.count :=
    (Quad.make_congr fun l hl => BitVec.eq_of_toNat_eq (by rw [BitVec.toNat_ofNat]; exact (hlanes l hl).1)).trans (Quad.make_get _)
  have hpin : (Quad.make fun l => cellMeta c / 2 ^ (12 + l) % 2 == 1) = c.pin :=
    (Quad.make_congr fun l hl => by rw [(hlanes l hl).2]; cases c.pin.get l <;> rfl).trans (Quad.make_get _)
  simp only [loadCell, memReadN_storeCell_meta a c h, hdata, hcount, hpin, hfull, hfailed]
  cases c.full <;> cases c.failed <;> rfl
end

/-! ### A wake that releases nothing (R150) -/

/-- A wake changes groups and cores alone. -/
theorem wakeCore_eq (s : State) (core code : Nat) :
    wakeCore s core code = { s with groups := (wakeCore s core code).groups, cores := (wakeCore s core code).cores } := by
  unfold wakeCore wakeRunning
  dsimp only
  split
  · rfl
  split
  · rfl
  split <;> rfl

@[simp] theorem wakeCore_mem (s : State) (core code : Nat) : (wakeCore s core code).mem = s.mem := by rw [wakeCore_eq]
@[simp] theorem wakeCore_grids (s : State) (core code : Nat) : (wakeCore s core code).grids = s.grids := by rw [wakeCore_eq]

/-- A group when an event of the code has reached a core: its sleeps that select the code are over, and its held gangs try again. -/
def Group.woken (g : Group) (core code : Nat) (gated : Bool) : Group :=
  if g.onCore core then
    (if g.waits.any fun w => w.kind.wakesOn code then g.endWaits (fun k => k.wakesOn code) false else g).retried gated
  else g

theorem wakeRunning_groups (s : State) (core code : Nat) :
    (wakeRunning s core code).groups = s.groups.map fun g => g.woken core code (s.core core).gated := by
  unfold wakeRunning
  dsimp only
  split
  · rfl
  split <;> rfl

/-- A group none of whose sleeps selects the code keeps everything but which of its gangs count as held (R140). -/
theorem Group.woken_eq {g : Group} {code : Nat} (hq : (g.waits.any fun w => w.kind.wakesOn code) = false) (core : Nat) (gated : Bool) :
    ∃ a b, g.woken core code gated = { g with held := a, heldLast := b } := by
  simp only [Group.woken, hq, Bool.false_eq_true, if_false]
  split <;> exact ⟨_, _, rfl⟩

theorem wakeCore_group {s : State} {gid : Nat} {g : Group} (hg : s.group gid = some g) (core : Nat) {code : Nat}
    (hq : (g.waits.any fun w => w.kind.wakesOn code) = false) :
    ∃ a b, (wakeCore s core code).group gid = some { g with held := a, heldLast := b } := by
  have hg' : s.groups[gid]? = some g := hg
  unfold wakeCore
  split
  · exact ⟨_, _, hg⟩
  · obtain ⟨a, b, hwoken⟩ := Group.woken_eq hq core (s.core core).gated
    exact ⟨a, b, by rw [State.group, wakeRunning_groups, List.getElem?_map, hg', Option.map_some, hwoken]⟩

/-! ### One cell of a group replaced -/

theorem State.group_modGroup_some {s : State} {gid : Nat} {g : Group} (hg : s.group gid = some g) (f : Group → Group) :
    (s.modGroup gid f).group gid = some (f g) := by rw [State.group_modGroup_self, hg, Option.map_some]

/-- The group with the cell of one name replaced. -/
def Group.withCell (g : Group) (i n : Nat) (c : Cell) : Group := g.modSlice i fun sl => { sl with names := tabSet sl.names n c }

section
variable (g : Group) (i n : Nat) (c : Cell)

theorem Group.withCell_get_self :
    (g.withCell i n c).slices.get i = { g.slices.get i with names := tabSet (g.slices.get i).names n c } :=
  Group.get_modSlice_self g i _

theorem Group.withCell_cell_self : ((g.withCell i n c).slices.get i).cell n = some c := by
  rw [Group.withCell_get_self]
  exact tabGet?_tabSet_self _ _ _

theorem Group.withCell_cell_other {m : Nat} (h : m ≠ n) : ((g.withCell i n c).slices.get i).cell m = (g.slices.get i).cell m := by
  rw [Group.withCell_get_self]
  exact tabGet?_tabSet_other _ _ h

theorem Group.withCell_get_other {i : Nat} (hi : i < 8) {j : Nat} (hj : j < 8) (h : j ≠ i) :
    (g.withCell i n c).slices.get j = g.slices.get j := Group.get_modSlice_other g _ h hi hj
end

/-! ### A spill completes (R144, R145) -/

section
variable {s : State} {gid i n : Nat} {g : Group} {c : Cell}

/-- A victim that an instruction has emptied meanwhile stays, no longer on its way out. -/
theorem spillWriteComplete_of_emptied (hg : s.group gid = some g) (hc : (g.slices.get i).cell n = some c) (hs : c.spilling = true)
    (hf : c.full = false) (hd : c.spilled = false) : exec (.spillWriteComplete gid i n) s =
      .next (s.modGroup gid fun g => g.withCell i n { c with spilling := false, spillFor := none }) := by
  show execSpillWriteComplete gid i n s = _
  simp only [execSpillWriteComplete, hg, hc, hs, hf, hd, Bool.not_false, Bool.and_self, if_true]
  rfl

/-- The state once a spill has left the memory `m` and its cell is spilled, before its place is granted. -/
def State.spillWritten (s : State) (m : Memory) (gid i n : Nat) (c : Cell) : State :=
  (s.setMem m).modGroup gid fun g => g.withCell i n { c with spilling := false, spillFor := none, spilled := true }

@[simp] theorem State.spillWritten_mem (s : State) (m : Memory) (gid i n : Nat) (c : Cell) : (s.spillWritten m gid i n c).mem = m := rfl
@[simp] theorem State.spillWritten_cores (s : State) (m : Memory) (gid i n : Nat) (c : Cell) :
    (s.spillWritten m gid i n c).cores = s.cores := rfl
@[simp] theorem State.core_spillWritten (s : State) (m : Memory) (gid i n : Nat) (c : Cell) (k : Nat) :
    (s.spillWritten m gid i n c).core k = s.core k := rfl

theorem State.group_spillWritten (hg : s.group gid = some g) (m : Memory) (i n : Nat) (c : Cell) :
    (s.spillWritten m gid i n c).group gid =
      some (g.withCell i n { c with spilling := false, spillFor := none, spilled := true }) := State.group_modGroup_some hg _

/-- Whether a grant still holds depends on neither memory nor a group's cells. -/
@[simp] theorem grantHolds_spillWritten (s : State) (m : Memory) (gid i n : Nat) (c : Cell) (core r : Nat) :
    grantHolds (s.spillWritten m gid i n c) core r = grantHolds s core r := by
  unfold grantHolds State.spillWritten
  by_cases h : r = gid
  · subst h
    rw [State.group_modGroup_self, State.group_setMem]
    cases s.group r <;> rfl
  · rw [State.group_modGroup_other _ _ h, State.group_setMem]

/-- The cell that a completed spill has freed, granted to its requester where that still waits on the core (R145). -/
def State.grantSpilled (s : State) (core : Nat) : Option (Nat × Nat) → State
  | some r => if grantHolds s core r.1 then s.modCore core fun k => { k with grants := k.grants ++ [r] } else s
  | none => s

@[simp] theorem State.grantSpilled_none (s : State) (core : Nat) : s.grantSpilled core none = s := rfl

theorem State.grantSpilled_of_holds {core : Nat} {r : Nat × Nat} (h : grantHolds s core r.1 = true) :
    s.grantSpilled core (some r) = s.modCore core fun k => { k with grants := k.grants ++ [r] } := if_pos h

theorem State.grantSpilled_of_lost {core : Nat} {r : Nat × Nat} (h : grantHolds s core r.1 = false) :
    s.grantSpilled core (some r) = s := if_neg (by simp [h])

theorem State.grantSpilled_eq (s : State) (core : Nat) (req : Option (Nat × Nat)) :
    s.grantSpilled core req = { s with cores := (s.grantSpilled core req).cores } := by
  unfold State.grantSpilled
  split
  · split <;> rfl
  · rfl

@[simp] theorem State.grantSpilled_mem (s : State) (core : Nat) (req : Option (Nat × Nat)) :
    (s.grantSpilled core req).mem = s.mem := by rw [State.grantSpilled_eq]
@[simp] theorem State.group_grantSpilled (s : State) (core : Nat) (req : Option (Nat × Nat)) (j : Nat) :
    (s.grantSpilled core req).group j = s.group j := by rw [State.grantSpilled_eq]; rfl

/-- A spill's image is written, the cell is spilled, and its place goes to the requester. -/
theorem spillWriteComplete_of_full (hg : s.group gid = some g) (hc : (g.slices.get i).cell n = some c) (hs : c.spilling = true)
    (hf : c.full = true ∨ c.spilled = true) : exec (.spillWriteComplete gid i n) s =
      .next ((s.spillWritten (storeCell s.mem (slotAddr g.area i n) c) gid i n c).grantSpilled g.core c.spillFor) := by
  have hfirst : (!c.full && !c.spilled) = false := by rcases hf with h | h <;> simp [h]
  show execSpillWriteComplete gid i n s = _
  simp only [execSpillWriteComplete, hg, hc, hs, Bool.true_and, hfirst, Bool.false_eq_true, if_false, if_true]
  cases c.spillFor <;> rfl

/-! ### A refill (R144) -/

/-- The core once a slice of a group has taken a cell: a stamp used, and the slice's grant, where it has one, spent (R145). -/
def Core.takeCell (k : Core) (gid i : Nat) : Core := { k with stamp := k.stamp + 1, grants := k.grants.erase (gid, i) }

/-- A slice once a name has taken a cell again: resident at this stamp, and latched (R144). -/
def Slice.refill (sl : Slice) (n stamp : Nat) (c : Cell) : Slice :=
  { sl with names := tabSet sl.names n { c with spilled := false, spilling := false, stamp := stamp }, latched := sl.latched ++ [n] }

/-- The group once a wanted name is refilled, its want served. -/
def Group.refilled (g : Group) (i n stamp : Nat) (c : Cell) : Group :=
  { g.modSlice i fun sl => sl.refill n stamp c with wants := g.wants.filter fun w => w != (i, n) }

theorem Group.refilled_get_self (g : Group) (i n stamp : Nat) (c : Cell) :
    (g.refilled i n stamp c).slices.get i = (g.slices.get i).refill n stamp c := g.get_modSlice_self i fun sl => sl.refill n stamp c

theorem Group.refilled_get_other (g : Group) {i : Nat} (n stamp : Nat) (c : Cell) (hi : i < 8) {j : Nat} (hj : j < 8) (h : j ≠ i) :
    (g.refilled i n stamp c).slices.get j = g.slices.get j := g.get_modSlice_other (fun sl => sl.refill n stamp c) h hi hj

/-- A wanted name that has a cell to take is resident and latched, its want served and the grant spent. -/
theorem cellRefill_of_wanted (hg : s.group gid = some g) (hc : (g.slices.get i).cell n = some c) (hd : c.spilled = true)
    (hf : c.full = true) (hw : (i, n) ∈ g.wants) (hr : 0 < cellsFor s g.core gid i) :
    exec (.cellRefill gid i n) s =
      .next (wakeCore ((s.modGroup gid fun x => x.refilled i n (16 * (s.core g.core).stamp) c).modCore g.core
        fun k => k.takeCell gid i) g.core 2) := by
  have hwanted : (c.spilled && c.full && g.wants.contains (i, n)) = true := by simp [hd, hf, hw]
  show execCellRefill gid i n s = _
  simp only [execCellRefill, hg, hc, hwanted, Nat.ne_of_gt hr, if_true, if_false]
  exact congrArg (fun u => Host.Outcome.next (wakeCore (State.modCore u _ fun k => k.takeCell gid i) _ _)) (State.modGroup_congr hg rfl)
end

/-! ### Reservations (R139, R147, R277) -/

theorem reservationOf_congr {s t : State} (h : t.grids = s.grids) (g : Group) (i : Nat) : reservationOf t g i = reservationOf s g i := by
  unfold reservationOf
  rw [h]

/-- Two groups of a launch whose floor entries in a slice differ in the top one alone hold reservations there that differ by as much. -/
theorem reservationOf_add_top (s : State) {g g' : Group} {i top top' : Nat} {rest : List Nat} (h : g.unreserved = false)
    (h' : g'.unreserved = false) (hd : g'.grid = g.grid) (hf : (g.slices.get i).floors = top :: rest)
    (hf' : (g'.slices.get i).floors = top' :: rest) : reservationOf s g' i + top = reservationOf s g i + top' := by
  simp only [reservationOf, h, h', hd, hf, hf', List.sum_cons, Bool.false_eq_true, if_false]
  omega

theorem raiseCut_eq_min (s : State) (g : Group) (i amount : Nat) : raiseCut s g i amount =
    min amount ((s.core g.core).vsLimit - reservedIn s g.core i fun h => h.team == g.team) := by
  simp only [raiseCut]
  split <;> omega

/-! ### A floor raise (R147) -/

/-- A group that differs from another in the gang numbers of its slices alone. -/
def Group.SameButGangs (g g' : Group) : Prop :=
  g' = { g with slices := g'.slices } ∧ ∀ j, j < 8 → ∃ n, g'.slices.get j = { g.slices.get j with gang := n }

theorem Group.SameButGangs.regroup {g x : Group} (h : g.SameButGangs x) {is : List Nat} (hn : is.Nodup) (hb : ∀ i ∈ is, i < 8) :
    g.SameButGangs (x.regroup is) := by
  refine ⟨(Group.regroup_eq x is).trans (by rw [h.1]), fun j hj => ?_⟩
  obtain ⟨a, ha⟩ := h.2 j hj
  obtain ⟨b, hb', -⟩ := Group.regroup_get x is hn hb hj
  exact ⟨b, by rw [hb', ha]⟩

theorem Group.sameButGangs_splitGangs (g : Group) : g.SameButGangs g.splitGangs :=
  List.foldlRecOn (motive := g.SameButGangs) (List.range 8) _ ⟨rfl, fun _ _ => ⟨_, rfl⟩⟩ fun _ hx _ _ =>
    hx.regroup (List.nodup_range.filter _) fun _ hi => List.mem_range.mp (List.mem_of_mem_filter hi)

/-- A granted raise is recorded in the slice's top floor entry, and its wait is over. -/
theorem Group.grantFloor_spec (g : Group) (w : GangWait) (i amount : Nat) {top : Nat} {rest : List Nat} (hi : i < 8)
    (hf : (g.slices.get i).floors = top :: rest) :
    g.grantFloor w i amount =
      { g with slices := (g.grantFloor w i amount).slices, waits := g.waits.filter fun v => v != w } ∧
    ∃ n, (g.grantFloor w i amount).slices.get i = { g.slices.get i with floors := amount :: rest, gang := n } := by
  obtain ⟨heq, hget⟩ := Group.sameButGangs_splitGangs
    ({ g.modSlice i fun sl => sl.setFloor amount with waits := g.waits.filter fun v => v != w } : Group)
  refine ⟨heq, ?_⟩
  obtain ⟨n, hn⟩ := hget i hi
  refine ⟨n, hn.trans ?_⟩
  show { (g.modSlice i fun sl => sl.setFloor amount).slices.get i with gang := n } = _
  rw [Group.get_modSlice_self, Slice.setFloor_eq, hf, List.tail_cons]

theorem floorRaiseGrant_of_fits {s : State} {gid i amount : Nat} {g : Group} {w : GangWait} (hg : s.group gid = some g)
    (hw : g.raiseWait i = some w) (hk : w.kind = .floorRaise amount) (hl : g.status = .live) (hfit : raiseFits s g i amount = true) :
    exec (.floorRaiseGrant gid i) s =
      .next (wakeCore (s.modGroup gid fun x => x.grantFloor w i (raiseCut s g i amount)) g.core 6) := by
  show execFloorRaiseGrant gid i s = _
  simp [execFloorRaiseGrant, hg, hw, hk, hl, hfit]

/-! ### A re-reservation (R277) -/

/-- The search for a least entry ends at the one whose key lies below all others'. -/
theorem foldl_least {α : Type} (key : α → Nat) {e : α} {r : List α} : ∀ {a : α}, e ∈ a :: r →
    (∀ y ∈ a :: r, y ≠ e → key e < key y) → r.foldl (fun x y => if key y < key x then y else x) a = e := by
  induction r with
  | nil => exact fun hm _ => (List.mem_singleton.mp hm).symm
  | cons b r ih =>
    intro a hm hlt
    rw [List.foldl_cons]
    have hpick : (if key b < key a then b else a) = a ∨ (if key b < key a then b else a) = b := by split <;> simp
    refine ih ?_ fun y hy => hlt y ?_
    · rcases List.mem_cons.mp hm with rfl | hm
      · by_cases hb : b = e
        · simp [hb]
        · have := hlt b (by simp) hb
          simp [Nat.not_lt.mpr this.le]
      · rcases List.mem_cons.mp hm with rfl | hm
        · by_cases ha : a = e
          · simp [ha]
          · simp [hlt a (by simp) ha]
        · exact List.mem_cons_of_mem _ hm
    · rcases List.mem_cons.mp hy with rfl | hy
      · rcases hpick with h | h <;> rw [h] <;> simp
      · simp [hy]

/-- The oldest request of a core is granted once its whole reservation fits. -/
theorem reReservation_of_oldest {s : State} {gid core asked : Nat} {g : Group} (hg : s.group gid = some g) (hr : g.resident core = true)
    (ha : g.rereserve = some asked)
    (hfirst : ∀ h x, s.group h = some x → x.resident core = true → ∀ a, x.rereserve = some a → h ≠ gid → asked < a)
    (hfit : ∀ j, j < 8 → reservedIn s core j (fun _ => true) + reservationOf s { g with unreserved := false } j ≤ (s.core core).vsLimit) :
    exec (.reReservation core) s =
      .next (wakeCore (s.modGroup gid fun g => { g with rereserve := none, unreserved := false }) core 6) := by
  have hmem : (g, gid) ∈ s.groups.zipIdx.filter fun e => e.1.resident core && e.1.rereserve.isSome := by
    rw [List.mem_filter, List.mem_zipIdx_iff_getElem?]
    exact ⟨hg, by simp [hr, ha]⟩
  have hleast : ∀ e ∈ s.groups.zipIdx.filter (fun e => e.1.resident core && e.1.rereserve.isSome), e ≠ (g, gid) →
      (g, gid).1.rereserve.getD 0 < e.1.rereserve.getD 0 := by
    rintro ⟨x, h⟩ he hne
    rw [List.mem_filter, List.mem_zipIdx_iff_getElem?] at he
    obtain ⟨hx, hask⟩ := he
    simp only [Bool.and_eq_true, Option.isSome_iff_exists] at hask
    obtain ⟨hres, a, hxa⟩ := hask
    have hh : h ≠ gid := by
      rintro rfl
      exact hne (congrArg (·, h) (Option.some.inj (hx.symm.trans hg)))
    simpa [ha, hxa] using hfirst h x hx hres a hxa hh
  have hfits : (reserveFits s core fun i => reservationOf s { g with unreserved := false } i) = true := by
    simpa [reserveFits] using hfit
  show execReReservation core s = _
  unfold execReReservation
  dsimp only
  generalize (s.groups.zipIdx.filter fun e => e.1.resident core && e.1.rereserve.isSome) = asks at hmem hleast
  cases asks with
  | nil => cases hmem
  | cons a r => simp only [foldl_least (fun e : Group × Nat => e.1.rereserve.getD 0) hmem hleast, hfits, if_true]

/-! ### A payload arrives (R265) -/

/-- A fold of which one step alone does anything is that step. -/
theorem foldl_of_only {α β : Type} {f : β → α → β} {i : α} {l : List α} (hn : l.Nodup) (hi : i ∈ l)
    (h : ∀ j ∈ l, j ≠ i → ∀ b, f b j = b) (b : β) : l.foldl f b = f b i := by
  induction l generalizing b with
  | nil => cases hi
  | cons a l ih =>
    obtain ⟨ha, hl⟩ := List.nodup_cons.mp hn
    rw [List.foldl_cons]
    rcases List.mem_cons.mp hi with rfl | hi
    · have hrest : ∀ b, ∀ j ∈ l, f b j = b := fun b j hj => h j (List.mem_cons_of_mem _ hj) (fun e => ha (e ▸ hj)) b
      exact (List.foldl_ext f (fun b _ => b) _ hrest).trans (List.foldl_fixed _)
    · rw [h a (by simp) (fun e => ha (e ▸ hi)), ih hl hi fun j hj => h j (List.mem_cons_of_mem _ hj)]

/-- A payload cell taken and full leaves the others to be taken. -/
theorem Slice.payloadWaits_take {sl : Slice} {n : Nat} {rest : List Nat} (h : sl.payloadWaits = n :: rest) {k : Cell}
    (hk : k.full = true) : ({ sl with names := tabSet sl.names n k } : Slice).payloadWaits = rest := by
  have hnodup : (n :: rest).Nodup := h ▸ List.nodup_range.filter _
  have hdrop : ({ sl with names := tabSet sl.names n k } : Slice).payloadWaits = sl.payloadWaits.filter fun e => e != n := by
    unfold Slice.payloadWaits
    rw [List.filter_filter]
    refine List.filter_congr fun e _ => ?_
    by_cases he : e = n
    · subst he
      simp [Slice.cell, tabGet?_tabSet_self, hk]
    · simp [Slice.cell, tabGet?_tabSet_other _ _ he, he]
  rw [hdrop, h, List.filter_cons_of_neg (by simp)]
  exact List.filter_eq_self.mpr fun e he => bne_iff_ne.mpr fun e' => (List.nodup_cons.mp hnodup).1 (e' ▸ he)

/-- The group with note taken of whether payload is still to come. -/
def Group.notePayload (g : Group) : Group :=
  { g with payload := (List.range 8).any fun i => !(g.slices.get i).payloadWaits.isEmpty }

/-- Once the next payload cell of the one slice that awaits any is full, more is to come where that slice has more to take. -/
theorem Group.payload_notePayload_withCell (g : Group) {i n : Nat} {rest : List Nat} {k : Cell} (hi : i < 8)
    (hw : (g.slices.get i).payloadWaits = n :: rest) (ho : ∀ j, j < 8 → j ≠ i → (g.slices.get j).payloadWaits = []) (hk : k.full = true) :
    (g.withCell i n k).notePayload.payload = true ↔ rest ≠ [] := by
  have hself : ((g.withCell i n k).slices.get i).payloadWaits = rest := by
    rw [Group.withCell_get_self, Slice.payloadWaits_take hw hk]
  show ((List.range 8).any fun j => !((g.withCell i n k).slices.get j).payloadWaits.isEmpty) = true ↔ _
  rw [List.any_eq_true]
  constructor
  · rintro ⟨j, hj, hwaits⟩ rfl
    have hj8 := List.mem_range.mp hj
    by_cases hne : j = i
    · simp [hne, hself] at hwaits
    · simp [g.withCell_get_other n k hi hj8 hne, ho j hj8 hne] at hwaits
  · intro hrest
    exact ⟨i, List.mem_range.mpr hi, by simp [hself, hrest]⟩

/-- A payload cell for which the section has room is taken. -/
theorem takePayload_of_room {s : State} {gid i n : Nat} {g : Group} {c : Cell} (hg : s.group gid = some g)
    (hc : (g.slices.get i).cell n = some c) (hr : 0 < cellsFor s g.core gid i) : takePayload s gid i n =
      wakeCore ((s.modGroup gid fun x => x.withCell i n
        { c with full := true, spilled := false, stamp := 16 * (s.core g.core).stamp + n }).modCore g.core
        fun k => k.takeCell gid i) g.core 3 := by
  simp only [takePayload, hg, hc, Nat.ne_of_gt hr, if_false]
  exact congrArg (fun u => wakeCore (State.modCore u _ fun k => k.takeCell gid i) _ _) (State.modGroup_congr hg rfl)

/-- Where one slice alone awaits payload, its next cell is taken, and note is taken of whether more is to come. -/
theorem payloadArrival_of_one {s : State} {gid i n : Nat} {g : Group} {rest : List Nat} (hi : i < 8) (hg : s.group gid = some g)
    (hp : g.payload = true) (hl : g.status = .live) (hw : (g.slices.get i).payloadWaits = n :: rest)
    (ho : ∀ j, j < 8 → j ≠ i → (g.slices.get j).payloadWaits = []) : exec (.payloadArrival gid) s =
      .next ((takePayload s gid i n).modGroup gid Group.notePayload) := by
  have hfold : (List.range 8).foldl (fun s i => ((g.slices.get i).payloadWaits.take 1).foldl (fun s e => takePayload s gid i e) s) s =
      takePayload s gid i n := by
    rw [foldl_of_only List.nodup_range (List.mem_range.mpr hi) fun j hj hne t => by simp [ho j (List.mem_range.mp hj) hne], hw]
    rfl
  show execPayloadArrival gid s = _
  simp only [execPayloadArrival, hg, hp, hl, hfold]
  rfl

end Sys2Proof.Machine

open Sys2Proof.Machine

/-- Settles O31: each event by what it comes to. What follows it is a wake that releases nothing of the group, so that the group is read
from the event's own change of it. -/
theorem storeEventsComplete : Obligations.StoreEventsComplete := by
  unfold Obligations.StoreEventsComplete
  intro s gid i n g c hg hi
  refine ⟨?emptied, ?spill, ?refill, ?raise, ?rereserve, ?payload⟩
  case emptied =>
    intro hc hs hf hd
    refine ⟨g.withCell i n { c with spilling := false, spillFor := none }, ?_, g.withCell_cell_self i n _, rfl,
      fun m hm => g.withCell_cell_other i n _ hm, fun j hj hne => g.withCell_get_other n _ hi hj hne⟩
    rw [spillWriteComplete_of_emptied hg hc hs hf hd]
    exact congrArg _ (State.modGroup_congr hg rfl)
  case spill =>
    intro hc hs hf hm
    refine ⟨_, _, spillWriteComplete_of_full hg hc hs hf, (State.group_grantSpilled _ _ _ _).trans (State.group_spillWritten hg _ i n c),
      g.withCell_cell_self i n _, ?_⟩
    rw [State.grantSpilled_mem, State.spillWritten_mem, loadCell_storeCell _ c hm]
    refine ⟨rfl, rfl, rfl, fun hn => by simp [hn], fun a ha => memRead_storeCell_other _ c s.mem ha, fun hr => by simp [hr],
      fun r hr => ?_⟩
    rw [hr]
    constructor
    · intro hlost
      rw [State.grantSpilled_of_lost ((grantHolds_spillWritten ..).trans hlost), State.spillWritten_cores]
    · intro hholds
      rw [State.grantSpilled_of_holds ((grantHolds_spillWritten ..).trans hholds), State.modCore, State.core_setCore_self,
        State.core_spillWritten]
  case refill =>
    intro hc hd hf hw hr hq
    obtain ⟨a, b, ht⟩ := wakeCore_group (s := (s.modGroup gid fun x => x.refilled i n (16 * (s.core g.core).stamp) c).modCore g.core
      fun k => k.takeCell gid i) (State.group_modGroup_some hg _) g.core hq
    refine ⟨_, _, cellRefill_of_wanted hg hc hd hf hw hr, by simp, ht, ?_, ?_, by simp [Group.refilled], fun m hm => ?_,
      fun j hj hne => g.refilled_get_other n _ c hi hj hne⟩
    all_goals dsimp only; rw [Group.refilled_get_self]
    · exact tabGet?_tabSet_self _ _ _
    · simp [Slice.refill]
    · exact tabGet?_tabSet_other _ _ hm
  case raise =>
    intro w amount top rest hw hk hf hl hq cut hfit
    have hcut : raiseCut s g i amount = cut := raiseCut_eq_min s g i amount
    obtain ⟨heq, k, hget⟩ := Group.grantFloor_spec g w i cut hi hf
    have hq' : ((g.grantFloor w i cut).waits.any fun w => w.kind.wakesOn 6) = false := by
      rw [heq]
      exact List.any_eq_false.mpr fun v hv => List.any_eq_false.mp hq v (List.mem_of_mem_filter hv)
    obtain ⟨a, b, ht⟩ := wakeCore_group (s := s.modGroup gid fun x => x.grantFloor w i cut) (State.group_modGroup_some hg _)
      g.core hq'
    have hx := floorRaiseGrant_of_fits hg hw hk hl (by rw [raiseFits, hcut]; exact decide_eq_true hfit)
    rw [hcut] at hx
    refine ⟨_, _, hx, by simp, ht, by rw [hget], ?_, by rw [hget], fun hu => ?_⟩
    · dsimp only
      rw [heq]
      simp
    · rw [reservationOf_congr (wakeCore_grids (s.modGroup gid fun x => x.grantFloor w i cut) g.core 6)]
      exact reservationOf_add_top s hu (by rw [heq]; exact hu) (by rw [heq]) hf (by rw [hget])
  case rereserve =>
    intro core asked hr ha hq hfirst hfit
    obtain ⟨a, b, ht⟩ := wakeCore_group (s := s.modGroup gid fun g => { g with rereserve := none, unreserved := false })
      (State.group_modGroup_some hg _) core hq
    exact ⟨_, _, reReservation_of_oldest hg hr ha hfirst hfit, by simp, ht, rfl, fun j _ => reservationOf_congr (wakeCore_grids _ _ _) _ j⟩
  case payload =>
    intro rest hp hl hw hc ho hr hq
    have hx := payloadArrival_of_one hi hg hp hl hw ho
    rw [takePayload_of_room hg hc hr] at hx
    obtain ⟨a, b, ht⟩ := wakeCore_group (s := (s.modGroup gid fun x => x.withCell i n
        { c with full := true, spilled := false, stamp := 16 * (s.core g.core).stamp + n }).modCore g.core fun k => k.takeCell gid i)
      (State.group_modGroup_some hg _) g.core hq
    exact ⟨_, _, _, hx, by simp, State.group_modGroup_some ht _, g.withCell_cell_self i n _, rfl, rfl, rfl, rfl, rfl,
      g.payload_notePayload_withCell hi hw ho rfl, fun m hm => g.withCell_cell_other i n _ hm⟩
end

section
/-! Barrier objects (R182, R184 to R188, R193): the frame of the instructions that write the words their lanes name and the frame of those
that wait on them complete, and from these the settlement of O22. -/

open Sys2Proof
namespace Sys2Proof.Machine

/-- The name a wait with a destination writes (R187). -/
def waitNames (p : Pred) (d : Option Dst) : List (Pred × Nat) :=
  match d with
  | some d => [(p, d.name.toNat)]
  | none => []

section
variable {s : State} {c : Issue} {i : Instr} {p : Pred} {m : Mem} {add : Nat → Nat}

/-- An instruction that writes the words its lanes name lands with the memory `act` gives, its accesses sampled and the waits on them
examined. -/
theorem wordStep_lands {extra : List NameRead} {kind : AccessKind} {access : Nat}
    {act : Issue → List (Nat × Nat × Word32) → Memory → Memory} (he : exec i s = wordStep s p m extra kind access add act)
    (h : c.Ready s (memReads p m ++ extra) [] [m.base]) (ht : wordTrap s c p m add 8 true = none)
    (hm : c.mustFollow s kind ((namedWords s c p m add).map fun w => (w.2.1, 8)) = false) :
    c.Lands s i (s.setMem (act c (namedWords s c p m add) s.mem)) c.g priceLane (memReads p m ++ extra)
      fun t => settleWaits (c.sampleLanes t p m access add) := by
  refine Issue.lands_lift (h := fun t => t.setMem (act c (namedWords s c p m add) t.mem)) h.issues (fun s1 hc => ?_) fun _ _ _ => rfl
  rw [he]
  unfold wordStep
  simp only [h.issues]
  refine congrArg _ (laneStep_operands h.toOperands ht _ ?_)
  simp only [hm, hc, Bool.false_eq_true, if_false]
  rfl

/-- An instruction that waits on the words its lanes name begins its wait where its entry traps on nothing and what R193 puts before it is
performed. -/
theorem waitStep_begins {d : Option Dst} {ext : Bool} {place : Issue → Option Trap × Word32 × Word32} {pc next : Word32}
    (he : exec i s = waitStep s p m d add false ext place fun s _ => s) (h : c.Ready s (memReads p m) (waitNames p d) [m.base])
    (hp : place c = (none, pc, next)) (hm : c.mustFollow s .acq [] = false) :
    c.Begins s i priceLane (memReads p m) (fun _ => pc)
      { slices := sliceBits c.sls, pc := pc, next := next, priv := c.g.priv
        kind := .objects ((namedAddrs c p m add).map fun x => { space := m.space, addr := x.1, lanes := x.2 }) d false ext }
      settleWaits := by
  refine Issue.begins_words h.issues fun s1 hc => ?_
  rw [he]
  unfold waitStep
  simp only [h.issues, hp]
  refine congrArg _ (laneStep_operands h.toOperands rfl _ ?_)
  simp only [hm, hc, Bool.and_false, Bool.false_eq_true, if_false]
  rfl
end

end Sys2Proof.Machine

open Sys2Proof.Machine

/-- Settles O22: `bobj` and `arrive` differ in the words they write, the three waits in where the gang stands and in their external bit. -/
theorem barrierObjectsComplete : Obligations.BarrierObjectsComplete := by
  unfold Obligations.BarrierObjectsComplete
  intro s c p m b d wide ext one n cont ws items ds waiting goal
  refine ⟨?bobj, ?arrive, fun h ht hm => ⟨?wait, ?extwait⟩, ?yieldon⟩
  case bobj => exact wordStep_lands (show exec (.bobj p m b wide ext) s = execBobj p m b wide ext s from rfl)
  case arrive =>
    have hland := wordStep_lands (c := c) (show exec (.arrive p m one n) s = execArrive p m one n s from rfl)
    rwa [List.append_nil] at hland
  case wait => exact waitStep_begins (show exec (.wait p m d) s = execWait p m d s from rfl) h (by rw [ht]) hm
  case extwait => exact waitStep_begins (show exec (.extwait p m d) s = execExtwait p m d s from rfl) h (by rw [ht]) hm
  case yieldon =>
    intro h ht hm hgoal
    refine waitStep_begins (show exec (.yieldon p m cont) s = execYieldon p m cont s from rfl) h ?_ hm
    have hentry : firstTrap [wordTrap s c p m (fun _ => 0) 8 false, trapIf (!targetOk (s.codeOf c.g).2 goal) 1] = none :=
      firstTrap_eq_none (by simp [ht, trapIf_eq_none, hgoal])
    exact congrArg (·, goal, goal) hentry
end

section
/-! Clocks, power and the deadlock watchdog (R196, R297, R303, R306, R307, R335, R344, R346, R347): what the time stepped over leaves of the
clusters, what a host event changes, what the watchdog does group by group, and from these the settlement of O39. -/

open Sys2Proof
namespace Sys2Proof.Machine

/-! ### Gating and settings -/

/-- A cluster is idle for long enough by the idle time of its partition, or by 1 ms where it has none (R306). -/
theorem gateRequest_of_idle {s : State} {cluster t : Nat} (hp : s.powered = true) (ht : (s.cluster cluster).idle = some t)
    (hg : (s.cluster cluster).gated = false) (hi : clusterIdle s cluster = true)
    (hl : (∃ n p, ownerOf s (dieOfCluster cluster) = some n ∧ tabGet? s.parts n = some p ∧ t + p.cfg.idle ≤ s.gtime.toNat) ∨
      (ownerOf s (dieOfCluster cluster) = none ∧ t + 1000000 ≤ s.gtime.toNat)) :
    execGateRequest cluster s = .next (s.modCluster cluster fun k => { k with gated := true, idle := none }) := by
  obtain ⟨n, p, ho, hn, hle⟩ | ⟨ho, hle⟩ := hl
  · simp [execGateRequest, ht, ho, hn, hp, hg, hi, hle]
  · simp [execGateRequest, ht, ho, hp, hg, hi, hle]

theorem drawAllowed_iff (s : State) (rate draws : Nat) : drawAllowed s rate draws = true ↔
    ringDraw rate + draws + 500000 ≤ 1000 * s.watts ∨ ringDraw rate + draws < ringDraw (totalRate s) + totalStacks s := by
  simp [drawAllowed, withinAllowance]

section
variable {s : State} (hp : s.powered = true) (k n : Nat)
include hp

/-- An injection rate is taken for a cluster of the package whose draw with it is allowed (R297, R344). -/
theorem injectionSetting_eq : execPowerManagerSetting (.injection k n) s =
    .next (if k < 24 ∧ drawAllowed s (totalRate s - (s.cluster k).rate + n) (totalStacks s) = true then
      s.modCluster k fun c => { c with rate := n } else s) := by
  simp [execPowerManagerSetting, hp]

/-- A row-activation window is taken for a stack of the package within the range of R335 (R344). -/
theorem windowSetting_eq : execPowerManagerSetting (.window k n) s =
    .next (if (k < 24 ∧ 16 ≤ n ∧ n ≤ 256) ∧
        drawAllowed s (totalRate s) (totalStacks s - stackDraw (tabGet s.windows 16 k) + stackDraw n) = true then
      { s with windows := tabSet s.windows k n } else s) := by
  simp [execPowerManagerSetting, hp]

theorem unreliablePacketReceived_eq : execUnreliablePacketReceived n s =
    .next (if n ∈ s.ports then { s with portDrops := tabSet s.portDrops n (tabGet s.portDrops 0 n + 1) } else s) := by
  simp [execUnreliablePacketReceived, hp]
end

theorem State.mem_ports_iff (s : State) (port : Nat) :
    port ∈ s.ports ↔ if s.recordOk 3 then port ∈ s.flash.board.ports else port < 24 := by
  unfold State.ports
  split <;> simp

/-! ### The time stepped over (R303, R347) -/

theorem holdStopped_eq (s : State) (d : Nat) : holdStopped s d =
    { s with panels := (holdStopped s d).panels, teams := (holdStopped s d).teams, grids := (holdStopped s d).grids } := by
  unfold holdStopped
  split <;> rfl

theorem clockRuns_holdStopped (s : State) (d k : Nat) : clockRuns (holdStopped s d) k = clockRuns s k := by
  rw [holdStopped_eq]; rfl

theorem effectiveRate_holdStopped (s : State) (d k : Nat) : effectiveRate (holdStopped s d) k = effectiveRate s k := by
  rw [holdStopped_eq]; rfl

/-- Time that passes changes intervals and clusters. -/
theorem elapse_eq (s : State) (d : Nat) : elapse s d =
    { s with panels := (elapse s d).panels, teams := (elapse s d).teams, grids := (elapse s d).grids,
             clusters := (elapse s d).clusters } := by
  unfold elapse
  rw [holdStopped_eq]

/-- A running cluster follows the time base and is owed the tokens of the time that passes (R297, R303). -/
theorem tabGet?_clusters_elapse {s : State} {k : Nat} {c : Cluster} (d : Nat) (hc : tabGet? s.clusters k = some c)
    (hr : clockRuns s k = true) :
    tabGet? (elapse s d).clusters k = some { c with localTime := s.gtime, owed := c.owed + effectiveRate s k * d } := by
  have hfollows : (elapse s d).clusters = s.clusters.map fun e =>
      (e.1, if clockRuns s e.1 then { e.2 with localTime := s.gtime, owed := e.2.owed + effectiveRate s e.1 * d } else e.2) := by
    unfold elapse
    simp only [clockRuns_holdStopped, effectiveRate_holdStopped]
    rw [holdStopped_eq]
    refine List.map_congr_left fun e _ => ?_
    split <;> rfl
  rw [hfollows, tabGet?_map _ fun e : Nat × Cluster =>
    if clockRuns s e.1 then { e.2 with localTime := s.gtime, owed := e.2.owed + effectiveRate s e.1 * d } else e.2, hc]
  simp only [Option.map_some, hr, if_true]

/-! ### Synchronisation messages (R303, R347) -/

section
variable {s : State} (x : Grandmaster)

/-- A message of another domain, or one that comes before the package record verifies, changes nothing (log 62, log 78). -/
theorem ptpSyncMessage_foreign (h : s.recordOk 2 = false ∨ x.domain ≠ s.flash.domain) : execPtpSyncMessage x s = .next s := by
  rcases h with h | h <;> simp [execPtpSyncMessage, h]

variable (hp : s.powered = true) (hr : s.recordOk 2 = true) (hd : x.domain = s.flash.domain)
include hp hr hd

theorem ptpSyncMessage_slews (h : (x.time : Int) - s.gtime.toNat ≤ 1000000) : execPtpSyncMessage x s =
    .next { s with lastSync := s.gtime.toNat, inHoldover := false, relocking := false, correction := (x.time : Int) - s.gtime.toNat } := by
  have hnot : ¬ 1000000 < (x.time : Int) - s.gtime.toNat := by omega
  simp [execPtpSyncMessage, hp, hr, hd, hnot]

theorem ptpSyncMessage_relocks (h : 1000000 < (x.time : Int) - s.gtime.toNat) (hb : s.inHoldover = true ∨ s.relocking = true) :
    execPtpSyncMessage x s =
      .next { s with lastSync := s.gtime.toNat, inHoldover := false, relocking := true, correction := (x.time : Int) - s.gtime.toNat } := by
  rcases hb with hb | hb <;> simp [execPtpSyncMessage, hp, hr, hd, h, hb]

theorem ptpSyncMessage_steps (h : 1000000 < (x.time : Int) - s.gtime.toNat) (hh : s.inHoldover = false) (hl : s.relocking = false) :
    execPtpSyncMessage x s = .next (elapse
      { s with gtime := BitVec.ofNat 64 x.time, correction := 0, offset := s.offset + ((x.time : Int) - s.gtime.toNat),
               lastSync := x.time, inHoldover := false, relocking := false } ((x.time : Int) - s.gtime.toNat).toNat) := by
  simp [execPtpSyncMessage, hp, hr, hd, h, hh, hl]
end

/-! ### Host events (R365) -/

theorem State.send_eq (s : State) (session opcode status : Nat) (body : List Nat) : s.send session opcode status body =
    { s with responses := (s.send session opcode status body).responses, sessions := (s.send session opcode status body).sessions } := by
  unfold State.send
  split
  · rfl
  · split <;> rfl

/-- An event raised changes what the host has heard, and the sessions that it goes out on. -/
theorem State.event_eq (s : State) (part : Option Nat) (e : List Nat) : s.event part e =
    { s with hostEvents := s.hostEvents ++ [e], responses := (s.event part e).responses, sessions := (s.event part e).sessions } := by
  have hsends (is : List Nat) (t : State) : ∃ rs ss, is.foldl (fun s i =>
      if (s.sessions.getD i {}).target = part then s.send i 0x100 0 e else s) t = { t with responses := rs, sessions := ss } := by
    induction is generalizing t with
    | nil => exact ⟨t.responses, t.sessions, rfl⟩
    | cons i is ih =>
      rw [List.foldl_cons]
      split
      · rw [State.send_eq]
        exact ih _
      · exact ih t
  obtain ⟨rs, ss, h⟩ := hsends (List.range s.sessions.length) { s with hostEvents := s.hostEvents ++ [e] }
  have hevent : s.event part e = { s with hostEvents := s.hostEvents ++ [e], responses := rs, sessions := ss } := h
  rw [hevent]

section
variable (s : State) (part : Option Nat) (e : List Nat)

@[simp] theorem State.event_hostEvents : (s.event part e).hostEvents = s.hostEvents ++ [e] := by rw [State.event_eq]
@[simp] theorem State.event_groups : (s.event part e).groups = s.groups := by rw [State.event_eq]
@[simp] theorem State.event_grids : (s.event part e).grids = s.grids := by rw [State.event_eq]
@[simp] theorem State.event_mem : (s.event part e).mem = s.mem := by rw [State.event_eq]
@[simp] theorem State.group_event (gid : Nat) : (s.event part e).group gid = s.group gid := by rw [State.event_eq]; rfl
end

/-! ### The watchdog's machine check (R196, R229) -/

/-- A live group in a handler. -/
def Group.handling (g : Group) : Bool := g.priv && g.status == .live

/-- A group that the machine check has reached: one in a handler has taken a double trap, another is asked for it at its next boundary. -/
def Group.checked (g : Group) : Group := if g.handling then { g with status := .stopped } else { g with wantCheck := true }

/-- The group of a number is in a handler. -/
def State.handles (s : State) (gid : Nat) : Bool :=
  match s.group gid with
  | some g => g.handling
  | none => false

theorem State.handles_congr {s t : State} {gid : Nat} (h : t.group gid = s.group gid) : t.handles gid = s.handles gid := by
  unfold State.handles; rw [h]

section
variable (s : State) (n : Nat)

/-- A group in a handler takes the double trap, another is asked for the machine check; a number without a group asks for nothing. -/
theorem checkGroup_eq : checkGroup s n = if s.handles n then doubleTrap s n { cause := 11, sub := 6 }
    else s.modGroup n fun g => { g with wantCheck := true } := by
  unfold checkGroup State.handles
  cases hg : s.group n with
  | none =>
    have hkept : (s.groups.modify n fun g => { g with wantCheck := true }) = s.groups :=
      List.modify_eq_self (List.getElem?_eq_none_iff.mp hg)
    simp [State.modGroup, hkept]
  | some g => rfl

@[simp] theorem doubleTrap_mem (t : Trap) : (doubleTrap s n t).mem = s.mem := by
  unfold doubleTrap; split <;> simp
@[simp] theorem doubleTrap_grids (t : Trap) : (doubleTrap s n t).grids = s.grids := by
  unfold doubleTrap; split <;> simp
theorem doubleTrap_hostEvents (t : Trap) :
    (doubleTrap s n t).hostEvents = s.hostEvents ++ [[1, n, t.cause, t.sub, t.arg.toNat]] := by
  unfold doubleTrap; split <;> simp
theorem doubleTrap_group (t : Trap) (gid : Nat) :
    (doubleTrap s n t).group gid = (s.modGroup n fun g => { g with status := .stopped }).group gid := by
  unfold doubleTrap; split <;> simp [State.group, State.modGroup]

@[simp] theorem checkGroup_mem : (checkGroup s n).mem = s.mem := by
  rw [checkGroup_eq]; split <;> simp
@[simp] theorem checkGroup_grids : (checkGroup s n).grids = s.grids := by
  rw [checkGroup_eq]; split <;> simp

theorem checkGroup_hostEvents :
    (checkGroup s n).hostEvents = s.hostEvents ++ if s.handles n then [[1, n, 11, 6, 0]] else [] := by
  rw [checkGroup_eq]; split <;> simp [doubleTrap_hostEvents]

theorem checkGroup_group_self {g : Group} (hg : s.group n = some g) : (checkGroup s n).group n = some g.checked := by
  have hd : s.handles n = g.handling := by unfold State.handles; rw [hg]
  rw [checkGroup_eq, hd, Group.checked]
  split
  · rw [doubleTrap_group, State.group_modGroup_some hg]
  · rw [State.group_modGroup_some hg]

theorem checkGroup_group_other {gid : Nat} (h : gid ≠ n) : (checkGroup s n).group gid = s.group gid := by
  rw [checkGroup_eq]
  split
  · rw [doubleTrap_group, State.group_modGroup_other _ _ h]
  · rw [State.group_modGroup_other _ _ h]
end

section
variable (ns : List Nat) (s : State)

theorem foldl_checkGroup_mem : (ns.foldl checkGroup s).mem = s.mem := by
  induction ns generalizing s with
  | nil => rfl
  | cons n ns ih => rw [List.foldl_cons, ih, checkGroup_mem]

theorem foldl_checkGroup_grids : (ns.foldl checkGroup s).grids = s.grids := by
  induction ns generalizing s with
  | nil => rfl
  | cons n ns ih => rw [List.foldl_cons, ih, checkGroup_grids]

theorem foldl_checkGroup_group_other {gid : Nat} (h : gid ∉ ns) : (ns.foldl checkGroup s).group gid = s.group gid := by
  induction ns generalizing s with
  | nil => rfl
  | cons n ns ih =>
    obtain ⟨hne, hns⟩ := not_or.mp (List.mem_cons.not.mp h)
    rw [List.foldl_cons, ih _ hns, checkGroup_group_other _ _ hne]

variable {ns} (hn : ns.Nodup)
include hn

theorem foldl_checkGroup_group_mem {gid : Nat} {g : Group} (hm : gid ∈ ns) (hg : s.group gid = some g) :
    (ns.foldl checkGroup s).group gid = some g.checked := by
  induction ns generalizing s with
  | nil => simp at hm
  | cons n ns ih =>
    obtain ⟨hnot, hn'⟩ := List.nodup_cons.mp hn
    rw [List.foldl_cons]
    rcases List.mem_cons.mp hm with rfl | hm'
    · rw [foldl_checkGroup_group_other _ _ hnot, checkGroup_group_self _ _ hg]
    · exact ih _ hn' hm' ((checkGroup_group_other _ _ (ne_of_mem_of_not_mem hm' hnot)).trans hg)

/-- The host hears of each double trap, in the order of the groups. -/
theorem foldl_checkGroup_hostEvents :
    (ns.foldl checkGroup s).hostEvents = s.hostEvents ++ (ns.filter s.handles).map fun n => [1, n, 11, 6, 0] := by
  induction ns generalizing s with
  | nil => simp
  | cons n ns ih =>
    obtain ⟨hnot, hn'⟩ := List.nodup_cons.mp hn
    have hkept : ns.filter (checkGroup s n).handles = ns.filter s.handles := List.filter_congr fun m hm =>
      State.handles_congr (checkGroup_group_other _ _ (ne_of_mem_of_not_mem hm hnot))
    rw [List.foldl_cons, ih _ hn', hkept, checkGroup_hostEvents, List.filter_cons, List.append_assoc]
    split <;> rfl
end

/-- The state in which the groups of a stuck context are checked: its interval has ended and the host has heard of it. -/
def State.watchdogFired (s : State) (grid : Nat) (d : Grid) : State :=
  (s.modGrid grid fun d => { d with stuck := none }).event (some d.part) [4, d.part, d.number]

theorem deadlockWatchdog_of_stuck {s : State} {grid t : Nat} {d : Grid} {p : Partition} (hd : s.grids[grid]? = some d)
    (hp : tabGet? s.parts d.part = some p) (ht : d.stuck = some t) (h0 : p.cfg.watchdog ≠ 0)
    (hl : t + p.cfg.watchdog ≤ s.gtime.toNat) (hc : contextStuck s grid = true) (hr : onStoppedDie s grid = false) :
    execDeadlockWatchdog grid s = .next ((gridGroups s grid).foldl checkGroup (s.watchdogFired grid d)) := by
  simp [execDeadlockWatchdog, hd, hp, ht, h0, hl, hc, hr, State.watchdogFired]

theorem gridGroups_nodup (s : State) (grid : Nat) : (gridGroups s grid).Nodup := List.nodup_range.filter _

/-- A grid changed in place: the list with that grid replaced. -/
theorem State.modGrid_grids_set {s : State} {grid : Nat} {d : Grid} (h : s.grids[grid]? = some d) (f : Grid → Grid) :
    (s.modGrid grid f).grids = s.grids.set grid (f d) := by
  unfold State.modGrid
  rw [List.modify_eq_set_getElem?, h]
  rfl

end Sys2Proof.Machine

open Sys2Proof.Machine

/-- Settles O39: the clocks and settings by the guards of their meanings, the step of the time base by what time leaves of a cluster, the
watchdog group by group. -/
theorem clockAndPowerEventsComplete : Obligations.ClockAndPowerEventsComplete := by
  unfold Obligations.ClockAndPowerEventsComplete
  refine ⟨fun s cluster hpow => ⟨fun t ht hg hi hl => gateRequest_of_idle hpow ht hg hi hl, ?resync, ?sync, ?holdover⟩, ?power,
    ?watchdog⟩
  case resync =>
    intro hr
    show execGtimeResync cluster s = _
    simp [execGtimeResync, hpow, hr]
  case sync =>
    intro domain master off
    let x : Grandmaster := ⟨domain, master⟩
    refine ⟨fun hr hd => ⟨ptpSyncMessage_slews x hpow hr hd, ptpSyncMessage_relocks x hpow hr hd, fun h hh hl => ?_⟩,
      ptpSyncMessage_foreign x⟩
    refine ⟨_, ptpSyncMessage_steps x hpow hr hd h hh hl, ?_, ?_, ?_, ?_, ?_, ?_, ?_, fun k c hc hr => tabGet?_clusters_elapse _ hc hr⟩
    all_goals rw [elapse_eq]
  case holdover =>
    intro hh hl
    show execHoldover s = _
    simp [execHoldover, hpow, hh, hl]
  case power =>
    intro s k n port hpow rings windows allowed
    refine ⟨fun hk ha => ?rate, fun h => ?rateKept, fun hk h16 h256 ha => ?window, fun h => ?windowKept, ?packet⟩
    case rate =>
      exact (injectionSetting_eq hpow k n).trans (congrArg _ (if_pos ⟨hk, (drawAllowed_iff ..).mpr ha⟩))
    case rateKept =>
      refine (injectionSetting_eq hpow k n).trans (congrArg _ (if_neg ?_))
      rw [drawAllowed_iff]
      rintro ⟨hk, ha⟩
      exact h.elim (fun h => by omega) fun h => h ha
    case window =>
      exact (windowSetting_eq hpow k n).trans (congrArg _ (if_pos ⟨⟨hk, h16, h256⟩, (drawAllowed_iff ..).mpr ha⟩))
    case windowKept =>
      refine (windowSetting_eq hpow k n).trans (congrArg _ (if_neg ?_))
      rw [drawAllowed_iff]
      rintro ⟨⟨hk, h16, h256⟩, ha⟩
      obtain h | h | h | h := h
      · omega
      · omega
      · omega
      · exact h ha
    case packet =>
      intro populated
      have hports : port ∈ s.ports ↔ populated := s.mem_ports_iff port
      refine ⟨fun h => (unreliablePacketReceived_eq hpow port).trans (congrArg _ (if_neg (hports.not.mpr h))), fun h =>
        ⟨_, (unreliablePacketReceived_eq hpow port).trans (congrArg _ (if_pos (hports.mpr h))), ?_, fun q hq => ?_, rfl⟩⟩
      · simp [tabGet, tabGet?_tabSet_self]
      · simp [tabGet, tabGet?_tabSet_other _ _ hq]
  case watchdog =>
    intro s grid t d p hd hp ht h0 hl hc hr handling double
    have hn := gridGroups_nodup s grid
    have hgroup (gid : Nat) : (s.watchdogFired grid d).group gid = s.group gid := State.group_event ..
    refine ⟨_, deadlockWatchdog_of_stuck hd hp ht h0 hl hc hr, ?events, ?grids, ?mem, fun gid g hg => ?group⟩
    case events =>
      have hdouble : (gridGroups s grid).filter (s.watchdogFired grid d).handles = double :=
        List.filter_congr fun m _ => State.handles_congr (hgroup m)
      rw [foldl_checkGroup_hostEvents _ hn, hdouble, State.watchdogFired, State.event_hostEvents]
      rfl
    case grids =>
      rw [foldl_checkGroup_grids, State.watchdogFired, State.event_grids, State.modGrid_grids_set hd]
    case mem =>
      rw [foldl_checkGroup_mem, State.watchdogFired, State.event_mem]
      rfl
    case group =>
      split
      case isTrue hout => rw [foldl_checkGroup_group_other _ _ hout, hgroup, hg]
      case isFalse hin => exact foldl_checkGroup_group_mem _ hn (not_not.mp hin) ((hgroup gid).trans hg)
end

section
/-! Matrix instructions (R197, R198, R209 to R215): what their gang's elected lane decides, what the queue of the pair takes, and the names
that a drain leaves empty; from these the settlement of O24. -/

open Sys2Proof
namespace Sys2Proof.Machine

/-! ### The queue of the pair (R210, R222) -/

/-- The zeros that lead a queue take effect alike before and after a change of the core outside its queue and its tile. -/
theorem Core.settleZeros_comm {f : Core → Core}
    (hf : ∀ k m e a, f { k with matrix := m, elems := e, anchor := a } = { f k with matrix := m, elems := e, anchor := a })
    (n : Nat) (k : Core) : (f k).settleZeros n = f (k.settleZeros n) := by
  have hqueue (k : Core) : (f k).matrix = k.matrix := by
    have hself := congrArg Core.matrix (hf k k.matrix k.elems k.anchor)
    exact hself
  induction n generalizing k with
  | zero => rfl
  | succ n ih =>
    cases hm : k.matrix with
    | nil => simp [Core.settleZeros, hqueue, hm]
    | cons o r =>
      cases o with
      | zero ea =>
        have hrest := ih { k with matrix := r, elems := [], anchor := ea }
        rw [hf] at hrest
        simpa [Core.settleZeros, hqueue, hm] using hrest
      | _ => simp [Core.settleZeros, hqueue, hm]

@[simp] theorem Core.settleZeros_owner (n : Nat) (k : Core) : (k.settleZeros n).owner = k.owner := by
  have hkept := congrArg Core.owner (Core.settleZeros_comm (f := fun q => { q with owner := k.owner }) (fun _ _ _ _ => rfl) n k)
  exact hkept

@[simp] theorem Core.nextMatrix_owner (k : Core) : k.nextMatrix.owner = k.owner := Core.settleZeros_owner _ _

theorem Core.addMatrix_stamp (o : MatOp) (k : Core) (x : Nat) :
    ({ k with stamp := x } : Core).addMatrix o = { k.addMatrix o with stamp := x } :=
  Core.settleZeros_comm (f := fun q => { q with stamp := x }) (fun _ _ _ _ => rfl) (k.matrix ++ [o]).length
    { k with matrix := k.matrix ++ [o] }

theorem Issue.Working.addMatrix {c : Issue} {s s1 : State} {g1 : Group} (w : c.Working s s1 g1) (o : MatOp) :
    c.Working (s.modCore c.g.core fun k => k.addMatrix o) (s1.modCore c.g.core fun k => k.addMatrix o) g1 :=
  w.modCore (fun k => k.addMatrix o) (Core.addMatrix_stamp o)

/-- An instruction that changes its core's units and moves on. -/
theorem Issue.moves_core {s : State} {c : Issue} {i : Instr} {p : Price} {f : Core → Core} (hi : issueOf s = some c)
    (hf : ∀ k n, f { k with stamp := n } = { f k with stamp := n })
    (hx : exec i s = .next (c.advance (s.modCore c.g.core f) 12 p)) :
    c.Moves s i (s.modCore c.g.core f) c.g p (c.past 12) :=
  Issue.moves_on (f := id) hi ((Issue.working_self hi).modCore f hf) rfl hx

/-! ### The frame of a matrix instruction (R197, R211) -/

/-- The elected lane of the gang acts on a leader core, and no register that the instruction reads keeps it from that. -/
structure Issue.Leads (c : Issue) (s : State) (p : Pred) (regs : List (BitVec 6)) : Prop where
  issues : issueOf s = some c
  elected : c.elected p = true
  leader : c.g.core % 2 = 0
  noFailure : c.failedReg regs = none
  loaded : c.pending regs = false

section
variable {s : State} {c : Issue} {p : Pred} {i : Instr} {regs : List (BitVec 6)} {price : Issue → Price} {act : Issue → State}

/-- Without its elected lane a matrix instruction only moves on. -/
theorem matrixStep_unelected (he : exec i s = matrixStep s p regs price act) (hi : issueOf s = some c) (hp : c.elected p = false) :
    c.Moves s i s c.g (price c) (c.past 12) := by
  refine Issue.moves_on (f := id) hi (Issue.working_self hi) rfl ?_
  rw [he, matrixStep]
  simp only [hi, hp, Bool.not_false, if_true]
  rfl

/-- A matrix instruction whose elected lane acts does what its meaning does. -/
theorem matrixStep_leads (h : c.Leads s p regs) : matrixStep s p regs price act = .next (act c) := by
  simp [matrixStep, h.issues, h.elected, h.noFailure, h.loaded, isFollower, h.leader]
end

/-! ### `mzero` (R209, R210) -/

section
variable {s : State} {c : Issue} {p : Pred}

/-- `mzero` claims a tile that no other team owns, with an anchor that fits its field. -/
theorem mzero_moves {ea : EaSrc} (h : c.Leads s p (anchorRegs ea)) (hlow : -32768 ≤ anchorOf c.g ea) (hhigh : anchorOf c.g ea ≤ 32767)
    (ho : (s.core c.g.core).owner = none ∨ (s.core c.g.core).owner = some c.g.team) :
    c.Moves s (.mzero p ea) (s.modCore c.g.core fun k => ({ k with owner := some c.g.team } : Core).addMatrix (.zero (anchorOf c.g ea)))
      c.g priceLane (c.past 12) := by
  have hfits : anchorFits (anchorOf c.g ea) = true := by simp [anchorFits, hlow, hhigh]
  have hfree : tileTaken s c.g = false := by rcases ho with ho | ho <;> simp [tileTaken, ho]
  refine Issue.moves_core h.issues (fun k n => Core.addMatrix_stamp _ { k with owner := some c.g.team } n) ?_
  refine (matrixStep_leads h).trans (congrArg _ ?_)
  simp only [hfits, hfree, Bool.not_true, Bool.false_eq_true, if_false]
  rfl

theorem ownsTile_iff {g : Group} : ownsTile s g = true ↔ (s.core g.core).owner = some g.team := by simp [ownsTile]

theorem mzeroRel_moves_of_owner (h : c.Leads s p []) (ho : (s.core c.g.core).owner = some c.g.team) :
    c.Moves s (.mzeroRel p) (s.modCore c.g.core fun k => k.addMatrix (.release c.g.team)) c.g priceLane (c.past 12) :=
  Issue.moves_core h.issues (Core.addMatrix_stamp _) ((matrixStep_leads h).trans (congrArg _ (if_pos (ownsTile_iff.mpr ho))))

theorem mzeroRel_moves_of_other (h : c.Leads s p []) (ho : (s.core c.g.core).owner ≠ some c.g.team) :
    c.Moves s (.mzeroRel p) s c.g priceLane (c.past 12) :=
  Issue.moves_on (f := id) h.issues (Issue.working_self h.issues) rfl
    ((matrixStep_leads h).trans (congrArg _ (if_neg (ownsTile_iff.not.mpr ho))))

/-! ### The memory forms (R214, R215) -/

/-- The owner's instruction on a descriptor at hand passes the checks made before it is read. -/
theorem drainEntry_eq_none {m : Mem} (ho : (s.core c.g.core).owner = some c.g.team) (ht : drainTrap s c m = none) :
    firstTrap [trapIf (!ownsTile s c.g) 1, drainTrap s c m] = none :=
  firstTrap_eq_none (by simp [ht, trapIf_eq_none, ownsTile_iff.mpr ho])

/-- A memory form queues its operation with the words of its descriptor. -/
theorem drainStep_moves {i : Instr} {m : Mem} {op : Issue → List Nat → Space → Nat → MatOp} (he : exec i s = drainStep s p m op)
    (h : c.Leads s p [m.base]) (ho : (s.core c.g.core).owner = some c.g.team) (ht : drainTrap s c m = none)
    (hm : c.mustFollow s .load [((drainDesc s c m).2, 32)] = false)
    (hobj : drainObjTrap s c m ((drainDesc s c m).1.getD 0 0) = none) :
    let obj := (drainDesc s c m).1.getD 0 0
    c.Moves s i (s.modCore c.g.core fun k => k.addMatrix (op c (drainDesc s c m).1 (scratchSpace (obj / 2 ^ 62)) (obj % 2 ^ 32)))
      c.g priceLane (c.past 12) := by
  refine Issue.moves_core h.issues (Core.addMatrix_stamp _) ?_
  rw [he, drainStep, matrixStep_leads h]
  simp only [drainEntry_eq_none ho ht, hm, hobj, Bool.false_eq_true, if_false]

/-! ### `mdrain` to names (R215, R218) -/

/-- A name left empty awaits the instruction that a slice's names are told of (R37). -/
theorem Slice.awaits_await {sl : Slice} {names : List Nat} {n l : Nat} {uses : BitVec 3} {mask : BitVec 4} (h : sl.Empties n l uses)
    (hn : n ∈ names) (hm : mask ≠ 0) (instr : Nat) : (sl.await names mask instr).Awaits n l uses instr := by
  obtain ⟨k, hk, hfull, hfailed, hcount, hpin⟩ := h
  exact ⟨{ k with producer := instr }, by simp [Slice.cell_await _ _ hm, hk, hn], hfull, hfailed, hcount, hpin, rfl⟩

/-- The commit of an instruction that leaves names empty keeps every name that it neither reads nor leaves empty. -/
theorem Slice.cell_committed_emptyWrites (c : Issue) (sl : Slice) (rs : List NameRead) (q : Pred) {names : List Nat} (uses : BitVec 3)
    (i stamp : Nat) (fl : FlagSet) {n : Nat} (hn : n ∉ names) :
    (sl.committed rs (emptyWrites c q names uses) i stamp fl).cell n = (sl.consumeAll rs).cell n := by
  refine Slice.cell_committed_other _ _ _ _ _ _ fun w hw e => hn ?_
  obtain ⟨m, hm, rfl⟩ := List.mem_map.mp hw
  exact e ▸ hm

/-- A commit without flags changes only a slice's names. -/
theorem Slice.committed_sameButNames (sl : Slice) (rs : List NameRead) (ws : List NameWrite) (i stamp : Nat) :
    (sl.committed rs ws i stamp 0).SameButNames sl := by
  refine (Slice.committed_same sl rs ws i stamp 0).trans ?_
  rw [show sl.fflags ||| FlagSet.word 0 = sl.fflags from BitVec.or_zero]

/-- An instruction whose slices have kept everything but their names, and await in them what they should, completes. -/
theorem Issue.leaves_of_slices {u s2 : State} {i : Instr} {pr : Price} {rs : List NameRead} {q : Pred} {names : List Nat}
    {uses : BitVec 3} {instr : Nat} {g2 : Group} (hi : issueOf s = some c) (w : c.Working u s2 g2)
    (hx : exec i s = .next (c.advance s2 12 pr)) (hk : g2 = { c.g with slices := g2.slices })
    (ho : ∀ j, j < 8 → j ∉ c.sls → g2.slices.get j = c.g.slices.get j)
    (hs : ∀ j ∈ c.sls, (g2.slices.get j).SameButNames (c.g.slices.get j))
    (ha : ∀ j ∈ c.sls, ∀ l, l < 4 → ((c.g.slices.get j).active q).getLsbD l = true → ∀ n ∈ names,
      (g2.slices.get j).Awaits n l uses instr)
    (hr : ∀ j ∈ c.sls, (c.g.slices.get j).ReadsNames (g2.slices.get j) rs names) :
    c.Leaves s i u pr rs q names uses instr := by
  have hn := issueOf_nodup hi
  have hb := issueOf_lt hi
  have hE := Issue.advance_ends_of hn hb w 12 pr ho (by rw [hk])
  refine ⟨_, _, hx, ⟨hE.toAccounts, hE.others, fun j hj => ?stands⟩, ?keeps, fun j hj => ?slices⟩
  case stands =>
    obtain ⟨hpath, hexited⟩ := hE.stands j hj
    rw [hpath, hexited, Issue.pastGroup_get 12 _ hn hb (hb j hj), if_pos hj, show g2.slices.get j = _ from hs j hj]
    exact ⟨Slice.settle_path rfl rfl, rfl⟩
  case keeps =>
    refine Issue.doneGroup_keeps (x := (c.pastGroup 12 g2).slices) ?_ _ _
    rw [Issue.pastGroup, Group.modSlices_eq, hk]
  case slices =>
    obtain ⟨k, z, hz⟩ := Issue.advanced_get_of hn hb s2.tick 12 g2 pr hj
    rw [hz]
    refine ⟨ha j hj, hr j hj, ?_, ?_⟩
    · rw [show g2.slices.get j = _ from hs j hj]
      rfl
    · rw [show g2.slices.get j = _ from hs j hj]
      rfl

/-- An instruction that leaves names empty and tells every slice which instruction fills them, its effect outside the slices being `h`. -/
theorem Issue.leaves_await {i : Instr} {pr : Price} {rs : List NameRead} {q : Pred} {names : List Nat} {uses : BitVec 3} {instr : Nat}
    {mask : BitVec 4} {h : State → State} (hi : issueOf s = some c) (hr : c.fits s rs (names.map fun n => (q, n)) = true)
    (hm : mask ≠ 0) (hh : ∀ s1 g1, c.Working s s1 g1 → c.Working (h s) (h s1) g1)
    (hx : ∀ s1, c.commit s rs (emptyWrites c q names uses) (fun _ => 0) = .ok s1 → exec i s = .next (c.advance
      (h (s1.modGroup c.gid fun g => g.modSlices c.sls fun _ sl => sl.await names mask instr)) 12 pr)) :
    c.Leaves s i (h s) pr rs q names uses instr := by
  have hn := issueOf_nodup hi
  have hb := issueOf_lt hi
  obtain ⟨s1, hc, w⟩ := Issue.commit_ok hi rs (emptyWrites c q names uses) (fun _ => 0) fun j hj => cellsNeeded_emptyWrites hr hj
  have hget := fun (j : Nat) (hj : j < 8) => Issue.apply_get (c := c) c.g (16 * (s.core c.g.core).stamp) rs (emptyWrites c q names uses)
    (fun _ => 0) hn hb hj
  have heq := Issue.apply_eq c c.g (16 * (s.core c.g.core).stamp) (fun _ sl => sl.consumeAll rs) (emptyWrites c q names uses) fun _ => 0
  generalize c.apply c.g _ _ _ _ = g1 at w hget heq
  have htold := fun (j : Nat) (hj : j < 8) => Group.get_modSlices g1 c.sls (fun _ sl => sl.await names mask instr) hn hb hj
  have hslice : ∀ j ∈ c.sls, (g1.modSlices c.sls fun _ sl => sl.await names mask instr).slices.get j =
      ((c.g.slices.get j).committed rs (emptyWrites c q names uses) j (16 * (s.core c.g.core).stamp) 0).await names mask instr :=
    fun j hj => by rw [htold j (hb j hj), if_pos hj, hget j (hb j hj), if_pos hj]
  refine Issue.leaves_of_slices hi (hh _ _ (w.modGroup _)) (hx s1 hc) (by rw [Group.modSlices_eq, heq]) (fun j hj hout => ?others)
    (fun j hj => ?same) (fun j hj l hl hactive n hmem => ?awaits) (fun j hj n hmem => ?reads)
  case others => rw [htold j hj, if_neg hout, hget j hj, if_neg hout]
  case same =>
    rw [hslice j hj]
    exact (Slice.await_same _ names mask instr).trans (Slice.committed_sameButNames _ rs _ j _)
  case awaits =>
    rw [hslice j hj]
    exact Slice.awaits_await (Slice.empties_committed c _ rs q names uses j _ 0 hl hactive hmem) hmem hm instr
  case reads =>
    rw [hslice j hj, Slice.cell_await_other _ _ _ hmem]
    exact Slice.cell_committed_emptyWrites c _ rs q uses j _ 0 hmem

/-- A matrix instruction queued that takes a number of the flights (R216). -/
def Issue.queueNumbered (c : Issue) (o : MatOp) (s : State) : State :=
  { s.modCore c.g.core fun k => k.addMatrix o with nextFlight := s.nextFlight + 1 }

theorem Issue.Working.queueNumbered {s1 : State} {g1 : Group} (w : c.Working s s1 g1) (o : MatOp) :
    c.Working (c.queueNumbered o s) (c.queueNumbered o s1) g1 :=
  (w.addMatrix o).lift (fun t => { t with nextFlight := t.nextFlight + 1 }) fun _ _ _ => rfl

/-- The operation that a drain to names queues. -/
def Issue.namesDrain (c : Issue) (s : State) (d : Dst) (m : Mem) : MatOp :=
  .drain c.gid c.lowest.1 s.nextFlight c.electedFmt (drainDesc s c m).1 (some (d.name.toNat, s.nextFlight)) .core 0

/-- A drain to names leaves them empty and queues its operation. -/
theorem mdrainNames_leaves {d : Dst} {m : Mem} (h : c.Leads s p [m.base]) (ho : (s.core c.g.core).owner = some c.g.team)
    (ht : drainTrap s c m = none) (hm : c.mustFollow s .load [((drainDesc s c m).2, 32)] = false)
    (hnames : namesTrap s c d.name.toNat (DrainDesc.of (drainDesc s c m).1) = none)
    (hr : c.Ready s [] ((elementNames d.name.toNat (DrainDesc.of (drainDesc s c m).1).cols false).map fun n => (.always, n))) :
    c.Leaves s (.mdrainNames p d m) (c.queueNumbered (c.namesDrain s d m) s) priceLane [] .always
      (elementNames d.name.toNat (DrainDesc.of (drainDesc s c m).1).cols false) d.uses s.nextFlight := by
  refine Issue.leaves_await (mask := 0xF) h.issues hr.room (by decide) (fun s1 g1 w => w.queueNumbered _) fun s1 hc => ?_
  refine (matrixStep_leads h).trans (congrArg _ ?_)
  simp only [drainEntry_eq_none ho ht, hm, hnames, Bool.false_eq_true, if_false]
  refine (laneStep_operands hr.toOperands rfl _ (Commit.map_ok hc _)).trans ?_
  rw [Issue.namesDrain, ← Issue.commit_nextFlight hc]
  rfl

/-! ### `mpair` (R211 to R213) -/

/-- The operation that an `mpair` queues. -/
def Issue.pairOp (c : Issue) (s : State) (a sc : Src) (lead follow team : Nat) : MatOp :=
  .pair c.gid c.lowest.1 s.nextFlight c.electedFmt (mpairTile c c.electedFmt a sc).words (mpairTile c c.electedFmt a sc).scales
    lead follow team (matSteps c.electedFmt)

/-- The group with the A tile it holds for its next `mpair` replaced. -/
def Group.withLatch (g : Group) (l : Option Latch) : Group := { g with latch := l }

/-- An `mpair` reads its tile unless the group holds one, keeps it for the next where it is told to, and queues its steps. -/
theorem mpair_lands {reuse : Bool} {a sc : Src} {base : BitVec 6} {off : BitVec 12} {lead follow team : Nat} (h : c.Leads s p [base])
    (ht : mpairTrap s c a sc = none) (hr : c.Ready s (if c.g.latch.isSome then [] else mpairReads c.electedFmt a sc) [])
    (hhalves : mpairHalves s c.g c.electedFmt ((c.g.g base + off.signExtend 64).toNat) = .ok (lead, follow, team))
    (hroom : queuedPairs (s.core c.g.core) < 4) :
    c.Lands s (.mpair p reuse a sc base off) (s.modCore c.g.core fun k => k.addMatrix (c.pairOp s a sc lead follow team))
      (c.g.withLatch (if reuse then some (mpairTile c c.electedFmt a sc) else none)) (priceMpair c.electedFmt)
      (if c.g.latch.isSome then [] else mpairReads c.electedFmt a sc) := by
  generalize hrs : (if c.g.latch.isSome then [] else mpairReads c.electedFmt a sc) = rs at hr ⊢
  have hi := h.issues
  obtain ⟨s1, hc, w⟩ := Issue.commit_reads hi rs
  have wqueued := w.addMatrix (c.pairOp s a sc lead follow team)
  have wlatched := wqueued.modGroup fun g => g.withLatch (if reuse then some (mpairTile c c.electedFmt a sc) else none)
  refine Issue.lands (c := c) (f := id) hi (wlatched.on _ rfl) rfl ?exec ?group fun j hj =>
    Issue.apply_get (c := c) c.g _ rs [] (fun _ => 0) (issueOf_nodup hi) (issueOf_lt hi) hj
  case group => rw [Issue.apply_eq]; rfl
  case exec =>
    refine (matrixStep_leads h).trans (congrArg _ ?_)
    simp only [ht, hrs, hhalves, Nat.not_le.mpr hroom, if_false]
    refine (laneStep_operands hr.toOperands rfl _ (Commit.map_ok hc _)).trans ?_
    rw [Issue.pairOp, ← Issue.commit_nextFlight hc]
    rfl
end

end Sys2Proof.Machine

open Sys2Proof.Machine

/-- Settles O24: without the elected lane by the frame of all of them, with it by what each queues once its checks have passed. -/
theorem matrixInstructionsQueue : Obligations.MatrixInstructionsQueue := by
  unfold Obligations.MatrixInstructionsQueue
  intro s c p ea reuse a sc d m base off lead follow team hi k add desc fmt
  refine ⟨fun hp => ?unelected, fun hp hl => ⟨?mzero, ?release, ?keep, ?memory, ?names, ?mpair⟩⟩
  case unelected =>
    exact ⟨matrixStep_unelected (show exec (.mzero p ea) s = execMzero p ea s from rfl) hi hp,
      matrixStep_unelected (show exec (.mzeroRel p) s = execMzeroRel p s from rfl) hi hp,
      matrixStep_unelected (show exec (.mpair p reuse a sc base off) s = execMpair p reuse a sc base off s from rfl) hi hp,
      matrixStep_unelected (show exec (.mdrainNames p d m) s = execMdrainNames p d m s from rfl) hi hp,
      matrixStep_unelected (show exec (.mdrainMemory p m) s = execMdrainMemory p m s from rfl) hi hp,
      matrixStep_unelected (show exec (.mstadd p m) s = execMstadd p m s from rfl) hi hp⟩
  case mzero => exact fun hf hq hlow hhigh ho => mzero_moves ⟨hi, hp, hl, hf, hq⟩ hlow hhigh ho
  case release => exact mzeroRel_moves_of_owner ⟨hi, hp, hl, rfl, rfl⟩
  case keep => exact mzeroRel_moves_of_other ⟨hi, hp, hl, rfl, rfl⟩
  case memory =>
    intro hf hq ho ht hm obj hobj
    exact ⟨drainStep_moves (show exec (.mdrainMemory p m) s = execMdrainMemory p m s from rfl) ⟨hi, hp, hl, hf, hq⟩ ho ht hm hobj,
      drainStep_moves (show exec (.mstadd p m) s = execMstadd p m s from rfl) ⟨hi, hp, hl, hf, hq⟩ ho ht hm hobj⟩
  case names => exact fun hf hq ho ht hm hnames hr => mdrainNames_leaves ⟨hi, hp, hl, hf, hq⟩ ho ht hm hnames hr
  case mpair => exact fun hf hq ht hr hhalves hroom => mpair_lands ⟨hi, hp, hl, hf, hq⟩ ht hr hhalves hroom
end

section
/-! The matrix pair's events (R198, R206, R210, R216 to R223): what the first instruction of the queue becomes once the accesses before it
are performed, and from these the settlement of O35. -/

open Sys2Proof
namespace Sys2Proof.Machine

/-! ### Ownership (R198, R210) -/

/-- A release of the owner ends its ownership where no later `mzero` keeps the tile. -/
theorem ownershipEnd_of_owner {s : State} {core team : Nat} {rest : List MatOp} (hm : (s.core core).matrix = .release team :: rest)
    (ho : (s.core core).owner = some team) (hz : ∀ ea, MatOp.zero ea ∉ rest) :
    exec (.ownershipEnd core) s = .next (s.setCore core (s.core core).nextMatrix.endOwnership) := by
  show execOwnershipEnd core s = _
  unfold execOwnershipEnd
  simp only [hm]
  refine congrArg Host.Outcome.next (congrArg (s.setCore core) (if_neg fun hkept => ?_))
  simp only [ho, Core.nextMatrix_owner, bne_self_eq_false, Bool.or_false, Bool.and_eq_true, List.any_eq_true] at hkept
  obtain ⟨-, o, hmem, hzero⟩ := hkept
  cases o with
  | zero ea => exact hz ea hmem
  | _ => exact Bool.false_ne_true hzero

section
variable {s : State} {core gid slice mark : Nat} {g : Group} {fmt : Word32} {desc : List Nat} {space : Space} {addr : Nat} {bad : List Nat}
  {rest : List MatOp}

/-! ### Steps (R206, R223) -/

/-- A step adds its products to the tile; the last one of its `mpair` takes it from the queue. -/
theorem mpairStep_adds {words : List (List Word32)} {scales : List Word32} {lead follow team n : Nat}
    (hf : mustFollow s gid mark [.fence] [] = false)
    (hm : (s.core core).matrix = .pair gid slice mark fmt words scales lead follow team (n + 1) :: rest) :
    let depth := matDepth fmt / matSteps fmt
    let x := stepTile s.mem fmt words scales lead follow (s.core core).anchor (depth * (matSteps fmt - (n + 1))) depth (s.core core).elems
    exec (.mpairStep core) s = .next (raiseIn (s.setCore core
      (if n = 0 then ({ s.core core with elems := x.1 } : Core).nextMatrix
       else { s.core core with elems := x.1, matrix := .pair gid slice mark fmt words scales lead follow team n :: rest }))
      gid slice x.2) := by
  intro depth x
  show execMpairStep core s = _
  unfold execMpairStep
  simp only [hm, hf, Nat.add_eq_zero_iff, Nat.add_eq_right, Bool.false_or, Nat.one_ne_zero, and_false, decide_false, Bool.false_eq_true,
    if_false, Nat.add_sub_cancel]
  rfl

/-! ### Drains and add-on-stores (R216 to R220) -/

/-- A drain to names merges its maximum, delivers its elements and leaves the queue. -/
theorem drainPerform_toNames {first instr : Nat} (hg : s.group gid = some g) (hf : mustFollow s gid mark [.fence] [] = false)
    (hm : (s.core core).matrix = .drain gid slice mark fmt desc (some (first, instr)) space addr :: rest) :
    let k := s.core core
    let d := DrainDesc.of desc
    exec (.drainPerform core bad) s = .next (settleWaits (wakeCore
      ((drainNames (raiseIn (mergeMax s g k d bad) gid slice (mergeFlags s g k d bad)) gid k fmt d first instr bad).modCore core
        Core.nextMatrix) core 2)) := by
  intro k d
  show execDrainPerform core bad s = _
  unfold execDrainPerform
  simp only [hm, hg, hf, Bool.false_eq_true, if_false]
  rfl

/-- A drain to memory ends with the code of its ranges, or else writes its elements. -/
theorem drainPerform_toMemory (hg : s.group gid = some g) (hf : mustFollow s gid mark [.fence] [] = false)
    (hm : (s.core core).matrix = .drain gid slice mark fmt desc none space addr :: rest) :
    let k := s.core core
    let d := DrainDesc.of desc
    let t := outTy (fmtOut fmt)
    let e := drainError s g d (fmtOut fmt) (List.range 7)
    let x := writeTile s g k d t.bytes bad fun e _ => outElem (Arith.of fmt) t k.anchor e
    exec (.drainPerform core bad) s = .next (if e ≠ 0 then endDrain s core g d t.bytes e space addr
      else endTile x.1 core g gid slice k d t.bytes bad x.2 space addr) := by
  intro k d t e x
  show execDrainPerform core bad s = _
  unfold execDrainPerform
  simp only [hm, hg, hf, Bool.false_eq_true, if_false, bne_iff_ne]
  rfl

/-- What an add-on-store to a type makes of an element's old code (R220). -/
def addElem (a : Arith) (t : Ty) (ea : Int) (e : Elem) (o : Nat) : Nat × FlagSet :=
  match t with
  | .t96 => add96 ea e o
  | .s32 => addS32 a ea e o
  | _ => addFloat a t ea e o

/-- An add-on-store ends with the code of its ranges, or else adds its elements into memory. -/
theorem addOnStorePerform_eq (hg : s.group gid = some g) (hf : mustFollow s gid mark [.fence] [] = false)
    (hm : (s.core core).matrix = .add gid slice mark fmt desc space addr :: rest) :
    let k := s.core core
    let d := DrainDesc.of desc
    let t := outTy (fmtOut fmt)
    let e := drainError s g d (fmtOut fmt) [0, 1, 2, 5, 6]
    let x := writeTile s g k d t.bytes bad (addElem (Arith.of fmt) t k.anchor)
    exec (.addOnStorePerform core bad) s = .next (if e ≠ 0 then endDrain s core g d t.bytes e space addr
      else endTile x.1 core g gid slice k d t.bytes bad x.2 space addr) := by
  intro k d t e x
  show execAddOnStorePerform core bad s = _
  unfold execAddOnStorePerform
  simp only [hm, hg, hf, Bool.false_eq_true, if_false, bne_iff_ne]
  rfl
end

end Sys2Proof.Machine

open Sys2Proof.Machine

/-- Settles O35: each event by what the first instruction of the queue becomes, a memory form by the code of its ranges. -/
theorem matrixEventsComplete : Obligations.MatrixEventsComplete := by
  unfold Obligations.MatrixEventsComplete
  intro s core gid slice mark g fmt desc space addr bad rest hg hf k d t code
  refine ⟨?step, ?names, fun hm => ?memory, fun hm => ?add, fun team => ownershipEnd_of_owner⟩
  case step => exact fun words scales lead follow team n hm => mpairStep_adds hf hm
  case names => exact fun first instr hm => drainPerform_toNames hg hf hm
  case memory =>
    have hx := drainPerform_toMemory (bad := bad) hg hf hm
    exact ⟨fun he => hx.trans (congrArg _ (if_pos he)), fun he => hx.trans (congrArg _ (if_neg (not_not.mpr he)))⟩
  case add =>
    have hx := addOnStorePerform_eq (bad := bad) hg hf hm
    exact ⟨fun he => hx.trans (congrArg _ (if_pos he)), fun he => hx.trans (congrArg _ (if_neg (not_not.mpr he)))⟩
end

section
/-! Taking a trap (R227 to R230, R233, R236): what it leaves of the group, of the other groups and of memory, and from these the settlement
of O53. -/

open Sys2Proof
namespace Sys2Proof.Machine

theorem Oct.get_make {α : Type} (f : Nat → α) {i : Nat} (hi : i < 8) : (Oct.make f).get i = f i := by
  match i with
  | 0 | 1 | 2 | 3 | 4 | 5 | 6 | 7 => rfl

/-! ### The context record in memory (R236) -/

/-- Memory written step by step keeps a byte that each step keeps. -/
theorem memRead_foldl {α : Type} {f : Memory → α → Memory} {x : Nat} (l : List α)
    (hf : ∀ m, ∀ y ∈ l, memRead (f m y) x = memRead m x) (m : Memory) : memRead (l.foldl f m) x = memRead m x :=
  List.foldlRecOn (motive := fun m' => memRead m' x = memRead m x) l f rfl fun m' h y hy => (hf m' y hy).trans h

/-- The context record of a save area lies in its bytes 0x30000 to 0x3009F. -/
theorem Ctx.memRead_store_other (x : Ctx) (area : Nat) (m : Memory) {a : Nat} (h : a < area + 0x30000 ∨ area + 0x300A0 ≤ a) :
    memRead (x.store area m) a = memRead m a := by
  unfold Ctx.store
  have hmap : ∀ b, b = area + 0x30000 + 0x40 ∨ b = area + 0x30000 + 0x48 ∨ b = area + 0x30000 + 0x50 → a < b ∨ b + 8 ≤ a := by omega
  rw [memRead_foldl, memRead_memWriteN_other _ _ _ _ (hmap _ (by simp)), memRead_memWriteN_other _ _ _ _ (hmap _ (by simp)),
    memRead_memWriteN_other _ _ _ _ (hmap _ (by simp)), memRead_foldl]
  · intro m i hi
    have := List.mem_range.mp hi
    exact memRead_memWriteN_other _ _ _ _ (by omega)
  · intro m i hi
    have := List.mem_range.mp hi
    exact memRead_memWriteN_other _ _ _ _ (by omega)

/-! ### The group at the handler's entry (R229) -/

@[simp] theorem Group.setG_slices (g : Group) (n : BitVec 6) (x : Word64) : (g.setG n x).slices = g.slices := by rw [Group.setG_eq]
@[simp] theorem Group.setG_gpend (g : Group) (n : BitVec 6) (x : Word64) : (g.setG n x).gpend = g.gpend := by rw [Group.setG_eq]

theorem Group.g_congr {g g' : Group} (h : g'.gregs = g.gregs) (r : BitVec 6) : g'.g r = g.g r := by unfold Group.g; rw [h]

section
variable (g : Group) (t : Trap) (trapping : List Nat) (entry : Word32)

/-- `g60` to `g62` are 0 in the handler and `g63` is the save area. -/
theorem Group.enter_g (r : BitVec 6) : (g.enter t trapping entry).g r =
    if r = 60 ∨ r = 61 ∨ r = 62 then 0 else if r = 63 then BitVec.ofNat 64 g.area else g.g r := by
  have hregs : (g.enter t trapping entry).gregs =
      ((((g.setG 60 0).setG 61 0).setG 62 0).setG 63 (BitVec.ofNat 64 g.area)).gregs := by
    simp only [Group.enter, Group.modSlices_gregs]
  rw [Group.g_congr hregs, Group.g_setG, Group.g_setG, Group.g_setG, Group.g_setG]
  by_cases h63 : r = 63
  · subst h63; rfl
  by_cases h62 : r = 62
  · subst h62; rfl
  by_cases h61 : r = 61
  · subst h61; rfl
  by_cases h60 : r = 60
  · subst h60; rfl
  simp only [h60, h61, h62, h63, or_self, if_false]

/-- A slice at the handler's entry: a live one stands there in gang 0, its stack marked; a dead one only has its stack marked. -/
theorem Group.enter_get {i : Nat} (hi : i < 8) : (g.enter t trapping entry).slices.get i =
    if (g.slices.get i).live then
      { g.slices.get i with mark := (g.slices.get i).stack.length, gang := 0, pc := entry, latched := [] }
    else { g.slices.get i with mark := (g.slices.get i).stack.length, latched := [] } := by
  simp only [Group.enter]
  rw [Group.get_modSlices _ _ _ List.nodup_range (fun _ h => List.mem_range.mp h) hi, if_pos (List.mem_range.mpr hi)]
  simp only [Group.setG_slices]

/-- What the context record holds of a slice: its live bit, its mask and where it resumes. -/
theorem Group.enter_spc {i : Nat} (hi : i < 8) : (g.enter t trapping entry).ctx.spc.get i =
    spcWord (g.slices.get i) (resumePC t trapping i (g.slices.get i) (g.stepDone && g.atMark i)) := by
  simp only [Group.enter]
  exact Oct.get_make _ hi

/-- What else the context record takes: the gang map, the cause, the argument, `g60` to `g63` and the loads still on their way to these,
which the handler awaits no more. -/
theorem Group.enter_saves : let g' := g.enter t trapping entry
    g'.priv = true ∧ g'.saving = decide (t.cause = 12) ∧ g'.ctx.gmap = g.gangMap ∧ g'.ctx.cause = causeWord t (trapping.headD 0) ∧
      g'.ctx.targ = t.arg ∧ g'.ctx.g60 = ⟨g.g 60, g.g 61, g.g 62, g.g 63⟩ ∧ g'.gpend = g.gpend.filter (fun n => decide (n < 60)) ∧
      g'.ctx.dev.gpend = g.gpend.filter (fun n => decide (60 ≤ n)) := by
  simp only [Group.enter, Group.modSlices_gpend, Group.setG_gpend, Group.device, true_and]
end

/-! ### The trap (R229) -/

section
variable {s : State} {gid : Nat} {g : Group} (hg : s.group gid = some g) (hp : g.priv = false) (t : Trap) (trapping : List Nat)
include hg hp

/-- A trap outside privileged state changes the group, the reservations of its core and memory, and raises a record. -/
theorem trapEntry_eq : ∃ rs, trapEntry s gid t trapping =
    { ((s.setCore g.core ((s.core g.core).closeReservations gid)).modGroup gid fun _ =>
        g.enter t trapping (handlerEntry s g t.cause)).setMem
          ((g.enter t trapping (handlerEntry s g t.cause)).ctx.store g.area s.mem) with recordings := rs } := by
  unfold trapEntry
  simp only [hg, hp, Bool.false_eq_true, if_false]
  rw [State.record_eq]
  exact ⟨_, rfl⟩

theorem trapEntry_group : (trapEntry s gid t trapping).group gid = some (g.enter t trapping (handlerEntry s g t.cause)) := by
  obtain ⟨rs, h⟩ := trapEntry_eq hg hp t trapping
  rw [h]
  exact State.group_modGroup_some hg _

theorem trapEntry_group_other {j : Nat} (hj : j ≠ gid) : (trapEntry s gid t trapping).group j = s.group j := by
  obtain ⟨rs, h⟩ := trapEntry_eq hg hp t trapping
  rw [h]
  exact State.group_modGroup_other s _ hj

theorem trapEntry_mem :
    (trapEntry s gid t trapping).mem = (g.enter t trapping (handlerEntry s g t.cause)).ctx.store g.area s.mem := by
  obtain ⟨rs, h⟩ := trapEntry_eq hg hp t trapping
  rw [h]
  simp only [State.setMem]
end

end Sys2Proof.Machine

open Sys2Proof.Machine

/-- Settles O53: the group is the one at the handler's entry, and the only bytes written are those of its context record. -/
theorem trapsSaveTheContext : Obligations.TrapsSaveTheContext := by
  unfold Obligations.TrapsSaveTheContext
  intro s gid t trapping g hg hp
  obtain ⟨hpriv, hsaving, hgmap, hcause, htarg, hg60, hgpend, hlate⟩ := g.enter_saves t trapping (handlerEntry s g t.cause)
  refine ⟨_, trapEntry_group hg hp t trapping, hpriv, hsaving, fun i hi => g.enter_spc t trapping _ hi, hgmap, hcause, htarg, hg60, hgpend,
    hlate, g.enter_g t trapping _, fun i hi => ?slices, fun j hj => trapEntry_group_other hg hp t trapping hj, fun a ha => ?memory⟩
  case slices =>
    simp only [g.enter_get t trapping _ hi]
    split
    · exact ⟨fun _ => ⟨rfl, rfl⟩, rfl, rfl, rfl, rfl, rfl, rfl, rfl, rfl, rfl⟩
    · rename_i hdead
      exact ⟨fun hlive => absurd hlive hdead, rfl, rfl, rfl, rfl, rfl, rfl, rfl, rfl, rfl⟩
  case memory => rw [trapEntry_mem hg hp, Ctx.memRead_store_other _ _ _ ha]
end

section
/-! The return from a trap (R231) and the double trap (R229): what each leaves of the group and of the machine, and from these the
settlement of O54. -/

open Sys2Proof
namespace Sys2Proof.Machine

/-! ### The double trap (R229) -/

@[simp] theorem State.core_event (s : State) (part : Option Nat) (e : List Nat) (k : Nat) : (s.event part e).core k = s.core k := by
  rw [State.event_eq]; rfl

section
variable {s : State} {gid : Nat} {g : Group} (hg : s.group gid = some g) (t : Trap)
include hg

/-- A double trap closes the group's reservations of tokens on its core, and touches no other core. -/
theorem doubleTrap_core : (doubleTrap s gid t).core g.core = (s.core g.core).closeReservations gid ∧
    ∀ k, k ≠ g.core → (doubleTrap s gid t).core k = s.core k := by
  simp only [doubleTrap, hg, State.core_event, State.core_modGroup, State.core_setCore_self, true_and]
  exact fun k hk => State.core_setCore_other _ _ hk

/-- A double trap stops the group, closes its reservations and tells the host, and does nothing else to groups, cores or memory. -/
theorem doubleTrap_stops :
    (doubleTrap s gid t).group gid = some { g with status := .stopped } ∧
    (∀ j, j ≠ gid → (doubleTrap s gid t).group j = s.group j) ∧
    (doubleTrap s gid t).hostEvents = s.hostEvents ++ [[1, gid, t.cause, t.sub, t.arg.toNat]] ∧ (doubleTrap s gid t).mem = s.mem ∧
    (doubleTrap s gid t).core g.core = (s.core g.core).closeReservations gid ∧
    ∀ k, k ≠ g.core → (doubleTrap s gid t).core k = s.core k := by
  refine ⟨?_, fun j hj => ?_, doubleTrap_hostEvents s gid t, doubleTrap_mem s gid t, doubleTrap_core hg t⟩
  · rw [doubleTrap_group, State.group_modGroup_some hg]
  · rw [doubleTrap_group, State.group_modGroup_other _ _ hj]

theorem trapEntry_of_priv (hp : g.priv = true) (trapping : List Nat) : trapEntry s gid t trapping = doubleTrap s gid t := by
  simp only [trapEntry, hg, hp, if_true]
end

/-! ### The waits that stand (R231) -/

theorem getLsbD_sliceBits (is : List Nat) {j : Nat} (hj : j < 8) : (sliceBits is).getLsbD j = decide (j ∈ is) := by
  have hfold (b : BitVec 8) : (is.foldl (fun b i => b ||| BitVec.ofNat 8 (2 ^ i)) b).getLsbD j = (b.getLsbD j || decide (j ∈ is)) := by
    induction is generalizing b with
    | nil => simp
    | cons i is ih =>
      have hbit : (BitVec.ofNat 8 (2 ^ i)).getLsbD j = decide (j = i) := by
        rw [BitVec.getLsbD_ofNat, Nat.testBit_two_pow]
        simp [hj, eq_comm]
      rw [List.foldl_cons, ih, BitVec.getLsbD_or, hbit, Bool.or_assoc, ← Bool.decide_or]
      simp only [List.mem_cons]
  simpa [sliceBits] using hfold 0

/-- A wait that still stands is one of the given ones with fewer slices. -/
theorem Group.mem_standing {g : Group} {ws : List GangWait} {w : GangWait} (h : w ∈ g.standing ws) :
    ∃ v ∈ ws, w = { v with slices := w.slices } := by
  obtain ⟨v, hv, rfl⟩ := List.mem_map.mp (List.mem_of_mem_filter h)
  exact ⟨v, hv, rfl⟩

/-- The slices of a wait narrowed to those that stand at it. -/
def Group.stand (g : Group) (w : GangWait) : GangWait :=
  { w with slices := sliceBits (w.list.filter fun i => (g.slices.get i).live && (g.slices.get i).pc == w.pc) }

theorem Group.getLsbD_stand (g : Group) (w : GangWait) {i : Nat} (hi : i < 8) : (g.stand w).slices.getLsbD i = true ↔
    w.slices.getLsbD i = true ∧ (g.slices.get i).live = true ∧ (g.slices.get i).pc = w.pc := by
  rw [Group.stand, getLsbD_sliceBits _ hi, decide_eq_true_iff]
  simp only [GangWait.list, List.mem_filter, List.mem_range, hi, true_and, Bool.and_eq_true, beq_iff_eq]

/-- Slice `i` waits at a continuation among the waits that stand exactly where one of the given waits is its own, and it stands there. -/
theorem Group.standing_yields (g : Group) (ws : List GangWait) {i : Nat} (hi : i < 8) :
    ((g.standing ws).any fun w => w.yields && w.slices.getLsbD i) = true ↔
      ∃ w ∈ ws, w.yields = true ∧ w.slices.getLsbD i = true ∧ (g.slices.get i).live = true ∧ (g.slices.get i).pc = w.pc := by
  have hstanding : g.standing ws = (ws.map g.stand).filter fun w => w.slices != 0 := rfl
  rw [hstanding, List.any_eq_true]
  constructor
  · rintro ⟨w, hw, h⟩
    obtain ⟨v, hv, rfl⟩ := List.mem_map.mp (List.mem_of_mem_filter hw)
    obtain ⟨hy, hslice⟩ := Bool.and_eq_true_iff.mp h
    exact ⟨v, hv, hy, (g.getLsbD_stand v hi).mp hslice⟩
  · rintro ⟨v, hv, hy, h⟩
    have hslice := (g.getLsbD_stand v hi).mpr h
    refine ⟨g.stand v, List.mem_filter.mpr ⟨List.mem_map_of_mem hv, ?_⟩, Bool.and_eq_true_iff.mpr ⟨hy, hslice⟩⟩
    rw [bne_iff_ne]
    exact fun h0 => by simp [h0] at hslice

/-! ### The end of waits that are over (R231, R246) -/

theorem Group.foldl_release_eq (ws : List GangWait) (g : Group) :
    ws.foldl Group.release g = { g with slices := (ws.foldl Group.release g).slices } :=
  List.foldlRecOn (motive := fun x : Group => x = { g with slices := x.slices }) ws _ rfl fun x hx w _ =>
    (Group.modSlices_eq x w.list _).trans (congrArg (fun y : Group => { y with slices := (x.release w).slices }) hx)

/-- A wait of the group's present state of privilege whose release has come (R231). -/
def Group.isOver (g : Group) (w : GangWait) : Bool := w.priv == g.priv && (match w.kind with | .over _ => true | _ => false)

theorem Group.isOver_eq_false {g : Group} {w : GangWait} (h : ∀ b, w.kind ≠ .over b) : g.isOver w = false := by
  unfold Group.isOver
  split
  · exact absurd ‹_› (h _)
  · exact Bool.and_false _

theorem Group.endOver_def (g : Group) : g.endOver =
    ((g.waits.filter g.isOver).foldl Group.release { g with waits := g.waits.filter fun w => !g.isOver w }).splitGangs.regroup
      (((g.waits.filter g.isOver).filter fun w => w.kind == .over true).flatMap GangWait.list) := rfl

/-- Waits that are over end; of the group only slices change besides. -/
theorem Group.endOver_eq (g : Group) :
    g.endOver = { g with slices := g.endOver.slices, waits := g.waits.filter fun w => !g.isOver w } := by
  have hfold := Group.foldl_release_eq (g.waits.filter g.isOver) { g with waits := g.waits.filter fun w => !g.isOver w }
  have hsplit := (Group.sameButGangs_splitGangs
    ((g.waits.filter g.isOver).foldl Group.release { g with waits := g.waits.filter fun w => !g.isOver w })).1
  rw [Group.endOver_def, Group.regroup_eq, hsplit, hfold]

/-- With no wait over, only the gangs of the slices may change. -/
theorem Group.endOver_of_none {g : Group} (h : ∀ w ∈ g.waits, g.isOver w = false) : g.SameButGangs g.endOver := by
  have hover : g.waits.filter g.isOver = [] := List.filter_eq_nil_iff.mpr fun w hw => by simp [h w hw]
  have hrest : (g.waits.filter fun w => !g.isOver w) = g.waits := List.filter_eq_self.mpr fun w hw => by simp [h w hw]
  rw [Group.endOver_def, hover, hrest]
  exact (Group.sameButGangs_splitGangs g).regroup List.nodup_nil (by simp)

@[simp] theorem Group.setG_waits (g : Group) (n : BitVec 6) (x : Word64) : (g.setG n x).waits = g.waits := by rw [Group.setG_eq]

/-! ### The group that resumes (R231) -/

/-- A slice that takes up its context again: alive with the mask and PC saved, less the lanes exited since, where the context's live bit is
set, else dead. -/
def Slice.resumed (sl : Slice) (ctx : Word64) (gang : BitVec 3) : Slice :=
  let sl := { sl with stack := sl.stack.drop (sl.stack.length - sl.mark), mark := 0, gang := gang, latched := [] }
  if sl.live && ctx.getLsbD 36 then { sl with pc := spcPC ctx, mask := spcMask ctx &&& ~~~sl.exited }
  else { sl with mask := 0, exited := 0xF, names := [], stack := [] }

/-- The group with its registers and contexts installed. -/
def Group.reinstalled (g : Group) : Group :=
  ((((g.setG 60 g.ctx.g60.l0).setG 61 g.ctx.g60.l1).setG 62 g.ctx.g60.l2).setG 63 g.ctx.g60.l3).modSlices (List.range 8)
    fun i sl => sl.resumed (g.ctx.spc.get i) (gmapEntry g.ctx.gmap i)

/-- The group out of its handler, with those of its own waits that still stand. -/
def Group.unhandled (g : Group) : Group :=
  let r := g.reinstalled
  { r with priv := false, saving := false, held := 0, heldLast := 0, wants := [], gpend := r.gpend ++ g.ctx.dev.gpend,
           gfail := r.gfail ++ g.ctx.dev.gfail, holdsIssue := r.holdsIssue || g.ctx.dev.holder
           ctx := { g.ctx with dev := { g.ctx.dev with holder := false } }, waits := r.standing (r.waits.filter fun w => !w.priv) }

/-- A slice that resumes settles unless it waits at a continuation there (R188), and is dead with no lane to run (R113). -/
def Group.settledAt (g : Group) (i : Nat) (sl : Slice) : Slice :=
  (if g.waits.any fun w => w.yields && w.slices.getLsbD i then sl else sl.settle).bury

/-- The group whose slices have settled, with the waits that stand then. -/
def Group.settled (g : Group) : Group :=
  let r := g.modSlices (List.range 8) g.settledAt
  { r with waits := r.standing r.waits }

theorem Group.leave_def (g : Group) : g.leave = g.unhandled.settled.splitGangs.endOver := rfl

section
variable (g : Group)

theorem Group.reinstalled_get {i : Nat} (hi : i < 8) : g.reinstalled.slices.get i =
    (g.slices.get i).resumed (g.ctx.spc.get i) (gmapEntry g.ctx.gmap i) := by
  rw [Group.reinstalled, Group.get_modSlices _ _ _ List.nodup_range (fun _ h => List.mem_range.mp h) hi,
    if_pos (List.mem_range.mpr hi)]
  simp only [Group.setG_slices]

/-- `g60` to `g63` come back. -/
theorem Group.reinstalled_g (r : BitVec 6) : g.reinstalled.g r = if r = 60 then g.ctx.g60.l0 else if r = 61 then g.ctx.g60.l1
    else if r = 62 then g.ctx.g60.l2 else if r = 63 then g.ctx.g60.l3 else g.g r := by
  rw [Group.reinstalled, Group.g_congr (Group.modSlices_gregs _ _ _), Group.g_setG, Group.g_setG, Group.g_setG, Group.g_setG]
  by_cases h63 : r = 63
  · subst h63; rfl
  by_cases h62 : r = 62
  · subst h62; rfl
  by_cases h61 : r = 61
  · subst h61; rfl
  by_cases h60 : r = 60
  · subst h60; rfl
  simp only [h60, h61, h62, h63, if_false]

theorem Group.settled_get {i : Nat} (hi : i < 8) : g.settled.slices.get i = g.settledAt i (g.slices.get i) := by
  rw [Group.settled]
  dsimp only
  rw [Group.get_modSlices _ _ _ List.nodup_range (fun _ h => List.mem_range.mp h) hi, if_pos (List.mem_range.mpr hi)]

/-- After its contexts are installed the group changes in its slices and its waits alone. -/
theorem Group.leave_eq : g.leave = { g.unhandled with slices := g.leave.slices, waits := g.leave.waits } := by
  rw [Group.leave_def, Group.endOver_eq, (Group.sameButGangs_splitGangs g.unhandled.settled).1, Group.settled, Group.modSlices_eq]

theorem Group.leave_priv : g.leave.priv = false := by rw [Group.leave_eq]; rfl

theorem Group.leave_g (r : BitVec 6) : g.leave.g r = g.reinstalled.g r := Group.g_congr (by rw [Group.leave_eq]; simp only [Group.unhandled]) r

theorem Group.leave_gpend : g.leave.gpend = g.gpend ++ g.ctx.dev.gpend := by
  rw [Group.leave_eq]
  simp only [Group.unhandled, Group.reinstalled, Group.modSlices_gpend, Group.setG_gpend]

/-- The waits that still stand as the group resumes were its own, none a handler's. -/
theorem Group.mem_settled_waits {w : GangWait} (h : w ∈ g.unhandled.settled.waits) :
    ∃ v ∈ g.waits, v.priv = false ∧ w = { v with slices := w.slices } := by
  have hwaits : g.unhandled.waits = g.reinstalled.standing (g.waits.filter fun w => !w.priv) := by
    simp only [Group.unhandled, Group.reinstalled, Group.modSlices_waits, Group.setG_waits]
  obtain ⟨u, hu, hw⟩ := Group.mem_standing h
  rw [Group.modSlices_waits, hwaits] at hu
  obtain ⟨v, hv, huv⟩ := Group.mem_standing hu
  obtain ⟨hv, hpriv⟩ := List.mem_filter.mp hv
  exact ⟨v, hv, by simpa using hpriv, by rw [hw, huv]⟩

theorem Group.splitGangs_waits : g.splitGangs.waits = g.waits := by rw [(Group.sameButGangs_splitGangs g).1]

theorem Group.leave_waits {w : GangWait} (h : w ∈ g.leave.waits) : w.priv = false := by
  rw [Group.leave_def, Group.endOver_eq] at h
  have hsettled := List.mem_of_mem_filter h
  rw [Group.splitGangs_waits] at hsettled
  obtain ⟨v, -, hpriv, hw⟩ := g.mem_settled_waits hsettled
  rw [hw, hpriv]

/-- With none of its own waits over, each slice of the group that resumes has settled, up to its gang. -/
theorem Group.leave_get (h : ∀ w ∈ g.waits, w.priv = true ∨ ∀ b, w.kind ≠ .over b) {i : Nat} (hi : i < 8) :
    ∃ n, g.leave.slices.get i = { g.unhandled.settledAt i (g.reinstalled.slices.get i) with gang := n } := by
  have hnone : ∀ w ∈ g.unhandled.settled.splitGangs.waits, g.unhandled.settled.splitGangs.isOver w = false := by
    intro w hw
    rw [Group.splitGangs_waits] at hw
    obtain ⟨v, hv, hpriv, hwv⟩ := g.mem_settled_waits hw
    refine Group.isOver_eq_false ?_
    rw [hwv]
    exact (h v hv).resolve_left (by simp [hpriv])
  obtain ⟨n, hn⟩ := (Group.endOver_of_none hnone).2 i hi
  obtain ⟨m, hm⟩ := (Group.sameButGangs_splitGangs g.unhandled.settled).2 i hi
  exact ⟨n, by rw [Group.leave_def, hn, hm, Group.settled_get _ hi]; rfl⟩
end

/-! ### A slice of it -/

theorem Slice.settle_withGang (sl : Slice) (n : BitVec 3) : ({ sl with gang := n } : Slice).settle = { sl.settle with gang := n } := by
  have h := Slice.settle_standing { sl with gang := n } sl rfl
  rw [Slice.settle_eq sl]
  exact h

theorem Slice.bury_withGang (sl : Slice) (n : BitVec 3) : ({ sl with gang := n } : Slice).bury = { sl.bury with gang := n } := by
  unfold Slice.bury
  dsimp only
  split <;> rfl

/-- Slice `i` of the group waits, outside the handler, at a continuation that its context names (R188). -/
def Group.yieldsAt (g : Group) (i : Nat) : Prop :=
  ∃ w ∈ g.waits, w.priv = false ∧ w.slices.getLsbD i = true ∧ w.pc = spcPC (g.ctx.spc.get i) ∧ w.yields = true

/-- The slice that a live context gives. -/
def Group.restored (g : Group) (i : Nat) : Slice :=
  let sl := g.slices.get i
  { sl with stack := sl.stack.drop (sl.stack.length - sl.mark), mark := 0, latched := [],
            pc := spcPC (g.ctx.spc.get i), mask := spcMask (g.ctx.spc.get i) &&& ~~~sl.exited }

section
variable {g : Group} {i : Nat} (hi : i < 8) (hl : (g.slices.get i).live = true) (hc : (g.ctx.spc.get i).getLsbD 36 = true)
include hi hl hc

theorem Group.reinstalled_restored : g.reinstalled.slices.get i = { g.restored i with gang := gmapEntry g.ctx.gmap i } := by
  rw [g.reinstalled_get hi, Slice.resumed]
  exact if_pos (Bool.and_eq_true_iff.mpr ⟨hl, hc⟩)

theorem Group.unhandled_yields :
    (g.unhandled.waits.any fun w => w.yields && w.slices.getLsbD i) = true ↔ g.yieldsAt i := by
  have hwaits : g.unhandled.waits = g.reinstalled.standing (g.waits.filter fun w => !w.priv) := by
    simp only [Group.unhandled, Group.reinstalled, Group.modSlices_waits, Group.setG_waits]
  rw [hwaits, Group.standing_yields _ _ hi, Group.reinstalled_restored hi hl hc]
  constructor
  · rintro ⟨w, hw, hy, hs, -, hpc⟩
    obtain ⟨hw, hpriv⟩ := List.mem_filter.mp hw
    exact ⟨w, hw, by simpa using hpriv, hs, hpc.symm, hy⟩
  · rintro ⟨w, hw, hpriv, hs, hpc, hy⟩
    exact ⟨w, List.mem_filter.mpr ⟨hw, by simp [hpriv]⟩, hy, hs, hl, hpc.symm⟩

/-- A slice with a live context takes it up, and settles unless it waits at a continuation there. -/
theorem Group.leave_restored (hover : ∀ w ∈ g.waits, w.priv = true ∨ ∀ b, w.kind ≠ .over b) :
    ∃ n, (g.yieldsAt i → g.leave.slices.get i = { (g.restored i).bury with gang := n }) ∧
      (¬ g.yieldsAt i → g.leave.slices.get i = { (g.restored i).settle.bury with gang := n }) := by
  obtain ⟨n, hn⟩ := g.leave_get hover hi
  rw [Group.settledAt, Group.reinstalled_restored hi hl hc] at hn
  refine ⟨n, fun hy => ?_, fun hy => ?_⟩
  · rw [hn, if_pos ((Group.unhandled_yields hi hl hc).mpr hy), Slice.bury_withGang]
  · rw [hn, if_neg (mt (Group.unhandled_yields hi hl hc).mp hy), Slice.settle_withGang, Slice.bury_withGang]
end

/-! ### The return (R231) -/

section
variable {s : State} {gid : Nat} {g : Group} (hg : s.group gid = some g)
include hg

/-- A return whose checks pass: the group resumes, in a deterministic launch once the issue has been taken back (R245). -/
theorem returnFromTrap_group (hok : s.rteOk g = true) :
    ∃ b, (returnFromTrap s gid).group gid = some ({ g with holdsIssue := b } : Group).leave := by
  simp only [returnFromTrap, hg, hok, if_true]
  split
  · have hmap : ({ s with groups := s.groups.map fun h =>
        if h.grid = g.grid && h.core == g.core then { h with holdsIssue := false } else h } : State).group gid =
        some { g with holdsIssue := false } := by
      have hget : s.groups[gid]? = some g := hg
      simp [State.group, hget]
    exact ⟨false, State.group_modGroup_some hmap _⟩
  · exact ⟨g.holdsIssue, State.group_modGroup_some hg _⟩

theorem returnFromTrap_of_not_ok (hok : s.rteOk g = false) : returnFromTrap s gid = doubleTrap s gid { cause := 1 } := by
  simp only [returnFromTrap, hg, hok, Bool.false_eq_true, if_false]
end

end Sys2Proof.Machine

open Sys2Proof.Machine

/-- Settles O54: a return that passes its checks gives the group that resumes, and every other case is the one double trap. -/
theorem returnsRestoreTheContext : Obligations.ReturnsRestoreTheContext := by
  unfold Obligations.ReturnsRestoreTheContext
  intro s gid g hg size stopped
  refine ⟨fun hok => ?_, fun hok => ?_, fun t trapping hp => ?_⟩
  · obtain ⟨b, hb⟩ := returnFromTrap_group hg (show s.rteOk g = true from hok)
    refine ⟨_, hb, Group.leave_priv _, fun r => ?_, Group.leave_gpend _, fun w hw => Group.leave_waits _ hw, fun hover i hi => ?_⟩
    · rw [Group.leave_g, Group.reinstalled_g]
      rfl
    · intro sl ctx sl' hl hc
      obtain ⟨n, hyields, hsettles⟩ := Group.leave_restored (g := { g with holdsIssue := b }) hi hl hc hover
      refine ⟨n, hyields, fun hstays => hsettles ?_⟩
      rintro ⟨w, hw, hpriv, hs, hpc, hy⟩
      rcases hstays w hw with h | h | h | h
      · simp [hpriv] at h
      · simp [hs] at h
      · exact h hpc
      · simp [hy] at h
  · have hnot : s.rteOk g = false := hok
    rw [returnFromTrap_of_not_ok hg hnot]
    exact doubleTrap_stops hg { cause := 1 }
  · rw [trapEntry_of_priv hg t hp]
    exact doubleTrap_stops hg t
end

section
/-! The system instructions (R231, R237 to R239): `trap`, `rte`, `vsdump`, `vsload` and `halt`, and from these the settlement of O28. -/

open Sys2Proof
namespace Sys2Proof.Machine

/-! ### Slices and registers changed (R29, R39) -/

theorem Oct.get_min {α : Type} (q : Oct α) (i : Nat) : q.get (min i 7) = q.get i := by
  match i with
  | 0 | 1 | 2 | 3 | 4 | 5 | 6 => rfl
  | i + 7 => rw [Nat.min_eq_right (Nat.le_add_left 7 i)]; rfl

/-- An index above 7 names slice 7, in a write as in a read. -/
theorem Oct.get_set {α : Type} (q : Oct α) (i j : Nat) (x : α) :
    (q.set i x).get j = if min j 7 = min i 7 then x else q.get j := by
  have hset : q.set i x = q.set (min i 7) x := by
    match i with
    | 0 | 1 | 2 | 3 | 4 | 5 | 6 => rfl
    | i + 7 => rw [Nat.min_eq_right (Nat.le_add_left 7 i)]; rfl
  rw [hset, ← Oct.get_min _ j, ← Oct.get_min q j]
  split
  · rename_i h
    rw [h, Oct.get_set_self]
  · rename_i h
    exact Oct.get_set_other q x h (by omega) (by omega)

theorem Group.modSlice_get (g : Group) (i j : Nat) (f : Slice → Slice) : (g.modSlice i f).slices.get j =
    if min j 7 = min i 7 then f (g.slices.get j) else g.slices.get j := by
  show (g.slices.set i (f (g.slices.get i))).get j = _
  rw [Oct.get_set]
  split
  · rename_i h
    rw [← Oct.get_min g.slices i, ← h, Oct.get_min]
  · rfl

/-- A group that differs from another in the names of its slices alone. -/
def Group.SameButNames (g g' : Group) : Prop :=
  g' = { g with slices := g'.slices } ∧ ∀ j, ∃ ns, g'.slices.get j = { g.slices.get j with names := ns }

theorem Group.SameButNames.modSlice {g x : Group} (h : g.SameButNames x) (i : Nat) {f : Slice → Slice}
    (hf : ∀ sl, ∃ ns, f sl = { sl with names := ns }) : g.SameButNames (x.modSlice i f) := by
  refine ⟨congrArg (fun y : Group => { y with slices := (x.modSlice i f).slices }) h.1, fun j => ?_⟩
  obtain ⟨ns, hx⟩ := h.2 j
  rw [Group.modSlice_get]
  split
  · obtain ⟨ms, hm⟩ := hf (x.slices.get j)
    exact ⟨ms, by rw [hm, hx]⟩
  · exact ⟨ns, hx⟩

/-! ### What `vsload` reads back (R237) -/

theorem Group.nodup_liveSlices (g : Group) : g.liveSlices.Nodup := List.nodup_range.filter _

theorem Group.mem_liveSlices {g : Group} {i : Nat} : i ∈ g.liveSlices ↔ i < 8 ∧ (g.slices.get i).live = true := by
  rw [Group.liveSlices, List.mem_filter, List.mem_range]

/-- A group that has read its registers back: each slice keeps everything but its predicates. -/
theorem loadRegs_spec (g : Group) (m : Memory) :
    loadRegs g m = { g with slices := (loadRegs g m).slices, gregs := (loadRegs g m).gregs, gfail := (loadRegs g m).gfail } ∧
    ∀ j, j < 8 → ((loadRegs g m).slices.get j).pc = (g.slices.get j).pc := by
  refine ⟨?_, fun j hj => ?_⟩
  · simp only [loadRegs]
    rw [Group.modSlices_eq]
  · simp only [loadRegs]
    rw [Group.get_modSlices _ _ _ List.nodup_range (fun _ h => List.mem_range.mp h) hj, if_pos (List.mem_range.mpr hj)]

/-- The group whose bound names are read back from their slots, spilled (R237). -/
def Group.loadNames (g : Group) (m : Memory) : Group :=
  (boundSlots g m).foldl (fun x e => x.modSlice e.1 fun sl =>
    { sl with names := tabSet sl.names e.2 (loadCell m (slotAddr x.area e.1 e.2)) }) g

theorem Group.sameButNames_loadNames (g : Group) (m : Memory) : g.SameButNames (g.loadNames m) :=
  List.foldlRecOn (motive := g.SameButNames) (boundSlots g m) _ ⟨rfl, fun _ => ⟨_, rfl⟩⟩ fun _ hx e _ =>
    hx.modSlice e.1 fun _ => ⟨_, rfl⟩

section
variable {s : State} {c : Issue} (hi : issueOf s = some c)
include hi

/-- An instruction completes whose effect on its group is on slices, uniform registers and what it has seen of bound words, and which then
moves on. -/
theorem Issue.moves_effect {u s1 : State} {i : Instr} {g0 : Group} {p : Price} {base : Nat → Slice} (len : Nat)
    (hg0 : g0 = { c.g with slices := g0.slices, gregs := g0.gregs, gfail := g0.gfail, boundSeen := g0.boundSeen }) (w : (c.on g0).Working u s1 g0)
    (hx : exec i s = .next (c.advance s1 len p))
    (hb : ∀ j ∈ c.sls, { g0.slices.get j with pc := (g0.slices.get j).pc + BitVec.ofNat 32 len } = base j) :
    c.Moves s i u g0 p base := by
  have hon : c.advance s1 len p = (c.on g0).advance s1 len p := by rw [hg0]; rfl
  have hn : (c.on g0).sls.Nodup := issueOf_nodup (c := c) hi
  have h8 : ∀ j ∈ (c.on g0).sls, j < 8 := issueOf_lt (c := c) hi
  have hpast := fun (j : Nat) (hj : j < 8) => Issue.pastGroup_get len g0 hn h8 hj
  refine Issue.Moves.congr (f := id) (Issue.moves_done hi (w.modGroup fun g => (c.on g0).pastGroup len g) (hx.trans (congrArg _ hon))
    (Group.modSlices_eq _ _ _) fun j hj hout => ?_) fun j hj => ?_
  · rw [hpast j hj]
    exact if_neg hout
  · exact ((hpast j (h8 j hj)).trans (if_pos hj)).trans (hb j hj)

/-! ### `trap` (R239) -/

theorem trap_enters {p : Pred} (n : BitVec 16) (hl : c.lanes p ≠ []) :
    exec (.trap p n) s = .next (trapEntry s c.gid { cause := 14, arg := n.setWidth 64 } c.sls) := by
  show execTrap p n s = _
  unfold execTrap
  simp only [hi]
  exact congrArg _ (if_pos (by simpa [Issue.lanes_eq_nil_iff] using hl))

theorem trap_moves {p : Pred} (n : BitVec 16) (hl : c.lanes p = []) : c.Moves s (.trap p n) s c.g priceLane (c.past 12) := by
  refine Issue.moves_on (f := id) hi (Issue.working_self hi) rfl ?_
  show execTrap p n s = _
  unfold execTrap
  simp only [hi, Issue.lanes_eq_nil_iff.mp hl, Bool.false_eq_true, if_false]
  rfl

/-! ### Outside privileged state (R83, R231) -/

theorem system_traps (hp : c.g.priv = false) {m : Bool} {i : Instr} (h : i = Instr.rte ∨ i = .vsdump m ∨ i = .vsload m ∨ i = .halt) :
    exec i s = .next (trapEntry s c.gid { cause := 9 } c.sls) := by
  rcases h with rfl | rfl | rfl | rfl
  · show execRte s = _
    simp [execRte, hi, hp, Issue.trap]
  · show execVsdump m s = _
    simp [execVsdump, hi, hp, Issue.trap]
  · show execVsload m s = _
    simp [execVsload, hi, hp, Issue.trap]
  · show execHalt s = _
    simp [execHalt, hi, hp, Issue.trap]

/-! ### `vsdump` and `vsload` (R237) -/

section
variable (hp : c.g.priv = true)
include hp

theorem vsdump_registers (hw : c.pending dumpedRegs = false) (hf : c.failedReg dumpedRegs = none) :
    c.Moves s (.vsdump true) (s.setMem (dumpRegs c.g s.mem)) c.g priceLane (c.past 12) := by
  refine Issue.moves_on (f := id) hi ((Issue.working_self hi).setMem _) rfl ?_
  show execVsdump true s = _
  unfold execVsdump
  simp only [hi, hp, hw, hf, Bool.not_true, Bool.false_eq_true, if_false, if_true]
  rfl

theorem vsdump_names (hw : c.g.pendingName = false) : c.Moves s (.vsdump false) (s.setMem (dumpNames c.g s.mem))
    (c.g.modSlices c.g.liveSlices fun _ sl => { sl with names := [] }) priceLane fun j => { c.past 12 j with names := [] } := by
  refine Issue.moves_effect hi 12 ((Group.modSlices_eq _ _ _).trans ?_)
    ((Issue.working_on hi _ (Group.modSlices_core _ _ _)).setMem _) ?_ fun j hj => ?_
  · rw [Group.modSlices_gregs, Group.modSlices_gfail, Group.modSlices_boundSeen]
  · show execVsdump false s = _
    unfold execVsdump
    simp only [hi, hp, hw, Bool.not_true, Bool.false_eq_true, if_false]
    exact congrArg (fun u => Host.Outcome.next (c.advance u 12 priceLane))
      (State.modGroup_congr (s := s.setMem (dumpNames c.g s.mem)) (issueOf_some hi).1 rfl)
  · obtain ⟨-, hgang⟩ := issueOf_slices hi
    obtain ⟨h8, hlive, -, -⟩ := hgang j hj
    rw [Group.get_modSlices _ _ _ c.g.nodup_liveSlices (fun i h => (Group.mem_liveSlices.mp h).1) h8,
      if_pos (Group.mem_liveSlices.mpr ⟨h8, hlive⟩)]
    rfl

theorem vsload_registers (hw : c.pending dumpedRegs = false) : c.Moves s (.vsload true) s (loadRegs c.g s.mem) priceLane fun j =>
    { (loadRegs c.g s.mem).slices.get j with pc := (c.g.slices.get j).pc + 12 } := by
  obtain ⟨heq, hpc⟩ := loadRegs_spec c.g s.mem
  refine Issue.moves_effect hi 12 (heq.trans (by rw [heq])) (Issue.working_on hi _ (by rw [heq])) ?_ fun j hj => ?_
  · show execVsload true s = _
    unfold execVsload
    simp only [hi, hp, hw, Bool.not_true, Bool.false_eq_true, if_false, if_true]
    exact congrArg (fun u => Host.Outcome.next (c.advance u 12 priceLane)) (State.modGroup_congr (issueOf_some hi).1 rfl)
  · rw [hpc j (issueOf_lt hi j hj)]
    rfl

theorem vsload_names (hn : ∀ j ∈ c.g.liveSlices, (c.g.slices.get j).names = []) :
    c.Moves s (.vsload false) s (c.g.loadNames s.mem) priceLane fun j =>
      { (c.g.loadNames s.mem).slices.get j with pc := (c.g.slices.get j).pc + 12 } := by
  obtain ⟨heq, hget⟩ := c.g.sameButNames_loadNames s.mem
  have hunbound : (c.g.liveSlices.any fun i => !(c.g.slices.get i).names.isEmpty) = false :=
    List.any_eq_false.mpr fun j hj => by simp [hn j hj]
  refine Issue.moves_effect hi 12 (heq.trans (by rw [heq])) (Issue.working_on hi _ (by rw [heq])) ?_ fun j _ => ?_
  · show execVsload false s = _
    unfold execVsload
    simp only [hi, hp, hunbound, Bool.not_true, Bool.false_eq_true, if_false]
    rfl
  · obtain ⟨ns, hns⟩ := hget j
    rw [hns]
    rfl

/-! ### `rte` and `halt` (R231, R238, R239) -/

theorem rte_returns (hw : ∀ n ∈ c.g.gpend, n < 60)
    (hm : s.rteOk c.g = true → c.g.returnEnds = true → c.mustFollow s .rel [] = false) : exec .rte s =
      .next (checkBarriers (afterChange (returnFromTrap (if s.rteOk c.g then c.account s priceLane else s) c.gid) c) c.g) := by
  have hloaded : (c.g.gpend.any fun n => decide (60 ≤ n)) = false :=
    List.any_eq_false.mpr fun n hn => by simpa using hw n hn
  have hfollows : (s.rteOk c.g && c.g.returnEnds && c.mustFollow s .rel []) = false := by
    rw [Bool.eq_false_iff]
    intro h
    simp only [Bool.and_eq_true] at h
    obtain ⟨⟨hok, hends⟩, hfollow⟩ := h
    simp [hm hok hends] at hfollow
  show execRte s = _
  unfold execRte
  simp only [hi, hp, hloaded, hfollows, Bool.not_true, Bool.or_self, Bool.false_eq_true, if_false]

theorem halt_ends : exec .halt s = .next (if c.g.saving
    then (c.account s priceLane).modGroup c.gid fun g => { g with status := .saved }
    else ((c.account s priceLane).modGroup c.gid fun g => { g with status := .stopped }).event (some c.g.part)
      [2, c.gid, c.g.ctx.cause.toNat, c.g.ctx.targ.toNat]) := by
  show execHalt s = _
  unfold execHalt
  simp only [hi, hp, Bool.not_true, Bool.false_eq_true, if_false]

end
end

end Sys2Proof.Machine

open Sys2Proof.Machine

/-- Settles O28: each instruction by its own lemma, and outside privileged state all but `trap` by one. -/
theorem systemInstructionsComplete : Obligations.SystemInstructionsComplete := by
  unfold Obligations.SystemInstructionsComplete
  intro s c p n m hi g
  exact ⟨trap_enters hi n, trap_moves hi n, fun hp i h => system_traps hi hp h, fun hp =>
    ⟨vsdump_registers hi hp, vsdump_names hi hp, vsload_registers hi hp, vsload_names hi hp, rte_returns hi hp, halt_ends hi hp⟩⟩
end

section
/-! Writes of special registers (R234): the spills that a lowered VS_LIMIT begins (R138, R145), each register's write, and from these the
settlement of O8. -/

open Sys2Proof
namespace Sys2Proof.Machine

/-! ### Spills that begin (R145) -/

/-- A slice keeps everything but the marks of names whose spill is under way. -/
def Slice.KeepsButSpills (sl sl' : Slice) : Prop :=
  (∃ ns, sl' = { sl with names := ns }) ∧
    ∀ n, ∃ sp rq, sl'.cell n = (sl.cell n).map fun k => { k with spilling := sp, spillFor := rq }

theorem Slice.keepsButSpills_refl (sl : Slice) : sl.KeepsButSpills sl := by
  refine ⟨⟨_, rfl⟩, fun n => ?_⟩
  cases h : sl.cell n with
  | none => exact ⟨false, none, rfl⟩
  | some k => exact ⟨k.spilling, k.spillFor, rfl⟩

/-- The slice once the spill of one of its names has begun, for a requester. -/
def Slice.markSpill (sl : Slice) (n : Nat) (rq : Option (Nat × Nat)) : Slice :=
  match sl.cell n with
  | some k => { sl with names := tabSet sl.names n { k with spilling := true, spillFor := rq } }
  | none => sl

theorem Slice.KeepsButSpills.markSpill {sl x : Slice} (h : sl.KeepsButSpills x) (n : Nat) (rq : Option (Nat × Nat)) :
    sl.KeepsButSpills (x.markSpill n rq) := by
  obtain ⟨⟨ns, hx⟩, hcells⟩ := h
  unfold Slice.markSpill
  cases hk : x.cell n with
  | none => exact ⟨⟨ns, hx⟩, hcells⟩
  | some k =>
    refine ⟨⟨_, congrArg (fun y : Slice => { y with names := tabSet x.names n { k with spilling := true, spillFor := rq } }) hx⟩,
      fun m => ?_⟩
    by_cases hm : m = n
    · subst hm
      obtain ⟨sp, rq', hcell⟩ := hcells m
      refine ⟨true, rq, (tabGet?_tabSet_self _ _ _).trans ?_⟩
      rw [hk] at hcell
      cases hsl : sl.cell m with
      | none => simp [hsl] at hcell
      | some k' =>
        rw [hsl, Option.map_some, Option.some_inj] at hcell
        rw [hcell]
        rfl
    · obtain ⟨sp, rq', hcell⟩ := hcells m
      exact ⟨sp, rq', (tabGet?_tabSet_other _ _ hm).trans hcell⟩

theorem Group.keepsButSpills_iff {g g' : Group} : g.KeepsButSpills g' ↔
    g' = { g with slices := g'.slices } ∧ ∀ j, (g.slices.get j).KeepsButSpills (g'.slices.get j) := by
  refine and_congr_right fun _ => forall_congr' fun j => and_congr_right fun _ => forall_congr' fun n => ?_
  cases (g.slices.get j).cell n with
  | none => exact ⟨fun h => ⟨false, none, h⟩, fun ⟨_, _, h⟩ => h⟩
  | some k => exact Iff.rfl

theorem Group.KeepsButSpills.markSpill {g x : Group} (h : g.KeepsButSpills x) (i n : Nat) (rq : Option (Nat × Nat)) :
    g.KeepsButSpills (x.modSlice i fun sl => sl.markSpill n rq) := by
  obtain ⟨hx, hslices⟩ := Group.keepsButSpills_iff.mp h
  refine Group.keepsButSpills_iff.mpr
    ⟨congrArg (fun y : Group => { y with slices := (x.modSlice i fun sl => sl.markSpill n rq).slices }) hx, fun j => ?_⟩
  rw [Group.modSlice_get]
  split
  · exact (hslices j).markSpill n rq
  · exact hslices j

/-- A state that differs from another in the spills that have begun alone. -/
def State.OnlySpills (s u : State) : Prop :=
  u = { s with groups := u.groups } ∧ ∀ gid g, s.group gid = some g → ∃ g', u.group gid = some g' ∧ g.KeepsButSpills g'

theorem State.onlySpills_refl (s : State) : s.OnlySpills s :=
  ⟨rfl, fun _ g hg => ⟨g, hg, Group.keepsButSpills_iff.mpr ⟨rfl, fun _ => Slice.keepsButSpills_refl _⟩⟩⟩

theorem State.OnlySpills.startSpill {s u : State} (h : s.OnlySpills u) (i : Nat) (v : Victim) (req : Option Nat) :
    s.OnlySpills (startSpill u i v req) := by
  obtain ⟨hu, hgroups⟩ := h
  refine ⟨congrArg (fun y : State => { y with groups := (Machine.startSpill u i v req).groups }) hu, fun gid g hg => ?_⟩
  obtain ⟨g', hg', hkeeps⟩ := hgroups gid g hg
  by_cases hv : gid = v.group
  · subst hv
    exact ⟨_, State.group_modGroup_some hg' _, hkeeps.markSpill i v.name (req.map fun r => (r, i))⟩
  · exact ⟨g', (State.group_modGroup_other u _ hv).trans hg', hkeeps⟩

theorem State.OnlySpills.startSpills {s u : State} (h : s.OnlySpills u) (core : Nat) (req : Option Nat) (i n : Nat) :
    s.OnlySpills (startSpills u core req i n) := by
  induction n generalizing u with
  | zero => exact h
  | succ n ih =>
    unfold Machine.startSpills
    split
    · exact ih (h.startSpill i _ req)
    · exact h

theorem State.onlySpills_shrinkSections (s : State) (core : Nat) : s.OnlySpills (shrinkSections s core) :=
  List.foldlRecOn (motive := s.OnlySpills) (List.range 8) _ s.onlySpills_refl fun u h i _ =>
    h.startSpills core none i (overLimit u core i)

/-! ### VS_LIMIT (R138) -/

/-- VS_LIMIT of a core as R138 bounds it: 1 to 3072 cells, and no less than what is reserved or waited for. -/
def boundedLimit (s : State) (part core n : Nat) : Nat :=
  max (max 1 (min n 3072)) (((List.range 8).map fun i => reservedIn s core i fun _ => true).foldl max (waitingFloors s part))

theorem setVsLimit_eq (s : State) (part core n : Nat) : setVsLimit s part core n =
    shrinkSections (s.setCore core { s.core core with vsLimit := boundedLimit s part core n }) core := by
  have hclamp : (if n = 0 then 1 else if 3072 < n then 3072 else n) = max 1 (min n 3072) := by
    split
    · omega
    · split <;> omega
  unfold setVsLimit boundedLimit
  rw [hclamp]

theorem State.OnlySpills.of_setCore {s u : State} {core : Nat} {k : Core} (h : (s.setCore core k).OnlySpills u) :
    u = { s with groups := u.groups, cores := u.cores } ∧ (∀ j, j ≠ core → u.core j = s.core j) ∧ u.core core = k := by
  obtain ⟨hu, -⟩ := h
  have hcores : u.cores = (s.setCore core k).cores := by rw [hu]
  have hcore (j : Nat) : u.core j = (s.setCore core k).core j := by
    unfold State.core
    rw [hcores]
  refine ⟨?_, fun j hj => ?_, ?_⟩
  · rw [hcores]
    exact hu
  · rw [hcore, State.core_setCore_other _ _ hj]
  · rw [hcore, State.core_setCore_self]

/-- VS_LIMIT set changes the limit of that core, and spills may begin. -/
theorem onlySpills_setVsLimit (s : State) (part core n : Nat) :
    (s.setCore core { s.core core with vsLimit := boundedLimit s part core n }).OnlySpills (setVsLimit s part core n) := by
  rw [setVsLimit_eq]
  exact State.onlySpills_shrinkSections _ core

/-! ### `swrite` (R234) -/

section
variable {s : State} {c : Issue} {a : BitVec 6} (h : c.UniReady s [] [a])
include h

theorem swrite_fmt (hl : fmtLegal ((c.g.g a).extractLsb' 0 32) = true) :
    c.Moves s (.swrite a 0x0B) s c.g priceUniform fun j => { c.past 4 j with fmt := (c.g.g a).extractLsb' 0 32 } :=
  fmtStep_moves (f := fun g _ => (g.g a).extractLsb' 0 32) rfl h fun _ _ => hl

theorem swrite_fflags :
    c.Moves s (.swrite a 0x0C) s c.g priceUniform fun j => { c.past 4 j with fflags := (c.g.g a).extractLsb' 0 32 &&& 0x1F } := by
  refine Issue.moves_past (f := id) (len := 4) (m := fun _ sl => { sl with fflags := (c.g.g a).extractLsb' 0 32 &&& 0x1F }) h.issues
    (Issue.working_self h.issues) ?_
  have hopen : trapIf (selectorPrivileged 0x0C && !c.g.priv) 9 = none := trapIf_and_not_eq_none fun hs => absurd hs (by decide)
  exact uniFrame_ready h (fun c => trapIf (selectorPrivileged 0x0C && !c.g.priv) 9) hopen _

/-- A write of the group's trap context goes to its context record too. -/
theorem swrite_context {sel : BitVec 10} {f : Ctx → Ctx} (hx : exec (.swrite a sel) s =
      .next (c.advance ((s.modGroup c.gid fun g => { g with ctx := f g.ctx }).setMem ((f c.g.ctx).store c.g.area s.mem)) 4 priceUniform)) :
    c.Moves s (.swrite a sel) (s.setMem ((f c.g.ctx).store c.g.area s.mem)) { c.g with ctx := f c.g.ctx } priceUniform (c.past 4) := by
  refine Issue.moves_on (f := id) h.issues ((Issue.working_on h.issues { c.g with ctx := f c.g.ctx } rfl).setMem _) rfl ?_
  rw [hx, State.modGroup_congr (issueOf_some h.issues).1 (f' := fun _ => { c.g with ctx := f c.g.ctx }) rfl]
  rfl

section
variable (hp : c.g.priv = true)
include hp

theorem swrite_spc {n : Nat} (hn : n < 8) :
    let x := { c.g.ctx with spc := c.g.ctx.spc.set n (c.g.g a &&& 0x1FFFFFFFFF) }
    c.Moves s (.swrite a (BitVec.ofNat 10 (0x42 + n))) (s.setMem (x.store c.g.area s.mem)) { c.g with ctx := x } priceUniform
      (c.past 4) := by
  refine swrite_context h (f := fun x => { x with spc := x.spc.set n (c.g.g a &&& 0x1FFFFFFFFF) }) ?_
  have hsel : (BitVec.ofNat 10 (0x42 + n)).toNat = 0x42 + n := (BitVec.toNat_ofNat _ _).trans (Nat.mod_eq_of_lt (by omega))
  show execSwrite a _ s = _
  unfold execSwrite
  rw [hsel, if_neg (by omega), uniFrame_ready h _ (trapIf_and_not_eq_none fun _ => hp)]
  have hrange : 0x42 ≤ 0x42 + n ∧ 0x42 + n ≤ 0x49 := by omega
  simp only [show 0x42 + n ≠ 0x0C by omega, hrange, and_self, if_true, if_false, Nat.add_sub_cancel_left]

theorem swrite_gmap :
    let x := { c.g.ctx with gmap := (c.g.g a).extractLsb' 0 32 &&& 0xFFFFFF }
    c.Moves s (.swrite a 0x4A) (s.setMem (x.store c.g.area s.mem)) { c.g with ctx := x } priceUniform (c.past 4) :=
  swrite_context h (f := fun x => { x with gmap := (c.g.g a).extractLsb' 0 32 &&& 0xFFFFFF })
    (uniFrame_ready h _ (trapIf_and_not_eq_none fun _ => hp) _)

theorem swrite_vsLimit {g0 : Group} (hg : (setVsLimit s c.g.part c.g.core (c.g.g a).toNat).group c.gid = some g0)
    (hk : c.g.KeepsButSpills g0) : c.Moves s (.swrite a 0x4C) (setVsLimit s c.g.part c.g.core (c.g.g a).toNat) g0 priceUniform
      fun j => { g0.slices.get j with pc := (c.g.slices.get j).pc + 4 } := by
  obtain ⟨heq, hslices⟩ := Group.keepsButSpills_iff.mp hk
  refine Issue.moves_effect h.issues 4 (heq.trans (by rw [heq])) (Issue.working_refl (c := c.on g0) hg)
    (uniFrame_ready h _ (trapIf_and_not_eq_none fun _ => hp) _) fun j _ => ?_
  obtain ⟨⟨ns, hns⟩, -⟩ := hslices j
  have hpc : (g0.slices.get j).pc = (c.g.slices.get j).pc := by rw [hns]
  rw [hpc]
  rfl
end
end

end Sys2Proof.Machine

open Sys2Proof.Machine

/-- Settles O8: `%fmt` and `%fflags` as any slice write, the context registers as one write of the context, and VS_LIMIT by what
`setVsLimit` changes. -/
theorem specialRegistersWrite : Obligations.SpecialRegistersWrite := by
  unfold Obligations.SpecialRegistersWrite
  intro s c a h v
  refine ⟨swrite_fmt h, swrite_fflags h, fun hp => ⟨fun n hn => swrite_spc h hp hn, swrite_gmap h hp, ?_⟩⟩
  have hspills := onlySpills_setVsLimit s c.g.part c.g.core v.toNat
  obtain ⟨hu, hother, hcore⟩ := hspills.of_setCore
  obtain ⟨g0, hg0, hkeeps⟩ := hspills.2 c.gid c.g (issueOf_some h.issues).1
  exact ⟨_, g0, swrite_vsLimit h hp hg0 hkeeps, hu, hg0, hother, hcore, hspills.2⟩
end

section
/-! Reads of special registers (R232, R260, R263): the completion of an instruction that also notes in its group what it has seen of bound
words, and from this the settlement of O6. -/

open Sys2Proof
namespace Sys2Proof.Machine

section
variable {s : State} {c : Issue}

/-! ### What a read notes (R260, R263) -/

/-- A read notes nothing in the group but what it has seen of the unit's order. -/
theorem Issue.shown_eq (c : Issue) (s : State) (sel : BitVec 10) (g : Group) :
    c.shown s sel g = { g with boundSeen := (c.shown s sel g).boundSeen } := by
  unfold Issue.shown
  split <;> rfl

theorem flagsOn_zero (mask : BitVec 4) : flagsOn mask (fun _ => 0) = 0 :=
  List.foldlRecOn (motive := fun x : FlagSet => x = 0) (List.range 4) _ rfl fun x hx l _ => by
    rw [hx]
    split
    · exact BitVec.or_zero
    · rfl

/-! ### A register set, values computed -/

/-- An instruction completes as a write of one uniform register where its effect on its group is that write. -/
theorem Issue.Moves.sets {i : Instr} {g0 : Group} {len : Nat} {d : BitVec 6} {v : Word64}
    (h : c.Moves s i s (g0.setG d v) priceUniform ((c.on g0).past len)) : (c.on g0).Sets s i len d v := by
  obtain ⟨t, g, hx, hends, hgroup, hslices⟩ := h
  rw [Group.setG_eq] at hends hgroup
  refine ⟨t, g, hx, ⟨⟨hends.state, hends.cores, hends.units, hends.paid, hends.unsampled, hends.retired⟩, hends.others, hends.stands⟩,
    ?_, hslices, fun r => ?_⟩
  · unfold Issue.KeepsGroup at hgroup
    unfold Issue.KeepsButRegs
    rw [hgroup]
    rfl
  · have hregs : g.gregs = (g0.setG d v).gregs := by
      unfold Issue.KeepsGroup at hgroup
      rw [hgroup]
      rfl
    rw [Group.g_congr hregs, Group.g_setG]
    rfl

/-- A commit with the cells at hand changes of the group only its slices, each of the gang by what it reads and writes. -/
theorem Issue.commit_spec (hi : issueOf s = some c) (rs : List NameRead) (ws : List NameWrite) (fl : Nat → FlagSet)
    (hcells : ∀ i ∈ c.sls, cellsNeeded s c (fun _ sl => sl.consumeAll rs) ws i = 0) :
    ∃ s1 g1, c.commit s rs ws fl = .ok s1 ∧ c.Working s s1 g1 ∧ g1 = { c.g with slices := g1.slices } ∧ ∀ j, j < 8 → g1.slices.get j =
      if j ∈ c.sls then (c.g.slices.get j).committed rs ws j (16 * (s.core c.g.core).stamp) (fl j) else c.g.slices.get j := by
  obtain ⟨s1, hcommit, w⟩ := Issue.commit_ok hi rs ws fl hcells
  exact ⟨s1, _, hcommit, w, Issue.apply_eq c c.g _ _ ws fl,
    fun j hj => Issue.apply_get c.g _ rs ws fl (issueOf_nodup hi) (issueOf_lt hi) hj⟩

/-- An instruction completes with one value per active lane where its effect on its slices is a commit of these values. -/
theorem Issue.Moves.computes (hi : issueOf s = some c) {i : Instr} {p : Pred} {d : Dst} {wide : Bool} {rs : List NameRead} {price : Price}
    {len stamp : Nat} {val : Nat → Nat → Nat × FlagSet} {g1 : Group}
    (hg1 : ∀ j, j < 8 → g1.slices.get j = if j ∈ c.sls then (c.g.slices.get j).committed rs
      (destWrites wide d (fun i => (c.g.slices.get i).active p) fun j l => (val j l).1) j stamp
      (flagsOn ((c.g.slices.get j).active p) fun l => (val j l).2) else c.g.slices.get j)
    (h : c.Moves s i s g1 price fun j => { g1.slices.get j with pc := (g1.slices.get j).pc + BitVec.ofNat 32 len }) :
    (c.on { g1 with slices := c.g.slices }).Computes s i p d wide rs price val len := by
  obtain ⟨t, g, hx, hends, hgroup, hslices⟩ := h
  have hsl : ∀ j ∈ c.sls, g1.slices.get j = (c.g.slices.get j).committed rs
      (destWrites wide d (fun i => (c.g.slices.get i).active p) fun j l => (val j l).1) j stamp
      (flagsOn ((c.g.slices.get j).active p) fun l => (val j l).2) := fun j hj => (hg1 j (issueOf_lt hi j hj)).trans (if_pos hj)
  refine ⟨t, g, hx, ⟨⟨hends.state, hends.cores, hends.units, hends.paid, hends.unsampled, hends.retired⟩, fun j hj hout => ?_,
    fun j hj => ?_⟩, hgroup, fun j hj => ?_⟩
  · exact (hends.others j hj hout).trans ((hg1 j hj).trans (if_neg hout))
  · obtain ⟨hpath, hexited⟩ := hends.stands j hj
    rw [hpath, hexited, hsl j hj, Slice.committed_same]
    exact ⟨Slice.settle_path rfl rfl, rfl⟩
  · obtain ⟨k, hk⟩ := hslices j hj
    have hnames : (g.slices.get j).names = (g1.slices.get j).names := by rw [hk]; exact Slice.settle_names _
    have hcell : ∀ n, (g.slices.get j).cell n = (g1.slices.get j).cell n := fun n => by unfold Slice.cell; rw [hnames]
    refine ⟨fun l hl hm => ?_, fun n hn => ?_, ?_, ?_⟩
    · simp only [Slice.Holds, hcell, hsl j hj]
      exact Slice.committed_dest (c.g.slices.get j) rs d wide (fun i => (c.g.slices.get i).active p) (fun j l => (val j l).1) true j stamp
        _ hl hm
    · rw [hcell, hsl j hj]
      exact Slice.cell_committed_other _ _ _ _ _ _ fun w hw he => hn (he ▸ destWrites_name hw)
    · have hpreds : (g.slices.get j).preds = (g1.slices.get j).preds := by rw [hk]; exact Slice.settle_preds _
      rw [hpreds, hsl j hj, Slice.committed_same]
      rfl
    · have hflags : (g.slices.get j).fflags = (g1.slices.get j).fflags := by rw [hk]; exact Slice.settle_fflags _
      rw [hflags, hsl j hj, Slice.committed_same]
      rfl

/-! ### `sread` (R232) -/

variable {sel : BitVec 10} (hr : selectorPrivileged sel = true → c.g.priv = true) (hb : boundWait s c sel = false)
include hr hb

theorem sreadStep_sets {i : Instr} {len : Nat} {d : BitVec 6} (he : exec i s = sreadStep s len d sel) (h : c.UniReady s [d] []) :
    (c.on (c.shown s sel c.g)).Sets s i len d (specialReg s c.g sel c.lowest.1 c.lowest.2) := by
  have hshown := c.shown_eq s sel c.g
  generalize hg0 : c.shown s sel c.g = g0 at hshown ⊢
  refine Issue.Moves.sets (Issue.moves_effect h.issues len ?_ (Issue.working_on h.issues _ ?_) ?_ fun j _ => ?_)
  · rw [Group.setG_eq, hshown]
  · rw [Group.setG_eq, hshown]
  · rw [he, sreadStep, uniFrame_ready h _ (trapIf_and_not_eq_none hr)]
    simp only [hb, Bool.false_eq_true, if_false]
    exact congrArg (fun u => Host.Outcome.next (c.advance u len priceUniform)) (State.modGroup_congr (issueOf_some h.issues).1 (by rw [hg0]))
  · rw [Group.setG_slices]
    rfl

theorem sreadLane_computes {d : Dst} (h : c.Ready s [] ((destNames (selectorWide sel) d).map fun n => (.always, n))) :
    (c.on (c.shown s sel c.g)).Computes s (.sreadLane d sel) .always d (selectorWide sel) [] priceUniform
      (fun j l => ((specialReg s c.g sel j l).toNat, 0)) 8 := by
  have hi := h.issues
  obtain ⟨s1, g1, hcommit, w, heq, hget⟩ := Issue.commit_spec hi [] (destWrites (selectorWide sel) d
    (fun i => (c.g.slices.get i).active .always) fun i l => (specialReg s c.g sel i l).toNat) (fun _ => 0)
    fun i hmem => cellsNeeded_destWrites h.room _ _ hmem
  have hslices : (c.shown s sel g1).slices = g1.slices := by rw [c.shown_eq]
  have hnoted : c.shown s sel c.g = { c.shown s sel g1 with slices := c.g.slices } := by
    unfold Issue.shown
    rw [heq]
    split <;> rfl
  rw [hnoted]
  refine Issue.Moves.computes hi (stamp := 16 * (s.core c.g.core).stamp) (fun j hj => ?_)
    (Issue.moves_effect hi 8 ?_ ((w.modGroup (c.shown s sel)).on _ ?_) ?_ fun _ _ => rfl)
  · rw [hslices, hget j hj]
    simp only [flagsOn_zero]
  · rw [c.shown_eq, heq]
  · rw [c.shown_eq, heq]
  · show execSreadLane d sel s = _
    unfold execSreadLane
    simp only [hi, hb, Bool.false_eq_true, if_false]
    refine congrArg _ (laneStep_operands h.toOperands (trapIf_and_not_eq_none hr) _ ?_)
    simp only [hcommit, Commit.map]

end

end Sys2Proof.Machine

open Sys2Proof.Machine

/-- Settles O6: both uniform forms are one meaning, and the lane form is a commit of the register as each lane sees it. -/
theorem specialRegistersRead : Obligations.SpecialRegistersRead := by
  unfold Obligations.SpecialRegistersRead
  intro s c d v sel hr hb c'
  exact ⟨fun h => ⟨sreadStep_sets hr hb rfl h, sreadStep_sets hr hb rfl h⟩, sreadLane_computes hr hb⟩
end

section
/-! That the machine never stops (R228, R229 and the log's stops): every meaning is a next state, at once or behind a look-up that
may find nothing; from this the settlement of O58. -/

open Sys2Proof
namespace Sys2Proof.Machine

/-- An outcome that is a next state. -/
def GoesOn (r : Result) : Prop := ∃ t, r = .next t

section
variable {s : State}

theorem goesOn_next (t : State) : GoesOn (.next t) := ⟨t, rfl⟩

/-! ### The frames that instructions share

A frame answers a next state whether or not the look-up of the gang that issues finds one. -/

theorem aluStep_goesOn {p d wide rs price f regs} : GoesOn (aluStep s p d wide rs price f regs) := by
  unfold aluStep
  split
  · exact goesOn_next _
  · exact goesOn_next _

theorem predStep_goesOn {p qd rs f regs} : GoesOn (predStep s p qd rs f regs) := by
  unfold predStep
  split
  · exact goesOn_next _
  · exact goesOn_next _

theorem crossStep_goesOn {p m rs ds act regs} : GoesOn (crossStep s p m rs ds act regs) := by
  unfold crossStep
  split
  · exact goesOn_next _
  · exact goesOn_next _

theorem uniFrame_goesOn {dst regs entry act} : GoesOn (uniFrame s dst regs entry act) := by
  unfold uniFrame
  split
  · exact goesOn_next _
  · exact goesOn_next _

theorem barrierStep_goesOn {entry kind mark check} : GoesOn (barrierStep s entry kind mark check) := by
  unfold barrierStep
  split
  · exact goesOn_next _
  · exact goesOn_next _

theorem wordStep_goesOn {p m extra kind access add act} : GoesOn (wordStep s p m extra kind access add act) := by
  unfold wordStep
  split
  · exact goesOn_next _
  · exact goesOn_next _

theorem waitStep_goesOn {p m d add join ext place after} : GoesOn (waitStep s p m d add join ext place after) := by
  unfold waitStep
  split
  · exact goesOn_next _
  · exact goesOn_next _

theorem engineStep_goesOn {p m kind dst} : GoesOn (engineStep s p m kind dst) := by
  unfold engineStep
  split
  · exact goesOn_next _
  · exact goesOn_next _

theorem windowOpStep_goesOn {p m w kind} : GoesOn (windowOpStep s p m w kind) := by
  unfold windowOpStep
  split
  · exact goesOn_next _
  · exact goesOn_next _

theorem matrixStep_goesOn {p regs price act} : GoesOn (matrixStep s p regs price act) := by
  unfold matrixStep
  split
  · exact goesOn_next _
  · exact goesOn_next _

theorem edgeStep_goesOn {p m kind whole checks act} : GoesOn (edgeStep s p m kind whole checks act) := by
  unfold edgeStep
  split
  · exact goesOn_next _
  · exact goesOn_next _

theorem bcastStep_goesOn {p a isMax sgn j} : GoesOn (bcastStep s p a isMax sgn j) := by
  unfold bcastStep
  split
  · exact goesOn_next _
  · exact goesOn_next _

/-! Frames of a narrower shape, each a case of one above. -/

theorem binStep_goesOn {p d a b wideD wideA wideB f} : GoesOn (binStep s p d a b wideD wideA wideB f) := aluStep_goesOn

theorem triStep_goesOn {p d a b c wide wideB wideC f} : GoesOn (triStep s p d a b c wide wideB wideC f) := aluStep_goesOn

theorem unStep_goesOn {p d a wideD wideA f} : GoesOn (unStep s p d a wideD wideA f) := aluStep_goesOn

theorem floatStep1_goesOn {p d a price f} : GoesOn (floatStep1 s p d a price f) := aluStep_goesOn

theorem floatStep2_goesOn {p d a b f} : GoesOn (floatStep2 s p d a b f) := aluStep_goesOn

theorem floatStep3_goesOn {p d a b c f} : GoesOn (floatStep3 s p d a b c f) := aluStep_goesOn

theorem crossNames_goesOn {p m d wide rs val regs} : GoesOn (crossNames s p m d wide rs val regs) := crossStep_goesOn

theorem voteStep_goesOn {p qd m f} : GoesOn (voteStep s p qd m f) := crossStep_goesOn

theorem shflStep_goesOn {p d a b t m j} : GoesOn (shflStep s p d a b t m j) := crossNames_goesOn

theorem uniStep_goesOn {len d regs f} : GoesOn (uniStep s len d regs f) := uniFrame_goesOn

theorem uniRR_goesOn {d a b f} : GoesOn (uniRR s d a b f) := uniStep_goesOn

theorem uniRI_goesOn {d a i f} : GoesOn (uniRI s d a i f) := uniStep_goesOn

theorem uniWideOp_goesOn {d a b f} : GoesOn (uniWideOp s d a b f) := uniStep_goesOn

theorem fmtStep_goesOn {len regs f} : GoesOn (fmtStep s len regs f) := uniFrame_goesOn

theorem prioStep_goesOn {len a i} : GoesOn (prioStep s len a i) := uniFrame_goesOn

theorem sreadStep_goesOn {len d sel} : GoesOn (sreadStep s len d sel) := uniFrame_goesOn

theorem capqStep_goesOn {len d regs n} : GoesOn (capqStep s len d regs n) := uniFrame_goesOn

theorem drainStep_goesOn {p m op} : GoesOn (drainStep s p m op) := matrixStep_goesOn

/-! ### Instructions and events -/

theorem mxq_goesOn (p : Pred) (d : Dst) (a : Src) (t st : Ty) : GoesOn (execMxq p d a t st s) := by
  unfold execMxq
  split
  · exact goesOn_next _
  · exact aluStep_goesOn

theorem swrite_goesOn (a : BitVec 6) (sel : BitVec 10) : GoesOn (execSwrite a sel s) := by
  unfold execSwrite
  dsimp only
  split
  · exact uniFrame_goesOn
  · exact uniFrame_goesOn

theorem memoryAccessPerform_goesOn (flight : Nat) : GoesOn (execMemoryAccessPerform flight s) := by
  unfold execMemoryAccessPerform
  split
  · exact goesOn_next _
  · split
    · exact goesOn_next _
    · exact goesOn_next _

theorem loadDataArrival_goesOn (flight : Nat) : GoesOn (execLoadDataArrival flight s) := by
  unfold execLoadDataArrival
  split
  · exact goesOn_next _
  · split
    · exact goesOn_next _
    · exact goesOn_next _

theorem engineOpStart_goesOn (core slot : Nat) : GoesOn (execEngineOpStart core slot s) := by
  unfold execEngineOpStart
  split
  · exact goesOn_next _
  · split
    · exact goesOn_next _
    · exact goesOn_next _

theorem drainPerform_goesOn (core : Nat) (bad : List Nat) : GoesOn (execDrainPerform core bad s) := by
  unfold execDrainPerform
  dsimp only
  split
  · split
    · exact goesOn_next _
    · exact goesOn_next _
  · exact goesOn_next _

theorem addOnStorePerform_goesOn (core : Nat) (bad : List Nat) : GoesOn (execAddOnStorePerform core bad s) := by
  unfold execAddOnStorePerform
  dsimp only
  split
  · split
    · exact goesOn_next _
    · exact goesOn_next _
  · exact goesOn_next _

/-- An event acts at once, an instruction through the frame it shares, and the rest behind a look-up of their own. Where a frame's
arguments are functions, the meaning's name is unfolded first, so that unification meets the frame itself. -/
theorem exec_goesOn (i : Instr) : GoesOn (exec i s) := by
  unfold exec
  cases i with
  | quantumExpiry | teamSaveLeave | distributorAdmit | teamRetire | reReservation | windowFillComplete | windowWriteback
  | windowCloseComplete | engineUnitTransfer | mpairStep | ownershipEnd | translationWalkComplete | faultTimeout | crossDieAccept
  | crossDieReadServe | crossDieReadDeliver | spawnOverflowReturn | gatherTimeout | groupFormation | threadSteal | teamPark
  | parkedTeamReturn | boundUnitUpdate | boundMirrorUpdate | tokenCycle | thermalPoll | gateRequest | gtimeResync | ptpSyncMessage
  | holdover | correctedError | powerGoodAssert | powerGoodRemove | sessionOpen | sessionClose | partitionConfigure | launch
  | signalArrive | signalPreempt | signalDieTarget | endLaunch | pageMigrateToDevice | pageMigrateToHost | tableUpdate
  | faultAnswerResolve | faultAnswerReject | readback | launchTableUpdate | debugStop | debugStep | debugResume | debugTrace
  | debugTimeLoss | attestationQuote | powerManagerSetting | spareRowCopyComplete | unreliablePacketReceived =>
    exact goesOn_next _
  | add | sub | mul | mulhi | div | rem | min | max | shl | shr | sar | rot | and | or | xor | andn | bfe | lea =>
    exact binStep_goesOn
  | mad | madhi | bfi | sel => exact triStep_goesOn
  | neg | abs | not | pop | clz | ctz | brev | fabs | fneg | fclass | sp24 => exact unStep_goesOn
  | mov | movi | cvt | pack =>
    dsimp only
    delta execMov execMovi execCvt execPack
    exact aluStep_goesOn
  | frcp | frsq | fsqrt | fexp2 | flog2 | fsinpi | fcospi | ftanh => exact floatStep1_goesOn
  | unpack | mxdq =>
    dsimp only
    delta execUnpack execMxdq
    exact floatStep1_goesOn
  | fadd | fsub | fmul | fmin | fmax | hadd2 | hmul2 => exact floatStep2_goesOn
  | fma | hfma2 => exact floatStep3_goesOn
  | cmp | fcmp =>
    dsimp only
    delta execCmp execFcmp
    exact predStep_goesOn
  | voteAny | voteAll =>
    dsimp only
    delta execVoteAny execVoteAll
    exact voteStep_goesOn
  | voteBal | red | scan | topk | matchLanes =>
    dsimp only
    delta execVoteBal execRed execScan execTopk execMatchLanes
    exact crossNames_goesOn
  | shflIdx | shflUp | shflDn | shflXor =>
    dsimp only
    delta execShflIdx execShflUp execShflDn execShflXor
    exact shflStep_goesOn
  | gaddReg | gsubReg | gmulReg | gshlReg | gshrReg | gandReg | gorReg | gxorReg => exact uniRR_goesOn
  | gaddImm | gsubImm | gmulImm | gshlImm | gshrImm | gandImm | gorImm | gxorImm => exact uniRI_goesOn
  | gaddU2 | gsubU2 | gmulU2 | gshlU2 | gshrU2 | gandU2 | gorU2 | gxorU2 => exact uniWideOp_goesOn
  | gcmp =>
    dsimp only
    delta execGcmp
    exact uniWideOp_goesOn
  | gmov | gli | gliU2 | gliHi =>
    dsimp only
    delta execGmov execGli execGliU2 execGliHi
    exact uniStep_goesOn
  | gbr | gld | gst =>
    dsimp only
    delta execGbr execGld execGst
    exact uniFrame_goesOn
  | setfmt | setfmtImm | setfmtM =>
    dsimp only
    delta execSetfmt execSetfmtImm execSetfmtM
    exact fmtStep_goesOn
  | setprio | setprioW => exact prioStep_goesOn
  | sread | sreadU2 => exact sreadStep_goesOn
  | capq | capqReg | capqW =>
    dsimp only
    delta execCapq execCapqReg execCapqW
    exact capqStep_goesOn
  | bar | pbar | stepmark =>
    dsimp only
    delta execBar execPbar execStepmark
    exact barrierStep_goesOn
  | bobj | arrive =>
    dsimp only
    delta execBobj execArrive
    exact wordStep_goesOn
  | wait | yieldon | jwait | extwait =>
    dsimp only
    delta execWait execYieldon execJwait execExtwait
    exact waitStep_goesOn
  | tmove | tgath | tscat | gatom =>
    dsimp only
    delta execTmove execTgath execTscat execGatom
    exact engineStep_goesOn
  | wflush | wclose =>
    dsimp only
    delta execWflush execWclose
    exact windowOpStep_goesOn
  | mzero | mzeroRel | mpair | mdrainNames =>
    dsimp only
    delta execMzero execMzeroRel execMpair execMdrainNames
    exact matrixStep_goesOn
  | mdrainMemory | mstadd =>
    dsimp only
    delta execMdrainMemory execMstadd
    exact drainStep_goesOn
  | edgeseed | edgechk | edgewait | edgeflip | edgepass =>
    dsimp only
    delta execEdgeseed execEdgechk execEdgewait execEdgeflip execEdgepass
    exact edgeStep_goesOn
  | bcastMin | bcastMax =>
    dsimp only
    delta execBcastMin execBcastMax
    exact bcastStep_goesOn
  | mxq => exact mxq_goesOn _ _ _ _ _
  | swrite => exact swrite_goesOn _ _
  | memoryAccessPerform => exact memoryAccessPerform_goesOn _
  | loadDataArrival => exact loadDataArrival_goesOn _
  | engineOpStart => exact engineOpStart_goesOn _ _
  | drainPerform => exact drainPerform_goesOn _ _
  | addOnStorePerform => exact addOnStorePerform_goesOn _ _
  | br | call | calli | ret | jmpi | regang | exit | nop | drop | free | patld | weave | lanePair | ld | st | atom | fence | wopen
  | spawn | jinit | trap | rte | vsdump | vsload | halt | sleep | sreadLane | trapEntry | spillWriteComplete | cellRefill
  | floorRaiseGrant | payloadArrival | gridStart | deadlockWatchdog | launchTableSlot | peerInboundAccess | peerAcknowledge
  | peerNoAcknowledgeTimeout =>
    dsimp only
    delta execBr execCall execCalli execRet execJmpi execRegang execExit execNop execDrop execFree execPatld execWeave
      execLanePair execLd execSt execAtom execFence execWopen execSpawn execJinit execTrap execRte execVsdump execVsload execHalt
      execSleep execSreadLane execTrapEntry execSpillWriteComplete execCellRefill execFloorRaiseGrant execPayloadArrival
      execGridStart execDeadlockWatchdog execLaunchTableSlot execPeerInboundAccess execPeerAcknowledge
      execPeerNoAcknowledgeTimeout
    split
    · exact goesOn_next _
    · exact goesOn_next _

/-! ### A step -/

theorem onNext_goesOn {r : Result} (h : GoesOn r) (f : State → State) : GoesOn (onNext r f) := by
  obtain ⟨t, rfl⟩ := h
  exact goesOn_next (f t)

theorem planned_goesOn : GoesOn (planned s) := by
  unfold planned
  split
  · exact onNext_goesOn (exec_goesOn _) _
  · exact onNext_goesOn (exec_goesOn _) _
  · exact onNext_goesOn (exec_goesOn _) _

theorem step_goesOn : GoesOn (step s) := by
  unfold step
  split
  · split
    · exact goesOn_next _
    · split
      · exact planned_goesOn
      · exact onNext_goesOn (exec_goesOn _) _
  · exact planned_goesOn
end

end Sys2Proof.Machine

open Sys2Proof.Machine

/-- Settles O58: each meaning goes on, and a step only carries the next state of one further. -/
theorem everyStepGoesOn : Obligations.EveryStepGoesOn := by
  unfold Obligations.EveryStepGoesOn
  exact ⟨fun _ _ => exec_goesOn _, fun _ => step_goesOn⟩
end
